-- ==== Sys2Proof/Syntax.lean ====
section
/-! DEFINITION. The commands the module takes from outside, one constructor per row of spec/opcode_table.json, and
the data they carry. A command is a write or a read by one of the module's requesters, a packet or frame arriving on
a port, or an event whose moment has come (a unit's clock edge, a sensor's sample, a supply or a pin). -/
namespace Sys2Proof

/-- Who makes an access (18_cores_management.md R447). -/
inductive Requester where
  /-- an application core -/
  | app
  /-- a control core of a die -/
  | control (d : Fin 2)
  /-- the management path -/
  | mgmt
  deriving DecidableEq, Repr

/-- Which half of a 64-bit register a read names (00_scope.md R10). -/
inductive Half where
  | whole | lower | upper
  deriving DecidableEq, Repr

/-- What a die's boot code found when it trained memory and tested the pods (19_boot_security.md R469, R15). -/
structure BootReport where
  failedSlots : List Nat
  deriving DecidableEq, Repr

/-- Events of a hatch in one quarter, as its estimator counts them (16_power_thermal.md R401). -/
structure QuarterEvents where
  edges : Nat                      -- edges delivered
  arrays : Nat                     -- busy array hc
  pipes : Nat                      -- hc of occupied issue ports
  bytes : Nat                      -- scratchpad bytes moved
  flits : Nat                      -- flits sent
  granules : Nat                   -- memory granules requested
  deriving DecidableEq, Repr

/-- What training learns of the peer (14_links.md R353). -/
structure PeerHello where
  modId : BitVec 14
  port : BitVec 4
  versions : BitVec 8
  deriving DecidableEq, Repr

/-- A link packet as received; the command's row is its TYPE (14_links.md R351, R352). -/
structure Packet where
  vl : BitVec 8
  units : BitVec 8
  hops : BitVec 8
  dst : BitVec 16
  src : BitVec 16
  seq : BitVec 32
  ack : BitVec 32
  credits : BitVec 64
  body : BitVec 256
  flags : BitVec 8
  rsv : BitVec 24
  crc : BitVec 32
  payload : List (BitVec 8)
  corrected : Nat                  -- FEC codewords of the packet that the decoder corrected, and could not (R350)
  uncorrected : Nat
  deriving DecidableEq, Repr

/-- A PMBus sample (16_power_thermal.md R406). -/
structure PowerSample where
  valid : Bool
  watts0 : Nat                     -- input power of die 0, with the module-level domain, and of die 1
  watts1 : Nat
  deriving DecidableEq, Repr

/-- What a die's energy counters take in for one 10 µs period (16_power_thermal.md R413): weighted energies of R401
in pJ and granules moved by update engines, by partition; granules and 64-byte link units by copy channel; and the
die's measured energy in µJ. -/
structure EnergySample where
  hatches : List Nat
  upes : List Nat
  granules : List Nat
  units : List Nat
  measured : Nat
  deriving DecidableEq, Repr

/-- An inbound PCIe access (18_cores_management.md R442): a write's bytes, or none and the number of bytes to read. -/
structure Dma where
  device : BitVec 16
  addr : BitVec 64
  data : Option (List (BitVec 8))
  len : Nat
  deriving DecidableEq, Repr

/-- A UDP datagram that reaches port 47,225 of the management port: its source and its payload (18_cores_management.md
R454, R455). -/
structure MgmtReq where
  ip : BitVec 128
  port : BitVec 16
  bytes : List (BitVec 8)
  deriving DecidableEq, Repr

/-- The commands the module takes: one constructor per row of the table of operations and events. -/
inductive Instr where
  /-- STANDBY_POWER_GOOD (R516): The standby rails come into tolerance, STBY_PG rises and the warden ROM begins boot stage 1. -/
  | standbyPowerGood (smbAddr : BitVec 2)
  /-- BOOT_STAGE_2 (R469): Once REFCLK and the input have been stable long enough, the warden checks OWNER_ROOT and powers the module-level domain, die 0 and die 1 in order. -/
  | bootStage2
  /-- BOOT_STAGE_5 (R469): Boot code trains memory, restores the repair journal, builds the sparing map, selects and checks the set-up record, writes the protection set-up and reports complete. -/
  | bootStage5 (d : Fin 2) (good : BootReport)
  /-- REGISTER_WRITE (R8): A write to a register that has no row of its own acts according to its access codes, with a bus error on a bad width or address. -/
  | registerWrite (r : Requester) (addr : BitVec 48) (width : Nat) (value : BitVec 64)
  /-- CORE_MEMORY_WRITE (R280): A core or management write to memory is served in SERVICE slots, and a write narrower than a granule is merged by a read-modify-write. -/
  | coreMemoryWrite (r : Requester) (addr : BitVec 48) (data : List (BitVec 8))
  /-- SCRATCHPAD_SERVICE_ACCESS (R76): A core or management access to a pod's scratchpad or register block waits for a service slot of the running hatch, or is served on the control clock when the hatch is not running. -/
  | scratchpadServiceAccess (r : Requester) (addr : BitVec 48) (width : Nat) (write : Option (BitVec 64))
  /-- SERVICE_ACCESS_COMPLETE (R76): A service access completes 24 hc after its service slot, plus the crossing time. -/
  | serviceAccessComplete (g : Fin 256)
  /-- BRIDGE_UNCORRECTABLE_ERROR (R18): The bridge detects an error it cannot correct, poisons the data, freezes the black box and requests a warm module reset. -/
  | bridgeUncorrectableError (addr : BitVec 48)
  /-- LOAD (R46): The LOAD command copies a plate image from APC_PLT_SRC_ADDR into the partition's staged slot, which goes to COPYING. -/
  | load (r : Requester) (p : Fin 8) (replace : Bool)
  /-- LOAD_COPY_COMPLETE (R46): The copy into the staged slot completes and STAGED moves to VERIFYING. -/
  | loadCopyComplete (p : Fin 8)
  /-- LOAD_VERIFY_COMPLETE (R47): The loader finishes its checks in fault-code order and records READY, or REFUSED with the first failing check. -/
  | loadVerifyComplete (p : Fin 8)
  /-- ACTIVATE (R48): The ACTIVATE command distributes a READY staged plate or reactivates a fenced one, retiring any running plate at its next step boundary first. -/
  | activate (r : Requester) (p : Fin 8)
  /-- ACTIVATE_DISTRIBUTION_COMPLETE (R65): Distribution completes: sync counters are written, APC_PLT_STEP is set to START_STEP, frame entries are installed and the hatch generators go to STARTING. -/
  | activateDistributionComplete (p : Fin 8)
  /-- HATCH_START_EDGE (R66): The generator locks at phase 0's OPP and delivers the start edge hc 0 to every octet, and the plate reaches RUNNING. -/
  | hatchStartEdge (n : Fin 32)
  /-- RETIRE (R49): The RETIRE command retires the active plate once the step in progress completes, or at once when no step is in progress. -/
  | retire (r : Requester) (p : Fin 8)
  /-- RETIRE_COMPLETE (R49): Retirement stops the hatch clocks, destroys descriptors, breaks and releases counters, discards permits and brings the active slot to NONE. -/
  | retireComplete (p : Fin 8)
  /-- DISCARD (R53): The DISCARD command empties a READY or REFUSED staged slot. -/
  | discard (r : Requester) (p : Fin 8)
  /-- ABORT (R52): The ABORT command ends a load in progress with ABORTED, or records ALREADY_COMPLETE when the outcome was already recorded. -/
  | abort (r : Requester) (p : Fin 8)
  /-- BAD_COMMAND (R60): A write of APC_PLT_CMD with an unlisted OP records BAD_COMMAND. -/
  | badCommand (r : Requester) (p : Fin 8) (op : BitVec 4)
  /-- PERMIT_WRITE (R56): A write to APC_PLT_PERMIT adds permits, saturates, or discards them with PERMIT_LOST according to the plate state. -/
  | permitWrite (r : Requester) (p : Fin 8) (n : BitVec 32)
  /-- NOP (R524): A NOP control stroke launches and does nothing. -/
  | nop (g : Fin 256)
  /-- LOOP (R71): A LOOP stroke repeats its body for the iteration count at the iteration period. -/
  | loop (g : Fin 256)
  /-- PHASE (R397): A PHASE stroke of the lowest burin selects a new phase, which governs the hatch from the next grant. -/
  | phase (g : Fin 256)
  /-- END_STEP (R524): An END_STEP stroke ends the burin's pass and continues with stroke 0. -/
  | endStep (g : Fin 256)
  /-- DELAY (R71): A DELAY stroke postpones the next stroke by COUNT hc. -/
  | delay (g : Fin 256)
  /-- PERMIT_WAIT (R524): A hatch-wide PERMIT_WAIT stroke starts waiting on the partition's permit. -/
  | permitWait (g : Fin 256)
  /-- WAIT_RELEASE (R72): A permit or sync wait condition first holds, the release cycle is fixed 4 hc later, and a permit is consumed or a BROKEN status stops the hatch. -/
  | waitRelease (n : Fin 32) (c : Nat)
  /-- HATCH_SLEEP (R67): A hatch that has stood in a common wait for POD_SLEEP_DELAY hc with nothing in flight enters SLEEPING. -/
  | hatchSleep (n : Fin 32)
  /-- SEND (R525): A pod-network SEND stroke copies a run of flits from the sender's scratchpad to a pod of the same hatch. -/
  | send (g : Fin 256)
  /-- SEND_FLIT_DELIVERY (R525): A flit is written at the destination L − 4 hc after it is read at the sender. -/
  | sendFlitDelivery (g : Fin 256)
  /-- QUARTER_BOUNDARY_ESTIMATE (R402): At each quarter boundary the generator forms D and computes the next bubble ratio from the grant, gain and floors. -/
  | quarterBoundaryEstimate (n : Fin 32) (ev : QuarterEvents)
  /-- MXA_CONFIG (R116): A matrix CONFIG stroke sets operand types, scaling, stride and scale addresses for later LOADs and STREAMs. -/
  | mxaConfig (g : Fin 256)
  /-- MXA_LOAD (R117): A matrix LOAD stroke reads weight rows into the shadow plane, which is marked LOADING. -/
  | mxaLoad (g : Fin 256)
  /-- MXA_PLANE_USABLE (R117): The loaded plane becomes READY at u + ROWS + 1. -/
  | mxaPlaneUsable (g : Fin 256)
  /-- MXA_STREAM (R118): A matrix STREAM stroke launches stream rows against the active plane, optionally swapping planes first. -/
  | mxaStream (g : Fin 256)
  /-- MXA_ROW_RESULT (R111): A stream row's 32 results are written to scratchpad and its sticky flags are set. -/
  | mxaRowResult (g : Fin 256)
  /-- ADD (R147): A vector ADD operation launches on its pipe. -/
  | add (g : Fin 256) (pipe : Fin 2) (stip : Bool)
  /-- SUB (R147): A vector SUB operation launches on its pipe. -/
  | sub (g : Fin 256) (pipe : Fin 2) (stip : Bool)
  /-- MUL (R147): A vector MUL operation launches on its pipe. -/
  | mul (g : Fin 256) (pipe : Fin 2) (stip : Bool)
  /-- FMA (R147): A vector FMA operation launches on its pipe. -/
  | fma (g : Fin 256) (pipe : Fin 2) (stip : Bool)
  /-- MIN (R147): A vector MIN operation launches. -/
  | min (g : Fin 256) (pipe : Fin 2) (stip : Bool)
  /-- MAX (R147): A vector MAX operation launches. -/
  | max (g : Fin 256) (pipe : Fin 2) (stip : Bool)
  /-- MOV (R146): A vector MOV operation launches. -/
  | mov (g : Fin 256) (pipe : Fin 2) (stip : Bool)
  /-- MOVI (R149): A vector MOVI operation writes an immediate. -/
  | movi (g : Fin 256) (pipe : Fin 2) (stip : Bool)
  /-- IOTA (R149): A vector IOTA operation writes the immediate plus the element index. -/
  | iota (g : Fin 256) (pipe : Fin 2) (stip : Bool)
  /-- CMP (R151): A vector CMP operation writes a predicate into a mask. -/
  | cmp (g : Fin 256) (pipe : Fin 2) (stip : Bool)
  /-- SEL (R152): A vector SEL operation selects elements by mask. -/
  | sel (g : Fin 256) (pipe : Fin 2) (stip : Bool)
  /-- MAND (R153): A mask AND operation launches. -/
  | mand (g : Fin 256) (pipe : Fin 2) (stip : Bool)
  /-- MOR (R153): A mask OR operation launches. -/
  | mor (g : Fin 256) (pipe : Fin 2) (stip : Bool)
  /-- MXOR (R153): A mask XOR operation launches. -/
  | mxor (g : Fin 256) (pipe : Fin 2) (stip : Bool)
  /-- MNOT (R153): A mask NOT operation launches. -/
  | mnot (g : Fin 256) (pipe : Fin 2) (stip : Bool)
  /-- MTOT (R153): A mask row is written into tile lanes. -/
  | mtot (g : Fin 256) (pipe : Fin 2) (stip : Bool)
  /-- TTOM (R153): Tile lanes are written into a mask row. -/
  | ttom (g : Fin 256) (pipe : Fin 2) (stip : Bool)
  /-- CVT (R154): A vector type conversion launches. -/
  | cvt (g : Fin 256) (pipe : Fin 2) (stip : Bool)
  /-- QNT (R155): A quantisation into a block-scaled format launches. -/
  | qnt (g : Fin 256) (pipe : Fin 2) (stip : Bool)
  /-- DQN (R155): A dequantisation from a block-scaled format launches. -/
  | dqn (g : Fin 256) (pipe : Fin 2) (stip : Bool)
  /-- IADD (R148): A wrapping integer add launches. -/
  | iadd (g : Fin 256) (pipe : Fin 2) (stip : Bool)
  /-- ISUB (R148): A wrapping integer subtract launches. -/
  | isub (g : Fin 256) (pipe : Fin 2) (stip : Bool)
  /-- IAND (R148): An integer AND launches. -/
  | iand (g : Fin 256) (pipe : Fin 2) (stip : Bool)
  /-- IOR (R148): An integer OR launches. -/
  | ior (g : Fin 256) (pipe : Fin 2) (stip : Bool)
  /-- IXOR (R148): An integer XOR launches. -/
  | ixor (g : Fin 256) (pipe : Fin 2) (stip : Bool)
  /-- SHL (R148): An integer left shift launches. -/
  | shl (g : Fin 256) (pipe : Fin 2) (stip : Bool)
  /-- SHR (R148): A logical right shift launches. -/
  | shr (g : Fin 256) (pipe : Fin 2) (stip : Bool)
  /-- SRA (R148): An arithmetic right shift launches. -/
  | sra (g : Fin 256) (pipe : Fin 2) (stip : Bool)
  /-- PERM (R156): A lane gather within the row launches. -/
  | perm (g : Fin 256) (pipe : Fin 2) (stip : Bool)
  /-- ROT (R157): A lane rotation within the active extent launches. -/
  | rot (g : Fin 256) (pipe : Fin 2) (stip : Bool)
  /-- SETRND (R150): SETRND loads the pipe's rounding context. -/
  | setrnd (g : Fin 256) (pipe : Fin 2) (stip : Bool)
  /-- STIP (R163): A STIP stroke starts a stipple program on one pipe. -/
  | stip (g : Fin 256) (pipe : Fin 2)
  /-- STIPPLE_END (R163): An END instruction ends a stipple slot and links to the next slot, starts the next repetition, or finishes the stipple. -/
  | stippleEnd (g : Fin 256) (pipe : Fin 2)
  /-- VECTOR_ROW_WRITE (R141): A vector operation's row is written L hc after its read, and flags, traps or write clashes are raised. -/
  | vectorRowWrite (g : Fin 256) (pipe : Fin 2)
  /-- EXP2 (R173): A special-function EXP2 operation launches. -/
  | exp2 (g : Fin 256) (pipe : Fin 2) (stip : Bool)
  /-- LOG2 (R173): A special-function LOG2 operation launches. -/
  | log2 (g : Fin 256) (pipe : Fin 2) (stip : Bool)
  /-- PIP (R178): A PIP operation evaluates a curve of the latched active pip table. -/
  | pip (g : Fin 256) (pipe : Fin 2) (stip : Bool)
  /-- PTLOAD (R180): PTLOAD starts loading the shadow pip table from scratchpad and marks it LOADING. -/
  | ptload (g : Fin 256) (pipe : Fin 2) (stip : Bool)
  /-- PIP_TABLE_READY (R180): The shadow pip table becomes READY 4 hc after its fifth read. -/
  | pipTableReady (g : Fin 256) (pipe : Fin 2)
  /-- PTSWAP (R181): PTSWAP exchanges the pipe's active and shadow pip tables. -/
  | ptswap (g : Fin 256) (pipe : Fin 2) (stip : Bool)
  /-- STAT (R193): STAT folds a row's mean and variance partial into the status record. -/
  | stat (g : Fin 256) (pipe : Fin 2) (stip : Bool)
  /-- SCMB (R196): SCMB combines the status rows of two records. -/
  | scmb (g : Fin 256) (pipe : Fin 2) (stip : Bool)
  /-- SFIN (R197): SFIN writes VAR, INV or LSE into the status record. -/
  | sfin (g : Fin 256) (pipe : Fin 2) (stip : Bool)
  /-- SCLR (R190): SCLR resets the status records. -/
  | sclr (g : Fin 256) (pipe : Fin 2) (stip : Bool)
  /-- SMAX (R198): SMAX updates the soft-maximum MAX and SUM. -/
  | smax (g : Fin 256) (pipe : Fin 2) (stip : Bool)
  /-- SNRM (R199): SNRM writes soft-maximum normalised outputs. -/
  | snrm (g : Fin 256) (pipe : Fin 2) (stip : Bool)
  /-- SCAN (R202): SCAN applies an associative scan along rows and updates CARRY. -/
  | scan (g : Fin 256) (pipe : Fin 2) (stip : Bool)
  /-- ASCN (R202): ASCN applies the affine recurrence scan and updates CARRY. -/
  | ascn (g : Fin 256) (pipe : Fin 2) (stip : Bool)
  /-- LDT (R209): An LDT stroke moves scratchpad rows into a tile. -/
  | ldt (g : Fin 256)
  /-- STT (R209): An STT stroke moves tile rows into scratchpad. -/
  | stt (g : Fin 256)
  /-- TRANSFER_ROW_ACCESS (R210): A transfer row makes its scratchpad access in its plate hc, and its tile or word write follows. -/
  | transferRowAccess (g : Fin 256)
  /-- MEM_READ (R258): A memory-slot READ stroke sends a granule request to its channel. -/
  | memRead (g : Fin 256)
  /-- MEM_WRITE (R258): A memory-slot WRITE stroke reads two words and claims a write-buffer entry, or holds for backpressure. -/
  | memWrite (g : Fin 256)
  /-- GRANULE_LANDED (R75): A read granule arrives in the pod's landing buffer, ending any read-late hold. -/
  | granuleLanded (g : Fin 256)
  /-- LANDING_WRITE (R258): At t + GAP the pod copies a landed granule into scratchpad, or holds when the granule has not arrived. -/
  | landingWrite (g : Fin 256)
  /-- COPY_ENQUEUE (R227): A copy-channel enqueue stroke puts a copy reference and iteration on a plate-owned channel, or takes an enqueue fault. -/
  | copyEnqueue (g : Fin 256)
  /-- SIGNAL (R323): A SIGNAL stroke releases an increment to a sync counter once prior writes complete. -/
  | signal (g : Fin 256)
  /-- REBASE (R337): A REBASE stroke subtracts the common minimum from the values, consumer counts and triggers of a group's counters. -/
  | rebase (g : Fin 256)
  /-- WAIT (R329): A WAIT stroke adds K to a consumer entry and waits for the counter to reach it. -/
  | wait (g : Fin 256)
  /-- COUNTER_CHANGE_APPLY (R325): The counter unit applies an arriving change to a counter and emits along links when the trigger is passed. -/
  | counterChangeApply (d : Fin 2)
  /-- SYN_SIGNAL (R327): A write of SYN_SIGNAL signals a LIVE or FROZEN counter with RUNTIME set, or is refused. -/
  | synSignal (r : Requester) (d : Fin 2) (v : BitVec 64)
  /-- LATE_SEND (R340): Every 500 µs while a LATE condition holds, the module sends LATE to the remote destinations of the partition's counters. -/
  | lateSend (p : Fin 8)
  /-- LATE_MARK_EXPIRED (R340): A received LATE mark lapses 2 ms after its last refresh. -/
  | lateMarkExpired (p : Fin 8)
  /-- LATE_CAP_EXHAUSTED (R341): LATE's pause of the deadlock timer reaches SYN_LATE_CAP within one episode, so the timer runs again. -/
  | lateCapExhausted (d : Fin 2) (p : Fin 8)
  /-- DEADLOCK_DETECTED (R341): The deadlock timer reaches SYN_DL_WINDOWp, which writes SYN_DL_RECORD and requests a partition reset. -/
  | deadlockDetected (d : Fin 2) (p : Fin 8)
  /-- SYN_DL_RECORD_READ (R10): A read of the RC register SYN_DL_RECORD returns and removes the record. -/
  | synDlRecordRead (d : Fin 2) (half : Half)
  /-- PORT_TRAIN (R353): The TRAIN command starts training of a port. -/
  | portTrain (r : Requester) (k : Fin 16)
  /-- PORT_DOWN (R354): The DOWN command takes a port DOWN after its drain. -/
  | portDown (r : Requester) (k : Fin 16)
  /-- PORT_DOWN_DRAIN_TIMEOUT (R434): 20 µs after DOWN, queued packets are answered as for a FAILED port. -/
  | portDownDrainTimeout (k : Fin 16)
  /-- PORT_SIGNAL_DETECTED (R354): Signal is detected on a DOWN port while MODULE_ID is valid, and training starts. -/
  | portSignalDetected (k : Fin 16)
  /-- PORT_TRAINING_COMPLETE (R353): Training negotiates a version and brings the port UP, or DOWN with reason VERSION. -/
  | portTrainingComplete (k : Fin 16) (peer : PeerHello)
  /-- PORT_SIGNAL_LOST (R354): A port loses signal or block lock and goes DOWN or FAILED. -/
  | portSignalLost (k : Fin 16) (lock : Bool)
  /-- LANE_FAILURE (R365): A version-2 port loses a lane and moves to DEGRADED on the other pair, or a version-1 port goes DOWN. -/
  | laneFailure (k : Fin 16) (lane : Fin 4)
  /-- EGRESS_TURN (R358): A port's egress takes the next turn of the fixed virtual-lane rotation and sends a packet if credits allow. -/
  | egressTurn (k : Fin 16)
  /-- IDLE_TIMER (R352): A port with nothing else to send transmits an IDLE packet at least every 1 µs. -/
  | idleTimer (k : Fin 16)
  /-- ACK_TIMEOUT (R359): After 1.5 µs without an acknowledgement the sender replays from the oldest unacknowledged packet. -/
  | ackTimeout (k : Fin 16)
  /-- SPAN (R222): A received SPAN packet is written into the peer's range through its slots, or refused. -/
  | span (k : Fin 16) (pkt : Packet)
  /-- SYNC (R333): A received SYNC packet signals its destination counter exactly once, or draws SYNC_BROKEN from a FREE or BROKEN counter. -/
  | sync (k : Fin 16) (pkt : Packet)
  /-- LATE (R340): A received LATE packet marks the partition late for 2 ms and is forwarded under the hop rule. -/
  | late (k : Fin 16) (pkt : Packet)
  /-- FREEZE (R367): A received FREEZE packet freezes the partition's counters and is forwarded. -/
  | freeze (k : Fin 16) (pkt : Packet)
  /-- SPAN_ACK (R333): A SPAN_ACK confirms acceptance of a span, and the last one lets the REMOTE copy reach DONE. -/
  | spanAck (k : Fin 16) (pkt : Packet)
  /-- SPAN_REFUSED (R232): A SPAN_REFUSED ends the copy with REMOTE_REFUSED. -/
  | spanRefused (k : Fin 16) (pkt : Packet)
  /-- SYNC_BROKEN (R334): A SYNC_BROKEN packet breaks the named LIVE or FROZEN counter with cause PEER. -/
  | syncBroken (k : Fin 16) (pkt : Packet)
  /-- UNREACHABLE (R361): An UNREACHABLE reply makes the packet lost: a span ends LINK_FAILED or a sync freezes its counter. -/
  | unreachable (k : Fin 16) (pkt : Packet)
  /-- IDLE (R352): A received IDLE packet delivers credits and acknowledgements. -/
  | idle (k : Fin 16) (pkt : Packet)
  /-- RYL_MODULE_ID_WRITE (R375): A write of RYL_MODULE_ID sets the module id on both dies and SYN_MODULE_ID, or is discarded while Ryastus ports are not DOWN. -/
  | rylModuleIdWrite (r : Requester) (d : Fin 2) (v : BitVec 32)
  /-- RYL_SPARE_STEER (R366): A write of RYL_SPARE_STEERj steers a spare lane into a port lane and retrains it, or releases it. -/
  | rylSpareSteer (r : Requester) (d : Fin 2) (j : Fin 2) (v : BitVec 32)
  /-- ROUTING_TABLE_WRITE (R363): A management write replaces 8 routing or injection entries at once, and other requesters are discarded. -/
  | routingTableWrite (r : Requester) (d : Fin 2) (table : Fin 9) (word : Fin 2048) (v : BitVec 32)
  /-- CONTINUE (R368): The CONTINUE command resumes a frozen partition and sends its held totals, or is refused with BUSY. -/
  | continuePart (r : Requester) (d : Fin 2) (p : Fin 8)
  /-- ABANDON (R368): The ABANDON command breaks a frozen partition's counters with cause PEER and resets the partition. -/
  | abandon (r : Requester) (d : Fin 2) (p : Fin 8)
  /-- ETHERNET_FRAME_RECEIVED (R370): A frame on an Ethernet-mode port goes to the query lane or to a receive ring. -/
  | ethernetFrameReceived (k : Fin 2) (frame : List (BitVec 8))
  /-- JENOST_REQUEST (R372): A Jenost REQUEST fragment is reassembled, and on its last fragment the lane admits the request or answers BUSY or ERROR. -/
  | jenostRequest (k : Fin 2) (frame : List (BitVec 8))
  /-- JENOST_REASSEMBLY_TIMEOUT (R372): Fragments missing 100 µs after the first are answered ERROR INCOMPLETE. -/
  | jenostReassemblyTimeout (idx : Nat)
  /-- QUERY_STEP_RELEASE (R373): The lane releases the next step as a permit at a + t_land when idle or when the previous step completes. -/
  | queryStepRelease
  /-- QUERY_RESULT (R374): Within 5 µs of a step's completion the lane sends RESULT frames for its admitted requests. -/
  | queryResult
  /-- ALLOC (R211): The ALLOC command creates an allocated range, or refuses it with a conflict. -/
  | alloc (r : Requester) (d : Fin 2) (p : Fin 8) (space : Bool) (writable : Bool)
  /-- FREE (R212): The FREE command releases a range and bumps its generation, or refuses with RANGE_BUSY. -/
  | free (r : Requester) (d : Fin 2)
  /-- CPY_RANGE_BAD_COMMAND (R239): A write of CPY_RANGE_CMD with OP 0 or 3 records BAD_COMMAND. -/
  | cpyRangeBadCommand (r : Requester) (d : Fin 2) (op : BitVec 2)
  /-- RANGE_COMMAND_COMPLETE (R239): A range command completes, clears BUSY and reports its RESULT. -/
  | rangeCommandComplete (d : Fin 2)
  /-- DESCRIBE_TENSOR (R216): DESCRIBE_TENSOR copies an image and runs the describe checks to create a runtime tensor descriptor. -/
  | describeTensor (r : Requester) (d : Fin 2) (p : Fin 8) (index : Fin 4096)
  /-- DESCRIBE_COPY (R223): DESCRIBE_COPY copies an image and runs the copy-descriptor checks to create a runtime copy descriptor. -/
  | describeCopy (r : Requester) (d : Fin 2) (p : Fin 8) (index : Fin 4096)
  /-- DESTROY (R218): DESTROY removes a runtime descriptor, or reports IN_USE or NO_ENTRY. -/
  | destroy (r : Requester) (d : Fin 2) (p : Fin 8) (index : Fin 4096)
  /-- CPY_DESC_BAD_COMMAND (R239): A write of CPY_DESC_CMD with OP 0 records BAD_COMMAND. -/
  | cpyDescBadCommand (r : Requester) (d : Fin 2)
  /-- DESC_COMMAND_COMPLETE (R239): A describe command completes, clears BUSY and reports its RESULT. -/
  | descCommandComplete (d : Fin 2)
  /-- CPY_CH_OWNER_WRITE (R239): A write of CPY_CH_OWNER takes or frees a channel when it is IDLE. -/
  | cpyChOwnerWrite (r : Requester) (d : Fin 2) (n : Fin 32) (v : BitVec 32)
  /-- CPY_CH_ENQ (R227): A runtime enqueue puts a copy on a runtime-owned channel, or is discarded with QFULL. -/
  | cpyChEnq (r : Requester) (d : Fin 2) (n : Fin 32) (v : BitVec 64)
  /-- CPY_CH_ABORT (R236): The channel ABORT command aborts the head copy with its destination poisoned, or reports ALREADY_COMPLETE. -/
  | cpyChAbort (r : Requester) (d : Fin 2) (n : Fin 32)
  /-- CPY_CH_DISABLE (R235): The channel DISABLE command frees, drains or flushes a channel according to its state. -/
  | cpyChDisable (r : Requester) (d : Fin 2) (n : Fin 32)
  /-- CPY_CH_RESUME (R229): The channel RESUME command returns a HALTED channel to IDLE and flushes its queue. -/
  | cpyChResume (r : Requester) (d : Fin 2) (n : Fin 32)
  /-- COPY_DONE (R230): A copy writes its last destination byte, writes its record, signals its counter and sets DONE. -/
  | copyDone (d : Fin 2) (n : Fin 32)
  /-- COPY_DEADLINE_EXPIRED (R233): A copy's deadline passes, which sets LATE and aborts the copy with ABORT_LATE. -/
  | copyDeadlineExpired (d : Fin 2) (n : Fin 32)
  /-- COPY_DRAIN_TIMEOUT (R235): A draining channel reaches CPY_DRAIN_TIMEOUT, so the head copy is aborted poisoned and the queue flushed. -/
  | copyDrainTimeout (d : Fin 2) (n : Fin 32)
  /-- CPY_CH_RING_TAIL_WRITE (R231): A write of RING_TAIL frees ring room and lets a waiting record be written. -/
  | cpyChRingTailWrite (r : Requester) (d : Fin 2) (n : Fin 32) (v : BitVec 32)
  /-- CHANNEL_SLOT_SERVICE (R254): A memory channel slot serves the head request of its owner, refresh, scrub or service, subject to row-change spacing and borrowing. -/
  | channelSlotService (st : Fin 16) (c : Fin 256)
  /-- MIGRATION_COMMIT (R291): A remap entry commits once every granule is copied with none marked, and accesses go to the spare. -/
  | migrationCommit (st : Fin 16) (c : Fin 256)
  /-- FRAME_BOUNDARY (R253): At a frame boundary the stack installs new plate entries or returns a partition's entries to IDLE. -/
  | frameBoundary (st : Fin 16)
  /-- REGION_ENTRY_COMMIT (R245): A write of region-table word 0 commits the entry, or fails with SLAB_CONFLICT or BAD_ENTRY. -/
  | regionEntryCommit (r : Requester) (d : Fin 2) (idx : Fin 512) (v : BitVec 64)
  /-- STACK_TEMPERATURE_SAMPLE (R265): Every 10 µs the stack controller samples its sensors and enters or leaves thermal levels with their responses. -/
  | stackTemperatureSample (st : Fin 16) (reading : BitVec 12)
  /-- STACK_THERMAL_TRIP (R268): A stack trip makes the warden take both dies into die reset and freeze the black box within 10 µs. -/
  | stackThermalTrip (st : Fin 16)
  /-- SCRUB_READ_DUE (R283): A scrub read falls due every INTERVAL frames and is made in a free REFRESH slot. -/
  | scrubReadDue (st : Fin 16) (c : Fin 256)
  /-- SCRUB_WRITEBACK (R285): A corrected granule is written back, and then re-read, in the next usable slot. -/
  | scrubWriteback (st : Fin 16) (c : Fin 256)
  /-- BUCKET_LEAK (R288): Every LEAK_MS the corrected-error bucket level falls by one. -/
  | bucketLeak (st : Fin 16)
  /-- MCH_PIN_FAIL_READ (R294): A read of the RC queue MCH_PIN_FAIL returns and removes the oldest failing pin. -/
  | mchPinFailRead (st : Fin 16)
  /-- MCH_FLIP_CTRL_WRITE (R293): A write of MCH_FLIP_CTRL arms an error injection on the next service write to a channel. -/
  | mchFlipCtrlWrite (r : Requester) (st : Fin 16) (v : BitVec 64)
  /-- POD_FLIP_CTRL_WRITE (R293): A write of POD_FLIP_CTRL arms an error injection on the next service write to the scratchpad. -/
  | podFlipCtrlWrite (r : Requester) (g : Fin 256) (v : BitVec 32)
  /-- UPE_GRAD_WAIT_RELEASE (R311): The engine's GRAD_CTR wait is satisfied and the gather sweep starts, or a frozen layer signals DONE at once. -/
  | upeGradWaitRelease (st : Fin 16) (p : Fin 8)
  /-- UPE_GATHER_COMPLETE (R312): The gather sweep ends with a check code, and shards signal REFUSE_CTR and ARRIVE_CTR. -/
  | upeGatherComplete (st : Fin 16) (p : Fin 8)
  /-- UPE_ARRIVE_WAIT_RELEASE (R311): All shards have arrived, and the engine compares REFUSE_CTR with its snapshot. -/
  | upeArriveWaitRelease (st : Fin 16) (p : Fin 8)
  /-- UPE_COMMIT_WAIT_RELEASE (R311): The commit barrier releases, and the engine reports a refusal or starts the apply sweep. -/
  | upeCommitWaitRelease (st : Fin 16) (p : Fin 8)
  /-- UPE_APPLY_COMPLETE (R313): The apply sweep writes the final STATE and signals DONE_CTR. -/
  | upeApplyComplete (st : Fin 16) (p : Fin 8)
  /-- UPE_REFUSAL_READ (R319): A read of the RC queue UPE_REFUSAL returns and removes the oldest refusal record. -/
  | upeRefusalRead (st : Fin 16) (half : Half)
  /-- STEWARD_GRANT (R398): Every 10 µs the steward computes grants and OPP steps for every unpinned running hatch. -/
  | stewardGrant
  /-- GRANT_APPLIED (R398): A grant arrives at a generator and replaces the previous one at its next quarter boundary. -/
  | grantApplied (n : Fin 32)
  /-- OPP_CHANGE_COMPLETE (R395): An OPP rise or fall completes at its new frequency and supply. -/
  | oppChangeComplete (n : Fin 32)
  /-- GENERATOR_FALLBACK (R400): A generator without a grant for 100 µs keeps its last grant and drops to OPP 0. -/
  | generatorFallback (n : Fin 32)
  /-- TELEMETRY_SAMPLE (R406): Each 1 ms PMBus sample updates the gain, cuts grants above the cap and checks for mismatch. -/
  | telemetrySample (smp : PowerSample)
  /-- TELEMETRY_LOST (R406): No valid sample for 10 ms holds G at 1.50 and sets TELEMETRY_LOST. -/
  | telemetryLost
  /-- PWS_CAP_HOST_WRITE (R403): A write of PWS_CAP_HOST sets the host cap, clamped to 600–2,000 W. -/
  | pwsCapHostWrite (r : Requester) (d : Fin 2) (v : BitVec 32)
  /-- PWS_CAP_MGMT_WRITE (R403): A management write of PWS_CAP_MGMT sets the management cap, clamped to 600–2,000 W. -/
  | pwsCapMgmtWrite (r : Requester) (d : Fin 2) (v : BitVec 32)
  /-- DIE_TEMPERATURE_SAMPLE (R408): Every 10 µs the die samples its sensors and applies die floors. -/
  | dieTemperatureSample (d : Fin 2) (readings : List (BitVec 12))
  /-- DIE_THERMAL_TRIP (R412): A die trip makes the warden reset both dies, freeze the black box and latch WRD_TRIP_STATUS. -/
  | dieThermalTrip (d : Fin 2)
  /-- TRIP_SENSOR_POLL (R412): While a trip is latched, the warden reads every sensor each 1 ms. -/
  | tripSensorPoll (hottest : BitVec 12)
  /-- WRD_TRIP_CLEAR (R412): A management write of the key releases the trip when every reading is at or below 80 °C, or is refused. -/
  | wrdTripClear (r : Requester) (v : BitVec 32)
  /-- DROOP_DETECTED (R410): A supply droop of 4 % stretches 256 edges of every TRACK hatch and applies a floor of 32/64. -/
  | droopDetected (d : Fin 2)
  /-- DROOP_FLOOR_EXPIRED (R410): The droop floor ends after 2 µs. -/
  | droopFloorExpired (d : Fin 2)
  /-- DROOP_REARM (R410): The droop detector re-arms 1 µs after firing. -/
  | droopRearm (d : Fin 2)
  /-- ENERGY_ACCUMULATE (R413): Every 10 µs the energy counters accumulate partition, copy and floor energy. -/
  | energyAccumulate (d : Fin 2) (e : EnergySample)
  /-- RST_CMD_POD (R424): An RST_CMD POD resets one pod, or a whole partition when its plate is live. -/
  | rstCmdPod (r : Requester) (d : Fin 2) (v : BitVec 32)
  /-- RST_CMD_HATCH (R424): An RST_CMD HATCH resets one hatch, or a whole partition when its plate is live. -/
  | rstCmdHatch (r : Requester) (d : Fin 2) (v : BitVec 32)
  /-- RST_CMD_PARTITION (R423): An RST_CMD PARTITION requests a partition reset with cause COMMAND. -/
  | rstCmdPartition (r : Requester) (d : Fin 2) (v : BitVec 32)
  /-- RST_CMD_DIE (R420): An RST_CMD DIE requests a die reset from the warden. -/
  | rstCmdDie (r : Requester) (d : Fin 2) (v : BitVec 32)
  /-- PARTITION_RESET (R423): A partition reset stops every hatch, captures the crash slot, breaks counters, ends channels, resets pods and fences the plate on both dies. -/
  | partitionReset (p : Fin 8)
  /-- CRASH_CAPTURE_CUT (R423): Stages 2 and 3 of a partition reset are cut off after 1 ms, and the header records CUT. -/
  | crashCaptureCut (p : Fin 8) (records : Nat) (sampleBytes : Nat)
  /-- HANG_DETECTED (R421): A hatch's hang timer reaches RST_HANG_TIMEOUT and requests a partition reset with cause HANG. -/
  | hangDetected (n : Fin 32)
  /-- RETIRE_DRAIN_TIMEOUT (R434): A RETIRE that has not completed by RST_DRAIN_TIMEOUT becomes a partition reset with cause COMMAND. -/
  | retireDrainTimeout (p : Fin 8)
  /-- RESET_DEADLINE_MISSED (R430): A reset that misses its deadline is taken over by the next larger domain with cause ESCALATED. -/
  | resetDeadlineMissed (p : Fin 8)
  /-- RST_CRASH_ACK (R425): A write of RST_CRASH_ACKp sets both halves of the crash slot to EMPTY. -/
  | rstCrashAck (r : Requester) (d : Fin 2) (p : Fin 8)
  /-- DIE_RESET (R417): The warden resets one die: counters break and go FREE, plate slots empty and memory enters self-refresh. -/
  | dieReset (d : Fin 2)
  /-- WARM_MODULE_RESET (R417): The warden resets both dies and the application-core complex, and boot restarts at stage 4. -/
  | warmModuleReset
  /-- COLD_MODULE_RESET (R417): The whole module resets, every port goes DOWN and the warden restarts. -/
  | coldModuleReset
  /-- WRD_RESET_CMD_WARM (R437): A keyed management write requests a warm module reset. -/
  | wrdResetCmdWarm (r : Requester) (v : BitVec 32)
  /-- WRD_RESET_CMD_COLD (R437): A keyed management write requests a cold module reset. -/
  | wrdResetCmdCold (r : Requester) (v : BitVec 32)
  /-- WRD_HEARTBEAT (R449): A control-core write of WRD_HEARTBEATd restarts that die's watchdog. -/
  | wrdHeartbeat (r : Requester) (d : Fin 2) (v : BitVec 32)
  /-- FW_SILENT (R449): No heartbeat for WRD_WATCHDOG ms sets FW_SILENT and releases the token if that die holds it. -/
  | fwSilent (d : Fin 2)
  /-- WRD_TOKEN_CAS (R451): A control-core compare-and-swap claims or releases the in-charge token. -/
  | wrdTokenCas (r : Requester) (v : BitVec 64)
  /-- OWNERSHIP_CONFLICT (R453): Firmware finds the record differs from its belief, abandons its command and logs the conflict. -/
  | ownershipConflict (d : Fin 2) (epoch : BitVec 32)
  /-- MGMT_READ32 (R456): A management READ32 request reads 32-bit registers. -/
  | mgmtRead32 (dg : MgmtReq)
  /-- MGMT_READ64 (R456): A management READ64 request reads 64-bit registers. -/
  | mgmtRead64 (dg : MgmtReq)
  /-- MGMT_WRITE32 (R456): A management WRITE32 request writes 32-bit registers. -/
  | mgmtWrite32 (dg : MgmtReq)
  /-- MGMT_WRITE64 (R456): A management WRITE64 request writes 64-bit registers. -/
  | mgmtWrite64 (dg : MgmtReq)
  /-- BBX_READ (R500): A management BBX_READ request returns whole black-box entries. -/
  | bbxRead (dg : MgmtReq)
  /-- MGMT_STATUS (R456): A management STATUS request returns the power, token, trip, reset and event registers. -/
  | mgmtStatus (dg : MgmtReq)
  /-- SMB_STATUS (R457): The SMBus STATUS block read returns the STATUS bytes. -/
  | smbStatus
  /-- SMB_TEMPS (R457): The SMBus TEMPS block read returns the hottest readings. -/
  | smbTemps
  /-- SMB_POWER (R457): The SMBus POWER block read returns input power and voltage. -/
  | smbPower
  /-- AO_READ (R457): The SMBus AO_READ reads an always-on register. -/
  | aoRead (a : BitVec 32)
  /-- AO_WRITE (R457): The SMBus AO_WRITE writes one of four always-on registers. -/
  | aoWrite (a : BitVec 32) (v : BitVec 32)
  /-- SMB_CAP (R457): The SMBus CAP command writes PWS_CAP_MGMT. -/
  | smbCap (w : BitVec 16)
  /-- WRD_DIE_POWER (R459): A write of WRD_DIE_POWER powers domains up in order, or resets and removes power from cleared dies. -/
  | wrdDiePower (r : Requester) (v : BitVec 32)
  /-- RAIL_POWER_GOOD (R515): A rail reaches 90 % of its set point and the next rail in sequence starts. -/
  | railPowerGood (dom : Fin 3)
  /-- DOMAIN_POWER_UP_COMPLETE (R515): A domain's PLLs lock, it reaches state 2 and the next domain starts. -/
  | domainPowerUpComplete (dom : Fin 3) (stepping : BitVec 8)
  /-- RAIL_POWER_GOOD_TIMEOUT (R517): A rail misses its power-good time, so its domain powers down to state 3. -/
  | railPowerGoodTimeout (dom : Fin 3)
  /-- DOMAIN_POWER_DOWN_COMPLETE (R517): A domain's rails have fallen in reverse order, and any held write of WRD_DIE_POWER takes effect. -/
  | domainPowerDownComplete (dom : Fin 3)
  /-- PERST_RELEASE (R509): PERST# rises at the later of 100 ms after the module-level domain reaches state 2 and the release of the application cores. -/
  | perstRelease
  /-- APC_RING_TAIL_WRITE (R446): A write of APC_RING_TAIL posts receive buffers or transmit frames to an Ethernet ring. -/
  | apcRingTailWrite (r : Requester) (ring : Fin 4) (v : BitVec 32)
  /-- ETHERNET_TRANSMIT_COMPLETE (R446): The port finishes sending a transmit descriptor, sets DONE, advances HEAD and pulses the ring source. -/
  | ethernetTransmitComplete (ring : Fin 2)
  /-- PCIE_INBOUND_DMA (R442): An inbound DMA is translated by the IOMMU and delivered as an MSI or a memory access, or is completed with Unsupported Request. -/
  | pcieInboundDma (dma : Dma)
  /-- SEC_ROLLBACK_CMD (R476): A management write requests an anti-rollback counter advance, or is refused. -/
  | secRollbackCmd (r : Requester) (v : BitVec 32)
  /-- FUSE_ADVANCE_COMPLETE (R477): The warden finishes blowing the counter bits, erases the intent, and a PLATE advance refuses stale READY plates. -/
  | fuseAdvanceComplete
  /-- QUOTE (R480): The QUOTE command builds and signs an attestation quote, or is refused with BUSY. -/
  | quote (r : Requester) (v : BitVec 32)
  /-- QUOTE_COMPLETE (R480): The quote is signed into SEC_QUOTE_BUF, or refused with FLASH or EXHAUSTED. -/
  | quoteComplete
  /-- SEC_MEASURE_EXTEND (R478): A write of SEC_MEASURE_EXTEND extends M5 or M7 with SEC_EXTEND_DATA. -/
  | secMeasureExtend (r : Requester) (v : BitVec 32)
  /-- COMMIT (R481): The management key COMMIT stores the new wrapped key and switches authentication to it. -/
  | commit (r : Requester) (v : BitVec 32)
  /-- FLASH_ERASE (R468): A flash ERASE command erases 64 KiB of an image slot, or is refused. -/
  | flashErase (r : Requester)
  /-- FLASH_PROGRAM (R468): A flash PROGRAM command writes 4 KiB from the buffer, or is refused. -/
  | flashProgram (r : Requester)
  /-- FLASH_READ (R468): A flash READ command reads 4 KiB into the buffer. -/
  | flashRead (r : Requester)
  /-- FLASH_OPERATION_COMPLETE (R483): A flash operation completes and clears BUSY with its RESULT. -/
  | flashOperationComplete
  /-- CNT_FOLD (R491): A write of CNT_FOLD adds a sampling counter's DELTA into CNT_TOTALn and clears DELTA and OVF. -/
  | cntFold (r : Requester) (d : Fin 2) (v : BitVec 32)
  /-- CNT_SAMPLE_CFG_WRITE (R492): A write of CNT_SAMPLE_CFGn reconfigures a sampling counter and clears its DELTA, flags and total. -/
  | cntSampleCfgWrite (r : Requester) (d : Fin 2) (n : Fin 16) (v : BitVec 32)
  /-- BBX_STORE (R497): Each always-on cycle the writer stores one queued event into the black box, assigning SEQ. -/
  | bbxStore
  /-- BBX_POST_WINDOW_EXPIRED (R498): The black box freezes 1 ms after a fatal event if POST events have not yet been stored. -/
  | bbxPostWindowExpired
  /-- BBX_FREEZE (R499): A write of the freeze key to BBX_CTRL freezes the black box at once. -/
  | bbxFreeze (r : Requester) (v : BitVec 32)
  /-- BBX_UNFREEZE (R499): A write of the unfreeze key clears FROZEN and PENDING and stores UNFREEZE. -/
  | bbxUnfreeze (r : Requester) (v : BitVec 32)
  /-- MOD_RESET_ASSERTED (R509): MOD_RESET# held low for 250 samples causes a cold module reset. -/
  | modResetAsserted
  /-- REFCLK_LOST (R511): REFCLK absent for 5 µs causes a cold module reset with CAUSE 0. -/
  | refclkLost
  /-- INPUT_VOLTAGE_FAULT (R512): The input stays outside 39–62 V for 20 µs, causing a cold module reset with the main domains off. -/
  | inputVoltageFault
  /-- STANDBY_POWER_LOST (R501): The input falls below 28 V, so the standby rails stop and the black box empties. -/
  | standbyPowerLost
  /-- MOD_RESET_RELEASED (R509): MOD_RESET# rises again after being held low, and the warden leaves the start of stage 1 and boots. -/
  | modResetReleased
  /-- SPARE_LANE_RETRAIN_COMPLETE (R355): The lane into which a spare was steered finishes retraining, and the DEGRADED port returns to UP on four lanes. -/
  | spareLaneRetrainComplete (k : Fin 16)
  /-- DIE_RESET_COMPLETE (R430): A die reset finishes: the die leaves reset and its control-core firmware starts running again. -/
  | dieResetComplete (d : Fin 2)
  /-- LATE_EPISODE_END (R341): A LATE episode ends once LATE has been out of force for 2 ms without a break, so the next episode gets a fresh SYN_LATE_CAP allowance. -/
  | lateEpisodeEnd (d : Fin 2) (p : Fin 8)
  /-- ETHERNET_PORT_RETRAINED (R446): An Ethernet-mode port 14 or 15 finishes auto-negotiation after a die reset of die 1, and its rings resume at HEAD. -/
  | ethernetPortRetrained (k : Fin 2)
  deriving DecidableEq, Repr

end Sys2Proof
end

