-- ==== Sys2Proof/Config.lean ====
section
/-! DEFINITION. What the spec leaves open: uninterpreted constants. Nothing can evaluate them or prove a value of
them; a claim about the model holds whatever they are. Each is named in the assumption log. -/
namespace Sys2Proof

/-- A tile or mask row of pod `g` after the `n`-th reset that left it undefined (R139): key as in `RowWrite`. -/
opaque Config.undefRow : (n g key : Nat) → BitVec 8192

/-- A choice that the spec leaves open among `k` outcomes it names: the `n`-th one made. -/
opaque Config.pick : (n k : Nat) → Nat

/-- A word of `n` bits that the spec leaves undefined, the `k`-th drawn. -/
opaque Config.free : (n k : Nat) → BitVec n

/-- SEQ of the first packet after training, which the spec does not state (R351, R359). -/
opaque Config.firstSeq : BitVec 32

/-! Bodies of the plate sections whose layout the spec does not give (R34): each is read from the section's bytes by a
function that nothing else is known of. -/

/-- Hatches of a hatch-partition section: lowest logical pod id and number of pods, in record order (R36). -/
opaque Config.hatches : (sec : List Byte) → List (Nat × Nat)

/-- Residues of hc mod 64 that a pod-network section's tables use in pod `g` (R37). -/
opaque Config.netSlots : (sec : List Byte) → (g : Nat) → List Nat

/-- Residues of hc mod 64 that they mark as copy slots of pod `g` (R208). -/
opaque Config.copySlots : (sec : List Byte) → (g : Nat) → List Nat

/-- Stroke program of pod `g` (R69). -/
opaque Config.strokes : (sec : List Byte) → (g : Nat) → List (BitVec 128)

/-- Stipple slots of pod `g`: slot and instructions (R160). -/
opaque Config.stipples : (sec : List Byte) → (g : Nat) → List (Nat × List (BitVec 128))

/-- Descriptors of a tensor-descriptor section: plate-table index, whether it is a copy descriptor, and 64-byte image,
whose HANDLE field holds the range slot in a tensor descriptor (R41, R218). -/
opaque Config.planDescs : (sec : List Byte) → List (Nat × Bool × BitVec 512)

/-- Copy-channel mask of die `d` in a tensor-descriptor section (R226). -/
opaque Config.chanMask : (sec : List Byte) → (d : Nat) → BitVec 32

/-- What the IOMMU makes of an inbound access, the `n`-th one: its physical address, or none (R442). -/
opaque Config.iommu : (n device addr : Nat) → (write : Bool) → Option (BitVec 48)

/-- What the `n`-th read in the PCIe outbound window returns: the root port's configuration registers are those of the PCI
Express Base Specification, and elsewhere a device answers (R441). -/
opaque Config.rootPort : (n : Nat) → (cfg : List (Nat × BitVec 8)) → (off : Nat) → BitVec 64

/-- Level of APLIC source 91–95 (PCIe INTA to INTD, root-port events) under the root port's configuration: the devices
and the link decide it, and the spec does not (18_cores_management.md R443). -/
opaque Config.pcieLine : (source : Nat) → (cfg : List (Nat × BitVec 8)) → Bool

/-- Digest of a set-up record, by a function that the spec does not name (R472). -/
opaque Config.setupDigest : (record : List Byte) → BitVec 256

end Sys2Proof
end

