-- ==== Sys2Proof/Machine/Bits.lean ====
section
/-! DEFINITION. Sparse tables, byte order and field helpers shared by every unit (00_scope.md R3). -/
namespace Sys2Proof.Machine
open Sys2Proof

/-- The value stored under `k`, or `d` where none is. -/
def tget {α : Type} (d : α) : Tbl α → Nat → α
  | [], _ => d
  | (a, v) :: t, k => if a = k then v else if k < a then d else tget d t k

/-- Store `v` under `k`, keeping the keys strictly rising. -/
def tset {α : Type} : Tbl α → Nat → α → Tbl α
  | [], k, v => [(k, v)]
  | (a, w) :: t, k, v =>
    if k < a then (k, v) :: (a, w) :: t
    else if k = a then (k, v) :: t
    else (a, w) :: tset t k v

/-- Drop the entry under `k`; entries out of order, which no table in canonical form has, stay out of sight. -/
def tdel {α : Type} : Tbl α → Nat → Tbl α
  | [], _ => []
  | (a, w) :: t, k =>
    if k < a then (a, w) :: t
    else if a = k then t.dropWhile (fun e => decide (e.1 ≤ k))
    else (a, w) :: tdel t k

/-- The value under `k`, if one is stored. -/
def tfind {α : Type} : Tbl α → Nat → Option α
  | [], _ => none
  | (a, v) :: t, k => if a = k then some v else if k < a then none else tfind t k

/-- The keys strictly rise. -/
def twf {α : Type} : Tbl α → Bool
  | [] => true
  | [_] => true
  | (a, _) :: (b, w) :: t => decide (a < b) && twf ((b, w) :: t)

/-- Update the value under `k`. -/
def tmod {α : Type} (d : α) (t : Tbl α) (k : Nat) (f : α → α) : Tbl α := tset t k (f (tget d t k))

/-- Little-endian bytes of a number (R3). -/
def leBytes : Nat → Nat → List Byte
  | 0, _ => []
  | n + 1, x => BitVec.ofNat 8 x :: leBytes n (x / 256)

/-- The number that little-endian bytes hold (R3). -/
def ofLE : List Byte → Nat
  | [] => 0
  | b :: t => b.toNat + 256 * ofLE t

/-- Put the low `n` bits of `v` at `lo`. -/
def fld (lo n v : Nat) : Nat := (v % 2 ^ n) <<< lo

/-- Apply `f` at the listed indices, in order. -/
def foldNat {σ : Type} : Nat → (Nat → σ → σ) → σ → σ
  | 0, _, s => s
  | n + 1, f, s => f n (foldNat n f s)

/-- The list `[f 0, …, f (n-1)]`. -/
def tab {α : Type} (n : Nat) (f : Nat → α) : List α := (List.range n).map f

/-- Element `i` of a list, or a default. -/
def nth {α : Type} (d : α) (l : List α) (i : Nat) : α := l.getD i d

/-- Replace element `i` of a list. -/
def setNth {α : Type} (l : List α) (i : Nat) (v : α) : List α := l.set i v

/-- Cut a list into groups of `n` (with fuel = its length). -/
def groups {α : Type} (n : Nat) : Nat → List α → List (List α)
  | 0, _ => []
  | _, [] => []
  | k + 1, l => l.take n :: groups n k (l.drop n)

/-- Smallest element satisfying a test, looking at `0 … n-1`. -/
def findNat (n : Nat) (p : Nat → Bool) : Option Nat := (List.range n).find? p

end Sys2Proof.Machine
end

