-- ==== Sys2Proof/Machine/Mem.lean ====
section
/-! DEFINITION. Byte memories: lists of (address, byte) pairs in one canonical form, addresses strictly rising and
no byte 0 listed (an unlisted byte reads 0: DESIGN CHOICE, assumption 2). Used for the stacks' storage cells, each
pod's scratchpad, the plate store, flash and the rings' buffers alike. Little-endian (R3). -/
namespace Sys2Proof.Machine
open Sys2Proof

/-- A byte memory. -/
abbrev Mem := List Host.Cell

/-- The byte at an address. -/
def readByte : Mem → Nat → Byte
  | [], _ => 0#8
  | (a, b) :: t, k => if a = k then b else if k < a then 0#8 else readByte t k

/-- Write one byte, keeping the canonical form. -/
def writeByte : Mem → Nat → Byte → Mem
  | [], k, v => if v = 0#8 then [] else [(k, v)]
  | (a, b) :: t, k, v =>
    if k < a then (if v = 0#8 then (a, b) :: t else (k, v) :: (a, b) :: t)
    else if k = a then (if v = 0#8 then t.dropWhile (fun c => decide (c.1 ≤ k)) else (k, v) :: t)
    else (a, b) :: writeByte t k v

/-- Addresses strictly rise and no listed byte is 0. -/
def Mem.wf : Mem → Bool
  | [] => true
  | [(_, b)] => decide (b ≠ 0#8)
  | (a, b) :: (a', b') :: t => decide (b ≠ 0#8) && decide (a < a') && Mem.wf ((a', b') :: t)

/-- `n` bytes at an address as one little-endian number (R3): one pass over the cells. -/
def mread : Mem → Nat → Nat → Nat
  | [], _, _ => 0
  | (a, b) :: t, k, n =>
    if a < k then mread t k n
    else if a < k + n then
      (b.toNat + mread t (a + 1) (k + n - (a + 1)) * 256) <<< (8 * (a - k))
    else 0

/-- Write the low `n` bytes of `v` at an address, lowest byte first (R3). -/
def mwrite : Nat → Mem → Nat → Nat → Mem
  | 0, m, _, _ => m
  | n + 1, m, k, v => mwrite n (writeByte m k (BitVec.ofNat 8 v)) (k + 1) (v / 256)

/-- `n` bytes as a list. -/
def mbytes (m : Mem) (k n : Nat) : List Byte := leBytes n (mread m k n)

/-- Write a list of bytes. -/
def mput : Mem → Nat → List Byte → Mem
  | m, _, [] => m
  | m, k, b :: t => mput (writeByte m k b) (k + 1) t

/-- Drop every byte of a span. -/
def mclear (m : Mem) (k n : Nat) : Mem := m.filter (fun c => decide (c.1 < k) || decide (k + n ≤ c.1))

end Sys2Proof.Machine
end

