-- ==== Sys2Proof/Machine/State.lean ====
section
/-! DEFINITION. The machine's state as plain data: every register, buffer, queue, counter, mode and pin that the
spec gives the module, the queue of waiting commands, the reasons a step can stop, and the state after reset. Plain
registers (storage that a map of the spec names and no rule shapes further) live in `regs`, keyed by physical
address; what a rule shapes has a field of its own. -/
namespace Sys2Proof.Machine
open Sys2Proof

/-! ## Hatch clocks, burins and pods (03_hatch_timing.md to 09_scratchpad_copy.md) -/

/-- State of a hatch-clock generator (R65). -/
inductive GenSt where
  | stopped | starting | running | held | sleeping
  deriving DecidableEq, Repr

/-- A hatch's entry of the phase-operating-point section for one phase (R396). -/
structure OppEntry where
  opp : Nat := 0
  prio : Nat := 0
  watts : Nat := 0
  deriving DecidableEq, Repr

/-- What the steward and a generator's estimator hold for a hatch (R395, R398–R402, R410). -/
structure HatchPwr where
  phases : List OppEntry := []     -- entries of the plate, by phase
  grant : Nat := 0                 -- grant in force, 0.125 W
  newGrant : Option Nat := none    -- arrived, takes force at the next quarter boundary
  sent : Option Nat := none        -- on its way from the steward
  est : Rat := 0                   -- D of the last quarter, W, and the point at which it was formed
  estOpp : Nat := 0
  estMax : Rat := 0                -- largest D of the period, as at OPP 11
  estSum : Rat := 0                -- estimates of the present 1 ms sample, and their number (R406)
  estCnt : Nat := 0
  fresh : Bool := true             -- activated, or given a phase, since the last grant
  want : Nat := 0                  -- ratio of R402 before floors
  low : Nat := 0                   -- smallest ratio of the period
  oppNew : Option Nat := none      -- change of point in progress
  fallback : Bool := false
  droop : Bool := false            -- droop floor in force
  deriving DecidableEq, Repr

/-- One of the 32 hatch-clock generators, `16 * die + octet` (R24, R65–R68, R81, R85, R397–R402). -/
structure Gen where
  st : GenSt := .stopped
  faulted : Bool := false          -- the clock has been stopped by a fault and awaits the partition reset (R84)
  size : Nat := 0                  -- pods of the hatch; 0 where the generator heads none
  part : Nat := 0                  -- partition of the hatch
  hc : Nat := 0                    -- POD_HC_COUNT (R85)
  holdCause : Nat := 0             -- HOLD_CAUSE (R86)
  holdCount : Nat := 0             -- POD_HOLD_COUNT (R85)
  bubbleCount : Nat := 0           -- POD_BUBBLE_COUNT (R85)
  ratio : Nat := 0                 -- bubble ratio b in force (R81)
  nextRatio : Nat := 0             -- ratio that takes effect at the next window boundary (R81)
  winPos : Nat := 0                -- edge of the 64-edge window (R81)
  opp : Nat := 0                   -- operating point in force (R86)
  phase : Nat := 0                 -- phase in force at the steward (R397)
  newPhase : Nat := 0              -- phase the burin has selected (R397)
  permitWaits : Nat := 0           -- permit waits this hatch has passed (R56)
  slow : List (Nat × Nat) := []    -- hc whose edges are stretched to twice their period: first and last (R79, R127, R410)
  ahead : Option (Nat × Nat) := none       -- edge that may be withheld, and the ramp its stretch was fixed with (R79)
  holdRamp : Nat := 0              -- ramp setting that a hold began with (R128)
  waitKind : Nat := 0              -- 0 no hatch-wide wait, 1 permit, 2 sync (R72)
  waitAt : Nat := 0                -- launch hc of that wait
  waitArg : Nat := 0               -- its ARGS
  waitPods : Nat := 0              -- burins standing at it
  waitNeed : Nat := 0              -- value the awaited counter must reach (R329)
  sleepDelay : Nat := 0            -- POD_SLEEP_DELAY latched when the wait began (R67)
  stopHc : Option Nat := none      -- the hc in which a fault stopped the clock, where its edge was delivered (R84, R165)
  pwr : HatchPwr := {}
  hang : Nat := 0                  -- hang timer, in always-on cycles (R421)
  deriving DecidableEq, Repr

/-- An open LOOP of a burin (R71). -/
structure LoopFrame where
  first : Nat        -- index of the body's first stroke
  len : Nat          -- body length in strokes
  left : Nat         -- iterations still to begin
  period : Nat
  base : Nat         -- base of the iteration in progress
  based : Bool       -- the base has been fixed by its first launch
  last : Nat         -- last launch of the iteration
  deriving DecidableEq, Repr

/-- A pod's burin (R69–R72). -/
structure Burin where
  prog : List (BitVec 128) := []   -- the stroke-program store, at most 16,384 strokes
  version : Nat := 0               -- section version, 1 or 2 (R71)
  errs : Tbl Nat := []             -- symbol-error overlays of the store's 32-byte rows, two strokes each (R276)
  idx : Nat := 0                   -- index of the next stroke
  base : Nat := 0                  -- hc from which the next DELTA counts
  force : Option Nat := none       -- launch hc fixed by an iteration's period
  loops : List LoopFrame := []     -- innermost first
  curHc : Nat := 0                 -- hc of the last launch
  nLaunch : Nat := 0               -- strokes launched in that hc
  units : List Nat := []           -- units used in that hc
  waiting : Bool := false          -- it stands at a permit or sync wait
  last : Nat := 0                  -- index of the stroke launched last
  deriving DecidableEq, Repr

/-- A weight plane of the matrix array (R117, R121, R132). -/
structure Plane where
  st : Nat := 0                    -- 0 EMPTY, 1 LOADING, 2 READY
  typ : Nat := 0                   -- B_TYPE
  scaled : Bool := false           -- B_SCALED
  rows : Nat := 0
  e : Nat := 0
  usable : Nat := 0                -- hc from which the plane is usable
  img : List (Nat × Nat) := []     -- row k to its 64-byte image
  scales : List (Nat × Nat) := []  -- block b to its 32 scale bytes
  deriving DecidableEq, Repr

/-- The operand configuration that CONFIG sets (R116). -/
structure MxaCfg where
  aType : Nat := 0
  bType : Nat := 0
  aScaled : Bool := false
  bScaled : Bool := false
  aStride : Nat := 0
  aScaleAddr : Nat := 0
  bScaleAddr : Nat := 0
  deriving DecidableEq, Repr

/-- A LOAD in progress (R117). -/
structure MxaLoad where
  u : Nat
  rows : Nat
  src : Nat
  plane : Nat
  e : Nat
  scaleAddr : Nat
  next : Nat                       -- next row to read
  idx : Nat                        -- index of the stroke
  deriving DecidableEq, Repr

/-- A STREAM whose rows are still being read (R118). -/
structure MxaStream where
  t : Nat
  rows : Nat
  aAddr : Nat
  outAddr : Nat
  accAddr : Nat
  kExt : Nat
  init : Bool
  cfg : MxaCfg
  plane : Plane
  next : Nat                       -- next row to read
  idx : Nat
  deriving DecidableEq, Repr

/-- A stream row inside the array: its launch hc and the results it will deliver (R111). -/
structure MxaRow where
  launch : Nat
  out : Nat                        -- byte address of its result row
  val : Nat                        -- the 128-byte result
  flags : Nat                      -- MXA_FLAGS bits it raises
  products : Nat                   -- products formed, for CNT_OPS (R488)
  aType : Nat
  bType : Nat
  idx : Nat
  sent : Bool := false             -- its scratchpad write has been issued (R119)
  deriving DecidableEq, Repr

/-- The matrix array of a pod (05_matrix_array.md). -/
structure Mxa where
  cfg : MxaCfg := {}
  active : Nat := 0                -- active-plane pointer
  p0 : Plane := {}
  p1 : Plane := {}
  use0 : Option Nat := none        -- launch hc of the last stream row that used plane 0 (R122)
  use1 : Option Nat := none
  loads : List MxaLoad := []
  streams : List MxaStream := []
  rows : List MxaRow := []         -- in flight, oldest first
  lastLoad : Option (Nat × Nat) := none     -- launch and ROWS of the last LOAD
  lastStream : Option (Nat × Nat) := none   -- launch and ROWS of the last STREAM
  busyFrom : Nat := 0              -- start of the present busy span (R127)
  busyTo : Option Nat := none      -- last busy hc of the span
  deriving DecidableEq, Repr

/-- A decoded vector operation (R140). -/
structure VIns where
  op : Nat
  d : Nat
  a : Nat
  b : Nat
  c : Nat
  row0 : Nat
  nrows : Nat
  lanes : Nat
  mask : Nat
  zero : Bool
  bmode : Nat
  bidx : Nat
  mode : Nat
  narrow : Bool
  half : Nat
  rnd : Nat
  sat : Bool
  negA : Bool
  absA : Bool
  negC : Bool
  subop : Nat
  raw : Nat                        -- all 128 bits, for the operations that replace fields
  deriving DecidableEq, Repr

/-- Where an instruction stood, for VEC_FAULT and SFU_FAULT (R168, R186). -/
structure VSite where
  idx : Nat := 0
  pipe : Nat := 0
  inStip : Bool := false
  slot : Nat := 0
  instr : Nat := 0
  deriving DecidableEq, Repr

/-- One write of a tile or mask row: the bits it changes and their new values. -/
structure RowWrite where
  key : Nat                        -- tile row `8 * tile + row`, or `512 + 8 * mask + row`
  wmask : Nat
  val : Nat
  deriving DecidableEq, Repr

/-- What a row delivers once its sources have been read: its writes, flags and counts (R141, R158, R488). -/
structure RowOut where
  writes : List RowWrite := []
  flags : Nat := 0
  eflags : List Nat := []          -- flags of each affected element that raised any
  elems : Nat := 0                 -- affected elements
  deriving DecidableEq, Repr

/-- A row of a vector operation in flight (R141). -/
structure VRow where
  pipe : Nat
  ins : VIns
  row : Nat
  readHc : Nat
  writeHc : Nat
  site : VSite
  stream : Nat                     -- rounding context latched at launch (R150)
  ebase : Nat                      -- BASE + n × ESTEP
  pitch : Nat
  table : Nat                      -- pip table latched at launch (R182)
  out : Option RowOut := none      -- set when its sources have been read
  deriving DecidableEq, Repr

/-- A running stipple (R161–R163). -/
structure Stip where
  first : Nat                      -- SLOT
  slot : Nat
  instr : Nat := 0
  base : Nat                       -- hc from which the next DELTA counts
  tbase : Nat
  tstep : Nat
  count : Nat
  estep : Nat
  rep : Nat := 0
  links : Nat := 0                 -- slots linked in this repetition
  idx : Nat                        -- index of the STIP stroke
  deriving DecidableEq, Repr

/-- A pip table (R177). -/
structure Pip where
  st : Nat := 0                    -- 0 EMPTY, 1 LOADING, 2 READY
  img : Nat := 0                   -- its 4,224-byte image
  ready : Nat := 0                 -- hc from which a loading table is READY
  held : Nat := 0                  -- hc until which PIP operations hold it (R182)
  errs : Tbl Nat := []             -- symbol-error overlays of its 132 rows (R276)
  deriving DecidableEq, Repr

/-- A PTLOAD's reads (R180): hc, first word, words, and the word offset in the image. -/
structure PtRead where
  hc : Nat
  word : Nat
  n : Nat
  off : Nat
  table : Nat
  idx : Nat
  deriving DecidableEq, Repr

/-- One vector pipe with its special-function units (06_vector_engine.md, 07_special_functions.md). -/
structure Pipe where
  stream : Nat := 0                -- rounding context (R150)
  rbase : Nat := 0
  pitch : Nat := 0
  portFree : Nat := 0              -- first hc in which the issue port is free
  owned : Nat := 0                 -- first hc in which a finished stipple no longer owns the pipe (R163)
  stip : Option Stip := none
  rows : List VRow := []           -- in flight, in launch order
  act : Nat := 0                   -- active pip table
  oldAct : Nat := 0                -- active table before the last PTSWAP
  swapAt : Nat := 0
  swapped : Bool := false          -- a PTSWAP has launched since ACTIVATE
  pt0 : Pip := {}
  pt1 : Pip := {}
  ptReads : List PtRead := []      -- reads of the PTLOAD in progress
  deriving DecidableEq, Repr

/-- A transfer stroke in progress (R209, R210). -/
structure Xfer where
  store : Bool                     -- STT
  tile : Nat
  row0 : Nat
  nrows : Nat
  waddr : Nat
  wstride : Nat
  wide : Bool
  lanes : Nat
  nextHc : Nat                     -- hc of the next access
  row : Nat := 0                   -- row of the next access
  part : Nat := 0                  -- access within the row
  idx : Nat
  hold : Nat := 0                  -- first half of a WIDE LDT row
  deriving DecidableEq, Repr

/-- Bytes on their way into scratchpad: visible to reads from hc `vis` (R210, R258, R525). -/
structure SpadWrite where
  vis : Nat
  issue : Nat                      -- last delivered edge from which the write stands if the clock stops
  made : Nat                       -- hc in which it was issued, and the pod that issued it (R324)
  by' : Nat
  addr : Nat                       -- byte address
  n : Nat                          -- bytes
  val : Nat
  deriving DecidableEq, Repr

/-- A tile row on its way from scratchpad (R210). -/
structure TileWrite where
  hc : Nat
  w : RowWrite
  site : VSite
  deriving DecidableEq, Repr

/-- A write of a tile or mask row made in an hc, for R138. -/
structure TileAcc where
  hc : Nat
  key : Nat
  site : VSite
  deriving DecidableEq, Repr

/-- A pod-network send in flight (R525). -/
structure Send where
  t : Nat
  dst : Nat                        -- destination pod id g
  src : Nat                        -- word address of flit 0 at the sender
  dstW : Nat
  flits : Nat
  lat : Nat
  idx : Nat
  nextRead : Nat := 0
  nextWrite : Nat := 0
  data : List (Nat × Nat) := []    -- flits read and not yet delivered
  deriving DecidableEq, Repr

/-- A landing-buffer entry: a memory READ on its way (R75, R258). -/
structure Landing where
  due : Nat                        -- hc of the landing write
  entry : Nat                      -- landing entry 0–255
  word : Nat
  idx : Nat
  desc : Nat                       -- descriptor index and granule of the stroke (R493)
  granule : Nat
  st : Nat                         -- stack that the request went to
  served : Option Nat := none      -- order in which its channel slot served it
  landed : Bool := false
  bad : Bool := false              -- uncorrectable or poisoned (R282)
  data : Nat := 0
  deriving DecidableEq, Repr

/-- An access to the scratchpad port, for R207. -/
structure PortAcc where
  hc : Nat
  wr : Bool
  word : Nat
  idx : Nat
  deriving DecidableEq, Repr

/-- A core or management access to a pod of a running hatch, from its arrival to its completion (R76). -/
structure SvcAcc where
  who : Nat                        -- 0 an application core, 1 and 2 a control core of die 0 and 1, 3 the management path
  addr : Nat
  width : Nat
  val : Nat
  write : Bool
  slot : Nat                       -- hc of its service slot
  fence : List Nat := []           -- partitions whose next step a later permit write of this core makes wait for it (R57)
  deriving DecidableEq, Repr

/-- A pod (01_architecture.md R11, and chapters 3 to 9). -/
structure Pod where
  hatch : Option Nat := none       -- its generator, while a plate gives it one
  epoch : Nat := 0                 -- counts the resets that left tiles and masks undefined (R139); MODEL's own field
  undef : Bool := false            -- rows not written since are undefined
  burin : Burin := {}
  mxa : Mxa := {}
  pipe0 : Pipe := {}
  pipe1 : Pipe := {}
  tiles : Tbl Nat := []            -- tile row `8 * tile + row` to its 8,192 bits (R135)
  masks : Tbl Nat := []            -- mask row `8 * mask + row` to its 512 bits (R137)
  slots : Tbl (List (BitVec 128)) := []   -- stipple slots S0–S15 (R160); absent = empty
  slotErrs : Tbl Nat := []         -- overlays of their 32-byte rows, 16 × slot + row (R276)
  spad : List Host.Cell := []      -- scratchpad bytes (R206)
  errs : Tbl Nat := []             -- symbol-error overlays of scratchpad words, poison among them (R276, R278)
  ceLog : List (Nat × Nat) := []   -- corrected reads not yet reported: lowest symbol, symbols (R286)
  copySlots : List Nat := []       -- residues of hc mod 64 that are copy slots (R208)
  xfers : List Xfer := []
  spadPend : List SpadWrite := []
  tilePend : List TileWrite := []
  sends : List Send := []
  landing : List Landing := []     -- issue order, at most 256
  landSeq : Nat := 0               -- granules served so far
  landDone : List (Nat × Nat) := []        -- landing writes of the latest hc: hc and entry, free again in the next (R258)
  acc : List PortAcc := []         -- accesses of the latest hc
  tileAcc : List TileAcc := []     -- tile and mask rows written in the latest hc (R138)
  svc : List SvcAcc := []          -- service accesses in order of arrival
  deriving DecidableEq, Repr

/-! ## Memory stacks (10_memory_stacks.md, 11_memory_integrity.md) -/

/-- A request in a channel's queue (R254). A read carries what the granule held when the request reached the channel;
a write has been accepted, and drains its write-buffer entry (R260). -/
structure MemReq where
  wr : Bool
  pg : Nat                         -- physical granule
  addr : Nat                       -- byte address
  holder : Nat                     -- whose write-buffer entry a write holds: partition, 8 engine, 9 service
  hc : Nat                         -- launch hc and pod, which order a hatch's requests (R254)
  pod : Nat
  entry : Nat                      -- its landing entry
  data : Nat
  ovl : Nat                        -- symbol-error overlay read with the data
  deriving DecidableEq, Repr

/-- Migration of a row to a spare (R291). -/
structure Migration where
  entry : Nat                      -- remap entry
  bank : Nat
  row : Nat                        -- user row
  src : Nat                        -- physical row now in use
  spare : Nat                      -- spare row it moves to
  second : Bool                    -- the move of STRIKE = 2
  left : List Nat                  -- granules not yet copied, or marked for another copy
  deriving DecidableEq, Repr

/-- A channel of a stack. -/
structure Chan where
  slot : Nat := 0                  -- slots served; slot number modulo 256
  rows : Tbl (Nat × Nat) := []     -- bank to its open physical row and the slot of its opening (R254)
  opens : Tbl Nat := []            -- bank × 8,208 + row to its openings in the window (R263)
  paid : Nat := 0                  -- refreshes made
  near : List Nat := []            -- neighbour rows whose added refreshes are still to be made (R263)
  refRow : Nat := 0                -- next row to refresh (R262)
  queues : Tbl (List MemReq) := [] -- hatch 0–31, copy channel 64 + 32 × die + n, engine 128, service 129
  buf : Tbl Nat := []              -- write-buffer entries held, by holder (R260)
  pins : Tbl Nat := []             -- corrected symbols of each pin (R287)
  scrub : Nat × Nat × Nat := (0, 0, 0)       -- bank, row and granule that the scrubber reads next (R283)
  scrubDue : Bool := false         -- a due scrub read waits for a slot that refresh does not need (R283)
  fix : Option (Nat × List (Nat × Nat) × Bool) := none  -- scrub write-back due: granule, symbols, already written (R285)
  migr : List Migration := []
  deriving DecidableEq, Repr

/-- A memory stack's controller. -/
structure Stack where
  frame : Tbl Nat := []            -- entries in force in assignable slots (R251)
  next : Tbl Nat := []             -- entries that take force at the next frame boundary (R253)
  frames : Nat := 0
  owed : Nat := 0                  -- refreshes due so far, in units of 1/15,625 (R262)
  level : Nat := 0                 -- thermal level (R266)
  temp : Nat := 0                  -- hottest reading, 0.25 °C
  bucket : Nat := 0                -- leaky bucket (R288)
  pinFail : List (Nat × Nat) := [] -- queue of MCH_PIN_FAIL: channel, pin
  keepTicks : Nat := 0             -- always-on cycles in KEEP_ONLY below one µs
  deriving DecidableEq, Repr

/-! ## Allocated ranges, descriptors and copy channels (09_scratchpad_copy.md) -/

/-- An allocated range (R211, R212). -/
structure Range where
  gen : Nat := 0
  live : Bool := false
  base : Nat := 0
  len : Nat := 0
  part : Nat := 0
  spad : Bool := false
  writable : Bool := false
  count : Nat := 0                 -- live descriptors that name it
  deriving DecidableEq, Repr

/-- A live descriptor: its 64-byte image (R213, R219). -/
inductive DescE where
  | tensor (img : Nat)
  | copy (img : Nat)
  deriving DecidableEq, Repr

/-- A queue entry of a copy channel: descriptor reference and iteration (R226). -/
structure CopyEntry where
  ref : Nat
  iter : Nat
  deriving DecidableEq, Repr

/-- A completion record (R231), with the signal that follows it (R230). -/
structure CopyRec where
  tag : Nat
  status : Nat
  flags : Nat
  bytes : Nat
  signal : Option (Nat × Nat)      -- counter and increment
  record : Bool                    -- RECORD is set
  deriving DecidableEq, Repr

/-- The copy in progress (R228). -/
structure CopyRun where
  img : Nat                        -- its descriptor
  iter : Nat
  ref : Nat := 0                   -- its queue entry's reference
  age : Nat := 0                   -- always-on cycles that its deadline has run (R233)
  flags : Nat := 0                 -- LATE, THERMAL_PAUSE, CORRECTED, POISONED
  touched : List (Nat × Nat) := [] -- bytes (address, count) that another writer reached while it was in flight (R224)
  total : Nat := 0                 -- spans of a REMOTE copy, and those acknowledged (R333)
  acked : Nat := 0
  done : Option CopyRec := none    -- its last byte is written; the record waits for room in the ring (R231)
  deriving DecidableEq, Repr

/-- A range or describe command in progress (R239): the command word, its arguments and the image as it was read. -/
structure CpyCmd where
  word : Nat
  arg0 : Nat
  arg1 : Nat
  bad : Bool                       -- the image could not be read (SOURCE)
  deriving DecidableEq, Repr

/-- A copy channel (R226, R228). -/
structure CopyChan where
  st : Nat := 0                    -- 0 IDLE, 1 RUNNING, 2 DRAINING, 3 HALTED
  queue : List CopyEntry := []     -- behind the copy in progress
  run : Option CopyRun := none
  held : List CopyRec := []        -- records waiting for room in the ring (R231)
  result : Nat := 0                -- CMD_RESULT
  deriving DecidableEq, Repr

/-! ## Black box (20_debug_counters.md R495–R501) -/

/-- An event on its way to the black box. -/
structure BbxEvent where
  code : Nat
  fatal : Bool
  origin : Nat                     -- 0 die 0, 1 die 1, 2 always-on island
  part : Nat
  time : Nat
  arg0 : Nat
  arg1 : Nat
  deriving DecidableEq, Repr

structure Bbx where
  q0 : List BbxEvent := []         -- queues of die 0, die 1 and the island, oldest first
  q1 : List BbxEvent := []
  q2 : List BbxEvent := []
  lost0 : Nat := 0                 -- events dropped ahead of each queue's next
  lost1 : Nat := 0
  lost2 : Nat := 0
  turn : Nat := 0                  -- queue that the rotation looks at first
  entries : Tbl (BitVec 256) := [] -- stored entries by index
  seq : Nat := 0                   -- BBX_NEXT_SEQ
  freezeSeq : Nat := 0             -- BBX_FREEZE_SEQ
  frozen : Bool := false
  pend : Bool := false             -- post window open
  left : Nat := 0                  -- events still to be stored in the window
  deriving DecidableEq, Repr


/-! ## Sync counters (13_synchronisation.md) and link ports (14_links.md) -/

/-- A sync counter (R322, R332, R347). -/
structure Ctr where
  st : Nat := 0                    -- 0 FREE, 1 LIVE, 2 BROKEN, 3 FROZEN
  value : Nat := 0
  part : Nat := 0
  hatch : Nat := 0
  cause : Nat := 0
  runtime : Bool := false
  group : Option Nat := none       -- rebase group (GROUPED, GROUP)
  trigger : Nat := 0
  stride : Nat := 0
  outInc : Nat := 0
  destFirst : Nat := 0
  destCount : Nat := 0
  held : Nat := 0                  -- emissions held while FROZEN, in n (R332)
  lost : Tbl Nat := []             -- emissions lost and returned, in n, by destination k (R361)
  sent : List (Nat × Nat) := []    -- remote emissions that have left: destination k and n, for R361's UNREACHABLE
  deriving DecidableEq, Repr

/-- A consumer entry (R328). -/
structure Consumer where
  count : Nat
  ctr : Nat                        -- counter index on its die
  kind : Nat                       -- 0 hatch, 1 update engine, 2 snapshot
  part : Nat
  deriving DecidableEq, Repr

/-- A change waiting at a counter unit (R325): 0 an addition, 1 a rebase of `16 × partition + group`, 2 breakage by a
peer, 3 a hatch's addition to consumer entry `id`. `emitter` is the local counter, `remote` the module and counter, to
be told where an addition meets a FREE or BROKEN counter (R334); `cover` the pod and the hc by which the writes that a signal releases are complete (R324). -/
structure Change where
  op : Nat
  id : Nat
  inc : Nat := 0
  emitter : Option Nat := none
  remote : Option (Nat × Nat) := none
  cover : Option (Nat × Nat) := none
  hatch : Nat := 0
  deriving DecidableEq, Repr

/-- A packet in a port's egress queue or replay buffer (R351, R352, R359, R360). -/
structure LinkPkt where
  typ : Nat
  vl : Nat
  units : Nat
  hops : Nat
  dst : Nat
  src : Nat
  body : Nat
  data : Nat := 0                  -- payload, 64 × units bytes
  arr : Option Nat := none         -- port it arrived on; none where this module originated it
  k : Nat := 0                     -- of an originated SYNC: destination and n
  n : Nat := 0
  seq : Nat := 0
  sent : Nat := 0                  -- attempts
  naked : Nat := 0                 -- attempts that drew a NAK
  deriving DecidableEq, Repr

/-- A port (R350–R360). RYL_PORT_STATE, RYL_PORT_PEER and its counts are registers. -/
structure Port where
  q0 : List LinkPkt := []          -- egress queue of each virtual lane
  q1 : List LinkPkt := []
  q2 : List LinkPkt := []
  q3 : List LinkPkt := []
  replay : List LinkPkt := []      -- sent and unacknowledged, oldest first
  txSeq : Nat := 0                 -- next SEQ to be given
  rxSeq : Nat := 0                 -- next SEQ in order from the peer
  credits : List Nat := [0, 0, 0, 0]
  owed : List Nat := [0, 0, 0, 0]  -- units to return in the next header
  nak : Bool := false              -- a NAK is to travel in the next header
  turn : Nat := 0                  -- turn of the rotation (R358)
  drain : Bool := false            -- a DOWN command is draining (R434)
  bad : List Nat := []             -- lanes that have failed (R365)
  deriving DecidableEq, Repr

/-- An update engine's work list for a partition (12_update_engine.md R297, R311). -/
structure UpeList where
  layers : List Nat := []          -- 64-byte layer descriptors, in list order (R303)
  rules : List Nat := []           -- 160-byte rule entries of the plate (R304)
  entries : List (List Nat) := []  -- consumer entries of each layer: GRAD, COMMIT, DONE, ARRIVE, REFUSE, snapshot (R328)
  cur : Nat := 0                   -- ordinal of the current descriptor
  phase : Nat := 0                 -- PHASE of UPE_PART_STATEp (R319)
  code : Nat := 0                  -- refusal code of the layer in hand (R312)
  stopped : Bool := false          -- a wait was released BROKEN (R330)
  rsum : List Nat := []            -- statistics buffer: FP32 sums of rows and columns (R299, R308)
  csum : List Nat := []
  touched : List (Nat × Nat) := [] -- bytes another writer reached between GRAD_CTR and DONE_CTR (R316)
  deriving DecidableEq, Repr

/-! ## The query lane and the Ethernet ports (14_links.md R369–R374) -/

/-- A query class of the lane's plate (R371). -/
structure QClass where
  id : Nat
  batch : Nat
  promise : Nat
  inBytes : Nat
  outBytes : Nat
  inDesc : Nat
  outDesc : Nat
  deriving DecidableEq, Repr

/-- Where replies to a request go: port 14 or 15, source address and UDP port (R372). -/
structure QPeer where
  port : Nat
  ip : List Byte
  udp : Nat
  deriving DecidableEq, Repr

/-- A request in reassembly (R372). -/
structure QAsm where
  peer : QPeer
  reqId : Nat
  cls : Nat
  frags : Nat
  got : List (Nat × List Byte)
  deriving DecidableEq, Repr

/-- An admitted request (R373). -/
structure QReq where
  peer : QPeer
  reqId : Nat
  cls : Nat
  slot : Nat
  time : Nat                       -- admission, ns
  deriving DecidableEq, Repr

/-- A step of the lane: its predicted end in µs, whether its permit has been released, its requests. -/
structure QStep where
  fin : Rat
  released : Bool
  reqs : List QReq
  done : Option Nat := none        -- always-on cycle of its completion, once the next has been released
  deriving DecidableEq, Repr

/-- The lane. -/
structure Lane where
  asm : List QAsm := []            -- at most 64
  steps : List QStep := []         -- admitted and not completed, in order
  est : Nat := 0                   -- largest ratio used for an admission in flight (R374)
  deriving DecidableEq, Repr

/-! ## The steward (16_power_thermal.md) -/

/-- What the steward and the dies' controllers hold beside their registers. -/
structure Pws where
  gain : Rat := 1                  -- G (R406)
  floors0 : List Rat := []         -- floor estimates of the last eight periods, newest first, by die (R404)
  floors1 : List Rat := []
  hold : Bool := false             -- G held at 1.50
  ok : Bool := false               -- TELEMETRY_OK
  bad : Nat := 0                   -- consecutive samples off by more than 5 %
  good : Nat := 0                  -- consecutive valid samples
  cut : Rat := 0                   -- cut to be taken from the next grants, W
  drain : Bool := false            -- the lane drains (R407)
  temps : Tbl Nat := []            -- latest reading of octet o of die d, 17 × d + o, 0.25 °C (R408)
  hot : List Nat := []             -- those whose 98 °C level is in force
  spent : List Nat := []           -- dies whose droop detector has fired and not re-armed (R410)
  energy : Tbl Nat := []           -- energy counters by register address, in pJ (R413)
  deriving DecidableEq, Repr
/-! ## The module -/

/-- What leaves the module: replies, bus errors, packets and frames. -/
inductive Output where
  /-- a bus error answered to a requester's access (R6, R28) -/
  | busError (addr : Nat)
  /-- the value of a read -/
  | value (addr : Nat) (v : Nat)
  /-- a packet transmitted by a port, header and payload (R350, R351) -/
  | packet (port : Nat) (hdr : Nat) (units : Nat) (payload : Nat)
  /-- what a port sends in training: this module's id and version bitmap, with its own number (R353) -/
  | hello (port : Nat) (modId : Nat) (versions : Nat)
  /-- a UDP datagram sent by an Ethernet port or the management port (R372, R455): port, address, UDP port, payload -/
  | udp (port : Nat) (ip : List Byte) (udp : Nat) (payload : List Byte)
  /-- an Ethernet frame transmitted by a port, with its FCS (R446) -/
  | frame (port : Nat) (bytes : List Byte)
  /-- a write to PCIe memory space, at its address in the outbound window (R25, R441) -/
  | pcieWrite (addr : Nat) (data : List Byte)
  /-- a read of PCIe memory space, whose value the device gives (R25, R441) -/
  | pcieRead (addr : Nat) (n : Nat)
  /-- a configuration write to another function than the root port: bus, device and function, offset, data (R441) -/
  | configWrite (bdf : Nat) (off : Nat) (data : List Byte)
  /-- completion of an inbound PCIe access: the device, whether it succeeded, and what a read returns (R442) -/
  | completion (device : Nat) (ok : Bool) (data : List Byte)
  /-- bytes that an SMBus block read returns (R457) -/
  | smbus (data : List Byte)
  deriving DecidableEq, Repr

/-! ## Supplies, boot and security (19_boot_security.md, 21_electrical_package.md) -/

/-- The fuse array (R464); the management MAC address is fused too (R454). Blank at the model's reset: DESIGN CHOICE. -/
structure Fuses where
  serial : Nat := 0
  root0 : Nat := 0                 -- key digests, 256 bits each
  root1 : Nat := 0
  revoke0 : Bool := false
  owner : Nat := 0
  idSeed : Nat := 0                -- SK_SEED, SK_PRF and PUB_SEED, 256 bits each, first lowest
  wrapKey : Nat := 0
  mgmtKey0 : Nat := 0
  rollback : List Nat := [0, 0, 0, 0, 0]   -- bits blown of WARDEN, CONTROL, APC_BOOT, SETUP, PLATE
  mac : Nat := 0
  deriving DecidableEq, Repr

/-- The warden's keys, records and work in progress. -/
structure Sec where
  fuses : Fuses := {}
  flash : List Host.Cell := []     -- complement of each flash byte, so that erased flash lists nothing (R468)
  idRes : Nat := 0                 -- flash record: next free index of the identity key (R479)
  seqRes : Nat := 0                -- flash record: reserved management SEQ (R455)
  intent : Option (Nat × Nat) := none      -- flash record: fuse intent, counter and value (R477)
  newKey : Option Nat := none      -- flash record: management key that replaced MGMT_KEY0 (R481)
  failed : List (Nat × Nat) := []  -- flash record: failed-slot list, die and physical slot (R393)
  idNext : Nat := 0                -- next index to use
  seqMax : Nat := 0                -- highest SEQ accepted, or the reservation that the warden resumed from
  keys : List (Nat × Bool) := []   -- plate keys of slots 3 and up: digest, revoked (R465, R471)
  setup : Option Nat := none       -- digest of the set-up record in force (R472)
  running : Tbl (Nat × Nat) := []  -- image type to slot and SECURITY_VERSION in force (R467, R476)
  meas : List Nat := [0, 0, 0, 0, 0, 0, 0, 0]      -- M0 to M7 (R478)
  quote : Option Nat := none       -- bytes 0x000 to 0x15F of the quote in progress (R480)
  mext : List (Nat × Nat) := []    -- extends that wait for it: register and data
  flashOp : Option (Nat × Nat) := none     -- flash operation in progress: OP and address (R483)
  advance : List (Nat × Nat) := []         -- rollback advances, the first in progress: counter and value (R477)
  keySeq : Nat := 0                -- SEQ of the request that last wrote SEC_MGMT_KEY_NEXT (R481)
  deriving DecidableEq, Repr

/-- A power domain: state of WRD_DIE_POWER and rails that have reached power-good (R462, R515). -/
structure Domain where
  st : Nat := 0
  rails : Nat := 0
  deriving DecidableEq, Repr

/-- Supplies and pins (R509–R517). Domain 0 is die 0, 1 is die 1, 2 the module-level domain. -/
structure Supply where
  standby : Bool := false          -- STBY_PG
  modReset : Bool := false         -- MOD_RESET# has been sampled low and is held
  smb : Nat := 0                   -- SMB_ADDR as sampled
  watts : Nat := 0                 -- input power of the last PMBus sample (R457)
  perst : Bool := false            -- PERST# is high
  appUp : Bool := false            -- the application cores have been released (R469)
  die0 : Domain := {}
  die1 : Domain := {}
  mod : Domain := {}
  upQ : List Nat := []             -- domains still to be powered, the first in progress
  downQ : List Nat := []           -- domains still to be powered down, the first in progress
  held : Option Nat := none        -- write of WRD_DIE_POWER that waits (R517)
  booting : Bool := false          -- stage 2 has begun and its sequence has not ended (R469)
  step0 : Nat := 0                 -- steppings read from the dies
  step1 : Nat := 0
  inReset : List Nat := []         -- powered dies that the boot holds in reset
  deriving DecidableEq, Repr

/-- A partition's pending reset request (R420, R437). -/
structure ResetReq where
  cause : Nat
  pod : Nat
  unit : Nat
  deriving DecidableEq, Repr

/-- A partition: its set-up (R471), plate slots (02_plates.md R46–R58) and what its plate and its frozen or late state
add (R218, R340, R341, R367). -/
structure Part where
  octets : List Nat := []          -- logical octets 0–31 that the set-up record in force gives it (R471)
  share : Nat := 0                 -- service share N (R76)
  seed : Nat := 0                  -- ROUNDING_SEED of the active plate
  step : Nat := 0                  -- APC_PLT_STEP
  phases : Nat := 0
  permits : Nat := 0               -- outstanding (R56)
  released : Nat := 0              -- steps released
  completed : Nat := 0             -- steps completed; the released ones beyond them are in progress (R49, R58)
  stepCtr : Nat := 0               -- step-completion counter, its target and rise (R49, R344)
  stepTarget : Nat := 0
  stepInc : Nat := 0
  query : Bool := false            -- the query lane's partition
  classes : List QClass := []      -- query classes, STEP_HC and HOLD_NS of its plate (R371)
  stepHc : Nat := 0
  holdNs : Nat := 0
  doneAt : Nat := 0                -- always-on cycle in which a step last completed
  active : Nat := 0                -- ACTIVE of APC_PLT_STATUS (R61)
  staged : Nat := 0                -- STAGED of APC_PLT_STATUS
  src : Nat := 0                   -- arguments of the LOAD in progress (R46, R59)
  srcLen : Nat := 0
  bindAddr : Nat := 0
  bindCount : Nat := 0
  stagedImg : List Host.Cell := []         -- the staged slot's image and binding table
  stagedBind : List Host.Cell := []
  stagedDescs : Tbl DescE := []    -- descriptors of a READY staged plate (R41)
  image : List Host.Cell := []     -- the active slot's image and its length
  imageLen : Nat := 0
  activateNext : Bool := false     -- an ACTIVATE waits for the running plate's retirement (R48)
  consMap : Tbl Nat := []          -- CONSUMER of the plate to 32,768 × die + entry (R344)
  resetReq : Option ResetReq := none
  descs : Tbl DescE := []          -- plate table of descriptors (R218)
  runDescs : Tbl DescE := []       -- runtime table (R218)
  frozen : Bool := false           -- R367
  inDoubt : Bool := false          -- a loss in doubt, or a copy LINK_FAILED since the freeze (R368)
  seenFreeze : List Nat := []      -- origins whose FREEZE has been forwarded
  lateIn : Bool := false           -- LATE received within the last 2 ms (R340)
  lateSeen : Tbl Nat := []         -- origin to the always-on cycle of the copy forwarded last
  lateCapped : Bool := false       -- the episode's allowance is used up (R341)
  deriving DecidableEq, Repr

/-- The module. -/
structure State where
  pending : List Instr := []       -- commands that wait, first in first out
  out : List Output := []          -- what has left the module, newest first
  freeCtr : Nat := 0               -- open values drawn so far; MODEL's own field
  now : Nat := 0                   -- cycles of the always-on clock that have passed (R23)
  regs : Tbl Nat := []             -- registers that differ from their reset value, by physical address
  pods : Tbl Pod := []             -- the 256 logical pods, 128 × die + pod (R11)
  gens : Tbl Gen := []             -- the 32 hatch-clock generators (R24)
  parts : Tbl Part := []           -- the eight partitions
  mem : List Host.Cell := []       -- bytes of the stacks by physical granule and byte (R243)
  memErr : Tbl Nat := []           -- symbol-error overlays of granules, poison among them (R273, R278)
  stks : Tbl Stack := []
  chans : Tbl Chan := []           -- 256 × stack + channel
  slabs : Tbl Nat := []            -- words 1 to 3 of region-table entries as last committed, 4 × entry + word (R245)
  ranges : Tbl Range := []         -- the 4,096 ranges
  copies : Tbl CopyChan := []      -- 32 × die + channel
  rangeCmds : Tbl CpyCmd := []     -- by die (R239)
  descCmds : Tbl CpyCmd := []
  cntOps : Tbl Nat := []           -- CNT_OPS, in operations, by ((die × 8 + p) × 16 + class) × 16 + t (R487, R489)
  bbx : Bbx := {}
  ctrs : Tbl Ctr := []             -- counters by module-wide id (R321)
  dests : Tbl (Nat × Nat) := []    -- destination entries, 4,096 × die + i: its word and its partition (R331)
  cons : Tbl Consumer := []        -- consumer entries, 32,768 × die + j (R328)
  changes0 : List Change := []     -- waiting at the counter unit of die 0, in order of arrival (R325)
  changes1 : List Change := []
  ports : Tbl Port := []           -- the sixteen ports
  upes : Tbl UpeList := []         -- 8 × stack + partition (R297)
  upeQ : Tbl (List Nat) := []      -- queue of UPE_REFUSAL of each stack (R319)
  shadow : Tbl Nat := []           -- shadows of latching registers by address (R10)
  spans : Tbl Nat := []            -- SPAN_ID of an unanswered span to its copy channel, 32 × die + n, or to 64 + the partition
                                   -- of a copy that has ended (R361, R387)
  nextSpan : Nat := 0
  ticks : Nat := 0                 -- always-on ticks since the last cold module reset (R427)
  colds : Nat := 0                 -- cold module resets since standby power came up (R495)
  journal : Tbl Nat := []          -- repair journal in the on-package flash: register address to value (R296)
  pins : List (Nat × Nat × Nat) := []        -- pins listed as failing, in flash: stack, channel, pin (R287)
  slots : Tbl Nat := []            -- sparing map: logical pod to its physical slot on its die; absent = identity (R12)
  mapped : List Nat := []          -- dies whose map has been made since the last module reset (R16)
  pws : Pws := {}
  lane : Lane := {}
  fcsBad : Tbl Nat := []           -- frames discarded for a bad FCS, by port (R369)
  ringStop : List Nat := []        -- Ethernet rings stopped by a die reset of die 1 (R446)
  msi : List (Nat × Nat) := []     -- identities pending in interrupt files: 8 × core + file, identity (R442–R444)
  rootCfg : List Host.Cell := []   -- bytes that configuration writes have left in the root port's function (R441)
  edgePend : List Nat := []        -- edge sources of the APLIC whose pulse is pending (R443, R446)
  dieDown : List Nat := [0, 1, 2, 3, 4]    -- off or held in reset: die 0, die 1, module-level domain, link domains (R28)
  dieReq : List Nat := []          -- die resets requested from the warden (DIE_PENDING, R437)
  modReq : Option (Nat × Nat) := none      -- module reset requested: 1 warm or 2 cold, and its CAUSE (R437)
  silent : List Nat := []          -- dies whose watchdog has expired since their last heartbeat (R449)
  crash : Tbl Nat := []            -- the warden's copy of each crash half's STATE, 8 × die + p (R438)
  crashSeq : Tbl Nat := []         -- SEQ of each crash half (R427)
  podUes : List (Nat × Nat × Nat) := []    -- uncorrectable pod-store errors: 256 × die + slot, code, cycle (R393)
  sec : Sec := {}
  sup : Supply := {}
  locked : List Nat := []          -- dies whose RWL fields are locked (R473)
  modLock : Bool := false          -- module lock (R473)
  violations : Tbl Nat := []       -- lock violations counted by each die's error aggregation block (R9, R447)
  deriving DecidableEq, Repr

/-- Why a step faults. No command of this spec stops the module with a fault of the model's own: a fault that the
spec describes is state. -/
inductive Fault where
  /-- never raised: the spec leaves no access without an outcome (safe) -/
  | none
  deriving DecidableEq, Repr

/-- Why a step refuses. -/
inductive Refusal where
  /-- a command whose meaning has not been written; the arm of `exec` names it (safe) -/
  | notModelled (mnemonic : String)
  /-- raised by an aligned 32- or 64-bit access at an address of the APLIC, or of an IMSIC elsewhere than at its
  doorbells, while the module-level domain is on: the spec gives the unit's place and no register of it (safe) -/
  | deviceWindow (addr : Nat)
  deriving DecidableEq, Repr

/-- The module before standby power first comes up. -/
def State.reset : State := {}

end Sys2Proof.Machine
end

