-- ==== Sys2Proof/Machine/Ops.lean ====
section
/-! DEFINITION. Named operations over the state: registers by physical address (01_architecture.md R25–R27), pods,
generators and partitions, events, saturating counts (20_debug_counters.md R485), outputs. -/
namespace Sys2Proof.Machine
open Sys2Proof

abbrev Out := Host.Outcome State Fault Refusal

/-! ### Addresses of the register blocks -/

def podBase : Nat := 0x010100000000
def dieBase (d : Nat) : Nat := 0x010200000000 + 0x1000000 * d
def modBase : Nat := 0x010300000000
def podReg (g o : Nat) : Nat := podBase + (o + 0x10000 * g)
def cpyReg (d o : Nat) : Nat := o + dieBase d
def chReg (d n o : Nat) : Nat := 0x1000 + (o + (0x100 * n + dieBase d))
def mchReg (st o : Nat) : Nat := 0x100000 + (o + (0x10000 * (st % 8) + dieBase (st / 8)))
def upeReg (st o : Nat) : Nat := 0x200000 + (o + (0x10000 * (st % 8) + dieBase (st / 8)))
def synReg (d o : Nat) : Nat := 0x300000 + (o + dieBase d)
def rylReg (d o : Nat) : Nat := 0x400000 + (o + dieBase d)
def pwsReg (d o : Nat) : Nat := 0x500000 + (o + dieBase d)
def rstReg (d o : Nat) : Nat := 0x600000 + (o + dieBase d)
def cntReg (d o : Nat) : Nat := 0x700000 + (o + dieBase d)
def wrdReg (o : Nat) : Nat := modBase + o
def bbxReg (o : Nat) : Nat := modBase + 0x100000 + o
def secReg (o : Nat) : Nat := modBase + 0x200000 + o
def apcReg (o : Nat) : Nat := modBase + 0x300000 + o
def pltReg (p o : Nat) : Nat := 0x310100 + (o + (modBase + 0x100 * p))
def ringReg (r o : Nat) : Nat := 0x320000 + (o + (modBase + 0x40 * r))

/-- The reset value of a stored register that is not 0 (the maps of R85, R131, R238, R270, R294, R346, R375, R414,
R436, R460, R461, R504). -/
def resetOf (a : Nat) : Nat :=
  if podBase ≤ a ∧ a < podBase + 0x1000000 then
    match a % 0x10000 with
    | 0x204 => 0x1000
    | 0x404 => 1
    | _ => 0
  else if dieBase 0 ≤ a ∧ a < dieBase 2 then
    let o := a % 0x1000000
    let b := o / 0x100000
    let q := o % 0x100000
    match b with
    | 0 =>
      if q = 0 then 0x00400020 else if q = 0x38 then 0x2710
      else if 0x1000 ≤ q ∧ q < 0x3000 ∧ q % 0x100 = 0x20 then 4 else 0
    | 1 =>
      let r := q % 0x10000
      if r = 0x10 then 0x1000 else if 0x100 ≤ r ∧ r < 0x180 then 0xFFFFFFFF
      else if r = 0x2008 then 0x03E80040 else if r = 0x200C then 0x01000200 else 0
    | 3 =>
      if q = 0 then 0x10001000 else if 0x40 ≤ q ∧ q < 0x60 then 2000 else if q = 0x60 then 1000 else 0
    | 4 =>
      if q = 0 then 0x00020408 else if q = 4 then 3 else if q = 0xC then 8 else if q = 0x2C then 0xB8780000 else 0
    | 5 => if q = 4 ∨ q = 8 ∨ q = 0xC then 2000 else if q = 0x18 then 0x4000000000000000 else 0
    | 6 => if q = 0x10 then 100 else if q = 0x14 then 10000 else 0
    | _ => 0
  else if a = wrdReg 0x28 then 100
  else if a = bbxReg 4 then 0x20
  else if a = apcReg 0 then 0x00117216
  else if a = apcReg 0x10000 then 8
  else if a = apcReg 0x10008 then 0x7F
  else if ringReg 0 0 ≤ a ∧ a < ringReg 4 0 ∧ a % 0x40 = 8 then 6
  else 0

/-! ### Registers -/

/-- A stored register's value. -/
def rd (s : State) (a : Nat) : Nat := tget (resetOf a) s.regs a

/-- Store a register's value; a value equal to the reset value is held as no entry. -/
def wr (s : State) (a v : Nat) : State :=
  { s with regs := if v = resetOf a then tdel s.regs a else tset s.regs a v }

/-- A hardware event sets bits of a register (R8). -/
def setBits (s : State) (a m : Nat) : State := wr s a (rd s a ||| m)

/-- A W1C write (R8). -/
def clrBits (s : State) (a m : Nat) : State := wr s a (rd s a ^^^ (rd s a &&& m))

/-- Where a count's saturation is recorded: CNT_STATUS of its die, or BBX_STATUS for the always-on island (R485). -/
def satReg (a : Nat) : Nat :=
  if modBase ≤ a then bbxReg 0x70000
  else if dieBase 1 ≤ a then cntReg 1 0
  else if dieBase 0 ≤ a then cntReg 0 0
  else if a < podBase + 128 * 0x10000 then cntReg 0 0 else cntReg 1 0

/-- Add to a 64-bit count, which saturates and never wraps (R485). The always-on island's SATURATED bit is kept at
the unused offset that `satReg` names and is read through BBX_STATUS. -/
def bump (s : State) (a n : Nat) : State :=
  let v := rd s a + n
  if 2 ^ 64 ≤ v then setBits (wr s a (2 ^ 64 - 1)) (satReg a) 1 else wr s a v

/-- Drop stored registers of a span, which returns them to their reset values. -/
def dropRegs (s : State) (lo hi : Nat) (keep : Nat → Bool) : State :=
  { s with regs := s.regs.filter (fun e => decide (e.1 < lo) || decide (hi ≤ e.1) || keep (e.1 - lo)) }

/-! ### Parts of the state -/

def pod (s : State) (g : Nat) : Pod := tget {} s.pods g
def setPod (s : State) (g : Nat) (p : Pod) : State := { s with pods := tset s.pods g p }
def modPod (s : State) (g : Nat) (f : Pod → Pod) : State := setPod s g (f (pod s g))
def gen (s : State) (n : Nat) : Gen := tget {} s.gens n
def setGen (s : State) (n : Nat) (x : Gen) : State := { s with gens := tset s.gens n x }
def modGen (s : State) (n : Nat) (f : Gen → Gen) : State := setGen s n (f (gen s n))
def part (s : State) (p : Nat) : Part := tget {} s.parts p
def setPart (s : State) (p : Nat) (x : Part) : State := { s with parts := tset s.parts p x }
def modPart (s : State) (p : Nat) (f : Part → Part) : State := setPart s p (f (part s p))

def stk (s : State) (st : Nat) : Stack := tget {} s.stks st
def setStk (s : State) (st : Nat) (x : Stack) : State := { s with stks := tset s.stks st x }
def modStk (s : State) (st : Nat) (f : Stack → Stack) : State := setStk s st (f (stk s st))
def chan (s : State) (st c : Nat) : Chan := tget {} s.chans (256 * st + c)
def setChan (s : State) (st c : Nat) (x : Chan) : State := { s with chans := tset s.chans (256 * st + c) x }
def modChan (s : State) (st c : Nat) (f : Chan → Chan) : State := setChan s st c (f (chan s st c))
def copyChan (s : State) (d n : Nat) : CopyChan := tget {} s.copies (32 * d + n)
def setCopy (s : State) (d n : Nat) (x : CopyChan) : State := { s with copies := tset s.copies (32 * d + n) x }
def modCopy (s : State) (d n : Nat) (f : CopyChan → CopyChan) : State := setCopy s d n (f (copyChan s d n))

/-- The warden's keys, records and work in progress change. -/
def modSec (s : State) (f : Sec → Sec) : State := { s with sec := f s.sec }

/-- A die's main domains are on and out of reset (R28). -/
def dieUp (s : State) (d : Nat) : Bool := !s.dieDown.contains d

/-- The bridge runs: the module-level domain is up and die 1 is out of die reset (R23). -/
def bridgeUp (s : State) : Bool := dieUp s 2 && dieUp s 1

/-- The die on which a requester's accesses enter: a control core's own, and die 0 for the application cores and the
management path. -/
def entryDie (r : Requester) : Nat := match r with | .control d => d | _ => 0

/-- Home stack of a pod (R17). -/
def homeStack (g : Nat) : Nat := 8 * (g / 128) + g % 128 / 16

/-- Offer an event to the black box (R495–R498): queued for the store, or dropped and counted. Partition 0xFF where it
concerns none. -/
def logEv (s : State) (origin code part a0 a1 : Nat) (fatal : Bool) : State :=
  let b := s.bbx
  let e : BbxEvent := ⟨code, fatal, origin, part, s.colds % 256 * 2 ^ 56 + s.ticks % 2 ^ 56, a0 % 2 ^ 64, a1 % 2 ^ 64⟩
  let drop := fun s : State => bump s (bbxReg 0x10) 1
  if b.frozen then drop s
  else match origin with
    | 0 => if 16 ≤ b.q0.length then drop { s with bbx := { b with lost0 := b.lost0 + 1 } }
           else { s with bbx := { b with q0 := b.q0 ++ [e] } }
    | 1 => if 16 ≤ b.q1.length then drop { s with bbx := { b with lost1 := b.lost1 + 1 } }
           else { s with bbx := { b with q1 := b.q1 ++ [e] } }
    | _ => if 16 ≤ b.q2.length then drop { s with bbx := { b with lost2 := b.lost2 + 1 } }
           else { s with bbx := { b with q2 := b.q2 ++ [e] } }

/-- Operation counts of a partition on a die (R487–R489): class, index, operations. Remainders below one unit are
kept, so the whole count is held and a read divides it. -/
def countOps (s : State) (d p cls t n : Nat) : State :=
  if n = 0 then s else { s with cntOps := tmod 0 s.cntOps (((d * 8 + p) * 16 + cls) * 16 + t) (· + n) }

/-- Answer something to the outside, newest first. -/
def emit (s : State) (o : Output) : State := { s with out := o :: s.out }

/-- A value no rule fixes is drawn by number: the counter moves on. -/
def nextFree (s : State) : State := { s with freeCtr := s.freeCtr + 1 }

/-- Choose among the values that the spec leaves open. -/
def pickOf (s : State) (vals : List Nat) : State × Nat :=
  match vals with
  | [] => (s, 0)
  | [v] => (s, v)
  | v :: vs => (nextFree s, nth v (v :: vs) (Config.pick s.freeCtr (vs.length + 1) % (vs.length + 1)))

/-- Another writer reaches bytes while copies are in flight: each remembers them (R224). -/
def touchCopies (s : State) (d n a k : Nat) : State :=
  { s with copies := s.copies.map (fun e =>
      if e.1 == 32 * d + n then e
      else (e.1, { e.2 with run := e.2.run.map (fun r => { r with touched := r.touched ++ [(a, k)] }) })) }

/-- The layers that update engines work on remember the bytes too (R316). -/
def touchUpes (s : State) (a k : Nat) : State :=
  if s.upes.any (fun e => decide (2 ≤ e.2.phase)) then
    { s with upes := s.upes.map (fun e =>
        if 2 ≤ e.2.phase then (e.1, { e.2 with touched := e.2.touched ++ [(a, k)] }) else e) }
  else s

/-- Bytes written by a copy channel reach the other copies and the layers; those of any other writer reach all. -/
def touchOthers (s : State) (d n a k : Nat) : State := touchUpes (touchCopies s d n a k) a k
def touchAll (s : State) (a k : Nat) : State :=
  touchUpes (if s.copies.any (fun e => e.2.run.isSome) then touchCopies s 2 0 a k else s) a k

/-- A read of a 64-bit RC queue with a latching half whose oldest record is `v`, by half: the value returned, whether
the record is removed, and the shadow (R10). -/
def rcRead (s : State) (a : Nat) (half : Half) (v : Nat) : State × Nat × Bool :=
  match half with
  | .upper => (s, tget 0 s.shadow a, false)
  | .lower => ({ s with shadow := tset s.shadow a (v / 2 ^ 32) }, v % 2 ^ 32, true)
  | .whole => ({ s with shadow := tset s.shadow a (v / 2 ^ 32) }, v, true)

end Sys2Proof.Machine
end

