-- ==== Sys2Proof/Machine/Access.lean ====
section
/-! DEFINITION. Who may write what (00_scope.md R6–R10, 01 R28, 18 R447, 19 R473): reach, rights and the boot lock. -/
namespace Sys2Proof.Machine
open Sys2Proof

def isPodReg (a : Nat) : Bool := decide (podBase ≤ a ∧ a < podBase + 0x1000000)
def isDieReg (a : Nat) : Bool := decide (dieBase 0 ≤ a ∧ a < dieBase 2)
def isModReg (a : Nat) : Bool := decide (modBase ≤ a ∧ a < modBase + 0x400000)

/-- The die that holds a register; the module-level block and the always-on island are on die 0 (R22, R27). -/
def dieOfReg (a : Nat) : Nat :=
  if isPodReg a then (a - podBase) / 0x800000 else if isDieReg a then (a - dieBase 0) / 0x1000000 else 0

/-- A register of the always-on island (R27). -/
def isAlwaysOn (a : Nat) : Bool := decide (modBase ≤ a ∧ a < modBase + 0x300000)

/-- The register's domain answers accesses (R28): always-on ones always do, the module-level block while its domain
is on, a die's control block and pods while the die is up, the link block among them (R458). -/
def reachable (s : State) (a : Nat) : Bool :=
  if isAlwaysOn a then s.sup.standby
  else if isModReg a then !s.dieDown.contains 2
  else dieUp s (dieOfReg a)

/-- A requester reaches a register: it answers, and where it lies on the other die the bridge runs (R21, R23). DEDUCED:
the management path reaches both dies' blocks without the bridge, since the warden starts both dies where the
module-level domain is off (R515, R517). -/
def canReach (s : State) (r : Requester) (a : Nat) : Bool :=
  reachable s a && (isAlwaysOn a || dieOfReg a == entryDie r || r == .mgmt || bridgeUp s)

/-- A discarded write is counted: by the die's error aggregation block, or by WRD_MGMT_REJECTS (R9, R447). -/
def violate (s : State) (a : Nat) : State :=
  if isAlwaysOn a then bump s (wrdReg 0x30) 1
  else { s with violations := tmod 0 s.violations (dieOfReg a) (· + 1) }

/-- RWL fields accept a write: before the lock, from a control core (R8, R473). -/
def lockOpen (s : State) (r : Requester) (a : Nat) : Bool :=
  !s.modLock && !s.locked.contains (dieOfReg a) && (match r with | .control _ => true | _ => false)

/-- Registers that only the management path writes (R375, R414, R436, R447, R461, R482). -/
def mgmtOnly (a : Nat) : Bool :=
  let o := a - modBase
  let q := a % 0x1000000
  (isDieReg a && (q == 0x500008 || decide (0x410000 ≤ q ∧ q < 0x422000))) ||
    (isModReg a && (o == 0x404 || o == 0x408 || o == 0x2C || o == 0x200010 || o == 0x200030 ||
      decide (0x200080 ≤ o ∧ o < 0x2000A0) || o == 0x200800 || o == 0x200804 || decide (0x201000 ≤ o ∧ o < 0x202000)))

/-- The rights table of R447. -/
def mayWrite (r : Requester) (a : Nat) : Bool :=
  let isCore := match r with | .control _ => true | _ => false
  if decide (apcReg 0x10000 ≤ a ∧ a < apcReg 0x20000) then !isCore
  else if isDieReg a && a % 0x1000000 == 0x500004 then !isCore
  else if mgmtOnly a then r == .mgmt
  else if a == wrdReg 8 then isCore
  else if a == wrdReg 0x20 then r == .control 0
  else if a == wrdReg 0x24 then r == .control 1
  else true

/-- A write to a register of a unit: a bus error where it cannot be reached, discarded and counted without rights. -/
def gate (s : State) (r : Requester) (a : Nat) (act : State → State) : State :=
  if !canReach s r a then emit s (.busError a)
  else if !mayWrite r a then violate s a
  else act s

/-- A write to RWL fields (R9). -/
def gateLocked (s : State) (r : Requester) (a : Nat) (act : State → State) : State :=
  gate s r a (fun s => if lockOpen s r a then act s else violate s a)

end Sys2Proof.Machine
end

