-- ==== Sys2Proof/Machine/Debug.lean ====
section
/-! DEFINITION. Sampling counters and the black box (20_debug_counters.md R490–R501). -/
namespace Sys2Proof.Machine
open Sys2Proof

/-! ### Sampling counters (R491, R492) -/

/-- Add to a total, which saturates (R485). -/
def cntFold (s : State) (d n : Nat) : State :=
  let a := cntReg d (0x200 + 8 * n)
  let v := rd s a
  bump (wr s a (v - v % 2 ^ 33)) (cntReg d (0x300 + 8 * n)) (v % 2 ^ 33)

def execCntFold (r : Requester) (d : Fin 2) (v : BitVec 32) (s : State) : Out :=
  .next (gate s r (cntReg d 4) (fun s => cntFold s d (v.toNat % 16)))

/-- A configuration: EVENT 9 to 15 stores ENABLE = 0 (R490). -/
def sampleCfg (v : Nat) : Nat :=
  let v := v % 2 ^ 14
  if 9 ≤ v % 16 then v % 2 ^ 13 else v

def execCntSampleCfgWrite (r : Requester) (d : Fin 2) (n : Fin 16) (v : BitVec 32) (s : State) : Out :=
  .next (gate s r (cntReg d (0x100 + 4 * n)) (fun s =>
    wr (wr (wr s (cntReg d (0x200 + 8 * n)) 0) (cntReg d (0x300 + 8 * n)) 0) (cntReg d (0x100 + 4 * n)) (sampleCfg v.toNat)))

/-! ### The black box -/

/-- An entry's 32 bytes (R495). -/
def bbxEntry (seq : Nat) (post : Bool) (e : BbxEvent) : BitVec 256 :=
  BitVec.ofNat 256 (fld 0 32 seq + fld 32 16 e.code + fld 48 1 (b2n e.fatal) + fld 49 1 (b2n post) + fld 50 2 e.origin +
    fld 56 8 e.part + fld 64 64 e.time + fld 128 64 e.arg0 + fld 192 64 e.arg1)

def bbxPost (s : State) : Nat := bits (rd s (bbxReg 4)) 0 10

/-- An event is stored under the next SEQ; a fatal one opens a post window, and the window's last event freezes the
box (R497, R498). -/
def storeEvent (s : State) (e : BbxEvent) : State :=
  let b := s.bbx
  let opens := e.fatal && !b.pend
  let left := if opens then bbxPost s else b.left - 1
  let window := opens || b.pend
  { s with bbx := { b with
      entries := tset b.entries (b.seq % 8192) (bbxEntry b.seq b.pend e)
      seq := (b.seq + 1) % 2 ^ 32
      freezeSeq := if opens then b.seq else b.freezeSeq
      left := left
      pend := window && decide (0 < left)
      frozen := b.frozen || (window && left == 0) } }

def bbxQueue (b : Bbx) (k : Nat) : List BbxEvent := match k with | 0 => b.q0 | 1 => b.q1 | _ => b.q2
def bbxLost (b : Bbx) (k : Nat) : Nat := match k with | 0 => b.lost0 | 1 => b.lost1 | _ => b.lost2
def setBbxQueue (b : Bbx) (k : Nat) (q : List BbxEvent) : Bbx :=
  match k with | 0 => { b with q0 := q } | 1 => { b with q1 := q } | _ => { b with q2 := q }
def clearBbxLost (b : Bbx) (k : Nat) : Bbx :=
  match k with | 0 => { b with lost0 := 0 } | 1 => { b with lost1 := 0 } | _ => { b with lost2 := 0 }

/-- One cycle of the writer: the next queue of the rotation that holds an event; a LOST entry goes ahead of the next
event of a queue that dropped some (R497). -/
def bbxStore (s : State) : State :=
  let b := s.bbx
  if b.frozen then s
  else match [b.turn % 3, (b.turn + 1) % 3, (b.turn + 2) % 3].find? (fun k => !(bbxQueue b k).isEmpty) with
    | none => s
    | some k =>
      let s := { s with bbx := { b with turn := (k + 1) % 3 } }
      if 0 < bbxLost b k then
        storeEvent { s with bbx := clearBbxLost s.bbx k }
          ⟨0xFF, false, k, 0xFF, s.colds % 256 * 2 ^ 56 + s.ticks % 2 ^ 56, bbxLost b k, 0⟩
      else match bbxQueue b k with
        | [] => s
        | e :: t => storeEvent { s with bbx := setBbxQueue s.bbx k t } e

def execBbxStore (s : State) : Out := .next (bbxStore s)

def execBbxPostWindowExpired (s : State) : Out :=
  .next (if s.bbx.pend then { s with bbx := { s.bbx with pend := false, frozen := true } } else s)

/-- POST as any write of BBX_CTRL stores it. -/
def setPost (s : State) (v : Nat) : State := wr s (bbxReg 4) (v % 2 ^ 10)

/-- The freeze key: at once, even during a window; BBX_FREEZE_SEQ is then the last stored SEQ (R499). -/
def bbxFreeze (s : State) (v : Nat) : State :=
  let s := setPost s v
  if bits v 16 16 = 0x2F0C ∧ !s.bbx.frozen then
    { s with bbx := { s.bbx with
        frozen := true
        pend := false
        freezeSeq := if s.bbx.entries.isEmpty then s.bbx.freezeSeq else (s.bbx.seq + (2 ^ 32 - 1)) % 2 ^ 32 } }
  else s

def execBbxFreeze (r : Requester) (v : BitVec 32) (s : State) : Out :=
  .next (gate s r (bbxReg 4) (fun s => bbxFreeze s v.toNat))

/-- Requester code of UNFREEZE (R496). -/
def requesterCode : Requester → Nat
  | .app => 0
  | .control _ => 1
  | .mgmt => 2

/-- The unfreeze key, on a frozen or PENDING box: storing resumes with UNFREEZE (R499). -/
def bbxUnfreeze (s : State) (who v : Nat) : State :=
  let s := setPost s v
  if bits v 16 16 = 0x6C31 ∧ (s.bbx.frozen ∨ s.bbx.pend) then
    logEv { s with bbx := { s.bbx with frozen := false, pend := false } } 2 0x60 0xFF who s.bbx.freezeSeq false
  else s

def execBbxUnfreeze (r : Requester) (v : BitVec 32) (s : State) : Out :=
  .next (gate s r (bbxReg 4) (fun s => bbxUnfreeze s (requesterCode r) v.toNat))

end Sys2Proof.Machine
end

