-- ==== Sys2Proof/Machine/Fp.lean ====
section
/-! DEFINITION. Number formats, exact values, rounding and conversion (04_number_formats.md R87–R100, R106). -/
namespace Sys2Proof.Machine
open Sys2Proof

/-- An exact value: NaN, an infinity, or `(-1)^neg * m * 2^e`. -/
inductive Val where
  | nan
  | inf (neg : Bool)
  | fin (neg : Bool) (m : Nat) (e : Int)
  deriving DecidableEq, Repr

/-- What a format does with infinities and NaNs (R89, R98). -/
inductive Specials where
  | ieee      -- infinity and NaN in the all-ones exponent
  | e4m3      -- S.1111.111 is NaN, no infinity
  | none      -- neither
  deriving DecidableEq, Repr

/-- A floating-point layout (R89): exponent bits, fraction bits, bias, largest finite significand
and its ulp exponent, canonical NaN (R90). -/
structure Fmt where
  eb : Nat
  fb : Nat
  bias : Int
  sp : Specials
  nan : Nat
  deriving DecidableEq, Repr

def fp64 : Fmt := ⟨11, 52, 1023, .ieee, 0x7FF8000000000000⟩
def fp32 : Fmt := ⟨8, 23, 127, .ieee, 0x7FC00000⟩
def bf16 : Fmt := ⟨8, 7, 127, .ieee, 0x7FC0⟩
def fp16 : Fmt := ⟨5, 10, 15, .ieee, 0x7E00⟩
def e4m3 : Fmt := ⟨4, 3, 7, .e4m3, 0x7F⟩
def e5m2 : Fmt := ⟨5, 2, 15, .ieee, 0x7E⟩
def e3m2 : Fmt := ⟨3, 2, 3, .none, 0⟩
def e2m3 : Fmt := ⟨2, 3, 1, .none, 0⟩
def e2m1 : Fmt := ⟨2, 1, 1, .none, 0⟩

/-- Element type codes of R87 that name a floating-point layout. -/
def fmtOf : Nat → Option Fmt
  | 0 => some fp32 | 1 => some bf16 | 2 => some fp16 | 3 => some e4m3 | 4 => some e5m2
  | 5 => some e3m2 | 6 => some e2m3 | 7 => some e2m1 | 10 => some fp64 | _ => none

/-- Bits of one element of a type (R87, R88); 0 for the codes that name no type. -/
def elemBits : Nat → Nat
  | 0 => 32 | 1 => 16 | 2 => 16 | 3 => 8 | 4 => 8 | 5 => 6 | 6 => 6 | 7 => 4 | 8 => 8 | 9 => 4
  | 10 => 64 | 11 => 8 | 12 => 32 | _ => 0

/-- All bits of a format. -/
def Fmt.width (f : Fmt) : Nat := 1 + f.eb + f.fb

/-- Exponent of the largest normal, and the largest significand at that exponent (R89). -/
def Fmt.emax (f : Fmt) : Int :=
  match f.sp with
  | .ieee => (2 ^ f.eb - 2 : Nat) - f.bias
  | _ => (2 ^ f.eb - 1 : Nat) - f.bias

def Fmt.mmax (f : Fmt) : Nat :=
  match f.sp with
  | .e4m3 => 2 ^ (f.fb + 1) - 2
  | _ => 2 ^ (f.fb + 1) - 1

/-- The value an encoding stands for (R89). -/
def decode (f : Fmt) (x : Nat) : Val :=
  let s := bit x (f.eb + f.fb)
  let e := bits x f.fb f.eb
  let m := bits x 0 f.fb
  if f.sp = .ieee ∧ e = 2 ^ f.eb - 1 then (if m = 0 then .inf s else .nan)
  else if f.sp = .e4m3 ∧ e = 2 ^ f.eb - 1 ∧ m = 2 ^ f.fb - 1 then .nan
  else if e = 0 then .fin s m (1 - f.bias - f.fb)
  else .fin s (2 ^ f.fb + m) ((e : Int) - f.bias - f.fb)

/-- Rounding modes of a conversion control (R95): nearest-even, toward zero, stochastic with its hash word (R97). -/
inductive Rnd where
  | rne
  | rtz
  | sr (r : Nat)
  deriving DecidableEq, Repr

/-- The flag bits of R158, as the registers number them (R168). -/
def fNanIn : Nat := 1
def fInvalid : Nat := 2
def fDivzero : Nat := 4
def fOverflow : Nat := 8
def fUnderflow : Nat := 16
def fInexact : Nat := 32
def fRange : Nat := 64

/-- `k` when the condition holds, else 0. -/
def fl (c : Bool) (k : Nat) : Nat := if c then k else 0

/-- Round `m * 2^e` to a multiple of `2^q`: the multiple and whether bits were lost (R96, R97). -/
def roundTo (rn : Rnd) (m : Nat) (e q : Int) : Nat × Bool :=
  if q ≤ e then (m <<< (e - q).toNat, false)
  else
    let k := (q - e).toNat
    let t := m >>> k
    let rem := m % 2 ^ k
    if rem = 0 then (t, false)
    else
      let up := match rn with
        | .rne => decide (2 ^ k < 2 * rem) || (decide (2 * rem = 2 ^ k) && t % 2 == 1)
        | .rtz => false
        | .sr r => decide (2 ^ 32 - (rem <<< 32) >>> k ≤ r)
      (if up then t + 1 else t, true)

/-- Does `m1 * 2^e1` exceed `m2 * 2^e2`? -/
def dyGt (m1 : Nat) (e1 : Int) (m2 : Nat) (e2 : Int) : Bool :=
  let e := min e1 e2
  decide (m2 <<< (e2 - e).toNat < m1 <<< (e1 - e).toNat)

/-- Encoding of a finite significand and ulp exponent that fit the format. -/
def pack (f : Fmt) (s : Bool) (t : Nat) (q : Int) : Nat :=
  let sg := b2n s <<< (f.eb + f.fb)
  if t < 2 ^ f.fb then sg + t
  else
    let (t, q) := if t = 2 ^ (f.fb + 1) then (2 ^ f.fb, q + 1) else (t, q)
    sg + ((q + f.fb + f.bias).toNat <<< f.fb) + (t - 2 ^ f.fb)

def largest (f : Fmt) (s : Bool) : Nat := pack f s f.mmax (f.emax - f.fb)
def infEnc (f : Fmt) (s : Bool) : Nat := (b2n s <<< (f.eb + f.fb)) + ((2 ^ f.eb - 1) <<< f.fb)

/-- A finite overflow (R98): the largest finite value with SAT or toward zero, else infinity, NaN or the
largest finite value as the format has them. -/
def overflowEnc (f : Fmt) (rn : Rnd) (sat s : Bool) : Nat :=
  if sat || rn == .rtz then largest f s
  else match f.sp with
    | .ieee => infEnc f s
    | .e4m3 => f.nan
    | .none => largest f s

/-- Convert an exact value into a format (R96–R98). -/
def roundEnc (f : Fmt) (rn : Rnd) (sat : Bool) : Val → Nat × Nat
  | .nan => (f.nan, fInvalid)
  | .inf s =>
    match f.sp with
    | .ieee => (infEnc f s, 0)
    | .e4m3 => (if sat then largest f s else f.nan, fInvalid)
    | .none => (largest f s, fInvalid)
  | .fin s m e =>
    if m = 0 then (b2n s <<< (f.eb + f.fb), 0)
    else
      let top : Int := (m.log2 : Int) + e
      let q : Int := max (top - f.fb) (1 - f.bias - f.fb)
      let (t, lost) := roundTo rn m e q
      if dyGt t q f.mmax (f.emax - f.fb) then
        (overflowEnc f rn sat s, fOverflow + fInexact)
      else
        let q0 : Int := top - f.fb
        let tiny := dyGt 1 (1 - f.bias) (roundTo rn m e q0).1 q0
        (pack f s t q, fl lost fInexact + fl (lost && tiny) fUnderflow)

/-- Convert without SAT, rounding to nearest even. -/
def enc (f : Fmt) (v : Val) : Nat := (roundEnc f .rne false v).1

def Val.neg : Val → Val
  | .nan => .nan
  | .inf s => .inf !s
  | .fin s m e => .fin (!s) m e

def Val.abs : Val → Val
  | .nan => .nan
  | .inf _ => .inf false
  | .fin _ m e => .fin false m e

/-- Signed integer significand at exponent `e0 ≤ e`. -/
def sgnAt (s : Bool) (m : Nat) (e e0 : Int) : Int :=
  let k : Int := ((m <<< (e - e0).toNat : Nat) : Int)
  if s then -k else k

/-- Exact sum; an exact zero of operands of unlike sign is +0 (R106). -/
def Val.add : Val → Val → Val
  | .nan, _ => .nan
  | _, .nan => .nan
  | .inf a, .inf b => if a = b then .inf a else .nan
  | .inf a, _ => .inf a
  | _, .inf b => .inf b
  | .fin s m e, .fin s' m' e' =>
    let e0 := min e e'
    let k := sgnAt s m e e0 + sgnAt s' m' e' e0
    if k = 0 then .fin (s && s') 0 0 else .fin (decide (k < 0)) k.natAbs e0

def Val.sub (a b : Val) : Val := a.add b.neg

/-- Exact product; 0 × infinity is NaN. -/
def Val.mul : Val → Val → Val
  | .nan, _ => .nan
  | _, .nan => .nan
  | .inf a, .inf b => .inf (a != b)
  | .inf a, .fin s m _ => if m = 0 then .nan else .inf (a != s)
  | .fin s m _, .inf b => if m = 0 then .nan else .inf (s != b)
  | .fin s m e, .fin s' m' e' => .fin (s != s') (m * m') (e + e')

def Val.isNan : Val → Bool
  | .nan => true
  | _ => false

def Val.isInf : Val → Bool
  | .inf _ => true
  | _ => false

def Val.isZero : Val → Bool
  | .fin _ m _ => m == 0
  | _ => false

def Val.sign : Val → Bool
  | .nan => false
  | .inf s => s
  | .fin s _ _ => s

/-- Order of two values that are not NaN; the two zeros compare equal. -/
def Val.lt : Val → Val → Bool
  | .nan, _ => false
  | _, .nan => false
  | .inf a, .inf b => a && !b
  | .inf a, .fin _ _ _ => a
  | .fin _ _ _, .inf b => !b
  | .fin s m e, .fin s' m' e' =>
    let e0 := min e e'
    decide (sgnAt s m e e0 < sgnAt s' m' e' e0)

/-- Equality of two values; NaN equals nothing. -/
def Val.eqv (a b : Val) : Bool := !a.isNan && !b.isNan && !a.lt b && !b.lt a

/-- The value of an integer. -/
def Val.ofInt (i : Int) : Val := .fin (decide (i < 0)) i.natAbs 0

/-- Convert to an integer of `n` bits in two's complement (R99): round on the integer grid, then clamp. -/
def roundInt (n : Nat) (rn : Rnd) : Val → Int × Nat
  | .nan => (0, fInvalid)
  | .inf s => (if s then -(2 ^ (n - 1) : Nat) else ((2 ^ (n - 1) : Nat) : Int) - 1, fInvalid)
  | .fin s m e =>
    let (t, lost) := roundTo rn m e 0
    let i : Int := if s then -(t : Int) else t
    let hi : Int := ((2 ^ (n - 1) : Nat) : Int) - 1
    let lo : Int := -((2 ^ (n - 1) : Nat) : Int)
    if hi < i then (hi, fOverflow + fInexact)
    else if i < lo then (lo, fOverflow + fInexact)
    else (i, fl lost fInexact)

/-- The exact value of an unscaled element of type code `t` (R87, R89); integers are their values. -/
def elemVal (t x : Nat) : Val :=
  match fmtOf t with
  | some f => decode f x
  | none =>
    if t = 8 then .ofInt (sext 8 x)
    else if t = 9 then .ofInt (sext 4 x)
    else if t = 11 then (if x = 255 then .nan else .fin false 1 ((x : Int) - 127))
    else .ofInt (sext 32 x)

/-- The value of an element under an E8M0 scale (R93). -/
def scaled (x : Nat) (v : Val) : Val :=
  if x = 255 then .nan else v.mul (.fin false 1 ((x : Int) - 127))

/-- Convert an exact value to an element of type code `t` (R98, R99); the encoding and its flags. -/
def encElem (t : Nat) (rn : Rnd) (sat : Bool) (v : Val) : Nat × Nat :=
  match fmtOf t with
  | some f =>
    match f.sp, v with
    | .none, .nan => (0, fInvalid)
    | _, _ => roundEnc f rn sat v
  | none =>
    let n := elemBits t
    let (i, fl) := roundInt n rn v
    (enc2 n i, fl)

/-- Exponent of a block-scaled format's largest normal (R94). -/
def mxEmax : Nat → Int
  | 3 => 8 | 4 => 15 | 5 => 4 | 6 => 2 | _ => 2

/-- Largest magnitude of a list of finite values, as significand and exponent. -/
def maxMag : List Val → Nat × Int
  | [] => (0, 0)
  | .fin _ m e :: t =>
    let (m', e') := maxMag t
    if dyGt m e m' e' then (m, e) else (m', e')
  | _ :: t => maxMag t

/-- Quantise one block into a block-scaled format (R94): its scale, its elements and the flags.
`rn i` is the rounding of element `i` of the block. -/
def quantBlock (t : Nat) (rn : Nat → Rnd) (vs : List Val) : Nat × List Nat × Nat :=
  if vs.any (fun v => v.isNan || v.isInf) then (255, vs.map (fun _ => 0), fInvalid)
  else
    let (m, e) := maxMag vs
    let sgnbit := elemBits t - 1
    if m = 0 then (0, vs.map (fun v => b2n v.sign <<< sgnbit), 0)
    else
      let x : Int := max (-127) (min 127 ((m.log2 : Int) + e - mxEmax t))
      let rs := vs.mapIdx (fun i v => encElem t (rn i) true (v.mul (.fin false 1 (-x))))
      ((x + 127).toNat, rs.map Prod.fst, (rs.map Prod.snd).foldl (· ||| ·) 0)

end Sys2Proof.Machine
end

