-- ==== Sys2Proof/Machine/Matrix.lean ====
section
/-! DEFINITION. What the matrix array computes: operand pairs, chunk sums and accumulators
(04_number_formats.md R103–R105; 05_matrix_array.md R110–R115, R126). -/
namespace Sys2Proof.Machine
open Sys2Proof

/-- Products per cell for an operand pair, where R113 lists the pair. -/
def pairE (a b : Nat) : Option Nat :=
  if (a = 1 ∧ b = 1) ∨ (a = 2 ∧ b = 2) then some 1
  else if 3 ≤ a ∧ a ≤ 7 ∧ 3 ≤ b ∧ b ≤ 7 then (if a = 7 ∧ b = 7 then some 4 else some 2)
  else if 8 ≤ a ∧ a ≤ 9 ∧ 8 ≤ b ∧ b ≤ 9 then (if a = 9 ∧ b = 9 then some 4 else some 2)
  else none

/-- Does a scaling flag agree with R113 for a type? -/
def scaleOk (t : Nat) (scaled : Bool) : Bool :=
  if 5 ≤ t ∧ t ≤ 7 then scaled else if t = 3 ∨ t = 4 then true else !scaled

/-- Products in a chunk (R103). -/
def chunkSize (aType : Nat) : Nat := if aType ≤ 2 then 16 else 32

/-- Bytes of a stream row (R113). -/
def streamBytes (aType e : Nat) : Nat := 128 * e * elemBits aType / 8

/-- One operand element under its scale (R93): its value, and whether it is a NaN operand (R126). -/
def operand (t : Nat) (isScaled : Bool) (raw scale : Nat) : Val × Bool :=
  let v := if isScaled then scaled scale (elemVal t raw) else elemVal t raw
  (v, v.isNan)

/-- Running exact sum of a chunk: none before its first product (R104). -/
def addProd (acc : Option Val) (v : Val) : Option Val :=
  match acc with
  | none => some v
  | some w => some (w.add v)

/-- Element `i` of column `c`: `B[i][c]` of a plane (R110, R114). -/
def planeElem (pl : Plane) (i c : Nat) : Nat :=
  bits (tget 0 pl.img (i / pl.e)) (elemBits pl.typ * (pl.e * c + i % pl.e)) (elemBits pl.typ)

/-- Operands of one stream row. -/
structure MxaIn where
  cfg : MxaCfg
  plane : Plane
  kExt : Nat
  row : Nat          -- packed stream row
  scales : Nat       -- its scale bytes
  init : Option Nat  -- initial row
  deriving DecidableEq, Repr

/-- Column state: accumulator, current chunk sum, flags. -/
structure ColSt where
  acc : Nat
  sum : Option Val := none
  flags : Nat := 0
  deriving DecidableEq, Repr

/-- Close a chunk of a floating-point class (R103): one rounding to FP32. -/
def closeChunk (s : ColSt) : ColSt :=
  match s.sum with
  | none => s
  | some v =>
    let a := Machine.decode fp32 s.acc
    let t := a.add v
    let (r, f) := roundEnc fp32 .rne false t
    let fl' := fl (t.isNan && !a.isNan && !v.isNan) 2 ||| fl (!t.isNan && f &&& fOverflow != 0) 4
    { s with acc := r, sum := none, flags := s.flags ||| fl' }

/-- Clamp to INT32 (R105). -/
def satAdd (acc : Nat) (k : Int) : Nat × Bool :=
  let x := sext 32 acc + k
  if 2147483647 < x then (0x7FFFFFFF, true)
  else if x < -2147483648 then (0x80000000, true)
  else (enc2 32 x, false)

/-- Close a chunk of the integer class (R105). -/
def closeInt (s : ColSt) : ColSt :=
  match s.sum with
  | some (.fin sg m e) =>
    let (r, sat) := satAdd s.acc (sgnAt sg m e 0)
    { s with acc := r, sum := none, flags := s.flags ||| fl sat 8 }
  | _ => s

/-- Element `i` of column `c` meets its product; a chunk closes after its last element (R112). -/
def colStep (x : MxaIn) (c i : Nat) (s : ColSt) : ColSt :=
  let cs := chunkSize x.cfg.aType
  let isInt := decide (8 ≤ x.cfg.aType)
  let (a, na) := operand x.cfg.aType x.cfg.aScaled (bits x.row (elemBits x.cfg.aType * i) (elemBits x.cfg.aType))
    (bits x.scales (8 * (i / 32)) 8)
  let (b, nb) := operand x.plane.typ x.plane.scaled (planeElem x.plane i c)
    (bits (tget 0 x.plane.scales (i / 32)) (8 * c) 8)
  let p := a.mul b
  let s := { s with sum := addProd s.sum p,
                    flags := s.flags ||| fl (na || nb) 1 ||| fl (p.isNan && !na && !nb) 2 |||
                      fl (match s.sum with
                          | some w => !w.isNan && !p.isNan && (w.add p).isNan
                          | none => false) 2 }
  if (i + 1) % cs = 0 ∨ i + 1 = x.kExt then (if isInt then closeInt s else closeChunk s) else s

/-- One column of a row: its result and flags. -/
def colResult (x : MxaIn) (c : Nat) : Nat × Nat :=
  let a0 := match x.init with
    | some r => bits r (32 * c) 32
    | none => 0
  let nanIn := decide (x.cfg.aType < 8) && (Machine.decode fp32 a0).isNan
  let s := foldNat x.kExt (fun i s => colStep x c i s) { acc := a0, flags := fl nanIn 1 }
  (s.acc, s.flags)

/-- The 128-byte result row and its MXA_FLAGS bits (R115, R126). -/
def mxaRow (x : MxaIn) : Nat × Nat :=
  foldNat 32 (fun c r =>
    let (v, f) := colResult x c
    (r.1 ||| (v <<< (32 * c)), r.2 ||| f)) (0, 0)

end Sys2Proof.Machine
end

