-- ==== Sys2Proof/Machine/Desc.lean ====
section
/-! DEFINITION. Allocated ranges, tensor and copy descriptors, and the describe operation
(09_scratchpad_copy.md R211–R223, R526; 15_training_resilience.md R389). Descriptors are 64-byte images held as
numbers. -/
namespace Sys2Proof.Machine
open Sys2Proof

/-! ### Fields of a tensor descriptor (R213) -/

def tdBase (d : Nat) : Nat := bits d 0 48
def tdType (d : Nat) : Nat := bits d 48 4
def tdNdim (d : Nat) : Nat := bits d 52 3 + 1
def tdWrite (d : Nat) : Bool := bit d 56
def tdHandle (d : Nat) : Nat := bits d 64 64
def tdExt (d i : Nat) : Nat := bits d (128 + 32 * i) 32
def tdStr (d i : Nat) : Int := sext 40 (bits d (288 + 40 * i) 40)

/-- Group size of a type (R215). -/
def groupOf (t : Nat) : Nat := if t = 7 ∨ t = 9 then 2 else if t = 5 ∨ t = 6 then 4 else 1

/-- Bytes of a type of one byte or more. -/
def typeSize (t : Nat) : Nat := elemBits t / 8

/-- First and last byte, relative to BASE, of the storage that position `p` lies in (R214). -/
def posBytes (t : Nat) (p : Int) : Int × Int :=
  if t = 7 ∨ t = 9 then (p / 2, p / 2)
  else if t = 5 ∨ t = 6 then (3 * (p / 4), 3 * (p / 4) + 2)
  else (p * typeSize t, p * typeSize t + typeSize t - 1)

def dims : List Nat := [0, 1, 2, 3, 4]
def liveDims (d : Nat) : List Nat := dims.filter (fun i => decide (1 < tdExt d i))

/-- Lowest and highest position of a tensor (R216). -/
def posLo (d : Nat) : Int := ((liveDims d).map (fun i => min 0 (tdStr d i * (tdExt d i - 1 : Int)))).sum
def posHi (d : Nat) : Int := ((liveDims d).map (fun i => max 0 (tdStr d i * (tdExt d i - 1 : Int)))).sum

/-- The byte span of a tensor, whole groups, as addresses (R216). -/
def tdSpan (d : Nat) : Int × Int :=
  let g : Int := groupOf (tdType d)
  let lo := g * (posLo d / g)
  let hi := g * (posHi d / g) + g - 1
  ((tdBase d : Int) + (posBytes (tdType d) lo).1, (tdBase d : Int) + (posBytes (tdType d) hi).2)

/-! ### Ranges (R211, R212) -/

def handleIdx (h : Nat) : Nat := bits h 0 12
def handlePart (h : Nat) : Nat := bits h 12 3
def handleSpad (h : Nat) : Bool := bit h 15
def handleGen (h : Nat) : Nat := bits h 16 32

def rangeAt (s : State) (i : Nat) : Range := tget {} s.ranges i
def setRange (s : State) (i : Nat) (r : Range) : State := { s with ranges := tset s.ranges i r }

/-- The live range that a handle names for partition `p` (R212). -/
def rangeOf (s : State) (h p : Nat) : Option Range :=
  let r := rangeAt s (handleIdx h)
  if r.live && bits h 48 16 == 0 && r.gen == handleGen h && r.part == handlePart h && r.spad == handleSpad h &&
      r.part == p then some r else none

/-! ### The describe operation on tensors -/

def extentsOk (d : Nat) : Bool :=
  decide (bits d 52 3 ≤ 4) && dims.all (fun i => decide (1 ≤ tdExt d i)) &&
    dims.all (fun i => decide (i < tdNdim d) || tdExt d i == 1)

def packingOk (d : Nat) : Bool :=
  let g := groupOf (tdType d)
  decide (g = 1) || ((decide (tdExt d 0 ≤ 1) || tdStr d 0 == 1) &&
    ([1, 2, 3, 4].all (fun i => decide (tdExt d i ≤ 1) || tdStr d i % (g : Int) == 0)))

def alignOk (d : Nat) : Bool :=
  let n := typeSize (tdType d)
  !(n == 2 || n == 4 || n == 8) || tdBase d % n == 0

/-- Insert a dimension into a list sorted by |STR|, ties in ascending d (R217). -/
def insDim (d i : Nat) : List Nat → List Nat
  | [] => [i]
  | j :: t => if (tdStr d i).natAbs < (tdStr d j).natAbs then i :: j :: t else j :: insDim d i t

def injGo (d g : Nat) : List Nat → Nat → Bool
  | [], _ => true
  | i :: t, reach =>
    let e := if i = 0 then g * ceilDiv' (tdExt d 0) g else tdExt d i
    let a := (tdStr d i).natAbs
    decide (reach < a) && injGo d g t (reach + a * (e - 1))

/-- The sufficient injectivity test (R217). -/
def injective (d : Nat) : Bool :=
  injGo d (groupOf (tdType d)) ((liveDims d).foldl (fun l i => insDim d i l) []) 0

/-- Result of describing a tensor for partition `p` (R216, R240); 0 accepts it. -/
def describeTensor (s : State) (d p : Nat) : Nat :=
  if bit d 55 || bits d 57 7 != 0 || bits d 488 24 != 0 then 0x10
  else if 13 ≤ tdType d then 1
  else match rangeOf s (tdHandle d) p with
    | none => 2
    | some r =>
      if tdWrite d && !r.writable then 3
      else if !extentsOk d then 4
      else if !packingOk d then 5
      else if !alignOk d then 6
      else
        let (f, l) := tdSpan d
        if f < (r.base : Int) ∨ ((r.base + r.len : Nat) : Int) - 1 < l then 7
        else if tdWrite d && !injective d then 8
        else 0

/-! ### Fields of a copy descriptor (R219) -/

def cdTag (c : Nat) : Nat := bits c 0 32
def cdOp (c : Nat) : Nat := bits c 32 8
def cdSignal (c : Nat) : Bool := bit c 40
def cdRecord (c : Nat) : Bool := bit c 41
def cdAbortLate (c : Nat) : Bool := bit c 42
def cdRemote (c : Nat) : Bool := bit c 43
def cdConvert (c : Nat) : Bool := bit c 44
def cdPerm (c i : Nat) : Nat := bits c (48 + 3 * i) 3
def cdSrc (c : Nat) : Nat := bits c 64 32
def cdDst (c : Nat) : Nat := bits c 96 32
def cdSrcScale (c : Nat) : Nat := bits c 128 32
def cdDstScale (c : Nat) : Nat := bits c 160 32
def cdConv (c : Nat) : Nat := bits c 192 32
def cdDeadline (c : Nat) : Nat := bits c 224 32
def cdCtr (c : Nat) : Nat := bits c 256 16
def cdInc (c : Nat) : Nat := bits c 272 16
def cdIters (c : Nat) : Nat := bits c 288 32
def cdSrcStep (c : Nat) : Int := sext 40 (bits c 320 40)
def cdDstStep (c : Nat) : Int := sext 40 (bits c 360 40)
def cdModule (c : Nat) : Nat := bits c 400 16
def cdHandle (c : Nat) : Nat := bits c 416 64
def cdOffset (c : Nat) : Nat := bits c 480 32

def noRef : Nat := 0xFFFFFFFF

/-- The descriptor that a reference names in a partition's tables (R218). -/
def descAt (s : State) (p ref : Nat) : Option DescE :=
  if 2 ^ 17 ≤ ref then none
  else if bit ref 16 then tfind (part s p).runDescs (ref % 2 ^ 16) else tfind (part s p).descs (ref % 2 ^ 16)

/-- The tensor that a reference names. -/
def tensorAt (s : State) (p ref : Nat) : Option Nat :=
  match descAt s p ref with
  | some (.tensor d) => some d
  | _ => none

/-- A reference is none, or names a live tensor. -/
def refOk (s : State) (p ref : Nat) : Bool := ref == noRef || (tensorAt s p ref).isSome

/-- Type codes that may be block-scaled (R93, R221). -/
def mxType (t : Nat) : Bool := decide (3 ≤ t ∧ t ≤ 7)

/-- Bytes by which a span moves when BASE is shifted by `n` elements; whole groups for packed types (R220, R526). -/
def stepBytes (t : Nat) (n : Int) : Int :=
  if t = 7 ∨ t = 9 then n / 2 else if t = 5 ∨ t = 6 then 3 * (n / 4) else n * typeSize t

/-- A scale tensor fits its elements: E8M0, and one scale for each block of 32 along dimension 0 (R92). -/
def scaleFits (d sc : Nat) : Bool :=
  tdType sc == 11 && tdExt sc 0 == ceilDiv' (tdExt d 0) 32 && [1, 2, 3, 4].all (fun i => tdExt sc i == tdExt d i)

/-- Elements of a tensor. -/
def tdCount (d : Nat) : Nat := (dims.map (tdExt d)).foldl (· * ·) 1

/-- Bytes of one iteration of a REMOTE copy, packed densely (R222). -/
def denseBytes (t n : Nat) : Nat :=
  if t = 7 ∨ t = 9 then ceilDiv' n 2 else if t = 5 ∨ t = 6 then 3 * ceilDiv' n 4 else n * typeSize t

/-- The pairs of R154. -/
def pairOk (a b : Nat) : Bool :=
  (a == 0 && [1, 2, 10, 12, 3, 4, 8, 9].contains b) || ([1, 2, 10, 12, 3, 4, 8, 9].contains a && b == 0)

/-- The conversions that a copy accepts (R221, R389): `ss` and `ds` say which sides name scales. -/
def convOk (st dt : Nat) (ss ds feat : Bool) : Bool :=
  if ss && ds then false
  else if ds then mxType dt && (st == 0 || (st == 1 && (dt == 3 || dt == 4) && feat))
  else if ss then mxType st && (dt == 0 || (dt == 1 && (st == 3 || st == 4) && feat))
  else pairOk st dt

/-- A moving span: first and last byte in iteration 0 and bytes moved per iteration, with its range. -/
structure MovSpan where
  idx : Nat
  f : Int
  l : Int
  sb : Int
  g : Nat
  step : Int
  deriving DecidableEq, Repr

def movSpan (d : Nat) (step : Int) : MovSpan :=
  let (f, l) := tdSpan d
  ⟨handleIdx (tdHandle d), f, l, stepBytes (tdType d) step, groupOf (tdType d), step⟩

/-- The spans that a copy reads and those it writes, element and scale tensors alike. -/
def copySpans (s : State) (p c : Nat) : List MovSpan × List MovSpan :=
  let one := fun (ref : Nat) (step : Int) => match tensorAt s p ref with | some d => [movSpan d step] | none => []
  (one (cdSrc c) (cdSrcStep c) ++ one (cdSrcScale c) (cdSrcStep c / 32),
   one (cdDst c) (cdDstStep c) ++ one (cdDstScale c) (cdDstStep c / 32))

/-- The span stays in its range in the first and the last iteration (R223). -/
def spanIn (s : State) (n : Int) (x : MovSpan) : Bool :=
  let r := rangeAt s x.idx
  decide ((r.base : Int) ≤ min x.f (x.f + n * x.sb)) && decide (max x.l (x.l + n * x.sb) < ((r.base + r.len : Nat) : Int))

/-- Does some n with `0 ≤ n ≤ last` make `a.f + n a.sb ≤ b.l + n b.sb` and `b.f + n b.sb ≤ a.l + n a.sb`? Both are
linear in n, so each holds on an interval (R223). -/
def spansMeet (a b : MovSpan) (last : Int) : Bool :=
  let solve := fun (k c : Int) (lo hi : Int) =>   -- k * n ≤ c
    if k = 0 then (if 0 ≤ c then (lo, hi) else (1, 0))
    else if 0 < k then (lo, min hi (c / k))
    else (max lo (-(c / (-k))), hi)
  let (lo, hi) := solve (a.sb - b.sb) (b.l - a.f) 0 last
  let (lo, hi) := solve (b.sb - a.sb) (a.l - b.f) lo hi
  decide (lo ≤ hi)

/-- Shape rules of a copy descriptor, R220 to R222 and R526 but for its last item. `feat` allows the pairs of R389. -/
def copyShapeOk (s : State) (c p : Nat) (feat : Bool) : Bool :=
  let src := tensorAt s p (cdSrc c)
  let dst := tensorAt s p (cdDst c)
  let ss := cdSrcScale c != noRef
  let ds := cdDstScale c != noRef
  let ident := dims.all (fun i => cdPerm c i == i)
  let perm := dims.all (fun k => dims.any (fun i => cdPerm c i == k))
  let sig := if cdSignal c then cdInc c != 0 else cdCtr c == 0 && cdInc c == 0
  let common := [cdSrc c, cdDst c, cdSrcScale c, cdDstScale c].all (refOk s p) && decide (1 ≤ cdIters c) && sig &&
    (cdConvert c || (cdConv c == 0 && !ss && !ds)) &&
    bits (cdConv c) 0 2 != 3
  common && (match cdOp c, src, dst with
    | 2, none, some d =>
      !ss && !ds && !cdConvert c && !cdRemote c && ident && cdSrcStep c == 0 && cdModule c == 0 && cdOffset c == 0 &&
        cdHandle c / 2 ^ elemBits (tdType d) == 0
    | 1, some a, none =>
      let n := tdCount a
      let b := denseBytes (tdType a) n
      cdRemote c && !cdConvert c && ident && decide (cdModule c < 16384) && b % 64 == 0 && n % groupOf (tdType a) == 0 &&
        cdDstStep c == 0
    | 1, some a, some d =>
      !cdRemote c && cdModule c == 0 && cdHandle c == 0 && cdOffset c == 0 && perm &&
        dims.all (fun i => tdExt d i == tdExt a (cdPerm c i)) &&
        (if cdConvert c then
          convOk (tdType a) (tdType d) ss ds feat && (!(ss || ds) || cdPerm c 0 == 0) &&
            (!ss || ((tensorAt s p (cdSrcScale c)).any (scaleFits a) && (cdIters c == 1 || cdSrcStep c % 32 == 0))) &&
            (!ds || ((tensorAt s p (cdDstScale c)).any (fun x => scaleFits d x && tdWrite x) &&
              (cdIters c == 1 || cdDstStep c % 32 == 0)))
         else tdType a == tdType d)
    | _, _, _ => false)

/-- Result of describing a copy for partition `p` (R223, R526, R240); 0 accepts it. -/
def describeCopy (s : State) (c p : Nat) (feat : Bool) : Nat :=
  if bits c 45 3 != 0 || bit c 63 || bits c 268 4 != 0 then 0x10
  else if !copyShapeOk s c p feat then 9
  else if (tensorAt s p (cdDst c)).any (fun d => !tdWrite d) then 9
  else
    let (rs, ws) := copySpans s p c
    let last : Int := cdIters c - 1
    if (rs ++ ws).any (fun x => x.step % (x.g : Int) != 0) then 5
    else if !(rs ++ ws).all (spanIn s last) then 7
    else if rs.any (fun a => ws.any (fun b => a.idx == b.idx && spansMeet a b last)) then 10
    else 0

/-! ### Live descriptors and their ranges -/

/-- Ranges that a descriptor entry names: a tensor counts in its range (R212). -/
def descRange : DescE → Option Nat
  | .tensor d => some (handleIdx (tdHandle d))
  | .copy _ => none

/-- Add to or take from the count of the range that an entry names. -/
def countDesc (s : State) (e : DescE) (up : Bool) : State :=
  match descRange e with
  | none => s
  | some i =>
    let r := rangeAt s i
    setRange s i { r with count := if up then r.count + 1 else r.count - 1 }

/-- Tensor references of a copy descriptor. -/
def copyRefs (c : Nat) : List Nat := [cdSrc c, cdDst c, cdSrcScale c, cdDstScale c].filter (· != noRef)

/-- Does a live copy descriptor of the partition name the reference? -/
def namedByCopy (s : State) (p ref : Nat) : Bool :=
  let uses := fun (e : Nat × DescE) => match e.2 with | .copy c => (copyRefs c).contains ref | _ => false
  (part s p).descs.any uses || (part s p).runDescs.any uses || (part s p).stagedDescs.any uses

end Sys2Proof.Machine
end

