-- ==== Sys2Proof/Machine/Ecc.lean ====
section
/-! DEFINITION. Hull-576 and Husk-288: Reed–Solomon RS(36, 32) over GF(2¹⁶) and GF(2⁸), with poison
(11_memory_integrity.md R273–R278). A stored word is held as its data and an overlay of symbol errors against the
encoded word: the code is linear, so what a decoder finds depends on the overlay alone. -/
namespace Sys2Proof.Machine
open Sys2Proof

/-- A code's field: symbol width and reduction polynomial (R273, R276). -/
structure Field where
  m : Nat
  poly : Nat
  deriving DecidableEq, Repr

def hullF : Field := ⟨16, 0x1100B⟩
def huskF : Field := ⟨8, 0x11D⟩

/-- Product in the field, over the bits of `b` from bit `n - 1` down. -/
def gfMulGo (f : Field) (a b : Nat) : Nat → Nat → Nat
  | 0, acc => acc
  | n + 1, acc =>
    let t := 2 * acc
    let t := if t.testBit f.m then t ^^^ f.poly else t
    gfMulGo f a b n (if b.testBit n then t ^^^ a else t)

def gfMul (f : Field) (a b : Nat) : Nat := gfMulGo f a b f.m 0

/-- `a` to the power `n`. -/
def gfPow (f : Field) (a : Nat) : Nat → Nat
  | 0 => 1
  | n + 1 => gfMul f a (gfPow f a n)

/-- Inverse of a non-zero element: `a ^ (2 ^ m - 2)`, the product of its squares `a ^ 2, …, a ^ 2 ^ (m - 1)`. -/
def gfInvGo (f : Field) : Nat → Nat → Nat → Nat
  | 0, _, acc => acc
  | n + 1, a, acc =>
    let a2 := gfMul f a a
    gfInvGo f n a2 (gfMul f acc a2)

def gfInv (f : Field) (a : Nat) : Nat := gfInvGo f (f.m - 1) a 1

/-- Locator of symbol `j`: α to the power 35 − j (R273). -/
def locator (f : Field) (j : Nat) : Nat := gfPow f 2 (35 - j)

/-- Syndromes S0 to S3 of an overlay, a list of (symbol, error) pairs. -/
def syndrome (f : Field) (e : List (Nat × Nat)) : List Nat :=
  (List.range 4).map (fun i => e.foldl (fun a x => a ^^^ gfMul f x.2 (gfPow f (locator f x.1) i)) 0)

/-- Symbol `j` of an overlay packed `m` bits to a symbol. -/
def symOf (f : Field) (e j : Nat) : Nat := bits e (f.m * j) f.m

/-- The non-zero symbols of a packed overlay. -/
def overlaySyms (f : Field) (e : Nat) : List (Nat × Nat) :=
  ((List.range 36).map (fun j => (j, symOf f e j))).filter (fun x => x.2 != 0)

/-- The poison mask on symbols 32 to 35 (R278). -/
def poisonSyms (f : Field) : List (Nat × Nat) :=
  if f.m = 16 then [(32, 0x5A5A), (33, 0xA5A5), (34, 0x0FF0), (35, 0xF00F)]
  else [(32, 0x5A), (33, 0xA5), (34, 0x0F), (35, 0xF0)]

def packSyms (f : Field) (l : List (Nat × Nat)) : Nat := l.foldl (fun a x => a ^^^ (x.2 <<< (f.m * x.1))) 0

/-- The overlay of a poisoned word. -/
def poisonOf (f : Field) : Nat := packSyms f (poisonSyms f)

/-- What a decoder makes of a word. -/
inductive EccRead where
  | clean
  /-- corrected symbols, lowest first, with their corrections -/
  | corrected (syms : List (Nat × Nat))
  | poisoned
  | uncorrectable
  deriving DecidableEq, Repr

/-- A single-symbol solution of the syndromes. -/
def oneSym (f : Field) (s : List Nat) : Option (List (Nat × Nat)) :=
  let s0 := nth 0 s 0
  if s0 = 0 then none
  else
    ((List.range 36).find? (fun j =>
      let x := locator f j
      gfMul f s0 x == nth 0 s 1 && gfMul f (nth 0 s 1) x == nth 0 s 2 && gfMul f (nth 0 s 2) x == nth 0 s 3)).map
        (fun j => [(j, s0)])

/-- A two-symbol solution of the syndromes. -/
def twoSyms (f : Field) (s : List Nat) : Option (List (Nat × Nat)) :=
  let s0 := nth 0 s 0
  let s1 := nth 0 s 1
  let try' := fun (j k : Nat) =>
    let x := locator f j
    let y := locator f k
    let d := x ^^^ y
    let nj := s1 ^^^ gfMul f s0 y
    let nk := s1 ^^^ gfMul f s0 x
    let x2 := gfMul f x x
    let y2 := gfMul f y y
    nj != 0 && nk != 0 &&
      (gfMul f (nth 0 s 2) d == (gfMul f nj x2 ^^^ gfMul f nk y2)) &&
      (gfMul f (nth 0 s 3) d == (gfMul f nj (gfMul f x2 x) ^^^ gfMul f nk (gfMul f y2 y)))
  ((List.range 36).findSome? (fun j =>
    ((List.range 36).find? (fun k => decide (j < k) && try' j k)).map (fun k => (j, k)))).map (fun p =>
      let x := locator f p.1
      let y := locator f p.2
      let di := gfInv f (x ^^^ y)
      [(p.1, gfMul f (s1 ^^^ gfMul f s0 y) di), (p.2, gfMul f (s1 ^^^ gfMul f s0 x) di)])

/-- The decoder (R275, R276, R278): poison is looked for before correction. -/
def eccDecode (f : Field) (e : Nat) : EccRead :=
  if e = 0 then .clean
  else
    let s := syndrome f (overlaySyms f e)
    if s.all (· == 0) then .clean
    else if s == syndrome f (poisonSyms f) then .poisoned
    else match oneSym f s with
      | some l => .corrected l
      | none => match twoSyms f s with
        | some l => .corrected l
        | none => .uncorrectable

/-- What remains of an overlay after a correction: wrong data where a decoder was deceived. -/
def residual (f : Field) (e : Nat) : Nat :=
  match eccDecode f e with
  | .corrected l => e ^^^ packSyms f l
  | _ => e

/-- Granule bits that a Hull-576 overlay flips: bit i of symbol 2p + h lies at granule bit 16 × (16h + i) + p (R274). -/
def hullData (e : Nat) : Nat :=
  foldNat 512 (fun n a =>
    let p := n % 16
    let beat := n / 16
    if e.testBit (16 * (2 * p + beat / 16) + beat % 16) then a + 2 ^ n else a) 0

/-- Scratchpad-word bits that a Husk-288 overlay flips: symbol j is byte j (R276). -/
def huskData (e : Nat) : Nat := e % 2 ^ 256

/-- Is a read of the word refused to its reader? -/
def eccBad (f : Field) (e : Nat) : Bool :=
  match eccDecode f e with
  | .poisoned => true
  | .uncorrectable => true
  | _ => false

/-- Pin of a Hull-576 symbol (R274). -/
def pinOf (j : Nat) : Nat := if j < 32 then j / 2 else if j < 34 then 16 else 17

end Sys2Proof.Machine
end

