-- ==== Sys2Proof/Machine/Store.lean ====
section
/-! DEFINITION. The stored granules of the stacks: address decode, reads and writes through the code, and what a
corrected or uncorrectable read sets in motion (10_memory_stacks.md R242–R248, R260, 11_memory_integrity.md
R273–R291). A granule is held under its physical place, so that a change of the region table moves no data. -/
namespace Sys2Proof.Machine
open Sys2Proof

/-- A granule's physical place (R243). -/
structure Loc where
  st : Nat
  c : Nat
  bank : Nat
  row : Nat                        -- physical row: 0–8,191 user, 8,192–8,207 spare
  g : Nat
  deriving DecidableEq, Repr

/-- The number under which a place is stored. -/
def Loc.pg (l : Loc) : Nat := ((((l.st * 256 + l.c) * 16 + l.bank) * 8208 + l.row) * 16) + l.g

def locOf (pg : Nat) : Loc :=
  ⟨pg / (16 * 8208 * 16 * 256), pg / (16 * 8208 * 16) % 256, pg / (16 * 8208) % 16, pg / 16 % 8208, pg % 16⟩

/-- A word of the region table. The two dies' copies always agree, so one is held (R245). -/
def regionAddr (r w : Nat) : Nat := mchReg 0 (0x8000 + 32 * r + 8 * w)
def regionWord (s : State) (r w : Nat) : Nat := rd s (regionAddr r w)

/-- SLABi of an entry as its last commit took it (R244, R245). -/
def slabOf (s : State) (r i : Nat) : Nat := bits (tget 0 s.slabs (4 * r + (1 + i / 7))) (9 * (i % 7)) 9

/-- The bits of an entry's words that are not reserved (R244). -/
def regionMask (w : Nat) : Nat := if w = 0 then 2 ^ 12 - 1 else if w = 3 then 2 ^ 18 - 1 else 2 ^ 63 - 1

/-- A remap entry (R295). -/
def remapReg (st c n : Nat) : Nat := mchReg st (0x4000 + 64 * c + 8 * n)

/-- The physical row in use for a user row (R290). -/
def rowInUse (s : State) (st c bank row : Nat) : Nat :=
  match (List.range 8).find? (fun n =>
    let e := rd s (remapReg st c n)
    bit e 0 && bits e 4 4 == bank && bits e 8 13 == row) with
  | some n => 8192 + bits (rd s (remapReg st c n)) 21 4
  | none => row

/-- Where the granule of a memory address lies (R246); none where its region is unmapped or retired. -/
def locate (s : State) (a : Nat) : Option Loc :=
  if 2 ^ 39 ≤ a then none
  else
    let r := a / 2 ^ 30
    let o := a % 2 ^ 30
    let w := regionWord s r 0
    let c := bits o 6 8
    let place := fun (st slab q : Nat) =>
      some (⟨st, c, bits q 4 4, rowInUse s st c (bits q 4 4) (16 * slab + bits q 8 4), bits q 0 4⟩ : Loc)
    if bit w 2 then none
    else match bits w 0 2 with
      | 1 => place (bits o 14 4) (slabOf s r (bits o 14 4)) (bits o 18 12)
      | 2 => place (bits w 3 4 + bits o 14 3) (slabOf s r (2 * bits o 14 3 + bits o 29 1)) (bits o 17 12)
      | 3 => place (bits w 3 4) (slabOf s r (bits o 26 4)) (bits o 14 12)
      | _ => none

/-- A place that can be reached: its die is up (R28). -/
def locateUp (s : State) (a : Nat) : Option Loc :=
  match locate s a with
  | some l => if dieUp s (l.st / 8) then some l else none
  | none => none

/-- A place that a request entering on die `d` reaches, over the bridge where it lies on the other die (R23, R28, R248). -/
def locateFrom (s : State) (d a : Nat) : Option Loc :=
  (locateUp s a).filter (fun l => l.st / 8 == d || bridgeUp s)

/-! ### Stored granules -/

def rawGranule (s : State) (pg : Nat) : Nat := mread s.mem (64 * pg) 64
def granuleOvl (s : State) (pg : Nat) : Nat := tget 0 s.memErr pg

/-- What a reader is given of a granule that decodes: the data, with wrong bits where a decoder was deceived. -/
def granuleData (s : State) (pg : Nat) : Nat := rawGranule s pg ^^^ hullData (residual hullF (granuleOvl s pg))

/-- Marks that a write leaves on a migration or a pending scrub write-back of its granule (R285, R291). -/
def noteGranule (s : State) (l : Loc) : State :=
  let x := chan s l.st l.c
  if x.migr.isEmpty && x.fix.isNone then s
  else
    let m := x.migr.map (fun m =>
      if m.bank == l.bank && m.src == l.row && !m.left.contains l.g then { m with left := m.left ++ [l.g] } else m)
    let f := match x.fix with
      | some (pg, y) => if pg = l.pg then none else some (pg, y)
      | none => none
    setChan s l.st l.c { x with migr := m, fix := f }

/-- Store a granule with an overlay: 0 for a freshly encoded word (R279). -/
def putGranule (s : State) (l : Loc) (data ovl : Nat) : State :=
  let s := noteGranule s l
  { s with mem := mwrite 64 s.mem (64 * l.pg) data,
           memErr := if ovl = 0 then tdel s.memErr l.pg else tset s.memErr l.pg ovl }

/-- Poison a granule: its data stay, its check symbols carry the mask (R278). -/
def poisonGranule (s : State) (l : Loc) : State :=
  putGranule s l (rawGranule s l.pg) (poisonOf hullF)

/-- A record of MCH_UE_RECORD or MCH_CE_LAST (R295). -/
def eccRecord (l : Loc) (reader : Nat) (poisoned : Bool) (sym : Nat) : Nat :=
  l.c + fld 8 4 l.bank + fld 12 14 l.row + fld 26 4 l.g + fld 30 4 reader + fld 34 1 (b2n poisoned) + fld 44 6 sym

/-- A corrected error enters a stack's leaky bucket (R288). -/
def bucketAdd (s : State) (st : Nat) : State :=
  let x := stk s st
  if bits (rd s (mchReg st 0x2008)) 0 16 < x.bucket + 1 then
    let s := setStk s st { x with bucket := 0 }
    let s := bump (setBits s (mchReg st 0x2000) 2) (mchReg st 0x2030) 1
    logEv s (st / 8) 0x21 0xFF st (rd s (mchReg st 0x2048)) false
  else setStk s st { x with bucket := x.bucket + 1 }

/-- Corrected symbols add to the counts of their pins, which saturate at 12 bits (R287). -/
def pinAdd (s : State) (st c : Nat) (syms : List (Nat × Nat)) : State :=
  modChan s st c (fun x => { x with pins := syms.foldl (fun t y => tmod 0 t (pinOf y.1) (fun n => min 4095 (n + 1))) x.pins })

/-- A corrected Hull-576 read (R286, R287). -/
def noteCorrected (s : State) (l : Loc) (reader : Nat) (syms : List (Nat × Nat)) : State :=
  let s := wr (bump s (mchReg l.st 0x2020) 1) (mchReg l.st 0x2048) (eccRecord l reader false (syms.headD (0, 0)).1)
  bucketAdd (pinAdd s l.st l.c syms) l.st

/-- A slab is reported for retirement (R290); the warden saves the bit to flash. -/
def reportSlab (s : State) (st slab : Nat) : State :=
  let a := mchReg st (0x2200 + 8 * (slab / 64))
  let s := setBits (setBits s a (2 ^ (slab % 64))) (mchReg st 0x2000) 8
  let s := { s with journal := tset s.journal a (rd s a) }
  logEv s (st / 8) 0x23 0xFF st slab false

/-- Spare rows of a bank that no entry or migration uses (R290). -/
def freeSpares (s : State) (st c bank : Nat) : List Nat :=
  (List.range 16).filter (fun r =>
    (List.range 8).all (fun n =>
      let e := rd s (remapReg st c n)
      !((bit e 0 || bit e 3) && bits e 4 4 == bank && (bits e 21 4 == r || (bits e 1 2 == 2 && bits e 25 4 == r)))) &&
    (chan s st c).migr.all (fun m => !(m.bank == bank && m.spare == r)))

def freeEntries (s : State) (st c : Nat) : List Nat :=
  (List.range 8).filter (fun n =>
    let e := rd s (remapReg st c n)
    !bit e 0 && !bit e 3)

/-- A strike on a row in use (R289, R290): the first moves it to a spare, the second, on the spare, moves it again and
reports its slab; further strikes move nothing. Which free entry and which free spare are taken is open. -/
def strike (s : State) (l : Loc) : State :=
  let x := chan s l.st l.c
  if x.migr.any (fun m => m.bank == l.bank && m.src == l.row) then s
  else if l.row < 8192 then
    if rowInUse s l.st l.c l.bank l.row ≠ l.row then s
    else if (freeEntries s l.st l.c).isEmpty || (freeSpares s l.st l.c l.bank).isEmpty then reportSlab s l.st (l.row / 16)
    else
      let (s, n) := pickOf s (freeEntries s l.st l.c)
      let (s, sp) := pickOf s (freeSpares s l.st l.c l.bank)
      let s := wr s (remapReg l.st l.c n) (8 + fld 4 4 l.bank + fld 8 13 l.row + fld 21 4 sp)
      modChan s l.st l.c (fun x => { x with migr := x.migr ++ [⟨n, l.bank, l.row, l.row, sp, false, List.range 16⟩] })
  else
    match (List.range 8).find? (fun n =>
      let e := rd s (remapReg l.st l.c n)
      bit e 0 && bits e 4 4 == l.bank && bits e 21 4 == l.row - 8192) with
    | none => s
    | some n =>
      let e := rd s (remapReg l.st l.c n)
      if bits e 1 2 = 2 then s
      else
        let s := reportSlab s l.st (bits e 8 13 / 16)
        if (freeSpares s l.st l.c l.bank).isEmpty then s
        else
          let (s, sp) := pickOf s (freeSpares s l.st l.c l.bank)
          let s := wr s (remapReg l.st l.c n) (e ||| 8)
          modChan s l.st l.c (fun x =>
            { x with migr := x.migr ++ [⟨n, l.bank, bits e 8 13, l.row, sp, true, List.range 16⟩] })

/-- An uncorrectable or poisoned read of a granule (R281, R289). -/
def noteUncorrectable (s : State) (l : Loc) (reader part : Nat) (poisoned : Bool) : State :=
  let rec' := eccRecord l reader poisoned 0
  let s := wr (bump s (mchReg l.st 0x2028) 1) (mchReg l.st 0x2040) rec'
  let s := logEv (setBits s (mchReg l.st 0x2000) 1) (l.st / 8) 0x20 part rec' l.st false
  if poisoned then s else strike s l

/-- A read of a granule with overlay `ovl` is reported (R281, R286). -/
def noteRead (s : State) (l : Loc) (reader part ovl : Nat) : State :=
  match eccDecode hullF ovl with
  | .clean => s
  | .corrected y => noteCorrected s l reader y
  | .poisoned => noteUncorrectable s l reader part true
  | .uncorrectable => noteUncorrectable s l reader part false

/-- An uncorrectable or poisoned read of a pod store (R281): its count, its home stack's event and the black box.
`val` is POD_ECC_FAULT. -/
def notePodBad (s : State) (g part val : Nat) : State :=
  let s := setBits (bump s (podReg g 0xA28) 1) (mchReg (homeStack g) 0x2000) 1
  logEv s (g / 128) 0x20 part val (0x100 + g) false

/-- A corrected Husk-288 read of a pod (R286, R295): MCH_CE_LAST with SOURCE 1 and its reader, a stroke unless said
otherwise; the fields that place a granule are open. -/
def notePodCorrected (s : State) (g sym : Nat) (reader : Nat := 0) : State :=
  let v := (Config.free 30 s.freeCtr).toNat + fld 30 4 reader + fld 35 1 1 + fld 36 8 (g % 128) + fld 44 6 sym
  let s := wr (bump (nextFree s) (podReg g 0xA20) 1) (mchReg (homeStack g) 0x2048) v
  bucketAdd s (homeStack g)

/-! ### Accesses of a channel -/

/-- A row is opened in a bank (R254, R263): on its THRESH-th opening of the window its physical
neighbours join the debt. -/
def openRow (s : State) (st c bank row : Nat) : State :=
  let x := chan s st c
  let k := bank * 8208 + row
  let n := tget 0 x.opens k + 1
  let nb := (if row = 0 then [] else [row - 1]) ++ (if row = 8207 then [] else [row + 1])
  setChan s st c { x with
    rows := tset x.rows bank (row, x.slot)
    opens := tset x.opens k n
    near := if n = bits (rd s (mchReg st 0x10)) 0 16 then x.near ++ nb else x.near }

/-- An access to a row: it opens the row where another one is open. -/
def touchRow (s : State) (st c bank row : Nat) : State :=
  match tfind (chan s st c).rows bank with
  | some (r, _) => if r = row then s else openRow s st c bank row
  | none => openRow s st c bank row

/-- An access that a slot makes for a copy channel, an engine or service: it opens its row where another is open, and is
counted (R254, R263, R271). -/
def accessed (s : State) (l : Loc) (wr : Bool) : State :=
  bump (touchRow s l.st l.c l.bank l.row) (mchReg l.st (if wr then 0x28 else 0x20)) 1

/-! ### Error injection (R293) -/

/-- The symbols that an armed fault alters, and the overlay it leaves on the word written (R293). -/
def flipOverlay (f : Field) (v count lo pat : Nat) : Nat :=
  packSyms f ((List.range count).map (fun i => (bits v (lo + 6 * i) 6, pat)))

/-- The next service write to a channel takes an armed fault: its overlay, and the state after it acted. -/
def flipService (s : State) (l : Loc) : State × Nat :=
  let a := mchReg l.st 0x2018
  let v := rd s a
  if bit v 0 && bits v 8 8 == l.c then
    (setBits (wr s a (v - 1)) (mchReg l.st 0x2000) 16, flipOverlay hullF v (bits v 1 2) 16 (bits v 48 16))
  else (s, 0)

/-- A write that a SERVICE slot carried takes an armed fault. -/
def takeFlip (s : State) (l : Loc) : State :=
  let (s, o) := flipService s l
  if o = 0 then s else putGranule s l (rawGranule s l.pg) (granuleOvl s l.pg ^^^ o)

/-- The stack's frame has a COPY slot for some of a die's channels `lo … hi`; any die's where none is named (R251, R255). -/
def copySlotIn (s : State) (st : Nat) (d : Option Nat) (lo hi : Nat) : Bool :=
  (stk s st).frame.any (fun e => bits e.2 0 3 == 2 && decide (lo ≤ bits e.2 4 5 ∧ bits e.2 4 5 ≤ hi) &&
    (match d with | some d => bits e.2 9 1 == d | none => true))

/-- Owner of a slot of a stack (R250, R271). -/
def slotOwner (s : State) (st n : Nat) : Nat := bits (rd s (mchReg st (0x100 + 4 * (n / 8)))) (4 * (n % 8)) 4

/-- The fixed slots' kinds (R250). -/
def fixedKind (n : Nat) : Nat := if n = 63 ∨ n = 191 then 4 else if n = 127 ∨ n = 255 then 5 else 0

/-- A stack's entry in force in a slot (R250, R251). -/
def frameEntry (s : State) (st slot : Nat) : Nat := tget 0 (stk s st).frame slot

/-- A stack has slots for the inbound spans of partition `p` on a virtual lane: COPY slots of a channel of the lane's
group, or IDLE slots that the partition owns (R256, R356). -/
def spanSlotIn (s : State) (st p vl : Nat) : Bool :=
  (match vl with
   | 0 => copySlotIn s st none 0 15
   | 1 => copySlotIn s st none 16 23
   | _ => copySlotIn s st none 24 31) ||
  (List.range 256).any (fun n => fixedKind n == 0 && slotOwner s st n == p && frameEntry s st n == 0)

/-! ### Byte access through the address map -/

/-- Are all the granules of a span of memory mapped and reachable? -/
def memOk (s : State) (a n : Nat) : Bool :=
  (List.range (ceilDiv' (a % 64 + n) 64)).all (fun k => (locateUp s (a / 64 * 64 + 64 * k)).isSome)

/-- As `memOk`, of requests that enter on die `d`. -/
def memOkFrom (s : State) (d a n : Nat) : Bool :=
  (List.range (ceilDiv' (a % 64 + n) 64)).all (fun k => (locateFrom s d (a / 64 * 64 + 64 * k)).isSome)

/-- The byte at a memory address as a reader sees it. -/
def memByte (s : State) (a : Nat) : Nat :=
  match locate s a with
  | some l => bits (granuleData s l.pg) (8 * (a % 64)) 8
  | none => 0

/-- Bytes of memory, as a number. -/
def memRead (s : State) (a n : Nat) : Nat := foldNat n (fun k v => v + memByte s (a + k) <<< (8 * k)) 0

/-- Replace bytes `o … o + n - 1` of a 64-byte value. -/
def spliceBytes (old o n v : Nat) : Nat :=
  let m := (2 ^ (8 * n) - 1) <<< (8 * o)
  (old ^^^ (old &&& m)) ||| ((v <<< (8 * o)) &&& m)

/-- Write `n` bytes within one granule (R280): a whole granule is encoded afresh; a narrower write merges, and a word
that reads uncorrectable or poisoned is written back poisoned. The merge reads as READER 8 (R295). -/
def memWriteIn (s : State) (a n v part : Nat) : State :=
  match locate s a with
  | none => s
  | some l =>
    if n = 64 then putGranule (accessed s l true) l v 0
    else
      let o := granuleOvl s l.pg
      let bad := eccBad hullF o
      let merged := spliceBytes (granuleData s l.pg) (a % 64) n v
      let s := noteRead (accessed s l false) l 8 part o
      putGranule (accessed s l true) l merged (if bad then poisonOf hullF else 0)

/-- Write `n` bytes at a memory address, granule by granule, lowest first. -/
def memWriteGo : Nat → State → Nat → Nat → Nat → Nat → State
  | 0, s, _, _, _, _ => s
  | k + 1, s, a, n, v, part =>
    if n = 0 then s
    else
      let m := min n (64 - a % 64)
      memWriteGo k (memWriteIn s a m v part) (a + m) (n - m) (v >>> (8 * m)) part

def memWrite (s : State) (a n v part : Nat) : State := memWriteGo (n / 64 + 2) s a n v part

/-- Does any granule of a span read uncorrectable or poisoned? -/
def memBad (s : State) (a n : Nat) : Bool :=
  (List.range (ceilDiv' (a % 64 + n) 64)).any (fun k =>
    match locate s (a / 64 * 64 + 64 * k) with
    | some l => eccBad hullF (granuleOvl s l.pg)
    | none => false)

/-- Report the reads of a span's granules (R281, R286). -/
def memNote (s : State) (a n reader part : Nat) : State :=
  (List.range (ceilDiv' (a % 64 + n) 64)).foldl (fun s k =>
    match locate s (a / 64 * 64 + 64 * k) with
    | some l => noteRead (accessed s l false) l reader part (granuleOvl s l.pg)
    | none => s) s

end Sys2Proof.Machine
end

