-- ==== Sys2Proof/Machine/VecDec.lean ====
section
/-! DEFINITION. Vector operations decoded, their latency and occupancy, and their launch checks
(06_vector_engine.md R140–R157, 07 R171–R172, 08 R191–R192). -/
namespace Sys2Proof.Machine
open Sys2Proof

/-- The fields of R140 in a stroke or stipple instruction. -/
def vdec (w : Nat) : VIns where
  op := bits w 20 8
  d := bits w 32 6
  a := bits w 38 6
  b := bits w 44 6
  c := bits w 50 6
  row0 := bits w 56 3
  nrows := bits w 59 3 + 1
  lanes := bits w 62 9 + 1
  mask := bits w 71 3
  zero := bit w 74
  bmode := bits w 75 2
  bidx := bits w 77 9
  mode := bits w 86 2
  narrow := bit w 88
  half := bits w 89 1
  rnd := bits w 90 2
  sat := bit w 92
  negA := bit w 93
  absA := bit w 94
  negC := bit w 95
  subop := bits w 96 4
  raw := w

def VIns.srcType (i : VIns) : Nat := bits i.raw 96 4
def VIns.dstType (i : VIns) : Nat := bits i.raw 100 4
def VIns.partNo (i : VIns) : Nat := bits i.raw 104 3
def VIns.imm (i : VIns) : Nat := bits i.raw 96 32

def isArith (op : Nat) : Bool := decide (1 ≤ op ∧ op ≤ 4)
def isMaskOp (op : Nat) : Bool := decide (0x12 ≤ op ∧ op ≤ 0x17)
def isInt (op : Nat) : Bool := decide (0x20 ≤ op ∧ op ≤ 0x27)
def isSfu (op : Nat) : Bool := op == 0x40 || op == 0x41 || op == 0x44
def isStat (op : Nat) : Bool := decide (0x60 ≤ op ∧ op ≤ 0x65) || op == 0x68 || op == 0x69
def isConv (op : Nat) : Bool := decide (0x18 ≤ op ∧ op ≤ 0x1A)

/-- The operations that occupy the issue port and deliver rows. -/
def isRowOp (op : Nat) : Bool :=
  decide (1 ≤ op ∧ op ≤ 9) || op == 0x10 || op == 0x11 || isMaskOp op || isConv op || isInt op ||
    op == 0x28 || op == 0x29 || isSfu op || isStat op

/-- A conversion with an FP64 side. -/
def cvt64 (i : VIns) : Bool := i.op == 0x18 && (i.srcType == 10 || i.dstType == 10)

/-- FP64 work: an FP64-mode operation that reads MODE, or a conversion with FP64. -/
def is64 (i : VIns) : Bool :=
  cvt64 i || (i.mode == 2 && (decide (1 ≤ i.op ∧ i.op ≤ 8) || i.op == 0x10 || i.op == 0x11))

/-- Latency in hc (R146, R171, R191). -/
def vLatency (i : VIns) : Nat :=
  if isArith i.op then (if is64 i then 8 else 4)
  else if i.op == 5 || i.op == 6 || i.op == 0x10 || i.op == 0x11 then (if is64 i then 4 else 2)
  else match i.op with
    | 0x18 => if cvt64 i then 8 else 4
    | 0x19 => 6 | 0x1A => 4 | 0x28 => 6 | 0x29 => 6
    | 0x40 => 14 | 0x41 => 14 | 0x44 => 16
    | 0x60 => if i.mode = 1 then 14 else 12
    | 0x61 => 8 | 0x62 => 10 | 0x63 => 2 | 0x64 => 24 | 0x65 => 20 | 0x68 => 12 | 0x69 => 16
    | _ => 2

/-- Occupancy per row in hc (R146, R170, R191). -/
def vOcc (i : VIns) : Nat :=
  if is64 i then 4
  else if isSfu i.op then 4
  else match i.op with
    | 0x60 => if i.mode = 1 then 2 else 1
    | 0x64 => 4 | 0x65 => 4 | 0x69 => 2
    | _ => 1

/-- Flags an operation can raise (R146, R171, R191). -/
def vFlagMask (op : Nat) : Nat :=
  if isArith op then 1 + 2 + 8 + 16 + 32
  else match op with
    | 5 => 1 | 6 => 1 | 0x10 => 1
    | 0x18 => 1 + 2 + 8 + 16 + 32 | 0x19 => 1 + 2 + 8 + 16 + 32 | 0x1A => 1 + 8 + 32
    | 0x28 => 64
    | 0x40 => 1 + 8 + 16 + 32 | 0x41 => 1 + 2 + 4 + 32 | 0x44 => 1 + 2 + 8 + 16 + 32
    | 0x60 => 1 + 2 + 8 + 16 + 32 | 0x61 => 1 + 8 + 16 + 32 | 0x62 => 1 + 2 + 4 + 8 + 16 + 32
    | 0x64 => 1 + 8 + 16 + 32 | 0x65 => 1 + 8 + 16 + 32
    | 0x68 => 1 + 2 + 8 + 16 + 32 | 0x69 => 1 + 2 + 8 + 16 + 32
    | _ => 0

/-- Elements of a row in a mode (R135). -/
def modeElems (m : Nat) : Nat := if m = 1 then 512 else 256

/-- The pairs CVT converts (R154). -/
def cvtPair (a b : Nat) : Bool :=
  (a == 0 && [1, 2, 10, 12, 3, 4, 8, 9].contains b) || ([1, 2, 10, 12, 3, 4, 8, 9].contains a && b == 0)

/-- Parts of a 256-element conversion that the narrow side's row holds (R154). -/
def partMax (t : Nat) : Nat := if elemBits t = 16 then 2 else if elemBits t = 8 then 4 else if elemBits t = 4 then 8 else 1

/-- Stroke fault 0x02 of a vector operation: reserved bits, RND = 3, undefined type codes (R84, R87, R95). -/
def vBadStroke (i : VIns) : Bool :=
  let immOp := i.op == 8 || i.op == 9
  let res := if immOp then 0 else if isConv i.op then bits i.raw 107 21 else bits i.raw 100 28
  res != 0 || i.rnd == 3 || (isConv i.op && (decide (13 ≤ i.srcType) || decide (13 ≤ i.dstType)))

/-- Where NEG_A and ABS_A are allowed (R145). -/
def negOk (i : VIns) : Bool :=
  ((decide (1 ≤ i.op ∧ i.op ≤ 7) || i.op == 0x10 || i.op == 0x11) && i.mode != 3) ||
    ((i.op == 0x18 || i.op == 0x19) && !(i.srcType == 12 || i.srcType == 8 || i.srcType == 9)) ||
    isSfu i.op || i.op == 0x60 || i.op == 0x64 || i.op == 0x65 || i.op == 0x68 || i.op == 0x69

/-- The modes an operation takes (R146, R172, R192). -/
def modeOk (i : VIns) : Bool :=
  if isArith i.op then i.mode != 3
  else if i.op == 9 || isInt i.op then i.mode == 3
  else if i.op == 0x28 || i.op == 0x29 then i.mode != 2
  else if isSfu i.op then i.mode == 0
  else if i.op == 0x60 then decide (i.mode ≤ 1)
  else if isStat i.op then i.mode == 0
  else true

/-- Tiles that an FP64 operation names must be even (R135). -/
def oddTile (i : VIns) : Bool :=
  let odd := fun t : Nat => t % 2 == 1
  if cvt64 i then (if i.srcType = 10 then odd i.a else odd i.d)
  else if is64 i then
    (i.op != 0x10 && odd i.d) || (i.op != 8 && odd i.a) ||
      ((i.op != 7 && i.op != 8) && odd i.b) || (i.op == 4 && odd i.c)
  else false

/-- SUBOP values an operation refuses (R151, R172, R192, R196, R197, R202). -/
def subopBad (i : VIns) : Bool :=
  match i.op with
  | 0x10 => decide (8 ≤ i.subop)
  | 0x40 => decide (2 ≤ i.subop)
  | 0x41 => i.subop != 0
  | 0x44 => decide (8 ≤ i.subop)
  | 0x60 => decide (2 ≤ i.subop)
  | 0x61 => i.subop == 0 || decide (4 ≤ i.subop)
  | 0x62 => decide (4 ≤ i.subop)
  | 0x63 => decide (4 ≤ i.subop)
  | 0x64 => i.subop != 0
  | 0x65 => i.subop != 0
  | 0x68 => decide (3 ≤ i.subop)
  | 0x69 => i.subop != 0
  | _ => false

/-- A MODE fault at launch (R166). A row-statistics operation meets one where it breaches any rule of R192, its extent
among them. -/
def vModeFault (i : VIns) : Bool :=
  (i.bmode == 3) || !modeOk i || oddTile i ||
    ((i.op == 0x10 || (isMaskOp i.op && i.op != 0x16)) && i.d % 8 == 0) ||
    ((i.negA || i.absA) && !negOk i) || (i.negC && i.op != 4) ||
    (i.narrow && !((isArith i.op || isSfu i.op || i.op == 0x65 || i.op == 0x68 || i.op == 0x69) && i.mode == 0)) ||
    (i.half == 1 && !i.narrow) ||
    subopBad i ||
    (i.op == 0x18 && !cvtPair i.srcType i.dstType) ||
    (i.op == 0x19 && (i.srcType != 0 || !decide (3 ≤ i.dstType ∧ i.dstType ≤ 7))) ||
    (i.op == 0x1A && (i.dstType != 0 || !decide (3 ≤ i.srcType ∧ i.srcType ≤ 7))) ||
    ((isSfu i.op || isStat i.op) && i.rnd == 2) ||
    (isStat i.op && i.bmode != 0) ||
    (isStat i.op && decide ((if i.op = 0x60 then modeElems i.mode else 256) < i.lanes))

/-- An EXTENT fault at launch (R142, R154, R155). -/
def vExtentFault (i : VIns) : Bool :=
  let maxLanes := if isConv i.op || i.op == 0x28 || i.op == 0x29 then 256 else modeElems i.mode
  let narrow := if i.op == 0x1A then i.srcType else i.dstType
  decide (8 < i.row0 + i.nrows) ||
    (!isMaskOp i.op && decide (maxLanes < i.lanes)) ||
    (i.bmode == 1 && decide (7 < i.bidx)) || (i.bmode == 2 && !isMaskOp i.op && decide (i.lanes ≤ i.bidx)) ||
    (i.op == 0x29 && decide (255 < i.bidx)) ||
    (i.op == 0x18 && decide ((if elemBits i.srcType < 32 then partMax i.srcType else partMax i.dstType) ≤ i.partNo)) ||
    ((i.op == 0x19 || i.op == 0x1A) && i.lanes % 32 != 0) ||
    ((i.op == 0x19 || i.op == 0x1A) &&
      decide ((if elemBits narrow = 6 then 5 else if elemBits narrow = 4 then 8 else 4) ≤ i.partNo))

/-- Index of an operation's element type for CNT_OPS (R487). -/
def modeType (m : Nat) : Nat := match m with | 0 => 0 | 1 => 1 | 2 => 10 | _ => 12

/-- Class and index of an operation's elements in CNT_OPS (R487). -/
def opClass (i : VIns) : Nat × Nat :=
  if decide (1 ≤ i.op ∧ i.op ≤ 3) then (2, modeType i.mode)
  else if i.op == 4 then (3, modeType i.mode)
  else if isConv i.op then (5, i.dstType)
  else if isSfu i.op then (6, b2n i.narrow)
  else if isStat i.op then (7, if i.mode = 1 then 1 else b2n i.narrow)
  else (4, modeType i.mode)

end Sys2Proof.Machine
end

