-- ==== Sys2Proof/Machine/Stroke.lean ====
section
/-! DEFINITION. Strokes and the burin's own order of launches (03_hatch_timing.md R69–R71). -/
namespace Sys2Proof.Machine
open Sys2Proof

def strokeDelta (w : Nat) : Nat := bits w 0 16
def strokeUnit (w : Nat) : Nat := bits w 16 4
def strokeOp (w : Nat) : Nat := bits w 20 8

/-- Operations that a unit defines (R70, R116, R146, R171, R191, R209, R227, R258, R323, R329, R337, R524, R525). -/
def strokeDefined (unit op : Nat) : Bool :=
  match unit with
  | 0 => decide (op ≤ 4)
  | 1 => decide (1 ≤ op ∧ op ≤ 3)
  | 2 => isRowOp op || op == 0x30 || op == 0x38 || op == 0x48 || op == 0x49 || op == 0x3F
  | 3 => isRowOp op || op == 0x30 || op == 0x38 || op == 0x48 || op == 0x49 || op == 0x3F
  | 4 => decide (1 ≤ op ∧ op ≤ 2)
  | 5 => op == 1
  | 6 => decide (1 ≤ op ∧ op ≤ 2)
  | 7 => op == 1
  | 8 => decide (1 ≤ op ∧ op ≤ 2)
  | 9 => op == 1
  | 10 => op == 1
  | _ => false

/-- Launch hc of the burin's next stroke (R69, R71). -/
def launchHc (b : Burin) (w : Nat) : Nat := b.force.getD (b.base + strokeDelta w)

/-- The launch is recorded: strokes and units of its hc, and the base of an iteration that it opens (R71). -/
def noteLaunch (b : Burin) (t unit : Nat) : Burin :=
  let same := b.curHc == t && b.nLaunch != 0
  { b with
    force := none
    last := b.idx
    curHc := t
    nLaunch := if same then b.nLaunch + 1 else 1
    units := (if unit = 0 then [] else [unit]) ++ (if same then b.units else [])
    loops := b.loops.map (fun f => if f.first = b.idx ∧ !f.based then { f with base := t, based := true } else f) }

/-- More than four strokes in one hc, or two to one unit (R71). -/
def issueFault (b : Burin) (t unit : Nat) : Bool :=
  b.curHc == t && (decide (4 ≤ b.nLaunch) || (unit != 0 && b.units.contains unit))

/-- Outcome of moving past a stroke: the burin, or a LOOP fault. -/
def closeLoops : List LoopFrame → Nat → Nat → Nat → Burin → Burin × Bool
  | [], next, _, from', b => ({ b with idx := next, base := from', loops := [] }, false)
  | f :: fs, next, last, from', b =>
    if next = f.first + f.len then
      if f.base + f.period ≤ last then (b, true)
      else if 0 < f.left then
        ({ b with idx := f.first, base := from', force := some (f.base + f.period),
                  loops := { f with left := f.left - 1, based := false } :: fs }, false)
      else closeLoops fs next last from' b
    else ({ b with idx := next, base := from', loops := f :: fs }, false)

/-- Move past the stroke just launched: `last` is its launch hc, `from'` where the next DELTA counts from (R71). -/
def moveOn (b : Burin) (last from' : Nat) : Burin × Bool := closeLoops b.loops (b.idx + 1) last from' b

/-- A burin past the stroke that it launches at `t`, as far as its own program decides: used to look ahead within one
hc. None at a wait, or where the stroke faults. -/
def peekNext (b : Burin) (w t : Nat) : Option Burin :=
  let c := noteLaunch b t (strokeUnit w)
  match strokeUnit w, strokeOp w with
  | 0, 1 =>
    if c.loops.length < 4 then
      some { c with idx := b.idx + 1, base := t,
                    loops := ⟨b.idx + 1, bits w 32 16, bits w 64 32 - 1, bits w 96 32, t, false, t⟩ :: c.loops }
    else none
  | 0, 3 => some { c with idx := 0, base := t }
  | 0, 4 => some (moveOn c t (t + bits w 32 32)).1
  | 9, _ => none
  | 10, _ => none
  | _, _ => some (moveOn c t t).1

/-- The memory WRITEs that a burin launches in hc `t`, from where it stands. -/
def peekWrites (t : Nat) : Nat → Burin → List Nat
  | 0, _ => []
  | k + 1, b =>
    match b.prog[b.idx]? with
    | none => []
    | some wv =>
      let w := wv.toNat
      if b.waiting || launchHc b w != t then []
      else
        (if strokeUnit w = 6 ∧ strokeOp w = 2 then [w] else []) ++
          (match peekNext b w t with
          | some b' => peekWrites t k b'
          | none => [])

end Sys2Proof.Machine
end

