-- ==== Sys2Proof/Machine/Fn.lean ====
section
/-! DEFINITION. Correctly rounded functions: quotient, reciprocal square root, exp2 and log2
(07_special_functions.md R173, R174; 08_row_statistics.md R194, R197, R199). An irrational result is handed on as an
exact lower bound of at least 200 correct bits with a sticky half unit, so that the one rounding that follows is
that of the exact value. -/
namespace Sys2Proof.Machine
open Sys2Proof

/-- A positive value `q * 2^e`, or just above it when `sticky`. -/
def stickyVal (neg : Bool) (q : Nat) (e : Int) (sticky : Bool) : Val :=
  if sticky then .fin neg (2 * q + 1) (e - 1) else .fin neg q e

/-- Exact quotient of finite significands, `b ≠ 0`. -/
def quot (neg : Bool) (ma : Nat) (ea : Int) (mb : Nat) (eb : Int) : Val :=
  if ma = 0 then .fin neg 0 0
  else
    let k := 80 + mb.log2
    let n := ma <<< k
    stickyVal neg (n / mb) (ea - eb - k) (n % mb != 0)

/-- Quotient of two values; 0/0 and ∞/∞ are NaN, a finite value over zero is an infinity. -/
def Val.div : Val → Val → Val
  | .nan, _ => .nan
  | _, .nan => .nan
  | .inf _, .inf _ => .nan
  | .inf a, .fin s _ _ => .inf (a != s)
  | .fin s _ _, .inf b => .fin (s != b) 0 0
  | .fin s m e, .fin s' m' e' =>
    if m' = 0 then (if m = 0 then .nan else .inf (s != s')) else quot (s != s') m e m' e'

/-- Integer square root by bits, from bit `k - 1` down. -/
def isqrtGo : Nat → Nat → Nat → Nat
  | 0, _, r => r
  | k + 1, n, r =>
    let t := r + 2 ^ k
    isqrtGo k n (if t * t ≤ n then t else r)

def isqrt (n : Nat) : Nat := isqrtGo (n.log2 / 2 + 1) n 0

/-- `1/√v` of a positive finite value. -/
def rsqrtVal (m : Nat) (e : Int) : Val :=
  let (m, e) := if e % 2 = 0 then (m, e) else (2 * m, e - 1)
  let k := 100 + m.log2
  let n := 2 ^ (2 * k) / m
  let s := isqrt n
  stickyVal false s (-(e / 2) - k) (s * s * m != 2 ^ (2 * k))

/-- Working precision of the series below, in bits. -/
def fnPrec : Nat := 320

/-- `⌊atanh(p/q) * 2^fnPrec⌋` up to one unit a term, from the odd-power series; `z` is the current power. -/
def atanhGo : Nat → Nat → Nat → Nat → Nat → Nat
  | 0, _, _, _, acc => acc
  | n + 1, z, z2, k, acc => atanhGo n ((z * z2) >>> fnPrec) z2 (k + 2) (acc + z / k)

def atanhFix (p q : Nat) : Nat :=
  let z := (p <<< fnPrec) / q
  atanhGo 110 z ((z * z) >>> fnPrec) 1 0

/-- `ln 2 * 2^fnPrec`, as `2 atanh(1/3)`. -/
def ln2Fix : Nat := 2 * atanhFix 1 3

/-- Taylor terms of `exp` in fixed point. -/
def expGo : Nat → Nat → Nat → Nat → Nat → Nat
  | 0, _, _, _, acc => acc
  | n + 1, term, y, k, acc => expGo n (((term * y) >>> fnPrec) / k) y (k + 1) (acc + term)

/-- `2^f * 2^fnPrec` for the fraction `f = p / 2^k` in [0, 1). -/
def exp2Fix (p k : Nat) : Nat := expGo 80 (2 ^ fnPrec) ((p * ln2Fix) >>> k) 1 0

/-- The exact (or sticky) value of `2^x` for finite x (R173, R174). -/
def exp2Val (s : Bool) (m : Nat) (e : Int) : Val :=
  if m = 0 then .fin false 1 0
  else if 0 ≤ e ∧ 10 < e + m.log2 then (if s then .fin false 1 (-1000) else .fin false 1 1000)
  else if 0 ≤ e then .fin false 1 (if s then -((m <<< e.toNat : Nat) : Int) else ((m <<< e.toNat : Nat) : Int))
  else if 10 < e + m.log2 then (if s then .fin false 3 (-1001) else .fin false 3 1000)
  else
    let k := (-e).toNat
    let n : Int := if s then -((m / 2 ^ k : Nat) : Int) - (if m % 2 ^ k = 0 then 0 else 1) else ((m / 2 ^ k : Nat) : Int)
    let p : Nat := if s then (if m % 2 ^ k = 0 then 0 else 2 ^ k - m % 2 ^ k) else m % 2 ^ k
    if p = 0 then .fin false 1 n
    else stickyVal false (exp2Fix p k) (n - fnPrec) true

/-- The exact (or sticky) value of `log₂ x` for a positive finite x (R173, R174). -/
def log2Val (m : Nat) (e : Int) : Val :=
  let b := m.log2
  let ex : Int := e + b
  if m = 2 ^ b then .ofInt ex
  else
    let l := ((2 * atanhFix (m - 2 ^ b) (m + 2 ^ b)) <<< fnPrec) / ln2Fix
    let t : Int := ex * (2 ^ fnPrec : Nat) + l
    if 0 ≤ t then .fin false (2 * t.toNat + 1) (-(fnPrec : Int) - 1)
    else .fin true (2 * t.natAbs - 1) (-(fnPrec : Int) - 1)

/-- EXP2 before rounding (R174); the flag mask says what the special inputs raise. -/
def exp2Of : Val → Val × Nat
  | .nan => (.nan, fNanIn)
  | .inf s => (if s then .fin false 0 0 else .inf false, 0)
  | .fin s m e => (exp2Val s m e, 0)

/-- LOG2 before rounding (R174). -/
def log2Of : Val → Val × Nat
  | .nan => (.nan, fNanIn)
  | .inf s => if s then (.nan, fInvalid) else (.inf false, 0)
  | .fin s m e =>
    if m = 0 then (.inf true, fDivzero)
    else if s then (.nan, fInvalid)
    else (log2Val m e, 0)

/-- EXP2 of an FP32 encoding, rounded to nearest even (R173); the encoding and its rounding flags. -/
def exp2f (x : Nat) : Nat × Nat :=
  let (v, f) := exp2Of (Machine.decode fp32 x)
  let (r, g) := roundEnc fp32 .rne false v
  (r, f ||| (if v.isNan then 0 else g))

end Sys2Proof.Machine
end

