-- ==== Sys2Proof/Machine/Philox.lean ====
section
/-! DEFINITION. The stochastic-rounding hash: Philox-4×32-10 (04_number_formats.md R101, R102). -/
namespace Sys2Proof.Machine
open Sys2Proof

/-- Four counter words. -/
structure Ctr4 where
  c0 : Nat
  c1 : Nat
  c2 : Nat
  c3 : Nat
  deriving DecidableEq, Repr

def lo32 (x : Nat) : Nat := x % 2 ^ 32
def hi32 (x : Nat) : Nat := (x >>> 32) % 2 ^ 32

/-- One Philox round under the key pair. -/
def philoxRound (c : Ctr4) (k0 k1 : Nat) : Ctr4 :=
  let p0 := 0xD2511F53 * c.c0
  let p1 := 0xCD9E8D57 * c.c2
  ⟨(hi32 p1 ^^^ c.c1) ^^^ k0, lo32 p1, (hi32 p0 ^^^ c.c3) ^^^ k1, lo32 p0⟩

/-- The rounds that remain, the key advancing by its Weyl step between rounds. -/
def philoxGo : Nat → Ctr4 → Nat → Nat → Ctr4
  | 0, c, _, _ => c
  | n + 1, c, k0, k1 => philoxGo n (philoxRound c k0 k1) (lo32 (k0 + 0x9E3779B9)) (lo32 (k1 + 0xBB67AE85))

/-- The word r of R97 for element `e` (R101). -/
def srWord (seed step stream e : Nat) : Nat :=
  let q := e >>> 2
  let c := philoxGo 10 ⟨lo32 q, bits q 32 16 ||| (stream <<< 16), lo32 step, hi32 step⟩ (lo32 seed) (hi32 seed)
  match e % 4 with
  | 0 => c.c0 | 1 => c.c1 | 2 => c.c2 | _ => c.c3

end Sys2Proof.Machine
end

