-- ==== Sys2Proof/Machine/VecRow.lean ====
section
/-! DEFINITION. What one row of a vector operation delivers from the sources it has read: element-wise operations,
masks, conversions, permutations, special functions and pip curves (06_vector_engine.md R142–R158,
07_special_functions.md R172–R178). -/
namespace Sys2Proof.Machine
open Sys2Proof

/-- The sources a row reads: tile rows by `8 * tile + row`, mask rows by `8 * mask + row`, the row's number, the hash
word of destination element `j` (R150), and the image of the latched pip table. -/
structure RowSrc where
  tile : Nat → Nat
  mask : Nat → Nat
  row : Nat
  hash : Nat → Nat
  pip : Nat

/-- Element `j` of a tile row in a mode (R135). -/
def elemOf (x : RowSrc) (mode t r j : Nat) : Nat :=
  match mode with
  | 1 => bits (x.tile (8 * t + r)) (16 * j) 16
  | 2 => bits (x.tile (8 * t + r)) (32 * j) 32 + (bits (x.tile (8 * (t + 1) + r)) (32 * j) 32) * 2 ^ 32
  | _ => bits (x.tile (8 * t + r)) (32 * j) 32

/-- Is element `j` affected (R143)? M0 reads as all ones (R137). -/
def maskBit (x : RowSrc) (m j : Nat) : Bool := m == 0 || bit (x.mask (8 * m + x.row)) j

def fmtMode (m : Nat) : Fmt := match m with | 1 => bf16 | 2 => fp64 | _ => fp32

/-- Element of operand A after ABS_A and NEG_A (R145). -/
def opA (i : VIns) (f : Fmt) (v : Nat) : Nat :=
  let sb := 2 ^ (f.width - 1)
  let v := if i.absA then v % sb else v
  if i.negA then v ^^^ sb else v

def opC (i : VIns) (f : Fmt) (v : Nat) : Nat := if i.negC then v ^^^ 2 ^ (f.width - 1) else v

/-- Element `j` of operand B under BMODE (R144). -/
def elemB (x : RowSrc) (i : VIns) (mode j : Nat) : Nat :=
  match i.bmode with
  | 1 => elemOf x mode i.b i.bidx j
  | 2 => elemOf x mode i.b x.row i.bidx
  | _ => elemOf x mode i.b x.row j

/-- Rounding of a conversion control for destination element `j` (R95, R97). -/
def rndOf (x : RowSrc) (rnd j : Nat) : Rnd :=
  match rnd with | 0 => .rne | 1 => .rtz | _ => .sr (x.hash j)

/-- Encode a computed value: a NaN that no operand brought in raises INVALID (R90, R158). -/
def finish (f : Fmt) (rn : Rnd) (sat anyNan : Bool) (v : Val) : Nat × Nat :=
  if v.isNan then (f.nan, if anyNan then fNanIn else fInvalid)
  else
    let (r, g) := roundEnc f rn sat v
    (r, g ||| fl anyNan fNanIn)

/-- Minimum or maximum of two encodings, −0 below +0 (R147). -/
def minMax (isMax number : Bool) (f : Fmt) (a b : Nat) : Nat × Nat :=
  let va := Machine.decode f a
  let vb := Machine.decode f b
  if va.isNan || vb.isNan then
    (if number && !va.isNan then a else if number && !vb.isNan then b else f.nan, fNanIn)
  else
    let aLess := va.lt vb || (va.eqv vb && va.sign && !vb.sign)
    (if aLess != isMax then a else b, 0)

def cmpPred (sub : Nat) (unord lt eq : Bool) : Bool :=
  match sub with
  | 0 => !unord && eq
  | 1 => unord || !eq
  | 2 => !unord && lt
  | 3 => !unord && (lt || eq)
  | 4 => !unord && !lt && !eq
  | 5 => !unord && !lt
  | 6 => !unord
  | _ => unord

/-- Integer operations (R148). -/
def intOp (op a b : Nat) : Nat :=
  match op with
  | 0x20 => (a + b) % 2 ^ 32
  | 0x21 => (a + (2 ^ 32 - b)) % 2 ^ 32
  | 0x22 => a &&& b
  | 0x23 => a ||| b
  | 0x24 => a ^^^ b
  | 0x25 => if 32 ≤ b then 0 else (a <<< b) % 2 ^ 32
  | 0x26 => if 32 ≤ b then 0 else a >>> b
  | _ => enc2 32 (sext 32 a / (2 ^ (min b 31) : Nat))

/-- Element of MIN, MAX in INT32 mode. -/
def minMaxInt (isMax : Bool) (a b : Nat) : Nat :=
  if decide (sext 32 a < sext 32 b) != isMax then a else b

/-- ADD, SUB, MUL or FMA of element `j` (R106, R147); `dj` is the destination element. -/
def arithElem (x : RowSrc) (i : VIns) (j dj : Nat) : Nat × Nat :=
  let f := fmtMode i.mode
  let a := Machine.decode f (opA i f (elemOf x i.mode i.a x.row j))
  let b := Machine.decode f (elemB x i i.mode j)
  let c := Machine.decode f (opC i f (elemOf x i.mode i.c x.row j))
  let useC := i.op == 4
  let anyNan := a.isNan || b.isNan || (useC && c.isNan)
  let p := a.mul b
  let badMul := useC && p.isNan && !a.isNan && !b.isNan
  let v := match i.op with
    | 1 => a.add b
    | 2 => a.sub b
    | 3 => p
    | _ => p.add c
  let conv := i.narrow || (i.mode == 1 && i.rnd == 2)
  let (r, g) := finish (if i.narrow then bf16 else f) (if conv then rndOf x i.rnd dj else .rne) (conv && i.sat) anyNan v
  (r, g ||| fl badMul fInvalid)

/-- A field of a pip-table image (R177). -/
def pipF (img off n : Nat) : Nat := bits img (8 * off) (8 * n)

/-- Is curve `c` invalid (R177)? -/
def pipBad (img c : Nat) : Bool :=
  let x0 := Machine.decode fp32 (pipF img (16 * c) 4)
  let sc := Machine.decode fp32 (pipF img (16 * c + 4) 4)
  let base := pipF img (16 * c + 8) 2
  let nseg := pipF img (16 * c + 10) 2
  x0.isNan || x0.isInf || sc.isNan || sc.isInf || sc.sign || sc.isZero ||
    decide (511 < base) || nseg == 0 || decide (512 < nseg) || decide (512 < base + nseg) ||
    decide (1 < pipF img (16 * c + 12) 1) || pipF img (16 * c + 13) 3 != 0

/-- Greatest integer not above a value, clamped to 0 … n - 1 (R178). -/
def floorClamp (v : Val) (n : Nat) : Nat :=
  match v with
  | .fin s m e =>
    if s then 0
    else if 0 ≤ e then (if 20 < e then n - 1 else min (m <<< e.toNat) (n - 1))
    else min (m >>> (-e).toNat) (n - 1)
  | _ => 0

/-- Position of an element on curve `c`, in segments, rounded (R178). -/
def pipU (img c : Nat) (v : Val) : Val :=
  let d := Machine.decode fp32 (enc fp32 (v.sub (Machine.decode fp32 (pipF img (16 * c) 4))))
  Machine.decode fp32 (enc fp32 (d.mul (Machine.decode fp32 (pipF img (16 * c + 4) 4))))

/-- The segment that a position lies in. -/
def pipSeg (img c : Nat) (u : Val) : Nat :=
  let nseg := pipF img (16 * c + 10) 2
  if u.isInf then (if u.sign then 0 else nseg - 1) else floorClamp u nseg

/-- Rows of 32 bytes of its table that an element reads: its curve's and its entry's; none for a NaN. -/
def pipRowsOf (img c x : Nat) : List Nat :=
  let v := Machine.decode fp32 x
  if v.isNan then [] else [c / 2, 4 + (pipF img (16 * c + 8) 2 + pipSeg img c (pipU img c v)) / 4]

/-- PIP of an element with curve `c`, before its last rounding: the value, whether a NaN came in, whether the infinite
branch chose it, which raises no flag of a rounding, and whether the last line forms 0 × ∞ (R178). -/
def pipElem (img c x : Nat) : Val × Bool × Bool × Bool :=
  let vx := Machine.decode fp32 x
  if vx.isNan then (.nan, true, false, false)
  else
    let edge := pipF img (16 * c + 12) 1
    let u := pipU img c vx
    let s := pipSeg img c u
    let at' := 0x80 + 8 * (pipF img (16 * c + 8) 2 + s)
    let c0 := Machine.decode fp32 (pipF img at' 4)
    let c1 := Machine.decode fp32 (pipF img (at' + 4) 4)
    if u.isInf then
      let anyNan := c0.isNan || c1.isNan
      if edge = 1 then (if u.sign then (c0, c0.isNan, true, false) else (c0.add c1, anyNan, true, false))
      else if c1.isZero then (c0, c0.isNan, true, false)
      else if c1.isNan then (.nan, true, true, false)
      else (.inf (c1.sign != u.sign), false, true, false)
    else
      let t := Machine.decode fp32 (enc fp32 (u.sub (.fin false s 0)))
      let t := if edge = 1 then (if t.lt (.fin false 0 0) then .fin false 0 0 else if (Val.fin false 1 0).lt t then .fin false 1 0 else t) else t
      ((c1.mul t).add c0, c0.isNan || c1.isNan, false, (c1.mul t).isNan && !c1.isNan)

/-- EXP2, LOG2 or PIP of element `j` (R172–R178). -/
def sfuElem (x : RowSrc) (i : VIns) (j dj : Nat) : Nat × Nat :=
  let raw := opA i fp32 (elemOf x 0 i.a x.row j)
  let f := if i.narrow then bf16 else fp32
  let rn := rndOf x i.rnd dj
  if i.op = 0x44 then
    let (v, nanIn, quiet, bad) := pipElem x.pip (i.subop % 8) raw
    let (r, g) := finish f rn i.sat nanIn v
    (r, if quiet then fl nanIn fNanIn else g ||| fl bad fInvalid)
  else
    let a := Machine.decode fp32 raw
    let (v, g) := if i.op = 0x40 then exp2Of a else log2Of a
    if v.isNan then (f.nan, g)
    else
      let (r, h) := roundEnc f rn i.sat v
      let r := if i.op = 0x40 ∧ i.subop % 2 = 1 then
          r % 2 ^ (f.width - 1) + (b2n (bit (elemB x i 0 j) 31) <<< (f.width - 1))
        else r
      (r, g ||| h)

/-- Rows of its table that a PIP row reads, once for all its elements (R276). -/
def pipReads (x : RowSrc) (i : VIns) : List Nat :=
  if i.op = 0x44 then
    (((List.range i.lanes).filter (maskBit x i.mask)).flatMap (fun j =>
      pipRowsOf x.pip (i.subop % 8) (opA i fp32 (elemOf x 0 i.a x.row j)))).dedup
  else []

/-- Accumulator of a row being built. -/
structure RowAcc where
  wm : Nat := 0
  val : Nat := 0
  hm : Nat := 0
  hval : Nat := 0
  flags : Nat := 0
  efl : List Nat := []
  n : Nat := 0
  deriving DecidableEq, Repr

/-- Put element `dj` of width `w` into the row being built (`w = 64` splits over a tile pair). -/
def RowAcc.put (r : RowAcc) (w dj v : Nat) : RowAcc :=
  if w = 64 then
    { r with wm := r.wm ||| ((2 ^ 32 - 1) <<< (32 * dj)), val := r.val ||| ((v % 2 ^ 32) <<< (32 * dj)),
             hm := r.hm ||| ((2 ^ 32 - 1) <<< (32 * dj)), hval := r.hval ||| ((v / 2 ^ 32) <<< (32 * dj)) }
  else
    { r with wm := r.wm ||| ((2 ^ w - 1) <<< (w * dj)), val := r.val ||| (v <<< (w * dj)) }

def RowAcc.flag (r : RowAcc) (g : Nat) : RowAcc :=
  { r with flags := r.flags ||| g, efl := if g = 0 then r.efl else g :: r.efl, n := r.n + 1 }

/-- Build a destination row element by element: `f` gives the destination element, its encoding and its flags.
Masked-off elements keep their contents, or are written +0 under ZERO (R143). -/
def buildRow (x : RowSrc) (i : VIns) (w : Nat) (off : Nat) (f : Nat → Nat × Nat) : RowAcc :=
  foldNat i.lanes (fun j r =>
    if maskBit x i.mask j then
      let (v, g) := f j
      (r.put w (off + j) v).flag (g &&& vFlagMask i.op)
    else if i.zero then r.put w (off + j) 0
    else r) {}

/-- The writes of a built row into tile D. -/
def RowAcc.toOut (r : RowAcc) (d row : Nat) (pair : Bool) : RowOut where
  writes := ⟨8 * d + row, r.wm, r.val⟩ :: (if pair then [⟨8 * (d + 1) + row, r.hm, r.hval⟩] else [])
  flags := r.flags
  eflags := r.efl
  elems := r.n

def modeWidth (m : Nat) : Nat := match m with | 1 => 16 | 2 => 64 | _ => 32

/-- An element-wise operation's row. -/
def elemRow (x : RowSrc) (i : VIns) (f : Nat → Nat × Nat) : RowOut :=
  let w := if i.narrow then 16 else modeWidth i.mode
  (buildRow x i w (256 * i.half) f).toOut i.d x.row (w == 64)

/-- CMP's row: predicate bits into mask D (R151). -/
def cmpRow (x : RowSrc) (i : VIns) : RowOut :=
  let f := fmtMode i.mode
  let r := buildRow x { i with op := 0x10 } 1 0 (fun j =>
    let ra := elemOf x i.mode i.a x.row j
    let rb := elemB x i i.mode j
    if i.mode = 3 then
      (b2n (cmpPred i.subop false (decide (sext 32 ra < sext 32 rb)) (ra == rb)), 0)
    else
      let a := Machine.decode f (opA i f ra)
      let b := Machine.decode f rb
      let un := a.isNan || b.isNan
      (b2n (cmpPred i.subop un (a.lt b) (a.eqv b)), fl un fNanIn))
  { writes := [⟨512 + 8 * (i.d % 8) + x.row, r.wm, r.val⟩], flags := r.flags, eflags := r.efl, elems := r.n }

/-- SEL's row: every active element, MASK as the selector (R152). -/
def selRow (x : RowSrc) (i : VIns) : RowOut :=
  let f := fmtMode i.mode
  let w := modeWidth i.mode
  (foldNat i.lanes (fun j r =>
    let v := if maskBit x i.mask j then
        (if i.mode = 3 then elemOf x i.mode i.a x.row j else opA i f (elemOf x i.mode i.a x.row j))
      else elemB x i i.mode j
    (r.put w j v).flag 0) ({} : RowAcc)).toOut i.d x.row (w == 64)

/-- Mask-register rows read M0 as all ones (R137). -/
def maskRow (x : RowSrc) (m : Nat) : Nat := if m % 8 = 0 then 2 ^ 512 - 1 else x.mask (8 * (m % 8) + x.row)

/-- The mask row that operand B gives: its own, row BIDX, or bit BIDX throughout (R144). -/
def maskRowB (x : RowSrc) (i : VIns) : Nat :=
  let row := fun r => if i.b % 8 = 0 then 2 ^ 512 - 1 else x.mask (8 * (i.b % 8) + r)
  match i.bmode with
  | 1 => row i.bidx
  | 2 => if bit (row x.row) i.bidx then 2 ^ 512 - 1 else 0
  | _ => row x.row

/-- The mask operations (R153). -/
def maskOpRow (x : RowSrc) (i : VIns) : RowOut :=
  let a := maskRow x i.a
  let b := maskRowB x i
  let all := 2 ^ 512 - 1
  let key := 512 + 8 * (i.d % 8) + x.row
  match i.op with
  | 0x12 => { writes := [⟨key, all, a &&& b⟩], elems := 512 }
  | 0x13 => { writes := [⟨key, all, a ||| b⟩], elems := 512 }
  | 0x14 => { writes := [⟨key, all, a ^^^ b⟩], elems := 512 }
  | 0x15 => { writes := [⟨key, all, all - a⟩], elems := 512 }
  | 0x16 => { writes := [⟨8 * i.d + x.row, all, a⟩], elems := 512 }
  | _ => { writes := [⟨key, all, x.tile (8 * i.a + x.row) % 2 ^ 512⟩], elems := 512 }

/-- CVT's row (R154). -/
def cvtRow (x : RowSrc) (i : VIns) : RowOut :=
  let sb := elemBits i.srcType
  let db := elemBits i.dstType
  let soff := if sb < 32 then 256 * i.partNo else 0
  let doff := if db < 32 then 256 * i.partNo else 0
  let f := (fmtOf i.srcType).getD fp32
  let r := buildRow x i db doff (fun j =>
    let raw := if sb = 64 then elemOf x 2 i.a x.row j else bits (x.tile (8 * i.a + x.row)) (sb * (soff + j)) sb
    let v := if i.negA || i.absA then Machine.decode f (opA i f raw) else elemVal i.srcType raw
    let (o, g) := encElem i.dstType (rndOf x i.rnd (doff + j)) i.sat v
    (o, g ||| fl v.isNan fNanIn))
  r.toOut i.d x.row (db == 64)

/-- QNT's row, block by block (R155, R94). -/
def qntRow (x : RowSrc) (i : VIns) : RowOut :=
  let w := elemBits i.dstType
  let off := 256 * i.partNo
  let step := fun (b : Nat) (st : RowAcc × RowAcc) =>
    let js := (List.range 32).map (32 * b + ·)
    let on := js.filter (fun j => maskBit x i.mask j)
    let vals := on.map (fun j => Machine.decode fp32 (opA i fp32 (elemOf x 0 i.a x.row j)))
    let (sc, els, g) := quantBlock i.dstType (fun k => rndOf x i.rnd (off + nth 0 on k)) vals
    let g := (g ||| fl (vals.any Val.isNan) fNanIn) &&& vFlagMask i.op
    let r1 := (on.zip els).foldl (fun r (p : Nat × Nat) => (r.put w (off + p.1) p.2).flag 0) st.1
    let r1 := if i.zero then (js.filter (fun j => !maskBit x i.mask j)).foldl (fun r j => r.put w (off + j) 0) r1 else r1
    let r1 := { r1 with flags := r1.flags ||| g, efl := if g = 0 then r1.efl else g :: r1.efl }
    let r2 := if on.isEmpty then (if i.zero then st.2.put 8 (8 * i.partNo + b) 0 else st.2)
      else st.2.put 8 (8 * i.partNo + b) sc
    (r1, r2)
  let (r1, r2) := foldNat (i.lanes / 32) step ({}, {})
  let r1 := if w = 6 then { r1 with wm := r1.wm ||| ((2 ^ 512 - 1) <<< 7680) } else r1
  { writes := [⟨8 * i.d + x.row, r1.wm, r1.val⟩, ⟨8 * i.c + x.row, r2.wm, r2.val⟩],
    flags := r1.flags, eflags := r1.efl, elems := r1.n }

/-- DQN's row (R155, R100). -/
def dqnRow (x : RowSrc) (i : VIns) : RowOut :=
  let w := elemBits i.srcType
  let off := 256 * i.partNo
  let r := buildRow x i 32 0 (fun j =>
    let sc := bits (x.tile (8 * i.c + x.row)) (8 * (8 * i.partNo + j / 32)) 8
    let v := scaled sc (elemVal i.srcType (bits (x.tile (8 * i.a + x.row)) (w * (off + j)) w))
    let (o, g) := roundEnc fp32 (rndOf x i.rnd j) i.sat v
    (o, g ||| fl v.isNan fNanIn))
  r.toOut i.d x.row false

/-- PERM's and ROT's rows, on 32-bit lanes (R156, R157). -/
def permRow (x : RowSrc) (i : VIns) : RowOut :=
  let r := buildRow x i 32 0 (fun j =>
    if i.op = 0x28 then
      let k := sext 32 (elemB x i 3 j)
      if 0 ≤ k ∧ k < i.lanes then (elemOf x 0 i.a x.row k.toNat, 0) else (0, fRange)
    else (elemOf x 0 i.a x.row ((j + i.bidx) % i.lanes), 0))
  r.toOut i.d x.row false

/-- The row of a native, conversion, permutation or special-function operation. -/
def nativeRow (x : RowSrc) (i : VIns) : RowOut :=
  let f := fmtMode i.mode
  if isArith i.op then elemRow x i (fun j => arithElem x i j (256 * i.half + j))
  else if isMaskOp i.op then maskOpRow x i
  else if isInt i.op then elemRow x i (fun j => (intOp i.op (elemOf x 3 i.a x.row j) (elemB x i 3 j), 0))
  else if isSfu i.op then elemRow x i (fun j => sfuElem x i j (256 * i.half + j))
  else match i.op with
    | 5 => elemRow x i (fun j =>
        let a := elemOf x i.mode i.a x.row j
        let b := elemB x i i.mode j
        if i.mode = 3 then (minMaxInt false a b, 0) else minMax false (i.subop % 2 == 1) f (opA i f a) b)
    | 6 => elemRow x i (fun j =>
        let a := elemOf x i.mode i.a x.row j
        let b := elemB x i i.mode j
        if i.mode = 3 then (minMaxInt true a b, 0) else minMax true (i.subop % 2 == 1) f (opA i f a) b)
    | 7 => elemRow x i (fun j =>
        let a := elemOf x i.mode i.a x.row j
        (if i.mode = 3 then a else opA i f a, 0))
    | 8 => elemRow x i (fun _ =>
        (match i.mode with
          | 1 => i.imm % 2 ^ 16
          | 2 => enc fp64 (Machine.decode fp32 i.imm)
          | _ => i.imm, 0))
    | 9 => elemRow x i (fun j => ((i.imm + j) % 2 ^ 32, 0))
    | 0x10 => cmpRow x i
    | 0x11 => selRow x i
    | 0x18 => cvtRow x i
    | 0x19 => qntRow x i
    | 0x1A => dqnRow x i
    | _ => permRow x i

end Sys2Proof.Machine
end

