-- ==== Sys2Proof/Machine/VecStat.lean ====
section
/-! DEFINITION. Row statistics, soft maximum and scans (08_row_statistics.md R188–R205). -/
namespace Sys2Proof.Machine
open Sys2Proof

/-- A value with the flags gathered on the way to it. -/
structure FF where
  v : Nat
  f : Nat := 0
  deriving DecidableEq, Repr

def dec32 (x : Nat) : Val := Machine.decode fp32 x

/-- Encode a computed value inside an operation: a NaN made here raises INVALID; NAN_IN comes from the elements that the
operation reads, never from a value made on the way (R158). -/
def inner (f : Fmt) (rn : Rnd) (sat anyNan : Bool) (v : Val) : Nat × Nat :=
  if v.isNan then (f.nan, fl (!anyNan) fInvalid) else roundEnc f rn sat v

/-- One FP32 rounding to nearest even of a value computed from operands. -/
def rneOf (ops : List Val) (f : Nat) (v : Val) : FF :=
  let (r, g) := inner fp32 .rne false (ops.any Val.isNan) v
  ⟨r, f ||| g⟩

def fAdd (a b : FF) : FF := rneOf [dec32 a.v, dec32 b.v] (a.f ||| b.f) ((dec32 a.v).add (dec32 b.v))
def fSub (a b : FF) : FF := rneOf [dec32 a.v, dec32 b.v] (a.f ||| b.f) ((dec32 a.v).sub (dec32 b.v))
def fMul (a b : FF) : FF := rneOf [dec32 a.v, dec32 b.v] (a.f ||| b.f) ((dec32 a.v).mul (dec32 b.v))

def fFma (a b c : FF) : FF :=
  let p := (dec32 a.v).mul (dec32 b.v)
  let bad := p.isNan && !(dec32 a.v).isNan && !(dec32 b.v).isNan
  rneOf [dec32 a.v, dec32 b.v, dec32 c.v] (a.f ||| b.f ||| c.f ||| fl bad fInvalid) (p.add (dec32 c.v))

/-- Flags of reading numbers (R158). -/
def readNan (vs : List Nat) : Nat := fl (vs.any (fun v => (dec32 v).isNan)) fNanIn

/-- A NaN is delivered as the canonical one (R90). -/
def canon32 (v : Nat) : Nat := if (dec32 v).isNan then fp32.nan else v

/-- The exact quotient of two integers rounded once to FP32 (R194). -/
def fDivInt (a b : Nat) : FF :=
  if b = 0 then ⟨fp32.nan, 0⟩ else
  let (r, g) := roundEnc fp32 .rne false (quot false a 0 b 0)
  ⟨r, g⟩

def fExp2 (a : FF) : FF :=
  let (r, g) := exp2f a.v
  ⟨r, a.f ||| (g ^^^ (g &&& fNanIn))⟩

/-- Pairwise reduction in the fixed order of R193; fuel = depth of the tree. -/
def pairUp {α : Type} (comb : α → α → α) : List α → List α
  | a :: b :: t => comb a b :: pairUp comb t
  | l => l

def treeRed {α : Type} (d : α) (comb : α → α → α) : Nat → List α → α
  | 0, l => l.headD d
  | n + 1, l => treeRed d comb n (pairUp comb l)

/-- A statistics partial (R193). -/
structure MomChan where
  n : Nat := 0
  mean : Nat := 0
  m2 : Nat := 0
  f : Nat := 0
  deriving DecidableEq, Repr

/-- The combine of two partials (R194). -/
def momChan (sub1 : Bool) (a b : MomChan) : MomChan :=
  if b.n = 0 then { a with f := a.f ||| b.f }
  else if a.n = 0 then { b with f := a.f ||| b.f }
  else
    let n := a.n + b.n
    let w := fDivInt b.n n
    let d := fSub ⟨b.mean, 0⟩ ⟨a.mean, 0⟩
    let mean := fFma d w ⟨a.mean, 0⟩
    let f0 := a.f ||| b.f ||| mean.f
    if sub1 then ⟨n, mean.v, 0, f0⟩
    else
      let c := fDivInt (a.n * b.n) n
      let m2 := fFma (fMul d d) c (fAdd ⟨a.m2, 0⟩ ⟨b.m2, 0⟩)
      ⟨n, mean.v, m2.v, f0 ||| m2.f⟩

/-- Lane `l` of a status row. -/
def lane (x : RowSrc) (t l : Nat) : Nat := bits (x.tile (8 * t + x.row)) (32 * l) 32

/-- Is element `j` active and unmasked (R142, R143)? -/
def affected (x : RowSrc) (i : VIns) (j : Nat) : Bool := decide (j < i.lanes) && maskBit x i.mask j

/-- A write of some lanes of status tile C. -/
def laneWrite (key : Nat) (ls : List (Nat × Nat)) : RowWrite :=
  ls.foldl (fun w (p : Nat × Nat) =>
    { w with wmask := w.wmask ||| ((2 ^ 32 - 1) <<< (32 * p.1)), val := w.val ||| (p.2 <<< (32 * p.1)) }) ⟨key, 0, 0⟩

/-- Affected elements of a row. -/
def countAff (x : RowSrc) (i : VIns) : Nat := ((List.range i.lanes).filter (fun j => maskBit x i.mask j)).length

def statOut (i : VIns) (ws : List RowWrite) (g n : Nat) : RowOut :=
  let g := g &&& vFlagMask i.op
  { writes := ws, flags := g, eflags := if g = 0 then [] else [g], elems := n }

/-- Status lanes 0–2 and 7 from a partial: NaN once RFLAGS says so, N saturated (R194, R195). -/
def chanLanes (c : MomChan) (rf : Nat) : List (Nat × Nat) × Nat :=
  let big := decide (2 ^ 31 - 1 < c.n)
  let n := if big then 2 ^ 31 - 1 else c.n
  let bad := rf % 8 != 0
  ([(0, n), (1, if bad then fp32.nan else canon32 c.mean), (2, if bad then fp32.nan else canon32 c.m2), (7, rf)],
    c.f ||| fl big fOverflow)

/-- STAT (R193–R195). -/
def statRow (x : RowSrc) (i : VIns) : RowOut :=
  let n := modeElems i.mode
  let val := fun j =>
    let raw := opA i (fmtMode i.mode) (elemOf x i.mode i.a x.row j)
    if i.mode = 1 then raw <<< 16 else raw
  let leaf := fun j =>
    if affected x i j then
      let v := val j
      if i.subop = 1 then
        let q := fMul ⟨v, 0⟩ ⟨v, 0⟩
        ({ n := 1, mean := q.v, m2 := 0, f := q.f } : MomChan)
      else { n := 1, mean := v, m2 := 0, f := 0 }
    else {}
  let vs := ((List.range n).filter (affected x i)).map (fun j => dec32 (val j))
  let sp := fl (vs.any Val.isNan) 1 ||| fl (vs.any (fun v => v.isInf && !v.sign)) 2 |||
    fl (vs.any (fun v => v.isInf && v.sign)) 4
  let t := treeRed ({} : MomChan) (momChan (i.subop == 1)) (if i.mode = 1 then 9 else 8) ((List.range n).map leaf)
  let st : MomChan := { n := lane x i.c 0, mean := lane x i.c 1, m2 := lane x i.c 2 }
  let r := momChan (i.subop == 1) st t
  let rf := (lane x i.c 7 % 16) ||| sp
  let (ls, g) := chanLanes r rf
  let ls := if i.subop = 1 ∧ rf % 8 = 0 then [(0, nth (0, 0) ls 0 |>.2), (1, canon32 r.mean), (2, 0), (7, rf)] else ls
  let special := fl (bit sp 0) fNanIn ||| fl (bit sp 1 || bit sp 2) fInvalid
  statOut i [laneWrite (8 * i.c + x.row) ls] (g ||| special) (countAff x i)

/-- Maximum of IEEE 754-2019 on FP32 encodings. -/
def fMax (a b : Nat) : Nat := (minMax true false fp32 a b).1

def negInf32 : Nat := 0xFF800000
def posInf32 : Nat := 0x7F800000

/-- Soft-maximum state: MAX, SUM, X_NAN. -/
structure SM where
  mx : Nat
  sum : Nat
  nan : Bool
  f : Nat := 0
  deriving DecidableEq, Repr

/-- SMAX (R198). -/
def smaxStep (x : RowSrc) (i : VIns) : SM :=
  let val := fun j => opA i fp32 (elemOf x 0 i.a x.row j)
  let mx := lane x i.c 3
  let sum := lane x i.c 4
  let xn := bit (lane x i.c 7) 3
  let js := (List.range i.lanes).filter (affected x i)
  if xn || js.any (fun j => (dec32 (val j)).isNan) then ⟨fp32.nan, fp32.nan, true, fNanIn⟩
  else
    let m1 := fMax mx (js.foldl (fun m j => fMax m (val j)) negInf32)
    if m1 = negInf32 then ⟨mx, sum, false, 0⟩
    else if m1 = posInf32 then
      let k := (js.filter (fun j => val j == posInf32)).length
      let base := if mx = posInf32 then sum else 0
      let r := fAdd ⟨base, readNan [mx, base]⟩ ⟨enc fp32 (.fin false k 0), 0⟩
      ⟨posInf32, r.v, false, r.f⟩
    else
      let e := fun v => fExp2 (fSub ⟨v, 0⟩ ⟨m1, 0⟩)
      let t := treeRed (⟨0, 0⟩ : FF) fAdd 8
        ((List.range 256).map (fun j => if affected x i j then e (val j) else ⟨0, 0⟩))
      let r := fFma ⟨sum, readNan [mx, sum]⟩ (e mx) t
      ⟨m1, r.v, false, r.f⟩

def smaxRow (x : RowSrc) (i : VIns) : RowOut :=
  let m := smaxStep x i
  let rf := (lane x i.c 7 % 8) ||| fl (m.nan) 8
  statOut i [laneWrite (8 * i.c + x.row) [(3, m.mx), (4, m.sum), (7, rf)]] m.f (countAff x i)

/-- SCMB (R196, R201): statuses of row r of B into row r of C. -/
def scmbRow (x : RowSrc) (i : VIns) : RowOut :=
  let rf := lane x i.c 7 % 16
  let rfb := lane x i.b 7 % 16
  let dst := 8 * i.c + x.row
  let (l1, g1, rf1) :=
    if i.subop % 2 = 1 then
      let a : MomChan := { n := lane x i.c 0, mean := lane x i.c 1, m2 := lane x i.c 2 }
      let b : MomChan := { n := lane x i.b 0, mean := lane x i.b 1, m2 := lane x i.b 2 }
      let rf1 := rf ||| (rfb % 8)
      let r := momChan false a b
      let (ls, g) := chanLanes r rf1
      (ls, g ||| readNan [a.mean, b.mean, a.m2, b.m2], rf1)
    else ([], 0, rf)
  let (l2, g2, rf2) :=
    if i.subop / 2 % 2 = 1 then
      let am := lane x i.c 3
      let asum := lane x i.c 4
      let bm := lane x i.b 3
      let bsum := lane x i.b 4
      let nan := bit rf 3 || bit rfb 3
      let r : SM :=
        if nan then ⟨fp32.nan, fp32.nan, true, fNanIn⟩
        else
          let m := fMax am bm
          if m = negInf32 then ⟨am, asum, false, 0⟩
          else if m = posInf32 then
            let x := if am = posInf32 then asum else 0
            let y := if bm = posInf32 then bsum else 0
            let r := fAdd ⟨x, readNan [x]⟩ ⟨y, readNan [y]⟩
            ⟨posInf32, r.v, false, r.f⟩
          else
            let fa := fExp2 (fSub ⟨am, 0⟩ ⟨m, 0⟩)
            let fb := fExp2 (fSub ⟨bm, 0⟩ ⟨m, 0⟩)
            let r := fFma ⟨asum, readNan [am, bm, asum, bsum]⟩ fa (fMul ⟨bsum, 0⟩ fb)
            ⟨m, r.v, false, r.f⟩
      ([(3, r.mx), (4, r.sum)], r.f, rf1 ||| fl nan 8)
    else ([], 0, rf1)
  statOut i [laneWrite dst ((l1.filter (fun p => p.1 != 7)) ++ l2 ++ [(7, rf2)])] (g1 ||| g2) i.lanes

/-- 1/√v rounded once to FP32, with the edge cases of R197. -/
def invOf (v eps : Nat) : Nat × Nat :=
  let a := dec32 v
  let e := dec32 eps
  if a.isNan || e.isNan then (fp32.nan, fNanIn)
  else
    let (s, g) := inner fp32 .rne false false (a.add e)
    match dec32 s with
    | .nan => (fp32.nan, fInvalid)
    | .inf neg => if neg then (fp32.nan, g ||| fInvalid) else (0, g)
    | .fin neg m ex =>
      if m = 0 then (posInf32, g ||| fDivzero)
      else if neg then (fp32.nan, g ||| fInvalid)
      else
        let (r, h) := roundEnc fp32 .rne false (rsqrtVal m ex)
        (r, g ||| h)

/-- SFIN (R197). -/
def sfinRow (x : RowSrc) (i : VIns) : RowOut :=
  let n := lane x i.c 0
  let eps := lane x i.b 0
  let dst := 8 * i.c + x.row
  if i.subop = 2 then
    let mx := lane x i.c 3
    let (r, g) :=
      if bit (lane x i.c 7) 3 then (fp32.nan, fNanIn)
      else if mx = negInf32 then (negInf32, 0)
      else if mx = posInf32 then (posInf32, 0)
      else
        let (v, g) := log2Of (dec32 (lane x i.c 4))
        let (l, h) := if v.isNan then (fp32.nan, 0) else roundEnc fp32 .rne false v
        let r := fAdd ⟨mx, readNan [mx]⟩ ⟨l, 0⟩
        (r.v, g ||| h ||| r.f)
    statOut i [laneWrite dst [(10, r)]] g i.lanes
  else
    let none' := n == 0 || (i.subop == 1 && n == 1)
    if none' then statOut i [laneWrite dst [(8, fp32.nan), (9, fp32.nan)]] fInvalid i.lanes
    else
      let (v, g) :=
        if i.subop = 3 then (canon32 (lane x i.c 1), 0)
        else
          let m2 := dec32 (lane x i.c 2)
          if m2.isNan then (fp32.nan, fNanIn)
          else finish fp32 .rne false false (m2.div (.fin false (if i.subop = 1 then n - 1 else n) 0))
      let (r, h) := invOf v eps
      statOut i [laneWrite dst [(8, v), (9, r)]] (g ||| h) i.lanes

/-- SCLR (R190). -/
def sclrRow (x : RowSrc) (i : VIns) : RowOut :=
  let carry := match i.subop with
    | 0 => 0x80000000 | 1 => 0x3F800000 | 2 => negInf32 | _ => 0
  statOut i [laneWrite (8 * i.c + x.row) [(0, 0), (1, 0), (2, 0), (3, negInf32), (4, 0), (5, 0), (6, carry), (7, 0),
    (8, 0), (9, 0), (10, 0)]] 0 i.lanes

/-- SNRM (R199). -/
def snrmRow (x : RowSrc) (i : VIns) : RowOut :=
  let f := if i.narrow then bf16 else fp32
  let mx := lane x i.c 3
  let sum := dec32 (lane x i.c 4)
  let xn := bit (lane x i.c 7) 3
  let r := buildRow x i (if i.narrow then 16 else 32) (256 * i.half) (fun j =>
    let rn := rndOf x i.rnd (256 * i.half + j)
    let v := opA i fp32 (elemOf x 0 i.a x.row j)
    let e := dec32 v
    if xn || (dec32 mx).isNan then (f.nan, fNanIn)
    else if mx = negInf32 then (0, 0)
    else if mx = posInf32 then
      (if e.isNan then (f.nan, fNanIn)
       else if v = posInf32 then finish f rn i.sat false ((Val.fin false 1 0).div sum)
       else (0, 0))
    else if e.isNan then (f.nan, fNanIn)
    else
      let p := fExp2 (fSub ⟨v, 0⟩ ⟨mx, 0⟩)
      let (o, g) := finish f rn i.sat sum.isNan ((dec32 p.v).div sum)
      (o, g ||| p.f))
  r.toOut i.d x.row false

/-- One level of the scan over 256 lanes (R203). -/
def scanLevel {α : Type} (z : α) (comb : α → α → α) (d : Nat) (y : List α) : List α :=
  let lo := List.replicate d z ++ y
  (lo.zip y).mapIdx (fun j p => if j < d then p.2 else comb p.1 p.2)

def scanGo {α : Type} (z : α) (comb : α → α → α) : Nat → Nat → List α → List α
  | 0, _, y => y
  | n + 1, d, y => scanGo z comb n (2 * d) (scanLevel z comb d y)

/-- SCAN (R202–R204). -/
def scanRow (x : RowSrc) (i : VIns) : RowOut :=
  let ident := match i.subop with | 0 => 0x80000000 | 1 => 0x3F800000 | _ => negInf32
  let comb : FF → FF → FF := fun a b =>
    match i.subop with
    | 0 => fAdd a b
    | 1 => fMul a b
    | _ => ⟨fMax a.v b.v, a.f ||| b.f⟩
  let leaf := fun j => if affected x i j then
      let v := opA i fp32 (elemOf x 0 i.a x.row j)
      (⟨v, fl (dec32 v).isNan fNanIn⟩ : FF)
    else ⟨ident, 0⟩
  let y := scanGo (⟨ident, 0⟩ : FF) comb 8 1 ((List.range 256).map leaf)
  let carry := lane x i.c 6
  let f := if i.narrow then bf16 else fp32
  let exact := fun (v : Nat) =>
    match i.subop with
    | 0 => (dec32 carry).add (dec32 v)
    | 1 => (dec32 carry).mul (dec32 v)
    | _ => dec32 (fMax carry v)
  let r := buildRow x i (if i.narrow then 16 else 32) (256 * i.half) (fun j =>
    let e := nth ⟨ident, 0⟩ y j
    let (o, g) := inner f (rndOf x i.rnd (256 * i.half + j)) i.sat ([carry, e.v].any (fun v => (dec32 v).isNan)) (exact e.v)
    (o, g ||| readNan [carry]))
  let tf := y.foldl (fun g e => g ||| e.f) 0
  let last := nth ⟨ident, 0⟩ y 255
  let (c, g) := inner fp32 .rne false ([carry, last.v].any (fun v => (dec32 v).isNan)) (exact last.v)
  let o := r.toOut i.d x.row false
  { o with writes := o.writes ++ [laneWrite (8 * i.c + x.row) [(6, c)]]
           flags := (o.flags ||| tf ||| g ||| readNan [carry]) &&& vFlagMask i.op }

/-- A pair of the affine recurrence. -/
structure AB where
  a : Nat
  b : Nat
  f : Nat := 0
  deriving DecidableEq, Repr

/-- ASCN (R202–R204). -/
def ascnRow (x : RowSrc) (i : VIns) : RowOut :=
  let z : AB := ⟨0x3F800000, 0x80000000, 0⟩
  let comb : AB → AB → AB := fun lo hi =>
    let a := fMul ⟨hi.a, 0⟩ ⟨lo.a, 0⟩
    let b := fFma ⟨hi.a, 0⟩ ⟨lo.b, 0⟩ ⟨hi.b, 0⟩
    ⟨a.v, b.v, lo.f ||| hi.f ||| a.f ||| b.f⟩
  let leaf := fun j => if affected x i j then
      let a := opA i fp32 (elemOf x 0 i.a x.row j)
      let b := elemB x i 0 j
      (⟨a, b, fl ((dec32 a).isNan || (dec32 b).isNan) fNanIn⟩ : AB)
    else z
  let y := scanGo z comb 8 1 ((List.range 256).map leaf)
  let carry := lane x i.c 6
  let f := if i.narrow then bf16 else fp32
  let exact := fun (e : AB) => ((dec32 e.a).mul (dec32 carry)).add (dec32 e.b)
  let anyNan := fun (e : AB) => [carry, e.a, e.b].any (fun v => (dec32 v).isNan)
  let badMul := fun (e : AB) =>
    fl (((dec32 e.a).mul (dec32 carry)).isNan && !([carry, e.a].any (fun v => (dec32 v).isNan))) fInvalid
  let r := buildRow x i (if i.narrow then 16 else 32) (256 * i.half) (fun j =>
    let e := nth z y j
    let (o, g) := inner f (rndOf x i.rnd (256 * i.half + j)) i.sat (anyNan e) (exact e)
    (o, g ||| badMul e ||| readNan [carry]))
  let tf := y.foldl (fun g e => g ||| e.f) 0
  let last := nth z y 255
  let (c, g) := inner fp32 .rne false (anyNan last) (exact last)
  let o := r.toOut i.d x.row false
  { o with writes := o.writes ++ [laneWrite (8 * i.c + x.row) [(6, c)]]
           flags := (o.flags ||| tf ||| g ||| badMul last ||| readNan [carry]) &&& vFlagMask i.op }

/-- The row of any vector operation. -/
def vecRow (x : RowSrc) (i : VIns) : RowOut :=
  match i.op with
  | 0x60 => statRow x i
  | 0x61 => scmbRow x i
  | 0x62 => sfinRow x i
  | 0x63 => sclrRow x i
  | 0x64 => smaxRow x i
  | 0x65 => snrmRow x i
  | 0x68 => scanRow x i
  | 0x69 => ascnRow x i
  | _ => nativeRow x i

end Sys2Proof.Machine
end

