-- ==== Sys2Proof/Machine/Hatch.lean ====
section
/-! DEFINITION. The hatch clock and what its edges do inside a pod: service and copy slots, the scratchpad port,
reads of strokes in flight, the advance of time, and the stop of a hatch by a fault
(03_hatch_timing.md, 05 R119, 06 R138, R141, 07 R180, 09 R206–R210). Events come as commands at hc that the schedule
fixes; between two of them the only work of an edge is to read the sources of rows in flight, which `advance` does in
the order of their hc. -/
namespace Sys2Proof.Machine
open Sys2Proof

/-- First pod of a generator's hatch, and its pods. -/
def hatchLow (n : Nat) : Nat := 128 * (n / 16) + 8 * (n % 16)
def hatchPods (s : State) (n : Nat) : List Nat := (List.range (gen s n).size).map (hatchLow n + ·)

/-- Edges are being delivered: RUNNING, and not stopped by a fault (R65, R84). -/
def running (s : State) (n : Nat) : Bool := (gen s n).st == .running && !(gen s n).faulted

/-- Service slots of a share of N per 64 hc (R76). -/
def isSvcSlot (share h : Nat) : Bool := share != 0 && h % (64 / share) == 0

def svcSlot (s : State) (n h : Nat) : Bool := isSvcSlot (part s (gen s n).part).share h

/-- A plate hc of a pod: neither a service slot nor a copy slot (R207, R208). -/
def plateHc (share : Nat) (p : Pod) (h : Nat) : Bool := !isSvcSlot share h && !p.copySlots.contains (h % 64)

/-- The first plate hc at or after `h`, looking at most 64 ahead. -/
def nextPlate (share : Nat) (p : Pod) (h : Nat) : Nat :=
  match findNat 65 (fun k => plateHc share p (h + k)) with
  | some k => h + k
  | none => h

/-- Hc in which the array makes an access that is due at `h` (R119). -/
def mxaHc (share h : Nat) : Nat := if isSvcSlot share h then h - 1 else h

/-- Delivered edges among the first `i` of a window at ratio `b` (R81). -/
def delivered (b i : Nat) : Nat := i - i * b / 64

/-- Swallow the bubbles that fall before `k` more delivered edges (R81). -/
def passEdges (x : Gen) (k : Nat) : Gen :=
  let room := delivered x.ratio 64 - delivered x.ratio x.winPos
  let place := fun (b base : Nat) => (findNat 65 (fun i => delivered b i == base)).getD 64
  if k ≤ room ∧ k + delivered x.ratio x.winPos < delivered x.ratio 64 then
    let i := place x.ratio (delivered x.ratio x.winPos + k)
    { x with hc := x.hc + k, winPos := i, bubbleCount := x.bubbleCount + (i - x.winPos - k) }
  else
    let x1 := x.ratio - x.winPos * x.ratio / 64
    let b := x.nextRatio
    let k' := k - room
    let per := 64 - b
    let i := place b (k' % per)
    { x with hc := x.hc + k, ratio := b, winPos := i,
             bubbleCount := x.bubbleCount + x1 + (k' / per) * b + (i - k' % per) }

/-- Counts that a sampling counter's DELTA takes in (R491): OVF on a wrap, LOST on a second one. -/
def sampleAdd (s : State) (d i k : Nat) : State :=
  let a := cntReg d (0x200 + 8 * i)
  let v := rd s a
  let x := v % 2 ^ 32 + k
  let w := x / 2 ^ 32
  wr s a (x % 2 ^ 32 + (if w = 0 then v / 2 ^ 32 % 4 * 2 ^ 32
    else if bit v 32 ∨ 1 < w then 3 * 2 ^ 32 else (2 * b2n (bit v 33) + 1) * 2 ^ 32))

/-- Sampling counters of an event on a hatch's generator (R490). -/
def sample (s : State) (n ev k : Nat) : State :=
  if k = 0 then s
  else
    let d := n / 16
    foldNat 16 (fun i s =>
      let c := rd s (cntReg d (0x100 + 4 * i))
      if bit c 13 && bits c 0 4 == ev && bits c 4 4 == n % 16 && (bit c 12 || bits c 8 4 == (gen s n).phase) then
        sampleAdd s d i k else s) s

/-- Hc that an interval `a … b` has in common with the edges `lo … hi`. -/
def overlap (a b lo hi : Nat) : Nat := min b hi + 1 - max a lo

/-- Busy hc of a pod's array within a span of edges (R127). -/
def mxaBusyIn (p : Pod) (lo hi : Nat) : Nat :=
  match p.mxa.busyTo with | some e => overlap p.mxa.busyFrom e lo hi | none => 0

/-- Hc in which a pipe's issue port is occupied within a span of edges that begins after its last launch (R141). -/
def vecBusyIn (x : Pipe) (lo hi : Nat) : Nat := min x.portFree (hi + 1) - lo

/-- Rows that a pipe issues within a span of edges (R141). -/
def rowsIn (x : Pipe) (lo hi : Nat) : Nat := (x.rows.filter (fun r => decide (lo ≤ r.readHc ∧ r.readHc ≤ hi))).length

/-- Edges `lo … hi` are counted by a pod: busy array, rows issued and occupied ports (R133, R169). -/
def countEdges (s : State) (lo hi g : Nat) : State :=
  let p := pod s g
  [(0x410, mxaBusyIn p lo hi), (0x618, rowsIn p.pipe0 lo hi), (0x620, rowsIn p.pipe1 lo hi),
    (0x628, vecBusyIn p.pipe0 lo hi), (0x630, vecBusyIn p.pipe1 lo hi)].foldl
    (fun s e => if e.2 = 0 then s else bump s (podReg g e.1) e.2) s

/-! ### Stretched edges (R79, R127, R128) -/

/-- Is the array busy in hc `h` (R127)? -/
def arrayBusy (m : Mxa) (h : Nat) : Bool :=
  match m.busyTo with | some e => decide (m.busyFrom ≤ h ∧ h ≤ e) | none => false

/-- MXA_RAMP of the hatch's lowest pod, as edges (R128). -/
def rampEdges (s : State) (n : Nat) : Nat := 16 * 2 ^ (rd s (podReg (hatchLow n) 0x404) % 4)

/-- Stop ramps that the generator fixes between its present hc and `h`, `S` hc before more than one eighth of the
hatch's arrays cease to be busy: the `S` edges that end with their last busy hc (R127). -/
def stopRamps (s : State) (n h : Nat) : List (Nat × Nat) :=
  let x := gen s n
  let r := rampEdges s n
  let es := (hatchPods s n).filterMap (fun g => (pod s g).mxa.busyTo)
  (es.dedup.filter (fun e => decide (x.hc + r ≤ e + 1 ∧ e + 1 < h + r ∧ x.size < 8 * es.count e))).map
    (fun e => (e + 1 - r, e))

/-- Memory WRITEs that a burin will launch by hc `lim`, as far as its own program decides: hc and stroke. -/
def writesAhead (lim : Nat) : Nat → Burin → List (Nat × Nat)
  | 0, _ => []
  | k + 1, b =>
    match b.prog[b.idx]? with
    | none => []
    | some wv =>
      let w := wv.toNat
      let t := launchHc b w
      if b.waiting || decide (lim < t) then []
      else
        (if strokeUnit w = 6 ∧ strokeOp w = 2 then [(t, w)] else []) ++
          (match peekNext b w t with
          | some b' => writesAhead lim k b'
          | none => [])

/-- The address of granule `k` of a plate tensor's span (R257); none beyond the span. -/
def memGranule (d k : Nat) : Option Nat :=
  let (f, l) := tdSpan d
  let a := f.toNat / 64 * 64 + 64 * k
  if (a : Int) ≤ l then some a else none

/-- Stack and channel that a WRITE stroke goes to, where it passes the checks that come before its claim (R259). -/
def writeChannel (s : State) (n w : Nat) : Option (Nat × Nat) :=
  match tensorAt s (gen s n).part (bits w 32 16) with
  | some d =>
    match memGranule d (bits w 48 40) with
    | some a => (locateFrom s (n / 16) a).map (fun l => (l.st, l.c))
    | none => none
  | none => none

/-- Free write-buffer entries of a holder in a channel (R260). -/
def bufFree (s : State) (st c holder : Nat) : Nat := 8 - tget 0 (chan s st c).buf holder

/-- The first edge that the generator, looking ahead from its present hc to `h`, sees it may have to withhold: a landing
write whose granule has not landed, or WRITEs without entries, `S` edges on, with the array active (R79). -/
def edgeAhead (s : State) (n h : Nat) : Option Nat :=
  let x := gen s n
  let r := rampEdges s n
  let ps := hatchPods s n
  let lands := ps.flatMap (fun g => ((pod s g).landing.filter (fun l => !l.landed)).map (·.due))
  let ws := (ps.flatMap (fun g => writesAhead (h + r) (4 * r) (pod s g).burin)).filterMap (fun e =>
    (writeChannel s n e.2).map (fun c => (e.1, c)))
  let full := (ws.filter (fun e => decide (bufFree s e.2.1 e.2.2 x.part < ws.count e))).map (·.1)
  ((lands ++ full).filter (fun d => decide (x.hc + r < d ∧ d ≤ h + r) &&
    ps.any (fun g => arrayBusy (pod s g).mxa (d - 1)))).min?

/-- Ramps that the hatch fixes, and drops as past, on its way to hc `h`. -/
def slowed (s : State) (n h : Nat) (y : Gen) : Gen :=
  let x := gen s n
  let keep := fun l : List (Nat × Nat) => l.filter (fun r => decide (h < r.2))
  if (hatchPods s n).any (fun g => match (pod s g).mxa.busyTo with | some e => decide (x.hc ≤ e) | none => false) then
    match x.ahead.filter (fun a => decide (h < a.1)), edgeAhead s n h with
    | none, some d =>
      { y with slow := keep (x.slow ++ stopRamps s n h ++ [(d - rampEdges s n, d - 1)]), ahead := some (d, rampEdges s n) }
    | a, _ => { y with slow := keep (x.slow ++ stopRamps s n h), ahead := a }
  else { y with slow := keep x.slow, ahead := x.ahead.filter (fun a => decide (h ≤ a.1)) }

/-- Edges delivered up to hc `h` are counted (R85, R133, R169, R490). -/
def reachHc (s : State) (n h : Nat) : State :=
  let x := gen s n
  if x.hc < h then
    let y := passEdges x (h - x.hc)
    let lo := x.hc + 1
    let ps := hatchPods s n
    let wait := if x.waitKind = 0 then 0 else overlap (x.waitAt + 1) h lo h
    let z := slowed s n h y
    let s := ps.foldl (fun s g => countEdges s lo h g) s
    let s := sample (sample s n 0 (h - x.hc)) n 2 (y.bubbleCount - x.bubbleCount)
    let s := sample s n 3 ((ps.map (fun g => mxaBusyIn (pod s g) lo h)).sum)
    let s := sample s n 4 ((ps.map (fun g => vecBusyIn (pod s g).pipe0 lo h + vecBusyIn (pod s g).pipe1 lo h)).sum)
    let s := sample (sample s n 7 (if x.waitKind = 2 then wait else 0)) n 8 (if x.waitKind = 1 then wait else 0)
    setGen s n z
  else s

/-! ### Scratchpad words -/

/-- `n` bytes of scratchpad as a reader sees them: the cells, with wrong bits where a decoder was deceived (R276). -/
def spadRead (p : Pod) (addr n : Nat) : Nat :=
  p.errs.foldl (fun v e =>
    let x := huskData (residual huskF e.2)
    let a := 32 * e.1
    if a + 32 ≤ addr ∨ addr + n ≤ a then v
    else v ^^^ ((if addr ≤ a then x <<< (8 * (a - addr)) else x >>> (8 * (addr - a))) % 2 ^ (8 * n))) (mread p.spad addr n)

/-- A scratchpad word's 256 bits (R206). -/
def spadWord (p : Pod) (w : Nat) : Nat := spadRead p (32 * w) 32

/-- Uncorrectable or poisoned (R276, R278). -/
def wordBad (p : Pod) (w : Nat) : Bool := eccBad huskF (tget 0 p.errs w)

/-- Corrected reads among words read (R286): each is noted with its lowest symbol and how many. -/
def noteWords (p : Pod) (ws : List Nat) : Pod :=
  if p.errs.isEmpty then p
  else { p with ceLog := p.ceLog ++ ws.filterMap (fun w =>
    match eccDecode huskF (tget 0 p.errs w) with
    | .corrected y => some ((y.headD (0, 0)).1, y.length)
    | _ => none) }

/-- Corrected reads among rows of pip tables. -/
def noteRows (p : Pod) (rows : List (Nat × Nat)) : Pod :=
  if rows.isEmpty then p
  else { p with ceLog := p.ceLog ++ rows.filterMap (fun e =>
    match eccDecode huskF e.2 with
    | .corrected y => some ((y.headD (0, 0)).1, y.length)
    | _ => none) }

/-- Whole words written afresh carry new code words: stored errors and poison go (R279). -/
def scrubWords (p : Pod) (addr n : Nat) : Pod :=
  let lo := addr / 32
  let hi := (addr + n + 31) / 32
  { p with errs := p.errs.filter (fun e => decide (e.1 < lo) || decide (hi ≤ e.1)) }

/-- Write bytes into scratchpad. -/
def spadPut (p : Pod) (addr n v : Nat) : Pod := scrubWords { p with spad := mwrite n p.spad addr v } addr n

/-- Scratchpad writes visible by hc `h` reach the cells, in issue order. -/
def settleSpad (p : Pod) (h : Nat) : Pod :=
  let due := p.spadPend.filter (fun x => decide (x.vis ≤ h))
  due.foldl (fun p x => spadPut p x.addr x.n x.val)
    { p with spadPend := p.spadPend.filter (fun x => !decide (x.vis ≤ h)) }

/-- Accesses of hc `h` at the port: words with the index of their stroke, reads of one word counted once (R207). The
answer lists the strokes a BANK_CLASH may name: none where there is no clash. -/
def portAccess (p : Pod) (h : Nat) (rs ws : List (Nat × Nat)) : Pod × List Nat :=
  let old := p.acc.filter (fun a => decide (h ≤ a.hc + 2))
  let all : List PortAcc := old ++ rs.map (fun w => ⟨h, false, w.1, w.2⟩) ++ ws.map (fun w => ⟨h, true, w.1, w.2⟩)
  let now := all.filter (fun a => a.hc == h)
  let r : List Nat := ((now.filter (fun a => !a.wr)).map (·.word)).dedup
  let w : List Nat := (now.filter (fun a => a.wr)).map (·.word)
  let rb : List Nat := r.map (· % 32)
  let wb : List Nat := w.map (· % 32)
  let clash := decide (rb.dedup.length < rb.length) || decide (wb.dedup.length < wb.length) || decide (32 < r.length + w.length)
  ({ p with acc := all }, if clash then (now.map (·.idx)).dedup else [])

/-! ### Tiles and masks -/

/-- A tile or mask row's bits; undefined after a reset until the next ACTIVATE (R135, R137, R139). -/
def fileRow (g : Nat) (p : Pod) (key : Nat) : Nat :=
  let t := if key < 512 then p.tiles else p.masks
  match tfind t key with
  | some v => v
  | none => if !p.undef then 0 else (Config.undefRow p.epoch g key).toNat % (if key < 512 then 2 ^ 8192 else 2 ^ 512)

/-- Write a row of the tile or mask file; on a WRITE_CLASH, the other write of that hc (R138). -/
def fileWrite (g : Nat) (p : Pod) (h : Nat) (w : RowWrite) (site : VSite) : Pod × Option TileAcc :=
  let old := p.tileAcc.filter (fun a => decide (h ≤ a.hc))
  let cur := fileRow g p w.key
  let v := (cur ^^^ (cur &&& w.wmask)) ||| (w.val &&& w.wmask)
  let p := { p with tileAcc := ⟨h, w.key, site⟩ :: old }
  match old.find? (fun a => a.hc == h && a.key == w.key) with
  | some a => (p, some a)
  | none =>
    if w.key < 512 then ({ p with tiles := tset p.tiles w.key v }, none)
    else ({ p with masks := tset p.masks w.key v }, none)

/-- VEC_FAULT of a fault at a site (R168). -/
def vecVal (code : Nat) (x : VSite) (row flags : Nat) : Nat :=
  code + fld 8 14 x.idx + fld 22 1 x.pipe + fld 23 1 (b2n x.inStip) + fld 24 4 x.slot + fld 28 5 x.instr +
    fld 33 3 row + fld 36 7 flags

/-- The values VEC_FAULT may take for a WRITE_CLASH between two writes. -/
def clashVals (a : TileAcc) (site : VSite) : List Nat :=
  [vecVal 4 a.site (a.key % 8) 0, vecVal 4 site (a.key % 8) 0].dedup

/-- Transfer rows due in the tile file by hc `h`; the answer lists the values of a WRITE_CLASH. -/
def settleTiles (g : Nat) (p : Pod) (h : Nat) : Pod × List Nat :=
  let due := p.tilePend.filter (fun x => decide (x.hc ≤ h))
  due.foldl (fun (q : Pod × List Nat) x =>
      match fileWrite g q.1 x.hc x.w x.site with
      | (p', some a) => (p', if q.2.isEmpty then clashVals a x.site else q.2)
      | (p', none) => (p', q.2))
    ({ p with tilePend := p.tilePend.filter (fun x => !decide (x.hc ≤ h)) }, [])

/-! ### Reads of strokes in flight -/

def pipe (p : Pod) (i : Nat) : Pipe := if i = 0 then p.pipe0 else p.pipe1
def setPipe (p : Pod) (i : Nat) (x : Pipe) : Pod := if i = 0 then { p with pipe0 := x } else { p with pipe1 := x }
def pip (x : Pipe) (i : Nat) : Pip := if i = 0 then x.pt0 else x.pt1
def setPip (x : Pipe) (i : Nat) (t : Pip) : Pipe := if i = 0 then { x with pt0 := t } else { x with pt1 := t }
def plane (m : Mxa) (i : Nat) : Plane := if i = 0 then m.p0 else m.p1
def setPlane (m : Mxa) (i : Nat) (x : Plane) : Mxa := if i = 0 then { m with p0 := x } else { m with p1 := x }

/-- What a pod's hash words depend on besides the element (R101, R102): the seed of its partition and the step that its
hatch runs, the one of its last permit (R56, R58). -/
structure SrKey where
  seed : Nat
  step : Nat
  share : Nat
  deriving DecidableEq, Repr

def srKey (s : State) (n : Nat) : SrKey :=
  let x := gen s n
  let q := part s x.part
  ⟨q.seed, (q.step + 2 ^ 64 - q.completed + (x.permitWaits - 1)) % 2 ^ 64, q.share⟩

/-- The sources of a vector row as its pod holds them now. -/
def rowSrc (k : SrKey) (g : Nat) (p : Pod) (r : VRow) : RowSrc where
  tile := fileRow g p
  mask := fun m => fileRow g p (512 + m)
  row := r.row
  hash := fun j => srWord k.seed k.step r.stream ((r.ebase + r.row * r.pitch + j) % 2 ^ 50)
  pip := (Machine.pip (Machine.pipe p r.pipe) r.table).img

/-- Rows of pip tables with symbol errors that the PIP rows of hc `h` read, as 132 × (2 × pipe + table) + row, with their
overlays (R276, R282). -/
def pipErrs (k : SrKey) (g h : Nat) (p : Pod) : List (Nat × Nat) :=
  (p.pipe0.rows ++ p.pipe1.rows).flatMap (fun r =>
    let t := Machine.pip (Machine.pipe p r.pipe) r.table
    if t.errs.isEmpty || r.out.isSome || r.readHc != h then []
    else (pipReads (rowSrc k g p r) r.ins).filterMap (fun w =>
      (tfind t.errs w).map (fun o => (132 * (2 * r.pipe + r.table) + w, o))))

/-- Read the sources of a pipe's rows that read in hc `h`. -/
def latchPipe (k : SrKey) (g : Nat) (p : Pod) (i h : Nat) : Pod :=
  let x := Machine.pipe p i
  setPipe p i { x with rows := x.rows.map (fun r =>
    if r.out.isNone && r.readHc == h then { r with out := some (vecRow (rowSrc k g p r) r.ins) } else r) }

/-- Words of the next row of a LOAD: its image, and the scales of a block that begins with it (R117). -/
def loadWords (l : MxaLoad) (scaled : Bool) : List (Nat × Nat) :=
  ([l.src + 2 * l.next, l.src + 2 * l.next + 1] ++
    (if scaled && l.next % (32 / l.e) == 0 then [l.scaleAddr + l.next * l.e / 32] else [])).map (fun w => (w, l.idx))

/-- A row of a LOAD is read and latched into its plane (R117). -/
def loadRow (p : Pod) (l : MxaLoad) : Pod :=
  let pl := plane p.mxa l.plane
  let img := tset pl.img l.next (spadRead p (32 * (l.src + 2 * l.next)) 64)
  let sc := if pl.scaled && l.next % (32 / l.e) == 0 then
      tset pl.scales (l.next * l.e / 32) (spadWord p (l.scaleAddr + l.next * l.e / 32)) else pl.scales
  let m := setPlane p.mxa l.plane { pl with img := img, scales := sc }
  let l' := { l with next := l.next + 1 }
  { p with mxa := { m with loads := if l'.next = l.rows then m.loads.drop 1 else l' :: m.loads.drop 1 } }

/-- Words of the next row of a STREAM: row, scales and initial row (R115, R119). -/
def streamWords (x : MxaStream) : List (Nat × Nat) :=
  let a := x.aAddr + x.next * x.cfg.aStride
  ((List.range (ceilDiv' (streamBytes x.cfg.aType x.plane.e) 32)).map (a + ·) ++
    (if x.cfg.aScaled then [(32 * x.cfg.aScaleAddr + 16 * x.next) / 32] else []) ++
    (if x.init then (List.range 4).map (x.accAddr + 4 * x.next + ·) else [])).map (fun w => (w, x.idx))

/-- A stream row is read and enters the array (R111, R118). -/
def streamRow (p : Pod) (x : MxaStream) : Pod :=
  let inp : MxaIn := {
    cfg := x.cfg
    plane := x.plane
    kExt := x.kExt
    row := spadRead p (32 * (x.aAddr + x.next * x.cfg.aStride)) (streamBytes x.cfg.aType x.plane.e)
    scales := if x.cfg.aScaled then spadRead p (32 * x.cfg.aScaleAddr + 16 * x.next) 16 else 0
    init := if x.init then some (spadRead p (32 * x.accAddr + 128 * x.next) 128) else none }
  let (v, f) := mxaRow inp
  let r : MxaRow := {
    launch := x.t + x.next
    out := 32 * x.outAddr + 128 * x.next
    val := v
    flags := f
    products := 32 * x.kExt
    aType := x.cfg.aType
    bType := x.plane.typ
    idx := x.idx }
  let x' := { x with next := x.next + 1 }
  { p with mxa := { p.mxa with rows := p.mxa.rows ++ [r],
                               streams := if x'.next = x.rows then p.mxa.streams.drop 1
                                          else x' :: p.mxa.streams.drop 1 } }

/-- Rows of the array that are read in hc `h`: at most two of each stroke, where a service slot moves one (R119). -/
def latchMxa (share h : Nat) : Nat → Pod → List (Nat × Nat) → Pod × List (Nat × Nat)
  | 0, p, ws => (p, ws)
  | k + 1, p, ws =>
    match p.mxa.loads, p.mxa.streams with
    | l :: _, st =>
      if mxaHc share (l.u + l.next) ≤ h then
        latchMxa share h k (loadRow p l) (ws ++ loadWords l (plane p.mxa l.plane).scaled)
      else match st with
        | x :: _ =>
          if mxaHc share (x.t + x.next) ≤ h then latchMxa share h k (streamRow p x) (ws ++ streamWords x) else (p, ws)
        | [] => (p, ws)
    | [], x :: _ =>
      if mxaHc share (x.t + x.next) ≤ h then latchMxa share h k (streamRow p x) (ws ++ streamWords x) else (p, ws)
    | [], [] => (p, ws)

/-- Result rows of the array whose writes are issued by hc `h`; they are readable 166 hc after their launch (R119). -/
def latchOut (share g h : Nat) (p : Pod) : Pod × List (Nat × Nat) :=
  let due := fun r : MxaRow => !r.sent && decide (mxaHc share (r.launch + 162) ≤ h)
  let rs := p.mxa.rows.filter due
  ({ p with mxa := { p.mxa with rows := p.mxa.rows.map (fun r => if due r then { r with sent := true } else r) }
            spadPend := p.spadPend ++ rs.map (fun r => ⟨r.launch + 166, r.launch + 166, mxaHc share (r.launch + 162), g, r.out, 128, r.val⟩) },
   rs.flatMap (fun r => (List.range 4).map (fun k => (r.out / 32 + k, r.idx))))

/-- PTLOAD reads due in hc `h` (R180). -/
def latchPt (p : Pod) (i h : Nat) : Pod × List (Nat × Nat) :=
  let x := Machine.pipe p i
  let due := x.ptReads.filter (fun r => r.hc == h)
  let x' := due.foldl (fun (x : Pipe) r =>
    let t := Machine.pip x r.table
    setPip x r.table { t with img := t.img ||| (spadRead p (32 * r.word) (32 * r.n) <<< (256 * r.off)) }) x
  let x' := { x' with ptReads := x.ptReads.filter (fun r => r.hc != h) }
  (setPipe p i x', due.flatMap (fun r => (List.range r.n).map (fun k => (r.word + k, r.idx))))

/-- Flits read at the sender in hc `h` (R525). -/
def latchSend (p : Pod) (h : Nat) : Pod × List (Nat × Nat) :=
  let due := fun x : Send => decide (x.nextRead < x.flits) && x.t + x.nextRead == h
  let ws := (p.sends.filter due).flatMap (fun x => [(x.src + 2 * x.nextRead, x.idx), (x.src + 2 * x.nextRead + 1, x.idx)])
  ({ p with sends := p.sends.map (fun x =>
      if due x then { x with nextRead := x.nextRead + 1,
                             data := x.data ++ [(x.nextRead, spadRead p (32 * (x.src + 2 * x.nextRead)) 64)] }
      else x) }, ws)

/-- The hc of the earliest read still to be made. -/
def nextReadHc (share : Nat) (p : Pod) : Option Nat :=
  let vs := ((p.pipe0.rows ++ p.pipe1.rows).filter (fun r => r.out.isNone)).map (·.readHc)
  let ls := match p.mxa.loads with | l :: _ => [mxaHc share (l.u + l.next)] | [] => []
  let ss := match p.mxa.streams with | x :: _ => [mxaHc share (x.t + x.next)] | [] => []
  let ps := (p.pipe0.ptReads ++ p.pipe1.ptReads).map (·.hc)
  let fs := (p.sends.filter (fun x => decide (x.nextRead < x.flits))).map (fun x => x.t + x.nextRead)
  let os := (p.mxa.rows.filter (fun r => !r.sent)).map (fun r => mxaHc share (r.launch + 162))
  (vs ++ ls ++ ss ++ ps ++ fs ++ os).min?

/-- A unit's fault found while a pod's reads are made: its hc, register offset, the values it may take (more than
one where the spec leaves open which of two strokes it names), and its unit of R437. -/
structure PodFault where
  hc : Nat
  off : Nat
  vals : List Nat
  unit : Nat
  deriving DecidableEq, Repr

/-- Make every access of hc `h`: writes due by then come first (R138), scratchpad bytes visible by then (R210). -/
def latchHc (k : SrKey) (g h : Nat) (p : Pod) : Pod × Option PodFault :=
  let p := settleSpad p h
  let (p, wc) := settleTiles g p h
  let pe := pipErrs k g h p
  let p := latchPipe k g (latchPipe k g p 0 h) 1 h
  let (p, w1) := latchMxa k.share h 6 p []
  let (p, w2) := latchPt p 0 h
  let (p, w3) := latchPt p 1 h
  let (p, w4) := latchSend p h
  let (p, w5) := latchOut k.share g h p
  let ws := w1 ++ w2 ++ w3 ++ w4
  let (p, bc) := portAccess (noteRows (noteWords p (ws.map Prod.fst)) pe) h ws w5
  if !wc.isEmpty then (p, some ⟨h, 0x610, wc, 3⟩)
  else if !bc.isEmpty then (p, some ⟨h, 0xA00, bc.map (fun i => 1 + i * 256), 5⟩)
  else match (pe.filter (fun e => eccBad huskF e.2)).map (fun e => 2 + e.1 * 256) ++
      (ws.filter (fun w => wordBad p w.1)).map (fun w => 3 + w.1 * 256) with
    | [] => (p, none)
    | l => (p, some ⟨h, 0xA18, l.dedup, 9⟩)

/-- Make every access due before hc `h`, in the order of their hc; the first fault ends it. -/
def advanceGo (k : SrKey) (g h : Nat) : Nat → Pod → Pod × Option PodFault
  | 0, p => (p, none)
  | n + 1, p =>
    match nextReadHc k.share p with
    | none => (p, none)
    | some x =>
      if x < h then
        match latchHc k g x p with
        | (p, none) => advanceGo k g h n p
        | r => r
      else (p, none)

/-- How many accesses a pod still has to make, an upper bound. -/
def readsLeft (p : Pod) : Nat :=
  p.pipe0.rows.length + p.pipe1.rows.length + (p.mxa.loads.map (·.rows)).sum + 2 * (p.mxa.streams.map (·.rows)).sum +
    p.mxa.rows.length + p.pipe0.ptReads.length + p.pipe1.ptReads.length + (p.sends.map (·.flits)).sum + 1

/-! ### Faults that stop a hatch -/

/-- Ask for a reset of a partition; the first request stands until the reset (R420, R432). -/
def requestReset (s : State) (p : Nat) (r : ResetReq) : State :=
  modPart s p (fun x => match x.resetReq with
    | some _ => x
    | none => { x with resetReq := some r })

/-- Writes issued up to the last delivered edge stand; what is due later is lost with the stopped clock (R129, R159). -/
def settleStop (g h : Nat) (p : Pod) : Pod :=
  let p := { p with spadPend := p.spadPend.filter (fun x => decide (x.issue ≤ h)) }
  let p := p.spadPend.foldl (fun p x => spadPut p x.addr x.n x.val) { p with spadPend := [] }
  (settleTiles g p h).1

/-- The hatch's clock stops with `h` as its last delivered edge. A launch fault leaves the other launches of that hc
their effect; a TRAP (`late = false`) does not deliver its edge. -/
def stopClock (s : State) (n h : Nat) (late : Bool) : State :=
  if (gen s n).faulted then s
  else
    let s := (hatchPods s n).foldl (fun s g =>
      modPod s g (settleStop g h)) s
    modGen (reachHc s n h) n (fun x => { x with faulted := true, stopHc := if late then some h else none })

/-- A fault register keeps the first fault; VEC_FAULT keeps pipe 0's where both pipes fault in one hc (R165). -/
def recordFault (s : State) (reg v : Nat) : State :=
  let old := rd s reg
  if old = 0 then wr s reg v
  else if reg % 0x10000 = 0x610 ∧ bit old 22 ∧ !bit v 22 then wr s reg v
  else s

/-- A unit fault of a pod (R84, R129, R165, R184, R207, R227, R259, R282, R345): its register, the stop of the clock
and the request for a partition reset with cause FAULT. -/
def unitFault (s : State) (n g h reg : Nat) (vals : List Nat) (unit : Nat) : State :=
  let (s, v) := pickOf s vals
  let s := stopClock (recordFault s reg v) n h true
  requestReset s (gen s n).part ⟨1, g, unit⟩

/-- The same store of a slot's pod takes its second uncorrectable error within 24 hours: the die's firmware lists the
slot as failed (R393). -/
def noteStoreFault (s : State) (g code : Nat) : State :=
  let d := g / 128
  let slot := tget (g % 128) s.slots g
  let key := 256 * d + slot
  let again := s.podUes.any (fun e => e.1 == key && e.2.1 == code && decide (s.now ≤ e.2.2 + 4320000000000))
  let s := { s with podUes := s.podUes.filter (fun e => !(e.1 == key && e.2.1 == code)) ++ [(key, code, s.now)] }
  if again && !s.sec.failed.contains (d, slot) then modSec s (fun x => { x with failed := s.sec.failed ++ [(d, slot)] }) else s

/-- An uncorrectable or poisoned read of a pod store by a stroke (R281, R282). -/
def eccFault (s : State) (n g h : Nat) (vals : List Nat) : State :=
  let (s, v) := pickOf s vals
  let s := noteStoreFault s g (v % 256)
  unitFault (notePodBad s g (gen s n).part v) n g h (podReg g 0xA18) [v] 9

/-- A corrected read of a row of a pod's stroke-program store or stipple slots is reported (R276, R286). -/
def noteStore (s : State) (g o : Nat) : State :=
  match eccDecode huskF o with
  | .corrected y => notePodCorrected s g (y.headD (0, 0)).1
  | _ => s

/-- A stroke fault is recorded by every pod of the hatch (R84). -/
def strokeFault (s : State) (n g h code idx : Nat) : State :=
  let s := stopClock s n h true
  let s := (hatchPods s n).foldl (fun s q => recordFault s (podReg q 0x220) (code + idx * 256)) s
  requestReset s (gen s n).part ⟨1, g, 1⟩

/-- Bring a pod to hc `h`, or as far as its first fault. -/
def advanceTo (k : SrKey) (p : Pod) (g h : Nat) : Pod × Option PodFault := advanceGo k g h (readsLeft p) p

/-- Corrected reads of a pod are reported to its home stack (R286). -/
def flushCe (s : State) (g : Nat) (reader : Nat := 0) : State :=
  let l := (pod s g).ceLog
  if l.isEmpty then s
  else l.foldl (fun s e => notePodCorrected s g e.1 reader) (modPod s g (fun p => { p with ceLog := [] }))

/-- Make every access due before hc `h`, in every pod of a hatch, which then stands at the end of the hc before; what is
visible in `h` itself is left to the accesses of `h`, since the array makes some of its reads one hc early (R119) and a
trap withholds the edge (R159). The earliest fault on the way stops the hatch in its hc, with every fault of that hc
recorded. -/
def advanceReads (s : State) (n h : Nat) : State :=
  let k := srKey s n
  let rs := (hatchPods s n).map (fun g => (g, advanceTo k (pod s g) g h))
  match (rs.filterMap (fun r => r.2.2.map (·.hc))).min? with
  | none => rs.foldl (fun s r => flushCe (setPod s r.1 (settleSpad r.2.1 (h - 1))) r.1) s
  | some x =>
    let qs := (hatchPods s n).map (fun g => (g, advanceTo k (pod s g) g (x + 1)))
    let s := qs.foldl (fun s r => flushCe (setPod s r.1 r.2.1) r.1) s
    qs.foldl (fun s r => match r.2.2 with
      | some f => if f.unit = 9 then eccFault s n r.1 x f.vals else unitFault s n r.1 x (podReg r.1 f.off) f.vals f.unit
      | none => s) s

/-- Scratchpad writes visible at the present hc of their pod's hatch have reached the cells. -/
def freshSpads (s : State) : State :=
  (s.pods.filter (fun e => !e.2.spadPend.isEmpty)).foldl (fun s e =>
    match e.2.hatch with
    | some n => modPod s e.1 (settleSpad · (gen s n).hc)
    | none => s) s

/-! ### Memory-slot strokes and holds -/

/-- The WRITEs due in hc `h` cannot all claim their entries (R78, R258). -/
def writesHeld (s : State) (n h : Nat) : Bool :=
  let q := (gen s n).part
  let ws := (hatchPods s n).flatMap (fun g => peekWrites h 5 (pod s g).burin)
  let cs := ws.filterMap (writeChannel s n)
  cs.any (fun c => decide (bufFree s c.1 c.2 q < cs.count c))

/-- Earliest landing write of the hatch whose granule has not landed (R78). -/
def lateDue (s : State) (n : Nat) : Option Nat :=
  ((hatchPods s n).flatMap (fun g => ((pod s g).landing.filter (fun l => !l.landed)).map (·.due))).min?

/-- Is edge `h` withheld, and by which cause of R86? -/
def edgeHeld (s : State) (n h : Nat) : Nat :=
  if (lateDue s n).any (fun d => decide (d ≤ h)) then 1 else if writesHeld s n h then 2 else 0

/-- The generator enters HELD with `h` as the first edge withheld (R78). The stretch after the restart will have the
setting that the stretch before the stop was fixed with (R79, R128). -/
def hold (s : State) (n h cause : Nat) : State :=
  let r := match (gen s n).ahead with
    | some (d, r) => if d = h then r else rampEdges s n
    | none => rampEdges s n
  modGen (reachHc s n (h - 1)) n (fun x => { x with st := .held, holdCause := cause, holdRamp := r, ahead := none })

/-- Bring a running hatch up to hc `h`, whose own edge is not yet counted: reads due before it are made, and a hold
stops the clock at the first edge that is withheld. -/
def advance (s : State) (n h : Nat) : State :=
  if !running s n then s
  else
    let late := (lateDue s n).filter (fun d => decide (d ≤ h))
    let s := advanceReads s n (late.getD h)
    if !running s n then s
    else match late with
      | some d => hold s n d 1
      | none => if writesHeld s n h then hold s n h 2 else s

/-- A hatch brought to hc `h` with what is visible in it. -/
def arrive (s : State) (n h : Nat) : State :=
  let s := advance s n h
  if running s n then (hatchPods s n).foldl (fun s g => modPod s g (fun p => settleSpad p h)) s else s

/-- A hatch resumes when nothing withholds its next edge (R78); the edges after a restart are stretched while an array
is active (R79). -/
def tryResume (s : State) (n : Nat) : State :=
  let x := gen s n
  if x.st == .held && edgeHeld s n (x.hc + 1) == 0 then
    let active := (hatchPods s n).any (fun g => arrayBusy (pod s g).mxa x.hc)
    setGen s n { x with st := .running, holdCause := 0,
                        slow := if active then x.slow ++ [(x.hc + 1, x.hc + x.holdRamp)] else x.slow }
  else s

/-- May a stroke launch in hc `h`: the clock runs, or a fault of this very hc, or of a later one, has just stopped it
(R84, R165). -/
def canLaunch (s : State) (n h : Nat) : Bool :=
  running s n || ((gen s n).st == .running && (gen s n).faulted && (gen s n).stopHc.any (fun x => decide (h ≤ x)))

end Sys2Proof.Machine
end

