-- ==== Sys2Proof/Machine/CopyData.lean ====
section
/-! DEFINITION. What a copy moves: its elements in the order of the destination's linear index, its conversions, the
granules and words that it reads and writes, and poison (09_scratchpad_copy.md R214, R220–R222, R224, R234, R389;
04_number_formats.md R88, R94, R100, R102). -/
namespace Sys2Proof.Machine
open Sys2Proof

/-! ### Bytes by address (R25) -/

def spadBase : Nat := 2 ^ 40

/-- Pod of a scratchpad address. -/
def spadPod (a : Nat) : Nat := (a - spadBase) / 0x200000
def spadOff (a : Nat) : Nat := (a - spadBase) % 0x200000

/-- The code word that holds a byte: a memory granule or a scratchpad word (R276). -/
def unitBytes (a : Nat) : Nat := if a < spadBase then 64 else 32
def unitOf (a : Nat) : Nat := a - a % unitBytes a

/-- The code word at an address reads as uncorrectable or poisoned. -/
def unitBad (s : State) (a : Nat) : Bool :=
  if a < spadBase then
    match locate s a with
    | some l => eccBad hullF (granuleOvl s l.pg)
    | none => false
  else wordBad (pod s (spadPod a)) (spadOff a / 32)

/-- Some code word of the module carries an error or poison. -/
def anyErr (s : State) : Bool := !s.memErr.isEmpty || s.pods.any (fun p => !p.2.errs.isEmpty)

/-- `n` bytes at a memory or scratchpad address. -/
def byteRead (s : State) (a n : Nat) : Nat :=
  if a < spadBase then memRead s a n else spadRead (pod s (spadPod a)) (spadOff a) n

/-- Poison a code word (R278). -/
def poisonUnit (s : State) (a : Nat) : State :=
  if a < spadBase then
    match locate s a with
    | some l => poisonGranule s l
    | none => s
  else modPod s (spadPod a) (fun p => { p with errs := tset p.errs (spadOff a / 32) (poisonOf huskF) })

/-- Report the read of a code word by a copy channel; the answer says whether it was corrected (R281, R286). -/
def noteUnit (s : State) (a part : Nat) : State × Bool :=
  if a < spadBase then
    match locate s a with
    | some l =>
      let o := granuleOvl s l.pg
      (noteRead (accessed s l false) l 1 part o, match eccDecode hullF o with | .corrected _ => true | _ => false)
    | none => (s, false)
  else
    let g := spadPod a
    match eccDecode huskF (tget 0 (pod s g).errs (spadOff a / 32)) with
    | .clean => (s, false)
    | .corrected y => (notePodCorrected s g (y.headD (0, 0)).1 1, true)
    | _ => (notePodBad s g part (rd s (podReg g 0xA18)), false)

/-- Report the read of a code word that a narrow write merges into (R281, R286, R295). -/
def noteMerge (s : State) (a part : Nat) : State :=
  if a < spadBase then
    match locate s a with
    | some l => noteRead (accessed s l false) l 8 part (granuleOvl s l.pg)
    | none => s
  else
    let g := spadPod a
    match eccDecode huskF (tget 0 (pod s g).errs (spadOff a / 32)) with
    | .clean => s
    | .corrected y => notePodCorrected s g (y.headD (0, 0)).1 8
    | _ => notePodBad s g part (rd s (podReg g 0xA18))

/-- A memory granule that a copy or a span writes was carried by a slot of its channel's owner; where there is none
SERVICE slots carry it, and it may take an armed fault (R255, R256, R293). -/
def carried (s : State) (l : Loc) (own : Nat → Bool) : State := if own l.st then s else takeFlip s l

/-- Write `n` bytes of a scratchpad word or granule at `a`: the whole code word afresh, or merged into it (R279, R280).
`mask` has a bit for each byte written; `own` says of a stack whether the writer has slots of its own there. -/
def unitWrite (s : State) (a mask v part : Nat) (own : Nat → Bool) : State :=
  let n := unitBytes a
  let full := mask == 2 ^ n - 1
  let wide := foldNat n (fun k m => m + (if bit mask k then 255 <<< (8 * k) else 0)) 0
  let merged := fun old => (old ^^^ (old &&& wide)) ||| (v &&& wide)
  if a < spadBase then
    match locate s a with
    | none => s
    | some l =>
      if full then carried (putGranule (accessed s l true) l v 0) l own
      else
        let o := granuleOvl s l.pg
        let data := merged (granuleData s l.pg)
        carried (putGranule (accessed (noteMerge s a part) l true) l data (if eccBad hullF o then poisonOf hullF else 0)) l own
  else
    let g := spadPod a
    let off := spadOff a
    let bad := !full && wordBad (pod s g) (off / 32)
    let x := if full then v else merged (spadRead (pod s g) off 32)
    modPod (if full then s else noteMerge s a part) g (fun p =>
      let p := spadPut p off 32 x
      if bad then { p with errs := tset p.errs (off / 32) (poisonOf huskF) } else p)

/-! ### Elements -/

/-- Index vector of linear index `k` in a tensor, dimension 0 fastest (R102). -/
def idxVec (d k : Nat) : List Nat :=
  (dims.foldl (fun (a : Nat × List Nat) i => (a.1 / tdExt d i, a.2 ++ [a.1 % tdExt d i])) (k, [])).2

/-- Position of an element (R214). -/
def posOf (d : Nat) (iv : List Nat) : Int := ((dims.map (fun i => tdStr d i * (nth 0 iv i : Int)))).sum

/-- Where an element lies: its first byte, how many bytes hold it, and its bit offset in them (R88, R214). -/
structure ElemLoc where
  addr : Nat
  n : Nat
  off : Nat
  deriving DecidableEq, Repr

/-- `shift` is the number of bytes by which an iteration moves BASE (R220). -/
def elemLoc (d : Nat) (shift : Int) (iv : List Nat) : ElemLoc :=
  let t := tdType d
  let p := posOf d iv
  let (lo, hi) := posBytes t p
  let a := ((tdBase d : Int) + shift + lo).toNat
  ⟨a, (hi - lo + 1).toNat, if t = 7 ∨ t = 9 then 4 * (p % 2).toNat else if t = 5 ∨ t = 6 then 6 * (p % 4).toNat else 0⟩

def elemRead (s : State) (t : Nat) (x : ElemLoc) : Nat := bits (byteRead s x.addr x.n) x.off (elemBits t)

/-- Code words that hold an element. -/
def elemUnits (x : ElemLoc) : List Nat := [unitOf x.addr, unitOf (x.addr + x.n - 1)].dedup

/-- A write of an element: its place and its bits. -/
structure ElemWrite where
  loc : ElemLoc
  val : Nat
  deriving DecidableEq, Repr

/-- Work that a copy does as a whole: what it reads, what it writes, the destination elements it makes and the
conversion flags of each. -/
structure CopyItem where
  units : List Nat
  writes : List ElemWrite
  elems : Nat
  flags : List Nat := []
  deriving DecidableEq, Repr

/-- Everything that a copy's elements depend on besides memory. -/
structure CopyJob where
  img : Nat
  iter : Nat
  src : Option Nat                 -- tensors
  dst : Option Nat
  ss : Option Nat
  ds : Option Nat
  seed : Nat
  step : Nat
  deriving DecidableEq, Repr

def jobOf (s : State) (p img iter : Nat) : CopyJob where
  img := img
  iter := iter
  src := tensorAt s p (cdSrc img)
  dst := tensorAt s p (cdDst img)
  ss := tensorAt s p (cdSrcScale img)
  ds := tensorAt s p (cdDstScale img)
  seed := (part s p).seed
  step := (part s p).step

def CopyJob.srcShift (j : CopyJob) (t : Nat) (div : Int) : Int := stepBytes t (j.iter * (cdSrcStep j.img / div))
def CopyJob.dstShift (j : CopyJob) (t : Nat) (div : Int) : Int := stepBytes t (j.iter * (cdDstStep j.img / div))

/-- Source index vector of a destination element: dimension PERM[d] of the source takes index d (R220). -/
def CopyJob.srcVec (j : CopyJob) (iv : List Nat) : List Nat :=
  dims.map (fun k => match dims.find? (fun i => cdPerm j.img i == k) with
    | some i => nth 0 iv i
    | none => 0)

def CopyJob.srcLoc (j : CopyJob) (sd : Nat) (iv : List Nat) : ElemLoc := elemLoc sd (j.srcShift (tdType sd) 1) (j.srcVec iv)

/-- Index vector of an element's scale: one for each 32 along dimension 0 (R92). -/
def scaleVec (iv : List Nat) : List Nat := nth 0 iv 0 / 32 :: iv.drop 1

/-- Rounding of destination element `k` (R95, R101, R102, R221). -/
def CopyJob.rnd (j : CopyJob) (dd k : Nat) : Rnd :=
  match bits (cdConv j.img) 0 2 with
  | 0 => .rne
  | 1 => .rtz
  | _ => .sr (srWord j.seed j.step (bits (cdConv j.img) 4 16) (j.iter * tdCount dd + k))

def CopyJob.sat (j : CopyJob) : Bool := bit (cdConv j.img) 2

/-- Element `k` of a copy without a block-scaled destination. -/
def copyElem (s : State) (j : CopyJob) (sd dd k : Nat) : CopyItem :=
  let iv := idxVec dd k
  let sl := j.srcLoc sd iv
  let dl := elemLoc dd (j.dstShift (tdType dd) 1) iv
  let raw := elemRead s (tdType sd) sl
  if !cdConvert j.img then ⟨elemUnits sl, [⟨dl, raw⟩], 1, []⟩
  else match j.ss with
    | some sc =>
      let cl := elemLoc sc (j.srcShift (tdType sc) 32) (scaleVec (j.srcVec iv))
      let v := scaled (elemRead s (tdType sc) cl) (elemVal (tdType sd) raw)
      let (o, f) := encElem (tdType dd) (j.rnd dd k) j.sat v
      ⟨(elemUnits sl ++ elemUnits cl).dedup, [⟨dl, o⟩], 1, [f ||| fl v.isNan fNanIn]⟩
    | none =>
      let v := elemVal (tdType sd) raw
      let (o, f) := encElem (tdType dd) (j.rnd dd k) j.sat v
      ⟨elemUnits sl, [⟨dl, o⟩], 1, [f ||| fl v.isNan fNanIn]⟩

/-- Flags of each element of a quantised block (R94). -/
def blockFlags (t : Nat) (rn : Nat → Rnd) (vs : List Val) : List Nat :=
  if vs.any (fun v => v.isNan || v.isInf) then
    vs.map (fun v => fl (v.isNan || v.isInf) fInvalid ||| fl v.isNan fNanIn)
  else
    let (m, e) := maxMag vs
    if m = 0 then vs.map (fun _ => 0)
    else
      let x : Int := max (-127) (min 127 ((m.log2 : Int) + e - mxEmax t))
      vs.mapIdx (fun i v => (encElem t (rn i) true (v.mul (.fin false 1 (-x)))).2)

/-- Block `b` of a destination line, quantised with its scale (R94, R221, R389). `line` is the linear index of the
line's first element. -/
def copyBlock (s : State) (j : CopyJob) (sd dd sc line b : Nat) : CopyItem :=
  let n := min 32 (tdExt dd 0 - 32 * b)
  let ks := (List.range n).map (fun i => line + 32 * b + i)
  let ivs := ks.map (idxVec dd)
  let sls := ivs.map (j.srcLoc sd)
  let vals := sls.map (fun l => elemVal (tdType sd) (elemRead s (tdType sd) l))
  let rn := fun i => j.rnd dd (nth 0 ks i)
  let (x, els, _) := quantBlock (tdType dd) rn vals
  let cl := elemLoc sc (j.dstShift (tdType sc) 32) (scaleVec (ivs.headD []))
  ⟨(sls.flatMap elemUnits).dedup,
   (ivs.zip els).map (fun e => ⟨elemLoc dd (j.dstShift (tdType dd) 1) e.1, e.2⟩) ++ [⟨cl, x⟩], n,
   blockFlags (tdType dd) rn vals⟩

/-- All the work of a local copy, in the order of the destination's linear index. -/
def copyItems (s : State) (j : CopyJob) : List CopyItem :=
  match j.dst with
  | none => []
  | some dd =>
    if cdOp j.img = 2 then
      (List.range (tdCount dd)).map (fun k =>
        ⟨[], [⟨elemLoc dd (j.dstShift (tdType dd) 1) (idxVec dd k), cdHandle j.img % 2 ^ elemBits (tdType dd)⟩], 1, []⟩)
    else match j.src, j.ds with
      | some sd, some sc =>
        (List.range (tdCount dd / tdExt dd 0)).flatMap (fun l =>
          (List.range (ceilDiv' (tdExt dd 0) 32)).map (fun b => copyBlock s j sd dd sc (l * tdExt dd 0) b))
      | some sd, none => (List.range (tdCount dd)).map (copyElem s j sd dd)
      | none, _ => []

/-- Bytes of code words to be written: unit address to byte mask and value. Unused fields of a last group are 0
(R88). -/
abbrev UnitMap := Tbl (Nat × Nat)

def putByte (m : UnitMap) (a v : Nat) : UnitMap :=
  let u := unitOf a
  let (k, x) := tget (0, 0) m u
  tset m u (k ||| 2 ^ (a - u), x ||| (v <<< (8 * (a - u))))

def putElem (m : UnitMap) (w : ElemWrite) : UnitMap :=
  foldNat w.loc.n (fun i m => putByte m (w.loc.addr + i) (bits (w.val <<< w.loc.off) (8 * i) 8)) m

def unitMap (items : List CopyItem) : UnitMap := items.foldl (fun m x => x.writes.foldl putElem m) []

/-- Bytes that a mask names. -/
def maskCount (mask : Nat) : Nat := ((List.range 64).filter (fun i => bit mask i)).length

/-- Bytes that another writer reached while the copy was in flight hold undefined values once both are complete
(R224). -/
def blur (s : State) (touched : List (Nat × Nat)) (m : UnitMap) : State × UnitMap :=
  if touched.isEmpty then (s, m)
  else m.foldl (fun (a : State × UnitMap) e =>
    let hit := (List.range (unitBytes e.1)).filter (fun i =>
      bit e.2.1 i && touched.any (fun t => decide (t.1 ≤ e.1 + i ∧ e.1 + i < t.1 + t.2)))
    hit.foldl (fun (a : State × UnitMap) i =>
      let v := (Config.free 8 a.1.freeCtr).toNat
      let (k, x) := tget (0, 0) a.2 e.1
      (nextFree a.1, tset a.2 e.1 (k, (x ^^^ (x &&& (255 <<< (8 * i)))) ||| (v <<< (8 * i))))) a) (s, m)

/-- How a copy's data movement ended: the state, bytes written and not poisoned, whether a read was corrected, the
address of an uncorrectable read where one halted it, and the destination bytes reached. -/
structure CopyEnd where
  s : State
  bytes : Nat
  corrected : Bool
  bad : Option Nat
  elems : Nat
  flags : List Nat
  reached : List (Nat × Nat)
  deriving DecidableEq, Repr

/-- Move a copy's data. An uncorrectable read ends it: what the bad word would have filled is poisoned, and the rest is
not run (R234). A narrow write that meets a bad word of the destination halts it in the same way; the word's read is
reported, and it is written back poisoned (R280–R282). -/
def moveCopy (s : State) (p : Nat) (items : List CopyItem) (touched : List (Nat × Nat)) (own : Nat → Bool) : CopyEnd :=
  let s := freshSpads s
  let err := anyErr s
  let all := unitMap items
  let badDst := if err then (all.filter (fun e => e.2.1 != 2 ^ unitBytes e.1 - 1 && unitBad s e.1)).map (·.1) else []
  let badAt := fun (x : CopyItem) =>
    ((x.units.find? (unitBad s)).map (fun u => (u, false))).or
      (((x.writes.map (fun w => unitOf w.loc.addr)).find? badDst.contains).map (fun u => (u, true)))
  let stop := if err then items.findIdx? (fun x => (badAt x).isSome) else none
  let run : List CopyItem := match stop with | some i => items.take i | none => items
  let bad := stop.bind (fun i => (items[i]?).bind badAt)
  let read : List CopyItem := match stop with | some i => items.take (i + 1) | none => items
  let seen := (read.flatMap (fun x => x.units)).dedup
  let r := seen.foldl (fun (a : State × Bool) u =>
    let (s, c) := noteUnit a.1 u p
    (s, a.2 || c)) (s, false)
  let um := if stop.isNone then all else unitMap run
  let (s, um) := blur r.1 touched um
  let s := um.foldl (fun s e => unitWrite s e.1 e.2.1 e.2.2 p own) s
  let lost := match bad with
    | none => []
    | some (u, true) => [u]
    | some (u, false) => ((items.filter (fun x : CopyItem => x.units.contains u)).flatMap (fun x : CopyItem => x.writes.map (fun w : ElemWrite => unitOf w.loc.addr))).dedup
  let s := match bad with | some (u, true) => noteMerge s u p | _ => s
  let s := lost.foldl poisonUnit s
  { s := s
    bytes := ((um.filter (fun e => !lost.contains e.1)).map (fun e => maskCount e.2.1)).sum
    corrected := r.2
    bad := bad.map Prod.fst
    elems := (run.map (·.elems)).sum
    flags := run.flatMap (·.flags)
    reached := um.map (fun e => (e.1, unitBytes e.1)) }

/-- Poison the whole destination of a copy (R235–R237). -/
def poisonDest (s : State) (j : CopyJob) : State :=
  ((unitMap (copyItems s j)).map (·.1)).foldl poisonUnit s

/-- Bytes of one iteration of a REMOTE copy, packed densely in the order of the source's linear index (R222), with the
first byte whose source reads bad. -/
def remoteBytes (s : State) (j : CopyJob) (sd : Nat) : Nat × Nat × Option (Nat × Nat) :=
  let n := tdCount sd
  let t := tdType sd
  let w := elemBits t
  let at' := fun k => elemLoc sd (j.srcShift t 1) (idxVec sd k)
  let place := fun k => if w = 6 then 24 * (k / 4) + 6 * (k % 4) else w * k
  let v := foldNat n (fun k v => v ||| (elemRead s t (at' k) <<< place k)) 0
  let bad := if anyErr s then
      (List.range n).findSome? (fun k => ((elemUnits (at' k)).find? (unitBad s)).map (fun u => (place k / 8, u)))
    else none
  (v, denseBytes t n, bad)

/-- Code words that a REMOTE copy reads. -/
def remoteUnits (j : CopyJob) (sd : Nat) : List Nat :=
  ((List.range (tdCount sd)).flatMap (fun k => elemUnits (elemLoc sd (j.srcShift (tdType sd) 1) (idxVec sd k)))).dedup

end Sys2Proof.Machine
end

