-- ==== Sys2Proof/Machine/Burin.lean ====
section
/-! DEFINITION. The burin: launch of a stroke, loops, hatch-wide waits, and the control and pod-network strokes
(03_hatch_timing.md R65–R74, R84, R524, R525; 02 R56). -/
namespace Sys2Proof.Machine
open Sys2Proof

/-- After a stroke's effect: move on, with LOOP and PROGRAM_END faults (R71, R84). -/
def afterLaunch (s : State) (n g t from' : Nat) : State :=
  if !canLaunch s n t then s
  else
    let p := pod s g
    let (b, bad) := moveOn p.burin t from'
    if bad then strokeFault s n g t 4 p.burin.idx
    else
      let s := setPod s g { p with burin := b }
      if b.prog.length ≤ b.idx then strokeFault s n g (t + 1) 5 p.burin.idx else s

/-- The launch of pod `g`'s next stroke, which must be operation `op` of `unit`. `res` is the mask of the bits that
the unit's table leaves reserved; `eff` is the stroke's effect: hatch, launch hc, stroke, index. A hatch whose clock
delivers no edge, a burin at a wait, or another stroke at its index: nothing launches. -/
def launchWith (s : State) (g unit : Nat) (match' : Nat → Bool) (res : Nat → Nat) (move : Bool)
    (eff : State → Nat → Nat → Nat → Nat → State) : State :=
  let p := pod s g
  match p.hatch, p.burin.prog[p.burin.idx]? with
  | some n, some wv =>
    let w := wv.toNat
    if !canLaunch s n (launchHc p.burin w) || p.burin.waiting || !match' w then s
    else
      let t := launchHc p.burin w
      let idx := p.burin.idx
      let s := advance s n t
      if !canLaunch s n t then s
      else
        let s := modGen (reachHc s n t) n (fun x => { x with hang := 0 })
        let b := (pod s g).burin
        let o := tget 0 b.errs (idx / 2)
        let s := noteStore s g o
        if eccBad huskF o then eccFault s n g t [1 + idx * 256]
        else if issueFault b t unit then strokeFault s n g t 1 idx
        else if bits w 28 4 != 0 || (w &&& res w) != 0 || !strokeDefined (strokeUnit w) (strokeOp w) then
          strokeFault s n g t 2 idx
        else
          let s := modPod s g (fun p => { p with burin := noteLaunch p.burin t unit })
          let s := eff s n t w idx
          if move then afterLaunch s n g t t else s
  | _, _ => s

/-- As `launchWith`, for one operation of a unit whose stroke moves on by itself. -/
def launch (s : State) (g unit op : Nat) (res : Nat) (eff : State → Nat → Nat → Nat → Nat → State) : State :=
  launchWith s g unit (fun w => strokeUnit w == unit && strokeOp w == op) (fun _ => res) true eff

/-- Reserved mask: bits `lo … hi` of the stroke. -/
def resv (lo hi : Nat) : Nat := (2 ^ (hi + 1 - lo) - 1) <<< lo

/-! ### Control strokes (R524) -/

/-- NOP: launches and does nothing. A stroke whose UNIT or OP is not defined is launched here too, as the stroke
fault BAD_UNIT that it is (R70, R84). -/
def nopStroke (s : State) (g : Nat) : State :=
  launchWith s g 0 (fun w => (strokeUnit w == 0 && strokeOp w == 0) || !strokeDefined (strokeUnit w) (strokeOp w))
    (fun w => if strokeUnit w = 0 then resv 32 127 else 0) true (fun s _ _ _ _ => s)

def execNop (g : Fin 256) (s : State) : Out := .next (nopStroke s g)

/-- LOOP (R71): a frame opens, or the stroke is a LOOP fault. -/
def loopStroke (s : State) (g : Nat) : State :=
  launchWith s g 0 (fun w => strokeUnit w == 0 && strokeOp w == 1) (fun _ => resv 48 63) false (fun s n t w idx =>
    let b := (pod s g).burin
    let len := bits w 32 16
    let cnt := bits w 64 32
    let deep := if b.version = 1 then 2 else 4
    if len = 0 || cnt = 0 || decide (b.prog.length < idx + 1 + len) || decide (deep ≤ b.loops.length) then
      strokeFault s n g t 4 idx
    else
      modPod s g (fun p => { p with burin := { b with
        idx := idx + 1
        base := t
        loops := ⟨idx + 1, len, cnt - 1, bits w 96 32, t, false, t⟩ :: b.loops } }))

def execLoop (g : Fin 256) (s : State) : Out := .next (loopStroke s g)

/-- PHASE: the burin of the hatch's lowest pod selects the phase that governs from the steward's next grant (R397). -/
def phaseStroke (s : State) (g : Nat) : State :=
  launch s g 0 2 (resv 36 127) (fun s n t w idx =>
    if g = hatchLow n then
      (if (part s (gen s n).part).phases ≤ bits w 32 4 then strokeFault s n g t 2 idx
       else modGen s n (fun x => { x with newPhase := bits w 32 4, pwr := { x.pwr with fresh := true } }))
    else s)

def execPhase (g : Fin 256) (s : State) : Out := .next (phaseStroke s g)

/-- END_STEP: the burin continues with stroke 0, whose DELTA counts from here; inside a LOOP body it is a LOOP fault. -/
def endStepStroke (s : State) (g : Nat) : State :=
  launchWith s g 0 (fun w => strokeUnit w == 0 && strokeOp w == 3) (fun _ => resv 32 127) false (fun s n t _ idx =>
    if (pod s g).burin.loops.isEmpty then
      modPod s g (fun p => { p with burin := { p.burin with idx := 0, base := t } })
    else strokeFault s n g t 4 idx)

def execEndStep (g : Fin 256) (s : State) : Out := .next (endStepStroke s g)

/-- DELAY (R71): the next stroke counts from COUNT hc later; version 1 does not define it. -/
def delayStroke (s : State) (g : Nat) : State :=
  launchWith s g 0 (fun w => strokeUnit w == 0 && strokeOp w == 4) (fun _ => resv 64 127) false (fun s n t w idx =>
    if (pod s g).burin.version = 1 then strokeFault s n g t 2 idx
    else afterLaunch s n g t (t + bits w 32 32))

def execDelay (g : Fin 256) (s : State) : Out := .next (delayStroke s g)

/-! ### Hatch-wide waits (R72) -/

/-- A burin reaches a hatch-wide wait: the first fixes its hc and operands, the others must agree (WAIT_SPLIT). A wait
that is its program's last stroke stops the clock in the next hc as any other would (PROGRAM_END, R84). -/
def joinWait (s : State) (n g t kind arg idx : Nat) : State :=
  let x := gen s n
  let b := (pod s g).burin
  let ends := !(moveOn b t t).2 && decide (b.prog.length ≤ (moveOn b t t).1.idx)
  let stand := fun s =>
    let s := modPod s g (fun p => { p with burin := { p.burin with waiting := true } })
    if ends then strokeFault s n g (t + 1) 5 idx else s
  if x.waitKind = 0 then
    stand (modGen s n (fun x => { x with waitKind := kind, waitAt := t, waitArg := arg, waitPods := 1,
                                         sleepDelay := rd s (podReg (hatchLow n) 0x204) }))
  else if x.waitKind = kind ∧ x.waitAt = t ∧ x.waitArg = arg then
    stand (modGen s n (fun x => { x with waitPods := x.waitPods + 1 }))
  else strokeFault s n g t 3 idx

/-- PERMIT_WAIT starts waiting on the partition's permit (R56). -/
def permitWaitStroke (s : State) (g : Nat) : State :=
  launchWith s g 10 (fun w => strokeUnit w == 10 && strokeOp w == 1) (fun _ => resv 32 127) false
    (fun s n t _ idx => joinWait s n g t 1 0 idx)

def execPermitWait (g : Fin 256) (s : State) : Out := .next (permitWaitStroke s g)

/-- A wait of the hatch is released at cycle `r`: every burin goes on from it (R72), and the iterations that hold the
wait take it as their base (R71). -/
def releaseWait (s : State) (n c : Nat) : State :=
  let r := c + 4
  let s := reachHc s n c
  let s := modGen s n (fun x => { x with st := .running, waitKind := 0, waitPods := 0, hang := 0 })
  (hatchPods s n).foldl (fun s g =>
    let p := pod s g
    if p.burin.waiting then
      let b := { p.burin with waiting := false, loops := p.burin.loops.map (fun f => { f with base := r, based := true }) }
      let (b', bad) := moveOn b b.curHc r
      if bad then strokeFault s n g c 4 b.idx
      else
        let s := setPod s g { p with burin := b' }
        if b'.prog.length ≤ b'.idx then strokeFault s n g c 5 b.idx else s
    else s) s

/-- Every burin of the hatch stands at the wait, whose condition is looked at from the edge after its launch (R72). -/
def waitReady (s : State) (n c : Nat) : Bool :=
  let x := gen s n
  (x.st == .running || x.st == .sleeping) && !x.faulted && x.waitKind != 0 && x.waitPods == x.size && decide (x.waitAt < c)

/-- An access that an application core made before the partition's latest permit write still waits for its slot (R57). -/
def fenced (s : State) (p : Nat) : Bool := s.pods.any (fun e => e.2.svc.any (fun x => x.fence.contains p))

/-- The hatch's next permit wait: passes on a step already released, else takes an outstanding permit (R56). DESIGN
CHOICE (log entry 14): a permit is taken while ACTIVE is RUNNING; a hatch that starts during ACTIVATING waits until then. -/
def permitRelease (s : State) (n c : Nat) : State :=
  let x := gen s n
  let q := part s x.part
  if x.permitWaits < q.released then
    releaseWait (modGen s n (fun x => { x with permitWaits := x.permitWaits + 1 })) n c
  else if 0 < q.permits && q.active == 2 && !fenced s x.part then
    let s := setPart s x.part { q with permits := q.permits - 1, released := q.released + 1 }
    releaseWait (modGen s n (fun x => { x with permitWaits := x.permitWaits + 1 })) n c
  else s

/-- No stroke is in flight in any unit of a pod (R67). -/
def podIdle (p : Pod) : Bool :=
  p.pipe0.rows.isEmpty && p.pipe1.rows.isEmpty && p.pipe0.stip.isNone && p.pipe1.stip.isNone &&
    p.pipe0.ptReads.isEmpty && p.pipe1.ptReads.isEmpty && p.mxa.loads.isEmpty && p.mxa.streams.isEmpty &&
    p.mxa.rows.isEmpty && p.xfers.isEmpty && p.sends.isEmpty && p.landing.isEmpty && p.spadPend.isEmpty &&
    p.tilePend.isEmpty

/-- Transfer rows due in the tiles of a hatch by hc `h`, with their clashes (R138, R210). -/
def arriveTiles (s : State) (n h : Nat) : State :=
  (hatchPods s n).foldl (fun s g =>
    let (p, cl) := settleTiles g (pod s g) h
    let s := setPod s g p
    if cl.isEmpty then s else unitFault s n g h (podReg g 0x610) cl 3) (arrive s n h)

/-- SLEEPING after POD_SLEEP_DELAY hc at a common wait with nothing in flight; a delay of 0 disables it (R67). -/
def hatchSleep (s : State) (n : Nat) : State :=
  let x := gen s n
  let due := (hatchPods s n).flatMap (fun g => (pod s g).tilePend.map (·.hc) ++ (pod s g).spadPend.map (·.vis))
  let h := due.foldl max (x.waitAt + x.sleepDelay)
  if running s n && x.waitKind != 0 && x.waitPods == x.size && x.sleepDelay != 0 then
    let u := arriveTiles s n h
    if !running u n then u
    else if (hatchPods u n).all (fun g => podIdle (pod u g)) then
      modGen (reachHc u n h) n (fun x => { x with st := .sleeping })
    else s
  else s

def execHatchSleep (n : Fin 32) (s : State) : Out := .next (hatchSleep s n)

/-! ### Pod-network send (R74, R525) -/

/-- Latency of a route between two pods of a die (R74). -/
def routeLat (a b : Nat) : Nat :=
  let o := fun g => (g % 128) / 8
  let d := fun x y : Nat => (x - y) + (y - x)
  20 + 2 * (d (o a % 8) (o b % 8) + d (o a / 8) (o b / 8))

/-- SEND: flits leave the sender one an hc from the launch (R525). -/
def sendStroke (s : State) (g : Nat) : State :=
  launch s g 5 1 (resv 39 47 + resv 88 127) (fun s n t w idx =>
    let dst := 128 * (g / 128) + bits w 32 7
    let src := bits w 48 16
    let dw := bits w 64 16
    let fl := bits w 80 8 + 1
    if !(hatchPods s n).contains dst || decide (65536 < src + 2 * fl) || decide (65536 < dw + 2 * fl) then
      strokeFault s n g t 7 idx
    else modPod s g (fun p => { p with sends := p.sends ++ [⟨t, dst, src, dw, fl, routeLat g dst, idx, 0, 0, []⟩] }))

def execSend (g : Fin 256) (s : State) : Out := .next (sendStroke s g)

/-- The next flit of pod `g` to reach its destination, `L − 4` hc after it was read; consumable 4 hc later. -/
def sendDelivery (s : State) (g : Nat) : State :=
  let p := pod s g
  match p.hatch, (p.sends.map (fun x => x.t + x.nextWrite + x.lat - 4)).min? with
  | some n, some h =>
    let s := arrive s n h
    if !running s n then s
    else
      let p := pod s g
      let i := p.sends.findIdx (fun x => x.t + x.nextWrite + x.lat - 4 == h)
      match p.sends[i]? with
      | none => s
      | some x =>
        let s := reachHc s n h
        let k := x.nextWrite
        let v := ((x.data.find? (fun e => e.1 == k)).map Prod.snd).getD 0
        let x' := { x with nextWrite := k + 1, data := x.data.filter (fun e => e.1 != k) }
        let s := modPod s g (fun p => { p with sends :=
          if x'.nextWrite = x.flits then p.sends.eraseIdx i else p.sends.set i x' })
        let wd := x.dstW + 2 * k
        let (q, clash) := portAccess (pod s x.dst) h [] [(wd, x.idx), (wd + 1, x.idx)]
        let s := setPod s x.dst { q with spadPend := q.spadPend ++ [⟨h + 4, h, x.t + k, g, 32 * wd, 64, v⟩] }
        if clash.isEmpty then s
        else unitFault s n x.dst h (podReg x.dst 0xA00) (clash.map (fun i => 1 + i * 256)) 5
  | _, _ => s

def execSendFlitDelivery (g : Fin 256) (s : State) : Out := .next (sendDelivery s g)

end Sys2Proof.Machine
end

