-- ==== Sys2Proof/Machine/Link.lean ====
section
/-! DEFINITION. Link packets, ports, routing and the egress rotation (14_links.md R350–R363). -/
namespace Sys2Proof.Machine
open Sys2Proof

/-! ### Packets -/

/-- One byte through CRC-32 of IEEE 802.3, reflected. -/
def crcBit (c : Nat) : Nat := if bit c 0 then (c >>> 1) ^^^ 0xEDB88320 else c >>> 1
def crcByte (c b : Nat) : Nat := foldNat 8 (fun _ c => crcBit c) (c ^^^ b)
def crc32 (bs : List Byte) : Nat := (bs.foldl (fun c b => crcByte c b.toNat) 0xFFFFFFFF) ^^^ 0xFFFFFFFF

/-- The header unit (R351), without its CRC. -/
def pktHeader (typ vl units hops dst src seq ack credits body flags rsv : Nat) : Nat :=
  fld 0 8 typ + fld 8 8 vl + fld 16 8 units + fld 24 8 hops + fld 32 16 dst + fld 48 16 src + fld 64 32 seq +
    fld 96 32 ack + fld 128 64 credits + fld 192 256 body + fld 448 8 flags + fld 456 24 rsv

/-- CRC over header bytes 0x00 to 0x3B and then the payload (R351). -/
def pktCrc (hdr : Nat) (payload : List Byte) : Nat := crc32 (leBytes 60 hdr ++ payload)

/-- Header of a received packet of type `typ`. -/
def rxHeader (typ : Nat) (p : Packet) : Nat :=
  pktHeader typ p.vl.toNat p.units.toNat p.hops.toNat p.dst.toNat p.src.toNat p.seq.toNat p.ack.toNat p.credits.toNat
    p.body.toNat p.flags.toNat p.rsv.toNat

/-- A received packet is whole: every codeword decoded, its payload is its UNITS, and its CRC agrees (R350). -/
def rxWhole (typ : Nat) (p : Packet) : Bool :=
  p.uncorrected == 0 && p.payload.length == 64 * p.units.toNat && pktCrc (rxHeader typ p) p.payload == p.crc.toNat

/-- Type codes (R351). -/
def tSpan : Nat := 1
def tSync : Nat := 2
def tLate : Nat := 3
def tFreeze : Nat := 4
def tSpanAck : Nat := 0x10
def tSpanRefused : Nat := 0x11
def tSyncBroken : Nat := 0x12
def tUnreachable : Nat := 0x13
def tIdle : Nat := 0x20

/-! ### Ports -/

def port (s : State) (k : Nat) : Port := tget {} s.ports k
def setPort (s : State) (k : Nat) (x : Port) : State := { s with ports := tset s.ports k x }
def modPort (s : State) (k : Nat) (f : Port → Port) : State := setPort s k (f (port s k))

def portReg (k o : Nat) : Nat := rylReg (k / 8) (0x100 + 0x40 * (k % 8) + o)
/-- STATE of RYL_PORT_STATE: 0 DOWN, 1 TRAINING, 2 UP, 3 DEGRADED, 4 FAILED, 5 ETHERNET (R376). -/
def portSt (s : State) (k : Nat) : Nat := bits (rd s (portReg k 0)) 0 3
def portVersion (s : State) (k : Nat) : Nat := bits (rd s (portReg k 0)) 16 2
def portLanes (s : State) (k : Nat) : Nat := bits (rd s (portReg k 0)) 3 4
def portCarries (s : State) (k : Nat) : Bool := portSt s k == 2 || portSt s k == 3

/-- A change of state sets EVENT.PORT_CHANGE (R354). -/
def setPortState (s : State) (k st lanes reason version : Nat) : State :=
  let s := if portSt s k = st then s else setBits s (rylReg (k / 8) 0x10) 1
  wr s (portReg k 0) (st + fld 3 4 lanes + fld 8 3 reason + fld 16 2 version)

/-- Port 14 or 15 runs Ethernet (R369). -/
def ethMode (s : State) (k : Nat) : Bool := decide (14 ≤ k) && bit (rd s (rylReg 1 0x28)) (k - 14)

/-- Ports in Ethernet mode are in state ETHERNET from the boot on (R354, R369). -/
def enterEthernet (s : State) : State :=
  [14, 15].foldl (fun s k => if ethMode s k then setPortState s k 5 0xF 0 0 else s) s

/-- RYL_MODULE_ID is module-wide (R375); a die that has been powered off since the last write reads 0 (R364), and the
other die's copy holds. -/
def moduleIdReg (s : State) : Nat := if rd s (rylReg 0 8) = 0 then rd s (rylReg 1 8) else rd s (rylReg 0 8)

/-- This module's id (R375). -/
def moduleId (s : State) : Nat := bits (moduleIdReg s) 0 14

/-- A port trains only while its die's RYL_MODULE_ID has VALID set (R353). -/
def moduleValid (s : State) (k : Nat) : Bool := bit (rd s (rylReg (k / 8) 8)) 31

/-- Receive units of a virtual lane (R356). -/
def laneUnits : List Nat := [768, 768, 128, 384]

def portQueue (x : Port) (v : Nat) : List LinkPkt := match v with | 0 => x.q0 | 1 => x.q1 | 2 => x.q2 | _ => x.q3
def setQueue (x : Port) (v : Nat) (q : List LinkPkt) : Port :=
  match v with
  | 0 => { x with q0 := q }
  | 1 => { x with q1 := q }
  | 2 => { x with q2 := q }
  | _ => { x with q3 := q }

/-- Every packet that a port holds: unacknowledged first, then its queues. -/
def portAll (x : Port) : List LinkPkt := x.replay ++ x.q0 ++ x.q1 ++ x.q2 ++ x.q3

/-- Credits and sequence numbers are set up again whenever the port trains (R357). -/
def freshPort (x : Port) : Port :=
  { x with
    credits := laneUnits
    owed := [0, 0, 0, 0]
    txSeq := Config.firstSeq.toNat
    rxSeq := Config.firstSeq.toNat
    nak := false
    turn := 0
    drain := false
    replay := []
    bad := [] }

/-- Units leave a receive buffer and will be returned in the next header (R357). -/
def oweUnits (s : State) (k vl units : Nat) : State :=
  modPort s k (fun x => { x with owed := x.owed.modify (vl % 4) (· + (1 + units)) })

/-- The next header's 64-byte unit for a packet, and the port after it: ACK, CREDITS and NAK travel with it
(R351, R359). -/
def stampHeader (x : Port) (p : LinkPkt) : Nat × Port :=
  let o := x.owed
  let credits := fld 0 16 (nth 0 o 0) + fld 16 16 (nth 0 o 1) + fld 32 16 (nth 0 o 2) + fld 48 16 (nth 0 o 3)
  let ack := (x.rxSeq + (2 ^ 32 - 1)) % 2 ^ 32
  let h := pktHeader p.typ p.vl p.units p.hops p.dst p.src p.seq ack credits p.body (b2n x.nak) 0
  (h + fld 480 32 (pktCrc h (leBytes (64 * p.units) p.data)), { x with owed := [0, 0, 0, 0], nak := false })

/-- Send one packet on the wire. -/
def putWire (s : State) (k : Nat) (p : LinkPkt) : State :=
  let (h, x) := stampHeader (port s k) p
  let s := emit (setPort s k x) (.packet k h p.units p.data)
  bump s (portReg k 0x10) (1 + p.units)

/-- An IDLE packet: it carries only credits and acknowledgements, takes no credit and no number of its own, and its
SEQ is open (R352). -/
def sendIdle (s : State) (k : Nat) : State :=
  let seq := (Config.free 32 s.freeCtr).toNat
  putWire (nextFree s) k { typ := tIdle, vl := 0, units := 0, hops := 0, dst := bits (rd s (portReg k 8)) 0 14,
                           src := moduleId s, body := 0, seq := seq }

/-- The rotation of R358. -/
def rotation : List Nat := [3, 0, 1, 0, 2, 1, 0, 3, 0, 1, 3, 0, 2, 1, 0, 3]

/-- A lane's first packet can be sent: the sender holds its credits (R357). -/
def laneReady (x : Port) (v : Nat) : Bool :=
  match portQueue x v with
  | [] => false
  | p :: _ => decide (1 + p.units ≤ nth 0 x.credits v)

/-- The turn that sends next: lanes without a packet or credits pass theirs at once (R358). -/
def nextTurn (x : Port) : Option Nat :=
  (findNat 16 (fun i => laneReady x (nth 0 rotation ((x.turn + i) % 16)))).map (fun i => (x.turn + i) % 16)

/-- A draining port that has nothing left goes DOWN (R354, R434). -/
def drained (s : State) (k : Nat) : State :=
  let x := port s k
  if x.drain && (portAll x).isEmpty then setPortState (setPort s k { x with drain := false }) k 0 0 5 0 else s

/-- A turn of the egress: one packet goes out, and waits in the replay buffer for its acknowledgement. A forwarded
packet has now left its arrival port's buffer (R357). -/
def egressTurn (s : State) (k : Nat) : State :=
  let x := port s k
  if !portCarries s k then s
  else match nextTurn x with
    | none => s
    | some i =>
      let v := nth 0 rotation i
      match portQueue x v with
      | [] => s
      | p :: q =>
        let p' := { p with seq := x.txSeq, sent := 1 }
        let x := { setQueue x v q with
          turn := (i + 1) % 16
          txSeq := (x.txSeq + 1) % 2 ^ 32
          credits := x.credits.modify v (· - (1 + p.units))
          replay := x.replay ++ [p'] }
        let s := putWire (setPort s k x) k p'
        match p.arr with
        | some a => oweUnits s a p.vl p.units
        | none => s

def execEgressTurn (k : Fin 16) (s : State) : Out := .next (egressTurn s k)

/-- With nothing else to send, an IDLE goes out (R352). -/
def idleTimer (s : State) (k : Nat) : State :=
  if portCarries s k && (nextTurn (port s k)).isNone then sendIdle s k else s

def execIdleTimer (k : Fin 16) (s : State) : Out := .next (idleTimer s k)

/-! ### Routing (R362) -/

/-- Egress port that a table gives for a module: tables 0–7 of the die's ports, 8 its injection table. -/
def routeOf (s : State) (d table m : Nat) : Nat :=
  bits (rd s (rylReg d (0x10000 + 0x2000 * table + 4 * (m / 8)))) (4 * (m % 8)) 4

/-- No packet goes out through a port in FAILED, DOWN or ETHERNET state (R360). -/
def portClosed (s : State) (k : Nat) : Bool := portSt s k == 0 || portSt s k == 4 || portSt s k == 5

/-- Queue a packet that die `d` originates; false where it has no route and is lost at once (R360). -/
def originate (s : State) (d : Nat) (p : LinkPkt) : State × Bool :=
  let e := routeOf s d 8 p.dst
  if portClosed s e then (s, false)
  else (modPort s e (fun x => setQueue x p.vl (portQueue x p.vl ++ [p])), true)

/-- A lost LATE, FREEZE or reply is dropped and logged; every loss sets EVENT.PATH_LOST (R361). -/
def dropPacket (s : State) (d k typ : Nat) : State :=
  logEv (setBits s (rylReg d 0x10) 2) d 0x31 0xFF k typ false

/-- Originate a LATE, FREEZE or reply. -/
def sendSimple (s : State) (d typ vl dst body : Nat) : State :=
  match originate s d { typ := typ, vl := vl, units := 0, hops := 0, dst := dst, src := moduleId s, body := body } with
  | (s, true) => s
  | (s, false) => dropPacket s d (routeOf s d 8 dst) typ

/-- ORIG_ID of an UNREACHABLE reply (R352). -/
def origId (typ body : Nat) : Nat :=
  if typ = tSync then bits body 64 13
  else if typ = tSyncBroken then bits body 0 13
  else if typ = tSpan then bits body 96 32
  else if typ = tSpanAck ∨ typ = tSpanRefused then bits body 0 32
  else 0

/-- Answer UNREACHABLE to a packet's source (R360). -/
def answerUnreachable (s : State) (d src typ body : Nat) (inDoubt : Bool) : State :=
  sendSimple s d tUnreachable 2 src (fld 0 8 typ + fld 32 32 (origId typ body) + fld 64 8 (b2n inDoubt))

/-- In doubt: sent at least once, and at least one attempt drew no NAK (R360). -/
def pktInDoubt (p : LinkPkt) : Bool := decide (p.naked < p.sent)

end Sys2Proof.Machine
end

