-- ==== Sys2Proof/Machine/Lane.lean ====
section
/-! DEFINITION. The query lane's replies, and what voids its promises (14_links.md R372, R374). -/
namespace Sys2Proof.Machine
open Sys2Proof

/-- Lane partition, while boot code has enabled the lane (R370, R376). -/
def lanePart (s : State) : Option Nat :=
  let v := rd s (rylReg 1 0x2C)
  if bit v 3 then some (bits v 0 3) else none

/-- A Jenost header (R372). -/
def jenostHeader (kind cls frag frags id len status served : Nat) : List Byte :=
  leBytes 2 0x514A ++ leBytes 1 1 ++ leBytes 1 kind ++ leBytes 2 cls ++ leBytes 1 frag ++ leBytes 1 (frags - 1) ++
    leBytes 8 id ++ leBytes 4 len ++ leBytes 2 status ++ leBytes 2 0 ++ leBytes 8 served

/-- A reply leaves by the port on which its request's last fragment arrived, while that port is up. -/
def reply (s : State) (p : QPeer) (bytes : List Byte) : State :=
  if portSt s p.port = 5 && dieUp s 1 then emit s (.udp p.port p.ip p.udp bytes) else s

def sendBusy (s : State) (p : QPeer) (cls id : Nat) : State :=
  reply (bump s (rylReg 1 0x48) 1) p (jenostHeader 0x82 cls 0 1 id 0 0 0)

def sendError (s : State) (p : QPeer) (cls id status : Nat) : State :=
  reply (bump s (rylReg 1 0x50) 1) p (jenostHeader 0x83 cls 0 1 id 0 status 0)

/-- Every admitted request in flight is answered ERROR ABORTED (R374). -/
def voidLane (s : State) (p : Nat) : State :=
  if lanePart s == some p then
    let rs := s.lane.steps.flatMap (·.reqs)
    let s := { s with lane := { s.lane with steps := [], est := 0 } }
    let s := if rs.isEmpty then s else setBits s (rylReg 1 0x10) 8
    rs.foldl (fun s r => sendError s r.peer r.cls r.reqId 5) s
  else s

end Sys2Proof.Machine
end

