-- ==== Sys2Proof/Machine/Sync.lean ====
section
/-! DEFINITION. Sync counters: signals, waits, links between counters, breakage, freezing and the counter unit
(13_synchronisation.md R321–R345, 14_links.md R361, R367). -/
namespace Sys2Proof.Machine
open Sys2Proof

def ctr (s : State) (id : Nat) : Ctr := tget {} s.ctrs id
def setCtr (s : State) (id : Nat) (c : Ctr) : State := { s with ctrs := tset s.ctrs id c }
def modCtr (s : State) (id : Nat) (f : Ctr → Ctr) : State := setCtr s id (f (ctr s id))

/-- LIVE or FROZEN (R322). -/
def ctrActive (c : Ctr) : Bool := c.st == 1 || c.st == 3

/-- A partition's counters, on both dies. -/
def ctrsOf (s : State) (p : Nat) : List Nat := (s.ctrs.filter (fun e => e.2.st != 0 && e.2.part == p)).map (·.1)

/-- The counter lies in its partition's block (R321). -/
def inBlock (s : State) (p id : Nat) : Bool :=
  let r := rd s (synReg (id / 4096) (0x20 + 4 * p))
  let i := id % 4096
  decide (bits r 0 12 ≤ i ∧ i < bits r 0 12 + bits r 12 13)

def changes (s : State) (d : Nat) : List Change := if d = 0 then s.changes0 else s.changes1
def setChanges (s : State) (d : Nat) (l : List Change) : State :=
  if d = 0 then { s with changes0 := l } else { s with changes1 := l }

/-- A change arrives at the counter unit of its counter's die (R325). -/
def queueChange (s : State) (d : Nat) (c : Change) : State := setChanges s d (changes s d ++ [c])

/-- This module, as counters name it (R331, R346). -/
def synModule (s : State) : Nat := bits (rd s (synReg 0 4)) 0 14

/-- Destination entries of a counter: ordinal, module and counter (R331, R332). -/
def destsOf (s : State) (id : Nat) : List (Nat × Nat × Nat) :=
  let c := ctr s id
  (List.range c.destCount).map (fun k =>
    let w := (tget (0, 0) s.dests (4096 * (id / 4096) + c.destFirst + k)).1
    (k, bits w 13 14, bits w 0 13))

/-- Remote destinations of a partition's LIVE or FROZEN counters, each once: die of the counter, module, counter. -/
def remoteDests (s : State) (p : Nat) : List (Nat × Nat × Nat) :=
  (((ctrsOf s p).filter (fun id => ctrActive (ctr s id))).flatMap (fun id =>
    ((destsOf s id).filter (fun x => x.2.1 != synModule s)).map (fun x => (id / 4096, x.2.1, x.2.2)))).dedup

/-- LATE or FREEZE to every remote destination of a partition (R340, R367). -/
def floodDests (s : State) (p typ origin ttl : Nat) : State :=
  (remoteDests s p).foldl (fun s x =>
    sendSimple s x.1 typ 3 x.2.1 (fld 0 16 x.2.2 + fld 16 16 origin + fld 32 8 ttl)) s

/-! ### Freezing (R367) -/

/-- Every LIVE counter of a partition becomes FROZEN. -/
def freezeCounters (s : State) (p : Nat) : State :=
  (ctrsOf s p).foldl (fun s id =>
    if (ctr s id).st = 1 then setBits (modCtr s id (fun c => { c with st := 3 })) (synReg (id / 4096) 8) 0x10 else s) s

/-- A partition freezes for a loss of its own, or for a FREEZE of module `origin` that named counter `id`. -/
def freezePart (s : State) (p origin id : Nat) : State :=
  if (part s p).frozen then s
  else
    let s := freezeCounters (modPart s p (fun x => { x with frozen := true })) p
    let s := setBits (setBits s (rylReg 0 0x10) 4) (rylReg 1 0x10) 4
    voidLane (logEv s (id / 4096) 0x32 p origin id false) p

/-- A loss marks its partition where it is in doubt (R368). -/
def markDoubt (s : State) (p : Nat) (inDoubt : Bool) : State :=
  if inDoubt then modPart s p (fun x => { x with inDoubt := true }) else s

/-- A partition freezes, and the module sends FREEZE of its own (R367). -/
def freezeBy (s : State) (p origin id : Nat) : State :=
  if (part s p).frozen then s else floodDests (freezePart s p origin id) p tFreeze (moduleId s) 0

/-- It freezes for a loss of this module's own. -/
def freezeOwn (s : State) (p id : Nat) : State := freezeBy s p (moduleId s) id

/-! ### Emission and breakage (R332–R334, R339) -/

/-- A SYNC message to a remote destination; where it is lost at once its n returns to the counter's held total (R361). -/
def sendSync (s : State) (id k m dc n : Nat) : State × Bool :=
  let c := ctr s id
  let body := fld 0 16 dc + fld 16 48 (n * c.outInc) + fld 64 16 id
  let s := bump s (synReg (id / 4096) 0x88) 1
  match originate s (id / 4096) { typ := tSync, vl := 3, units := 0, hops := 0, dst := m, src := moduleId s, body := body,
                                  k := k, n := n } with
  | (s, true) => (s, false)
  | (s, false) =>
    (modCtr (setBits s (rylReg (id / 4096) 0x10) 2) id (fun c => { c with lost := tmod 0 c.lost k (· + n) }), true)

/-- Send n × OUT_INC to one destination (R332). -/
def emitTo (s : State) (id n : Nat) (x : Nat × Nat × Nat) : State × Bool :=
  if x.2.1 = synModule s then
    (queueChange s (x.2.2 / 4096) { op := 0, id := x.2.2, inc := n * (ctr s id).outInc, emitter := some id }, false)
  else sendSync s id x.1 x.2.1 x.2.2 n

/-- Send to each destination in order; a lost message freezes the partition (R361). -/
def emitAll (s : State) (id : Nat) (amount : Nat → Nat) : State :=
  let r := (destsOf s id).foldl (fun (a : State × Bool) x =>
    if amount x.1 = 0 then a
    else
      let (s, lost) := emitTo a.1 id (amount x.1) x
      (s, a.2 || lost)) (s, false)
  if r.2 then freezeOwn r.1 (ctr r.1 id).part id else r.1

/-- After a change that leaves VALUE at or above TRIGGER: a LIVE counter emits, a FROZEN one holds (R332). -/
def fire (s : State) (id : Nat) : State :=
  let c := ctr s id
  if c.destCount = 0 ∨ c.stride = 0 ∨ c.value < c.trigger then s
  else
    let n := (c.value - c.trigger) / c.stride + 1
    let s := setCtr s id { c with trigger := c.trigger + n * c.stride, held := if c.st = 3 then c.held + n else c.held }
    if c.st = 3 then s else emitAll s id (fun _ => n)

/-- A SYNC_BROKEN packet on the REPLY lane (R334, R352); one for this module is delivered without a lookup (R362). -/
def sendBroken (s : State) (d m id : Nat) : State :=
  if m = moduleId s then queueChange s (bits id 12 1) { op := 2, id := id % 8192 }
  else sendSimple (bump s (synReg d 0x88) 1) d tSyncBroken 2 m (fld 0 16 id)

/-- A counter breaks: its event, count and log, and BROKEN to each of its destinations (R334, R339). Waiters find it
BROKEN when their release is looked at. -/
def breakCtr (s : State) (id cause : Nat) : State :=
  let c := ctr s id
  if ctrActive c then
    let d := id / 4096
    let s := setCtr s id { c with st := 2, cause := cause }
    let s := bump (setBits s (synReg d 8) 1) (synReg d 0x90) 1
    let s := logEv s d 0x30 c.part id cause false
    (destsOf s id).foldl (fun s x =>
      if x.2.1 = synModule s then queueChange s (x.2.2 / 4096) { op := 2, id := x.2.2 }
      else sendBroken s d x.2.1 x.2.2) s
  else s

/-- Set a counter FREE, with every field (R322). -/
def freeCtr (s : State) (id : Nat) : State := { s with ctrs := tdel s.ctrs id }

/-- A partition's counters are set FREE and its destination and consumer entries freed (R348). -/
def releaseCtrs (s : State) (p : Nat) : State :=
  let s := (ctrsOf s p).foldl freeCtr s
  { s with dests := s.dests.filter (fun e => e.2.2 != p), cons := s.cons.filter (fun e => e.2.part != p) }

/-- A partition's counters on a die are set FREE, with the die's destination and consumer entries of the partition
(R339, R348). -/
def releaseCtrsOn (s : State) (p d : Nat) : State :=
  let s := ((ctrsOf s p).filter (fun id => id / 4096 == d)).foldl freeCtr s
  { s with
    dests := s.dests.filter (fun e => e.2.2 != p || e.1 / 4096 != d)
    cons := s.cons.filter (fun e => e.2.part != p || e.1 / 32768 != d) }

/-- Changes on their way from a partition's own units are dropped with the reset or retirement that overtakes them
(R433). -/
def dropChanges (s : State) (p : Nat) : State :=
  let keep := fun (c : Change) => c.remote.isSome || (match c.op with
    | 1 => c.id / 16 != p
    | 3 => (tget ⟨0, 0, 0, 0⟩ s.cons c.id).part != p
    | _ => (ctr s c.id).part != p)
  { s with changes0 := s.changes0.filter keep, changes1 := s.changes1.filter keep }

/-! ### Step completion (R49, R58) -/

/-- A step is in progress: more steps have been released than have completed. -/
def inStep (x : Part) : Bool := decide (x.completed < x.released)

/-- The step-completion counter has reached its target: the step ends, and with it every later one in progress whose
target the counter has reached too. -/
def stepCheck (s : State) (p : Nat) : State :=
  let x := part s p
  let c := ctr s x.stepCtr
  if inStep x && (x.active == 2 || x.active == 3) && ctrActive c && c.part == p && decide (x.stepTarget ≤ c.value) then
    let k := min (x.released - x.completed) ((c.value - x.stepTarget) / max 1 x.stepInc + 1)
    let s := setPart s p { x with completed := x.completed + k, doneAt := s.now, step := (x.step + k) % 2 ^ 64,
                                  stepTarget := x.stepTarget + k * x.stepInc }
    setBits s (pltReg p 0x24) 0x10
  else s

/-! ### The counter unit (R325, R326, R334, R337) -/

/-- An addition reaches a counter. -/
def applyAdd (s : State) (c : Change) : State :=
  let x := ctr s c.id
  let d := c.id / 4096
  if ctrActive x then
    let s := bump s (synReg d 0x80) 1
    let v := x.value + c.inc
    if 2 ^ 48 ≤ v then breakCtr (setCtr s c.id { x with value := 2 ^ 48 - 1 }) c.id 4
    else stepCheck (fire (setCtr s c.id { x with value := v }) c.id) x.part
  else match c.emitter, c.remote with
    | some e, _ => breakCtr s e 3
    | none, some (m, e) => sendBroken s d m e
    | none, none => if x.st = 2 then bump s (synReg d 0x98) 1 else s

/-- B of R337: the smaller of VALUE and every COUNT of the counter's consumer entries. -/
def rebaseBy (s : State) (id : Nat) : Nat :=
  (s.cons.filter (fun e => e.1 / 32768 == id / 4096 && e.2.ctr == id % 4096)).foldl (fun b e => min b e.2.count)
    (ctr s id).value

/-- The counter that a hatch's sync wait awaits: its WAIT's consumer entry names it. -/
def waitCtr (s : State) (n : Nat) : Nat :=
  let x := gen s n
  let j := tget 0 (part s x.part).consMap (bits x.waitArg 0 15)
  4096 * (j / 32768) + (tget ⟨0, 0, 0, 0⟩ s.cons j).ctr

/-- One counter of a group is rebased (R337): its VALUE, its consumer counts with the targets of the waits on them,
its TRIGGER, and the target of a step that it completes. -/
def rebaseOne (s : State) (id : Nat) : State :=
  let b := rebaseBy s id
  let s := modCtr s id (fun c => { c with value := c.value - b, trigger := if c.destCount = 0 then c.trigger else c.trigger - b })
  let ns := s.gens.filter (fun e => e.2.waitKind == 2 && waitCtr s e.1 == id)
  let s := ns.foldl (fun s e => modGen s e.1 (fun x => { x with waitNeed := x.waitNeed - b })) s
  let p := (ctr s id).part
  let s := if (part s p).stepCtr = id then modPart s p (fun x => { x with stepTarget := x.stepTarget - b }) else s
  { s with cons := s.cons.map (fun e =>
      if e.1 / 32768 == id / 4096 && e.2.ctr == id % 4096 then (e.1, { e.2 with count := e.2.count - b }) else e) }

/-- A rebase of a partition's group on one die. -/
def applyRebase (s : State) (d : Nat) (c : Change) : State :=
  ((ctrsOf s (c.id / 16)).filter (fun id =>
    id / 4096 == d && ctrActive (ctr s id) && (ctr s id).group == some (c.id % 16))).foldl rebaseOne s

/-- The writes that a signal releases are complete (R324). A clock that a fault or a reset has stopped left none. -/
def covered (s : State) (c : Change) : Bool :=
  match c.cover with
  | none => true
  | some (g, h) => match (pod s g).hatch with
    | none => true
    | some n => (gen s n).faulted || (gen s n).st == .stopped || decide (h ≤ (gen s n).hc)

/-- The wait unit adds K to the entry's COUNT once for the hatch, and the new COUNT is the target (R329). -/
def addConsumer (s : State) (n j k : Nat) : State :=
  let e := tget ⟨0, 0, 0, 0⟩ s.cons j
  if 2 ^ 48 ≤ e.count + k then breakCtr s (4096 * (j / 32768) + e.ctr) 4
  else modGen { s with cons := tset s.cons j { e with count := e.count + k } } n (fun x => { x with waitNeed := e.count + k })

def applyChange (s : State) (d : Nat) (c : Change) : State :=
  match c.op with
  | 0 => applyAdd s c
  | 1 => applyRebase s d c
  | 3 => if (gen s c.hatch).waitKind = 2 then addConsumer s c.hatch c.id c.inc else s
  | _ => breakCtr s c.id 3

/-- The first change, in order of arrival, whose release is complete. Where none is, the hatch of the first runs on to
the hc that completes it. -/
def counterUnit (s : State) (d : Nat) : State :=
  let pick := fun (s : State) => ((changes s d).findIdx? (covered s)).bind (fun i => ((changes s d)[i]?).map (fun c => (i, c)))
  let go := fun (s : State) (x : Nat × Change) => applyChange (setChanges s d ((changes s d).eraseIdx x.1)) d x.2
  match pick s with
  | some x => go s x
  | none => match changes s d with
    | [] => s
    | c :: _ => match c.cover with
      | some (g, h) => match (pod s g).hatch with
        | some n =>
          let s := arrive s n h
          let s := if running s n then reachHc s n h else s
          match pick s with
          | some x => go s x
          | none => s
        | none => s
      | none => s

def execCounterChangeApply (d : Fin 2) (s : State) : Out := .next (counterUnit s d)

/-! ### Strokes (R323, R327, R329, R337, R345) -/

/-- A SYN fault: the clock stops and each pod of the hatch records it (R345). -/
def synFault (s : State) (n g h : Nat) (vals : List Nat) : State :=
  let (s, v) := pickOf s vals
  let s := stopClock s n h true
  let s := (hatchPods s n).foldl (fun s q => recordFault s (podReg q 0xA30) v) s
  requestReset s (gen s n).part ⟨1, g, 8⟩

/-- Hc by which every scratchpad write that pod `g` issued before hc `t` is complete, its own and those of its sends
(R324). -/
def coverHc (s : State) (n g t : Nat) : Nat :=
  let ws := (hatchPods s n).flatMap (fun q => ((pod s q).spadPend.filter (fun x => x.by' == g && decide (x.made < t))).map (·.vis))
  let fs := ((pod s g).sends.filter (fun x => decide (x.t < t))).map (fun x => x.t + (min x.flits (t - x.t) - 1) + x.lat)
  (ws ++ fs).foldl max t

/-- SIGNAL (R323, R324, R327). -/
def signalStroke (s : State) (g : Nat) : State :=
  launch s g 8 1 0 (fun s n t w idx =>
    let id := bits w 32 13
    let inc := bits w 64 32
    let p := (gen s n).part
    let bad := (if inc == 0 || bits w 45 19 != 0 || bits w 96 32 != 0 then [0x34 + idx * 256] else []) ++
      (if !inBlock s p id || (ctr s id).st == 0 then [0x32 + idx * 256] else [])
    if !bad.isEmpty then synFault s n g t bad
    else if (ctr s id).st = 2 then bump s (synReg (id / 4096) 0x98) 1
    else queueChange s (id / 4096) { op := 0, id := id, inc := inc, cover := some (g, coverHc s n g t) })

def execSignal (g : Fin 256) (s : State) : Out := .next (signalStroke s g)

/-- REBASE (R337): one change at the counter unit of each die. -/
def rebaseStroke (s : State) (g : Nat) : State :=
  launch s g 8 2 0 (fun s n t w idx =>
    let p := (gen s n).part
    let grp := bits w 32 4
    if w >>> 36 != 0 || !(ctrsOf s p).any (fun id => (ctr s id).group == some grp) then
      synFault s n g t [0x34 + idx * 256]
    else queueChange (queueChange s 0 { op := 1, id := 16 * p + grp }) 1 { op := 1, id := 16 * p + grp })

def execRebase (g : Fin 256) (s : State) : Out := .next (rebaseStroke s g)

/-- The hatch entry that a WAIT names, on the hatch's die (R329, R344). -/
def waitEntry (s : State) (n w : Nat) : Option Nat :=
  let p := (gen s n).part
  match tfind (part s p).consMap (bits w 32 15) with
  | some j => match tfind s.cons j with
    | some e => if j / 32768 == n / 16 && e.kind == 0 && e.part == p then some j else none
    | none => none
  | none => none

/-- A rebase that reached the counter unit earlier will change the entry's counter (R325, R337). -/
def rebaseDue (s : State) (j : Nat) : Bool :=
  let c := ctr s (4096 * (j / 32768) + (tget ⟨0, 0, 0, 0⟩ s.cons j).ctr)
  (changes s (j / 32768)).any (fun x => x.op == 1 && x.id / 16 == c.part && c.group == some (x.id % 16))

/-- A hatch's addition to its consumer entry takes its turn behind a rebase that it would not commute with; until then
no VALUE meets its target (R325). -/
def askConsumer (s : State) (n j k : Nat) : State :=
  if rebaseDue s j then
    modGen (queueChange s (j / 32768) { op := 3, id := j, inc := k, hatch := n }) n (fun x => { x with waitNeed := 2 ^ 48 })
  else addConsumer s n j k

/-- WAIT (R329). -/
def waitStroke (s : State) (g : Nat) : State :=
  launchWith s g 9 (fun w => strokeUnit w == 9 && strokeOp w == 1) (fun _ => 0) false (fun s n t w idx =>
    let bad := (if bits w 47 17 != 0 || bits w 96 32 != 0 then [0x34 + idx * 256] else []) ++
      (if (waitEntry s n w).isNone then [0x33 + idx * 256] else [])
    if !bad.isEmpty then synFault s n g t bad
    else match waitEntry s n w with
      | none => s
      | some j =>
        let first := (gen s n).waitKind == 0
        let s := joinWait s n g t 2 (bits w 32 96) idx
        if first && (gen s n).waitKind == 2 then askConsumer s n j (bits w 64 32) else s)

def execWait (g : Fin 256) (s : State) : Out := .next (waitStroke s g)

/-- A sync wait's condition first holds in cycle `c` (R329, R330). -/
def syncRelease (s : State) (n c : Nat) : State :=
  let x := gen s n
  let y := ctr s (waitCtr s n)
  if ctrActive y && decide (x.waitNeed ≤ y.value) then releaseWait s n c
  else if y.st = 2 then
    let s := reachHc s n c
    let s := modGen s n (fun x => { x with st := .running })
    let s := stopClock s n (c + 4) true
    let s := (hatchPods s n).foldl (fun s q =>
      recordFault s (podReg q 0xA30) (0x31 + (pod s q).burin.last * 256 + fld 22 3 y.cause)) s
    requestReset s x.part ⟨1, hatchLow n, 8⟩
  else s

/-- Fields of a layer descriptor (R303). -/
def layField (l o n : Nat) : Nat := bits l (8 * o) (8 * n)
def layFreeze (l : Nat) : Bool := bit (layField l 6 2) 0

/-- A step of partition `p` begins: a work list whose layers are all frozen signals each DONE_CTR (R311). -/
def frozenLists (s : State) (p : Nat) : State :=
  s.upes.foldl (fun s e =>
    if e.1 % 8 = p ∧ e.2.layers.all layFreeze then
      let d := e.1 / 64
      e.2.layers.foldl (fun s l => queueChange s d { op := 0, id := 4096 * d + layField l 0x28 2, inc := 1 }) s
    else s) s

/-- A permit wait's release; the hatch that takes the permit begins the step. -/
def permitBegin (s : State) (n c : Nat) : State :=
  let p := (gen s n).part
  let t := permitRelease s n c
  if (part s p).released < (part t p).released then frozenLists t p else t

/-- The condition of a hatch's wait first holds in cycle `c`, and the release cycle is four hc later (R72). -/
def waitRelease (s : State) (n c : Nat) : State :=
  if waitReady s n c then
    if (gen s n).waitKind = 1 then stepCheck (permitBegin s n c) (gen s n).part else syncRelease s n c
  else s

def execWaitRelease (n : Fin 32) (c : Nat) (s : State) : Out := .next (waitRelease s n c)

/-! ### Runtime signals, LATE and the deadlock detector (R327, R340, R341) -/

/-- SYN_SIGNAL: a counter that is not LIVE or FROZEN with RUNTIME refuses; INC 0 is discarded (R327, R347). -/
def synSignal (s : State) (d v : Nat) : State :=
  let id := bits v 0 13
  let inc := bits v 32 32
  if ctrActive (ctr s id) && (ctr s id).runtime then
    (if inc = 0 then s else queueChange s (id / 4096) { op := 0, id := id, inc := inc })
  else setBits s (synReg d 8) 8

def execSynSignal (r : Requester) (d : Fin 2) (v : BitVec 64) (s : State) : Out :=
  .next (gate s r (synReg d 0x10) (fun s => synSignal s d v.toNat))

end Sys2Proof.Machine
end

