-- ==== Sys2Proof/Machine/Copy.lean ====
section
/-! DEFINITION. Copy channels: queues, starts, completions, records, deadlines, aborts and drains
(09_scratchpad_copy.md R226–R237; 14_links.md R361). -/
namespace Sys2Proof.Machine
open Sys2Proof

/-! ### Registers of a channel (R238, R239) -/

def chKind (s : State) (d n : Nat) : Nat := bits (rd s (chReg d n 4)) 0 2
def chPart (s : State) (d n : Nat) : Nat := bits (rd s (chReg d n 4)) 2 3
def chEvent (s : State) (d n bit' : Nat) : State := setBits s (chReg d n 0x14) (2 ^ bit')
/-- Entries queued, the copy in progress among them. -/
def chDepth (x : CopyChan) : Nat := x.queue.length + (if x.run.isSome then 1 else 0)
/-- Entries of the completion ring (R231). -/
def ringSize (s : State) (d n : Nat) : Nat := 2 ^ max 4 (min 16 (rd s (chReg d n 0x20)))
/-- RING_HEAD − RING_TAIL has not reached the ring's size. -/
def ringRoom (s : State) (d n : Nat) : Bool :=
  (rd s (chReg d n 0x28) + (2 ^ 32 - rd s (chReg d n 0x24))) % 2 ^ 32 != ringSize s d n

/-- A completion record (R231). -/
def recImage (r : CopyRec) : Nat := fld 0 32 r.tag + fld 32 8 r.status + fld 40 8 r.flags + fld 64 64 r.bytes

/-- The partition's frame gives a channel COPY slots in a stack (R255). -/
def chSlots (s : State) (d n st : Nat) : Bool := copySlotIn s st (some d) n n

/-- The channel halts: HALTED, the address of the bad word in CPY_CH_FAULT, and its queue kept (R228, R234). DEDUCED: a
DRAINING channel, which the table lets move to IDLE only, records the address and drains on. -/
def haltChan (s : State) (d n a : Nat) : State :=
  let s := wr s (chReg d n 0x38) a
  if (copyChan s d n).st = 2 then s else modCopy (chEvent s d n 2) d n (fun x => { x with st := 3 })

/-- Write a record into the ring and advance RING_HEAD. A ring granule that reads bad as the record is merged into it
halts the channel as any bad read of a copy channel does (R280, R282). -/
def writeRec (s : State) (d n : Nat) (r : CopyRec) : State :=
  let h := rd s (chReg d n 0x28)
  let a := rd s (chReg d n 0x18) + 16 * (h % ringSize s d n)
  let bad := memBad s (a / 64 * 64) 64
  let s := memWrite s a 16 (recImage r) (chPart s d n)
  let s := match locate s a with | some l => carried s l (chSlots s d n) | none => s
  let s := wr s (chReg d n 0x28) ((h + 1) % 2 ^ 32)
  if bad then haltChan s d n (a / 64 * 64) else s

/-- What follows a record: a DONE copy's signal, then its event (R230, R239). -/
def afterRec (s : State) (d n : Nat) (r : CopyRec) : State :=
  if r.status = 0 then
    let s := match r.signal with
      | some (c, k) => queueChange s d { op := 0, id := 4096 * d + c, inc := k }
      | none => s
    chEvent s d n 0
  else s

/-- Records waiting for room are written in order; RING_FULL while none fits (R231). -/
def drainHeld (d n : Nat) : Nat → State → State
  | 0, s => s
  | k + 1, s =>
    match (copyChan s d n).held with
    | [] => s
    | r :: rs =>
      if ringRoom s d n then
        let s := modCopy s d n (fun x => { x with held := rs })
        drainHeld d n k (afterRec (writeRec s d n r) d n r)
      else chEvent s d n 4

/-- A copy ends with a record, which waits for room where the ring has none. A copy that ends other than DONE sets
ENDED. -/
def pushRec (s : State) (d n : Nat) (r : CopyRec) : State :=
  let s := if r.status = 0 then s else chEvent s d n 5
  if r.record then
    let s := modCopy s d n (fun x => { x with held := x.held ++ [r] })
    drainHeld d n (copyChan s d n).held.length s
  else afterRec s d n r

/-- A record of the copy in progress. -/
def recOf (img status flags bytes : Nat) : CopyRec where
  tag := cdTag img
  status := status
  flags := flags
  bytes := bytes
  signal := if status = 0 ∧ cdSignal img then some (cdCtr img, cdInc img) else none
  record := cdRecord img

/-- The copy descriptor that a queue entry names (R226). -/
def copyAt (s : State) (p ref : Nat) : Option Nat :=
  match descAt s p ref with
  | some (.copy c) => some c
  | _ => none

/-- Stacks that a tensor of a copy lies in, by its elements' addresses, each with the iteration's shift. -/
def tensorStacks (s : State) (d : Nat) (shift : Int) : List Nat :=
  ((List.range (tdCount d)).filterMap (fun k =>
    let a := (elemLoc d shift (idxVec d k)).addr
    if a < spadBase then (locate s a).map (·.st) else none)).dedup

/-- Stacks that a copy reads or writes (R233). -/
def copyStacks (s : State) (p img iter : Nat) : List Nat :=
  let j := jobOf s p img iter
  let one := fun (t : Option Nat) (shift : Nat → Int) => match t with | some d => tensorStacks s d (shift (tdType d)) | none => []
  (one j.src (j.srcShift · 1) ++ one j.dst (j.dstShift · 1) ++ one j.ss (j.srcShift · 32) ++ one j.ds (j.dstShift · 32)).dedup

/-- KEEP_ONLY: the stack serves reserved slots only (R266). -/
def keepOnly (s : State) (st : Nat) : Bool := decide (3 ≤ (stk s st).level)

/-! ### Spans at the receiver (R222, R232, R364) -/

/-- A span's first byte lies on a die that is off or held in reset. The die reset has freed the range (R417), which
keeps its place: the handle was the range's, or is that of its last life. -/
def spanDieDown (s : State) (h off : Nat) : Bool :=
  let r := rangeAt s (handleIdx h)
  let a := r.base + 64 * off
  (r.gen == handleGen h || r.gen == (handleGen h + 1) % 2 ^ 32) && r.part == handlePart h && r.spad == handleSpad h && r.len != 0 &&
    (if r.spad then !dieUp s (spadPod a / 128) else (locate s a).any (fun l => !dieUp s (l.st / 8)))

/-- Reason of a span: 0 accepted, 1 stale handle, 2 outside the range, 3 die down. A die in reset is reported before the
handle that its reset made stale (R364). -/
def spanReason (s : State) (h off n : Nat) : Nat :=
  let r := rangeAt s (handleIdx h)
  if spanDieDown s h off then 3
  else if !(r.live && bits h 48 16 == 0 && r.gen == handleGen h && r.part == handlePart h && r.spad == handleSpad h) then 1
  else if r.len < 64 * off + n then 2
  else if n = 0 then 0
  else
    let a := r.base + 64 * off
    if r.spad then (if dieUp s (spadPod a / 128) then 0 else 3)
    else if memOk s a n then 0 else 3

/-- Write an accepted span of a virtual lane into the range (R222, R256). -/
def spanWrite (s : State) (vl h off n v : Nat) : State :=
  let r := rangeAt s (handleIdx h)
  let a := r.base + 64 * off
  let s := touchAll s a n
  let m := foldNat n (fun k m => putByte m (a + k) (bits v (8 * k) 8)) ([] : UnitMap)
  m.foldl (fun s e => unitWrite s e.1 e.2.1 e.2.2 r.part (fun st => spanSlotIn s st r.part vl)) (freshSpads s)

/-! ### Starting and ending a copy -/

/-- Virtual lane of a channel's spans (R356). -/
def chLane (n : Nat) : Nat := if n < 16 then 0 else if n < 24 then 1 else 3

/-- Send the spans of a REMOTE copy, 64 units each and the last shorter; the answer says whether one was lost at once or
refused by this module itself. -/
def sendSpans (d n img iter v : Nat) : Nat → Nat → Nat → State → State × Nat × Nat
  | 0, _, k, s => (s, k, 0)
  | f + 1, left, k, s =>
    if left = 0 then (s, k, 0)
    else
      let m := min left 4096
      let off := (cdOffset img + (iter * (denseBytesOf s d n img) + 4096 * k) / 64) % 2 ^ 32
      let data := bits v (8 * 4096 * k) (8 * m)
      if cdModule img = moduleId s then
        let why := spanReason s (cdHandle img) off m
        if why = 0 then
          let s := spanWrite s (chLane n) (cdHandle img) off m data
          sendSpans d n img iter v f (left - m) (k + 1) (modCopy s d n (fun x =>
            { x with run := x.run.map (fun r => { r with acked := r.acked + 1 }) }))
        else (s, k, 6)
      else
        let id := s.nextSpan
        let s := { s with nextSpan := (id + 1) % 2 ^ 32, spans := tset s.spans id (32 * d + n) }
        let body := fld 0 64 (cdHandle img) + fld 64 32 off + fld 96 32 id
        match originate s d { typ := tSpan, vl := chLane n, units := m / 64, hops := 0, dst := cdModule img,
                              src := moduleId s, body := body, data := data } with
        | (s, true) => sendSpans d n img iter v f (left - m) (k + 1) s
        | (s, false) => (setBits s (rylReg d 0x10) 2, k + 1, 7)
where
  denseBytesOf (s : State) (d n img : Nat) : Nat :=
    match tensorAt s (chPart s d n) (cdSrc img) with
    | some sd => denseBytes (tdType sd) (tdCount sd)
    | none => 0

/-- The copy of a channel's outstanding spans has ended: they are remembered by their partition, 64 + p (R361). -/
def forgetSpans (s : State) (d n : Nat) : State :=
  { s with spans := s.spans.map (fun e => if e.2 = 32 * d + n then (e.1, 64 + chPart s d n) else e) }

/-- The copy in progress ends other than DONE, its destination as the caller left it. -/
def endCopy (s : State) (d n status bytes : Nat) (poisoned : Bool) : State :=
  match (copyChan s d n).run with
  | none => s
  | some r =>
    let s := modCopy (forgetSpans s d n) d n (fun x => { x with run := none })
    pushRec s d n (recOf r.img status (r.flags ||| (if poisoned then 8 else 0)) bytes)

/-- As `endCopy`, with the whole destination poisoned (R235–R237). -/
def abortCopy (s : State) (d n status : Nat) : State :=
  match (copyChan s d n).run with
  | none => s
  | some r => endCopy (poisonDest s (jobOf s (chPart s d n) r.img r.iter)) d n status 0 true

/-- The channel halts on an uncorrectable read at `a` (R234). -/
def haltCopy (s : State) (d n a bytes : Nat) : State := haltChan (endCopy s d n 3 bytes true) d n a

/-- Bytes moved to a destination are counted (R238). -/
def countBytes (s : State) (d n k : Nat) : State := bump s (chReg d n 0x30) k

/-- The sending of a REMOTE copy at its start: its source is read and its spans go to the links (R222, R361). -/
def startRemote (s : State) (d n img iter : Nat) : State :=
  let p := chPart s d n
  let s := freshSpads s
  match tensorAt s p (cdSrc img) with
  | none => s
  | some sd =>
    let j := jobOf s p img iter
    let (v, b, bad) := remoteBytes s j sd
    let rdr := (remoteUnits j sd).foldl (fun (a : State × Bool) u =>
      let (s, c) := noteUnit a.1 u p
      (s, a.2 || c)) (s, false)
    let s := if rdr.2 then modCopy rdr.1 d n (fun x => { x with run := x.run.map (fun r => { r with flags := r.flags ||| 4 }) })
      else rdr.1
    let len := match bad with | some (at', _) => at' / 4096 * 4096 | none => b
    let s := modCopy s d n (fun x => { x with run := x.run.map (fun r => { r with total := ceilDiv' b 4096 }) })
    let (s, _, why) := sendSpans d n img iter v (b / 4096 + 2) len 0 s
    match bad with
    | some (_, u) => haltCopy (countBytes s d n len) d n u len
    | none =>
      let sent := match (copyChan s d n).run with | some r => min b (4096 * r.acked) | none => 0
      if why = 7 then freezeOwn (markDoubt (endCopy s d n 7 0 false) p true) p (4096 * d)
      else if why = 6 then endCopy (countBytes s d n sent) d n 6 sent false
      else s

/-- A free channel again: IDLE, unowned. -/
def freeChan (s : State) (d n : Nat) : State := modCopy (wr s (chReg d n 4) 0) d n (fun x => { x with st := 0, queue := [] })

/-- The copy at the head of the queue starts (R228). An entry whose descriptor has gone runs nothing. A channel whose
queue empties goes IDLE, and a draining one free (R235). -/
def startNext (d n : Nat) : Nat → State → State
  | 0, s => s
  | k + 1, s =>
    let x := copyChan s d n
    if (x.st = 1 ∨ x.st = 2) ∧ x.run.isNone ∧ x.held.isEmpty then
      match x.queue with
      | [] => if x.st = 2 then freeChan s d n else setCopy s d n { x with st := 0 }
      | e :: q =>
        match copyAt s (chPart s d n) e.ref with
        | none => startNext d n k (setCopy s d n { x with queue := q })
        | some img =>
          let late := cdDeadline img != 0 && (copyStacks s (chPart s d n) img e.iter).any (keepOnly s)
          let s := setCopy s d n { x with queue := q, run := some { img := img, iter := e.iter, ref := e.ref, flags := if late then 2 else 0 } }
          if cdRemote img then startNext d n k (startRemote s d n img e.iter) else s
    else s

def kick (s : State) (d n : Nat) : State := startNext d n ((copyChan s d n).queue.length + 2) s

/-- Put an entry in a channel's queue (R226–R228). -/
def enqueueCopy (s : State) (d n ref iter : Nat) : State :=
  let x := copyChan s d n
  kick (setCopy s d n { x with queue := x.queue ++ [⟨ref, iter⟩], st := if x.st = 0 then 1 else x.st }) d n

/-- Flush the entries that have not run (R229, R232). -/
def flushQueue (s : State) (d n : Nat) : State :=
  let x := copyChan s d n
  let p := chPart s d n
  x.queue.foldl (fun s e =>
    match copyAt s p e.ref with
    | some img => pushRec s d n (recOf img 4 0 0)
    | none => s) (setCopy s d n { x with queue := [] })

/-! ### The copy-channel enqueue stroke (R227) -/

def enqFault (s : State) (n g t code idx : Nat) : State := unitFault s n g t (podReg g 0xA08) [code + idx * 256] 6

def copyEnqueueStroke (s : State) (g : Nat) : State :=
  launch s g 7 1 (resv 53 63 + resv 96 127) (fun s n t w idx =>
    let d := g / 128
    let c := bits w 32 5
    let ref := bits w 37 16
    let iter := bits w 64 32
    let p := (gen s n).part
    if chKind s d c != 1 || chPart s d c != p || (copyChan s d c).st == 2 then enqFault s n g t 0x11 idx
    else match copyAt s p ref with
      | none => enqFault s n g t 0x12 idx
      | some img =>
        if cdIters img ≤ iter then enqFault s n g t 0x13 idx
        else if 64 ≤ chDepth (copyChan s d c) then enqFault s n g t 0x14 idx
        else enqueueCopy s d c ref iter)

def execCopyEnqueue (g : Fin 256) (s : State) : Out := .next (copyEnqueueStroke s g)

/-! ### Completion (R230, R231) -/

/-- Counts of a copy's elements (R487, R488). -/
def countCopy (s : State) (d p : Nat) (dd : Nat) (conv : Bool) (e : CopyEnd) : State :=
  let s := countOps s d p 8 (tdType dd) e.elems
  if conv then
    let s := countOps s d p 9 (tdType dd) e.elems
    foldNat 6 (fun k s => countOps s d p 10 k ((e.flags.filter (fun f => bit f k)).length)) s
  else s

/-- The last destination byte of the copy in progress is written: its record, its signal, its event, and the next copy.
A REMOTE copy completes once every span has been acknowledged (R333). -/
def copyDone (s : State) (d n : Nat) : State :=
  let p := chPart s d n
  match (copyChan s d n).run with
  | none => s
  | some r =>
    if r.done.isSome then s
    else if cdRemote r.img then
      if r.acked < r.total then s
      else
        let b := match tensorAt s p (cdSrc r.img) with | some sd => denseBytes (tdType sd) (tdCount sd) | none => 0
        finish' (countBytes s d n b) r b
    else
      let j := jobOf s p r.img r.iter
      let s := freshSpads s
      let e := moveCopy s p (copyItems s j) r.touched (chSlots s d n)
      let s := e.reached.foldl (fun s x => touchOthers s d n x.1 x.2) e.s
      let fl := r.flags ||| (if e.corrected then 4 else 0)
      let s := modCopy s d n (fun x => { x with run := some { r with flags := fl } })
      let s := match j.dst with | some dd => countCopy (countBytes s d n e.bytes) d p dd (cdConvert r.img) e | none => s
      match e.bad with
      | some a => kick (haltCopy s d n a e.bytes) d n
      | none => finish' s { r with flags := fl } e.bytes
where
  /-- The record is written where the ring has room; until then the copy keeps its place at the head. -/
  finish' (s : State) (r : CopyRun) (bytes : Nat) : State :=
    let rec' := recOf r.img 0 r.flags bytes
    if cdRecord r.img && !ringRoom s d n then
      modCopy (chEvent s d n 4) d n (fun x => { x with run := some { r with done := some rec' } })
    else kick (pushRec (modCopy (forgetSpans s d n) d n (fun x => { x with run := none })) d n rec') d n

def execCopyDone (d : Fin 2) (n : Fin 32) (s : State) : Out := .next (copyDone s d n)

/-- RING_TAIL moves, and records that waited are written (R231). -/
def ringTail (s : State) (d n v : Nat) : State :=
  let s := wr s (chReg d n 0x24) v
  let s := match (copyChan s d n).run with
    | some r => match r.done with
      | some rec' => if ringRoom s d n then pushRec (modCopy s d n (fun x => { x with run := none })) d n rec' else s
      | none => s
    | none => s
  let s := drainHeld d n (copyChan s d n).held.length s
  kick s d n

def execCpyChRingTailWrite (r : Requester) (d : Fin 2) (n : Fin 32) (v : BitVec 32) (s : State) : Out :=
  .next (gate s r (chReg d n 0x24) (fun s => ringTail s d n v.toNat))

/-- The deadline of the copy in progress passes (R233). -/
def copyDeadline (s : State) (d n : Nat) : State :=
  match (copyChan s d n).run with
  | none => s
  | some r =>
    if cdDeadline r.img = 0 ∨ bit r.flags 0 ∨ r.done.isSome ∨
        (copyStacks s (chPart s d n) r.img r.iter).any (keepOnly s) then s
    else
      let s := chEvent (modCopy s d n (fun x => { x with run := some { r with flags := r.flags ||| 1 } })) d n 1
      if cdAbortLate r.img then kick (abortCopy s d n 2) d n else s

def execCopyDeadlineExpired (d : Fin 2) (n : Fin 32) (s : State) : Out := .next (copyDeadline s d n)

/-- A channel still draining at CPY_DRAIN_TIMEOUT (R235). -/
def copyDrainTimeout (s : State) (d n : Nat) : State :=
  if (copyChan s d n).st = 2 then freeChan (flushQueue (abortCopy s d n 1) d n) d n else s

def execCopyDrainTimeout (d : Fin 2) (n : Fin 32) (s : State) : Out := .next (copyDrainTimeout s d n)

/-! ### Channel commands (R229, R236) -/

def cmdResult (s : State) (d n v : Nat) : State := modCopy s d n (fun x => { x with result := v })

def chAbort (s : State) (d n : Nat) : State :=
  let x := copyChan s d n
  if (x.st = 1 ∨ x.st = 2) ∧ x.run.isSome then kick (abortCopy (cmdResult s d n 0) d n 1) d n
  else cmdResult s d n 0x23

/-- A plate-owned channel whose plate is RUNNING, ACTIVATING or RETIRING cannot be disabled. -/
def chDisable (s : State) (d n : Nat) : State :=
  let x := copyChan s d n
  let a := (part s (chPart s d n)).active
  if chKind s d n = 1 ∧ (a = 1 ∨ a = 2 ∨ a = 3) then cmdResult s d n 0x20
  else match x.st with
    | 0 => freeChan (cmdResult s d n 0) d n
    | 1 => modCopy (cmdResult s d n 0) d n (fun x => { x with st := 2 })
    | 2 => cmdResult s d n 0x20
    | _ => freeChan (flushQueue (cmdResult s d n 0) d n) d n

def chResume (s : State) (d n : Nat) : State :=
  if (copyChan s d n).st = 3 then modCopy (flushQueue (cmdResult s d n 0) d n) d n (fun x => { x with st := 0 })
  else cmdResult s d n 0x20

def execCpyChAbort (r : Requester) (d : Fin 2) (n : Fin 32) (s : State) : Out :=
  .next (gate s r (chReg d n 0x10) (fun s => chAbort s d n))
def execCpyChDisable (r : Requester) (d : Fin 2) (n : Fin 32) (s : State) : Out :=
  .next (gate s r (chReg d n 0x10) (fun s => chDisable s d n))
def execCpyChResume (r : Requester) (d : Fin 2) (n : Fin 32) (s : State) : Out :=
  .next (gate s r (chReg d n 0x10) (fun s => chResume s d n))

/-- CPY_CH_OWNER: the runtime takes a free IDLE channel, or frees one of its own (R226, R239). -/
def chOwner (s : State) (d n v : Nat) : State :=
  if (copyChan s d n).st != 0 then s
  else if chKind s d n = 0 ∧ bits v 0 2 = 2 then wr s (chReg d n 4) (bits v 0 5)
  else if chKind s d n = 2 ∧ bits v 0 2 = 0 then wr s (chReg d n 4) 0
  else s

def execCpyChOwnerWrite (r : Requester) (d : Fin 2) (n : Fin 32) (v : BitVec 32) (s : State) : Out :=
  .next (gate s r (chReg d n 4) (fun s => chOwner s d n v.toNat))

/-- CPY_CH_ENQ: a runtime enqueue (R226, R227). One that names no copy, or an iteration the copy does not have, is
discarded. -/
def chEnq (s : State) (d n v : Nat) : State :=
  let x := copyChan s d n
  if chKind s d n != 2 || x.st == 2 then s
  else match copyAt s (chPart s d n) (bits v 0 32) with
    | none => s
    | some img =>
      if cdIters img ≤ bits v 32 32 then s
      else if 64 ≤ chDepth x then chEvent s d n 3
      else enqueueCopy s d n (bits v 0 32) (bits v 32 32)

def execCpyChEnq (r : Requester) (d : Fin 2) (n : Fin 32) (v : BitVec 64) (s : State) : Out :=
  .next (gate s r (chReg d n 8) (fun s => chEnq s d n v.toNat))

/-- Channels that a partition's plate or runtime owns end with a partition reset (R237); the answer counts the records
dropped for want of room. -/
def resetChan (s : State) (d n : Nat) : State × Nat :=
  let s := abortCopy s d n 5
  let s := flushQueue s d n
  let k := (copyChan s d n).held.length
  (freeChan (modCopy s d n (fun x => { x with held := [] })) d n, k)

def resetChans (s : State) (p d : Nat) : State :=
  (List.range 32).foldl (fun s n =>
    if chKind s d n != 0 && chPart s d n == p then
      let (s, k) := resetChan s d n
      if k = 0 then s else logEv s d 0x43 p n k false
    else s) s

/-! ### Range and describe commands (R211, R212, R218, R239, R240) -/

/-- The regions under a memory span are ones that the set-up gives to partition `p` (R211, R244). -/
def regionsOk (s : State) (p a n : Nat) : Bool :=
  decide (a + n ≤ 2 ^ 39) && (List.range ((a + n + (2 ^ 30 - 1)) / 2 ^ 30 - a / 2 ^ 30)).all (fun k =>
    let w := regionWord s (a / 2 ^ 30 + k) 0
    bits w 0 2 != 0 && !bit w 2 && bits w 7 3 == p && !bit w 10 && !bit w 11)

/-- A range that ALLOC accepts (R211). -/
def rangeOk (s : State) (p a n : Nat) (spad : Bool) : Bool :=
  if spad then
    a % 32 == 0 && n % 32 == 0 && decide (spadBase ≤ a ∧ a < spadBase + 256 * 0x200000) &&
      decide (spadOff a + n ≤ 0x200000) && (part s p).octets.contains (spadPod a / 8)
  else a % 64 == 0 && n % 64 == 0 && regionsOk s p a n

def allocRange (s : State) (d w a n : Nat) : State × Nat :=
  let p := bits w 2 3
  let spad := bit w 5
  let free := (List.range 4096).filter (fun i => !(rangeAt s i).live)
  if !rangeOk s p a n spad || s.ranges.any (fun e => e.2.live && decide (e.2.base < a + n ∧ a < e.2.base + e.2.len)) then
    (s, 0x0C)
  else if free.isEmpty then (s, 0x0D)
  else
    let (s, i) := pickOf s free
    let r := rangeAt s i
    let s := setRange s i { r with live := true, base := a, len := n, part := p, spad := spad, writable := bit w 6, count := 0 }
    (wr s (cpyReg d 0x20) (i + fld 12 3 p + fld 15 1 (b2n spad) + fld 16 32 r.gen), 0)

def freeRange (s : State) (h : Nat) : State × Nat :=
  match rangeOf s h (handlePart h) with
  | none => (s, 2)
  | some r =>
    if r.count ≠ 0 then (s, 0x0B)
    else (setRange s (handleIdx h) { r with live := false, gen := (r.gen + 1) % 2 ^ 32 }, 0)

/-- A command is accepted: BUSY until it completes. One that meets BUSY is discarded (R239). -/
def rangeCmd (s : State) (d w : Nat) : State :=
  if (tfind s.rangeCmds d).isSome then s
  else if bits w 0 2 = 1 ∨ bits w 0 2 = 2 then
    { s with rangeCmds := tset s.rangeCmds d ⟨w, rd s (cpyReg d 8), rd s (cpyReg d 0x10), false⟩ }
  else wr s (cpyReg d 0x1C) 0x0F

def rangeComplete (s : State) (d : Nat) : State :=
  match tfind s.rangeCmds d with
  | none => s
  | some c =>
    let s := { s with rangeCmds := tdel s.rangeCmds d }
    let (s, r) := if bits c.word 0 2 = 1 then allocRange s d c.word c.arg0 c.arg1 else freeRange s c.arg0
    wr s (cpyReg d 0x1C) r

def execAlloc (r : Requester) (d : Fin 2) (p : Fin 8) (space writable : Bool) (s : State) : Out :=
  .next (gate s r (cpyReg d 0x18) (fun s => rangeCmd s d (1 + fld 2 3 p + fld 5 1 (b2n space) + fld 6 1 (b2n writable))))
def execFree (r : Requester) (d : Fin 2) (s : State) : Out := .next (gate s r (cpyReg d 0x18) (fun s => rangeCmd s d 2))
def execCpyRangeBadCommand (r : Requester) (d : Fin 2) (op : BitVec 2) (s : State) : Out :=
  .next (gate s r (cpyReg d 0x18) (fun s => if op = 1 ∨ op = 2 then s else rangeCmd s d op.toNat))
def execRangeCommandComplete (d : Fin 2) (s : State) : Out :=
  .next (if dieUp s d then rangeComplete s d else s)

/-- Put a descriptor into the runtime table (R218). -/
def putDesc (s : State) (p i : Nat) (e : DescE) : State :=
  countDesc (modPart s p (fun x => { x with runDescs := tset x.runDescs i e })) e true

/-- A describe command: the image is copied as the command is accepted (R218). -/
def descCmd (s : State) (d w : Nat) : State :=
  if (tfind s.descCmds d).isSome then s
  else match bits w 0 2 with
    | 0 => wr s (cpyReg d 0x34) 0x0F
    | 3 => { s with descCmds := tset s.descCmds d ⟨w, 0, 0, false⟩ }
    | _ =>
      let a := rd s (cpyReg d 0x28)
      let p := bits w 2 3
      if !memOk s a 64 then { s with descCmds := tset s.descCmds d ⟨w, 0, 0, true⟩ }
      else
        let bad := memBad s a 64
        let img := memRead s a 64
        let s := memNote s a 64 1 p
        { s with descCmds := tset s.descCmds d ⟨w, img, 0, bad⟩ }

def descRun (s : State) (c : CpyCmd) : State × Nat :=
  let p := bits c.word 2 3
  let i := bits c.word 16 12
  let old := tfind (part s p).runDescs i
  match bits c.word 0 2 with
  | 3 => match old with
    | none => (s, 0x11)
    | some e =>
      if (match e with | .tensor _ => namedByCopy s p (2 ^ 16 + i) | .copy _ => false) then (s, 0x0E)
      else (countDesc (modPart s p (fun x => { x with runDescs := tdel x.runDescs i })) e false, 0)
  | op =>
    if c.bad then (s, 0x12)
    else if old.isSome then (s, 0x0E)
    else
      let r := if op = 1 then describeTensor s c.arg0 p else describeCopy s c.arg0 p true
      if r = 0 then (putDesc s p i (if op = 1 then .tensor c.arg0 else .copy c.arg0), 0) else (s, r)

def descComplete (s : State) (d : Nat) : State :=
  match tfind s.descCmds d with
  | none => s
  | some c =>
    let (s, r) := descRun { s with descCmds := tdel s.descCmds d } c
    wr s (cpyReg d 0x34) r

def descWord (op p i : Nat) : Nat := op + fld 2 3 p + fld 16 12 i

def execDescribeTensor (r : Requester) (d : Fin 2) (p : Fin 8) (index : Fin 4096) (s : State) : Out :=
  .next (gate s r (cpyReg d 0x30) (fun s => descCmd s d (descWord 1 p index)))
def execDescribeCopy (r : Requester) (d : Fin 2) (p : Fin 8) (index : Fin 4096) (s : State) : Out :=
  .next (gate s r (cpyReg d 0x30) (fun s => descCmd s d (descWord 2 p index)))
def execDestroy (r : Requester) (d : Fin 2) (p : Fin 8) (index : Fin 4096) (s : State) : Out :=
  .next (gate s r (cpyReg d 0x30) (fun s => descCmd s d (descWord 3 p index)))
def execCpyDescBadCommand (r : Requester) (d : Fin 2) (s : State) : Out :=
  .next (gate s r (cpyReg d 0x30) (fun s => descCmd s d 0))
def execDescCommandComplete (d : Fin 2) (s : State) : Out :=
  .next (if dieUp s d then descComplete s d else s)

end Sys2Proof.Machine
end

