-- ==== Sys2Proof/Machine/Links.lean ====
section
/-! DEFINITION. Ports: training, reception, acknowledgement, replay, failure, delivery and forwarding; frozen
partitions (14_links.md R352–R368; 13_synchronisation.md R333, R334, R340). -/
namespace Sys2Proof.Machine
open Sys2Proof

/-! ### Lost packets (R361) -/

/-- A lost SPAN: its partition freezes and its copy ends LINK_FAILED, which bars CONTINUE. Where the copy has ended
already, the loss itself stays. -/
def loseSpan (s : State) (k id : Nat) (inDoubt : Bool) : State :=
  match tfind s.spans id with
  | none => setBits s (rylReg (k / 8) 0x10) 2
  | some c =>
    if 64 ≤ c then
      let s := setBits { s with spans := tdel s.spans id } (rylReg (k / 8) 0x10) 2
      freezeOwn (markDoubt s (c - 64) inDoubt) (c - 64) (4096 * (k / 8))
    else
    let d := c / 32
    let n := c % 32
    let p := chPart s d n
    let s := setBits s (rylReg d 0x10) 2
    let s := markDoubt (freezeOwn s p (4096 * d)) p true
    match (copyChan s d n).run with
    | some r => kick (endCopy s d n 7 (4096 * r.acked) false) d n
    | none => s

/-- A lost SYNC: its n returns to the emitting counter's held total, and the counter's partition freezes. -/
def loseSync (s : State) (id k n : Nat) (inDoubt : Bool) : State :=
  let s := setBits s (rylReg (id / 4096) 0x10) 2
  let c := ctr s id
  if ctrActive c then
    let s := setCtr s id { c with lost := tmod 0 c.lost k (· + n) }
    freezeOwn (markDoubt s c.part inDoubt) c.part id
  else s

/-- A packet that this module originated is lost at port `k` (R360, R361). -/
def loseOwn (s : State) (k : Nat) (p : LinkPkt) (inDoubt : Bool) : State :=
  if p.typ = tSpan then loseSpan s k (bits p.body 96 32) inDoubt
  else if p.typ = tSync then loseSync s (bits p.body 64 13) p.k p.n inDoubt
  else dropPacket s (k / 8) k p.typ

/-- An UNREACHABLE reply makes the packet lost (R361). Which of the counter's messages a SYNC's reply answers is open
where several have left. -/
def deliverUnreachable (s : State) (k body : Nat) : State :=
  let typ := bits body 0 8
  let id := bits body 32 32
  let doubt := bits body 64 8 != 0
  if typ = tSpan then loseSpan s k id doubt
  else if typ = tSync then
    let c := ctr s (id % 8192)
    if c.sent.isEmpty then loseSync s (id % 8192) 0 0 doubt
    else
      let (s, i) := pickOf s (List.range c.sent.length)
      let (kk, n) := nth (0, 0) c.sent i
      loseSync (modCtr s (id % 8192) (fun c => { c with sent := c.sent.eraseIdx i })) (id % 8192) kk n doubt
  else dropPacket s (k / 8) k typ

/-- A packet is answered UNREACHABLE; the answer to a packet of this module's own is delivered here, without a lookup
(R360, R362). -/
def answerBack (s : State) (k src typ body : Nat) (inDoubt : Bool) : State :=
  if src = moduleId s then
    deliverUnreachable s k (fld 0 8 typ + fld 32 32 (origId typ body) + fld 64 8 (b2n inDoubt))
  else answerUnreachable s (k / 8) src typ body inDoubt

/-! ### Port failure, replay and acknowledgement (R359, R360) -/

/-- A port stops carrying: what it holds is answered UNREACHABLE to its source, or lost where this module originated
it. -/
def closePort (s : State) (k st reason : Nat) : State :=
  let l := portAll (port s k)
  let s := setPort s k { port s k with q0 := [], q1 := [], q2 := [], q3 := [], replay := [], drain := false, nak := false }
  let s := setPortState s k st 0 reason 0
  l.foldl (fun s p =>
    match p.arr with
    | some a =>
      let s := if p.sent = 0 then oweUnits s a p.vl p.units else s
      answerBack s k p.src p.typ p.body (pktInDoubt p)
    | none => loseOwn s k p (pktInDoubt p)) s

/-- RYL_RETRY_LIMIT, never more than 8 (R360). -/
def retryLimit (s : State) (k : Nat) : Nat := min 8 (bits (rd s (rylReg (k / 8) 0xC)) 0 4)

/-- Replay from the oldest unacknowledged packet; a packet that has failed its last attempt fails the port. -/
def replayPort (s : State) (k : Nat) (nak : Bool) : State :=
  let x := port s k
  let l := x.replay.map (fun p => { p with naked := if nak then p.naked + 1 else p.naked })
  let s := setPort s k { x with replay := l }
  if l.any (fun p => decide (retryLimit s k ≤ p.sent)) then closePort s k 4 3
  else
    let l := l.map (fun p => { p with sent := p.sent + 1 })
    let s := bump (setPort s k { port s k with replay := l }) (portReg k 0x20) l.length
    l.foldl (fun s p => putWire s k p) s

def execAckTimeout (k : Fin 16) (s : State) : Out :=
  .next (if portCarries s k && !(port s k).replay.isEmpty then replayPort s k false else s)

/-- Sequence number `a` is at or before `b`, modulo 2³². -/
def seqLe (a b : Nat) : Bool := decide ((b + (2 ^ 32 - a)) % 2 ^ 32 < 2 ^ 31)

/-- ACK and CREDITS of a received header. A SYNC of this module that its first hop has accepted is remembered for an
UNREACHABLE reply (R361). -/
def takeHeader (s : State) (k : Nat) (p : Packet) : State :=
  let x := port s k
  let c := p.credits.toNat
  let acked := x.replay.filter (fun q => seqLe q.seq p.ack.toNat)
  let s := setPort s k { x with
    replay := x.replay.filter (fun q => !seqLe q.seq p.ack.toNat)
    credits := x.credits.mapIdx (fun i v => v + bits c (16 * i) 16) }
  let s := acked.foldl (fun s q =>
    if q.typ = tSync ∧ q.arr.isNone then modCtr s (bits q.body 64 13) (fun c =>
      if ctrActive c then { c with sent := c.sent ++ [(q.k, q.n)] } else c) else s) s
  drained s k

/-- A receiver discards a packet: a NAK travels in its next header, at once where it has nothing else to send. -/
def nakPacket (s : State) (k : Nat) : State :=
  let s := modPort s k (fun x => { x with nak := true })
  if (nextTurn (port s k)).isNone then sendIdle s k else s

/-! ### Delivery to this module -/

/-- For each refresh of an origin the first copy is forwarded: a copy within 250 µs of the last one forwarded is of the
same refresh. -/
def firstCopy (s : State) (p origin : Nat) : Bool :=
  match tfind (part s p).lateSeen origin with
  | some t => decide (t + 12500 ≤ s.now)
  | none => true

/-- A LATE packet (R340). -/
def deliverLate (s : State) (id origin ttl : Nat) : State :=
  if (ctr s id).st = 0 then s
  else
    let p := (ctr s id).part
    let s := setBits (modPart s p (fun x => { x with lateIn := true })) (synReg (id / 4096) 8) 4
    if firstCopy s p origin && decide (ttl < 6) then
      floodDests (modPart s p (fun x => { x with lateSeen := tset x.lateSeen origin s.now })) p tLate origin (ttl + 1)
    else s

/-- A FREEZE packet (R367). -/
def deliverFreeze (s : State) (id origin ttl : Nat) : State :=
  if (ctr s id).st = 0 then s
  else
    let p := (ctr s id).part
    let s := freezeBy s p origin id
    if (part s p).seenFreeze.contains origin || decide (6 ≤ ttl) then s
    else floodDests (modPart s p (fun x => { x with seenFreeze := origin :: x.seenFreeze })) p tFreeze origin (ttl + 1)

/-- A SPAN_ACK: the span is accepted (R333). -/
def deliverAck (s : State) (id : Nat) : State :=
  match tfind s.spans id with
  | none => s
  | some c =>
    let s := { s with spans := tdel s.spans id }
    if 64 ≤ c then s
    else modCopy s (c / 32) (c % 32)
      (fun x => { x with run := x.run.map (fun r => { r with acked := r.acked + 1 }) })

/-- A SPAN_REFUSED ends the copy REMOTE_REFUSED (R232). -/
def deliverRefused (s : State) (id : Nat) : State :=
  match tfind s.spans id with
  | none => s
  | some c =>
    let s := { s with spans := tdel s.spans id }
    if 64 ≤ c then s
    else match (copyChan s (c / 32) (c % 32)).run with
    | some r => kick (endCopy s (c / 32) (c % 32) 6 (4096 * r.acked) false) (c / 32) (c % 32)
    | none => s

/-- A SPAN (R222, R256, R364): written into the range and acknowledged, or refused. -/
def deliverSpan (s : State) (k vl src body units v : Nat) : State :=
  let h := bits body 0 64
  let off := bits body 64 32
  let why := spanReason s h off (64 * units)
  let s := if why = 0 then spanWrite s vl h off (64 * units) v else s
  if src = moduleId s then (if why = 0 then deliverAck s (bits body 96 32) else deliverRefused s (bits body 96 32))
  else sendSimple s (k / 8) (if why = 0 then tSpanAck else tSpanRefused) 2 src (fld 0 32 (bits body 96 32) + fld 32 8 why)

/-- A SYNC arrives at the counter unit of its counter's die, or meets a die in reset (R333, R362, R364). -/
def deliverSync (s : State) (src body : Nat) : State :=
  let id := bits body 0 13
  let e := bits body 64 13
  if dieUp s (id / 4096) then
    queueChange s (id / 4096) { op := 0, id := id, inc := bits body 16 48, remote := some (src, e) }
  else sendBroken s (id / 4096) src e

/-- A packet for this module, by its TYPE (R352). -/
def deliver (s : State) (k typ : Nat) (p : Packet) : State :=
  let b := p.body.toNat
  if typ = tSpan then deliverSpan s k (p.vl.toNat % 4) p.src.toNat b p.units.toNat (ofLE p.payload)
  else if typ = tSync then deliverSync s p.src.toNat b
  else if typ = tLate then deliverLate s (bits b 0 13) (bits b 16 16) (bits b 32 8)
  else if typ = tFreeze then deliverFreeze s (bits b 0 13) (bits b 16 16) (bits b 32 8)
  else if typ = tSpanAck then deliverAck s (bits b 0 32)
  else if typ = tSpanRefused then deliverRefused s (bits b 0 32)
  else if typ = tSyncBroken then queueChange s (bits b 12 1) { op := 2, id := bits b 0 13 }
  else if typ = tUnreachable then deliverUnreachable s k b
  else s

/-- A packet accepted in order: discarded at HOPS = 16, delivered here, or forwarded (R351, R360, R362). -/
def routePacket (s : State) (k typ : Nat) (p : Packet) : State :=
  let vl := p.vl.toNat % 4
  let u := p.units.toNat
  if p.hops = 16 then answerBack (oweUnits s k vl u) k p.src.toNat typ p.body.toNat false
  else if p.dst.toNat % 16384 = moduleId s then oweUnits (deliver s k typ p) k vl u
  else
    let e := routeOf s (k / 8) (k % 8) (p.dst.toNat % 16384)
    if e = k ∨ portClosed s e then answerBack (oweUnits s k vl u) k p.src.toNat typ p.body.toNat false
    else modPort s e (fun x => setQueue x vl (portQueue x vl ++ [{
      typ := typ, vl := vl, units := u, hops := p.hops.toNat + 1, dst := p.dst.toNat, src := p.src.toNat,
      body := p.body.toNat, data := ofLE p.payload, arr := some k }]))

/-- A packet of type `typ` arrives on a port that carries traffic (R350, R357, R359). -/
def receive (s : State) (k typ : Nat) (p : Packet) : State :=
  if !portCarries s k then s
  else
    let s := bump s (portReg k 0x18) (1 + p.units.toNat)
    let s := bump (bump s (portReg k 0x28) p.corrected) (portReg k 0x30) p.uncorrected
    if !rxWhole typ p then nakPacket s k
    else
      let s := takeHeader s k p
      let s := if bit p.flags.toNat 0 && !(port s k).replay.isEmpty then replayPort s k true else s
      if !portCarries s k then s
      else if typ = tIdle then s
      else if p.seq.toNat != (port s k).rxSeq then nakPacket s k
      else routePacket (modPort s k (fun x => { x with rxSeq := (x.rxSeq + 1) % 2 ^ 32 })) k typ p

def execSpan (k : Fin 16) (p : Packet) (s : State) : Out := .next (receive s k tSpan p)
def execSync (k : Fin 16) (p : Packet) (s : State) : Out := .next (receive s k tSync p)
def execLate (k : Fin 16) (p : Packet) (s : State) : Out := .next (receive s k tLate p)
def execFreeze (k : Fin 16) (p : Packet) (s : State) : Out := .next (receive s k tFreeze p)
def execSpanAck (k : Fin 16) (p : Packet) (s : State) : Out := .next (receive s k tSpanAck p)
def execSpanRefused (k : Fin 16) (p : Packet) (s : State) : Out := .next (receive s k tSpanRefused p)
def execSyncBroken (k : Fin 16) (p : Packet) (s : State) : Out := .next (receive s k tSyncBroken p)
def execUnreachable (k : Fin 16) (p : Packet) (s : State) : Out := .next (receive s k tUnreachable p)
def execIdle (k : Fin 16) (p : Packet) (s : State) : Out := .next (receive s k tIdle p)

/-! ### Training and port states (R353, R354, R365, R366) -/

/-- A port trains only with a valid module id, and sends its side's id, port number and versions; without one it stays
DOWN for that reason (R353). -/
def startTraining (s : State) (k : Nat) : State :=
  if moduleValid s k then
    emit (setPortState (modPort s k (fun x => { x with bad := [] })) k 1 0 0 0)
      (.hello k (moduleId s) (bits (rd s (rylReg (k / 8) 4)) 0 8))
  else if portSt s k = 0 then setPortState s k 0 0 6 0 else s

/-- TRAIN acts in DOWN and FAILED. -/
def portTrain (s : State) (k : Nat) : State := if (portSt s k = 0 ∨ portSt s k = 4) ∧ !ethMode s k then startTraining s k else s

def execPortTrain (r : Requester) (k : Fin 16) (s : State) : Out :=
  .next (gate s r (portReg k 4) (fun s => portTrain s k))

/-- DOWN: a port that carries drains first (R434); one in training goes DOWN at once. -/
def portDown (s : State) (k : Nat) : State :=
  if portCarries s k then drained (modPort s k (fun x => { x with drain := true })) k
  else if portSt s k = 1 then closePort s k 0 5
  else s

def execPortDown (r : Requester) (k : Fin 16) (s : State) : Out := .next (gate s r (portReg k 4) (fun s => portDown s k))

/-- A drain that has not ended in time: queued packets are answered as for FAILED, and the port is DOWN (R434). -/
def execPortDownDrainTimeout (k : Fin 16) (s : State) : Out :=
  .next (if (port s k).drain && portCarries s k then closePort s k 0 5 else s)

def execPortSignalDetected (k : Fin 16) (s : State) : Out :=
  .next (if portSt s k = 0 ∧ moduleValid s k ∧ !ethMode s k then startTraining s k else s)

/-- The highest version common to both bitmaps: bit v − 1 stands for version v (R353). -/
def commonVersion (a b : Nat) : Nat := ((List.range 8).filter (fun i => bit a i && bit b i)).foldl (fun m i => max m (i + 1)) 0

/-- The lane pair that does not hold a lane. -/
def otherPair (lane : Nat) : Nat := if lane < 2 then 0xC else 3

/-- Training completes: UP at the negotiated version, or DOWN with reason VERSION; with lanes lost in training, DEGRADED on
the whole pair, or as R365 has it for version 1 and for both pairs. -/
def portTrained (s : State) (k : Nat) (h : PeerHello) : State :=
  if portSt s k != 1 then s
  else
    let v := commonVersion (bits (rd s (rylReg (k / 8) 4)) 0 8) h.versions.toNat
    let s := wr s (portReg k 8) (h.modId.toNat + fld 14 4 h.port.toNat + fld 31 1 1)
    if v = 0 then closePort s k 0 2
    else match (port s k).bad with
      | [] => setPortState (modPort s k freshPort) k 2 0xF 0 v
      | lane :: q =>
        if v < 2 then closePort s k 0 4
        else if q.any (fun x => x / 2 != lane / 2) then closePort s k 4 4
        else setPortState (modPort s k (fun x => { freshPort x with bad := x.bad })) k 3 (otherPair lane) 0 v

def execPortTrainingComplete (k : Fin 16) (peer : PeerHello) (s : State) : Out := .next (portTrained s k peer)

/-- Loss of signal takes a port DOWN; loss of block lock on both lane pairs takes it FAILED (R354, R360). -/
def portLost (s : State) (k : Nat) (lock : Bool) : State :=
  if portCarries s k then (if lock then closePort s k 4 4 else closePort s k 0 1)
  else if portSt s k = 1 then closePort s k 0 1
  else s

def execPortSignalLost (k : Fin 16) (lock : Bool) (s : State) : Out := .next (portLost s k lock)

/-- A lane fails (R365), or is lost while the port trains (R354). -/
def laneFailure (s : State) (k lane : Nat) : State :=
  if portSt s k = 1 then modPort s k (fun x => { x with bad := (lane :: x.bad).dedup })
  else if !portCarries s k || !bit (portLanes s k) lane then s
  else
    let s := modPort s k (fun x => { x with bad := (lane :: x.bad).dedup })
    if portVersion s k < 2 then closePort s k 0 4
    else if portSt s k = 2 then setPortState s k 3 (otherPair lane) 0 (portVersion s k)
    else closePort s k 4 4

def execLaneFailure (k : Fin 16) (lane : Fin 4) (s : State) : Out := .next (laneFailure s k lane)

/-- RYL_SPARE_STEERj (R366): steer a spare into a lane and retrain it, or release a spare whose port is DOWN. -/
def spareSteer (s : State) (d j v : Nat) : State :=
  let a := rylReg d (0x20 + 4 * j)
  let old := rd s a
  let v := v &&& 0x8000001F
  if bit old 31 then (if !bit v 31 && portSt s (8 * d + bits old 0 3) == 0 then wr s a v else s)
  else
    let s := wr s a v
    let k := 8 * d + bits v 0 3
    let lane := bits v 3 2
    if bit v 31 && portSt s k == 2 then
      setPortState (modPort s k (fun x => { x with bad := (lane :: x.bad).dedup })) k 3 (otherPair lane) 0 (portVersion s k)
    else s

def execRylSpareSteer (r : Requester) (d j : Fin 2) (v : BitVec 32) (s : State) : Out :=
  .next (gate s r (rylReg d (0x20 + 4 * j)) (fun s => spareSteer s d j v.toNat))

/-- Lanes of a port that a spare has taken the place of. -/
def steeredLanes (s : State) (k : Nat) : List Nat :=
  ([0, 1].map (fun j => rd s (rylReg (k / 8) (0x20 + 4 * j)))).filterMap (fun v =>
    if bit v 31 && bits v 0 3 == k % 8 then some (bits v 3 2) else none)

/-- The lane steered finishes retraining: with no failed lane left, the port is UP on four lanes (R355). -/
def spareTrained (s : State) (k : Nat) : State :=
  let l := steeredLanes s k
  if portSt s k = 3 ∧ (port s k).bad.any l.contains then
    let left := (port s k).bad.filter (fun x => !l.contains x)
    let s := modPort s k (fun x => { x with bad := left })
    if left.isEmpty then setPortState s k 2 0xF 0 (portVersion s k) else s
  else s

def execSpareLaneRetrainComplete (k : Fin 16) (s : State) : Out := .next (spareTrained s k)

/-! ### Module id and routing tables (R363, R375) -/

/-- RYL_MODULE_ID is module-wide; a write is discarded while a port that runs Ryastus is not DOWN. -/
def writeModuleId (s : State) (v : Nat) : State :=
  if (List.range 16).any (fun k => portSt s k != 0 && portSt s k != 5) then s
  else
    let v := v &&& 0x80003FFF
    let s := wr (wr s (rylReg 0 8) v) (rylReg 1 8) v
    wr (wr s (synReg 0 4) (bits v 0 14)) (synReg 1 4) (bits v 0 14)

def execRylModuleIdWrite (r : Requester) (d : Fin 2) (v : BitVec 32) (s : State) : Out :=
  .next (gate s r (rylReg d 8) (fun s => writeModuleId s v.toNat))

/-- One write replaces eight entries of a table: 0–7 the die's ports, 8 its injection table. -/
def execRoutingTableWrite (r : Requester) (d : Fin 2) (table : Fin 9) (word : Fin 2048) (v : BitVec 32) (s : State) : Out :=
  let a := rylReg d (0x10000 + 0x2000 * table + 4 * word)
  .next (gate s r a (fun s => wr s a v.toNat))

/-! ### CONTINUE and ABANDON (R368) -/

/-- n held for a destination: what was held for all, and what was lost on the way to it. -/
def heldFor (c : Ctr) (k : Nat) : Nat := c.held + tget 0 c.lost k

/-- A held emission has no route to a port that is UP or DEGRADED. -/
def heldBlocked (s : State) (p : Nat) : Bool :=
  (ctrsOf s p).any (fun id =>
    (ctr s id).st == 3 && (destsOf s id).any (fun x =>
      x.2.1 != synModule s && heldFor (ctr s id) x.1 != 0 && !portCarries s (routeOf s (id / 4096) 8 x.2.1)))

def continueRefused (s : State) (p : Nat) : Bool := (part s p).inDoubt || heldBlocked s p

/-- RESULT of RYL_PART_FREEZE. -/
def partResult (s : State) (d v : Nat) : State := wr s (rylReg d 0x18) (v * 65536)

/-- CONTINUE: the partition's FROZEN counters are LIVE again, and each held total is sent once. -/
def continuePart (s : State) (d p : Nat) : State :=
  if continueRefused s p then partResult s d 0x20
  else
    let s := modPart (partResult s d 0) p (fun x => { x with frozen := false, seenFreeze := [] })
    let ids := (ctrsOf s p).filter (fun id => (ctr s id).st == 3)
    let old := ids.map (fun id => (id, ctr s id))
    let s := ids.foldl (fun s id => modCtr s id (fun c => { c with st := 1, held := 0, lost := [] })) s
    old.foldl (fun s e => emitAll s e.1 (heldFor e.2)) s

def execContinuePart (r : Requester) (d : Fin 2) (p : Fin 8) (s : State) : Out :=
  .next (gate s r (rylReg d 0x1C) (fun s => continuePart s d p))

/-- ABANDON: every FROZEN counter breaks with cause PEER, and the partition is reset. -/
def abandonPart (s : State) (d p : Nat) : State :=
  let ids := (ctrsOf s p).filter (fun id => (ctr s id).st == 3)
  requestReset (ids.foldl (fun s id => breakCtr s id 3) (partResult s d 0)) p ⟨6, 0, 0⟩

def execAbandon (r : Requester) (d : Fin 2) (p : Fin 8) (s : State) : Out :=
  .next (gate s r (rylReg d 0x1C) (fun s => abandonPart s d p))

/-- A LATE mark lapses 2 ms after its last refresh (R340). -/
def execLateMarkExpired (p : Fin 8) (s : State) : Out := .next (modPart s p (fun x => { x with lateIn := false }))

end Sys2Proof.Machine
end

