-- ==== Sys2Proof/Machine/MxaOps.lean ====
section
/-! DEFINITION. The matrix array's strokes and events (05_matrix_array.md R116–R133). -/
namespace Sys2Proof.Machine
open Sys2Proof

/-- An MXA fault (R129): where several conditions hold together the manual does not order them, so which code is
recorded is open. No result row consumable after the faulting launch is written. -/
def mxaFault (s : State) (n g h idx : Nat) (codes : List Nat) : State :=
  if codes.isEmpty then s else unitFault s n g h (podReg g 0x40C) (codes.map (fun c => c + idx * 256)) 2

/-- CONFIG (R116): governs the LOADs and STREAMs launched from the next hc on; the array takes no other stroke in this
one (R71). Undefined type codes are a stroke fault (R87). -/
def mxaConfig (s : State) (g : Nat) : State :=
  launch s g 1 1 (resv 42 47 + resv 96 127) (fun s n t w idx =>
    if 13 ≤ bits w 32 4 ∨ 13 ≤ bits w 36 4 then strokeFault s n g t 2 idx
    else modPod s g (fun p => { p with mxa := { p.mxa with cfg := {
      aType := bits w 32 4, bType := bits w 36 4, aScaled := bit w 40, bScaled := bit w 41,
      aStride := bits w 48 16, aScaleAddr := bits w 64 16, bScaleAddr := bits w 80 16 } } }))

def execMxaConfig (g : Fin 256) (s : State) : Out := .next (mxaConfig s g)

/-- A span of bytes reaches beyond the scratchpad. -/
def beyond (addr n : Nat) : Bool := decide (0x200000 < addr + n)

/-- Launch hc of the last stream row that used a plane. -/
def lastUse (m : Mxa) (i : Nat) : Option Nat := if i = 0 then m.use0 else m.use1

/-- Conditions that fault a LOAD (R117, R122, R123). -/
def loadFaults (m : Mxa) (u rows src : Nat) : List Nat :=
  let c := m.cfg
  let tgt := 1 - m.active
  let pe := pairE c.aType c.bType
  let e := pe.getD 1
  let blocks := if c.bScaled then ceilDiv' (rows * e) 32 else 0
  let early := match m.lastLoad with | some (u0, r0) => decide (u < u0 + r0) | none => false
  let used := match lastUse m tgt with | some t => decide (u < t + 31) | none => false
  (if early || used then [3] else []) ++ (if pe.isNone then [1] else []) ++
    (if scaleOk c.bType c.bScaled then [] else [6]) ++
    (if beyond (32 * src) (64 * rows) || (c.bScaled && beyond (32 * c.bScaleAddr) (32 * blocks)) then [7] else [])

/-- A LOAD that completed before a stroke takes its plane is counted (R133). -/
def loadDone (s : State) (g i : Nat) : State :=
  if (plane (pod s g).mxa i).st = 1 then bump s (podReg g 0x420) 1 else s

/-- LOAD writes the shadow plane, which is LOADING until it is usable (R117, R122). -/
def mxaLoad (s : State) (g : Nat) : State :=
  launch s g 1 2 (resv 55 127) (fun s n t w idx =>
    let m := (pod s g).mxa
    let rows := bits w 48 7 + 1
    let src := bits w 32 16
    match loadFaults m t rows src with
    | [] =>
      let e := (pairE m.cfg.aType m.cfg.bType).getD 1
      let tgt := 1 - m.active
      let pl : Plane := { st := 1, typ := m.cfg.bType, scaled := m.cfg.bScaled, rows := rows, e := e,
                          usable := t + rows + 1, img := (plane m tgt).img, scales := (plane m tgt).scales }
      let s := loadDone s g tgt
      let m := setPlane m tgt pl
      modPod s g (fun p => { p with mxa := { m with
        loads := m.loads ++ [⟨t, rows, src, tgt, e, m.cfg.bScaleAddr, 0, idx⟩], lastLoad := some (t, rows) } })
    | fs => mxaFault s n g t idx fs)

def execMxaLoad (g : Fin 256) (s : State) : Out := .next (mxaLoad s g)

/-- The plane that finishes loading first becomes READY (R117); a completed LOAD is counted (R133). -/
def planeUsable (s : State) (g : Nat) : State :=
  let p := pod s g
  match p.hatch with
  | none => s
  | some n =>
    let i := if p.mxa.p0.st = 1 ∧ (p.mxa.p1.st ≠ 1 ∨ p.mxa.p0.usable ≤ p.mxa.p1.usable) then 0 else 1
    let pl := plane p.mxa i
    if !running s n || pl.st != 1 then s
    else
      let s := arrive s n pl.usable
      if !running s n then s
      else
        let s := modPod (reachHc s n pl.usable) g (fun p =>
          { p with mxa := setPlane p.mxa i { plane p.mxa i with st := 2 } })
        bump s (podReg g 0x420) 1

def execMxaPlaneUsable (g : Fin 256) (s : State) : Out := .next (planeUsable s g)

/-- Conditions that fault a STREAM (R123, R130). -/
def streamFaults (m : Mxa) (t w : Nat) : List Nat :=
  let c := m.cfg
  let rows := bits w 80 12 + 1
  let kExt := bits w 92 9 + 1
  let swap := bit w 102
  let pl := plane m (if swap then 1 - m.active else m.active)
  let ready := pl.st == 2 || (pl.st == 1 && decide (pl.usable ≤ t))
  let pe := pairE c.aType pl.typ
  let overlap := match m.lastStream with | some (t0, r0) => decide (t < t0 + r0) | none => false
  let nb := streamBytes c.aType pl.e
  let badAddr := c.aStride == 0 || beyond (32 * bits w 32 16 + 32 * c.aStride * (rows - 1)) nb ||
    beyond (32 * bits w 48 16) (128 * rows) || (bit w 101 && beyond (32 * bits w 64 16) (128 * rows)) ||
    (c.aScaled && beyond (32 * c.aScaleAddr) (16 * rows))
  if !ready then [2] ++ (if overlap then [4] else [])
  else (if overlap then [4] else []) ++
    (if 128 * pl.e < kExt || pl.rows * pl.e < kExt then [5] else []) ++
    (if pe == some pl.e then [] else [1]) ++ (if scaleOk c.aType c.aScaled then [] else [6]) ++
    (if badAddr then [7] else [])

/-- The array's busy span grows by a stream of `rows` rows at `t` (R127). Its edges up to the present hc `h`, from those
of the launch on, go to MXA_BUSY_HC now; `reachHc` counts the later ones. -/
def busySpan (s : State) (n g t rows : Nat) : State :=
  let m := (pod s g).mxa
  let last := t + rows - 1 + 165
  let h := max t (gen s n).hc
  let from' := match m.busyTo with | some e => max t (e + 1) | none => t
  let s := modPod s g (fun p => { p with mxa := match m.busyTo with
    | some e => if t ≤ e + 1 then { p.mxa with busyTo := some (max e last) } else { p.mxa with busyFrom := t, busyTo := some last }
    | none => { p.mxa with busyFrom := t, busyTo := some last } })
  if h < from' then s else sample (bump s (podReg g 0x410) (h + 1 - from')) n 3 (h + 1 - from')

/-- Arrays of a hatch that are busy in hc `h`. -/
def busyCount (s : State) (n h : Nat) : Nat := ((hatchPods s n).filter (fun g => arrayBusy (pod s g).mxa h)).length

/-- START_RAMP: the number of busy arrays rises by more than one eighth of the hatch's pods in hc `t` (R127). -/
def startRamp (s : State) (n t : Nat) : State :=
  let x := gen s n
  let was := if t = 0 then 0 else busyCount s n (t - 1)
  let r := (t, t + rampEdges s n - 1)
  if x.size < 8 * (busyCount s n t - was) ∧ !(x.slow.any (fun y => y.1 == t)) then setGen s n { x with slow := x.slow ++ [r] }
  else s

/-- STREAM (R118): swap the planes if asked, then the rows launch one an hc. -/
def mxaStream (s : State) (g : Nat) : State :=
  launch s g 1 3 (resv 103 127) (fun s n t w idx =>
    let m := (pod s g).mxa
    match streamFaults m t w with
    | [] =>
      let act := if bit w 102 then 1 - m.active else m.active
      let pl := { plane m act with st := 2 }
      let rows := bits w 80 12 + 1
      let x : MxaStream := {
        t := t, rows := rows, aAddr := bits w 32 16, outAddr := bits w 48 16, accAddr := bits w 64 16,
        kExt := bits w 92 9 + 1, init := bit w 101, cfg := m.cfg, plane := pl, next := 0, idx := idx }
      let m := setPlane m act pl
      let last := some (t + rows - 1)
      let m := { m with active := act, streams := m.streams ++ [x], lastStream := some (t, rows),
                        use0 := if act = 0 then last else m.use0, use1 := if act = 1 then last else m.use1 }
      let s := loadDone s g act
      startRamp (busySpan (modPod s g (fun p => { p with mxa := m })) n g t rows) n t
    | fs => mxaFault s n g t idx fs)

def execMxaStream (g : Fin 256) (s : State) : Out := .next (mxaStream s g)

/-- The oldest row inside the array delivers: its results are readable 166 hc after its launch, and its flags are set
then (R111, R119, R126). -/
def mxaRowResult (s : State) (g : Nat) : State :=
  let p := pod s g
  match p.hatch with
  | none => s
  | some n =>
    let due := match p.mxa.rows, p.mxa.streams with
      | r :: _, _ => some (r.launch + 166)
      | [], x :: _ => some (x.t + x.next + 166)
      | [], [] => none
    match due with
    | none => s
    | some h =>
      let s := arrive s n h
      if !running s n then s
      else
        let p := pod s g
        match p.mxa.rows with
        | [] => s
        | r :: rs =>
          let s := reachHc (setPod s g { p with mxa := { p.mxa with rows := rs } }) n h
          let s := bump (setBits s (podReg g 0x408) r.flags) (podReg g 0x418) 1
          let d := g / 128
          let q := (gen s n).part
          countOps (countOps s d q 0 r.aType r.products) d q 1 r.bType r.products

def execMxaRowResult (g : Fin 256) (s : State) : Out := .next (mxaRowResult s g)

end Sys2Proof.Machine
end

