-- ==== Sys2Proof/Machine/VecOps.lean ====
section
/-! DEFINITION. The vector pipes' launches and row writes, stipple programs, and pip tables
(06_vector_engine.md R138–R169, 07_special_functions.md R171–R187). -/
namespace Sys2Proof.Machine
open Sys2Proof

/-- A VEC fault of launch (R165, R166). -/
def vecFault (s : State) (n g h code : Nat) (x : VSite) : State :=
  unitFault s n g h (podReg g 0x610) [vecVal code x 0 0] 3

/-- An SFU fault (R184, R186): more than one code where the spec does not order the conditions. -/
def sfuFault (s : State) (n g h : Nat) (codes : List Nat) (x : VSite) (table curve : Nat) : State :=
  unitFault s n g h (podReg g 0x808) (codes.map (fun c =>
    c + fld 8 14 x.idx + fld 22 1 x.pipe + fld 23 1 (b2n x.inStip) + fld 24 4 x.slot + fld 28 5 x.instr +
      fld 33 1 table + fld 34 3 curve)) 4

/-- The table that a PIP launched at `t` finds active (R181). -/
def activeTable (x : Pipe) (t : Nat) : Nat := if x.swapped && x.swapAt == t then x.oldAct else x.act

/-- READY at `t` (R180). -/
def pipReady (x : Pip) (t : Nat) : Bool := x.st == 2 || (x.st == 1 && decide (x.ready ≤ t))

/-- A row operation starts (R141): its rows join those in flight, and the port is taken. What it issues and occupies up to
the hatch's present hc is counted here, the rest as those hc are reached (R169, R490). -/
def startRows (s : State) (h g i t n estep : Nat) (ins : VIns) (x : VSite) (table : Nat) : State :=
  let o := vOcc ins
  let l := vLatency ins
  let now := max t (gen s h).hc
  let s := modPod s g (fun p =>
    let q := pipe p i
    let q := { q with
      portFree := t + o * ins.nrows
      rows := q.rows ++ tab ins.nrows (fun k => {
        pipe := i, ins := ins, row := ins.row0 + k, readHc := t + o * k, writeHc := t + o * k + l, site := x,
        stream := q.stream, ebase := q.rbase + n * estep, pitch := q.pitch, table := table }) }
    let q := if ins.op = 0x44 then
        let u := pip q table
        setPip q table { u with held := max u.held (t + 4 * (ins.nrows - 1) + 16) }
      else q
    setPipe p i q)
  let busy := vecBusyIn (pipe (pod s g) i) t now
  sample (bump (bump s (podReg g (0x618 + 8 * i)) (ceilDiv' busy o)) (podReg g (0x628 + 8 * i)) busy) h 4 busy

/-- The launch of a row operation, with its checks in the order of R165. `own` says that a stipple launches it. -/
def launchRows (s : State) (g h t i w n estep : Nat) (x : VSite) (own : Bool) : State :=
  let ins := vdec w
  let q := pipe (pod s g) i
  if vBadStroke ins then strokeFault s h g t 2 x.idx
  else if vModeFault ins then vecFault s h g t 3 x
  else if vExtentFault ins then vecFault s h g t 2 x
  else if t < q.portFree ∨ (!own && (q.stip.isSome || decide (t < q.owned))) then vecFault s h g t 1 x
  else
    let a := activeTable q t
    let u := pip q a
    if ins.op = 0x44 ∧ u.st = 0 then sfuFault s h g t [1] x a 0
    else if ins.op = 0x44 ∧ pipBad u.img (ins.subop % 8) then sfuFault s h g t [4] x a (ins.subop % 8)
    else startRows s h g i t n estep ins x a

/-- Tile fields of an operation that name masks and never relocate (R162): D, A and B. -/
def maskFields (op : Nat) : Bool × Bool × Bool :=
  if op = 0x10 then (true, false, false)
  else if op = 0x16 then (false, true, false)
  else if op = 0x17 then (true, false, false)
  else if isMaskOp op then (true, true, true)
  else (false, false, false)

/-- Replace a six-bit tile field by its relocated number. -/
def relocField (w lo base : Nat) (on : Bool) : Nat :=
  if on then w - fld lo 6 (bits w lo 6) + fld lo 6 ((base + bits w lo 6) % 64) else w

/-- Relocation of a stipple instruction in repetition `n` (R162). -/
def relocate (w base : Nat) : Nat :=
  let (md, ma, mb) := maskFields (strokeOp w)
  let w1 := relocField w 32 base (bit w 28 && !md)
  let w2 := relocField w1 38 base (bit w 29 && !ma)
  let w3 := relocField w2 44 base (bit w 30 && !mb)
  relocField w3 50 base (bit w 31)

/-- The next instruction of the stipple that runs on a pipe of a pod (R160, R163). -/
def stipWord (p : Pod) (z : Stip) : Nat :=
  (nth 0#128 (tget [] p.slots z.slot) z.instr).toNat

/-- The launch of a running stipple's next instruction (R163), which must match; nothing launches otherwise. -/
def stipWith (s : State) (g i : Nat) (match' : Nat → Bool)
    (eff : State → Nat → Nat → Nat → Stip → VSite → State) : State :=
  let p := pod s g
  match p.hatch, (pipe p i).stip with
  | some h, some z =>
    let w := stipWord p z
    let t := z.base + strokeDelta w
    if !canLaunch s h t || !match' (strokeOp w) then s
    else
      let s := advance s h t
      if !canLaunch s h t then s
      else
        let s := reachHc s h t
        let x : VSite := ⟨z.idx, i, true, z.slot, z.instr⟩
        let o := tget 0 (pod s g).slotErrs (16 * z.slot + z.instr / 2)
        let s := noteStore s g o
        if eccBad huskF o then eccFault s h g t [2 + (16 * z.slot + z.instr / 2) * 256]
        else eff s h t w z x
  | _, _ => s

def isPtOp (op : Nat) : Bool := op == 0x48 || op == 0x49

/-- A stipple moves on to its next instruction; passing instruction 31 is a STIPPLE fault (R164). -/
def stipMoveOn (s : State) (h g i t : Nat) (z : Stip) (x : VSite) : State :=
  if !canLaunch s h t then s
  else if z.instr = 31 then vecFault s h g t 6 x
  else modPod s g (fun p => setPipe p i { pipe p i with stip := some { z with instr := z.instr + 1, base := t } })

/-- A row operation launched by a stroke or as the running stipple's next instruction. -/
def vecOp (s : State) (g i op : Nat) (stip : Bool) : State :=
  if stip then
    stipWith s g i (fun o => o == op) (fun s h t w z x =>
      if vBadStroke (vdec w) then strokeFault s h g t 2 x.idx
      else if bits w 16 4 != 0 then vecFault s h g t 6 x
      else
        let live := (gen s h).faulted
        let s := launchRows s g h t i (relocate w (z.tbase + z.rep * z.tstep)) z.rep z.estep x true
        if (gen s h).faulted && !live then s else stipMoveOn s h g i t z x)
  else
    launch s g (2 + i) op 0 (fun s h t w idx => launchRows s g h t i w 0 0 ⟨idx, i, false, 0, 0⟩ false)

/-- SETRND loads the rounding context (R150); inside a stipple it is a STIPPLE fault (R162). -/
def setRnd (s : State) (g i : Nat) (stip : Bool) : State :=
  if stip then stipWith s g i (fun o => o == 0x30) (fun s h t _ _ x => vecFault s h g t 6 x)
  else
    launch s g (2 + i) 0x30 (resv 122 127) (fun s h t w idx =>
      let q := pipe (pod s g) i
      if q.stip.isSome || decide (t < q.owned) then vecFault s h g t 1 ⟨idx, i, false, 0, 0⟩
      else modPod s g (fun p => setPipe p i { q with stream := bits w 32 16, rbase := bits w 48 50, pitch := bits w 98 24 }))

/-- STIP starts a stipple (R161, R163, R164). -/
def stipStroke (s : State) (g i : Nat) : State :=
  launch s g (2 + i) 0x38 (resv 80 127) (fun s h t w idx =>
    let p := pod s g
    let q := pipe p i
    let x : VSite := ⟨idx, i, false, 0, 0⟩
    let slot := bits w 32 4
    if q.stip.isSome || decide (t < q.owned) || decide (t < q.portFree) then vecFault s h g t 1 x
    else if (tget [] p.slots slot).isEmpty then vecFault s h g t 5 x
    else modPod s g (fun p => setPipe p i { q with stip := some {
      first := slot, slot := slot, base := t, tbase := bits w 36 6, tstep := bits w 42 6,
      count := bits w 48 8 + 1, estep := bits w 56 24, idx := idx } }))

/-- Stroke codes that a stipple's launch of END also takes up: anything that no other command names. -/
def stipEndOp (op : Nat) : Bool := !isRowOp op && op != 0x30 && !isPtOp op

/-- The burin's next stroke is an END to pipe `i`, and no END of the stipple that runs there comes before it. -/
def burinEnd (p : Pod) (i : Nat) (z : Stip) : Bool :=
  match p.burin.prog[p.burin.idx]? with
  | some wv =>
    let w := wv.toNat
    strokeUnit w == 2 + i && strokeOp w == 0x3F && !p.burin.waiting &&
      (!stipEndOp (strokeOp (stipWord p z)) || decide (launchHc p.burin w < z.base + strokeDelta (stipWord p z)))
  | none => false

/-- END of a stipple slot (R163, R164), an undefined operation inside a stipple, or END outside one (R162); an END stroke
to a pipe that runs a stipple meets PIPE_BUSY too, and the spec does not order the two. -/
def stippleEnd (s : State) (g i : Nat) : State :=
  let p := pod s g
  match (pipe p i).stip with
  | some z =>
    if burinEnd p i z then
      launch s g (2 + i) 0x3F 0 (fun s h t _ idx =>
        let x : VSite := ⟨idx, i, false, 0, 0⟩
        unitFault s h g t (podReg g 0x610) [vecVal 1 x 0 0, vecVal 6 x 0 0] 3)
    else stipWith s g i stipEndOp (fun s h t w z x =>
      let op := strokeOp w
      if op = 0x3F then
        if w / 2 ^ 37 != 0 then strokeFault s h g t 2 x.idx
        else if bits w 16 4 != 0 then vecFault s h g t 6 x
        else
          let nxt := bits w 32 4
          let p := pod s g
          let put := fun z' : Option Stip => setPod s g (setPipe p i { pipe p i with stip := z' })
          if bit w 36 then
            if 3 ≤ z.links then vecFault s h g t 6 x
            else if (tget [] p.slots nxt).isEmpty then vecFault s h g t 5 x
            else put (some { z with slot := nxt, instr := 0, base := t, links := z.links + 1 })
          else if z.rep + 1 < z.count then
            put (some { z with slot := z.first, instr := 0, base := t, links := 0, rep := z.rep + 1 })
          else
            setPod s g (setPipe p i { pipe p i with stip := none, owned := max t (pipe p i).portFree })
      else if op = 0x38 then vecFault s h g t 6 x
      else strokeFault s h g t 2 x.idx)
  | none =>
    launch s g (2 + i) 0x3F 0 (fun s h t _ idx => vecFault s h g t 6 ⟨idx, i, false, 0, 0⟩)

/-! ### Pip tables -/

/-- The five read hc of a PTLOAD launched at `t` (R180). -/
def ptHcs (share : Nat) (p : Pod) (t : Nat) : List Nat :=
  let a := nextPlate share p t
  let b := nextPlate share p (a + 1)
  let c := nextPlate share p (b + 1)
  let d := nextPlate share p (c + 1)
  [a, b, c, d, nextPlate share p (d + 1)]

/-- PTLOAD (R180, R182). -/
def ptLoad (s : State) (g i : Nat) (stip : Bool) : State :=
  if stip then stipWith s g i (fun o => o == 0x48) (fun s h t _ _ x => vecFault s h g t 6 x)
  else
    launch s g (2 + i) 0x48 (resv 48 127) (fun s h t w idx =>
      let p := pod s g
      let q := pipe p i
      let sh := 1 - q.act
      let u := pip q sh
      let addr := bits w 32 16
      let codes := (if beyond (32 * addr) 4224 then [5] else []) ++
        (if (u.st == 1 && decide (t < u.ready)) || decide (t < u.held) then [3] else [])
      match codes with
      | [] =>
        let hs := ptHcs (part s (gen s h).part).share p t
        let rs := (List.range 5).map (fun k => (⟨nth 0 hs k, addr + 32 * k, if k = 4 then 4 else 32, 32 * k, sh, idx⟩ : PtRead))
        let s := if u.st = 1 then bump s (podReg g 0x820) 1 else s
        setPod s g (setPipe p i { setPip q sh { st := 1, img := 0, ready := nth 0 hs 4 + 4, held := u.held } with
          ptReads := q.ptReads ++ rs })
      | cs => sfuFault s h g t cs ⟨idx, i, false, 0, 0⟩ sh 0)

/-- The loading table becomes READY, and the completed PTLOAD is counted (R180, R187). -/
def pipTableReady (s : State) (g i : Nat) : State :=
  let p := pod s g
  match p.hatch with
  | none => s
  | some h =>
    let q := pipe p i
    let j := if q.pt0.st = 1 then 0 else 1
    if (pip q j).st ≠ 1 then s
    else
      let s := arrive s h (pip q j).ready
      if !running s h then s
      else
        let s := modPod (reachHc s h (pip q j).ready) g (fun p =>
          let q := pipe p i
          setPipe p i (setPip q j { pip q j with st := 2 }))
        bump s (podReg g 0x820) 1

/-- PTSWAP (R181). -/
def ptSwap (s : State) (g i : Nat) (stip : Bool) : State :=
  if stip then stipWith s g i (fun o => o == 0x49) (fun s h t _ _ x => vecFault s h g t 6 x)
  else
    launch s g (2 + i) 0x49 (resv 32 127) (fun s h t _ idx =>
      let q := pipe (pod s g) i
      let sh := 1 - q.act
      if pipReady (pip q sh) t then
        modPod s g (fun p => setPipe p i { q with act := sh, oldAct := q.act, swapAt := t, swapped := true })
      else sfuFault s h g t [2] ⟨idx, i, false, 0, 0⟩ sh 0)

/-! ### Row writes and traps -/

/-- Flags of a row that trap (R159). -/
def trapFlags (s : State) (g : Nat) (r : VRow) : Nat :=
  (r.out.getD {}).flags &&& rd s (podReg g 0x604) % 128

/-- The first row of a pipe that is due in hc `h` and traps. -/
def trapRow (s : State) (g i h : Nat) : Option VRow :=
  (pipe (pod s g) i).rows.find? (fun r => r.writeHc == h && trapFlags s g r != 0)

/-- A pod's traps of hc `h`: flags set, VEC_FAULT with pipe 0 first and BOTH (R159). -/
def recordTrap (s : State) (g h : Nat) : State × Bool :=
  let note := fun (s : State) (r : VRow) => setBits s (podReg g (0x608 + 4 * r.pipe)) ((r.out.getD {}).flags)
  let val := fun r : VRow => vecVal 7 r.site r.row ((r.out.getD {}).flags)
  match trapRow s g 0 h, trapRow s g 1 h with
  | some a, some b => (recordFault (note (note s a) b) (podReg g 0x610) (val a + fld 43 1 1), true)
  | some a, none => (recordFault (note s a) (podReg g 0x610) (val a), true)
  | none, some b => (recordFault (note s b) (podReg g 0x610) (val b), true)
  | none, none => (s, false)

/-- Every trap of hc `h` in the hatch: the clock stops before that edge (R159). -/
def trapStop (s : State) (n h : Nat) : State × Bool :=
  let bad := (hatchPods s n).filter (fun g => (trapRow s g 0 h).isSome || (trapRow s g 1 h).isSome)
  match bad with
  | [] => (s, false)
  | g :: _ =>
    let s := bad.foldl (fun s g => (recordTrap s g h).1) s
    (requestReset (stopClock s n (h - 1) false) (gen s n).part ⟨1, g, 3⟩, true)

/-- Flags of elements counted by class 11 (R487): vector and special-function elements. -/
def countFlags (s : State) (d p : Nat) (fs : List Nat) : State :=
  foldNat 7 (fun k s => countOps s d p 11 k ((fs.filter (fun f => bit f k)).length)) s

/-- A row that falls due is written (R141), its flags set (R158) and its work counted (R187, R488). -/
def writeRow (s : State) (n g i h : Nat) (r : VRow) : State :=
  let o := r.out.getD {}
  let s := reachHc s n h
  let p := pod s g
  let p := setPipe p i { pipe p i with rows := (pipe p i).rows.erase r }
  let (p, cl) := o.writes.foldl (fun (q : Pod × List Nat) w =>
    match fileWrite g q.1 h w r.site with
    | (p', some a) => (p', if q.2.isEmpty then clashVals a r.site else q.2)
    | (p', none) => (p', q.2)) (p, [])
  let s := setBits (setPod s g p) (podReg g (0x608 + 4 * i)) o.flags
  if !cl.isEmpty then unitFault s n g h (podReg g 0x610) cl 3
  else
    let d := g / 128
    let q := (gen s n).part
    let s := countOps s d q (opClass r.ins).1 (opClass r.ins).2 o.elems
    let s := if isStat r.ins.op then s else countFlags s d q o.eflags
    if isSfu r.ins.op then bump s (podReg g (0x810 + 8 * i)) r.ins.lanes else s

/-- The pipe's row that falls due first is written L hc after its read (R141), or the traps of its hc stop the hatch. -/
def vectorRowWrite (s : State) (g i : Nat) : State :=
  let p := pod s g
  match p.hatch, ((pipe p i).rows.map (·.writeHc)).min? with
  | some n, some h =>
    let s := advance s n h
    if !running s n then s
    else
      let (s, trapped) := trapStop s n h
      if trapped then s
      else
        let (q, cl) := settleTiles g (settleSpad (pod s g) h) h
        let s := setPod s g q
        if !cl.isEmpty then unitFault s n g h (podReg g 0x610) cl 3
        else match (pipe (pod s g) i).rows.find? (fun r => r.writeHc == h) with
          | some r => writeRow s n g i h r
          | none => s
  | _, _ => s

/-! ### The commands -/

/-- ADD, OP 0x1 (R146). -/
def execAdd (g : Fin 256) (pipe : Fin 2) (stip : Bool) (s : State) : Out := .next (vecOp s g pipe 1 stip)
/-- SUB, OP 0x2 (R146). -/
def execSub (g : Fin 256) (pipe : Fin 2) (stip : Bool) (s : State) : Out := .next (vecOp s g pipe 2 stip)
/-- MUL, OP 0x3 (R146). -/
def execMul (g : Fin 256) (pipe : Fin 2) (stip : Bool) (s : State) : Out := .next (vecOp s g pipe 3 stip)
/-- FMA, OP 0x4 (R146). -/
def execFma (g : Fin 256) (pipe : Fin 2) (stip : Bool) (s : State) : Out := .next (vecOp s g pipe 4 stip)
/-- MIN, OP 0x5 (R146). -/
def execMin (g : Fin 256) (pipe : Fin 2) (stip : Bool) (s : State) : Out := .next (vecOp s g pipe 5 stip)
/-- MAX, OP 0x6 (R146). -/
def execMax (g : Fin 256) (pipe : Fin 2) (stip : Bool) (s : State) : Out := .next (vecOp s g pipe 6 stip)
/-- MOV, OP 0x7 (R146). -/
def execMov (g : Fin 256) (pipe : Fin 2) (stip : Bool) (s : State) : Out := .next (vecOp s g pipe 7 stip)
/-- MOVI, OP 0x8 (R146). -/
def execMovi (g : Fin 256) (pipe : Fin 2) (stip : Bool) (s : State) : Out := .next (vecOp s g pipe 8 stip)
/-- IOTA, OP 0x9 (R146). -/
def execIota (g : Fin 256) (pipe : Fin 2) (stip : Bool) (s : State) : Out := .next (vecOp s g pipe 9 stip)
/-- CMP, OP 0x10 (R146). -/
def execCmp (g : Fin 256) (pipe : Fin 2) (stip : Bool) (s : State) : Out := .next (vecOp s g pipe 16 stip)
/-- SEL, OP 0x11 (R146). -/
def execSel (g : Fin 256) (pipe : Fin 2) (stip : Bool) (s : State) : Out := .next (vecOp s g pipe 17 stip)
/-- MAND, OP 0x12 (R146). -/
def execMand (g : Fin 256) (pipe : Fin 2) (stip : Bool) (s : State) : Out := .next (vecOp s g pipe 18 stip)
/-- MOR, OP 0x13 (R146). -/
def execMor (g : Fin 256) (pipe : Fin 2) (stip : Bool) (s : State) : Out := .next (vecOp s g pipe 19 stip)
/-- MXOR, OP 0x14 (R146). -/
def execMxor (g : Fin 256) (pipe : Fin 2) (stip : Bool) (s : State) : Out := .next (vecOp s g pipe 20 stip)
/-- MNOT, OP 0x15 (R146). -/
def execMnot (g : Fin 256) (pipe : Fin 2) (stip : Bool) (s : State) : Out := .next (vecOp s g pipe 21 stip)
/-- MTOT, OP 0x16 (R146). -/
def execMtot (g : Fin 256) (pipe : Fin 2) (stip : Bool) (s : State) : Out := .next (vecOp s g pipe 22 stip)
/-- TTOM, OP 0x17 (R146). -/
def execTtom (g : Fin 256) (pipe : Fin 2) (stip : Bool) (s : State) : Out := .next (vecOp s g pipe 23 stip)
/-- CVT, OP 0x18 (R146). -/
def execCvt (g : Fin 256) (pipe : Fin 2) (stip : Bool) (s : State) : Out := .next (vecOp s g pipe 24 stip)
/-- QNT, OP 0x19 (R146). -/
def execQnt (g : Fin 256) (pipe : Fin 2) (stip : Bool) (s : State) : Out := .next (vecOp s g pipe 25 stip)
/-- DQN, OP 0x1a (R146). -/
def execDqn (g : Fin 256) (pipe : Fin 2) (stip : Bool) (s : State) : Out := .next (vecOp s g pipe 26 stip)
/-- IADD, OP 0x20 (R146). -/
def execIadd (g : Fin 256) (pipe : Fin 2) (stip : Bool) (s : State) : Out := .next (vecOp s g pipe 32 stip)
/-- ISUB, OP 0x21 (R146). -/
def execIsub (g : Fin 256) (pipe : Fin 2) (stip : Bool) (s : State) : Out := .next (vecOp s g pipe 33 stip)
/-- IAND, OP 0x22 (R146). -/
def execIand (g : Fin 256) (pipe : Fin 2) (stip : Bool) (s : State) : Out := .next (vecOp s g pipe 34 stip)
/-- IOR, OP 0x23 (R146). -/
def execIor (g : Fin 256) (pipe : Fin 2) (stip : Bool) (s : State) : Out := .next (vecOp s g pipe 35 stip)
/-- IXOR, OP 0x24 (R146). -/
def execIxor (g : Fin 256) (pipe : Fin 2) (stip : Bool) (s : State) : Out := .next (vecOp s g pipe 36 stip)
/-- SHL, OP 0x25 (R146). -/
def execShl (g : Fin 256) (pipe : Fin 2) (stip : Bool) (s : State) : Out := .next (vecOp s g pipe 37 stip)
/-- SHR, OP 0x26 (R146). -/
def execShr (g : Fin 256) (pipe : Fin 2) (stip : Bool) (s : State) : Out := .next (vecOp s g pipe 38 stip)
/-- SRA, OP 0x27 (R146). -/
def execSra (g : Fin 256) (pipe : Fin 2) (stip : Bool) (s : State) : Out := .next (vecOp s g pipe 39 stip)
/-- PERM, OP 0x28 (R146). -/
def execPerm (g : Fin 256) (pipe : Fin 2) (stip : Bool) (s : State) : Out := .next (vecOp s g pipe 40 stip)
/-- ROT, OP 0x29 (R146). -/
def execRot (g : Fin 256) (pipe : Fin 2) (stip : Bool) (s : State) : Out := .next (vecOp s g pipe 41 stip)
/-- EXP2, OP 0x40 (R146). -/
def execExp2 (g : Fin 256) (pipe : Fin 2) (stip : Bool) (s : State) : Out := .next (vecOp s g pipe 64 stip)
/-- LOG2, OP 0x41 (R146). -/
def execLog2 (g : Fin 256) (pipe : Fin 2) (stip : Bool) (s : State) : Out := .next (vecOp s g pipe 65 stip)
/-- PIP, OP 0x44 (R146). -/
def execPip (g : Fin 256) (pipe : Fin 2) (stip : Bool) (s : State) : Out := .next (vecOp s g pipe 68 stip)
/-- STAT, OP 0x60 (R146). -/
def execStat (g : Fin 256) (pipe : Fin 2) (stip : Bool) (s : State) : Out := .next (vecOp s g pipe 96 stip)
/-- SCMB, OP 0x61 (R146). -/
def execScmb (g : Fin 256) (pipe : Fin 2) (stip : Bool) (s : State) : Out := .next (vecOp s g pipe 97 stip)
/-- SFIN, OP 0x62 (R146). -/
def execSfin (g : Fin 256) (pipe : Fin 2) (stip : Bool) (s : State) : Out := .next (vecOp s g pipe 98 stip)
/-- SCLR, OP 0x63 (R146). -/
def execSclr (g : Fin 256) (pipe : Fin 2) (stip : Bool) (s : State) : Out := .next (vecOp s g pipe 99 stip)
/-- SMAX, OP 0x64 (R146). -/
def execSmax (g : Fin 256) (pipe : Fin 2) (stip : Bool) (s : State) : Out := .next (vecOp s g pipe 100 stip)
/-- SNRM, OP 0x65 (R146). -/
def execSnrm (g : Fin 256) (pipe : Fin 2) (stip : Bool) (s : State) : Out := .next (vecOp s g pipe 101 stip)
/-- SCAN, OP 0x68 (R146). -/
def execScan (g : Fin 256) (pipe : Fin 2) (stip : Bool) (s : State) : Out := .next (vecOp s g pipe 104 stip)
/-- ASCN, OP 0x69 (R146). -/
def execAscn (g : Fin 256) (pipe : Fin 2) (stip : Bool) (s : State) : Out := .next (vecOp s g pipe 105 stip)
def execSetrnd (g : Fin 256) (pipe : Fin 2) (stip : Bool) (s : State) : Out := .next (setRnd s g pipe stip)
def execStip (g : Fin 256) (pipe : Fin 2) (s : State) : Out := .next (stipStroke s g pipe)
def execStippleEnd (g : Fin 256) (pipe : Fin 2) (s : State) : Out := .next (stippleEnd s g pipe)
def execVectorRowWrite (g : Fin 256) (pipe : Fin 2) (s : State) : Out := .next (vectorRowWrite s g pipe)
def execPtload (g : Fin 256) (pipe : Fin 2) (stip : Bool) (s : State) : Out := .next (ptLoad s g pipe stip)
def execPipTableReady (g : Fin 256) (pipe : Fin 2) (s : State) : Out := .next (pipTableReady s g pipe)
def execPtswap (g : Fin 256) (pipe : Fin 2) (stip : Bool) (s : State) : Out := .next (ptSwap s g pipe stip)

end Sys2Proof.Machine
end

