-- ==== Sys2Proof/Machine/Transfer.lean ====
section
/-! DEFINITION. Scratchpad transfers between scratchpad and tiles (09_scratchpad_copy.md R209, R210, R241). -/
namespace Sys2Proof.Machine
open Sys2Proof

/-- An ADDRESS fault of a transfer at launch (R210). A row's image is 1 KiB, or 2 KiB when WIDE (R136). -/
def xferBad (w : Nat) (store : Bool) : Bool :=
  let wide := bit w 76
  let n := bits w 41 3 + 1
  let img := if wide then 64 else 32
  decide (65536 < bits w 44 16 + bits w 60 16 * (n - 1) + img) || (wide && bits w 32 6 % 2 == 1) ||
    decide (8 < bits w 38 3 + n) || (!store && bits w 77 9 != 255)

/-- LDT and STT launch: their accesses are made in the plate hc that follow (R210). An STT of more than 256 lanes has a
field out of its table's range, which no transfer fault names (R84, R209). -/
def xferStroke (s : State) (g : Nat) (store : Bool) : State :=
  launch s g 4 (if store then 2 else 1) (resv 86 127) (fun s n t w idx =>
    if store && decide (256 < bits w 77 9 + 1) then strokeFault s n g t 2 idx
    else if xferBad w store then unitFault s n g t (podReg g 0xA00) [2 + idx * 256] 5
    else modPod s g (fun p =>
      let x : Xfer := {
        store := store
        tile := bits w 32 6
        row0 := bits w 38 3
        nrows := bits w 41 3 + 1
        waddr := bits w 44 16
        wstride := bits w 60 16
        wide := bit w 76
        lanes := bits w 77 9 + 1
        nextHc := nextPlate (part s (gen s n).part).share p t
        idx := idx }
      { p with xfers := p.xfers ++ [x] }))

/-- Accesses that each row makes (R210). -/
def xferParts (x : Xfer) : Nat :=
  if !x.store then (if x.wide then 2 else 1)
  else if x.wide then (if x.lanes % 4 = 0 then 2 else 3)
  else if x.lanes % 8 = 0 then 1 else 2

/-- A tile row's scratchpad image: 1 KiB, or 2 KiB of interleaved halves for a pair (R136). -/
def imageOf (lo hi : Nat) : Nat :=
  foldNat 256 (fun j v => v + ((bits lo (32 * j) 32 + bits hi (32 * j) 32 * 2 ^ 32) <<< (64 * j))) 0

/-- Every second 32-bit word of a 2 KiB image, from `k` (R136). -/
def halfImage (v k : Nat) : Nat := foldNat 256 (fun j a => a + (bits v (64 * j + 32 * k) 32 <<< (32 * j))) 0

def fullRow : Nat := 2 ^ 8192 - 1

/-- The words that access `x.part` of a transfer row reads, and those it writes. -/
def xferWords (x : Xfer) : List Nat × List Nat :=
  let a := x.waddr + x.wstride * x.row
  let span := fun lo hi => (List.range (hi - lo)).map (fun k => a + lo + k)
  if !x.store then (if x.part = 0 then span 0 32 else span 32 64, [])
  else
    let per := if x.wide then 4 else 8
    let whole := x.lanes / per
    let tail := x.lanes % per != 0
    if x.wide then
      match x.part with
      | 0 => ([], span 0 (min whole 32))
      | 1 => (if tail then span whole (whole + 1) else [], span 32 whole)
      | _ => ([], span whole (whole + 1))
    else
      match x.part with
      | 0 => (if tail then span whole (whole + 1) else [], span 0 whole)
      | _ => ([], span whole (whole + 1))

/-- The row's image as its first access finds it in the tiles. -/
def rowImage (g : Nat) (p : Pod) (x : Xfer) : Nat :=
  let k := 8 * x.tile + x.row0 + x.row
  if x.wide then imageOf (fileRow g p k) (fileRow g p (k + 8)) else fileRow g p k

/-- Bytes that an STT stores of each row. -/
def sttBytes (x : Xfer) : Nat := (if x.wide then 8 else 4) * x.lanes

/-- The merge read of a narrow write: the bytes of the last word beyond the last lane stay (R210). -/
def mergeTail (p : Pod) (x : Xfer) (img : Nat) (rs : List Nat) : Nat :=
  match rs with
  | w :: _ =>
    let n := sttBytes x
    img % 2 ^ (8 * n) + ((spadWord p w >>> (8 * (n % 32))) <<< (8 * n))
  | [] => img

/-- Words that an STT access writes, from the row's merged image. -/
def sttWrites (g : Nat) (x : Xfer) (img h : Nat) (ws : List Nat) : List SpadWrite :=
  let a := x.waddr + x.wstride * x.row
  let last := x.part + 1 == xferParts x && sttBytes x % 32 != 0
  ws.map (fun w => ⟨h + (if last then 9 else 4), h, h, g, 32 * w, 32, bits img (256 * (w - a)) 256⟩)

/-- What a completed LDT row brings to the tiles, 6 hc after its last access (R210). -/
def ldtWrites (x : Xfer) (img h : Nat) : List TileWrite :=
  let k := 8 * x.tile + x.row0 + x.row
  let site : VSite := ⟨x.idx, 0, false, 0, 0⟩
  if x.wide then [⟨h + 6, ⟨k, fullRow, halfImage img 0⟩, site⟩, ⟨h + 6, ⟨k + 8, fullRow, halfImage img 1⟩, site⟩]
  else [⟨h + 6, ⟨k, fullRow, img⟩, site⟩]

/-- The access after this one, in the next plate hc; none after the last (R210). -/
def xferNext (share : Nat) (p : Pod) (x : Xfer) (h hold : Nat) : List Xfer :=
  let nh := nextPlate share p (h + 1)
  if x.part + 1 < xferParts x then [{ x with part := x.part + 1, nextHc := nh, hold := hold }]
  else if x.row + 1 < x.nrows then [{ x with part := 0, row := x.row + 1, nextHc := nh, hold := 0 }]
  else []

/-- The transfer access of a pod that is due first: its words are read or written, and its tile or word write follows. -/
def transferRowAccess (s : State) (g : Nat) : State :=
  let p := pod s g
  match p.hatch, (p.xfers.map (·.nextHc)).min? with
  | some n, some h =>
    let s := arrive s n h
    if !running s n then s
    else
      let (p, cl) := settleTiles g (settleSpad (pod s g) h) h
      match p.xfers.find? (fun x => x.nextHc == h) with
      | none => s
      | some x =>
        let (rs, ws) := xferWords x
        let (p, bc) := portAccess (noteWords p rs) h (rs.map (fun w => (w, x.idx))) (ws.map (fun w => (w, x.idx)))
        let got := if x.store then mergeTail p x (if x.part = 0 then rowImage g p x else x.hold) rs
          else x.hold + (spadRead p (32 * (rs.headD 0)) 1024 <<< (8192 * x.part))
        let q := { p with
          xfers := p.xfers.flatMap (fun y => if y == x then xferNext (part s (gen s n).part).share p x h got else [y])
          spadPend := p.spadPend ++ (if x.store then sttWrites g x got h ws else [])
          tilePend := p.tilePend ++ (if !x.store && x.part + 1 == xferParts x then ldtWrites x got h else []) }
        let s := reachHc (setPod s g q) n h
        if !cl.isEmpty then unitFault s n g h (podReg g 0x610) cl 3
        else if !bc.isEmpty then unitFault s n g h (podReg g 0xA00) (bc.map (fun i => 1 + i * 256)) 5
        else if rs.any (wordBad p) then eccFault s n g h ((rs.filter (wordBad p)).map (fun w => 3 + w * 256))
        else s
  | _, _ => s

def execLdt (g : Fin 256) (s : State) : Out := .next (xferStroke s g false)
def execStt (g : Fin 256) (s : State) : Out := .next (xferStroke s g true)
def execTransferRowAccess (g : Fin 256) (s : State) : Out := .next (transferRowAccess s g)

end Sys2Proof.Machine
end

