-- ==== Sys2Proof/Machine/MemOps.lean ====
section
/-! DEFINITION. Memory-slot strokes and the landing of granules (10_memory_stacks.md R257–R260, 03 R75, R78). -/
namespace Sys2Proof.Machine
open Sys2Proof

/-- A POD_MEM_FAULT (R259, R272). -/
def memFault (s : State) (n g t code idx : Nat) : State := unitFault s n g t (podReg g 0xA10) [code + idx * 256] 7

/-- The stack's frame holds a HATCH slot for a hatch (R259). -/
def hasHatchSlot (s : State) (st n : Nat) : Bool :=
  (stk s st).frame.any (fun e => bits e.2 0 3 == 1 && bits e.2 4 5 == n % 16 && bits e.2 9 1 == n / 16)

/-- Why a memory-slot stroke fails at its launch (R259), with the granule's address where it does not. `h` is the hc in
which its scratchpad access is made. -/
def memCheck (s : State) (n g w h : Nat) (store : Bool) : Nat ⊕ Nat :=
  let q := (gen s n).part
  match tensorAt s q (bits w 32 16) with
  | none => .inl 0x21
  | some d =>
    if handleSpad (tdHandle d) then .inl 0x21
    else if store && !tdWrite d then .inl 0x22
    else match memGranule d (bits w 48 40) with
      | none => .inl 0x23
      | some a =>
        if 65535 < bits w 96 16 + 1 then .inl 0x23
        else match locate s a with
          | none => .inl 0x23
          | some l =>
            if (locateFrom s (n / 16) a).isNone then .inl 0x26
            else if !plateHc (part s q).share (pod s g) h then .inl 0x24
            else if !hasHatchSlot s l.st n then .inl 0x25
            else .inr a

/-- A request takes its place in a hatch's queue: by launch hc, those of one hc in ascending pod order (R254). -/
def placeReq (q : List MemReq) (r : MemReq) : List MemReq :=
  let before := fun x : MemReq => !(x.hc == r.hc && decide (r.pod < x.pod))
  q.takeWhile before ++ r :: q.dropWhile before

/-- A request joins an owner's queue of a channel. -/
def enqueue (s : State) (st c owner : Nat) (r : MemReq) : State :=
  modChan s st c (fun x => { x with queues := tmod [] x.queues owner (placeReq · r) })

/-- READ (R258): its request goes to the channel at the launch; it carries what the granule held as it arrived. -/
def memRead' (s : State) (g : Nat) : State :=
  launch s g 6 1 0 (fun s n t w idx =>
    let gap := bits w 112 16
    let entry := bits w 88 8
    if gap = 0 then strokeFault s n g t 2 idx
    else if (pod s g).landing.any (fun l => l.entry == entry) || (pod s g).landDone.contains (t, entry) then
      strokeFault s n g t 6 idx
    else match memCheck s n g w (t + gap) false with
      | .inl code => memFault s n g t code idx
      | .inr a => match locate s a with
        | none => s
        | some l =>
          let s := modPod s g (fun p => { p with landing := p.landing ++ [{
            due := t + gap, entry := entry, word := bits w 96 16, idx := idx, desc := bits w 32 16,
            granule := bits w 48 40, st := l.st }] })
          enqueue s l.st l.c n ⟨false, l.pg, a, (gen s n).part, t, g, entry, rawGranule s l.pg, granuleOvl s l.pg⟩)

def execMemRead (g : Fin 256) (s : State) : Out := .next (memRead' s g)

/-- WRITE (R258, R260): it reads its words, claims an entry of its channel's write buffer, and is visible from there;
the request drains the entry in one of the hatch's slots. -/
def memWriteStroke (s : State) (g : Nat) : State :=
  launch s g 6 2 (resv 88 95 + resv 112 127) (fun s n t w idx =>
    match memCheck s n g w t true with
    | .inl code => memFault s n g t code idx
    | .inr a => match locate s a with
      | none => s
      | some l =>
        let wd := bits w 96 16
        let p := settleSpad (pod s g) t
        let v := spadRead p (32 * wd) 64
        let (p, bc) := portAccess (noteWords p [wd, wd + 1]) t [(wd, idx), (wd + 1, idx)] []
        let s := flushCe (setPod s g p) g
        if !bc.isEmpty then unitFault s n g t (podReg g 0xA00) (bc.map (fun i => 1 + i * 256)) 5
        else if [wd, wd + 1].any (wordBad p) then
          eccFault s n g t (([wd, wd + 1].filter (wordBad p)).map (fun x => 3 + x * 256))
        else
          let q := (gen s n).part
          let s := modChan s l.st l.c (fun x => { x with buf := tmod 0 x.buf q (· + 1) })
          let s := touchAll (putGranule s l v 0) a 64
          enqueue (sample s n 6 1) l.st l.c n ⟨true, l.pg, a, q, t, g, 0, v, 0⟩)

def execMemWrite (g : Fin 256) (s : State) : Out := .next (memWriteStroke s g)

/-- The served granule of a pod that left its channel first arrives in the landing buffer, which ends a hold that
waited for it (R75, R78). -/
def granuleLanded (s : State) (g : Nat) : State :=
  let p := pod s g
  match p.hatch, ((p.landing.filter (fun l => !l.landed)).filterMap (·.served)).min? with
  | some n, some k =>
    let s := setPod s g { p with landing := p.landing.map (fun l => if l.served == some k then { l with landed := true } else l) }
    tryResume s n
  | _, _ => s

def execGranuleLanded (g : Fin 256) (s : State) : Out := .next (granuleLanded s g)

/-- The landing write of a pod that is due first: the granule goes to its words, or the hatch holds (R78, R258). An
uncorrectable granule stops the hatch and is not written (R282). -/
def landingWrite (s : State) (g : Nat) : State :=
  let p := pod s g
  match p.hatch, (p.landing.map (·.due)).min? with
  | some n, some h =>
    let s := arrive s n h
    if !running s n then s
    else match (pod s g).landing.find? (fun l => l.due == h) with
      | none => s
      | some l =>
        let s := reachHc s n h
        let p := pod s g
        if l.bad then unitFault s n g h (podReg g 0xA18) [4 + l.word * 256] 9
        else if !plateHc (part s (gen s n).part).share p h then memFault s n g h 0x24 l.idx
        else
          let (p, bc) := portAccess p h [] [(l.word, l.idx), (l.word + 1, l.idx)]
          let p := { p with landing := p.landing.erase l
                            landDone := p.landDone.filter (fun e => e.1 == h) ++ [(h, l.entry)]
                            spadPend := p.spadPend ++ [⟨h + 4, h, h, g, 32 * l.word, 64, l.data⟩] }
          let s := touchAll (sample (setPod s g p) n 5 1) (2 ^ 40 + g * 0x200000 + 32 * l.word) 64
          if bc.isEmpty then s else unitFault s n g h (podReg g 0xA00) (bc.map (fun i => 1 + i * 256)) 5
  | _, _ => s

def execLandingWrite (g : Fin 256) (s : State) : Out := .next (landingWrite s g)

end Sys2Proof.Machine
end

