-- ==== Sys2Proof/Machine/ChannelSlot.lean ====
section
/-! DEFINITION. The memory controllers: the slots of a channel and what each serves, refresh and its debt, the
scrubber, row migration, the frame, the region table and the integrity registers with commands of their own
(10_memory_stacks.md R245, R249–R264, 11_memory_integrity.md R283–R294). A copy's and an engine's bytes move whole at
their completion commands, so a COPY or UPE slot serves nothing more here. -/
namespace Sys2Proof.Machine
open Sys2Proof

/-- REFRESH_MULT of a thermal level as a factor (R262, R266). -/
def refreshMult (level : Nat) : Nat := if level = 0 then 1 else if level ≤ 2 then 2 else 4

/-- Refresh debt of a channel: refreshes due and added, less those made (R262–R264). -/
def refreshDebt (s : State) (st c : Nat) : Nat := (stk s st).owed / 15625 - (chan s st c).paid + (chan s st c).near.length

/-- May an access to a row be made in this slot (R254)? -/
def rowReady (x : Chan) (bank row : Nat) : Bool :=
  match tfind x.rows bank with
  | some (r, t) => r == row || decide (t + 6 ≤ x.slot)
  | none => true

/-- One refresh, in all sixteen banks: of a neighbour row that the debt holds, else of the next row (R262, R263). DESIGN
CHOICE: the neighbours go first. -/
def refreshSlot (s : State) (st c : Nat) : State :=
  let x := chan s st c
  let s := match x.near with
    | [] => setChan s st c { x with refRow := (x.refRow + 1) % 8208, paid := x.paid + 1 }
    | _ :: q => setChan s st c { x with near := q }
  bump ((List.range 16).foldl (fun s b => openRow s st c b (x.near.headD x.refRow)) s) (mchReg st 0x30) 1

/-- One migration access: the next granule of the channel's oldest migration is copied, corrected (R291). -/
def migrateSlot (s : State) (st c : Nat) : State :=
  match (chan s st c).migr with
  | [] => s
  | m :: ms => match m.left with
    | [] => s
    | g :: gs =>
      let l : Loc := ⟨st, c, m.bank, m.src, g⟩
      let o := granuleOvl s l.pg
      let v := granuleData s l.pg
      let s := modChan s st c (fun x => { x with migr := { m with left := gs } :: ms })
      let s := openRow (touchRow s st c m.bank m.src) st c m.bank (8192 + m.spare)
      let s := noteRead s l 7 0xFF o
      let t : Loc := ⟨st, c, m.bank, 8192 + m.spare, g⟩
      if eccBad hullF o then putGranule s t (rawGranule s l.pg) (poisonOf hullF) else putGranule s t v 0

/-! ### The scrubber (R283–R287) -/

/-- Spare rows of a bank that are in use, ascending. -/
def sparesInUse (s : State) (st c bank : Nat) : List Nat :=
  (List.range 16).filter (fun k => (List.range 8).any (fun n =>
    let e := rd s (remapReg st c n)
    bit e 0 && bits e 4 4 == bank && bits e 21 4 == k))

/-- The granule after a position, and whether the pass ends with this one (R283). -/
def scrubNext (s : State) (st c : Nat) (p : Nat × Nat × Nat) : (Nat × Nat × Nat) × Bool :=
  let (bank, row, g) := p
  if g < 15 then ((bank, row, g + 1), false)
  else if row < 8191 then ((bank, row + 1, 0), false)
  else match (sparesInUse s st c bank).find? (fun k => decide (row < 8192 + k)) with
    | some k => ((bank, 8192 + k, 0), false)
    | none => if bank < 15 then ((bank + 1, 0, 0), false) else ((0, 0, 0), true)

/-- A pin is listed as failing: appended to MCH_PIN_FAIL, which holds 32, and saved to the flash (R287, R294). -/
def listPin (s : State) (st c pin : Nat) : State :=
  let s := modStk s st (fun x => if x.pinFail.length < 32 then { x with pinFail := x.pinFail ++ [(c, pin)] } else x)
  let s := setBits s (mchReg st 0x2000) 4
  if s.pins.contains (st, c, pin) then s else { s with pins := s.pins ++ [(st, c, pin)] }

/-- The end of a pass: pins that reached PIN_THRESH are listed, and the counts start afresh (R287). -/
def scrubPassEnd (s : State) (st c : Nat) : State :=
  let t := bits (rd s (mchReg st 0x200C)) 16 12
  let s := bump s (mchReg st 0x2038) 1
  let s := ((chan s st c).pins.filter (fun e => decide (t ≤ e.2))).foldl (fun s e => listPin s st c e.1) s
  modChan s st c (fun x => { x with pins := [] })

/-- A write of a granule waits in the channel's queues. -/
def writePending (x : Chan) (pg : Nat) : Bool := x.queues.any (fun e => e.2.any (fun r => r.wr && r.pg == pg))

/-- What the scrubber does with the granule at its position (R285). -/
def scrubGranule (s : State) (l : Loc) : State :=
  let o := granuleOvl s l.pg
  let s := noteRead (touchRow s l.st l.c l.bank l.row) l 6 0xFF o
  match eccDecode hullF o with
  | .corrected y => modChan s l.st l.c (fun x => { x with fix := some (l.pg, y, false) })
  | .uncorrectable => poisonGranule s l
  | _ => s

/-- The scrub read of a channel. -/
def scrubGo (s : State) (st c : Nat) : State :=
  let x := chan s st c
  let (bank, row, g) := x.scrub
  let l : Loc := ⟨st, c, bank, row, g⟩
  let s := if writePending x l.pg then s else scrubGranule s l
  let (p, last) := scrubNext s st c x.scrub
  let s := modChan s st c (fun x => { x with scrub := p })
  let s := if c = 0 then wr s (mchReg st 0x2010) (p.1 + fld 4 14 p.2.1) else s
  if last then scrubPassEnd s st c else s

/-- A scrub read falls due: it is made where the refresh debt needs no slot and no write-back is pending, and waits for
such a slot otherwise; those due after it do not pile up (R283, R285). -/
def scrubRead (s : State) (st c : Nat) : State :=
  if !dieUp s (st / 8) || bits (rd s (mchReg st 0x200C)) 0 16 == 0 then s
  else if (chan s st c).fix.isSome || decide (0 < refreshDebt s st c) then modChan s st c (fun x => { x with scrubDue := true })
  else scrubGo s st c

/-- A slot that refresh may use; where the debt needs none, a scrub read that waits, then migration (R264, R266, R283,
R291). -/
def spareSlot (s : State) (st c : Nat) : State :=
  if 0 < refreshDebt s st c then refreshSlot s st c
  else if (chan s st c).scrubDue && (chan s st c).fix.isNone && bits (rd s (mchReg st 0x200C)) 0 16 != 0 then
    scrubGo (modChan s st c (fun x => { x with scrubDue := false })) st c
  else migrateSlot s st c

/-- A read's granule leaves for its landing buffer (R258, R275, R281, R286). -/
def serveRead (s : State) (st : Nat) (r : MemReq) : State :=
  let l := locOf r.pg
  let v := r.data ^^^ hullData (residual hullF r.ovl)
  let s := modPod s r.pod (fun p =>
    { p with
      landSeq := p.landSeq + 1
      landing := p.landing.map (fun e =>
        if e.entry == r.entry && e.st == st && e.served.isNone then
          { e with served := some p.landSeq, bad := eccBad hullF r.ovl, data := v }
        else e) })
  bump (noteRead s l 0 r.holder r.ovl) (mchReg st 0x20) 1

/-- A write drains its buffer entry, which ends a hold that waited for one (R78, R260). -/
def serveWrite (s : State) (st c : Nat) (r : MemReq) : State :=
  let s := modChan s st c (fun x => { x with buf := tmod 0 x.buf r.holder (· - 1) })
  let s := bump s (mchReg st 0x28) 1
  (s.gens.filter (fun e => e.2.st == .held && e.2.part == r.holder)).foldl
    (fun s e => tryResume s e.1) s

/-- The head request of a hatch's queue, unless its row cannot be opened yet (R254). -/
def serveHead (s : State) (st c owner : Nat) : State :=
  match tget [] (chan s st c).queues owner with
  | [] => s
  | r :: rs =>
    let l := locOf r.pg
    if !rowReady (chan s st c) l.bank l.row then bump s (mchReg st 0x40) 1
    else
      let s := touchRow s st c l.bank l.row
      let s := modChan s st c (fun x => { x with queues := if rs.isEmpty then tdel x.queues owner else tset x.queues owner rs })
      if r.wr then serveWrite s st c r else serveRead s st r

/-- What slot `n` of a channel does: fixed slots, slots that KEEP_ONLY idles, borrowed slots, then the entry's owner
(R250, R251, R254, R264, R266). -/
def slotWork (s : State) (st c n : Nat) : State :=
  if n = 127 ∨ n = 255 then spareSlot s st c
  else if n = 63 ∨ n = 191 then migrateSlot s st c
  else
    let e := frameEntry s st n
    let kind := bits e 0 3
    let keep := bit e 3
    if 3 ≤ (stk s st).level && !keep then spareSlot s st c
    else if 8 < refreshDebt s st c && !keep && decide (1 ≤ kind ∧ kind ≤ 3) then
      refreshSlot (setBits (bump s (mchReg st 0x38) 1) (mchReg st 8) 16) st c
    else if kind = 1 then serveHead s st c (16 * bits e 9 1 + bits e 4 5)
    else s

/-- The next slot of a channel (R249, R254). -/
def channelSlot (s : State) (st c : Nat) : State :=
  if !dieUp s (st / 8) then s
  else
    let n := (chan s st c).slot % 256
    modChan (slotWork s st c n) st c (fun x => { x with slot := x.slot + 1 })

def execChannelSlotService (st : Fin 16) (c : Fin 256) (s : State) : Out := .next (channelSlot s st c)

/-- A migration whose granules are all copied commits: from here every access goes to the spare row (R290, R291), and
the warden keeps the entry in flash (R296). -/
def migrationCommit (s : State) (st c : Nat) : State :=
  match (chan s st c).migr.find? (fun m => m.left.isEmpty) with
  | none => s
  | some m =>
    let a := remapReg st c m.entry
    let base := 1 + fld 4 4 m.bank + fld 8 13 m.row + fld 21 4 m.spare
    let s := modChan s st c (fun x => { x with migr := x.migr.erase m })
    let v := if m.second then base + fld 1 2 2 + fld 25 4 (bits (rd s a) 21 4) else base + fld 1 2 1
    { wr s a v with journal := tset s.journal a v }

def execMigrationCommit (st : Fin 16) (c : Fin 256) (s : State) : Out := .next (migrationCommit s st c)

/-- A frame boundary (R249, R253, R262, R263): new entries take force, refreshes fall due, and a 32 ms window of row
openings ends every 15,625 frames. -/
def frameBoundary (s : State) (st : Nat) : State :=
  if !dieUp s (st / 8) then s
  else
    let x := stk s st
    let s := setStk s st { x with frame := x.next, frames := x.frames + 1, owed := x.owed + 8208 * refreshMult x.level }
    if (x.frames + 1) % 15625 = 0 then
      { s with chans := s.chans.map (fun e => if e.1 / 256 == st then (e.1, { e.2 with opens := [] }) else e) }
    else s

def execFrameBoundary (st : Fin 16) (s : State) : Out := .next (frameBoundary s st)

/-! ### The region table (R244, R245) -/

/-- Slabs that an entry names: stack and slab number, by its mode (R246). -/
def slabsOf (s : State) (r w0 : Nat) : List (Nat × Nat) :=
  let stack := bits w0 3 4
  match bits w0 0 2 with
  | 0 => []
  | m => (List.range 16).map (fun i =>
      (if m = 1 then i else if m = 2 then stack + i / 2 else stack, slabOf s r i))

/-- A reserved bit is set in one of the entry's words. -/
def entryReserved (s : State) (r w0 : Nat) : Bool :=
  w0 >>> 12 != 0 || bit (regionWord s r 1) 63 || bit (regionWord s r 2) 63 || regionWord s r 3 >>> 18 != 0

/-- STACK fits MODE (R244). -/
def stackFits (w0 : Nat) : Bool :=
  let k := bits w0 3 4
  match bits w0 0 2 with
  | 1 => k == 0
  | 2 => k % 8 == 0
  | _ => true

/-- RESULT of a commit (R245, R271). -/
def regionResult (s : State) (r w0 : Nat) : Nat :=
  let own := slabsOf s r w0
  if entryReserved s r w0 || !stackFits w0 then 2
  else if decide (own.dedup.length < own.length) ||
      (List.range 512).any (fun q => q != r && (slabsOf s q (regionWord s q 0)).any own.contains) then 1
  else 0

/-- Words 1 to 3 of an entry take force. -/
def commitSlabs (s : State) (r : Nat) : State :=
  { s with slabs := [1, 2, 3].foldl (fun t w => tset t (4 * r + w) (regionWord s r w % 2 ^ 63)) s.slabs }

/-- A write of word 0 commits entry `r`, with words 1 to 3 as last written, in both dies' copies (R245). -/
def regionCommit (s : State) (r v : Nat) : State :=
  let s := commitSlabs s r
  let res := regionResult s r v
  let s := wr s (regionAddr r 0) (if res = 0 then v else bits v 2 10 <<< 2)
  wr (wr s (mchReg 0 0x14) (res + 256 * r)) (mchReg 8 0x14) (res + 256 * r)

def execRegionEntryCommit (r : Requester) (d : Fin 2) (i : Fin 512) (v : BitVec 64) (s : State) : Out :=
  .next (gateLocked s r (mchReg (8 * d) (0x8000 + 32 * i)) (fun s => regionCommit s i v.toNat))

/-! ### The scrubber's own commands (R283, R285) -/

def execScrubReadDue (st : Fin 16) (c : Fin 256) (s : State) : Out := .next (scrubRead s st c)

/-- The write-back of a corrected granule, and after it the re-read: an error left in the same symbol is hard, a
strike where its pin is not listed (R285, R289). -/
def scrubWriteback (s : State) (st c : Nat) : State :=
  if !dieUp s (st / 8) then s
  else match (chan s st c).fix with
    | none => s
    | some (pg, y, false) =>
      let l := locOf pg
      let s := putGranule (touchRow s st c l.bank l.row) l (granuleData s pg) 0
      modChan s st c (fun x => { x with fix := some (pg, y, true) })
    | some (pg, y, true) =>
      let l := locOf pg
      let o := granuleOvl s pg
      let s := modChan (touchRow s st c l.bank l.row) st c (fun x => { x with fix := none })
      let s := noteRead s l 6 0xFF o
      match eccDecode hullF o with
      | .corrected z =>
        if z.any (fun e => y.any (fun f => f.1 == e.1) && !s.pins.contains (st, c, pinOf e.1)) then strike s l else s
      | .uncorrectable => poisonGranule s l
      | _ => s

def execScrubWriteback (st : Fin 16) (c : Fin 256) (s : State) : Out := .next (scrubWriteback s st c)

/-- The corrected-error bucket loses one (R288). -/
def execBucketLeak (st : Fin 16) (s : State) : Out :=
  .next (if dieUp s (st / 8) then modStk s st (fun x => { x with bucket := x.bucket - 1 }) else s)

/-! ### Registers with commands of their own (R293, R294) -/

/-- A read of MCH_PIN_FAIL answers and removes the oldest listed pin; 0 where none is listed. -/
def pinFailRead (s : State) (st : Nat) : State :=
  let a := mchReg st 0x2050
  if !reachable s a then emit s (.busError a)
  else match (stk s st).pinFail with
    | [] => emit s (.value a 0)
    | (c, p) :: t => emit (modStk s st (fun x => { x with pinFail := t })) (.value a (2 ^ 31 + c + fld 8 5 p))

def execMchPinFailRead (st : Fin 16) (s : State) : Out := .next (pinFailRead s st)

/-- MCH_FLIP_CTRL as a write stores it: ARM stays clear for COUNT 0 or a symbol above 35 (R293). -/
def flipCtrl (v : Nat) : Nat :=
  let v := v &&& 0xFFFF0003FFFFFF07
  let bad := bits v 1 2 = 0 ∨ 35 < bits v 16 6 ∨ 35 < bits v 22 6 ∨ 35 < bits v 28 6
  if bad then v / 2 * 2 else v

def execMchFlipCtrlWrite (r : Requester) (st : Fin 16) (v : BitVec 64) (s : State) : Out :=
  .next (gate s r (mchReg st 0x2018) (fun s => wr s (mchReg st 0x2018) (flipCtrl v.toNat)))

/-- POD_FLIP_CTRL likewise (R293). -/
def podFlipCtrl (v : Nat) : Nat :=
  let v := v % 2 ^ 29
  let bad := bits v 1 2 = 0 ∨ 35 < bits v 3 6 ∨ 35 < bits v 9 6 ∨ 35 < bits v 15 6
  if bad then v / 2 * 2 else v

def execPodFlipCtrlWrite (r : Requester) (g : Fin 256) (v : BitVec 32) (s : State) : Out :=
  .next (gate s r (podReg g 0xA1C) (fun s => wr s (podReg g 0xA1C) (podFlipCtrl v.toNat)))

/-- Write `n` bytes of memory through SERVICE slots, granule by granule: an armed fault alters the word of its channel's
first one (R255, R293). -/
def svcWriteGo : Nat → State → Nat → Nat → Nat → Nat → State
  | 0, s, _, _, _, _ => s
  | k + 1, s, a, n, v, part =>
    if n = 0 then s
    else
      let m := min n (64 - a % 64)
      let s := memWriteIn s a m v part
      let s := match locate s a with | some l => takeFlip s l | none => s
      svcWriteGo k s (a + m) (n - m) (v >>> (8 * m)) part

def svcWrite (s : State) (a n v part : Nat) : State := touchAll (svcWriteGo (n / 64 + 2) s a n v part) a n

/-- The same for a service write to a pod's scratchpad. -/
def flipPod (s : State) (g : Nat) : State × Nat :=
  let a := podReg g 0xA1C
  let v := rd s a
  if bit v 0 then
    (setBits (wr s a (v - 1)) (mchReg (homeStack g) 0x2000) 16, flipOverlay huskF v (bits v 1 2) 3 (bits v 21 8))
  else (s, 0)

end Sys2Proof.Machine
end

