-- ==== Sys2Proof/Machine/Crypto.lean ====
section
/-! DEFINITION. SHAKE256, KMAC256 and XMSS / XMSS^MT over SHAKE256 with 256-bit output, which the spec names by their
standards (02_plates.md R42, R44; 18_cores_management.md R455; 19_boot_security.md R464–R467, R478–R481). The constructions
themselves are those of the named standards: PRESUMED (assumption log). -/
namespace Sys2Proof.Machine
open Sys2Proof

/-! ### Keccak

The 1,600-bit state is one number, lane `i = x + 5y` at bit `64 i`. Rotations and round constants come from the
generators that the standard defines them by. -/

/-- A lane of the state. -/
def laneAt (a i : Nat) : Nat := bits a (64 * i) 64

/-- The state with the given lanes. -/
def ofLanes (f : Nat → Nat) : Nat := foldNat 25 (fun i acc => acc + f i % 2 ^ 64 * 2 ^ (64 * i)) 0

def turn64 (x n : Nat) : Nat := x * 2 ^ n % 2 ^ 64 + x / 2 ^ (64 - n)

/-- The byte register that yields the round constants' bits, `t` shifts after its start. -/
def rcByte : Nat → Nat
  | 0 => 1
  | t + 1 => let x := 2 * rcByte t; if x < 256 then x else x ^^^ 0x171

/-- Constant of round `r`: one generated bit at each of seven places. -/
def roundWord (r : Nat) : Nat := ((List.range 7).map (fun j => rcByte (7 * r + j) % 2 * 2 ^ (2 ^ j - 1))).sum

/-- Where the permutation of lanes takes lane `i`. -/
def laneGoes (i : Nat) : Nat := i / 5 + 5 * ((2 * (i % 5) + 3 * (i / 5)) % 5)

/-- The 24 lanes beyond lane 0 form one cycle: move each along it, turned by the next triangular number. -/
def carryLanes (a : Nat) : Nat → Nat → Nat → Nat → Nat
  | 0, _, _, acc => acc
  | n + 1, t, i, acc =>
    carryLanes a n (t + 1) (laneGoes i)
      (acc + turn64 (laneAt a i) (t * (t + 1) / 2 % 64) * 2 ^ (64 * laneGoes i))

/-- Every column's parity reaches the two beside it. -/
def mixColumns (a : Nat) : Nat :=
  let par := fun x => (List.range 5).foldl (fun v y => v ^^^ laneAt a (x % 5 + 5 * y)) 0
  ofLanes (fun i => laneAt a i ^^^ par (i + 4) ^^^ turn64 (par (i + 1)) 1)

/-- A lane changes where the next of its row is clear and the one after set. -/
def mixRows (a : Nat) : Nat :=
  ofLanes (fun i =>
    let at' := fun k => laneAt a (5 * (i / 5) + (i + k) % 5)
    at' 0 ^^^ (at' 2 ^^^ (at' 1 &&& at' 2)))

def permute1600 (a : Nat) : Nat :=
  (List.range 24).foldl (fun a r =>
    let m := mixColumns a
    mixRows (carryLanes m 24 1 1 (laneAt m 0)) ^^^ roundWord r) a

/-- Absorb whole 136-byte blocks. -/
def absorb : Nat → Nat → List Byte → Nat
  | 0, a, _ => a
  | n + 1, a, b => if b.isEmpty then a else absorb n (permute1600 (a ^^^ ofLE (b.take 136))) (b.drop 136)

/-- The sponge of rate 136 with the given domain suffix, 32 bytes of output. -/
def sponge (suffix : Nat) (m : List Byte) : List Byte :=
  let z := 135 - m.length % 136
  let pad : List Byte := if z = 0 then [BitVec.ofNat 8 (suffix ||| 0x80)]
    else BitVec.ofNat 8 suffix :: (List.replicate (z - 1) 0#8 ++ [0x80#8])
  let b := m ++ pad
  leBytes 32 (absorb (b.length / 136) 0 b)

/-- SHAKE256 with 256-bit output. -/
def shake256 (m : List Byte) : List Byte := sponge 0x1F m

/-- Big-endian bytes. -/
def beBytes (n x : Nat) : List Byte := (leBytes n x).reverse

/-- Bytes of a length or a number in NIST's encodings: shortest big-endian, at least one byte. -/
def encLen (x : Nat) : Nat := if x < 2 ^ 8 then 1 else if x < 2 ^ 16 then 2 else if x < 2 ^ 24 then 3 else 4
def leftEncode (x : Nat) : List Byte := leBytes 1 (encLen x) ++ beBytes (encLen x) x
def rightEncode (x : Nat) : List Byte := beBytes (encLen x) x ++ leBytes 1 (encLen x)
def encodeString (b : List Byte) : List Byte := leftEncode (8 * b.length) ++ b
def bytepad (b : List Byte) (w : Nat) : List Byte :=
  let x := leftEncode w ++ b
  x ++ List.replicate ((w - x.length % w) % w) 0#8

def asciiBytes (s : String) : List Byte := s.toList.map (fun c => BitVec.ofNat 8 c.toNat)

/-- KMAC256 with 256-bit output. -/
def kmac256 (key custom m : List Byte) : List Byte :=
  sponge 0x04 (bytepad (encodeString (asciiBytes "KMAC") ++ encodeString custom) 136 ++
    bytepad (encodeString key) 136 ++ m ++ rightEncode 256)

/-! ### XMSS -/

def xorBytes (a b : List Byte) : List Byte := (a.zip b).map (fun x => x.1 ^^^ x.2)

/-- A keyed hash of the suite: prefix 0 F, 1 H, 2 H_msg, 3 PRF, 4 PRF_keygen. -/
def xmssHash (pre : Nat) (key m : List Byte) : List Byte := shake256 (beBytes 32 pre ++ key ++ m)

/-- A hash address: layer, tree, type and the four words that follow. -/
structure Adrs where
  layer : Nat := 0
  tree : Nat := 0
  typ : Nat := 0
  w4 : Nat := 0
  w5 : Nat := 0
  w6 : Nat := 0
  deriving DecidableEq, Repr

def Adrs.bytes (a : Adrs) (mask : Nat) : List Byte :=
  beBytes 4 a.layer ++ beBytes 8 a.tree ++ beBytes 4 a.typ ++ beBytes 4 a.w4 ++ beBytes 4 a.w5 ++ beBytes 4 a.w6 ++
    beBytes 4 mask

/-- The randomised tree hash. -/
def randHash (seed : List Byte) (a : Adrs) (l r : List Byte) : List Byte :=
  let f := fun k => xmssHash 3 seed (a.bytes k)
  xmssHash 1 (f 0) (xorBytes l (f 1) ++ xorBytes r (f 2))

/-- `n` steps of a WOTS+ chain from position `i`. -/
def wotsChain (seed : List Byte) (a : Adrs) : Nat → Nat → List Byte → List Byte
  | 0, _, x => x
  | n + 1, i, x =>
    let b := { a with w6 := i }
    wotsChain seed a n (i + 1) (xmssHash 0 (xmssHash 3 seed (b.bytes 0)) (xorBytes x (xmssHash 3 seed (b.bytes 1))))

/-- The 67 base-16 digits of a 32-byte message and its checksum. -/
def wotsDigits (m : List Byte) : List Nat :=
  let d := m.flatMap (fun b => [b.toNat / 16, b.toNat % 16])
  let c := (d.map (15 - ·)).sum
  d ++ [c / 256 % 16, c / 16 % 16, c % 16]

/-- An L-tree, level by level. -/
def ltreeLevel (seed : List Byte) (a : Adrs) : Nat → List (List Byte) → List (List Byte)
  | i, l :: r :: t => randHash seed { a with w6 := i } l r :: ltreeLevel seed a (i + 1) t
  | _, t => t

def ltreeGo (seed : List Byte) (a : Adrs) : Nat → Nat → List (List Byte) → List Byte
  | 0, _, l => l.headD []
  | n + 1, h, l => ltreeGo seed a n (h + 1) (ltreeLevel seed { a with w5 := h } 0 l)

def ltree (seed : List Byte) (a : Adrs) (l : List (List Byte)) : List Byte := ltreeGo seed a 7 0 l

/-- The root that a WOTS+ signature and an authentication path lead to. -/
def rootFromSig (seed : List Byte) (layer tree leaf : Nat) (wots auth : List (List Byte)) (m : List Byte) : List Byte :=
  let a : Adrs := { layer := layer, tree := tree }
  let pk := ((wotsDigits m).zip wots).zipIdx.map (fun x =>
    wotsChain seed { a with w4 := leaf, w5 := x.2 } (15 - x.1.1) x.1.1 x.1.2)
  let n0 := ltree seed { a with typ := 1, w4 := leaf } pk
  (auth.zipIdx.foldl (fun n x =>
    let b := { a with typ := 2, w5 := x.2, w6 := leaf / 2 ^ (x.2 + 1) }
    if leaf / 2 ^ x.2 % 2 = 0 then randHash seed b n x.1 else randHash seed b x.1 n) n0)

/-- Height and layers of an XMSS^MT parameter set with SHAKE256 and 256-bit output. -/
def xmssMtParams (oid : Nat) : Option (Nat × Nat) :=
  match oid with
  | 0x29 => some (20, 2)
  | 0x2A => some (20, 4)
  | 0x2B => some (40, 2)
  | 0x2C => some (40, 4)
  | 0x2D => some (40, 8)
  | 0x2E => some (60, 3)
  | 0x2F => some (60, 6)
  | 0x30 => some (60, 12)
  | _ => none

/-- Bytes of an XMSS^MT signature. -/
def xmssMtSigLen (h d : Nat) : Nat := (h + 7) / 8 + 32 + (h + 67 * d) * 32

/-- Climb the layers. -/
def xmssMtGo (seed : List Byte) (hd : Nat) : Nat → Nat → Nat → List (List Byte) → List Byte → List Byte
  | 0, _, _, _, n => n
  | k + 1, layer, idx, sig, n =>
    xmssMtGo seed hd k (layer + 1) (idx / 2 ^ hd) (sig.drop (67 + hd))
      (rootFromSig seed layer (idx / 2 ^ hd) (idx % 2 ^ hd) (sig.take 67) ((sig.drop 67).take hd) n)

/-- Verify an XMSS^MT signature: `key` is root ‖ seed, 64 bytes. -/
def xmssMtVerify (oid : Nat) (key sig m : List Byte) : Bool :=
  match xmssMtParams oid with
  | none => false
  | some (h, d) =>
    if sig.length ≠ xmssMtSigLen h d then false
    else
      let nb := (h + 7) / 8
      let idx := ofLE (sig.take nb).reverse
      let r := (sig.drop nb).take 32
      let root := key.take 32
      let n := xmssHash 2 (r ++ root ++ beBytes 32 idx) m
      xmssMtGo (key.drop 32) (h / d) d 0 idx (groups 32 (h + 67 * d) (sig.drop (nb + 32))) n == root

/-! ### Signing with the identity key (XMSS, height 20) -/

/-- A WOTS+ secret chain start. -/
def wotsSecret (skSeed seed : List Byte) (leaf i : Nat) : List Byte :=
  xmssHash 4 skSeed (seed ++ ({ w4 := leaf, w5 := i } : Adrs).bytes 0)

/-- A leaf of the identity tree. -/
def xmssLeaf (skSeed seed : List Byte) (leaf : Nat) : List Byte :=
  ltree seed { typ := 1, w4 := leaf }
    (tab 67 (fun i => wotsChain seed { w4 := leaf, w5 := i } 15 0 (wotsSecret skSeed seed leaf i)))

/-- Node `i` at height `h`. -/
def xmssNode (skSeed seed : List Byte) : Nat → Nat → List Byte
  | 0, i => xmssLeaf skSeed seed i
  | h + 1, i =>
    randHash seed { typ := 2, w5 := h, w6 := i } (xmssNode skSeed seed h (2 * i)) (xmssNode skSeed seed h (2 * i + 1))

def xmssRoot (skSeed seed : List Byte) : List Byte := xmssNode skSeed seed 20 0

/-- An XMSS signature with index `idx`: index, randomiser, WOTS+ signature, authentication path. -/
def xmssSign (skSeed skPrf seed : List Byte) (idx : Nat) (m : List Byte) : List Byte :=
  let r := xmssHash 3 skPrf (beBytes 32 idx)
  let n := xmssHash 2 (r ++ xmssRoot skSeed seed ++ beBytes 32 idx) m
  let w := (wotsDigits n).zipIdx.map (fun x =>
    wotsChain seed { w4 := idx, w5 := x.2 } x.1 0 (wotsSecret skSeed seed idx x.2))
  beBytes 4 idx ++ r ++ w.flatten ++ (tab 20 (fun k => xmssNode skSeed seed k (idx / 2 ^ k ^^^ 1))).flatten

end Sys2Proof.Machine
end

