-- ==== Sys2Proof/Machine/Upe.lean ====
section
/-! DEFINITION. The parameter update engines (12_update_engine.md R297–R320). Values are FP32 encodings; every
operation rounds once (R106). -/
namespace Sys2Proof.Machine
open Sys2Proof

/-! ### Arithmetic (R306–R309) -/

def f32 (x : Nat) : Val := Machine.decode fp32 x
def toF32 (v : Val) : Nat := Machine.enc fp32 v
def rne64 (v : Val) : Val := Machine.decode fp64 (Machine.enc fp64 v)
def mul32 (a b : Nat) : Nat := toF32 ((f32 a).mul (f32 b))
def add32 (a b : Nat) : Nat := toF32 ((f32 a).add (f32 b))
def sub32 (a b : Nat) : Nat := toF32 ((f32 a).sub (f32 b))
def fma32 (a b c : Nat) : Nat := toF32 (((f32 a).mul (f32 b)).add (f32 c))
def div32 (a b : Nat) : Nat := toF32 ((f32 a).div (f32 b))
def neg32 (a : Nat) : Nat := a ^^^ 0x80000000
def nat32 (n : Nat) : Nat := toF32 (.ofInt n)

/-- Correctly rounded square root. -/
def sqrt32 (a : Nat) : Nat :=
  match f32 a with
  | .nan => 0x7FC00000
  | .inf neg => if neg then 0x7FC00000 else 0x7F800000
  | .fin neg m e =>
    if m = 0 then a
    else if neg then 0x7FC00000
    else
      let (m, e) := if e % 2 = 0 then (m, e) else (2 * m, e - 1)
      let n := m <<< 200
      let q := isqrt n
      toF32 (stickyVal false q (e / 2 - 100) (q * q != n))

/-- Bias correction of base β at step count `t` (R306). -/
def biasCorr (beta t : Nat) : Nat :=
  let b := f32 beta
  let p := (((List.range (t.log2 + 1)).reverse).foldl (fun p i =>
    let p := rne64 (p.mul p)
    if bit t i then rne64 (p.mul b) else p) (Val.fin false 1 0))
  toF32 ((Val.fin false 1 0).div (rne64 ((Val.fin false 1 0).sub p)))

/-! ### Layers and rules (R303, R304) -/

def layDense (l : Nat) : Bool := bit (layField l 6 2) 1
def layMask (l : Nat) : Bool := bit (layField l 6 2) 2
def layShards (l : Nat) : Nat := layField l 0x1E 2
def ruleField (r o n : Nat) : Nat := bits r (8 * o) (8 * n)
def ruleCoef (r i : Nat) : Nat := ruleField r (4 * i) 4
def ruleMKind (r : Nat) : Nat := bits (ruleField r 0x44 1) 0 2
def ruleVKind (r : Nat) : Nat := bits (ruleField r 0x44 1) 2 2
def ruleFinite (r : Nat) : Bool := bit (ruleField r 0x44 1) 4

/-- A tensor of the plate table (R303): none for 0xFFFF. -/
def layTensor (s : State) (p l o : Nat) : Option Nat :=
  let i := layField l o 2
  if i = 0xFFFF then none else tensorAt s p i

/-- One tail instruction over the registers R0–R7 (R309). -/
def tailStep (r eta : Nat) (regs : List Nat) (w : Nat) : List Nat :=
  let src := fun k =>
    if k < 8 then nth 0 regs k else if k < 14 then ruleField r (0x20 + 4 * (k - 8)) 4
    else if k = 14 then eta else ruleCoef r 7
  let a := src (bits w 9 4)
  let b := src (bits w 13 4)
  let c := src (bits w 17 4)
  let v := match bits w 0 6 with
    | 1 => add32 a b
    | 2 => sub32 a b
    | 3 => mul32 a b
    | 4 => fma32 a b c
    | 5 => fma32 (neg32 a) b c
    | 6 => (minMax false false fp32 a b).1
    | 7 => (minMax true false fp32 a b).1
    | 8 => a % 0x80000000
    | 9 => neg32 a
    | 10 => a % 0x80000000 + b / 0x80000000 * 0x80000000
    | _ => if (Val.fin false 0 0).lt (f32 a) then b else c
  setNth regs (bits w 6 3) v

/-- What an element's update needs besides its own values. -/
structure UpeCtx where
  rule : Nat
  eta : Nat
  cu : Nat
  cv : Nat
  irb : Nat
  deriving DecidableEq, Repr

/-- New W, M and V of one element (R307, R309); `r1` and `c1` are its factors where VKIND = 2. -/
def elemUpdate (x : UpeCtx) (g m v w r1 c1 : Nat) : Nat × Nat × Nat :=
  let k := x.rule
  let m1 := fma32 (ruleCoef k 0) m (mul32 (ruleCoef k 1) g)
  let v1 := if ruleVKind k = 1 then fma32 (ruleCoef k 2) v (mul32 (ruleCoef k 3) (mul32 g g))
    else if ruleVKind k = 0 then 0 else mul32 (mul32 r1 c1) x.irb
  let u := if ruleVKind k = 0 then mul32 m1 x.cu
    else mul32 (div32 m1 (add32 (sqrt32 (mul32 v1 x.cv)) (ruleCoef k 6))) x.cu
  let w1 := fma32 (neg32 x.eta) (fma32 (ruleCoef k 7) w u) w
  let regs := (List.range (ruleField k 0x45 1)).foldl (fun l i => tailStep k x.eta l (ruleField k (0x50 + 4 * i) 4))
    [g, m1, v1, u, w, w1, 0, 0]
  (nth 0 regs 5, nth 0 regs 1, nth 0 regs 2)

/-! ### Memory objects -/

/-- FP32 encoding of a stored FP32 or BF16 element (R100). -/
def widen (t x : Nat) : Nat := if t = 0 then toF32' x else Machine.enc fp32 (elemVal t x)
where
  /-- NaN inputs are treated alike (R90). -/
  toF32' (x : Nat) : Nat := if (f32 x).isNan then 0x7FC00000 else x

/-- A stored value of a destination tensor: FP32 exactly, BF16 narrowed through its control (R309, R310). -/
def narrowTo (t x conv seed step stream e : Nat) : Nat :=
  if t = 0 then x
  else
    let rn := match bits conv 0 2 with | 0 => Rnd.rne | 1 => .rtz | _ => .sr (srWord seed step stream e)
    (encElem t rn (bit conv 2) (f32 x)).1

def elemAt (d i j : Nat) : ElemLoc := elemLoc d 0 [j, i, 0, 0, 0]

/-- Granules of row `i` of a tensor. -/
def rowUnits (d i : Nat) : List Nat :=
  let f := (elemAt d i 0).addr
  let l := (elemAt d i (tdExt d 0 - 1))
  (List.range ((l.addr + l.n - 1) / 64 + 1 - f / 64)).map (fun k => 64 * (f / 64 + k))

def vecUnits (d : Nat) : List Nat := rowUnits d 0

/-- Note the reads of granules by an update engine (R281, R286); the answer says whether one was bad. -/
def upeReads (s : State) (p : Nat) (us : List Nat) : State × Bool :=
  us.foldl (fun (a : State × Bool) u =>
    match locate a.1 u with
    | some l =>
      let o := granuleOvl a.1 l.pg
      (noteRead (accessed a.1 l false) l 2 p o, a.2 || eccBad hullF o)
    | none => a) (s, false)

/-- The bytes that a unit's map names, over the granule's old ones. -/
def overlaid (old mask v : Nat) : Nat :=
  let wide := foldNat 64 (fun k w => w + (if bit mask k then 255 <<< (8 * k) else 0)) 0
  (old ^^^ (old &&& wide)) ||| (v &&& wide)

/-- Write whole granules, read before by the sweep: the bytes that a map does not name are written back unchanged
(R300). -/
def upeWrite (s : State) (m : UnitMap) : State :=
  m.foldl (fun s e =>
    match locate s e.1 with
    | some l => putGranule (accessed s l true) l (overlaid (granuleData s l.pg) e.2.1 e.2.2) 0
    | none => s) s

def tensorGranule (s : State) (d : Option Nat) : Nat := match d with | some d => memRead s (tdBase d) 64 | none => 0

/-- Rows of a layer that are processed: present, or any when DENSE, and not masked (R308). -/
def rowBit (s : State) (d : Option Nat) (i : Nat) : Bool :=
  match d with
  | some d => bit (byteRead s (elemAt d 0 (i / 8)).addr 1) (i % 8)
  | none => false

def processed (s : State) (p l i : Nat) : Bool :=
  (layDense l || rowBit s (layTensor s p l 0x12) i) && !(layMask l && rowBit s (layTensor s p l 0x14) i)

def procRows (s : State) (p l : Nat) : List Nat :=
  match layTensor s p l 8 with
  | some w => (List.range (tdExt w 1)).filter (processed s p l)
  | none => []

/-! ### Lists -/

def upe (s : State) (st p : Nat) : UpeList := tget {} s.upes (8 * st + p)
def setUpe (s : State) (st p : Nat) (x : UpeList) : State := { s with upes := tset s.upes (8 * st + p) x }
def modUpe (s : State) (st p : Nat) (f : UpeList → UpeList) : State := setUpe s st p (f (upe s st p))

/-- Entry `k` of the current layer's consumer entries. -/
def upeEntry (x : UpeList) (k : Nat) : Nat := nth 0 (nth [] x.entries x.cur) k

def upeLayer (x : UpeList) : Nat := nth 0 x.layers x.cur
def upeRule (x : UpeList) : Nat := nth 0 x.rules (layField (upeLayer x) 4 2)

/-- A list pauses: the stack is KEEP_ONLY and its partition owns no UPE slot with KEEP there (R297, R316). -/
def keepPause (s : State) (st p : Nat) : Bool :=
  keepOnly s st && !(stk s st).frame.any (fun e => bits e.2 0 3 == 3 && bit e.2 3 && slotOwner s st e.1 == p)

/-- KEEP_PAUSE: a list of the engine pauses (R316, R319). -/
def enginePaused (s : State) (st : Nat) : Bool :=
  (List.range 8).any (fun p => !(upe s st p).layers.isEmpty && keepPause s st p)

/-- wait(ctr, k) adds k to the entry's count (R311). -/
def upeWait (s : State) (j k : Nat) : State :=
  let e := tget ⟨0, 0, 0, 0⟩ s.cons j
  if 2 ^ 48 ≤ e.count + k then breakCtr s (4096 * (j / 32768) + e.ctr) 4
  else { s with cons := tset s.cons j { e with count := e.count + k } }

/-- State of a wait: 1 released SUCCESS, 2 released BROKEN, 0 still waiting (R329). -/
def upeWaitSt (s : State) (j : Nat) : Nat :=
  let e := tget ⟨0, 0, 0, 0⟩ s.cons j
  let c := ctr s (4096 * (j / 32768) + e.ctr)
  if ctrActive c ∧ e.count ≤ c.value then 1 else if c.st = 2 then 2 else 0

/-- A signal of an engine: its earlier writes are already accepted (R311). -/
def upeSignal (s : State) (st id : Nat) : State := queueChange s (st / 8) { op := 0, id := 4096 * (st / 8) + id, inc := 1 }

/-- Begin the list's current layer: a frozen one signals DONE_CTR and is passed (R311). A list whose layers are all
frozen has no wait to stand at: it signals as each step begins (`frozenLists`). -/
def upeBegin (st p : Nat) : Nat → State → State
  | 0, s => modUpe s st p (fun x => { x with phase := 0 })
  | k + 1, s =>
    let x := upe s st p
    let l := upeLayer x
    if layFreeze l then
      upeBegin st p k (modUpe (upeSignal s st (layField l 0x28 2)) st p (fun x =>
        { x with cur := (x.cur + 1) % x.layers.length }))
    else setUpe (upeWait s (upeEntry x 0) (layField l 0x2A 2)) st p { x with phase := 1, code := 0, touched := [] }

/-- The list goes on with its next layer, and after the last with the first, for the next step. -/
def upeNext (s : State) (st p : Nat) : State :=
  let s := modUpe s st p (fun x => { x with cur := (x.cur + 1) % x.layers.length })
  upeBegin st p (upe s st p).layers.length s

/-- A list starts with its plate (R311). -/
def upeStart (s : State) (st p : Nat) : State :=
  if (upe s st p).layers.all layFreeze then s else upeBegin st p (upe s st p).layers.length s

/-- A wait released BROKEN stops the list where it stands and asks for a partition reset (R330). -/
def upeBroken (s : State) (st p : Nat) : State :=
  requestReset (modUpe s st p (fun x => { x with stopped := true })) p ⟨4, 0, 0⟩

/-- Run `act` when the list's wait is released SUCCESS. -/
def upeRelease (s : State) (st p phase k : Nat) (act : State → State) : State :=
  let x := upe s st p
  if x.phase != phase || x.stopped || !dieUp s (st / 8) then s
  else match upeWaitSt s (upeEntry x k) with
    | 1 => act s
    | 2 => upeBroken s st p
    | _ => s

def gradRelease (s : State) (st p : Nat) : State :=
  upeRelease s st p 1 0 (fun s => modUpe s st p (fun x => { x with phase := 2 }))

def execUpeGradWaitRelease (st : Fin 16) (p : Fin 8) (s : State) : Out := .next (gradRelease s st p)

/-! ### Gather sweep (R308, R312) -/

/-- Count + 1, saturating (R302, R306, R313). -/
def nextCount (c : Nat) : Nat := min (c + 1) (2 ^ 32 - 1)

/-- Granules of a layer's bitmaps. -/
def bitmapUnits (s : State) (p l : Nat) : List Nat :=
  ((if layDense l then none else layTensor s p l 0x12).toList ++ (if layMask l then layTensor s p l 0x14 else none).toList).flatMap vecUnits

/-- Square sums of a factored rule (R308): one for each row and one for each column. -/
def factorSums (s : State) (g : Nat) (rows : List Nat) : List Nat × List Nat :=
  let t := tdType g
  let at' := fun i j => widen t (elemRead s t (elemAt g i j))
  let cols := List.range (tdExt g 0)
  let sq := fun i j => mul32 (at' i j) (at' i j)
  ((List.range (tdExt g 1)).map (fun i => if rows.contains i then cols.foldl (fun a j => add32 a (sq i j)) 0 else 0),
   cols.map (fun j => rows.foldl (fun a i => add32 a (sq i j)) 0))

/-- The gradient's part of the gather sweep: the row bitmap, the finite check and the factored second moment's sums
(R308, R312). `n` granules have been read before. -/
def gatherGrad (s : State) (st p n : Nat) : State × Nat × Nat :=
  let l := upeLayer (upe s st p)
  let r := upeRule (upe s st p)
  let bm := bitmapUnits s p l
  let a := upeReads s p bm
  let rows := procRows a.1 p l
  if a.2 then (a.1, 5, n + bm.length)
  else match layTensor a.1 p l 0xA with
    | none => (a.1, 0, n + bm.length)
    | some g =>
      let us := if ruleVKind r == 2 || ruleFinite r then rows.flatMap (rowUnits g) else []
      let b := upeReads a.1 p us
      let m := n + bm.length + us.length
      if b.2 then (b.1, 5, m)
      else if ruleFinite r && rows.any (fun i => (List.range (tdExt g 0)).any (fun j =>
          let v := elemVal (tdType g) (elemRead b.1 (tdType g) (elemAt g i j))
          v.isNan || v.isInf)) then (b.1, 6, m)
      else if ruleVKind r = 2 then
        (modUpe b.1 st p (fun x => { x with rsum := (factorSums b.1 g rows).1, csum := (factorSums b.1 g rows).2 }), 0, m)
      else (b.1, 0, m)

/-- The learning rate's checks and the gradient header's, before the gradient is swept (R312). A check whose granule
read bad is passed over, and the fifth check fails after it; `bad` says so of STATE. -/
def gatherRate (s : State) (st p : Nat) (rec' : Nat) (bad : Bool) : State × Nat × Nat :=
  let l := upeLayer (upe s st p)
  let one := fun o => (layTensor s p l o).toList.flatMap vecUnits
  let b := upeReads s p (one 0x1A)
  let eta := tensorGranule b.1 (layTensor b.1 p l 0x1A)
  if !b.2 && ((f32 (bits eta 0 32)).isNan || (f32 (bits eta 0 32)).isInf || (f32 (bits eta 0 32)).lt (.fin false 0 0))
  then (b.1, 2, 2)
  else if !b.2 && bits eta 64 64 != (part b.1 p).step then (b.1, 3, 2)
  else
    let c := upeReads b.1 p (one 0x18)
    let hdr := tensorGranule c.1 (layTensor c.1 p l 0x18)
    if !bad && !c.2 && bits hdr 0 32 != nextCount (bits rec' 0 32) then (c.1, 4, 3)
    else if bad || b.2 || c.2 then (c.1, 5, 3)
    else gatherGrad c.1 st p 3

/-- The checks of the gather sweep, in order; a later one is not made (R312). -/
def gatherGo (s : State) (st p : Nat) : State × Nat × Nat :=
  let l := upeLayer (upe s st p)
  let a := upeReads s p ((layTensor s p l 0x16).toList.flatMap vecUnits)
  let rec' := tensorGranule a.1 (layTensor a.1 p l 0x16)
  if !a.2 && bit rec' 32 then (a.1, 1, 1) else gatherRate a.1 st p rec' a.2

/-- The gather sweep ends: a sharded layer tells its shards, any other waits at the commit barrier (R311). -/
def gatherComplete (s : State) (st p : Nat) : State :=
  let x := upe s st p
  if x.phase != 2 || x.stopped || keepPause s st p || !dieUp s (st / 8) then s
  else
    let l := upeLayer x
    let (s, code, n) := gatherGo s st p
    let s := bump (modUpe s st p (fun x => { x with code := code })) (upeReg st 0x30) n
    if 1 < layShards l then
      let s := if code = 0 then s else upeSignal s st (layField l 0x26 2)
      let s := upeSignal s st (layField l 0x24 2)
      modUpe (upeWait s (upeEntry x 3) (layShards l)) st p (fun x => { x with phase := 3 })
    else modUpe (upeWait s (upeEntry x 1) 1) st p (fun x => { x with phase := 4 })

def execUpeGatherComplete (st : Fin 16) (p : Fin 8) (s : State) : Out := .next (gatherComplete s st p)

/-- Every shard has arrived: the refusals of the others are seen (R311, R328). -/
def arriveRelease (s : State) (st p : Nat) : State :=
  upeRelease s st p 3 3 (fun s =>
    let x := upe s st p
    let j := upeEntry x 5
    let e := tget ⟨0, 0, 0, 0⟩ s.cons j
    let seen := (ctr s (4096 * (j / 32768) + e.ctr)).value
    let code := if x.code = 0 ∧ seen ≠ e.count then 7 else x.code
    let s := { s with cons := tset s.cons j { e with count := seen } }
    modUpe (upeWait s (upeEntry x 1) 1) st p (fun x => { x with code := code, phase := 4 }))

def execUpeArriveWaitRelease (st : Fin 16) (p : Fin 8) (s : State) : Out := .next (arriveRelease s st p)

/-! ### Commit and apply (R313–R315) -/

/-- A refusal record (R315, R319): queued, or dropped with LOST, and logged either way. -/
def upeReport (s : State) (st p code : Nat) : State :=
  let l := upeLayer (upe s st p)
  let v := layField l 0 4 + fld 32 16 (layField l 0x1C 2) + fld 48 8 code + fld 56 3 p + fld 63 1 1
  let q := tget [] s.upeQ st
  let s := if q.length < 64 then { s with upeQ := tset s.upeQ st (q ++ [v]) } else setBits s (upeReg st 4) 4
  let s := setBits s (upeReg st 4) (if code = 0x10 then 2 else 1)
  logEv s (st / 8) 0x42 p v st false

/-- Spans of a layer's tensors. -/
def layerSpans (s : State) (p l : Nat) : List (Int × Int) :=
  ([8, 0xA, 0xC, 0xE, 0x10, 0x12, 0x14, 0x16, 0x18, 0x1A].filterMap (layTensor s p l)).map tdSpan

/-- Bytes of a layer that another writer reached while the engine had it are undefined (R316). -/
def upeBlur (s : State) (st p : Nat) : State :=
  let x := upe s st p
  if x.touched.isEmpty then s
  else
    let sp := layerSpans s p (upeLayer x)
    let bs := x.touched.flatMap (fun t => ((List.range t.2).map (t.1 + ·)).filter (fun (a : Nat) =>
      sp.any (fun r => decide (r.1 ≤ (a : Int) ∧ (a : Int) ≤ r.2))))
    bs.dedup.foldl (fun s a =>
      match locate s (64 * (a / 64)) with
      | some l =>
        let v := (Config.free 8 s.freeCtr).toNat <<< (8 * (a % 64))
        putGranule (nextFree s) l (overlaid (granuleData s l.pg) (2 ^ (a % 64)) v) (granuleOvl s l.pg)
      | none => s) s

/-- DONE_CTR is signalled and the list goes on. -/
def upeDone (s : State) (st p : Nat) : State :=
  let s := upeBlur s st p
  upeNext (upeSignal s st (layField (upeLayer (upe s st p)) 0x28 2)) st p

/-- A state record is written whole, its reserved bytes 0 (R301, R313). -/
def writeRecord (s : State) (d count damaged last : Nat) : State :=
  match locate s (tdBase d) with
  | some l => putGranule (accessed s l true) l (count + fld 32 32 damaged + fld 64 64 last) 0
  | none => s

/-- The commit barrier releases: a refusal is reported, or the apply sweep begins with the record marked DAMAGED. -/
def commitRelease (s : State) (st p : Nat) : State :=
  upeRelease s st p 4 1 (fun s =>
    let x := upe s st p
    if x.code = 0 then
      match layTensor s p (upeLayer x) 0x16 with
      | none => modUpe s st p (fun x => { x with phase := 5 })
      | some d =>
        let r := memRead s (tdBase d) 64
        modUpe (writeRecord s d (bits r 0 32) 1 (bits r 64 64)) st p (fun x => { x with phase := 5 })
    else upeDone (bump (upeReport s st p x.code) (upeReg st 0x20) 1) st p)

def execUpeCommitWaitRelease (st : Fin 16) (p : Fin 8) (s : State) : Out := .next (commitRelease s st p)

/-- Factors of a factored rule (R308): the new row and column factors, and irb. -/
def factors (s : State) (x : UpeList) (r rd' cd : Nat) (rows : List Nat) : List Nat × List Nat × Nat :=
  let nr := tdExt rd' 0
  let nc := tdExt cd 0
  let old := fun d i => elemRead s 0 (elemAt d 0 i)
  let r1 := (List.range nr).map (fun i =>
    if rows.contains i then fma32 (ruleCoef r 2) (old rd' i) (mul32 (ruleCoef r 3) (div32 (nth 0 x.rsum i) (nat32 nc)))
    else old rd' i)
  let c1 := (List.range nc).map (fun j =>
    fma32 (ruleCoef r 2) (old cd j) (mul32 (ruleCoef r 3) (div32 (nth 0 x.csum j) (nat32 nr))))
  let sum := r1.foldl add32 0
  (r1, c1, if (f32 sum).isZero then 0 else div32 (nat32 nr) sum)

/-- Write a vector of FP32 elements. -/
def writeVec (s : State) (d : Nat) (vs : List Nat) : State :=
  upeWrite s ((vs.mapIdx (fun i v => (⟨elemAt d 0 i, v⟩ : ElemWrite))).foldl putElem [])

/-- Row `i` of the apply sweep (R313): its granules are read once and written once. -/
def applyRow (s : State) (p l : Nat) (x : UpeCtx) (r1 : Nat) (c1 : List Nat) (g w : Nat) (m v : Option Nat) (i : Nat) : State :=
  let cols := tdExt w 0
  let seed := (part s p).seed
  let step := (part s p).step
  let st := layField l 0x2C 2
  let get := fun (d : Option Nat) j => match d with
    | some d => widen (tdType d) (elemRead s (tdType d) (elemAt d i j))
    | none => 0
  let outs := (List.range cols).map (fun j =>
    (j, elemUpdate x (get (some g) j) (get m j) (get v j) (get (some w) j) r1 (nth 0 c1 j)))
  let put := fun (um : UnitMap) (d : Option Nat) (conv k : Nat) (pick : Nat × Nat × Nat → Nat) => match d with
    | some d => outs.foldl (fun um o => putElem um ⟨elemAt d i o.1,
        narrowTo (tdType d) (pick o.2) conv seed step ((st + k) % 65536) (i * cols + o.1)⟩) um
    | none => um
  let um := put [] (some w) (ruleField x.rule 0x38 4) 0 (·.1)
  let um := put um m (ruleField x.rule 0x3C 4) 1 (·.2.1)
  upeWrite s (put um v (ruleField x.rule 0x40 4) 2 (·.2.2))

/-- The rows of the sweep in ascending order; an uncorrectable read ends it (R314). -/
def applyRows (p l : Nat) (x : UpeCtx) (r1 c1 : List Nat) (g w : Nat) (m v : Option Nat) : List Nat → State → Nat → State × Nat × Nat × Bool
  | [], s, n => (s, 0, n, false)
  | i :: is, s, n =>
    let us := rowUnits g i ++ rowUnits w i ++ m.toList.flatMap (fun d => rowUnits d i) ++ v.toList.flatMap (fun d => rowUnits d i)
    let (s, bad) := upeReads s p us
    if bad then (s, 0, n + us.length, true)
    else
      let s := applyRow s p l x (nth 0 r1 i) c1 g w m v i
      let (s, k, n, b) := applyRows p l x r1 c1 g w m v is s (n + us.length + (us.length - (rowUnits g i).length))
      (s, k + 1, n, b)

/-- The sweep over a layer's first `lim` rows, in ascending order, with the factors written first. The answer says
whether an uncorrectable read ended it. -/
def applySweep (s : State) (st p lim : Nat) (w g : Nat) (sd : Nat) : State × Bool :=
  let x := upe s st p
  let l := upeLayer x
  let r := upeRule x
  let m := if ruleMKind r = 0 then none else layTensor s p l 0xC
  let v := if ruleVKind r = 1 then layTensor s p l 0xE else none
  let rows := procRows s p l
  let count := bits (memRead s (tdBase sd) 64) 0 32
  let eta := bits (tensorGranule s (layTensor s p l 0x1A)) 0 32
  let fac := if ruleVKind r = 2 then
      match layTensor s p l 0xE, layTensor s p l 0x10 with | some a, some b => some (a, b) | _, _ => none
    else none
  let fu := match fac with | some (a, b) => vecUnits a ++ vecUnits b | none => []
  let (s, bad) := upeReads s p fu
  if bad then (bump s (upeReg st 0x30) (1 + fu.length), true)
  else
    let (r1, c1, irb) := match fac with | some (a, b) => factors s x r a b rows | none => ([], [], 0)
    let s := match fac with | some (a, b) => writeVec (writeVec s a r1) b c1 | none => s
    let ctx : UpeCtx := ⟨r, eta, biasCorr (ruleCoef r 4) (nextCount count), biasCorr (ruleCoef r 5) (nextCount count), irb⟩
    let (s, k, n, bad) := applyRows p l ctx r1 c1 g w m v (rows.take lim) s (2 * fu.length)
    let els := k * tdExt w 0
    (countOps (bump (bump s (upeReg st 0x28) els) (upeReg st 0x30) (n + 1)) (st / 8) p 12 (tdType w) els, bad)

/-- The apply sweep after its first write (R313, R314). -/
def applyComplete (s : State) (st p : Nat) : State :=
  let x := upe s st p
  if x.phase != 5 || x.stopped || keepPause s st p || !dieUp s (st / 8) then s
  else
    let l := upeLayer x
    match layTensor s p l 8, layTensor s p l 0xA, layTensor s p l 0x16 with
    | some w, some g, some sd =>
      let count := bits (memRead s (tdBase sd) 64) 0 32
      let (s, bad) := applySweep s st p (procRows s p l).length w g sd
      if bad then upeDone (upeReport s st p 0x10) st p
      else
        let s := writeRecord s sd (nextCount count) 0 (part s p).step
        upeDone (bump (bump s (upeReg st 0x30) 1) (upeReg st 0x18) 1) st p
    | _, _, _ => upeDone s st p

/-- A partition reset stops a sweep in progress: DAMAGED stays set, and how many rows were written is open (R314). -/
def applyStop (s : State) (st p : Nat) : State :=
  let x := upe s st p
  if x.phase != 5 || x.stopped || !dieUp s (st / 8) then s
  else
    let l := upeLayer x
    match layTensor s p l 8, layTensor s p l 0xA, layTensor s p l 0x16 with
    | some w, some g, some sd =>
      let (s, k) := pickOf s (List.range ((procRows s p l).length + 2))
      let s := if k = 0 then s else (applySweep s st p (k - 1) w g sd).1
      upeReport (upeBlur s st p) st p 0x10
    | _, _, _ => s

def execUpeApplyComplete (st : Fin 16) (p : Fin 8) (s : State) : Out := .next (applyComplete s st p)

/-! ### Registers (R319, R320) -/

/-- A read of UPE_REFUSAL by half: the oldest record, removed except by a read of the upper half; 0 where none is. -/
def refusalRead (s : State) (st : Nat) (half : Half) : State :=
  let q := tget [] s.upeQ st
  let a := upeReg st 0x10
  let (s, v, gone) := rcRead s a half (q.headD 0)
  emit (if gone then { s with upeQ := tset s.upeQ st (q.drop 1) } else s) (.value a v)

/-- As `rcRead`'s shadow is loaded by a removal only, a read of an empty queue leaves it. -/
def execUpeRefusalRead (st : Fin 16) (half : Half) (s : State) : Out :=
  .next (if !reachable s (upeReg st 0x10) then emit s (.busError (upeReg st 0x10))
    else if (tget [] s.upeQ st).isEmpty && half != .upper then emit s (.value (upeReg st 0x10) 0)
    else refusalRead s st half)

/-- A partition's lists are emptied (R320). -/
def emptyLists (s : State) (p : Nat) : State := { s with upes := s.upes.filter (fun e => e.1 % 8 != p) }

/-- Every list of a partition is idle or in a wait phase (R341). -/
def upesWaiting (s : State) (p : Nat) : Bool :=
  s.upes.all (fun e => e.1 % 8 != p || [0, 1, 3, 4].contains e.2.phase)

end Sys2Proof.Machine
end

