-- ==== Sys2Proof/Machine/PlateImg.lean ====
section
/-! DEFINITION. Plate images: header, section table, the sections' bodies, signed trailers, and the loader's checks in
the order of their fault codes (02_plates.md R31–R47, R64; 07 R183; 10 R252; 12 R298–R305; 13 R344; 14 R371; 16 R396;
19 R465, R466). -/
namespace Sys2Proof.Machine
open Sys2Proof

/-! ### Signed trailers (R44, R465, R466) -/

/-- Digest of a signing key: its OID followed by its 64-byte public key. -/
def keyDigest (oid : Nat) (pk : List Byte) : Nat := ofLE (shake256 (leBytes 4 oid ++ pk))

def trailerDigest (m : Mem) (o : Nat) : Nat := keyDigest (mread m o 4) (mbytes m (o + 8) 64)

/-- Bytes of a trailer whose parameter set is known. -/
def trailerLen (m : Mem) (o : Nat) : Option Nat :=
  (xmssMtParams (mread m o 4)).map (fun x => (0x48 + xmssMtSigLen x.1 x.2 + 63) / 64 * 64)

/-- The trailer at `o` is well formed and its signature over bytes `from' … from' + n - 1` verifies. -/
def trailerOk (m : Mem) (from' n o : Nat) : Bool :=
  match xmssMtParams (mread m o 4) with
  | none => false
  | some (h, d) =>
    let k := xmssMtSigLen h d
    let e := (0x48 + k + 63) / 64 * 64
    mread m (o + 4) 4 == 0 && mread m (o + 0x48 + k) (e - 0x48 - k) == 0 &&
      xmssMtVerify (mread m o 4) (mbytes m (o + 8) 64) (mbytes m (o + 0x48) k) (mbytes m from' n)

/-! ### Header and sections (R31–R35) -/

/-- An entry of the section table. -/
structure PSec where
  idx : Nat
  typ : Nat
  flags : Nat
  ver : Nat
  off : Nat
  len : Nat
  rsv : Nat
  deriving DecidableEq, Repr

def secCount (m : Mem) : Nat := mread m 0xC 4

def psecs (m : Mem) : List PSec :=
  tab (min 64 (secCount m)) (fun i =>
    let o := 256 + 32 * i
    ⟨i, mread m o 2, mread m (o + 2) 2, mread m (o + 4) 2, mread m (o + 8) 8, mread m (o + 16) 8,
      mread m (o + 6) 2 + mread m (o + 24) 8 + mread m (o + 2) 2 / 2⟩)

/-- The type is in the table of R34 with a listed version. -/
def secKnown (x : PSec) : Bool :=
  match x.typ with
  | 4 => x.ver == 1 || x.ver == 2
  | 0x10 => x.ver == 2
  | 0x11 => x.ver == 1
  | t => decide (1 ≤ t ∧ t ≤ 11) && x.ver == 1

def sec (m : Mem) (t : Nat) : Option PSec := (psecs m).find? (fun x => x.typ == t && secKnown x)
def secIdx (m : Mem) (t : Nat) : Nat := match sec m t with | some x => x.idx | none => 0xFF
def secLen (m : Mem) (t : Nat) : Nat := match sec m t with | some x => x.len | none => 0
/-- `n` bytes of a section; what lies beyond its end reads 0. -/
def secNat (m : Mem) (t o n : Nat) : Nat :=
  match sec m t with | some x => mread m (x.off + o) (min n (x.len - o)) | none => 0
def secBytes (m : Mem) (t : Nat) : List Byte := match sec m t with | some x => mbytes m x.off x.len | none => []

def plateFeatures (m : Mem) : Nat := mread m 0x28 8
def plateId (m : Mem) : Nat := mread m 0x20 8
def platePhases (m : Mem) : Nat := mread m 0x44 2

/-- A load check that fails: code, section-table index and entry (R63). -/
structure PFault where
  code : Nat
  sect : Nat := 0xFF
  ent : Nat := 0
  deriving DecidableEq, Repr

/-- A check: the fault where it fails. -/
def chk (bad : Bool) (f : PFault) : Option PFault := if bad then some f else none

/-- The first entry of a list that fails a test, as a fault of its section. -/
def chkEach {α : Type} (l : List α) (bad : Nat → α → Bool) (code sect : Nat) : Option PFault :=
  (l.zipIdx.find? (fun x => bad x.2 x.1)).map (fun x => ⟨code, sect, x.2⟩)

def firstFault (l : List (Option PFault)) : Option PFault := l.findSome? id

/-- Two byte spans share a byte. -/
def spansCut (a n b k : Nat) : Bool := decide (0 < n ∧ 0 < k ∧ a < b + k ∧ b < a + n)

/-- LAYOUT: R31 to R33. `n` is APC_PLT_SRC_LEN. DESIGN CHOICE: "last section" is tested as the section that ends at the
image's length, wherever the table lists it (log entry 6); a SECTION_TABLE_OFFSET other than 256 is LAYOUT, and FIRST_POD
and POD_COUNT are not checked (log entry 7). -/
def layoutFault (m : Mem) (n : Nat) : Option PFault :=
  let k := secCount m
  let te := 256 + 32 * k
  let l := psecs m
  firstFault [
    chk (mread m 0x10 8 != n || n % 64 != 0 || decide (2 ^ 28 < n) || !decide (2 ≤ k ∧ k ≤ 64) ||
      mread m 0x40 4 != 256 || mread m 0x1B 1 != 0 || mread m 0x48 184 != 0 || decide (n < te)) ⟨5, 0xFF, 0⟩,
    (l.find? (fun x => x.rsv != 0 || x.off % 64 != 0 || decide (x.off < te) || decide (n < x.off + x.len) ||
      (x.typ == 0x11 && x.off + x.len != n))).map (fun x => ⟨5, x.idx, 0⟩),
    (l.find? (fun x => l.any (fun y => decide (y.idx < x.idx) && spansCut x.off x.len y.off y.len))).map
      (fun x => ⟨5, x.idx, 0⟩)]

/-- SECTION_UNKNOWN and SECTION_MISSING: R34, R35. -/
def sectionFault (m : Mem) (lane : Bool) : Option PFault :=
  let l := psecs m
  firstFault [
    (l.find? (fun x => !secKnown x && bit x.flags 0)).map (fun x => ⟨6, x.idx, 0⟩),
    (l.find? (fun x => secKnown x && l.any (fun y => decide (y.idx < x.idx) && secKnown y && y.typ == x.typ))).map
      (fun x => ⟨7, x.idx, 0⟩),
    chk (([1, 2, 3, 4, 9, 10, 16, 17] ++ (if lane then [11] else [])).any (fun t => (sec m t).isNone)) ⟨7, 0xFF, 0⟩]

/-! ### Bodies -/

def plateHatches (m : Mem) : List (Nat × Nat) := Config.hatches (secBytes m 1)

/-- Pods of the plate's hatches. -/
def platePods (m : Mem) : List Nat := (plateHatches m).flatMap (fun h => (List.range h.2).map (h.1 + ·))

def plateOctets (m : Mem) : List Nat := (plateHatches m).flatMap (fun h => (List.range (h.2 / 8)).map (h.1 / 8 + ·))

/-- Frame records: stack, and entry of a slot (R252). -/
def frameRecs (m : Mem) : Nat := secLen m 3 / 520
def frameStack (m : Mem) (k : Nat) : Nat := secNat m 3 (520 * k) 1
def frameEnt (m : Mem) (k n : Nat) : Nat := secNat m 3 (520 * k + 8 + 2 * n) 2

/-- Pip-table records (R183). -/
structure PipRec where
  first : Nat
  pods : Nat
  pipes : Nat
  table : Nat
  img : Nat
  deriving DecidableEq, Repr

def pipRecs (m : Mem) : List PipRec :=
  tab (secLen m 6 / 4232) (fun k =>
    let o := 4232 * k
    ⟨secNat m 6 o 2, secNat m 6 (o + 2) 2, secNat m 6 (o + 4) 1, secNat m 6 (o + 5) 1, secNat m 6 (o + 8) 4224⟩)

/-- Rules and layers of the update engines (R303, R304). -/
def ruleCount (m : Mem) : Nat := secNat m 8 0 2
def plateRules (m : Mem) : List Nat := tab (ruleCount m) (fun i => secNat m 8 (16 + 160 * i) 160)
def layerCount (m : Mem) : Nat := min (secNat m 8 4 4) (secLen m 8 / 64)
def plateLayers (m : Mem) : List Nat :=
  tab (layerCount m) (fun i => secNat m 8 (16 + 160 * ruleCount m + 64 * i) 64)
def layStack (l : Nat) : Nat := layField l 0x2E 1

/-- Records of the sync plan (R344). -/
def planCtrs (m : Mem) : List Nat := tab (min (secNat m 9 0 4) (secLen m 9 / 32)) (fun i => secNat m 9 (16 + 32 * i) 32)
def planDestAt (m : Mem) (k : Nat) : Nat := secNat m 9 (16 + 32 * secNat m 9 0 4 + 4 * k) 4
def planCons (m : Mem) : List Nat :=
  tab (min (secNat m 9 8 4) (secLen m 9 / 16)) (fun i =>
    secNat m 9 (16 + 32 * secNat m 9 0 4 + 4 * secNat m 9 4 4 + 16 * i) 16)
def recCtr (r : Nat) : Nat := bits r 0 16
def recInitial (r : Nat) : Nat := bits r 64 64
def recTrigger (r : Nat) : Nat := bits r 128 56
def recDestCount (r : Nat) : Nat := bits r 184 6
def recDestFirst (r : Nat) : Nat := bits r 240 16

/-- Phase-operating-point entries (R396): hatch, phase, OPP, priority and watts. -/
def oppEntries (m : Mem) : List Nat := tab (min (secNat m 10 0 2) (secLen m 10 / 8)) (fun i => secNat m 10 (16 + 8 * i) 8)

/-- Query classes (R371). -/
def classRecs (m : Mem) : List Nat := tab (min 16 (secNat m 11 0 2)) (fun i => secNat m 11 (16 + 32 * i) 32)
def classOf (r : Nat) : QClass where
  id := bits r 0 16
  batch := bits r 16 16
  promise := bits r 32 32
  inBytes := bits r 64 32
  outBytes := bits r 96 32
  inDesc := bits r 128 16
  outDesc := bits r 144 16

def planDescs (m : Mem) : List (Nat × Bool × BitVec 512) := Config.planDescs (secBytes m 7)
def plateMask (m : Mem) (d : Nat) : Nat := (Config.chanMask (secBytes m 7) d).toNat

/-! ### Checks from KEY on -/

/-- Plate keys: slots 3 and up of the set-up in force (R465, R471). -/
def keyFault (s : State) (m : Mem) : Option PFault :=
  let x := (sec m 0x11).getD ⟨0xFF, 0, 0, 0, 0, 0, 0⟩
  let d := trailerDigest m x.off
  let ks := s.sec.keys.filter (fun k => k.1 == d)
  firstFault [
    chk ((xmssMtParams (mread m x.off 4)).isNone || ks.isEmpty || ks.any (fun k => k.2)) ⟨8, x.idx, 0⟩,
    chk (!(trailerLen m x.off == some x.len && trailerOk m 0 x.off x.off)) ⟨9, x.idx, 0⟩,
    chk (decide (mread m 0x1C 4 < nth 0 s.sec.fuses.rollback 4)) ⟨10, 0xFF, 0⟩]

/-- The image's digest without its proof and signature sections (R42). -/
def coveredDigest (m : Mem) (n : Nat) : Nat :=
  let out := fun (t a : Nat) => match sec m t with | some x => decide (x.off ≤ a ∧ a < x.off + x.len) | none => false
  ofLE (shake256 (((mbytes m 0 n).zipIdx.filter (fun b => !out 0x10 b.2 && !out 0x11 b.2)).map (·.1)))

def octetMask (l : List Nat) : Nat := (l.dedup.map (2 ^ ·)).sum

/-- PROOF (R43). DESIGN CHOICE (log entry 9): reserved fields of the proof that are not 0 are accepted. -/
def proofFault (m : Mem) (n : Nat) : Option PFault :=
  let f := fun o k => secNat m 0x10 o k
  chk (f 0 4 != 2 || f 4 4 != mread m 0x30 4 || f 8 32 != coveredDigest m n || f 0x28 1 != 0xFF ||
    f 0x30 4 != octetMask (plateOctets m) || f 0x34 4 != secNat m 9 0 4 || decide (8 < f 0x38 4)) ⟨11, secIdx m 0x10, 0⟩

/-- A plate uses phases by hatch; R36. -/
def hatchBad (s : State) (p : Nat) (m : Mem) (i : Nat) (h : Nat × Nat) : Bool :=
  let octs := (List.range (h.2 / 8)).map (h.1 / 8 + ·)
  !([8, 16, 32, 64, 128].contains h.2) || h.1 % h.2 != 0 || decide (256 < h.1 + h.2) ||
    !(octs.all (part s p).octets.contains) ||
    ((plateHatches m).take i).any (fun g => octs.any (fun o => decide (g.1 / 8 ≤ o ∧ o < (g.1 + g.2) / 8)))

/-- An entry breaks R250 or R251 in a slot that the partition owns, or names a hatch that is not the plate's. -/
def entryBad (s : State) (p : Nat) (m : Mem) (st n e : Nat) : Bool :=
  let kind := bits e 0 3
  fixedKind n == 0 && slotOwner s st n == p &&
    (e >>> 10 != 0 || kind == 4 || kind == 5 || kind == 6 || kind == 7 ||
      (kind == 1 && !(plateHatches m).any (fun h => h.1 == 128 * bits e 9 1 + 8 * bits e 4 5)) ||
      ((kind == 0 || kind == 3) && bits e 4 6 != 0))

/-- A fixed slot differs, or a non-IDLE entry lies in a slot that the partition does not own. DEDUCED: KEEP of a fixed
slot's entry is free, since R371 wants it set in every non-IDLE entry of the lane's plate. -/
def entryForeign (s : State) (p st n e : Nat) : Bool :=
  if fixedKind n != 0 then e - 8 * b2n (bit e 3) != fixedKind n else slotOwner s st n != p && bits e 0 3 != 0

def anySlot (m : Mem) (k : Nat) (f : Nat → Nat → Bool) : Bool := (List.range 256).any (fun n => f n (frameEnt m k n))

/-- PLACEMENT (R36, R183, R252, R371). DESIGN CHOICE: a record whose reserved bytes are not 0, or whose STACK is none,
is refused with it too; the rule names no fault for it. -/
def placementFault (s : State) (p : Nat) (m : Mem) (lane : Bool) : Option PFault :=
  let pods := platePods m
  firstFault [
    chkEach (plateHatches m) (hatchBad s p m) 12 (secIdx m 1),
    chkEach (List.range (frameRecs m)) (fun k _ => decide (16 ≤ frameStack m k) || secNat m 3 (520 * k + 1) 7 != 0 ||
      anySlot m k (fun n e => entryBad s p m (frameStack m k) n e || (lane && bits e 0 3 != 0 && !bit e 3))) 12 (secIdx m 3),
    chkEach (pipRecs m) (fun _ r => (List.range r.pods).any (fun g => !pods.contains (r.first + g)) || decide (1 < r.table))
      12 (secIdx m 6)]

/-- SERVICE_SLOTS (R37, R252). -/
def serviceFault (s : State) (p : Nat) (m : Mem) : Option PFault :=
  firstFault [
    chkEach (platePods m) (fun _ g => (Config.netSlots (secBytes m 2) g ++ Config.copySlots (secBytes m 2) g).any
      (isSvcSlot (part s p).share)) 13 (secIdx m 2),
    chkEach (List.range (frameRecs m)) (fun k _ => anySlot m k (entryForeign s p (frameStack m k))) 13 (secIdx m 3)]

/-- Query-class fields outside their ranges (R371). -/
def classBad (m : Mem) (i r : Nat) : Bool :=
  let c := classOf r
  let sized := fun (b : Nat) => b % 64 == 0 && decide (b ≤ 131072)
  let room := fun (d b : Nat) => match (planDescs m).find? (fun x => x.1 == d && !x.2.1) with
    | some x => let (f, l) := tdSpan x.2.2.toNat; decide ((c.batch * b : Nat) ≤ l - f + 1)
    | none => false
  !(decide (1 ≤ c.batch ∧ c.batch ≤ 64) && decide (200 ≤ c.promise ∧ c.promise ≤ 10000) && sized c.inBytes &&
    sized c.outBytes && room c.inDesc c.inBytes && room c.outDesc c.outBytes) || r >>> 160 != 0 ||
    ((classRecs m).take i).any (fun q => bits q 0 16 == c.id)

/-- Entries of a die's tables that other partitions hold. -/
def destsUsed (s : State) (p d : Nat) : Nat := (s.dests.filter (fun e => e.1 / 4096 == d && e.2.2 != p)).length
def consUsed (s : State) (p d : Nat) : Nat := (s.cons.filter (fun e => e.1 / 32768 == d && e.2.part != p)).length

/-- Counters that boot gave the partition, on both dies (R38, R347). -/
def ctrShare (s : State) (p : Nat) : Nat :=
  bits (rd s (synReg 0 (0x20 + 4 * p))) 12 13 + bits (rd s (synReg 1 (0x20 + 4 * p))) 12 13

/-- LIMIT (R38, R183, R226, R252, R344, R371). -/
def limitFault (s : State) (p : Nat) (m : Mem) (lane : Bool) : Option PFault :=
  let pods := platePods m
  let keep := fun k => ((List.range 256).filter (fun n => bit (frameEnt m k n) 3)).length
  let pips := pipRecs m
  let layers := plateLayers m
  let needDests := fun d => (((planCtrs m).filter (fun r => recCtr r / 4096 == d)).map recDestCount).sum
  let needCons := fun d => ((planCons m).filter (fun c => bits c 16 16 / 4096 == d)).length +
    ((layers.filter (fun l => layStack l / 8 == d)).map (fun l => if 1 < layShards l then 6 else 3)).sum
  firstFault [
    chkEach (List.range (frameRecs m)) (fun k _ => decide (64 < keep k) ||
      (List.range k).any (fun j => frameStack m j == frameStack m k)) 14 (secIdx m 3),
    chkEach pods (fun _ g => decide (16384 < (Config.strokes (secBytes m 4) g).length)) 14 (secIdx m 4),
    chkEach pods (fun _ g =>
      let l := Config.stipples (secBytes m 5) g
      l.any (fun x => decide (16 ≤ x.1) || decide (32 < x.2.length)) || decide ((l.map (·.1)).dedup.length < l.length))
      14 (secIdx m 5),
    chkEach pips (fun i r => (pips.take i).any (fun q => q.table == r.table && (q.pipes &&& r.pipes &&& 3) != 0 &&
      spansCut q.first q.pods r.first r.pods)) 14 (secIdx m 6),
    chk (decide (65536 < (planDescs m).length) || (planDescs m).any (fun x => decide (65536 ≤ x.1)) ||
      decide (((planDescs m).map (·.1)).dedup.length < (planDescs m).length) ||
      [0, 1].any (fun d => (List.range 32).any (fun n => bit (plateMask m d) n && chKind s d n != 0 &&
        !(chKind s d n == 1 && chPart s d n == p)))) ⟨14, secIdx m 7, 0⟩,
    chk (decide (16 < platePhases m) || decide (1024 < mread m 0x46 2)) ⟨14, 0xFF, 0⟩,
    chkEach layers (fun i l => decide (4096 < ((layers.take (i + 1)).filter (fun q => layStack q == layStack l)).length))
      14 (secIdx m 8),
    chk (decide (ctrShare s p < (planCtrs m).length) || [0, 1].any (fun d => decide (4096 < destsUsed s p d + needDests d) ||
      decide (32768 < consUsed s p d + needCons d))) ⟨14, secIdx m 9, 0⟩,
    chk (lane && (!decide (1 ≤ secNat m 11 0 2 ∧ secNat m 11 0 2 ≤ 16) || secNat m 11 2 2 != 0 || secNat m 11 12 4 != 0))
      ⟨14, secIdx m 11, 0⟩,
    if lane then chkEach (classRecs m) (classBad m) 14 (secIdx m 11) else none]

/-- OPP (R39, R396, R64). -/
def oppFault (m : Mem) : Option PFault :=
  let n := platePhases m
  let l := oppEntries m
  let hs := (plateHatches m).map (fun h => h.1 / 8)
  firstFault [
    chk (!decide (1 ≤ n ∧ n ≤ 16)) ⟨15, 0xFF, 0⟩,
    chkEach l (fun _ e => decide (11 < bits e 16 8) || decide (3 < bits e 24 8) || bits e 48 16 != 0 ||
      !hs.contains (bits e 0 8) || decide (n ≤ bits e 8 8)) 15 (secIdx m 10),
    chk (secNat m 10 2 14 != 0 || hs.any (fun h => (List.range n).any (fun q =>
      (l.filter (fun e => bits e 0 8 == h && bits e 8 8 == q)).length != 1))) ⟨15, secIdx m 10, 0⟩]

/-- A counter record breaks R40 or R344. -/
def ctrBad (s : State) (p : Nat) (m : Mem) (i r : Nat) : Bool :=
  let id := recCtr r
  let c := ctr s id
  let dc := recDestCount r
  decide (8192 ≤ id) || !inBlock s p id || (c.st != 0 && c.part != p) ||
    ((planCtrs m).take i).any (fun q => recCtr q == id) || decide (2 ^ 48 ≤ recInitial r) ||
    decide (2 ^ 48 ≤ recTrigger r) || bits r 25 7 != 0 || bits r 40 24 != 0 || bits r 190 2 != 0 ||
    (dc != 0 && (decide (recTrigger r ≤ recInitial r) || bits r 192 32 == 0 || decide (32 < dc) ||
      decide (secNat m 9 4 4 < recDestFirst r + dc)))

/-- COUNTER (R40, R344). -/
def counterFault (s : State) (p : Nat) (m : Mem) : Option PFault :=
  let k := secIdx m 9
  let has := fun id => (planCtrs m).any (fun r => recCtr r == id)
  firstFault [
    chk (decide (secLen m 9 < 16 + 32 * secNat m 9 0 4 + 4 * secNat m 9 4 4 + 16 * secNat m 9 8 4)) ⟨16, k, 0⟩,
    chkEach (planCtrs m) (ctrBad s p m) 16 k,
    chkEach (List.range (min (secNat m 9 4 4) (secLen m 9 / 4))) (fun j _ => bits (planDestAt m j) 27 4 != 0) 16 k,
    chkEach (planCons m) (fun _ c => !has (bits c 16 16) || bits c 32 8 != 0 || bits c 40 24 != 0 ||
      decide (2 ^ 48 ≤ bits c 64 64)) 16 k,
    chk (!has (secNat m 9 12 2) || secNat m 9 14 2 == 0) ⟨16, k, 0⟩]

/-! ### Bindings and descriptors (R41) -/

/-- The binding table: slot and handle, with its reserved bytes. -/
def bindings (b : Mem) (n : Nat) : List (Nat × Nat × Nat) :=
  tab n (fun i => (mread b (16 * i) 4, mread b (16 * i + 8) 8, mread b (16 * i + 4) 4))

/-- The handle that a descriptor's range slot is bound to. -/
def boundTo (b : List (Nat × Nat × Nat)) (slot : Nat) : Option Nat := (b.find? (fun x => x.1 == slot)).map (fun x => x.2.1)

/-- BINDING: a duplicate, a slot beyond RANGE_SLOT_COUNT, a reserved byte, or a slot used without a binding. -/
def bindFault (m : Mem) (b : List (Nat × Nat × Nat)) : Option PFault :=
  let k := mread m 0x46 2
  firstFault [
    chkEach b (fun i x => decide (k ≤ x.1) || x.2.2 != 0 || (b.take i).any (fun y => y.1 == x.1)) 17 0xFF,
    ((planDescs m).find? (fun x => !x.2.1 && (boundTo b (tdHandle x.2.2.toNat)).isNone)).map
      (fun x => ⟨17, secIdx m 7, x.1⟩)]

/-- The plate table with the bound handles. -/
def boundDescs (m : Mem) (b : List (Nat × Nat × Nat)) : Tbl DescE :=
  (planDescs m).foldl (fun t x =>
    let d := x.2.2.toNat
    tset t x.1 (if x.2.1 then .copy d
      else .tensor (bits d 0 64 + fld 64 64 ((boundTo b (tdHandle d)).getD 0) + fld 128 384 (bits d 128 384)))) []

/-- The state with a plate table in force, for checks that look descriptors up. -/
def withDescs (s : State) (p : Nat) (t : Tbl DescE) : State := modPart s p (fun x => { x with descs := t })

/-- DESCRIPTOR: tensors first, then copies, each in ascending index (R41, R240). DESIGN CHOICE (log entry 15): the entry
index of a fault is the descriptor's index in the plate's table. -/
def descFault (s : State) (p : Nat) (m : Mem) (t : Tbl DescE) : Option PFault :=
  let s := withDescs s p t
  let feat := bit (plateFeatures m) 5
  let bad := fun (e : Nat × DescE) => match e.2 with
    | .tensor d => describeTensor s d p != 0
    | .copy c => describeCopy s c p feat != 0
  let tensors := t.filter (fun e => match e.2 with | .tensor _ => true | _ => false)
  let copies := t.filter (fun e => match e.2 with | .tensor _ => false | _ => true)
  ((tensors ++ copies).find? bad).map (fun e => ⟨18, secIdx m 7, e.1⟩)

/-! ### Layers (R298–R305) -/

def finite32 (x : Nat) : Bool := bits x 23 8 != 255
def negative32 (x : Nat) : Bool := bit x 31 && bits x 0 31 != 0
/-- `0 ≤ x < 1`. -/
def unit32 (x : Nat) : Bool := bits x 0 31 == 0 || (!bit x 31 && decide (x < 0x3F800000))

/-- Sources that a tail operation uses, as a mask of SA, SB and SC. -/
def tailUses (op : Nat) : Nat :=
  match op with
  | 4 | 5 | 11 => 7
  | 8 | 9 => 1
  | _ => 3

def tailBad (w : Nat) : Bool :=
  let u := tailUses (bits w 0 6)
  !decide (1 ≤ bits w 0 6 ∧ bits w 0 6 ≤ 11) || w >>> 21 != 0 ||
    (!bit u 1 && bits w 13 4 != 0) || (!bit u 2 && bits w 17 4 != 0)

/-- A rule breaks R304, R305 or R309. -/
def ruleBad (feat r : Nat) : Bool :=
  let k := ruleField r 0x44 1
  let vk := ruleVKind r
  let n := ruleField r 0x45 1
  let tail := fun i => ruleField r (0x50 + 4 * i) 4
  !((List.range 14).all (fun i => finite32 (ruleCoef r i))) || negative32 (ruleCoef r 2) || negative32 (ruleCoef r 3) ||
    !unit32 (ruleCoef r 4) || !unit32 (ruleCoef r 5) ||
    (vk != 0 && (bit (ruleCoef r 6) 31 || ruleCoef r 6 == 0)) ||
    [0x38, 0x3C, 0x40].any (fun o => bits (ruleField r o 4) 0 2 == 3) ||
    k / 32 != 0 || decide (1 < ruleMKind r) || vk == 3 || decide (16 < n) ||
    (List.range 16).any (fun i => if i < n then tailBad (tail i) else tail i != 0) ||
    (vk == 2 && !bit feat 2) || (decide (8 < n) && !bit feat 3)

/-- The tensors of a layer: offset of its field, whether it must be present, types, extents and WRITE (R300). -/
structure LayTensor where
  off : Nat
  need : Bool
  types : List Nat
  mat : Bool                       -- two-dimensional, as W
  ext : Nat                        -- EXT0 of a vector
  wr : Bool
  one : Bool := false              -- one granule
  deriving DecidableEq, Repr

def layTensors (l r rows cols : Nat) : List LayTensor :=
  let vk := ruleVKind r
  let nb := ceilDiv' rows 8
  [⟨0x08, true, [0, 1], true, 0, true, false⟩, ⟨0x0A, true, [0, 1], true, 0, false, false⟩,
   ⟨0x0C, ruleMKind r == 1, [0, 1], true, 0, true, false⟩,
   if vk = 2 then ⟨0x0E, true, [0], false, rows, true, false⟩ else ⟨0x0E, vk == 1, [0, 1], true, 0, true, false⟩,
   ⟨0x10, vk == 2, [0], false, cols, true, false⟩,
   ⟨0x12, !layDense l, [8], false, nb, false, false⟩, ⟨0x14, layMask l, [8], false, nb, false, false⟩,
   ⟨0x16, true, [12], false, 16, true, true⟩, ⟨0x18, true, [12], false, 16, false, true⟩,
   ⟨0x1A, true, [12], false, 16, false, true⟩]

/-- The span lies in stack-mode regions of a stack (R298). -/
def spanInStack (s : State) (f l : Int) (st : Nat) : Bool :=
  decide (0 ≤ f ∧ l < (2 ^ 39 : Nat)) &&
    (List.range (l.toNat / 2 ^ 30 + 1 - f.toNat / 2 ^ 30)).all (fun k =>
      let w := regionWord s (f.toNat / 2 ^ 30 + k) 0
      bits w 0 2 == 3 && bits w 3 4 == st)

def tensorBad (s : State) (p l rows cols : Nat) (x : LayTensor) : Bool :=
  match layTensor s p l x.off with
  | none => x.need || layField l x.off 2 != 0xFFFF
  | some d =>
    let t := tdType d
    !x.need || !x.types.contains t || x.wr != tdWrite d ||
      (if x.mat then tdNdim d != 2 || tdExt d 0 != cols || tdExt d 1 != rows || tdStr d 0 != 1 || tdBase d % 64 != 0 ||
          (tdStr d 1 * typeSize t) % 64 != 0
       else tdNdim d != 1 || tdExt d 0 != x.ext) ||
      (x.one && (tdStr d 0 != 1 || tdBase d % 64 != 0)) ||
      !spanInStack s (tdSpan d).1 (tdSpan d).2 (layStack l)

/-- Spans of a layer's tensors, with whether the layer writes them. -/
def laySpans (s : State) (p l : Nat) : List (Int × Int × Bool) :=
  [0x08, 0x0A, 0x0C, 0x0E, 0x10, 0x12, 0x14, 0x16, 0x18, 0x1A].filterMap (fun o =>
    (layTensor s p l o).map (fun d => ((tdSpan d).1, (tdSpan d).2, [0x08, 0x0C, 0x0E, 0x10, 0x16].contains o)))

def meet3 (a b : Int × Int × Bool) : Bool := decide (a.1 ≤ b.2.1 ∧ b.1 ≤ a.2.1)

/-- A layer descriptor breaks R298, R300, R303 or R305. -/
def layerBad (s : State) (p : Nat) (m : Mem) (i l : Nat) : Bool :=
  let layers := plateLayers m
  let feat := plateFeatures m
  let r := nth 0 (plateRules m) (layField l 4 2)
  let w := layTensor s p l 8
  let rows := match w with | some d => tdExt d 1 | none => 0
  let cols := match w with | some d => tdExt d 0 | none => 0
  let sp := laySpans s p l
  let same := layers.filter (fun q => layField q 0 4 == layField l 0 4)
  let sh := layShards l
  let slots := (List.range (frameRecs m)).any (fun k => frameStack m k == layStack l &&
    anySlot m k (fun n e => slotOwner s (layStack l) n == p && bits e 0 3 == 3))
  decide (ruleCount m ≤ layField l 4 2) || layField l 6 2 / 8 != 0 || decide (16 ≤ layStack l) ||
    layField l 0x2F 17 != 0 || !decide (1 ≤ sh ∧ sh ≤ 16) || decide (sh ≤ layField l 0x1C 2) ||
    layField l 0x2A 2 == 0 || w.isNone ||
    (layTensors l r rows cols).any (tensorBad s p l rows cols) ||
    sp.zipIdx.any (fun a => (sp.take a.2).any (meet3 a.1)) ||
    (ruleVKind r == 2 && (decide (131072 < rows + cols) || decide (1 < sh))) || (layMask l && !bit feat 6) ||
    !slots ||
    same.length != sh || ((same.map (fun q => layField q 0x1C 2)).dedup).length != sh ||
    ((same.map layStack).dedup).length != sh ||
    same.any (fun q => layShards q != sh || layField q 4 2 != layField l 4 2 || layFreeze q != layFreeze l ||
      layField q 0x22 2 != layField l 0x22 2) ||
    (layers.take i).any (fun q => layStack q == layStack l && decide (layField l 0 4 ≤ layField q 0 4)) ||
    (layers.take i).any (fun q => (laySpans s p q).any (fun a => sp.any (fun b => (a.2.2 || b.2.2) && meet3 a b)))

/-- LAYER (R305). -/
def layerFault (s : State) (p : Nat) (m : Mem) (t : Tbl DescE) : Option PFault :=
  let s := withDescs s p t
  let k := secIdx m 8
  if (sec m 8).isNone then none
  else firstFault [
    chk (!decide (1 ≤ ruleCount m ∧ ruleCount m ≤ 256) ||
      decide (secLen m 8 < 16 + 160 * ruleCount m + 64 * secNat m 8 4 4)) ⟨19, k, 0⟩,
    chkEach (plateRules m) (fun _ r => ruleBad (plateFeatures m) r) 19 k,
    chkEach (plateLayers m) (layerBad s p m) 19 k]

/-- The loader's checks in the order of the fault codes; the first that fails (R47, R64). -/
def loadFault (s : State) (p : Nat) (m : Mem) (n : Nat) (bind : Mem) (count : Nat) : Option PFault :=
  let lane := lanePart s == some p
  let b := bindings bind (min count 1025)
  firstFault [
    chk (mread m 0 4 != 0x544C5051 || mread m 8 4 != 256) ⟨1, 0xFF, 0⟩,
    chk (mread m 4 2 != 3) ⟨2, 0xFF, 0⟩,
    chk (mread m 0x18 2 != 0x7216 || decide (0x11 < mread m 0x1A 1)) ⟨3, 0xFF, 0⟩,
    chk (decide (2 ^ 7 ≤ plateFeatures m)) ⟨4, 0xFF, 0⟩,
    layoutFault m n,
    sectionFault m lane,
    keyFault s m,
    proofFault m n,
    placementFault s p m lane,
    serviceFault s p m,
    limitFault s p m lane,
    oppFault m,
    counterFault s p m,
    bindFault m b,
    descFault s p m (boundDescs m b),
    layerFault s p m (boundDescs m b)]

end Sys2Proof.Machine
end

