-- ==== Sys2Proof/Machine/Power.lean ====
section
/-! DEFINITION. The power steward, the generators' fast estimate, caps, telemetry, the thermal levels of stacks and
dies, droop and energy (16_power_thermal.md R394–R416, 10_memory_stacks.md R265, R266). Quantities are exact
rationals in W; where a register holds one it is rounded down. -/
namespace Sys2Proof.Machine
open Sys2Proof

/-! ### Operating points (R394) -/

def relPower (opp : Nat) : Nat := nth 0 [210, 250, 295, 343, 396, 454, 516, 583, 656, 733, 860, 1000] opp
def relEnergy (opp : Nat) : Nat := nth 0 [490, 526, 563, 601, 640, 681, 723, 766, 810, 856, 926, 1000] opp
/-- Hatch clock in units of 10 MHz. -/
def oppFreq (opp : Nat) : Nat := nth 0 [90, 100, 110, 120, 130, 140, 150, 160, 170, 180, 195, 210] opp

/-- Scale a power from one point to another. -/
def scalePower (d : Rat) (from' to' : Nat) : Rat := d * relPower to' / relPower from'

def phaseEntry (x : Gen) : OppEntry := nth {} x.pwr.phases x.phase

/-- The point that a hatch counts as: the higher one during a rise, the lower one from the decision of a fall (R395). -/
def oppCount (x : Gen) : Nat := x.pwr.oppNew.getD x.opp

/-- A change of point is decided: the hatch runs at the lower of the two until the change completes (R395), so that it
never runs above the point its phase prefers (R68). -/
def moveOpp (x : Gen) (o : Nat) : Gen :=
  if o = oppCount x then x else { x with opp := min x.opp o, pwr := { x.pwr with oppNew := some o } }

/-- The generator heads a hatch whose clock has started and has not been stopped. -/
def hatchLive (x : Gen) : Bool :=
  decide (0 < x.size) && !x.faulted && (x.st == .running || x.st == .held || x.st == .sleeping)

def pinned (s : State) (n : Nat) : Bool := (part s (gen s n).part).query

def liveHatches (s : State) : List Nat := (s.gens.filter (fun e => hatchLive e.2)).map (·.1)

/-- g_min of R398, in W. -/
def grantMin (x : Gen) : Rat :=
  let e := phaseEntry x
  (e.watts : Rat) * 210 / relPower e.opp * 4 / 64

/-! ### Floors (R266, R408–R410) -/

/-- Physical slot of a logical pod on its die (R12). -/
def slotOf (s : State) (g : Nat) : Nat := tget (g % 128) s.slots g

/-- Bubble floor of a stack (R266). -/
def stackFloor (x : Stack) : Nat := if 2 ≤ x.level then min 60 (16 + 4 * (x.temp / 4 - 95)) else 0

/-- Bubble floor of a hot octet (R408). -/
def octetFloor (s : State) (k : Nat) : Nat :=
  if s.pws.hot.contains k then min 60 (16 + 8 * (tget 0 s.pws.temps k / 4 - 98)) else 0

/-- The largest stack floor on a hatch: stacks beneath which it holds a physical slot (R17, R266). -/
def stackFloorOf (s : State) (n : Nat) : Nat :=
  ((hatchPods s n).map (fun g =>
    let o := slotOf s g
    if o < 128 then stackFloor (stk s (8 * (n / 16) + o / 16)) else 0)).foldl max 0

/-- The die floor on a hatch (R408, R409). -/
def dieFloorOf (s : State) (n : Nat) : Nat :=
  ((hatchPods s n).map (fun g => octetFloor s (17 * (n / 16) + slotOf s g / 8))).foldl max
    (octetFloor s (17 * (n / 16) + 16))

/-- F of R402. -/
def floorOf (s : State) (n : Nat) : Nat :=
  max (max (stackFloorOf s n) (dieFloorOf s n)) (if (gen s n).pwr.droop then 32 else 0)

/-- The ratio that a TRACK hatch's next window takes (R402, R409); a pinned hatch keeps the steward's. -/
def aimRatio (s : State) (n : Nat) : State :=
  if pinned s n then s
  else modGen s n (fun x => { x with nextRatio := min 60 (max (floorOf s n) x.pwr.want) })

def aimAll (s : State) : State := (liveHatches s).foldl aimRatio s

/-! ### The query lane's hatches (R407) -/

/-- An admitted request is in flight. -/
def laneBusy (s : State) : Bool := s.lane.steps.any (fun x => !x.reqs.isEmpty)

def laneHatches (s : State) : List Nat := (liveHatches s).filter (pinned s)

/-- Power that the lane reserves with its points lowered by `k` and ratio `b`. -/
def laneReserve (s : State) (k b : Nat) : Rat :=
  ((laneHatches s).map (fun n =>
    let e := phaseEntry (gen s n)
    scalePower e.watts e.opp (e.opp - k) * (64 - b : Nat) / 64)).sum

/-- Floor estimate of the module: the mean of the last eight periods' (R404). -/
def meanOf (l : List Rat) : Rat := if l.isEmpty then 0 else l.sum / l.length
def floorEst (s : State) : Rat := meanOf s.pws.floors0 + meanOf s.pws.floors1

def capActive (s : State) : Nat := bits (rd s (pwsReg 0 0xC)) 0 12

/-- Room for the lane: cap − floor − Σ g_min of the other hatches. -/
def laneRoom (s : State) : Rat :=
  (capActive s : Rat) - floorEst s - (((liveHatches s).filter (fun n => !pinned s n)).map (fun n => grantMin (gen s n))).sum

/-- Steps down and ratio for the lane: the highest points at which some ratio fits, and the smallest such ratio. -/
def lanePlan (s : State) : Nat × Nat :=
  match (List.range 12).findSome? (fun k =>
    (findNat 61 (fun b => decide (laneReserve s k b ≤ laneRoom s))).map (fun b => (k, b))) with
  | some r => r
  | none => (11, 60)

/-- The steward sets the lane's points and ratio, while no admitted request is in flight. -/
def setLane (s : State) : State :=
  if laneBusy s then s
  else
    let (k, b) := lanePlan s
    (laneHatches s).foldl (fun s n =>
      let s := modGen s n (fun x => { x with phase := x.newPhase })
      modGen s n (fun x => moveOpp { x with
        nextRatio := min 60 (max b (max (stackFloorOf s n) (dieFloorOf s n)))
        pwr := { x.pwr with fresh := false } } ((phaseEntry x).opp - k))) s

/-- The lane goes into drain (R407). -/
def startDrain (s : State) : State :=
  if s.pws.drain || (laneHatches s).isEmpty then s
  else setBits { s with pws := { s.pws with drain := true } } (pwsReg 0 0x10) 0x80

/-- A change touches pinned hatches: at once where no request is in flight, else after a drain. -/
def touchLane (s : State) : State := if laneBusy s then startDrain s else setLane s

/-! ### Caps (R403) -/

def capWanted (s : State) : Nat := min (bits (rd s (pwsReg 0 4)) 0 12) (bits (rd s (pwsReg 0 8)) 0 12)

def setCap (s : State) (w : Nat) : State :=
  let s := if capActive s = w then s else setBits s (pwsReg 0 0x10) 1
  wr s (pwsReg 0 0xC) w

/-- The cap in force at a grant: a lowered one waits for the lane's drain. -/
def updateCap (s : State) : State :=
  let w := capWanted s
  if w < capActive s && laneBusy s then
    startDrain (wr s (pwsReg 0 0xC) (capActive s + 2 ^ 12))
  else setCap s w

def clampCap (v : Nat) : Nat := min 2000 (max 600 (v % 2 ^ 12))

/-- A write of a cap: die 0's register holds it, and die 1's mirror discards it. -/
def capWrite (s : State) (r : Requester) (d o v : Nat) : State :=
  gate s r (pwsReg d o) (fun s => if d = 0 then wr s (pwsReg 0 o) (clampCap v) else s)

def execPwsCapHostWrite (r : Requester) (d : Fin 2) (v : BitVec 32) (s : State) : Out := .next (capWrite s r d 4 v.toNat)

/-- The warden keeps a copy of the management cap, so a write reaches it with die 0 down too (R416, R458). -/
def execPwsCapMgmtWrite (r : Requester) (d : Fin 2) (v : BitVec 32) (s : State) : Out :=
  .next (if d.val = 0 && r == .mgmt && !dieUp s 0 then wr s (pwsReg 0 8) (clampCap v.toNat) else capWrite s r d 8 v.toNat)

/-! ### The steward (R398, R399, R404, R405) -/

/-- A hatch in the grant procedure. -/
structure GrantRow where
  n : Nat
  prio : Nat
  d : Rat
  g : Rat
  deriving DecidableEq, Repr

/-- The present estimate, as at OPP 11. -/
def estTop (x : HatchPwr) : Rat := scalePower x.est x.estOpp 11

/-- d of R398. -/
def demand (x : Gen) : Rat :=
  let e := phaseEntry x
  if x.pwr.fresh then e.watts else scalePower x.pwr.estMax 11 e.opp

/-- One priority class takes its share of what is left. -/
def grantClass (prio : Nat) (a : List GrantRow × Rat) : List GrantRow × Rat :=
  let need := ((a.1.filter (fun r => r.prio == prio && decide (r.g < r.d))).map (fun r => r.d - r.g)).sum
  let share := if need ≤ a.2 then 1 else max a.2 0 / need
  (a.1.map (fun r => if r.prio == prio && decide (r.g < r.d) then { r with g := r.g + (r.d - r.g) * share } else r),
   a.2 - min need (max a.2 0))

/-- The procedure of R398 after the minimum grants: `avail` may be negative. -/
def grantRows (rows : List GrantRow) (avail : Rat) : List GrantRow :=
  let (rows, left) := grantClass 0 (grantClass 1 (grantClass 2 (grantClass 3 (rows, avail))))
  let sum := (rows.map (·.d)).sum
  if 0 < left && sum != 0 then rows.map (fun r => { r with g := r.g + left * r.d / sum }) else rows

/-- The cut that an overshoot of the cap asks for, in proportion to the grants (R406). -/
def cutRows (rows : List GrantRow) (cut : Rat) : List GrantRow :=
  let sum := (rows.map (·.g)).sum
  if sum ≤ 0 then rows else rows.map (fun r => { r with g := max 0 (r.g - cut * r.g / sum) })

/-- The next point of a hatch under its new grant (R399, R68). -/
def nextOpp (x : Gen) (g : Rat) : Nat :=
  let cur := oppCount x
  let pref := (phaseEntry x).opp
  if pref < cur then pref
  else if 16 < x.pwr.low && decide (0 < cur) then cur - 1
  else
    let d := scalePower x.pwr.est x.pwr.estOpp (cur + 1)
    if cur < pref && decide (64 * (d - g) ≤ 4 * d) then cur + 1 else cur

/-- A grant for one hatch, with its step of the point; its period ends. -/
def grantTo (s : State) (r : GrantRow) : State :=
  modGen s r.n (fun x =>
    let g := (8 * r.g).floor.toNat
    let o := nextOpp x (g / 8 : Rat)
    let x := moveOpp x o
    { x with pwr := { x.pwr with sent := some g, fresh := false, estMax := estTop x.pwr, low := x.ratio } })

/-- G × ΣD of a die's running hatches. -/
def dieDynamic (s : State) (d : Nat) : Rat :=
  s.pws.gain * (((liveHatches s).filter (fun n => n / 16 == d)).map (fun n => (gen s n).pwr.est)).sum

/-- Input power of a die in the last sample. -/
def measured (s : State) (d : Nat) : Nat := bits (rd s (pwsReg d 0x18)) 0 16

/-- Floor estimates of the period that ends (R404). -/
def pushFloors (s : State) : State :=
  { s with pws := { s.pws with
      floors0 := ((measured s 0 : Rat) - dieDynamic s 0) :: s.pws.floors0.take 7
      floors1 := ((measured s 1 : Rat) - dieDynamic s 1) :: s.pws.floors1.take 7 } }

/-- Pacing while the minimum grants do not fit; the spec leaves its ratio open within 1/64 to 60/64 (R405). -/
def pace (s : State) (on : Bool) : State :=
  if on then
    let (s, k) := pickOf s ((List.range 60).map (· + 1))
    let s := if rd s (pwsReg 0 0x20) = 0 then setBits s (pwsReg 0 0x10) 2 else s
    wr (wr s (pwsReg 0 0x20) k) (pwsReg 1 0x20) k
  else wr (wr s (pwsReg 0 0x20) 0) (pwsReg 1 0x20) 0

/-- One instant of the steward (R398): a new phase governs, the cap comes into force, the floor estimate and the lane
are brought up to date, and every unpinned running hatch is granted. -/
def stewardGrant (s : State) : State :=
  if !dieUp s 0 then s
  else
    let s := pushFloors s
    let s := (liveHatches s).foldl (fun s n => if pinned s n then s else modGen s n (fun x => { x with phase := x.newPhase })) s
    let s := updateCap s
    let s := if s.pws.drain && !laneBusy s then { s with pws := { s.pws with drain := false } } else s
    let s := setLane s
    let hs := (liveHatches s).filter (fun n => !pinned s n)
    let rows := hs.map (fun n => (⟨n, (phaseEntry (gen s n)).prio, demand (gen s n), grantMin (gen s n)⟩ : GrantRow))
    let reserve := ((laneHatches s).map (fun n =>
      scalePower (phaseEntry (gen s n)).watts (phaseEntry (gen s n)).opp (oppCount (gen s n)) * (64 - (gen s n).nextRatio : Nat) / 64)).sum
    let avail := (capActive s : Rat) - floorEst s - reserve - (rows.map (·.g)).sum
    let s := (cutRows (grantRows rows avail) s.pws.cut).foldl grantTo s
    pace { s with pws := { s.pws with cut := 0 } } (decide (avail < 0))

def execStewardGrant (s : State) : Out := .next (stewardGrant s)

/-- A grant arrives; fallback ends (R398, R400). -/
def execGrantApplied (n : Fin 32) (s : State) : Out :=
  .next (match (gen s n).pwr.sent with
    | none => s
    | some g => modGen s n (fun x => { x with pwr := { x.pwr with newGrant := some g, sent := none, fallback := false } }))

/-- A change of point completes (R395). -/
def execOppChangeComplete (n : Fin 32) (s : State) : Out :=
  .next (modGen s n (fun x => match x.pwr.oppNew with
    | some o => { x with opp := o, pwr := { x.pwr with oppNew := none } }
    | none => x))

/-- No grant for 100 µs (R400): the last grant stays and the point drops to OPP 0. -/
def execGeneratorFallback (n : Fin 32) (s : State) : Out :=
  .next (if hatchLive (gen s n) && !pinned s n then
      setBits (modGen s n (fun x => moveOpp { x with pwr := { x.pwr with fallback := true, sent := none } } 0))
        (pwsReg (n / 16) 0x10) 0x10
    else s)

/-! ### The fast estimate (R401, R402) -/

/-- D of a quarter, in W: pJ × GHz / edges is mW. -/
def quarterD (opp : Nat) (e : QuarterEvents) : Rat :=
  let w : Rat := 818 * e.arrays + 256 * e.pipes + 450 * e.bytes / 1024 + 100 * e.flits
  (w * relEnergy opp / 1000 + 691 * e.granules) * oppFreq opp / 100 / e.edges / 1000

/-- The ratio that a grant asks of an estimate, before floors; 0 where nothing is drawn. -/
def wantRatio (d gain g : Rat) : Nat :=
  let x := d * gain
  if x ≤ g then 0 else min 60 (64 * (x - g) / x).ceil.toNat

/-- A quarter boundary: a grant that has arrived takes force, D is formed, and a TRACK hatch computes its next ratio. -/
def quarter (s : State) (n : Nat) (e : QuarterEvents) : State :=
  if !hatchLive (gen s n) then s
  else
    let s := modGen s n (fun x =>
      let d := if e.edges = 0 then x.pwr.est else quarterD x.opp e
      let g := x.pwr.newGrant.getD x.pwr.grant
      { x with pwr := { x.pwr with
          grant := g
          newGrant := none
          est := d
          estOpp := if e.edges = 0 then x.pwr.estOpp else x.opp
          estMax := max x.pwr.estMax (if e.edges = 0 then estTop x.pwr else scalePower d x.opp 11)
          estSum := x.pwr.estSum + d
          estCnt := x.pwr.estCnt + 1
          want := wantRatio d s.pws.gain (g / 8 : Rat)
          low := min x.pwr.low x.ratio } })
    aimRatio s n

def execQuarterBoundaryEstimate (n : Fin 32) (ev : QuarterEvents) (s : State) : Out := .next (quarter s n ev)

/-! ### Telemetry (R406) -/

/-- ΣD̄ of the running hatches over the sample. -/
def meanDynamic (s : State) (d : Option Nat) : Rat :=
  (((liveHatches s).filter (fun n => match d with | some d => n / 16 == d | none => true)).map (fun n =>
    let x := (gen s n).pwr
    if x.estCnt = 0 then x.est else x.estSum / x.estCnt)).sum

/-- The gain after a sample: the spec states no result where ΣD̄ is 0, and the gain is then free within its bounds. -/
def nextGain (s : State) (m p sum : Rat) : State :=
  if s.pws.hold then { s with pws := { s.pws with gain := 3 / 2 } }
  else if sum = 0 then
    let k := Config.pick s.freeCtr 12289 % 12289
    let s := nextFree s
    { s with pws := { s.pws with gain := 3 / 4 + (k : Rat) / 16384 } }
  else { s with pws := { s.pws with gain := min (3 / 2) (max (3 / 4) (s.pws.gain + (m - p) / (4 * sum))) } }

/-- PWS_TELEMETRY of a die (R415). -/
def writeTelemetry (s : State) (d watts : Nat) : State :=
  let f := meanOf (if d = 0 then s.pws.floors0 else s.pws.floors1)
  wr s (pwsReg d 0x18) (fld 0 16 watts + fld 16 16 (s.pws.gain * meanDynamic s (some d)).floor.toNat +
    fld 32 16 f.floor.toNat + fld 48 16 (16384 * s.pws.gain).floor.toNat)

/-- A valid 1 ms sample. -/
def validSample (s : State) (a : PowerSample) : State :=
  let m : Rat := (a.watts0 + a.watts1 : Nat)
  let sum := meanDynamic s none
  let p := s.pws.gain * sum + floorEst s
  let cap : Rat := capActive s
  let off := cap / 20 < m - p || cap / 20 < p - m
  let good := s.pws.good + 1
  let bad := if off then s.pws.bad + 1 else 0
  let s := nextGain s m p sum
  let s := { s with pws := { s.pws with
      good := good
      bad := bad
      hold := s.pws.hold && decide (good < 10)
      ok := !(s.pws.hold && decide (good < 10))
      cut := if cap < m then 11 * (m - cap) / 10 else s.pws.cut } }
  let s := if 50 ≤ bad then setBits s (pwsReg 0 0x10) 4 else s
  let s := writeTelemetry (writeTelemetry s 0 a.watts0) 1 a.watts1
  (liveHatches s).foldl (fun s n => modGen s n (fun x => { x with pwr := { x.pwr with estSum := 0, estCnt := 0 } })) s

def execTelemetrySample (a : PowerSample) (s : State) : Out :=
  let s := if a.valid then { s with sup := { s.sup with watts := a.watts0 + a.watts1 } } else s
  .next (if !dieUp s 0 then s else if a.valid then validSample s a else { s with pws := { s.pws with good := 0 } })

/-- No valid sample for 10 ms. -/
def execTelemetryLost (s : State) : Out :=
  .next (if !dieUp s 0 then s
    else setBits { s with pws := { s.pws with hold := true, ok := false, good := 0, gain := 3 / 2 } } (pwsReg 0 0x10) 8)

/-! ### Temperatures (R265, R266, R408) -/

/-- Entry thresholds of the stack levels, 0.25 °C. -/
def stackEnter : List Nat := [340, 380, 420, 440]

/-- The level after a reading: a level is left 3 °C below its threshold, a trip only by its release. -/
def stackLevel (level t : Nat) : Nat :=
  let up := (stackEnter.filter (fun h => decide (h ≤ t))).length
  if level = 4 then 4
  else max up ((stackEnter.take level).filter (fun h => decide (h - 12 < t))).length

/-- Copies with a deadline that touch a stack pause as it becomes KEEP_ONLY (R233). -/
def pauseCopies (s : State) (st : Nat) : State :=
  { s with copies := s.copies.map (fun e =>
      (e.1, { e.2 with run := e.2.run.map (fun r =>
        if cdDeadline r.img != 0 && (copyStacks s (chPart s (e.1 / 32) (e.1 % 32)) r.img r.iter).contains st then
          { r with flags := r.flags ||| 2 } else r) })) }

/-- A stack's controller acts on its hottest reading. -/
def stackSample (s : State) (st t : Nat) : State :=
  if !dieUp s (st / 8) then s
  else
    let x := stk s st
    let l := stackLevel x.level t
    let ev := (List.range 3).foldl (fun v k => if x.level ≤ k ∧ k < l then v + 2 ^ k else v) 0
    let s := setStk s st { x with level := l, temp := t }
    let s := setBits s (mchReg st 8) ev
    let s := wr s (mchReg st 4) (t + fld 12 12 (max t (bits (rd s (mchReg st 4)) 12 12)))
    let s := if x.level < 3 ∧ 3 ≤ l then pauseCopies s st else s
    let s := aimAll s
    if (laneHatches s).any (fun n => decide (s.lane.est < stackFloorOf s n)) then touchLane s else s

def execStackTemperatureSample (st : Fin 16) (reading : BitVec 12) (s : State) : Out :=
  .next (stackSample s st reading.toNat)

/-- A die's controller acts on its sensors: the hottest reading of each octet 0–16 in order (R408). -/
def dieSample (s : State) (d : Nat) (ts : List Nat) : State :=
  if !dieUp s d then s
  else
    let ks := (List.range 17).map (fun o => (17 * d + o, nth 0 ts o))
    let was := s.pws.hot
    let hot := was.filter (fun k => k / 17 != d) ++
      (ks.filter (fun e => decide (392 ≤ e.2) || (was.contains e.1 && decide (380 < e.2)))).map (·.1)
    let s := { s with pws := { s.pws with temps := ks.foldl (fun t e => tset t e.1 e.2) s.pws.temps, hot := hot } }
    let s := if hot.any (fun k => !was.contains k) then setBits s (pwsReg d 0x10) 0x20 else s
    let s := aimAll s
    if (laneHatches s).any (fun n => n / 16 == d && decide (0 < dieFloorOf s n)) then touchLane s else s

def execDieTemperatureSample (d : Fin 2) (readings : List (BitVec 12)) (s : State) : Out :=
  .next (dieSample s d (readings.map (·.toNat)))

/-! ### Droop (R410) -/

def trackOn (s : State) (d : Nat) : List Nat := (liveHatches s).filter (fun n => n / 16 == d && !pinned s n)

/-- A detector fires: 256 edges are stretched, and a floor of 32/64 holds for 2 µs. -/
def droop (s : State) (d : Nat) : State :=
  if !dieUp s d || s.pws.spent.contains d then s
  else
    let s := setBits (bump s (pwsReg d 0x148) 1) (pwsReg d 0x10) 0x40
    let s := { s with pws := { s.pws with spent := d :: s.pws.spent } }
    (trackOn s d).foldl (fun s n =>
      aimRatio (modGen s n (fun x => { x with slow := x.slow ++ [(x.hc + 1, x.hc + 256)], pwr := { x.pwr with droop := true } })) n) s

def execDroopDetected (d : Fin 2) (s : State) : Out := .next (droop s d)

def execDroopFloorExpired (d : Fin 2) (s : State) : Out :=
  .next ((trackOn s d).foldl (fun s n => aimRatio (modGen s n (fun x => { x with pwr := { x.pwr with droop := false } })) n) s)

def execDroopRearm (d : Fin 2) (s : State) : Out :=
  .next { s with pws := { s.pws with spent := s.pws.spent.filter (· != d.val) } }

/-! ### Energy (R413) -/

def addEnergy (s : State) (a pj : Nat) : State :=
  { s with pws := { s.pws with energy := tmod 0 s.pws.energy a (· + pj) } }

/-- One 10 µs period of a die's energy counters. -/
def energy (s : State) (d : Nat) (e : EnergySample) : State :=
  let copy := fun n => 691 * nth 0 e.granules n + 100 * nth 0 e.units n
  let own := fun p => ((List.range 32).filter (fun n => chKind s d n != 0 && chPart s d n == p)).map copy
  let pj := fun p => (s.pws.gain * (nth 0 e.hatches p : Nat)).floor.toNat + 691 * nth 0 e.upes p + (own p).sum
  let all := ((List.range 8).map pj).sum
  let s := (List.range 32).foldl (fun s n => addEnergy s (pwsReg d (0x200 + 8 * n)) (copy n)) s
  let s := (List.range 8).foldl (fun s p => addEnergy s (pwsReg d (0x100 + 8 * p)) (pj p)) s
  if 1000000 * e.measured < all then logEv s d 0x52 0xFF d (all / 1000000 - e.measured) false
  else addEnergy s (pwsReg d 0x140) (1000000 * e.measured - all)

def execEnergyAccumulate (d : Fin 2) (e : EnergySample) (s : State) : Out :=
  .next (if dieUp s d then energy s d e else s)

end Sys2Proof.Machine
end

