-- ==== Sys2Proof/Machine/Plate.lean ====
section
/-! DEFINITION. A plate's life: loading, activation, retirement and permits (02_plates.md R46–R62, 03 R65, R66, 09 R226,
10 R253, 12 R311, R320, 13 R322, R328, R344, 16 R396, 18 R450–R452, 19 R478). -/
namespace Sys2Proof.Machine
open Sys2Proof

/-! ### The loader (R47, R54, R450) -/

/-- The die that WRD_TOKEN names, whose firmware runs loader commands. -/
def holderDie (s : State) : Option Nat :=
  match bits (rd s (wrdReg 0)) 0 2 with
  | 1 => some 0
  | 2 => some 1
  | _ => none

def loaderUp (s : State) : Bool := match holderDie s with | some d => dieUp s d | none => false

/-- Die whose queue takes the loader's events. -/
def loaderDie (s : State) : Nat := (holderDie s).getD 0

def partDies (s : State) (p : Nat) : List Nat := ((part s p).octets.map (· / 16)).dedup

/-- A die that a command of the partition needs is off or in reset (R54). -/
def plateDieDown (s : State) (p : Nat) : Bool :=
  (partDies s p).any (fun d => !dieUp s d) || (match holderDie s with | some d => !dieUp s d | none => false)

def plateEvent (s : State) (p k : Nat) : State := setBits s (pltReg p 0x24) (2 ^ k)

/-- APC_PLT_FAULT takes a new fault (R63). -/
def plateFault (s : State) (p : Nat) (f : PFault) : State :=
  wr s (pltReg p 0x28) (f.code + fld 8 8 f.sect + fld 16 32 f.ent)

/-- A command that is not accepted changes nothing and records its fault (R53, R62). -/
def notAccepted (s : State) (p code : Nat) : State := plateEvent (plateFault s p ⟨code, 0xFF, 0⟩) p 1

/-! ### Descriptors of a slot -/

/-- A table's descriptors come into existence, or go: the ranges that they name count them (R212). -/
def countTable (s : State) (t : Tbl DescE) (up : Bool) : State := t.foldl (fun s e => countDesc s e.2 up) s

/-- The staged slot becomes EMPTY. -/
def dropStaged (s : State) (p : Nat) : State :=
  modPart (countTable s (part s p).stagedDescs false) p (fun x =>
    { x with staged := 0, stagedImg := [], stagedBind := [], stagedDescs := [] })

/-- The active plate's descriptors are destroyed. -/
def dropDescs (s : State) (p : Nat) : State :=
  modPart (countTable s (part s p).descs false) p (fun x => { x with descs := [] })

/-! ### LOAD (R46, R53, R59) -/

/-- The part of a span within region `r` is mapped: which stack holds a byte changes every 16 KiB at the finest, and
seventeen such pieces meet every stack of the region's mode (R246). -/
def regionMapped (s : State) (a n r : Nat) : Bool :=
  let lo := max a (2 ^ 30 * r)
  let hi := min (a + n) (2 ^ 30 * (r + 1))
  (List.range 17).all (fun k => let x := lo / 2 ^ 14 * 2 ^ 14 + 2 ^ 14 * k; decide (hi ≤ max lo x) || (locateUp s (max lo x)).isSome)

/-- The span of bytes is mapped. -/
def spanMapped (s : State) (a n : Nat) : Bool :=
  n == 0 || (decide (a + n ≤ 2 ^ 39) &&
    (List.range ((a + n - 1) / 2 ^ 30 + 1 - a / 2 ^ 30)).all (fun k => regionMapped s a n (a / 2 ^ 30 + k)))

/-- Source and binding table are aligned, the table to its 16-byte entries, and mapped (R59, R64). -/
def sourceOk (s : State) (p : Nat) : Bool :=
  rd s (pltReg p 0) % 64 == 0 && spanMapped s (rd s (pltReg p 0)) (rd s (pltReg p 8)) &&
    rd s (pltReg p 0x10) % 16 == 0 && spanMapped s (rd s (pltReg p 0x10)) (16 * rd s (pltReg p 0x18))

/-- LOAD (R46, R53, R54). DESIGN CHOICE (log entry 13): where several refusals apply, BUSY and STAGED_FULL come first,
then DIE_DOWN, then SOURCE. -/
def loadCmd (s : State) (p : Nat) (replace : Bool) : State :=
  let x := part s p
  if x.staged = 1 ∨ x.staged = 2 then notAccepted s p 0x20
  else if x.staged = 3 ∧ !replace then notAccepted s p 0x21
  else if plateDieDown s p then notAccepted s p 0x24
  else if !sourceOk s p then notAccepted s p 0x25
  else modPart (dropStaged s p) p (fun x => { x with
    staged := 1
    src := rd s (pltReg p 0)
    srcLen := rd s (pltReg p 8)
    bindAddr := rd s (pltReg p 0x10)
    bindCount := rd s (pltReg p 0x18) })

def execLoad (r : Requester) (p : Fin 8) (replace : Bool) (s : State) : Out :=
  .next (gate s r (pltReg p 0x1C) (fun s => loadCmd s p replace))

/-- The staged slot's outcome is REFUSED. -/
def refuseLoad (s : State) (p : Nat) (f : PFault) : State :=
  plateEvent (plateFault (modPart s p (fun x => { x with staged := 4 })) p f) p 1

/-- Bytes of memory as a byte memory from address 0. -/
def copyImage (s : State) (a n : Nat) : Mem :=
  (List.range n).foldl (fun m k => writeByte m k (BitVec.ofNat 8 (memByte s (a + k)))) []

/-- The copy into the staged slot completes: what the source holds now is what is verified (R46). An uncorrectable
read takes the loader's die into die reset, as any uncorrectable load of a control core does (R282). DESIGN CHOICE (log
entry 10): the slots are held beside memory, so that no LOAD changes the plate-store region's bytes, and the binding table
is taken with the image. -/
def loadCopied (s : State) (p : Nat) : State :=
  let x := part s p
  if x.staged ≠ 1 || !loaderUp s || plateDieDown s p then s
  else
    let n := min (2 ^ 28) x.srcLen
    let k := 16 * x.bindCount
    if !(spanMapped s x.src n && spanMapped s x.bindAddr k) then refuseLoad s p ⟨0x25, 0xFF, 0⟩
    else if memBad s x.src n || memBad s x.bindAddr k then
      let s := memNote (memNote s x.src n 3 p) x.bindAddr k 3 p
      { s with dieReq := (loaderDie s :: s.dieReq).dedup }
    else
      let img := copyImage s x.src n
      let bind := copyImage s x.bindAddr k
      let s := memNote (memNote s x.src n 3 p) x.bindAddr k 3 p
      modPart s p (fun x => { x with staged := 2, stagedImg := img, stagedBind := bind })

def execLoadCopyComplete (p : Fin 8) (s : State) : Out := .next (loadCopied s p)

/-- Each skipped section is logged (R35). -/
def logSkipped (s : State) (p : Nat) (m : Mem) : State :=
  ((psecs m).filter (fun x => !secKnown x)).foldl (fun s x => logEv s (loaderDie s) 0x40 p (plateId m) x.typ false) s

/-- The loader's checks end: READY, or REFUSED with the first that fails (R47). DESIGN CHOICE (log entry 8): skipped
sections are logged once the section checks have passed, also for a plate that a later check refuses. -/
def loadVerified (s : State) (p : Nat) : State :=
  let x := part s p
  if x.staged ≠ 2 || !loaderUp s || plateDieDown s p then s
  else
    let f := loadFault s p x.stagedImg x.srcLen x.stagedBind x.bindCount
    let s := if f.all (fun f => decide (7 ≤ f.code)) then logSkipped s p x.stagedImg else s
    match f with
    | some f => refuseLoad s p f
    | none =>
      let t := boundDescs x.stagedImg (bindings x.stagedBind x.bindCount)
      plateEvent (modPart (countTable s t true) p (fun x => { x with staged := 3, stagedDescs := t })) p 0

def execLoadVerifyComplete (p : Fin 8) (s : State) : Out := .next (loadVerified s p)

/-! ### DISCARD, ABORT and unlisted commands (R52, R53, R60) -/

/-- DISCARD (R53). DESIGN CHOICE (log entry 12): it records BUSY in a state that the table does not list. -/
def discardCmd (s : State) (p : Nat) : State :=
  if (part s p).staged = 3 ∨ (part s p).staged = 4 then
    (if plateDieDown s p then notAccepted s p 0x24 else dropStaged s p)
  else notAccepted s p 0x20

def execDiscard (r : Requester) (p : Fin 8) (s : State) : Out := .next (gate s r (pltReg p 0x1C) (fun s => discardCmd s p))

/-- A load in progress ends with fault ABORTED. -/
def abortLoad (s : State) (p : Nat) : State := plateFault (dropStaged s p) p ⟨0x22, 0xFF, 0⟩

def abortCmd (s : State) (p : Nat) : State :=
  match (part s p).staged with
  | 1 => if plateDieDown s p then notAccepted s p 0x24 else abortLoad s p
  | 2 => if plateDieDown s p then notAccepted s p 0x24 else abortLoad s p
  | 0 => notAccepted s p 0x20
  | _ => notAccepted s p 0x23

def execAbort (r : Requester) (p : Fin 8) (s : State) : Out := .next (gate s r (pltReg p 0x1C) (fun s => abortCmd s p))

/-- An OP that R60 does not list; a listed one is its own command. -/
def badCommand (s : State) (p op : Nat) : State := if 1 ≤ op ∧ op ≤ 5 then s else notAccepted s p 0x26

def execBadCommand (r : Requester) (p : Fin 8) (op : BitVec 4) (s : State) : Out :=
  .next (gate s r (pltReg p 0x1C) (fun s => badCommand s p op.toNat))

/-! ### ACTIVATE (R48, R53, R56) -/

/-- The staged plate becomes the active plate, and the staged slot EMPTY. -/
def takeStaged (s : State) (p : Nat) : State :=
  modPart (dropDescs s p) p (fun x => { x with
    image := x.stagedImg
    imageLen := x.srcLen
    descs := x.stagedDescs
    staged := 0
    stagedImg := []
    stagedBind := []
    stagedDescs := [] })

/-- Activation begins: permits and step counts start at 0. -/
def beginActivate (s : State) (p : Nat) : State :=
  modPart s p (fun x => { x with active := 1, permits := 0, released := 0, completed := 0, activateNext := false })

def activateCmd (s : State) (p : Nat) : State :=
  let x := part s p
  if x.active = 1 ∨ x.active = 3 then notAccepted s p 0x20
  else if x.staged ≠ 3 ∧ x.active ≠ 4 then notAccepted s p 0x20
  else if plateDieDown s p then notAccepted s p 0x24
  else if x.active = 2 then modPart s p (fun x => { x with active := 3, activateNext := true })
  else beginActivate (if x.staged = 3 then takeStaged s p else s) p

def execActivate (r : Requester) (p : Fin 8) (s : State) : Out := .next (gate s r (pltReg p 0x1C) (fun s => activateCmd s p))

/-! ### Distribution (R48, R65, R66) -/

/-- The lists of a die's destination entries move together from entry 0 on, in the order of their counters, and the
counters name the new places (R344). -/
def packDests (s : State) (d : Nat) : State :=
  let ids := (s.ctrs.filter (fun e => e.1 / 4096 == d && e.2.st != 0 && decide (0 < e.2.destCount))).map (·.1)
  let other := s.dests.filter (fun e => e.1 / 4096 != d)
  (ids.foldl (fun (a : State × Nat) id =>
    let c := ctr s id
    let z := foldNat c.destCount (fun k z =>
      { z with dests := tset z.dests (4096 * d + a.2 + k) (tget (0, 0) s.dests (4096 * d + c.destFirst + k)) }) a.1
    (setCtr z id { c with destFirst := a.2 }, a.2 + c.destCount)) ({ s with dests := other }, 0)).1

/-- Runs of `n` free destination entries of a die (R344). -/
def freeDests (s : State) (d n : Nat) : List Nat :=
  let used := (s.dests.filter (fun e => e.1 / 4096 == d)).map (fun e => e.1 % 4096)
  (List.range (4097 - n)).filter (fun a => used.all (fun u => decide (u < a) || decide (a + n ≤ u)))

/-- Free consumer entries of a die. -/
def freeCons (s : State) (d : Nat) : List Nat :=
  let used := (s.cons.filter (fun e => e.1 / 32768 == d)).map (fun e => e.1 % 32768)
  (List.range 32768).filter (fun a => !used.contains a)

/-- A consumer entry is placed; the answer is its key (R328). -/
def placeCons (s : State) (p id kind initial : Nat) : State × Nat :=
  let d := id / 4096
  let (s, j) := pickOf s (freeCons s d)
  ({ s with cons := tset s.cons (32768 * d + j) ⟨initial, id % 4096, kind, p⟩ }, 32768 * d + j)

/-- A counter takes every field from its record (R322), its destination list placed on its die. -/
def placeCtr (s : State) (p : Nat) (m : Mem) (r : Nat) : State :=
  let id := recCtr r
  let d := id / 4096
  let n := recDestCount r
  let s := if n ≠ 0 ∧ (freeDests s d n).isEmpty then packDests s d else s
  let (s, a) := if n = 0 then (s, 0) else pickOf s (freeDests s d n)
  let s := foldNat n (fun k s => { s with dests := tset s.dests (4096 * d + a + k) (planDestAt m (recDestFirst r + k), p) }) s
  setCtr s id {
    st := 1
    value := recInitial r
    part := p
    hatch := bits r 16 8
    runtime := bit r 24
    group := if bits r 32 8 < 16 then some (bits r 32 8) else none
    trigger := recTrigger r
    stride := bits r 192 32
    outInc := bits r 224 16
    destFirst := a
    destCount := n }

/-- The sync plan's counters, consumer entries and step-completion counter (R49, R344). -/
def placeSync (s : State) (p : Nat) (m : Mem) : State :=
  let s := (planCtrs m).foldl (fun s r => placeCtr s p m r) (releaseCtrs s p)
  let s := modPart s p (fun x => { x with consMap := [] })
  let s := (planCons m).foldl (fun s c =>
    let (s, j) := placeCons s p (bits c 16 16) 0 (bits c 64 64)
    modPart s p (fun x => { x with consMap := tset x.consMap (bits c 0 16) j })) s
  let id := secNat m 9 12 2
  modPart s p (fun x => { x with
    stepCtr := id
    stepInc := secNat m 9 14 2
    stepTarget := (ctr s id).value + secNat m 9 14 2 })

/-- The partition takes the channels of its masks (R226). -/
def takeChans (s : State) (p : Nat) (m : Mem) : State :=
  [0, 1].foldl (fun s d => (List.range 32).foldl (fun s n =>
    if bit (plateMask m d) n && (chKind s d n == 0 || (chKind s d n == 1 && chPart s d n == p)) then
      wr s (chReg d n 4) (1 + 4 * p)
    else s) s) s

/-- The partition's slots of every stack take the plate's entries at the next frame boundary, IDLE where it has none
(R252, R253). -/
def placeFrames (s : State) (p : Nat) (ent : Nat → Nat → Nat) : State :=
  (List.range 16).foldl (fun s st =>
    let own := (List.range 256).filter (fun n => fixedKind n == 0 && slotOwner s st n == p)
    modStk s st (fun x => { x with next := own.foldl (fun t n =>
      if ent st n = 0 then tdel t n else tset t n (ent st n)) x.next })) s

def plateFrame (m : Mem) (st n : Nat) : Nat :=
  match (List.range (frameRecs m)).find? (fun k => frameStack m k == st) with
  | some k => frameEnt m k n
  | none => 0

/-- Consumer entries of a layer: GRAD, COMMIT, DONE, and for shards ARRIVE, REFUSE and its snapshot (R328). -/
def placeLayer (s : State) (p l : Nat) : State × List Nat :=
  let d := layStack l / 8
  let one := fun (a : State × List Nat) (o kind : Nat) =>
    let id := 4096 * d + layField l o 2 % 4096
    let (s, j) := placeCons a.1 p id kind (ctr a.1 id).value
    (s, a.2 ++ [j])
  let a := one (one (one (s, []) 0x20 1) 0x22 1) 0x28 1
  if 1 < layShards l then one (one (one a 0x24 1) 0x26 1) 0x26 2 else a

/-- The work lists (R297, R311). -/
def placeLists (s : State) (p : Nat) (m : Mem) : State :=
  let s := emptyLists s p
  let layers := plateLayers m
  let s := layers.foldl (fun s l =>
    let (s, es) := placeLayer s p l
    modUpe s (layStack l) p (fun x => { x with
      layers := x.layers ++ [l], rules := plateRules m, entries := x.entries ++ [es] })) s
  ((layers.map layStack).dedup).foldl (fun s st => upeStart s st p) s

/-- Entries of the phase-operating-point section for a hatch, by phase (R396). -/
def hatchPhases (m : Mem) (h : Nat) : List OppEntry :=
  tab (platePhases m) (fun q =>
    match (oppEntries m).find? (fun e => bits e 0 8 == h && bits e 8 8 == q) with
    | some e => ⟨bits e 16 8, bits e 24 8, bits e 32 16⟩
    | none => {})

/-- A pod as ACTIVATE leaves it (R121, R139, R160, R183). -/
def freshPod (m : Mem) (n g : Nat) (p : Pod) : Pod :=
  let table := fun (i t : Nat) => match (pipRecs m).find? (fun r =>
      decide (r.first ≤ g ∧ g < r.first + r.pods) && bit r.pipes i && r.table == t) with
    | some r => ({ st := 2, img := r.img } : Pip)
    | none => {}
  { p with
    hatch := some n
    undef := false
    tiles := []
    masks := []
    burin := { prog := Config.strokes (secBytes m 4) g, version := (match sec m 4 with | some x => x.ver | none => 1) }
    mxa := {}
    pipe0 := { pt0 := table 0 0, pt1 := table 0 1 }
    pipe1 := { pt0 := table 1 0, pt1 := table 1 1 }
    slots := (Config.stipples (secBytes m 5) g).foldl (fun t x => tset t x.1 x.2) []
    slotErrs := []
    copySlots := Config.copySlots (secBytes m 2) g
    xfers := []
    spadPend := []
    tilePend := []
    sends := []
    landing := []
    landSeq := 0
    landDone := []
    acc := []
    tileAcc := [] }

/-- Registers of a pod that ACTIVATE clears: flags, and faults of an earlier run (R133, R169, R187, R241, R345). -/
def clearPodRegs (s : State) (g : Nat) : State :=
  [0x220, 0x408, 0x40C, 0x608, 0x60C, 0x610, 0x808, 0xA00, 0xA08, 0xA10, 0xA18, 0xA30].foldl (fun s o => wr s (podReg g o) 0) s

/-- A die whose generators are in fallback (R400). -/
def dieFallback (s : State) (d : Nat) : Bool := s.gens.any (fun e => e.1 / 16 == d && e.2.pwr.fallback)

/-- The generator of a hatch goes to STARTING. A hatch of a die in fallback takes grant g_min; the grant that another
holds before its first one is open. -/
def startGen (s : State) (p : Nat) (m : Mem) (h : Nat × Nat) : State :=
  let n := 16 * (h.1 / 128) + h.1 % 128 / 8
  let s := (List.range h.2).foldl (fun s k => clearPodRegs (modPod s (h.1 + k) (freshPod m n (h.1 + k))) (h.1 + k)) s
  let fb := dieFallback s (n / 16)
  let ph := hatchPhases m (h.1 / 8)
  let e := nth {} ph 0
  let g := if fb then (grantMin { pwr := { phases := ph } } * 8).floor.toNat else (Config.free 16 s.freeCtr).toNat
  let s := if fb then s else nextFree s
  modGen s n (fun x => {
    st := .starting
    size := h.2
    part := p
    hc := x.hc
    holdCount := x.holdCount
    bubbleCount := x.bubbleCount
    opp := if fb then 0 else e.opp
    pwr := { phases := ph, grant := g, fallback := fb } })

/-- Generators and pods of a partition's earlier plate head and belong to no hatch; planes and tables are EMPTY and faults
cleared in every pod of the partition, whether or not the plate gives it a hatch (R121, R133, R183, R187). -/
def clearHatches (s : State) (p : Nat) : State :=
  let s := (part s p).octets.foldl (fun s o =>
    (List.range 8).foldl (fun s k => clearPodRegs (modPod s (8 * o + k) (fun x =>
      { x with hatch := none, mxa := {}, pipe0 := {}, pipe1 := {} })) (8 * o + k)) s) s
  { s with gens := s.gens.map (fun e =>
      if 0 < e.2.size ∧ e.2.part = p then
        (e.1, { hc := e.2.hc, holdCount := e.2.holdCount, bubbleCount := e.2.bubbleCount, opp := e.2.opp }) else e) }

/-- Bytes that an extend of a register takes: header and key digest, a digest, or partition, PLATE_ID and digest. -/
def measBytes (j : Nat) : Nat := if j = 6 then 41 else if j = 0 ∨ j = 1 ∨ j = 3 then 96 else 32

/-- An extend of a measurement register (R478). What boot code extends M2 with has no stated layout, so M2's new value
is open. -/
def extendMeas (s : State) (j x : Nat) : State :=
  if j = 2 then
    let v := (Config.free 256 s.freeCtr).toNat
    modSec (nextFree s) (fun x => { x with meas := setNth s.sec.meas j v })
  else
    let v := ofLE (shake256 (leBytes 32 (nth 0 s.sec.meas j) ++ leBytes (measBytes j) x))
    modSec s (fun x => { x with meas := setNth s.sec.meas j v })

/-- An extend that arrives during a quote waits until it has finished (R480). -/
def extend (s : State) (j x : Nat) : State :=
  if s.sec.quote.isSome then modSec s (fun y => { y with mext := y.mext ++ [(j, x)] }) else extendMeas s j x

/-- RUNNING is reached once every hatch has its start edge. -/
def checkRunning (s : State) (p : Nat) : State :=
  if (part s p).active = 1 && s.gens.all (fun e => !(decide (0 < e.2.size) && e.2.part == p) || e.2.st == .running) then
    plateEvent (modPart s p (fun x => { x with active := 2 })) p 2
  else s

/-- Distribution of the active slot's plate completes. -/
def distribute (s : State) (p : Nat) : State :=
  let x := part s p
  if x.active ≠ 1 || !loaderUp s || plateDieDown s p ||
      s.gens.any (fun e => decide (0 < e.2.size) && e.2.part == p && e.2.st != .stopped) then s
  else
    let m := x.image
    let s := clearHatches s p
    let s := placeSync s p m
    let s := takeChans s p m
    let s := placeFrames s p (plateFrame m)
    let s := placeLists s p m
    let lane := lanePart s == some p
    let s := modPart s p (fun x => { x with
      seed := mread m 0x38 8
      step := rd s (pltReg p 0x40)
      phases := platePhases m
      query := lane
      classes := if lane then (classRecs m).map classOf else []
      stepHc := if lane then secNat m 11 4 4 else 0
      holdNs := if lane then secNat m 11 8 4 else 0
      frozen := false
      inDoubt := false
      seenFreeze := [] })
    let s := extend s 6 (p + fld 8 64 (plateId m) + fld 72 256 (secNat m 0x10 8 32))
    let s := (plateHatches m).foldl (fun s h => startGen s p m h) s
    if (plateHatches m).isEmpty then checkRunning s p else s

def execActivateDistributionComplete (p : Fin 8) (s : State) : Out := .next (distribute s p)

/-- The start edge: hc 0 (R66, R68). -/
def startEdge (s : State) (n : Nat) : State :=
  let x := gen s n
  if x.st == .starting && !x.faulted && (part s x.part).active == 1 then
    checkRunning (setGen s n { x with st := .running, hc := 0 }) x.part
  else s

def execHatchStartEdge (n : Fin 32) (s : State) : Out := .next (startEdge s n)

/-! ### RETIRE (R49, R53) -/

/-- Outstanding permits are discarded (R49, R51); the answer says how many. -/
def dropPermits (s : State) (p : Nat) : State × Nat :=
  let k := (part s p).permits
  let s := modPart s p (fun x => { x with permits := 0 })
  (if k = 0 then s else plateEvent s p 6, k)

/-- Permits discarded at a retirement are logged too. -/
def retirePermits (s : State) (p : Nat) : State :=
  let (s, k) := dropPermits s p
  if k = 0 then s else logEv s (loaderDie s) 0x41 p k (part s p).step false

/-- The active slot becomes NONE. -/
def emptyActive (s : State) (p : Nat) : State :=
  modPart (dropDescs s p) p (fun x => { x with active := 0, image := [], imageLen := 0, completed := x.released, query := false,
                                               classes := [], activateNext := false, consMap := [] })

/-- Channels that the partition's plate owns. -/
def plateChans (s : State) (p : Nat) : List (Nat × Nat) :=
  ([0, 1].flatMap (fun d => (List.range 32).map (fun n => (d, n)))).filter (fun c => chKind s c.1 c.2 == 1 && chPart s c.1 c.2 == p)

/-- No plate channel has work in hand. -/
def chansDrained (s : State) (p : Nat) : Bool :=
  (plateChans s p).all (fun c => let x := copyChan s c.1 c.2; x.run.isNone && x.queue.isEmpty && x.held.isEmpty)

/-- Hatch clocks of a partition go to STOPPED. -/
def stopHatches (s : State) (p : Nat) : State :=
  { s with gens := s.gens.map (fun e => if 0 < e.2.size ∧ e.2.part = p then (e.1, { e.2 with st := .stopped }) else e) }

/-- Kind of a queue's owner: 0 hatch, 1 copy channel, 2 update engine, 3 service. -/
def ownerKind (o : Nat) : Nat := if o < 32 then 0 else if o < 128 then 1 else if o = 128 then 2 else 3

/-- Requests of a partition still queued are discarded; writes already accepted complete. -/
def discardReqs (s : State) (p : Nat) : State :=
  s.chans.foldl (fun s e =>
    let mine := (e.2.queues.flatMap (fun q => if ownerKind q.1 = 0 then q.2 else [])).filter (fun r => r.holder == p)
    if mine.isEmpty then s
    else
      let w := (mine.filter (·.wr)).length
      let x := { e.2 with
        queues := (e.2.queues.map (fun q => (q.1, if ownerKind q.1 = 0 then q.2.filter (fun r => r.holder != p) else q.2))).filter
          (fun q => !q.2.isEmpty)
        buf := tmod 0 e.2.buf p (· - w) }
      bump { s with chans := tset s.chans e.1 x } (mchReg (e.1 / 256) 0x28) w) s

/-- Retirement proper: hatches stop, counters break with PREEMPTED and go FREE, permits, lists, frames, channels and
descriptors go. -/
def retireNow (s : State) (p : Nat) : State :=
  let s := stopHatches s p
  let s := (ctrsOf s p).foldl (fun s id => breakCtr s id 2) (dropChanges s p)
  let s := releaseCtrs s p
  let s := emptyLists (retirePermits (voidLane s p) p) p
  let s := (plateChans s p).foldl (fun s c => freeChan s c.1 c.2) s
  let s := placeFrames (discardReqs s p) p (fun _ _ => 0)
  let s := { s with gens := s.gens.map (fun e => if e.2.part = p then (e.1, { e.2 with size := 0 }) else e) }
  emptyActive s p

def retireCmd (s : State) (p : Nat) : State :=
  let x := part s p
  if x.active = 0 ∨ x.active = 1 ∨ x.active = 3 then notAccepted s p 0x20
  else if plateDieDown s p then notAccepted s p 0x24
  else if x.active = 4 then plateEvent (retireNow s p) p 3
  else modPart s p (fun x => { x with active := 3 })

def execRetire (r : Requester) (p : Fin 8) (s : State) : Out := .next (gate s r (pltReg p 0x1C) (fun s => retireCmd s p))

/-- The step in progress has completed and the plate's copies have drained: NONE, or the activation that waited for
it (R48, R49). DESIGN CHOICE (log entry 11): where the staged plate of that activation is gone by now, the slot ends at
NONE; START_STEP is taken at the end of the distribution. -/
def retireComplete (s : State) (p : Nat) : State :=
  let x := part s p
  if x.active ≠ 3 || inStep x || !loaderUp s || !chansDrained s p then s
  else
    let s := retireNow s p
    if x.activateNext && x.staged == 3 then beginActivate (takeStaged s p) p
    else plateEvent s p 3

def execRetireComplete (p : Fin 8) (s : State) : Out := .next (retireComplete s p)

/-! ### Permits (R56) -/

def permitMax : Nat := 1048575

/-- A permit write is a release: what the same application core wrote before it and still waits for a service slot
comes before the step (R57). -/
def fencePermit (s : State) (r : Requester) (p : Nat) : State :=
  if r = .app then
    { s with pods := s.pods.map (fun e => if e.2.svc.isEmpty then e else (e.1, { e.2 with svc := e.2.svc.map (fun x =>
        if x.who = 0 ∧ x.write then { x with fence := p :: x.fence } else x) })) }
  else s

def permitWrite (s : State) (r : Requester) (p n : Nat) : State :=
  let x := part s p
  if n = 0 then s
  else if permitMax < n ∨ x.active = 0 ∨ x.active = 3 ∨ x.active = 4 ∨ lanePart s = some p then plateEvent s p 6
  else
    let s := fencePermit s r p
    if permitMax < x.permits + n then plateEvent (setPart s p { x with permits := permitMax }) p 6
    else setPart s p { x with permits := x.permits + n }

def execPermitWrite (r : Requester) (p : Fin 8) (n : BitVec 32) (s : State) : Out :=
  .next (gate s r (pltReg p 0x50) (fun s => permitWrite s r p n.toNat))

end Sys2Proof.Machine
end

