-- ==== Sys2Proof/Machine/Query.lean ====
section
/-! DEFINITION. The Ethernet ports, their rings and the query lane (14_links.md R369–R374, 18_cores_management.md
R445, R446). -/
namespace Sys2Proof.Machine
open Sys2Proof

/-! ### Frames and datagrams -/

/-- A number in network byte order. -/
def beNat (l : List Byte) : Nat := l.foldl (fun a b => 256 * a + b.toNat) 0
def beAt (l : List Byte) (o n : Nat) : Nat := beNat ((l.drop o).take n)

/-- An Ethernet II frame without its FCS, with at most one 802.1Q tag: TCI, EtherType, and its payload. -/
structure EthFrame where
  tci : Option Nat
  etype : Nat
  body : List Byte
  deriving DecidableEq, Repr

def ethParse (f : List Byte) : EthFrame :=
  if beAt f 12 2 = 0x8100 then ⟨some (beAt f 14 2), beAt f 16 2, f.drop 18⟩ else ⟨none, beAt f 12 2, f.drop 14⟩

/-- A UDP datagram that is not IP-fragmented. -/
structure UdpPkt where
  src : List Byte
  sport : Nat
  dport : Nat
  sumOk : Bool
  payload : List Byte
  deriving DecidableEq, Repr

/-- Sum of 16-bit words in network order; an odd last byte is padded with zero. -/
def sum16 : List Byte → Nat
  | [] => 0
  | [a] => 256 * a.toNat
  | a :: b :: t => 256 * a.toNat + b.toNat + sum16 t

/-- The checksum over pseudo-header and datagram agrees; a zero checksum of IPv4 means that none was sent. -/
def udpSumOk (v4 : Bool) (src dst dg : List Byte) : Bool :=
  (v4 && beAt dg 6 2 == 0) || (sum16 src + sum16 dst + 17 + dg.length + sum16 dg) % 65535 == 0

def udpOf (v4 : Bool) (src dst dg : List Byte) : Option UdpPkt :=
  if dg.length < 8 then none
  else
    let n := beAt dg 4 2
    if n < 8 ∨ dg.length < n then none
    else some ⟨src, beAt dg 0 2, beAt dg 2 2, udpSumOk v4 src dst (dg.take n), (dg.take n).drop 8⟩

/-- Past the hop-by-hop, routing and destination headers of IPv6; a fragment header ends the search. -/
def skipExt : Nat → Nat → List Byte → Option (List Byte)
  | 0, _, _ => none
  | k + 1, nh, l =>
    if nh = 17 then some l
    else if nh = 0 ∨ nh = 43 ∨ nh = 60 then skipExt k (beAt l 0 1) (l.drop (8 * (beAt l 1 1 + 1)))
    else none

/-- The datagram in an IPv4 or IPv6 packet. -/
def ipUdp (e : EthFrame) : Option UdpPkt :=
  let b := e.body
  if e.etype = 0x0800 ∧ beAt b 0 1 / 16 = 4 then
    if beAt b 9 1 = 17 ∧ beAt b 6 2 % 2 ^ 14 = 0 then
      udpOf true ((b.drop 12).take 4) ((b.drop 16).take 4) ((b.take (beAt b 2 2)).drop (4 * (beAt b 0 1 % 16)))
    else none
  else if e.etype = 0x86DD ∧ beAt b 0 1 / 16 = 6 then
    (skipExt 16 (beAt b 6 1) ((b.drop 40).take (beAt b 4 2))).bind
      (udpOf false ((b.drop 8).take 16) ((b.drop 24).take 16))
  else none

/-! ### Rings (R445, R446) -/

def ringRead (s : State) (a n : Nat) : Nat := memRead s a n
def ringDesc (s : State) (r i : Nat) : Nat := rd s (ringReg r 0) + 16 * (i % 2 ^ bits (rd s (ringReg r 8)) 0 5)

/-- A frame without its FCS that the port carries: Ethernet II, at most one tag, within the limits of length, and neither
PAUSE nor priority flow control (R369). -/
def frameOk (b : List Byte) : Bool :=
  let e := ethParse b
  decide (14 ≤ b.length ∧ 0x0600 ≤ e.etype ∧ e.body.length ≤ 9216) && e.etype != 0x8100 && e.etype != 0x8808

/-- A ring's source pulses. -/
def pulse (s : State) (src : Nat) : State :=
  if s.edgePend.contains src then s else { s with edgePend := s.edgePend ++ [src] }

/-- A write of a ring's bytes, as application-core traffic. -/
def ringWrite (s : State) (a n v : Nat) : State := svcWrite s a n v 0xFF

/-- A frame is delivered to the next posted descriptor of a receive ring, or dropped. -/
def ringReceive (s : State) (r : Nat) (f : List Byte) (csumBad : Bool) : State :=
  if s.ringStop.contains r then s
  else
    let head := rd s (ringReg r 0xC)
    if head = rd s (ringReg r 0x10) then bump s (ringReg r 0x18) 1
    else
      let d := ringDesc s r head
      let e := ethParse f
      let bytes := if e.tci.isSome then f.take 12 ++ f.drop 16 else f
      let room := ringRead s (d + 8) 2
      let n := min room bytes.length
      let s := ringWrite s (ringRead s d 8) n (ofLE (bytes.take n))
      let st := 1 + 2 * b2n (decide (room < bytes.length)) + 4 * b2n e.tci.isSome + 8 * b2n csumBad
      let s := ringWrite s (d + 0xA) 6 (n + st * 2 ^ 16 + e.tci.getD 0 * 2 ^ 32)
      pulse (wr s (ringReg r 0xC) ((head + 1) % 2 ^ 32)) (85 + r)

/-- Insert a datagram's UDP checksum: the one that makes the sum agree; 0 is sent as 0xFFFF. -/
def putUdpSum (f : List Byte) : List Byte :=
  let e := ethParse f
  let off := if e.tci.isSome then 18 else 14
  let b := e.body
  let v4 := decide (e.etype = 0x0800)
  match ipUdp e with
  | none => f
  | some u =>
    let src := if v4 then (b.drop 12).take 4 else (b.drop 8).take 16
    let dst := if v4 then (b.drop 16).take 4 else (b.drop 24).take 16
    let len := u.payload.length + 8
    let pos := if v4 then off + 4 * (beAt b 0 1 % 16) else off + 40 + beAt b 4 2 - len
    let x := (sum16 src + sum16 dst + 17 + len + sum16 ((f.drop pos).take 6 ++ [0, 0] ++ u.payload)) % 65535
    let c := 65535 - x
    f.take (pos + 6) ++ [BitVec.ofNat 8 (c / 256), BitVec.ofNat 8 c] ++ f.drop (pos + 8)

/-- A transmit ring's oldest posted frame has been sent. A descriptor whose frame the port does not carry completes without
one: R369 keeps such a frame from the wire, and what becomes of its descriptor is the model's choice. -/
def ringTransmit (s : State) (j : Nat) : State :=
  let r := 2 * j + 1
  let head := rd s (ringReg r 0xC)
  if s.ringStop.contains r || head == rd s (ringReg r 0x10) || portSt s (14 + j) != 5 || !dieUp s 1 then s
  else
    let d := ringDesc s r head
    let b := leBytes (ringRead s (d + 8) 2) (ringRead s (ringRead s d 8) (ringRead s (d + 8) 2))
    let f := putUdpSum b
    let f := f ++ List.replicate (60 - f.length) 0
    let s := if frameOk b then emit s (.frame (14 + j) (f ++ leBytes 4 (crc32 f))) else s
    let s := ringWrite s (d + 0xC) 2 1
    pulse (wr s (ringReg r 0xC) ((head + 1) % 2 ^ 32)) (85 + r)

def execEthernetTransmitComplete (ring : Fin 2) (s : State) : Out := .next (ringTransmit s ring)

def execApcRingTailWrite (r : Requester) (ring : Fin 4) (v : BitVec 32) (s : State) : Out :=
  .next (gate s r (ringReg ring 0x10) (fun s => wr s (ringReg ring 0x10) v.toNat))

/-- An Ethernet port has negotiated: its rings run again at HEAD. -/
def execEthernetPortRetrained (k : Fin 2) (s : State) : Out :=
  .next (if ethMode s (14 + k) && dieUp s 1 then
      setPortState { s with ringStop := s.ringStop.filter (fun r => r / 2 != k.val) } (14 + k) 5 0xF 0 0
    else s)

/-! ### Reassembly and admission (R372, R373) -/

/-- Requests of a class that a step holds. -/
def classCount (x : QStep) (cls : Nat) : Nat := (x.reqs.filter (fun r => r.cls == cls)).length

/-- The ratio that an admission counts on: the one in force, or the floor that each stack above would give 2 °C on. -/
def laneRatio (s : State) : Nat :=
  ((laneHatches s).map (fun n =>
    ((hatchPods s n).map (fun g =>
      let o := slotOf s g
      if o < 128 then
        let x := stk s (8 * (n / 16) + o / 16)
        stackFloor { x with temp := x.temp + 8, level := stackLevel x.level (x.temp + 8) }
      else 0)).foldl max (gen s n).ratio)).foldl max 0

/-- t_step in µs. -/
def laneStep (s : State) (p b : Nat) : Rat :=
  let f := ((laneHatches s).map (fun n => oppFreq (gen s n).opp)).foldl min 210
  ((part s p).stepHc : Rat) * 64 / (64 - b : Nat) / (10 * f : Nat) + ((part s p).holdNs : Rat) / 1000 + 2

/-- Byte address of a slot of a class, from its descriptor's span (R371). -/
def slotAddr (s : State) (p desc k bytes : Nat) : Nat :=
  match tensorAt s p desc with
  | some d => (tdSpan d).1.toNat + k * bytes
  | none => 0

/-- Every released step has completed. -/
def laneIdle (s : State) (p : Nat) : Bool := !inStep (part s p) && (part s p).permits == 0

/-- end() of a step, in µs: its completion, and before that its predicted end. -/
def stepEnd (s : State) (p : Nat) (x : QStep) : Rat :=
  match x.done with
  | some c => (20 * c : Nat) / 1000
  | none => if x.released && laneIdle s p then (20 * (part s p).doneAt : Nat) / 1000 else x.fin

/-- The step that a request may join: the first unreleased one with a free slot of its class, else the one after the
last; and the end of the step before it. -/
def pickStep (fin : QStep → Rat) (cls batch : Nat) : List QStep → Nat → Option Rat → Nat × Option Rat
  | [], i, prev => (i, prev)
  | x :: t, i, prev =>
    if !x.released && decide (classCount x cls < batch) then (i, prev)
    else pickStep fin cls batch t (i + 1) (some (fin x))

/-- A complete request (R373): admitted to a slot, with its input written there, or answered BUSY. -/
def admitReq (s : State) (p : Nat) (c : QClass) (q : QPeer) (id : Nat) (bytes : List Byte) : State :=
  let a : Rat := (20 * s.now : Nat) / 1000
  let b := laneRatio s
  let land : Rat := 1 + (c.inBytes : Rat) / 16000
  let (i, prev) := pickStep (stepEnd s p) c.id c.batch s.lane.steps 0 none
  let start := max (a + land) (prev.getD 0)
  let fin := start + laneStep s p b
  if fin + 5 - a ≤ c.promise then
    let x := nth ⟨fin, false, [], none⟩ s.lane.steps i
    let slot := classCount x c.id
    let x := { x with fin := max x.fin fin, reqs := x.reqs ++ [⟨q, id, c.id, slot, 20 * s.now⟩] }
    let steps := if i < s.lane.steps.length then s.lane.steps.set i x else s.lane.steps ++ [x]
    let s := { s with lane := { s.lane with steps := steps, est := max s.lane.est b } }
    let at' := slotAddr s p c.inDesc slot c.inBytes
    bump (svcWrite s at' c.inBytes (ofLE bytes) p) (rylReg 1 0x40) 1
  else sendBusy s q c.id id

/-- A reassembled request: BUSY while the lane cannot serve, then its class and size, then admission. -/
def complete (s : State) (p : Nat) (x : QAsm) : State :=
  let y := part s p
  let bytes := (List.range x.frags).flatMap (fun i => (tget [] x.got i))
  if y.active != 2 || y.frozen || s.pws.drain then sendBusy s x.peer x.cls x.reqId
  else match y.classes.find? (fun c => c.id == x.cls) with
    | none => sendError s x.peer x.cls x.reqId 1
    | some c =>
      if bytes.length != c.inBytes then sendError s x.peer x.cls x.reqId 2
      else admitReq s p c x.peer x.reqId bytes

/-- A Jenost datagram of the lane. -/
def jenost (s : State) (port p : Nat) (u : UdpPkt) : State :=
  let q : QPeer := ⟨port, u.src, u.sport⟩
  let h := u.payload
  let v := fun o n => ofLE ((h.drop o).take n)
  let cls := v 4 2
  let id := v 8 8
  let frag := v 6 1
  let frags := v 7 1 + 1
  let same := fun (r : QPeer) => r.ip == q.ip && r.udp == q.udp
  let bad := decide (h.length < 32) || v 0 2 != 0x514A || v 2 1 != 1 || v 3 1 != 1 || decide (16 < frags) ||
    decide (frags ≤ frag) || v 0x10 4 != h.length - 32 || (decide (frag + 1 < frags) && v 0x10 4 != 8192) ||
    v 0x14 2 != 0 || v 0x16 2 != 0 || v 0x18 8 != 0
  if bad then sendError s q cls id 6
  else if s.lane.steps.any (fun x => x.reqs.any (fun r => same r.peer && r.reqId == id)) then sendError s q cls id 4
  else match s.lane.asm.find? (fun x => same x.peer && x.reqId == id) with
    | some x =>
      if x.cls != cls || x.frags != frags then sendError s q cls id 6
      else if x.got.any (fun e => e.1 == frag) then sendError s q cls id 4
      else
        let x' := { x with peer := q, got := tset x.got frag (h.drop 32) }
        if x'.got.length = frags then
          complete { s with lane := { s.lane with asm := s.lane.asm.erase x } } p x'
        else { s with lane := { s.lane with asm := s.lane.asm.map (fun y => if y == x then x' else y) } }
    | none =>
      let x : QAsm := ⟨q, id, cls, frags, [(frag, h.drop 32)]⟩
      if frags = 1 then complete s p x
      else if 64 ≤ s.lane.asm.length then sendBusy s q cls id
      else { s with lane := { s.lane with asm := s.lane.asm ++ [x] } }

/-- The lane's datagram in a frame (R370). -/
def laneUdp (s : State) (f : List Byte) : Option (Nat × UdpPkt) :=
  match lanePart s, ipUdp (ethParse f) with
  | some p, some u => if u.dport = bits (rd s (rylReg 1 0x2C)) 16 16 then some (p, u) else none
  | _, _ => none

/-- A frame that an Ethernet port accepts, without its FCS: its FCS is good, and the port carries such frames (R369). -/
def acceptFrame (s : State) (k : Nat) (f : List Byte) : State × Option (List Byte) :=
  let n := f.length - 4
  let b := f.take n
  if portSt s (14 + k) != 5 || !dieUp s 1 then (s, none)
  else if f.length < 18 || ofLE (f.drop n) != crc32 b then ({ s with fcsBad := tmod 0 s.fcsBad (14 + k) (· + 1) }, none)
  else (s, if frameOk b then some b else none)

/-- A frame arrives: to the lane, or to the port's receive ring. A lane datagram with a bad checksum is dropped. -/
def frameIn (s : State) (k : Nat) (f : List Byte) : State :=
  match acceptFrame s k f with
  | (s, none) => s
  | (s, some b) => match laneUdp s b with
    | some (p, u) => if u.sumOk then jenost s (14 + k) p u else s
    | none => ringReceive s (2 * k) b (match ipUdp (ethParse b) with | some u => !u.sumOk | none => false)

def execEthernetFrameReceived (k : Fin 2) (frame : List (BitVec 8)) (s : State) : Out := .next (frameIn s k frame)

/-- A REQUEST fragment for the lane; what is none changes nothing here. -/
def execJenostRequest (k : Fin 2) (frame : List (BitVec 8)) (s : State) : Out :=
  .next (match acceptFrame s k frame with
    | (s, none) => s
    | (s, some b) => match laneUdp s b with
      | some (p, u) => if u.sumOk then jenost s (14 + k) p u else s
      | none => s)

/-- Fragments missing 100 µs after the first: ERROR INCOMPLETE. -/
def execJenostReassemblyTimeout (i : Nat) (s : State) : Out :=
  .next (match s.lane.asm[i]? with
    | some x => sendError { s with lane := { s.lane with asm := s.lane.asm.eraseIdx i } } x.peer x.cls x.reqId 3
    | none => s)

/-! ### Steps of the lane (R373, R374, R407) -/

/-- The next admitted step is released as one permit. -/
def stepRelease (s : State) (p : Nat) : State :=
  match s.lane.steps.findIdx? (fun x => !x.released) with
  | none => s
  | some i =>
    if laneIdle s p && (part s p).active == 2 then
      let steps := s.lane.steps.mapIdx (fun j x =>
        if j = i then { x with released := true }
        else if j < i ∧ x.done.isNone then { x with done := some (part s p).doneAt } else x)
      modPart { s with lane := { s.lane with steps := steps } } p (fun y => { y with permits := y.permits + 1 })
    else s

def execQueryStepRelease (s : State) : Out :=
  .next (match lanePart s with | some p => stepRelease s p | none => s)

/-- RESULT frames of one request; output that cannot be read is answered ERROR ABORTED. -/
def sendResult (s : State) (p done : Nat) (r : QReq) : State :=
  match (part s p).classes.find? (fun c => c.id == r.cls) with
  | none => s
  | some c =>
    let a := slotAddr s p c.outDesc r.slot c.outBytes
    let s := memNote s a c.outBytes 4 p
    if memBad s a c.outBytes then sendError s r.peer r.cls r.reqId 5
    else
      let bytes := leBytes c.outBytes (memRead s a c.outBytes)
      let n := ceilDiv' c.outBytes 8192
      (List.range n).foldl (fun s i =>
        let b := (bytes.drop (8192 * i)).take 8192
        reply s r.peer (jenostHeader 0x81 r.cls i n r.reqId b.length 0 (20 * done - r.time) ++ b)) s

/-- The results of the lane's oldest released step that has completed; with no admitted request left, a drain's change
takes effect (R407). -/
def queryResult (s : State) (p : Nat) : State :=
  match s.lane.steps with
  | [] => s
  | x :: t =>
    if !x.released || (x.done.isNone && !laneIdle s p) then s
    else
      let s := x.reqs.foldl (fun s r => sendResult s p (x.done.getD (part s p).doneAt) r)
        { s with lane := { s.lane with steps := t } }
      if laneBusy s then s
      else
        let s := { s with lane := { s.lane with est := 0 } }
        if s.pws.drain then setLane (setCap s (capWanted s)) else s

def execQueryResult (s : State) : Out :=
  .next (match lanePart s with | some p => queryResult s p | none => s)

end Sys2Proof.Machine
end

