-- ==== Sys2Proof/Machine/RegRead.lean ====
section
/-! DEFINITION. The register maps: which registers there are, their widths and latching halves, and the value that a
read of each returns (00_scope.md R6–R10, the maps of R59, R85, R131, R167, R185, R238, R270, R294, R318, R346, R375,
R414, R436, R460, R461, R482, R502, R504 and the field tables beside them). -/
namespace Sys2Proof.Machine
open Sys2Proof

/-! ### Widths -/

/-- Width of the register that begins at an offset: 32 bits where one of `a` holds it, 64 where one of `b` does. Lists
hold first offset, last offset and step. -/
def widthIn (o : Nat) (a b : List (Nat × Nat × Nat)) : Nat :=
  let hit := fun (l : List (Nat × Nat × Nat)) => l.any (fun e => decide (e.1 ≤ o ∧ o ≤ e.2.1) && (o - e.1) % e.2.2 == 0)
  if hit a then 32 else if hit b then 64 else 0

def podW (o : Nat) : Nat := widthIn o
  [(0x200, 0x204, 4), (0x220, 0x220, 4), (0x400, 0x40C, 4), (0x600, 0x60C, 4), (0x800, 0x800, 4), (0xA00, 0xA18, 8),
   (0xA1C, 0xA1C, 4), (0xA30, 0xA30, 4)]
  [(0x208, 0x218, 8), (0x410, 0x420, 8), (0x610, 0x630, 8), (0x808, 0x820, 8), (0xA20, 0xA28, 8)]

def cpyW (q : Nat) : Nat :=
  if 0x1000 ≤ q ∧ q < 0x3000 then
    widthIn (q % 0x100) [(0, 4, 4), (0x10, 0x14, 4), (0x20, 0x2C, 4)] [(8, 8, 8), (0x18, 0x18, 8), (0x30, 0x38, 8)]
  else widthIn q [(0, 0, 4), (0x18, 0x1C, 4), (0x30, 0x38, 4)] [(8, 0x10, 8), (0x20, 0x28, 8)]

/-- `q` counts from the stack's block. Only stack 0 of a die has the region table. -/
def mchW (k q : Nat) : Nat :=
  if k = 0 ∧ 0x8000 ≤ q ∧ q < 0xC000 then (if q % 8 = 0 then 64 else 0)
  else widthIn q [(0, 0x14, 4), (0x100, 0x17C, 4), (0x1000, 0x11FC, 4), (0x2000, 0x2010, 4), (0x2050, 0x2050, 4)]
    [(0x20, 0x48, 8), (0x2018, 0x2048, 8), (0x2100, 0x2138, 8), (0x2200, 0x2238, 8), (0x4000, 0x7FF8, 8)]

def upeW (q : Nat) : Nat := widthIn q [(0, 8, 4), (0x100, 0x11C, 4)] [(0x10, 0x30, 8)]

def synW (q : Nat) : Nat := widthIn q
  [(0, 0xC, 4), (0x20, 0x64, 4), (0x30000, 0x33FFC, 4)]
  [(0x10, 0x18, 8), (0x80, 0x98, 8), (0x10000, 0x2FFF8, 8), (0x40000, 0x7FFF8, 8)]

def rylW (q : Nat) : Nat :=
  if 0x100 ≤ q ∧ q < 0x300 then widthIn (q % 0x40) [(0, 8, 4)] [(0x10, 0x30, 8)]
  else widthIn q [(0, 0x2C, 4), (0x10000, 0x21FFC, 4)] [(0x40, 0x50, 8)]

def pwsW (q : Nat) : Nat := widthIn q [(0, 0x14, 4), (0x20, 0x20, 4)]
  [(0x18, 0x18, 8), (0x40, 0xB8, 8), (0x100, 0x148, 8), (0x200, 0x2F8, 8)]

def rstW (q : Nat) : Nat := widthIn q [(0, 0x14, 4), (0x60, 0x9C, 4)] [(0x18, 0x58, 8), (0xC0, 0xD0, 8)]

def cntW (q : Nat) : Nat := widthIn q [(0, 4, 4), (0x100, 0x13C, 4)] [(0x200, 0x278, 8), (0x300, 0x378, 8), (0x10000, 0x13FF8, 8)]

def wrdW (q : Nat) : Nat := widthIn q [(0x10, 0x2C, 4), (0x40, 0x40, 4), (0x400, 0x40C, 4)] [(0, 8, 8), (0x30, 0x30, 8)]

def bbxW (q : Nat) : Nat := widthIn q [(0, 0xC, 4)] [(0x10, 0x10, 8), (0x80000, 0xBFFF8, 8)]

def secW (q : Nat) : Nat := widthIn q
  [(0, 0, 4), (0x10, 0x14, 4), (0x20, 0x30, 4), (0x800, 0x808, 4)]
  [(8, 8, 8), (0x18, 0x18, 8), (0x40, 0x98, 8), (0x100, 0x3F8, 8), (0x1000, 0x2FF8, 8)]

def apcW (q : Nat) : Nat :=
  if 0x10100 ≤ q ∧ q < 0x10900 then
    widthIn (q % 0x100) [(0x18, 0x24, 4), (0x50, 0x58, 4)] [(0, 0x10, 8), (0x28, 0x48, 8)]
  else if 0x20000 ≤ q ∧ q < 0x20100 then widthIn (q % 0x40) [(8, 0x10, 4)] [(0, 0, 8), (0x18, 0x18, 8)]
  else widthIn q [(0, 0xC, 4)] [(0x10000, 0x10008, 8)]

/-- Block of a register address within its die or module block: block number and offset. -/
def blockOf (a : Nat) : Nat × Nat := (a / 0x100000 % 16, a % 0x100000)

/-- Width of the register that begins at an address; 0 where none does. -/
def regWidth (a : Nat) : Nat :=
  let (b, q) := blockOf a
  if isPodReg a then podW (a % 0x10000)
  else if isDieReg a then
    match b with
    | 0 => cpyW q
    | 1 => if q < 0x80000 then mchW (q / 0x10000) (q % 0x10000) else 0
    | 2 => if q < 0x80000 then upeW (q % 0x10000) else 0
    | 3 => synW q
    | 4 => rylW q
    | 5 => pwsW q
    | 6 => rstW q
    | 7 => cntW q
    | _ => 0
  else if isModReg a then
    match b with
    | 0 => wrdW q
    | 1 => bbxW q
    | 2 => secW q
    | _ => apcW q
  else 0

/-- A 64-bit register whose lower half latches (R10). -/
def latching (a : Nat) : Bool :=
  let (b, q) := blockOf a
  let inR := fun (lo hi : Nat) => decide (lo ≤ q ∧ q ≤ hi)
  if isPodReg a then a % 0x10000 != 0x610 && a % 0x10000 != 0x808
  else if isDieReg a then
    match b with
    | 0 => decide (0x1000 ≤ q ∧ q % 0x100 = 0x30)
    | 1 => decide (q % 0x10000 < 0x50) || decide (0x2020 ≤ q % 0x10000 ∧ q % 0x10000 ≤ 0x2038)
    | 2 => true
    | 3 => inR 0x18 0x98 || (inR 0x10000 0x1FFFF && q % 16 == 0)
    | 4 => true
    | 5 => inR 0x100 0x300
    | 6 => inR 0xC0 0xD0
    | 7 => inR 0x300 0x14000
    | _ => false
  else if isModReg a then
    a == wrdReg 0x30 || a == bbxReg 0x10 ||
      (b == 3 && ((inR 0x10100 0x108FF && q % 0x100 == 0x48) || (inR 0x20000 0x200FF && q % 0x40 == 0x18)))
  else false

/-! ### Values -/

/-- The generator whose state a pod's registers show: its hatch's, or its own octet's. -/
def podGen (s : State) (g : Nat) : Nat := (pod s g).hatch.getD (16 * (g / 128) + g % 128 / 8)

def genCode (x : GenSt) : Nat :=
  match x with | .stopped => 0 | .starting => 1 | .running => 2 | .held => 3 | .sleeping => 4

/-- POD_HATCH_STATUS (R86). -/
def hatchStatus (s : State) (g : Nat) : Nat :=
  let n := podGen s g
  let x := gen s n
  genCode x.st + fld 4 4 x.opp + fld 8 2 (if x.st = .held then x.holdCause else 0) + fld 16 8 (n % 16)

/-- The array is busy in the present hc (R127). -/
def mxaBusy (s : State) (g : Nat) : Bool :=
  let h := (gen s (podGen s g)).hc
  mxaBusyIn (pod s g) h h != 0

def pipeBusy (s : State) (g i : Nat) : Bool :=
  let h := (gen s (podGen s g)).hc
  vecBusyIn (pipe (pod s g) i) h h != 0

/-- Table and plane states as they stand in the present hc. -/
def pipSt (h : Nat) (t : Pip) : Nat := if t.st = 1 ∧ t.ready ≤ h then 2 else t.st
def planeSt (h : Nat) (x : Plane) : Nat := if x.st = 1 ∧ x.usable ≤ h then 2 else x.st

/-- Stored or computed value of a pod register (R86, R132, R168, R186). -/
def podValue (s : State) (g o : Nat) : Nat :=
  let p := pod s g
  let x := gen s (podGen s g)
  let pl := fun (i : Nat) => plane p.mxa i
  let stip := fun (i : Nat) => (pipe p i).stip
  match o with
  | 0x200 => hatchStatus s g
  | 0x208 => x.hc
  | 0x210 => x.holdCount
  | 0x218 => x.bubbleCount
  | 0x400 => p.mxa.active + fld 1 1 (b2n (mxaBusy s g)) + fld 2 2 (planeSt x.hc (pl 0)) + fld 4 2 (planeSt x.hc (pl 1)) + fld 8 4 (pl 0).typ +
      fld 12 4 (pl 1).typ + fld 16 8 (pl 0).rows + fld 24 8 (pl 1).rows
  | 0x600 => b2n (pipeBusy s g 0) + fld 1 1 (b2n (pipeBusy s g 1)) + fld 2 1 (b2n (stip 0).isSome) +
      fld 3 1 (b2n (stip 1).isSome) + fld 4 4 (((stip 0).map (·.slot)).getD 0) + fld 8 4 (((stip 1).map (·.slot)).getD 0)
  | 0x800 => p.pipe0.act + fld 2 2 (pipSt x.hc p.pipe0.pt0) + fld 4 2 (pipSt x.hc p.pipe0.pt1) + fld 8 1 p.pipe1.act +
      fld 10 2 (pipSt x.hc p.pipe1.pt0) + fld 12 2 (pipSt x.hc p.pipe1.pt1)
  | _ => rd s (podReg g o)

/-- CPY registers (R238, R239). -/
def cpyValue (s : State) (d q : Nat) : Nat :=
  if q = 0x1C then rd s (cpyReg d q) + fld 8 1 (b2n (tfind s.rangeCmds d).isSome)
  else if q = 0x34 then rd s (cpyReg d q) + fld 8 1 (b2n (tfind s.descCmds d).isSome)
  else if 0x1000 ≤ q ∧ q % 0x100 = 0 then
    let x := copyChan s d ((q - 0x1000) / 0x100)
    x.st + fld 2 7 (chDepth x) + fld 16 8 x.result
  else rd s (cpyReg d q)

/-- MCH_STATUS (R271). -/
def mchStatus (s : State) (st : Nat) : Nat :=
  let x := stk s st
  let l := x.level
  l + fld 4 2 (if l = 0 then 0 else if l ≤ 2 then 1 else 2) + fld 6 1 (b2n (keepOnly s st)) + fld 7 1 (b2n (keepOnly s st)) +
    fld 8 6 (stackFloor x)

/-- The entry in force of a slot, fixed slots included (R250, R251). DEDUCED: like every entry, a fixed slot's takes force
at a frame boundary (R253), so it reads 0 from a reset until the first. -/
def slotEntry (s : State) (st n : Nat) : Nat :=
  if fixedKind n = 0 then frameEntry s st n else if (stk s st).frames = 0 then 0 else fixedKind n

def mchValue (s : State) (st q : Nat) : Nat :=
  if q = 0 then mchStatus s st
  else if 0x1000 ≤ q ∧ q < 0x1200 then
    let n := (q - 0x1000) / 2
    slotEntry s st n + fld 16 16 (slotEntry s st (n + 1))
  else if 0x8000 ≤ q then rd s (mchReg 0 q) &&& regionMask (q / 8 % 4)
  else rd s (mchReg st q)

/-- UPE registers (R319); the oldest record of UPE_REFUSAL, or 0. -/
def upeValue (s : State) (st q : Nat) : Nat :=
  if q = 0 then
    ((List.range 8).map (fun p => if (upe s st p).layers.isEmpty then 0 else 2 ^ p)).sum + fld 8 1 (b2n (enginePaused s st))
  else if q = 0x10 then (tget [] s.upeQ st).headD 0
  else if 0x100 ≤ q then
    let x := upe s st ((q - 0x100) / 4)
    x.cur % 4096 + fld 12 3 x.phase
  else rd s (upeReg st q)

/-- Stacks in which a partition owns a slot (R271, R340). -/
def ownsSlots (s : State) (p st : Nat) : Bool := (List.range 256).any (fun n => slotOwner s st n == p)

/-- This module originates LATE for a partition (R340). -/
def lateLocal (s : State) (p : Nat) : Bool :=
  (List.range 16).any (fun st => (keepOnly s st && ownsSlots s p st) || (keepPause s st p && !(upe s st p).layers.isEmpty))

/-- One bit for each partition. -/
def partBits (f : Nat → Bool) : Nat := ((List.range 8).map (fun p => if f p then 2 ^ p else 0)).sum

/-- SYN_CTR_STATEn (R347). -/
def ctrState (c : Ctr) : Nat :=
  if c.st = 0 then 0
  else c.st + fld 2 3 c.cause + fld 5 3 c.part + fld 8 6 c.hatch + fld 14 1 (b2n c.runtime) + fld 15 1 (b2n c.group.isSome) +
    fld 16 4 (c.group.getD 0)

def synValue (s : State) (d q : Nat) : Nat :=
  let c := fun (o : Nat) => ctr s (4096 * d + (q - o) / 16)
  if q = 0x64 then partBits (lateLocal s) + 256 * partBits (fun p => (part s p).lateIn)
  else if 0x10000 ≤ q ∧ q < 0x20000 then (if q % 16 = 0 then (c 0x10000).value else ctrState (c 0x10000))
  else if 0x20000 ≤ q ∧ q < 0x30000 then
    let x := c 0x20000
    if q % 16 = 0 then x.trigger % 2 ^ 48 else fld 0 32 x.stride + fld 32 12 x.destFirst + fld 44 6 x.destCount + fld 50 14 x.outInc
  else if 0x30000 ≤ q ∧ q < 0x34000 then (tget (0, 0) s.dests (4096 * d + (q - 0x30000) / 4)).1
  else if 0x40000 ≤ q then
    match tfind s.cons (32768 * d + (q - 0x40000) / 8) with
    | some e => fld 0 48 e.count + fld 48 12 e.ctr + fld 60 2 e.kind + fld 63 1 1
    | none => 0
  else rd s (synReg d q)

def rylValue (s : State) (d q : Nat) : Nat :=
  if q = 0x18 then rd s (rylReg d q) + partBits (fun p => (part s p).frozen) + 256 * partBits (fun p => (part s p).inDoubt)
  else rd s (rylReg d q)

/-- The hottest reading of a die. -/
def dieHottest (s : State) (d : Nat) : Nat := ((s.pws.temps.filter (fun e => e.1 / 17 == d)).map (·.2)).foldl max 0

def pwsStatus (s : State) (d : Nat) : Nat :=
  let trip := rd s (wrdReg 0x400)
  let level := if bit trip 0 && bits trip 1 2 != 0 && bits trip 8 1 == d then 2
    else if s.pws.hot.any (fun k => k / 17 == d) then 1 else 0
  d + fld 1 1 (b2n (dieFallback s d)) + fld 2 1 (b2n s.pws.ok) + fld 3 1 (b2n s.pws.drain) +
    fld 4 1 (b2n (rd s (pwsReg d 0x20) != 0)) + fld 5 2 level + fld 8 12 (dieHottest s d)

def pwsHatch (s : State) (n : Nat) : Nat :=
  let x := gen s n
  fld 0 16 x.pwr.grant + fld 16 6 x.ratio + fld 22 6 (if x.size = 0 then 0 else floorOf s n) + fld 28 4 x.opp +
    fld 32 4 (phaseEntry x).opp + fld 36 1 (b2n (decide (0 < x.size) && pinned s n)) + fld 37 1 (b2n (hatchLive x))

/-- PWS registers (R413–R415); die 1's caps mirror die 0's. -/
def pwsValue (s : State) (d q : Nat) : Nat :=
  if q = 0 then pwsStatus s d
  else if q = 4 ∨ q = 8 ∨ q = 0xC then rd s (pwsReg 0 q)
  else if q = 0x18 then rd s (pwsReg d q) % 2 ^ 48 + fld 48 16 (16384 * s.pws.gain).floor.toNat
  else if 0x40 ≤ q ∧ q < 0xC0 then pwsHatch s (16 * d + (q - 0x40) / 8)
  else if (0x100 ≤ q ∧ q ≤ 0x140) ∨ 0x200 ≤ q then min (2 ^ 64 - 1) (tget 0 s.pws.energy (pwsReg d q) / 1000000)
  else rd s (pwsReg d q)

/-- RST registers (R437). A partition reset is one command, so PART_BUSY reads 0 between commands. -/
def rstValue (s : State) (d q : Nat) : Nat :=
  if q = 0 then fld 8 1 (b2n (s.dieReq.contains d)) +
    65536 * partBits (fun p => tget 0 s.crash (8 * d + p) != 0)
  else rd s (rstReg d q)

def cntValue (s : State) (d q : Nat) : Nat :=
  if q = 0 then bits (rd s (cntReg d 0)) 0 1 + fld 1 1 (b2n ((List.range 16).any (fun n => bit (rd s (cntReg d (0x200 + 8 * n))) 33)))
  else if 0x10000 ≤ q then
    let o := q - 0x10000
    min (2 ^ 64 - 1) (tget 0 s.cntOps (((d * 8 + o / 0x800) * 16 + o / 0x80 % 16) * 16 + o / 8 % 16) / 65536)
  else rd s (cntReg d q)

/-- A domain's state in WRD_DIE_POWER (R462). -/
def domOf (s : State) (k : Nat) : Domain := match k with | 0 => s.sup.die0 | 1 => s.sup.die1 | _ => s.sup.mod

def wrdValue (s : State) (q : Nat) : Nat :=
  if q = 0x2C then bits (rd s (wrdReg q)) 0 3 + fld 4 2 (domOf s 0).st + fld 6 2 (domOf s 1).st + fld 8 2 (domOf s 2).st
  else rd s (wrdReg q)

def bbxValue (s : State) (q : Nat) : Nat :=
  if q = 0 then b2n s.bbx.frozen + fld 1 1 (b2n s.bbx.pend) + fld 2 1 (rd s (bbxReg 0x70000))
  else if q = 8 then s.bbx.seq
  else if q = 0xC then s.bbx.freezeSeq
  else if 0x80000 ≤ q then
    bits (tget 0#256 s.bbx.entries ((q - 0x80000) / 32)).toNat (64 * (q / 8 % 4)) 64
  else rd s (bbxReg q)

/-- Key digest and state of a slot (R465, R483): 0 empty, 1 enrolled, 2 revoked. -/
def keySlot (s : State) (k : Nat) : Nat × Nat :=
  let f := s.sec.fuses
  let of' := fun (x : Nat) (rev : Bool) => (x, if x = 0 then 0 else if rev then 2 else 1)
  match k with
  | 0 => of' f.root0 f.revoke0
  | 1 => of' f.root1 false
  | 2 => of' f.owner false
  | _ => match s.sec.keys[k - 3]? with
    | some (x, rev) => (x, if rev then 2 else 1)
    | none => (0, 0)

def keyState (s : State) : Nat := ((List.range 16).map (fun k => (keySlot s k).2 * 4 ^ k)).sum

/-- SEC_LOCK (R483). -/
def secLock (s : State) : Nat := b2n s.modLock + fld 1 1 (b2n (s.locked.contains 0)) + fld 2 1 (b2n (s.locked.contains 1))

def rollbackWord (s : State) : Nat := ((List.range 5).map (fun c => nth 0 s.sec.fuses.rollback c * 256 ^ c)).sum

/-- SEC registers (R483); command and staging registers are write only. -/
def secValue (s : State) (q : Nat) : Nat :=
  if q = 0 then secLock s
  else if q = 8 then rollbackWord s
  else if q = 0x14 then keyState s
  else if q = 0x18 then s.sec.fuses.serial
  else if q = 0x20 then s.sec.idRes
  else if q = 0x28 then rd s (secReg q) + b2n s.sec.quote.isSome
  else if q = 0x808 then rd s (secReg q) + b2n s.sec.flashOp.isSome
  else if 0x80 ≤ q ∧ q < 0xA0 then 0
  else if 0x100 ≤ q ∧ q < 0x200 then bits (nth 0 s.sec.meas ((q - 0x100) / 32)) (64 * (q / 8 % 4)) 64
  else if 0x200 ≤ q ∧ q < 0x400 then bits (keySlot s ((q - 0x200) / 32)).1 (64 * (q / 8 % 4)) 64
  else rd s (secReg q)

/-- DIE0 and DIE1 of APC_DIE_STATE (R462): 0 off, 1 in reset, 2 up. -/
def dieState (s : State) (d : Nat) : Nat := if (domOf s d).st ≠ 2 then 0 else if dieUp s d then 2 else 1

/-- APC_PLT_STATUS (R61). -/
def pltStatus (s : State) (p : Nat) : Nat :=
  let x := part s p
  let busy := x.staged == 1 || x.staged == 2 || x.active == 1 || x.active == 3
  x.active + fld 4 3 x.staged + fld 7 1 (b2n busy) + fld 8 8 (rd s (pltReg p 0x28) % 256)

def apcValue (s : State) (q : Nat) : Nat :=
  if q = 4 then dieState s 0 + fld 2 2 (dieState s 1) + fld 4 2 (bits (rd s (wrdReg 0)) 0 2)
  else if 0x10100 ≤ q ∧ q < 0x10900 then
    let p := (q - 0x10100) / 0x100
    match q % 0x100 with
    | 0x20 => pltStatus s p
    | 0x30 => plateId (part s p).image
    | 0x38 => plateId (part s p).stagedImg
    | 0x48 => (part s p).step
    | 0x54 => (part s p).permits
    | o => rd s (pltReg p o)
  else rd s (apcReg q)

/-- The value of the register that begins at `a`. -/
def regValue (s : State) (a : Nat) : Nat :=
  let (b, q) := blockOf a
  let d := dieOfReg a
  if isPodReg a then podValue s ((a - podBase) / 0x10000) (a % 0x10000)
  else if isDieReg a then
    match b with
    | 0 => cpyValue s d q
    | 1 => mchValue s (8 * d + q / 0x10000) (q % 0x10000)
    | 2 => upeValue s (8 * d + q / 0x10000) (q % 0x10000)
    | 3 => synValue s d q
    | 4 => rylValue s d q
    | 5 => pwsValue s d q
    | 6 => rstValue s d q
    | _ => cntValue s d q
  else match b with
    | 0 => wrdValue s q
    | 1 => bbxValue s q
    | 2 => secValue s q
    | _ => apcValue s q

/-! ### Reads -/

/-- The register that an access of `w` bytes names, and the half of it: none is a bus error (R6, R10). A 64-bit
register may be read as two halves. DESIGN CHOICE (log entry 5): an aligned access inside a block at an offset where no
register lies, the error aggregation block among them, is a bus error too; the spec gives it no outcome. -/
def regAccess (a w : Nat) : Option (Nat × Half) :=
  if w = 8 ∧ a % 8 = 0 ∧ regWidth a = 64 then some (a, .whole)
  else if w = 4 ∧ a % 4 = 0 then
    if regWidth a = 32 then some (a, .whole)
    else if regWidth a = 64 then some (a, .lower)
    else if 4 ≤ a ∧ regWidth (a - 4) = 64 then some (a - 4, .upper)
    else none
  else none

/-- Is `a` an RC register: MCH_PIN_FAIL, UPE_REFUSAL or SYN_DL_RECORD (R10)? -/
def isRc (a : Nat) : Bool :=
  let (b, q) := blockOf a
  isDieReg a && ((b == 1 && q % 0x10000 == 0x2050) || (b == 2 && q % 0x10000 == 0x10) || (b == 3 && q == 0x18))

/-- A read of SYN_DL_RECORD by half (R10): the record is removed except by a read of the upper half. -/
def dlRead (s : State) (d : Nat) (half : Half) : State × Nat :=
  let a := synReg d 0x18
  if rd s a = 0 && half != .upper then (s, 0)
  else
    let (s, v, gone) := rcRead s a half (rd s a)
    (if gone then wr s a 0 else s, v)

/-- A read of an RC register. -/
def rcTake (s : State) (a : Nat) (half : Half) : State × Nat :=
  let (b, q) := blockOf a
  let d := dieOfReg a
  if b = 3 then dlRead s d half
  else
    let st := 8 * d + q / 0x10000
    if b = 2 then
      let l := tget [] s.upeQ st
      if l.isEmpty && half != .upper then (s, 0)
      else
        let (s, v, gone) := rcRead s a half (l.headD 0)
        (if gone then { s with upeQ := tset s.upeQ st (l.drop 1) } else s, v)
    else match (stk s st).pinFail with
      | [] => (s, 0)
      | (c, p) :: t => (modStk s st (fun x => { x with pinFail := t }), 2 ^ 31 + c + fld 8 5 p)

/-- A read of `w` bytes at `a`: none is a bus error. -/
def regRead (s : State) (a w : Nat) : State × Option Nat :=
  match regAccess a w with
  | none => (s, none)
  | some (r, half) =>
    if !reachable s r then (s, none)
    else if isRc r then
      let (s, v) := rcTake s r (if regWidth r = 32 then .upper else half)
      (s, some v)
    else
      let v := regValue s r
      match half with
      | .whole => (s, some v)
      | .lower =>
        (if latching r then { s with shadow := if v / 2 ^ 32 = 0 then tdel s.shadow r else tset s.shadow r (v / 2 ^ 32) } else s,
         some (v % 2 ^ 32))
      | .upper => (s, some (if latching r then tget 0 s.shadow r else v / 2 ^ 32))

/-- SYN_DL_RECORD_READ. -/
def execSynDlRecordRead (d : Fin 2) (half : Half) (s : State) : Out :=
  .next (
    let a := synReg d 0x18
    if !reachable s a then emit s (.busError a)
    else
      let (s, v) := dlRead s d half
      emit s (.value a v))

end Sys2Proof.Machine
end

