-- ==== Sys2Proof/Machine/Reset.lean ====
section
/-! DEFINITION. Pod, hatch, partition and die resets, the crash area, hangs and the deadlock detector
(17_reset_recovery.md R417–R438, 20_debug_counters.md R493, 13_synchronisation.md R339–R341). -/
namespace Sys2Proof.Machine
open Sys2Proof

/-! ### Pods and clocks (R417, R423) -/

/-- A pod reset: what R417 clears, with tiles and masks undefined until ACTIVATE (R139). -/
def resetPod (s : State) (g : Nat) : State :=
  let s := flushCe s g
  let p := pod s g
  let s := setPod s g {
    hatch := p.hatch
    epoch := p.epoch + 1
    undef := true
    burin := { prog := p.burin.prog, version := p.burin.version, errs := p.burin.errs }
    slots := p.slots
    slotErrs := p.slotErrs
    spad := p.spad
    errs := p.errs
    copySlots := p.copySlots
    svc := p.svc }
  [0x408, 0x608, 0x60C, 0xA1C].foldl (fun s o => wr s (podReg g o) 0) s

/-- Generators that head a hatch of a partition. -/
def gensOf (s : State) (p : Nat) : List Nat := (s.gens.filter (fun e => decide (0 < e.2.size) && e.2.part == p)).map (·.1)

/-- A hatch clock goes to STOPPED; stroke state stays as it stands. -/
def stopGen (s : State) (n : Nat) : State :=
  let x := gen s n
  let s := if x.st == .stopped || x.st == .starting || x.faulted then s else stopClock s n x.hc true
  modGen s n (fun x => { x with st := .stopped, faulted := false, stopHc := none })

/-- A stopped generator holds no wait, hold or ramp. -/
def clearGen (s : State) (n : Nat) : State :=
  modGen s n (fun x => { x with waitKind := 0, waitAt := 0, waitArg := 0, waitPods := 0, waitNeed := 0, sleepDelay := 0,
                                holdCause := 0, slow := [], ahead := none, hang := 0 })

/-- Pods that the set-up gives a partition, ascending (R471). -/
def podsOf (s : State) (p : Nat) : List Nat :=
  ((List.range 32).filter (fun o => (part s p).octets.contains o)).flatMap (fun o => (List.range 8).map (8 * o + ·))

/-- Partition of a pod. -/
def partOf (s : State) (g : Nat) : Option Nat := (List.range 8).find? (fun p => (part s p).octets.contains (g / 8))

/-- A partition holds pods or counters on a die (R419). -/
def holdsOn (s : State) (p d : Nat) : Bool :=
  (part s p).octets.any (fun o => o / 16 == d) || bits (rd s (synReg d (0x20 + 4 * p))) 12 13 != 0

/-- Home die (R523). -/
def homeDie (s : State) (p : Nat) : Nat := ((part s p).octets.min?.getD 0) / 16

def rstEvent (s : State) (d k : Nat) : State := setBits s (rstReg d 8) (2 ^ k)

/-- A request for a partition's reset; one that meets a pending request merges into it (R420, R432). -/
def askReset (s : State) (d p : Nat) (r : ResetReq) : State :=
  if (part s p).resetReq.isSome then rstEvent s d 4 else requestReset s p r

/-! ### The crash area (R425–R429, R493) -/

def crashBase (s : State) (d : Nat) : Nat := rd s (rstReg d 0x18)
def crashSt (s : State) (d p : Nat) : Nat := tget 0 s.crash (8 * d + p)
def setCrash (s : State) (d p v : Nat) : State :=
  { s with crash := if v = 0 then tdel s.crash (8 * d + p) else tset s.crash (8 * d + p) v }

/-- A region's memory can be reached: mapped, in service, on dies that are up. -/
def regionUp (s : State) (r : Nat) : Bool :=
  let w := regionWord s r 0
  !bit w 2 && (match bits w 0 2 with
    | 0 => false
    | 1 => dieUp s 0 && dieUp s 1
    | _ => dieUp s (bits w 3 4 / 8))

/-- A valid crash slot (R426). -/
def crashOk (s : State) (d : Nat) : Bool :=
  let b := crashBase s d
  b != 0 && decide (b + 2 ^ 26 ≤ 2 ^ 39) && regionUp s (b / 2 ^ 30) && regionUp s ((b + (2 ^ 26 - 1)) / 2 ^ 30)

/-- First byte of a die's half of a slot. -/
def crashAddr (s : State) (d p : Nat) : Nat := crashBase s d + p * 2 ^ 23 + d * 2 ^ 22

def snap (typ idx body : Nat) : Nat := fld 0 8 typ + fld 16 16 idx + body

/-- HATCH record. -/
def snapHatch (s : State) (n : Nat) : Nat :=
  let x := gen s n
  let j := tget 0 (part s x.part).consMap (bits x.waitArg 0 15)
  let id := waitCtr s n
  let c := ctr s id
  let sync := if x.waitKind = 2 then fld 176 16 (j % 32768) + fld 192 16 id + fld 256 64 x.waitNeed + fld 320 64 c.value +
      fld 384 8 c.st else 0
  snap 1 (8 * (n % 16)) (fld 32 32 (hatchStatus s (hatchLow n)) + fld 64 64 x.hc + fld 128 32 (x.hang / 50) +
    fld 160 8 x.waitKind + sync)

/-- POD record. -/
def snapPod (s : State) (g : Nat) : Nat :=
  let p := pod s g
  let l := p.landing.filter (fun l => !l.landed)
  let busy := b2n (mxaBusy s g) + fld 1 1 (b2n (pipeBusy s g 0)) + fld 2 1 (b2n (pipeBusy s g 1)) +
    fld 3 1 (b2n p.pipe0.stip.isSome) + fld 4 1 (b2n p.pipe1.stip.isSome)
  let old := match l with
    | e :: _ => fld 56 8 e.entry + fld 80 16 e.desc + fld 128 40 e.granule
    | [] => 0
  let r := fun o => rd s (podReg g o)
  snap 2 (g % 128) (fld 32 16 p.burin.idx + fld 48 8 busy + fld 64 16 l.length + old + fld 96 32 (r 0xA18) +
    fld 192 32 (r 0x220) + fld 224 32 (r 0x40C) + fld 256 64 (r 0x610) + fld 320 64 (r 0x808) + fld 384 32 (r 0xA00) +
    fld 416 32 (r 0xA08) + fld 448 32 (r 0xA10) + fld 480 32 (r 0xA30))

/-- Requests of a partition queued in a stack for one kind of owner: those of each channel queue, head first. -/
def stackQueues (s : State) (p st k : Nat) : List (List MemReq) :=
  ((List.range 256).flatMap (fun c => ((chan s st c).queues.filter (fun e => ownerKind e.1 == k)).map (fun e =>
    e.2.filter (fun r => r.holder == p)))).filter (fun l => !l.isEmpty)

/-- QUEUE record, where the stack holds a request of the partition. Which channel's head it names is open. -/
def snapQueue (s : State) (p st : Nat) : State × List Nat :=
  let qs := (List.range 4).map (stackQueues s p st)
  if qs.all (·.isEmpty) then (s, [])
  else
    let r := (List.range 4).foldl (fun (a : State × Nat) k =>
      let q := nth [] qs k
      match q with
      | [] => a
      | _ =>
        let (s, i) := pickOf a.1 (List.range q.length)
        let body := match nth [] q i with
          | h :: _ => fld 16 8 (if h.wr then 2 else 1) + fld 32 64 h.addr
          | [] => 0
        (s, a.2 + (fld 0 16 (q.map (·.length)).sum + body) <<< (32 + 96 * k))) (s, 0)
    (r.1, [snap 4 st (r.2 + fld 416 32 (mchStatus s st))])

/-- Bytes that a copy's tensor holds. -/
def copySize (s : State) (p img : Nat) : Nat :=
  match tensorAt s p (cdSrc img) with | some sd => denseBytes (tdType sd) (tdCount sd) | none => 0

/-- COPY record. How much of a copy had been written is open, but for the spans that a peer has acknowledged. -/
def snapCopy (s : State) (d n : Nat) : State × Nat :=
  let x := copyChan s d n
  let p := chPart s d n
  let st := fld 32 32 (cpyValue s d (0x1000 + 0x100 * n))
  match x.run with
  | none => (s, snap 5 n (st + fld 192 32 0xFFFFFFFF))
  | some r =>
    let (s, b) := match r.done with
      | some e => (s, e.bytes)
      | none => if cdRemote r.img then (s, 4096 * r.acked)
        else (nextFree s, (Config.free 64 s.freeCtr).toNat % (copySize s p r.img + 1))
    let left := if cdDeadline r.img = 0 then 0xFFFFFFFF else cdDeadline r.img - r.age / 50
    (s, snap 5 n (st + fld 64 32 (cdTag r.img) + fld 96 32 r.ref + fld 128 64 b + fld 192 32 left + fld 224 2 (r.flags % 4)))

/-- COUNTER record. -/
def snapCtr (s : State) (id : Nat) : Nat :=
  let c := ctr s id
  let top := ((s.cons.filter (fun e => e.1 / 32768 == id / 4096 && e.2.ctr == id % 4096)).map (·.2.count)).foldl max 0
  snap 6 id (fld 32 32 (ctrState c) + fld 64 64 c.value + fld 128 64 c.trigger + fld 192 64 (c.held + (c.lost.map (·.2)).sum) +
    fld 256 64 top)

/-- CREDIT record. -/
def snapPort (s : State) (k : Nat) : Nat :=
  let x := port s k
  let units := fun v => ((portQueue x v).map (fun q => 1 + q.units)).sum
  let four := fun (f : Nat → Nat) => fld 0 16 (f 0) + fld 16 16 (f 1) + fld 32 16 (f 2) + fld 48 16 (f 3)
  snap 7 k (fld 32 32 (rd s (portReg k 0)) + four (nth 0 x.credits) <<< 64 + four units <<< 128 + fld 192 16 x.replay.length)

/-- ENGINE record. -/
def snapUpe (s : State) (p st : Nat) : Nat :=
  let x := upe s st p
  let l := upeLayer x
  snap 8 st (fld 32 32 (upeValue s st (0x100 + 4 * p)) +
    (if x.layers.isEmpty then 0 else fld 64 32 (layField l 0 4) + fld 96 16 (layField l 0x1C 2)))

/-- First word and number of words of a partition's samples on a die (R429, R437). -/
def sampleWin (s : State) (d p : Nat) : Nat × Nat :=
  let v := rd s (rstReg d (0x20 + 8 * p))
  (bits v 0 16, min (bits v 16 10) (65536 - bits v 0 16))

/-- Words of a pod's sample that read uncorrectable or poisoned, as offsets from its first word. -/
def badWords (s : State) (g w n : Nat) : List Nat := (List.range n).filter (fun i => wordBad (pod s g) (w + i))

/-- A pod's sample: corrected words corrected, uncorrectable ones as zeros. -/
def sampleData (s : State) (g w n : Nat) : Nat :=
  foldNat n (fun i v => if wordBad (pod s g) (w + i) then v else v + spadWord (pod s g) (w + i) <<< (256 * i)) 0

/-- BADWORDS record of the `k`-th pod. -/
def snapBad (k : Nat) (bad : List Nat) : Nat :=
  snap 3 k (fld 32 8 (if 29 < bad.length then 255 else bad.length) +
    ((bad.take 29).mapIdx (fun i w => fld (48 + 16 * i) 16 w)).sum)

/-- The reads of a sample are reported (R281, R286). -/
def noteSample (s : State) (p g w n : Nat) : State :=
  let s := flushCe (modPod s g (fun x => noteWords x ((List.range n).map (w + ·)))) g
  (badWords s g w n).foldl (fun s _ => notePodBad s g p (rd s (podReg g 0xA18))) s

/-- Records of a die's half, in the order of R428. -/
def snapshots (s : State) (d p : Nat) : State × List Nat :=
  let pods := (podsOf s p).filter (fun g => g / 128 == d)
  let (w, n) := sampleWin s d p
  let hs := ((gensOf s p).filter (fun k => k / 16 == d)).map (snapHatch s)
  let ps := pods.map (snapPod s)
  let bs := (pods.mapIdx (fun k g => (k, badWords s g w n))).filterMap (fun e => if e.2.isEmpty then none else some (snapBad e.1 e.2))
  let (s, qs) := (List.range 16).foldl (fun (a : State × List Nat) st =>
    let (s, q) := snapQueue a.1 p st
    (s, a.2 ++ q)) (s, [])
  let (s, cs) := (List.range 32).foldl (fun (a : State × List Nat) k =>
    if chKind a.1 d k != 0 && chPart a.1 d k == p then
      let (s, c) := snapCopy a.1 d k
      (s, a.2 ++ [c])
    else a) (s, [])
  let ns := ((ctrsOf s p).filter (fun id => id / 4096 == d)).map (snapCtr s)
  let ks := (List.range 8).map (fun k => snapPort s (8 * d + k))
  let es := (List.range 8).map (fun k => snapUpe s p (8 * d + k))
  (s, hs ++ ps ++ bs ++ qs ++ cs ++ ns ++ ks ++ es)

/-- Header of a half (R427). -/
def crashHeader (s : State) (d p st recs words pods : Nat) : Nat :=
  let c := rd s (rstReg d (0x80 + 4 * p))
  fld 0 32 0x48535251 + fld 32 16 1 + fld 48 8 st + fld 56 8 (c % 256) + fld 64 64 (tget 0 s.crashSeq (8 * d + p)) +
    fld 128 64 (plateId (part s p).image) + fld 192 64 (part s p).step + fld 256 64 s.ticks + fld 320 32 recs +
    fld 352 16 words + fld 368 16 pods + fld 384 8 (bits c 16 4) + fld 392 8 (bits c 8 7)

/-- A die writes its half: records, samples, and STATE last. A capture cut off after 1 ms leaves out what it had not
reached (R423). -/
def writeHalf (s : State) (d p : Nat) (cut : Option (Nat × Nat)) : State :=
  let a := crashAddr s d p
  let (s, recs) := snapshots s d p
  let recs := match cut with | some (k, _) => recs.take k | none => recs
  let (w, n) := sampleWin s d p
  let pods := (podsOf s p).filter (fun g => g / 128 == d)
  let room := match cut with | some (_, b) => b | none => 32 * n * pods.length
  let s := { s with crashSeq := tmod 0 s.crashSeq (8 * d + p) (· + 1) }
  let s := svcWrite s (a + 0x40) (64 * recs.length) ((recs.mapIdx (fun i r => r <<< (512 * i))).sum) p
  let s := ((List.range pods.length).foldl (fun s k =>
    let g := nth 0 pods k
    let b := min (32 * n) (room - 32 * n * k)
    if b = 0 then s
    else svcWrite (noteSample s p g w ((b + 31) / 32)) (a + 2 ^ 20 + k * 2 ^ 14) b (sampleData s g w n) p) s)
  let st := if cut.isSome then 3 else 2
  setCrash (svcWrite s a 64 (crashHeader s d p st recs.length n pods.length) p) d p st

/-- Stages 2 and 3 on the dies that take part: written where every half is EMPTY and the slot is valid. -/
def capture (s : State) (p : Nat) (dies : List Nat) (cut : Option (Nat × Nat)) : State :=
  let used := [0, 1].any (fun d => crashSt s d p != 0)
  let ds := dies.filter (fun d => holdsOn s p d)
  if used then
    let s := dies.foldl (fun s d => rstEvent s d 3) s
    logEv s (homeDie s p) 0x13 p (rd s (rstReg (homeDie s p) (0x80 + 4 * p))) 0 false
  else ds.foldl (fun s d => if crashOk s d then writeHalf s d p cut else rstEvent s d 3) s

/-- RST_CRASH_ACKp: both halves EMPTY (R425). -/
def crashAck (s : State) (p : Nat) : State :=
  [0, 1].foldl (fun s d =>
    let s := if crashSt s d p != 0 && crashOk s d then svcWrite s (crashAddr s d p + 6) 1 0 p else s
    setCrash s d p 0) s

def execRstCrashAck (r : Requester) (d : Fin 2) (p : Fin 8) (s : State) : Out :=
  .next (gate s r (rstReg d (0x60 + 4 * p)) (fun s => crashAck s p))

/-! ### The partition reset (R423, R424, R433) -/

/-- RST_CAUSEp on a die; POD and UNIT where the first report was on that die. -/
def writeCause (s : State) (p : Nat) (r : ResetReq) (d : Nat) : State :=
  wr s (rstReg d (0x80 + 4 * p))
    (r.cause + (if r.unit ≠ 0 ∧ r.pod / 128 = d then fld 8 7 (r.pod % 128) + fld 16 4 r.unit else 0))

/-- Slots that the list holds and the sparing map still uses are logged at every partition reset (R393). -/
def logListed (s : State) : State :=
  s.sec.failed.foldl (fun s f =>
    if (List.range 128).any (fun k => slotOf s (128 * f.1 + k) == f.2) then logEv s f.1 0x15 0xFF f.1 f.2 false else s) s

/-- Stage 6 for the two plate slots (R51, R424). -/
def fencePlate (s : State) (p : Nat) : State :=
  let (s, _) := dropPermits s p
  let s := modPart s p (fun x => { x with completed := x.released, frozen := false, inDoubt := false, seenFreeze := [] })
  let s := if (part s p).staged = 1 ∨ (part s p).staged = 2 then abortLoad s p else s
  let x := part s p
  let fence := fun (s : State) => plateEvent (modPart s p (fun x => { x with active := 4, activateNext := false })) p 5
  match x.active with
  | 1 => fence s
  | 2 => fence s
  | 3 =>
    let s := releaseCtrs s p
    if x.activateNext && x.staged == 3 then fence (takeStaged s p) else plateEvent (emptyActive s p) p 3
  | _ => s

/-- The stages of a partition reset, on the dies whose RST block takes part. -/
def runReset (s : State) (p : Nat) (r : ResetReq) (dies : List Nat) (cut : Option (Nat × Nat)) : State :=
  let s := modPart s p (fun x => { x with resetReq := none })
  let s := (gensOf s p).foldl stopGen s
  let s := dies.foldl (writeCause · p r) s
  let s := capture s p dies cut
  let s := (List.range 16).foldl (fun s st => applyStop s st p) s
  let s := (ctrsOf s p).foldl (fun s id => breakCtr s id 1) (dropChanges s p)
  let s := emptyLists (resetChans (resetChans s p 0) p 1) p
  let s := placeFrames (discardReqs s p) p (fun _ _ => 0)
  let s := (podsOf s p).foldl resetPod s
  let s := (gensOf s p).foldl clearGen s
  let step := (part s p).step
  let s := fencePlate (voidLane s p) p
  let s := dies.foldl (fun s d => bump (rstEvent s d 1) (rstReg d 0xC0) 1) s
  let d := if dies.contains (homeDie s p) then homeDie s p else dies.headD 0
  if dies.isEmpty then s else logListed (logEv s d 0x10 p (rd s (rstReg d (0x80 + 4 * p))) step false)

def upDies (s : State) : List Nat := [0, 1].filter (dieUp s)

/-- A requested partition reset; it merges where a die of the partition is in reset (R432). -/
def partReset (s : State) (p : Nat) (cut : Option (Nat × Nat)) : State :=
  match (part s p).resetReq with
  | none => s
  | some r =>
    if plateDown s then (upDies s).foldl (fun s d => rstEvent s d 4) (modPart s p (fun x => { x with resetReq := none }))
    else runReset s p r (upDies s) cut
where
  plateDown (s : State) : Bool := (partDies s p).any (fun d => !dieUp s d)

def execPartitionReset (p : Fin 8) (s : State) : Out := .next (partReset s p none)

/-- The same reset with its capture cut off. -/
def execCrashCaptureCut (p : Fin 8) (records sampleBytes : Nat) (s : State) : Out :=
  .next (partReset s p (some (records, sampleBytes)))

/-! ### Reset commands (R420, R424, R437) -/

/-- The plate of a partition is RUNNING, ACTIVATING or RETIRING. -/
def plateLive (s : State) (p : Nat) : Bool := [1, 2, 3].contains (part s p).active

/-- RST_CMD POD and HATCH: with a live plate, a partition reset; else `act`. -/
def podCmd (s : State) (d v : Nat) (act : State → Nat → State) : State :=
  let g := 128 * d + bits v 6 7
  match partOf s g with
  | some p =>
    if plateLive s p then askReset s d p ⟨5, g, 0⟩ else act s g
  | none => act s g

/-- A hatch reset (R417): its clock, its counters, its pods. -/
def resetHatch (s : State) (g : Nat) : State :=
  match (pod s g).hatch with
  | none => s
  | some n =>
    if (gen s n).size = 0 then s
    else
      let s := stopGen s n
      let s := ((ctrsOf s (gen s n).part).filter (fun id => (ctr s id).hatch == n)).foldl (fun s id => breakCtr s id 1) s
      clearGen ((hatchPods s n).foldl resetPod s) n

def execRstCmdPod (r : Requester) (d : Fin 2) (v : BitVec 32) (s : State) : Out :=
  .next (gate s r (rstReg d 4) (fun s => if bits v.toNat 0 3 = 1 then podCmd s d v.toNat resetPod else s))
def execRstCmdHatch (r : Requester) (d : Fin 2) (v : BitVec 32) (s : State) : Out :=
  .next (gate s r (rstReg d 4) (fun s => if bits v.toNat 0 3 = 2 then podCmd s d v.toNat resetHatch else s))
def execRstCmdPartition (r : Requester) (d : Fin 2) (v : BitVec 32) (s : State) : Out :=
  .next (gate s r (rstReg d 4) (fun s =>
    if bits v.toNat 0 3 = 3 then askReset s d (bits v.toNat 3 3) ⟨5, 0, 0⟩ else s))

/-- A die reset is requested from the warden, or merges into one that is pending. -/
def askDie (s : State) (d : Nat) : State :=
  if s.dieReq.contains d then rstEvent s d 4 else { s with dieReq := s.dieReq ++ [d] }

def execRstCmdDie (r : Requester) (d : Fin 2) (v : BitVec 32) (s : State) : Out :=
  .next (gate s r (rstReg d 4) (fun s => if bits v.toNat 0 3 = 4 then askDie s d else s))

/-! ### Hangs, drains and the deadlock detector (R341, R421, R434) -/

/-- The hang timer counts for a hatch: STARTING, HELD, or RUNNING outside a wait (R421). -/
def hangCounts (x : Gen) : Bool :=
  decide (0 < x.size) && !x.faulted && (x.st == .starting || x.st == .held || (x.st == .running && x.waitKind == 0))

/-- A hatch's hang timer has reached RST_HANG_TIMEOUT of its die, in ms (R421, R523). -/
def hangDue (s : State) (n : Nat) : Bool := decide (50000 * bits (rd s (rstReg (n / 16) 0x10)) 0 16 ≤ (gen s n).hang)

/-- A hatch hangs, its timer having reached the timeout: time in HELD has counted towards it (R80, R421). -/
def hang (s : State) (n : Nat) : State :=
  let x := gen s n
  let d := n / 16
  if !hangCounts x || !hangDue s n || !dieUp s d then s
  else askReset (logEv (rstEvent s d 0) d 0x11 x.part (hatchLow n) (x.hang / 50) false) d x.part ⟨2, 0, 0⟩

def execHangDetected (n : Fin 32) (s : State) : Out := .next (hang s n)

/-- A RETIRE that has not completed in time becomes a partition reset (R434). -/
def execRetireDrainTimeout (p : Fin 8) (s : State) : Out :=
  .next (if (part s p).active = 3 then askReset s (homeDie s p) p ⟨5, 0, 0⟩ else s)

/-- LATE is in force for a partition (R340, R341). -/
def lateNow (s : State) (p : Nat) : Bool := lateLocal s p || (part s p).lateIn

/-- Every 500 µs a module with a LATE condition sends LATE to the remote destinations of the partition's LIVE counters
(R340). -/
def lateSend (s : State) (p : Nat) : State :=
  if lateLocal s p && !(part s p).frozen then floodDests s p tLate (moduleId s) 0 else s

def execLateSend (p : Fin 8) (s : State) : Out := .next (lateSend s p)

/-- LATE's pause of an episode reaches SYN_LATE_CAP of the home die (R341, R523). -/
def execLateCapExhausted (d : Fin 2) (p : Fin 8) (s : State) : Out :=
  .next (if d.val = homeDie s p ∧ lateNow s p then modPart s p (fun x => { x with lateCapped := true }) else s)

/-- An episode ends, and the next has a fresh allowance (R341). -/
def execLateEpisodeEnd (d : Fin 2) (p : Fin 8) (s : State) : Out :=
  .next (if d.val = homeDie s p ∧ !lateNow s p then modPart s p (fun x => { x with lateCapped := false }) else s)

/-- A copy in progress moves no byte: its last one is written, its spans have been given to the ports, or a stack of it
serves reserved slots only. -/
def copyStalled (s : State) (p : Nat) (r : CopyRun) : Bool :=
  r.done.isSome || r.total != 0 || (copyStacks s p r.img r.iter).any (keepOnly s)

/-- No copy channel of the partition moves a byte. -/
def copiesStill (s : State) (p : Nat) : Bool :=
  s.copies.all (fun e => chPart s (e.1 / 32) (e.1 % 32) != p || chKind s (e.1 / 32) (e.1 % 32) == 0 ||
    e.2.run.all (copyStalled s p))

/-- A packet of this module's own carries a sync message or a copy span of the partition. -/
def packetOf (s : State) (p : Nat) (x : LinkPkt) : Bool :=
  if x.arr.isSome then false
  else if x.typ = tSpan then
    (match tfind s.spans (bits x.body 96 32) with
     | some c => if 64 ≤ c then c - 64 == p else chPart s (c / 32) (c % 32) == p
     | none => false)
  else if x.typ = tSync then (ctr s (bits x.body 64 13)).part == p
  else false

/-- A change of the partition waits at a counter unit. -/
def changeOf (s : State) (p : Nat) (c : Change) : Bool :=
  match c.op with
  | 1 => c.id / 16 == p
  | 3 => (tget ⟨0, 0, 0, 0⟩ s.cons c.id).part == p
  | _ => (ctr s c.id).part == p

/-- No sync message or copy span of the partition is sent or received: none that can leave stands in an egress queue, and
no arrived change waits at a counter unit. -/
def messagesStill (s : State) (p : Nat) : Bool :=
  !(s.changes0 ++ s.changes1).any (changeOf s p) &&
    s.ports.all (fun e => (List.range 4).all (fun v =>
      !laneReady e.2 v || !((portQueue e.2 v).take 1).any (packetOf s p)))

/-- The partition is idle, and its deadlock timer advances (R341). -/
def deadlockIdle (s : State) (p : Nat) : Bool :=
  let x := part s p
  x.active == 2 && !x.frozen && (!lateNow s p || x.lateCapped) && upesWaiting s p && copiesStill s p &&
    messagesStill s p &&
    (gensOf s p).all (fun n =>
      let y := gen s n
      y.waitKind == 2 && y.waitPods == y.size && !y.faulted && (y.st == .running || y.st == .sleeping))

/-- The detector fires, on the home die. -/
def deadlock (s : State) (d p : Nat) : State :=
  if !dieUp s d || homeDie s p != d || (gensOf s p).isEmpty || !deadlockIdle s p then s
  else
    let c := waitCtr s ((gensOf s p).headD 0)
    let v := fld 0 3 p + fld 8 13 c + fld 63 1 1
    let s := setBits (wr s (synReg d 0x18) v) (synReg d 8) 2
    askReset (logEv s d 0x14 p v 0 false) d p ⟨3, 0, 0⟩

def execDeadlockDetected (d : Fin 2) (p : Fin 8) (s : State) : Out := .next (deadlock s d p)

/-! ### The die reset (R417–R419, R430, R431, R438) -/

/-- APC_EVENT takes bits while the module-level domain is on (R462). -/
def apcEvent (s : State) (m : Nat) : State := if s.dieDown.contains 2 then s else setBits s (apcReg 8) m

/-- The warden takes the token from a die (R451). -/
def takeToken (s : State) (d : Nat) : State :=
  let v := rd s (wrdReg 0)
  if bits v 0 2 = d + 1 then
    let s := wr s (wrdReg 0) (fld 32 32 (bits v 32 32 + 1))
    apcEvent (setBits s (wrdReg 0x18) 8) 2
  else s

/-- Registers of a die block that a die reset keeps, by offset. -/
def dieKeep (o : Nat) : Bool :=
  let q := o % 0x100000
  let r := o % 0x10000
  match o / 0x100000 with
  | 0 => decide (0x1000 ≤ q) && q % 0x100 == 0x30
  | 1 => r == 4 || r == 8 || r == 0x10 || decide (0x20 ≤ r ∧ r < 0x180) || decide (0x2020 ≤ r ∧ r < 0x2050) ||
      decide (0x2100 ≤ r)
  | 2 => decide (0x18 ≤ r ∧ r ≤ 0x30)
  | 3 => q == 4 || decide (0x20 ≤ q ∧ q < 0x40) || decide (0x80 ≤ q)
  | 4 => !(q == 0x10 || q == 0x14 || q == 0x18)
  | 5 => q == 4 || q == 8 || q == 0xC || q == 0x148
  | 6 => q == 0x18 || decide (0xC0 ≤ q)
  | _ => q == 0

/-- Registers of a pod that a die reset keeps: its counts. -/
def podKeep (o : Nat) : Bool :=
  [0x410, 0x418, 0x420, 0x618, 0x620, 0x628, 0x630, 0x810, 0x818, 0x820, 0xA20, 0xA28].contains (o % 0x10000)

/-- A stack's controller after a die reset: accepted writes have completed, and nothing is queued (R296, R418). -/
def resetStack (s : State) (st : Nat) : State :=
  let s := s.chans.foldl (fun (s : State) (e : Nat × Chan) =>
    if e.1 / 256 = st then
      bump s (mchReg st 0x28) ((e.2.queues.flatMap (·.2)).filter (·.wr)).length else s) s
  let s := { s with chans := s.chans.filter (fun e => e.1 / 256 != st), upeQ := tdel s.upeQ st }
  let s := s.regs.foldl (fun (s : State) (e : Nat × Nat) =>
    if mchReg st 0x4000 ≤ e.1 ∧ e.1 < mchReg st 0x8000 ∧ bit e.2 3 then wr s e.1 (if bit e.2 0 then e.2 - 8 else 0) else s) s
  let s := wr s (mchReg st 8) (rd s (mchReg st 8) &&& 8)
  modStk s st (fun x => { level := x.level, temp := x.temp })

/-- Ranges of a partition are freed, with their generation advanced (R212, R417). -/
def freeRanges (s : State) (p : Nat) : State :=
  { s with ranges := s.ranges.map (fun e =>
      if e.2.live ∧ e.2.part = p then (e.1, { e.2 with live := false, gen := (e.2.gen + 1) % 2 ^ 32, count := 0 }) else e) }

/-- Both plate slots of a partition empty, its counters on the dies `ds` set FREE, its descriptors destroyed and its ranges
freed (R51, R417); its counters on a die that is not reset stay BROKEN (R339). -/
def emptySlots (s : State) (ds : List Nat) (p : Nat) : State :=
  let was := (part s p).active
  let s := emptyActive (dropStaged (ds.foldl (fun s d => releaseCtrsOn s p d) s) p) p
  let s := if was = 0 then s else plateEvent s p 3
  let s := modPart (countTable s (part s p).runDescs false) p (fun x => { x with runDescs := [], resetReq := none })
  let s := { s with gens := s.gens.map (fun e => if e.2.part = p then (e.1, { e.2 with size := 0 }) else e) }
  freeRanges s p

/-- What R417 clears on the die itself. -/
def clearDie (s : State) (d : Nat) : State :=
  let s := (List.range 8).foldl (fun s k => resetStack s (8 * d + k)) s
  let s := ((s.pods.filter (fun e => e.1 / 128 == d)).map (·.1)).foldl (fun s g =>
    let s := (pod s g).svc.foldl (fun s x => emit s (.busError x.addr)) s
    modPod (resetPod s g) g (fun p => { p with hatch := none, svc := [] })) s
  let s := { s with gens := s.gens.map (fun (e : Nat × Gen) =>
    if e.1 / 16 = d then (e.1, { hc := e.2.hc, holdCount := e.2.holdCount, bubbleCount := e.2.bubbleCount }) else e) }
  let s := { s with
    copies := s.copies.filter (fun e => e.1 / 32 != d)
    spans := s.spans.filter (fun e => e.2 / 32 != d)
    rangeCmds := tdel s.rangeCmds d
    descCmds := tdel s.descCmds d
    shadow := s.shadow.filter (fun e => dieOfReg e.1 != d || isModReg e.1)
    lane := if d = 1 then {} else s.lane
    ringStop := if d = 1 then [0, 1, 2, 3] else s.ringStop
    dieReq := s.dieReq.filter (· != d)
    pws := { s.pws with
      temps := s.pws.temps.filter (fun e => e.1 / 17 != d)
      hot := s.pws.hot.filter (fun k => k / 17 != d)
      spent := s.pws.spent.filter (· != d)
      floors0 := if d = 0 then [] else s.pws.floors0
      floors1 := if d = 1 then [] else s.pws.floors1
      gain := 1
      hold := s.pws.hold && d != 0
      ok := s.pws.ok && d != 0
      bad := if d = 0 then 0 else s.pws.bad
      good := if d = 0 then 0 else s.pws.good
      cut := if d = 0 then 0 else s.pws.cut
      drain := s.pws.drain && d != 0 } }
  let s := setChanges s d []
  let s := dropRegs (dropRegs s (podReg (128 * d) 0) (podReg (128 * (d + 1)) 0) podKeep) (dieBase d) (dieBase (d + 1)) dieKeep
  if d = 1 then [14, 15].foldl (fun s k => if portSt s k = 5 then setPortState s k 0 0 0 0 else s) s else s

/-- Die resets of several dies at once. On a die that stays up, partitions that hold pods or counters on those dies
take a reset with cause DIE (R419), or ESCALATED where this reset took over another (R430). A die that is off or in
reset stays as it is (R432). -/
def resetDies (s : State) (ds : List Nat) (cause : Nat) : State :=
  let s := { s with dieReq := s.dieReq.filter (fun d => !ds.contains d) }
  let ds := ds.filter (dieUp s)
  if ds.isEmpty then s
  else
    let ps := (List.range 8).filter (fun p => ds.any (holdsOn s p))
    let s := ps.foldl (fun s p => runReset s p ⟨cause, 0, 0⟩ ((upDies s).filter (fun d => !ds.contains d)) none) s
    let s := ps.foldl (emptySlots · ds) s
    ds.foldl (fun s d =>
      let s := takeToken (clearDie (bump s (rstReg d 0xC8) 1) d) d
      apcEvent { s with dieDown := d :: s.dieDown } 1) s

/-- A die reset by the warden. -/
def dieReset (s : State) (d cause : Nat) : State := resetDies s [d] cause

def execDieReset (d : Fin 2) (s : State) : Out := .next (dieReset s d 7)

/-- A trip is latched, and holds the dies in reset (R412). -/
def tripLatched (s : State) : Bool := bit (rd s (wrdReg 0x400)) 0

/-- A powered die leaves reset: its control cores run (R430). -/
def releaseDie (s : State) (d : Nat) : State :=
  if (domOf s d).st = 2 ∧ s.dieDown.contains d then
    apcEvent { s with
      dieDown := s.dieDown.filter (· != d)
      sup := { s.sup with inReset := s.sup.inReset.filter (· != d) } } 1
  else s

/-- The boot holds a powered die in reset. -/
def holdDie (s : State) (d : Nat) : State :=
  { s with sup := { s.sup with inReset := if s.sup.inReset.contains d then s.sup.inReset else d :: s.sup.inReset } }

/-- A die reset finishes, but for a die that a trip or the boot holds. -/
def execDieResetComplete (d : Fin 2) (s : State) : Out :=
  .next (if tripLatched s || s.sup.inReset.contains d.val then s else releaseDie s d)

end Sys2Proof.Machine
end

