-- ==== Sys2Proof/Machine/Boot.lean ====
section
/-! DEFINITION. Signed images, boot stages, the set-up record and the lock (19_boot_security.md R464–R475, 01 R12–R16,
11 R292, R296, 10 R247), and the power domains (18 R459, 21_electrical_package.md R511–R517). -/
namespace Sys2Proof.Machine
open Sys2Proof

/-! ### Flash and signed images (R466–R468) -/

/-- Bytes of the flash, which is held as its complement. -/
def flashRead (s : State) (o n : Nat) : Nat := 2 ^ (8 * n) - 1 - mread s.sec.flash o n

/-- First byte and size of an image slot (0 A, 1 B) of a type. -/
def slotSpan (t i : Nat) : Nat × Nat :=
  let (base, size) := match t with
    | 1 => (0x0, 0x100000)
    | 2 => (0x200000, 0x400000)
    | 3 => (0xA00000, 0x1000000)
    | _ => (0x2A00000, 0x40000)
  (base + i * size, size)

/-- An image slot as a byte memory from 0. -/
def slotMem (s : State) (t i : Nat) : Mem :=
  let (b, n) := slotSpan t i
  mput [] 0 (leBytes n (flashRead s b n))

/-- A 16-bit … 64-bit field of the header in a slot. -/
def hdr (s : State) (t i o n : Nat) : Nat := flashRead s ((slotSpan t i).1 + o) n

/-- Every header rule but the signature's and the counter's. -/
def headerOk (s : State) (t i : Nat) : Bool :=
  let h := hdr s t i
  let len := h 0x10 8
  let cls := h 0x1B 1
  h 0 4 == 0x4D495051 && h 4 2 == t && h 6 2 == 1 && decide (h 8 4 ≤ 64) && len % 64 == 0 && decide (64 ≤ len) &&
    decide (len + 0x48 ≤ (slotSpan t i).2) && h 0x18 2 == 0x7216 && decide (h 0x1A 1 ≤ 0x11) &&
    (match t with | 1 => cls == 0 | 2 => cls == 0 | 3 => decide (cls ≤ 1) | _ => cls == 1) &&
    (t != 4 || (h 0x1C 4 == 0 && len == 0x4C00)) && h 0x20 32 == 0

/-- Key slots of a class (R465). -/
def classSlots (cls : Nat) : List Nat := if cls = 0 then [0, 1] else [2]

/-- The trailer verifies with an unrevoked key of the image's class (R465). -/
def imageSigned (s : State) (m : Mem) (cls len : Nat) : Bool :=
  match trailerLen m len with
  | none => false
  | some _ => trailerOk m 0 len len &&
      (classSlots cls).any (fun k => keySlot s k == (trailerDigest m len, 1))

/-- A valid image (R467). -/
def imageOk (s : State) (t i : Nat) : Bool :=
  headerOk s t i && decide (nth 0 s.sec.fuses.rollback (t - 1) ≤ hdr s t i 8 4) &&
    (let m := slotMem s t i
     let len := hdr s t i 0x10 8
     (match trailerLen m len with | some k => decide (len + k ≤ (slotSpan t i).2) | none => false) &&
       imageSigned s m (hdr s t i 0x1B 1) len)

/-- Valid slots of a type, the newer first; slot A where both are as new (R467). -/
def validSlots (s : State) (t : Nat) : List Nat :=
  match imageOk s t 0, imageOk s t 1 with
  | true, true => if hdr s t 0 0xC 4 < hdr s t 1 0xC 4 then [1, 0] else [0, 1]
  | true, false => [0]
  | false, true => [1]
  | false, false => []

/-- Image header and trailer key digest, as an extend takes them (R478). -/
def imageMeasure (s : State) (t i : Nat) : Nat :=
  hdr s t i 0 64 + (trailerDigest (slotMem s t i) (hdr s t i 0x10 8)) <<< 512

/-! ### Boot status (R469, R483) -/

def bootStage (s : State) : Nat := bits (rd s (wrdReg 0x40)) 0 4
def bootError (s : State) : Nat := bits (rd s (wrdReg 0x40)) 4 4

def setStage (s : State) (n : Nat) : State :=
  let v := rd s (wrdReg 0x40)
  wr s (wrdReg 0x40) (v - v % 16 + n)

/-- The slot that an image of type `t` booted from. -/
def setSlot (s : State) (t i : Nat) : State :=
  let v := rd s (wrdReg 0x40)
  let s := wr s (wrdReg 0x40) (v - fld (7 + t) 1 (bits v (7 + t) 1) + fld (7 + t) 1 i)
  modSec s (fun x => { x with running := tset s.sec.running t (i, hdr s t i 8 4) })

/-- A failure: the first is recorded in ERROR and logged (R469, R496). -/
def bootFail (s : State) (e : Nat) : State :=
  if bootError s ≠ 0 then s
  else
    let s := wr s (wrdReg 0x40) (rd s (wrdReg 0x40) + fld 4 4 e)
    logEv s 2 4 0xFF (rd s (wrdReg 0x40)) (s.sup.step0 + fld 8 8 s.sup.step1) true

/-! ### Domains -/

def setDom (s : State) (k : Nat) (x : Domain) : State :=
  match k with
  | 0 => { s with sup := { s.sup with die0 := x } }
  | 1 => { s with sup := { s.sup with die1 := x } }
  | _ => { s with sup := { s.sup with mod := x } }

def powered (s : State) : List Nat := [0, 1].filter (fun d => (domOf s d).st == 2)

/-- A sequence of power transitions is in progress (R517). -/
def powering (s : State) : Bool := (domOf s 0).st == 1 || (domOf s 1).st == 1 || (domOf s 2).st == 1

/-! ### Stages 1, 6 and 7 -/

/-- A fuse intent that power or a reset cut off is completed (R477). -/
def finishIntent (s : State) : State :=
  match s.sec.intent with
  | some (c, v) => modSec s (fun x => { x with
      fuses := { x.fuses with rollback := x.fuses.rollback.modify c (max v) }
      intent := none
      advance := [] })
  | none => s

/-- Stage 1 (R469, R477, R479): the ROM completes a fuse intent and verifies the warden, which resumes from its
records. -/
def stage1 (s : State) : State :=
  let s := modSec (wr (finishIntent s) (wrdReg 0x40) 0) (fun x => { x with idNext := x.idRes, seqMax := x.seqRes - 1 })
  match validSlots s 1 with
  | [] => bootFail s 1
  | i :: _ => extend (setStage (setSlot s 1 i) 1) 0 (imageMeasure s 1 i)

/-- Stage 7 (R469, R517): with the module-level domain on, the application boot firmware is verified and the
application cores are released. -/
def stage7 (s : State) : State :=
  if (domOf s 2).st ≠ 2 then s
  else match validSlots s 3 with
    | [] => bootFail s 8
    | i :: _ =>
      let s := extend (setStage (setSlot s 3 i) 7) 3 (imageMeasure s 3 i)
      { s with sup := { s.sup with appUp := true } }

/-- Stage 6: the module lock, once every powered die has reported complete (R473). -/
def lockIfDone (s : State) : State :=
  if s.modLock || bootError s != 0 || bootStage s < 4 || !(powered s).all s.locked.contains || powering s then s
  else stage7 (setStage { s with modLock := true } 6)

/-! ### Stages 3 and 4 -/

/-- A powered die starts its control cores, unless a trip holds it in reset (R412, R469). -/
def startDie (s : State) (d : Nat) : State :=
  let s := { s with sup := { s.sup with inReset := s.sup.inReset.filter (· != d) } }
  if tripLatched s then s else releaseDie s d

/-- Stage 4. -/
def stage4 (s : State) : State :=
  match validSlots s 2 with
  | [] => bootFail s 4
  | i :: _ =>
    let s := extend (setStage (setSlot s 2 i) 4) 1 (imageMeasure s 2 i)
    lockIfDone ((powered s).foldl startDie s)

def steppingOf (s : State) (d : Nat) : Nat := if d = 0 then s.sup.step0 else s.sup.step1

/-- The powered dies are at one stepping, B1: else the warden releases neither (R1). -/
def steppingsOk (s : State) : Bool := (powered s).all (fun d => steppingOf s d == 0x11)

/-- Stage 3 (R1). -/
def stage3 (s : State) : State := if steppingsOk s then stage4 (setStage s 3) else bootFail s 3

/-! ### Power down (R459, R514) -/

/-- Clears what a stack's memory held. -/
def loseStack (s : State) (st : Nat) : State :=
  let k := 256 * 16 * 8208 * 16
  { s with
    mem := mclear s.mem (64 * k * st) (64 * k)
    memErr := s.memErr.filter (fun e => e.1 / k != st) }

/-- A die is reset, and then loses power: the contents of its memory and scratchpads, its ports, and its link domain's
tables and operation counts (R459, R489, R514). -/
def cutDie (s : State) (d : Nat) : State :=
  let s := dieReset s d 7
  let s := (List.range 8).foldl (fun s k => loseStack s (8 * d + k)) s
  let s := { s with pods := s.pods.map (fun e => if e.1 / 128 = d then (e.1, { e.2 with spad := [], errs := [] }) else e) }
  let s := (List.range 8).foldl (fun s k => { s with ports := tdel s.ports (8 * d + k) }) s
  let s := dropRegs s (rylReg d 0) (rylReg d 0x22000) (fun o => decide (0x40 ≤ o ∧ o < 0x58) ||
    (decide (0x100 ≤ o ∧ o < 0x300) && decide (0x10 ≤ o % 0x40)))
  let s := { s with
    cntOps := s.cntOps.filter (fun e => e.1 / 2048 != d)
    locked := s.locked.filter (· != d)
    dieDown := (3 + d) :: s.dieDown.filter (· != 3 + d)
    sup := { s.sup with inReset := s.sup.inReset.filter (· != d) } }
  apcEvent s 1

/-- The module-level domain leaves state 2: the application cores stop and PERST# is low (R509). -/
def cutModule (s : State) : State :=
  let s := dropRegs s (apcReg 0) (apcReg 0x100000) (fun o => decide (0x20000 ≤ o) && o % 0x40 == 0x18)
  { s with
    dieDown := 2 :: s.dieDown.filter (· != 2)
    ringStop := []
    edgePend := []
    msi := []
    rootCfg := []
    sup := { s.sup with perst := false, appUp := false } }

/-! ### Power sequences (R515, R517) -/

/-- The next domain to be powered down or up starts. -/
def nextDomain (s : State) : State :=
  match s.sup.downQ with
  | d :: _ => setDom s d { (domOf s d) with st := 1 }
  | [] => match s.sup.upQ with
    | d :: _ => setDom s d { st := 1, rails := 0 }
    | [] => s

/-- A write of WRD_DIE_POWER takes effect: cleared domains go down in the order die 1, die 0, module, and newly set
ones come up in the order module, die 0, die 1. -/
def applyPower (s : State) (v : Nat) : State :=
  let old := rd s (wrdReg 0x2C) % 8
  let v := v % 8
  if bit old 2 && !bit v 2 && v % 4 != 0 then s
  else
    let off := [1, 0, 2].filter (fun d => bit old d && !bit v d && (domOf s d).st == 2)
    let up := [2, 0, 1].filter (fun d => bit v d && !bit old d)
    let s := off.foldl (fun s d => if d = 2 then cutModule s else cutDie s d) (wr s (wrdReg 0x2C) v)
    nextDomain { s with sup := { s.sup with downQ := off, upQ := up } }

/-- A write that arrives while a domain reads state 1 is held, and the last one acts. -/
def powerWrite (s : State) (v : Nat) : State :=
  if powering s then { s with sup := { s.sup with held := some (v % 8) } } else applyPower s v

def execWrdDiePower (r : Requester) (v : BitVec 32) (s : State) : Out :=
  .next (gate s r (wrdReg 0x2C) (fun s => powerWrite s v.toNat))

/-- A sequence has ended: a held write takes effect, or the boot that waited for it goes on. -/
def sequenceEnded (s : State) : State :=
  if powering s then s
  else
    let s := match s.sup.held with
      | some v => applyPower { s with sup := { s.sup with held := none } } v
      | none => s
    if powering s then s
    else if s.sup.booting then stage3 (setStage { s with sup := { s.sup with booting := false } } 2)
    else lockIfDone s

/-- Rails of a domain, or groups that rise together. -/
def railsOf (k : Nat) : Nat := if k = 2 then 2 else 5

def rising (s : State) (k : Nat) : Bool := s.sup.downQ.isEmpty && s.sup.upQ.head? == some k && (domOf s k).st == 1

def railGood (s : State) (k : Nat) : State :=
  if rising s k then setDom s k { (domOf s k) with rails := min (railsOf k) ((domOf s k).rails + 1) } else s

def execRailPowerGood (dom : Fin 3) (s : State) : Out := .next (railGood s dom)

/-- What a domain's arrival in state 2 brings about: a die is held in reset with its link domain on, and one that comes
up between stage 4 and the lock starts at once; the application cores of a locked module are released. -/
def domainOn (s : State) (k stepping : Nat) : State :=
  if k = 2 then
    let s := { s with dieDown := s.dieDown.filter (· != 2) }
    if s.modLock then stage7 s else s
  else
    let s := holdDie { s with
      dieDown := s.dieDown.filter (· != 3 + k)
      sup := if k = 0 then { s.sup with step0 := stepping } else { s.sup with step1 := stepping } } k
    let s := apcEvent s 1
    if 4 ≤ bootStage s ∧ !s.modLock ∧ bootError s = 0 ∧ steppingsOk s then startDie s k else s

def domainUp (s : State) (k stepping : Nat) : State :=
  if rising s k && (domOf s k).rails == railsOf k then
    let s := setDom { s with sup := { s.sup with upQ := s.sup.upQ.drop 1 } } k { (domOf s k) with st := 2 }
    sequenceEnded (nextDomain (domainOn s k stepping))
  else s

def execDomainPowerUpComplete (dom : Fin 3) (stepping : BitVec 8) (s : State) : Out := .next (domainUp s dom stepping.toNat)

/-- A rail misses its power-good time: its domain's rails are removed, and it reads state 3 (R517). -/
def railTimeout (s : State) (k : Nat) : State :=
  if rising s k && (domOf s k).rails < railsOf k then
    sequenceEnded (nextDomain (setDom { s with sup := { s.sup with upQ := s.sup.upQ.drop 1 } } k { st := 3 }))
  else s

def execRailPowerGoodTimeout (dom : Fin 3) (s : State) : Out := .next (railTimeout s dom)

def domainOff (s : State) (k : Nat) : State :=
  if s.sup.downQ.head? = some k then
    sequenceEnded (nextDomain (setDom { s with sup := { s.sup with downQ := s.sup.downQ.drop 1 } } k {}))
  else s

def execDomainPowerDownComplete (dom : Fin 3) (s : State) : Out := .next (domainOff s dom)

/-- Stage 2 (R469): OWNER_ROOT is checked, and the domains are powered as a write of 7 would. -/
def stage2 (s : State) : State :=
  if !s.sup.standby || s.sup.modReset || bootStage s != 1 || bootError s != 0 || s.sup.booting then s
  else if s.sec.fuses.owner = 0 then bootFail s 2
  else sequenceEnded (powerWrite { s with sup := { s.sup with booting := true } } 7)

def execBootStage2 (s : State) : Out := .next (stage2 s)

/-- Standby power comes up (R516). -/
def execStandbyPowerGood (smbAddr : BitVec 2) (s : State) : Out :=
  .next (if s.sup.standby then s
    else
      let s := { s with sup := { s.sup with standby := true, smb := smbAddr.toNat } }
      if s.sup.modReset then s else stage1 s)

/-- PERST# rises: the module-level domain is in state 2 and the application cores have been released (R509). -/
def execPerstRelease (s : State) : Out :=
  .next (if (domOf s 2).st = 2 ∧ s.sup.appUp then { s with sup := { s.sup with perst := true } } else s)

/-! ### The set-up record (R471, R472) -/

/-- An element of the record in a flash slot. -/
def recNat (s : State) (i o n : Nat) : Nat := flashRead s ((slotSpan 4 i).1 + o) n

def recOctets (s : State) (i p : Nat) : Nat := recNat s i (0x40 + 16 * p) 4

/-- ALLOCd: base and count of a partition's counters on a die. -/
def recAlloc (s : State) (i p d : Nat) : Nat := recNat s i (0x48 + 16 * p + 4 * d) 4

/-- Digest of a record, by a function that the spec does not name. -/
def recDigest (s : State) (i : Nat) : Nat := (Config.setupDigest (leBytes 0x4C00 (recNat s i 0 0x4C00))).toNat

/-- Two blocks of counters share one. -/
def blocksMeet (a b : Nat) : Bool :=
  decide (bits a 0 12 < bits b 0 12 + bits b 12 13 ∧ bits b 0 12 < bits a 0 12 + bits a 12 13)

/-- Counter blocks meet R321: inside the die's counters, and disjoint. -/
def allocsOk (s : State) (i d : Nat) : Bool :=
  (List.range 8).all (fun p =>
    let a := recAlloc s i p d
    decide (bits a 0 12 + bits a 12 13 ≤ 4096) && (List.range p).all (fun q => !blocksMeet a (recAlloc s i q d)))

/-- Write an entry of the region table: words 1 to 3, then word 0 (R245). -/
def writeRegion (s : State) (i r : Nat) : State :=
  let w := fun k => recNat s i (0xC00 + 32 * r + 8 * k) 8
  let s := wr (wr (wr s (regionAddr r 1) (w 1)) (regionAddr r 2) (w 2)) (regionAddr r 3) (w 3)
  regionCommit s r (w 0)

def clearTable (s : State) : State :=
  { dropRegs s (regionAddr 0 0) (regionAddr 512 0) (fun _ => false) with slabs := [] }

/-- Every entry commits, into a table that starts empty. -/
def recordRegionsOk (s : State) (i : Nat) : Bool :=
  ((List.range 512).foldl (fun (a : State × Bool) r =>
    let s := writeRegion a.1 i r
    (s, a.2 && rd s (mchReg 0 0x14) % 256 == 0)) (clearTable s, true)).2

/-- MODE of an entry is not 0, and its other attributes, from word 0. -/
def recRegion (s : State) (i r : Nat) : Nat := recNat s i (0xC00 + 32 * r) 8

def storeOk (s : State) (i p : Nat) : Bool :=
  let r := recNat s i (0x46 + 16 * p) 2
  let w := recRegion s i r
  decide (r < 512) && bits w 0 2 != 0 && bits w 7 3 == p && bit w 10

def crashAreaOk (s : State) (i : Nat) : Bool :=
  let b := recNat s i 0xC0 8
  let core := fun (r : Nat) => decide (r < 512) && bits (recRegion s i r) 0 2 != 0 && bit (recRegion s i r) 11
  core (b / 2 ^ 30) && core ((b + (2 ^ 26 - 1)) / 2 ^ 30)

def reservedOk (s : State) (i : Nat) : Bool :=
  (List.range 8).all (fun p => recNat s i (0x45 + 16 * p) 1 == 0) && recNat s i 0xD8 40 == 0 &&
    (List.range 13).all (fun k => recNat s i (0x124 + 48 * k) 12 == 0)

/-- The checks of R472. -/
def recordOk (s : State) (i : Nat) : Bool :=
  (List.range 8).all (fun p => (List.range p).all (fun q => recOctets s i p &&& recOctets s i q == 0)) &&
    (List.range 8).all (fun p => recOctets s i p == 0 ||
      ([1, 2, 4, 8].contains (recNat s i (0x44 + 16 * p) 1) && storeOk s i p)) &&
    allocsOk s i 0 && allocsOk s i 1 && decide (recNat s i 0xD4 4 ≤ 13) && reservedOk s i && crashAreaOk s i && recordRegionsOk s i

/-- The record that boot code takes: once the warden keeps a digest, the record that has it; else the newer valid one
that passes. The answer is the slot, or the error (R472, R474). -/
def chooseRecord (s : State) : Nat ⊕ Nat :=
  let v := validSlots s 4
  match s.sec.setup with
  | some dg => match v.find? (fun i => recDigest s i == dg) with
    | some i => .inl i
    | none => .inr 5
  | none =>
    if v.isEmpty then .inr 5
    else match v.find? (recordOk s) with
      | some i => .inl i
      | none => .inr 6

/-- Plate keys of the record, for slots 3 and up (R465, R471). -/
def recKeys (s : State) (i : Nat) : List (Nat × Bool) :=
  (List.range (recNat s i 0xD4 4)).map (fun k => (recNat s i (0x100 + 48 * k) 32, bit (recNat s i (0x120 + 48 * k) 4) 0))

/-! ### Retired slabs (R247) -/

def slabRetired (s : State) (st slab : Nat) : Bool :=
  bit (tget 0 s.journal (mchReg st (0x2200 + 8 * (slab / 64)))) (slab % 64)

/-- Stack of field `i` of an entry (R246). -/
def fieldStack (w0 i : Nat) : Nat :=
  match bits w0 0 2 with
  | 1 => i
  | 2 => bits w0 3 4 + i / 2
  | _ => bits w0 3 4

def setSlab (s : State) (r i v : Nat) : State :=
  let a := regionAddr r (1 + i / 7)
  let w := rd s a
  commitSlabs (wr s a (w - fld (9 * (i % 7)) 9 (bits w (9 * (i % 7)) 9) + fld (9 * (i % 7)) 9 v)) r

/-- Slabs of a stack that no mapped entry names and that are not retired. -/
def unusedSlabs (s : State) (st : Nat) : List Nat :=
  let used := (List.range 512).flatMap (fun r => (slabsOf s r (regionWord s r 0)).filter (fun x => x.1 == st))
  (List.range 512).filter (fun x => !used.contains (st, x) && !slabRetired s st x)

/-- Boot code rebuilds a region whose slab is retired, or retires the region. -/
def rebuildRegions (s : State) : State :=
  (List.range 512).foldl (fun s r =>
    let w := regionWord s r 0
    if bits w 0 2 = 0 then s
    else (List.range 16).foldl (fun s i =>
      let st := fieldStack w i
      if !slabRetired s st (slabOf s r i) then s
      else match unusedSlabs s st with
        | [] => wr s (regionAddr r 0) (rd s (regionAddr r 0) ||| 4)
        | l =>
          let (s, x) := pickOf s l
          setSlab s r i x) s) s

/-! ### Stage 5 (R469) -/

/-- The repair journal's remap entries and retired slabs, and spares for the pins listed as failing (R292, R296). -/
def restoreJournal (s : State) (d : Nat) : State :=
  let s := (List.range 8).foldl (fun s k =>
    let st := 8 * d + k
    dropRegs (dropRegs s (mchReg st 0x2100) (mchReg st 0x2240) (fun _ => false)) (mchReg st 0x4000) (mchReg st 0x8000) (fun _ => false)) s
  let s := s.journal.foldl (fun (s : State) (e : Nat × Nat) => if dieOfReg e.1 = d then wr s e.1 e.2 else s) s
  (s.pins.filter (fun p => p.1 / 8 == d)).foldl (fun s p =>
    let (st, c, pin) := p
    let a := mchReg st (0x2100 + 8 * (c / 32))
    match (List.range 4).filter (fun i => !bit (rd s a) (16 * i + 15)) with
    | [] => logEv s d 0x22 0xFF st (32 * c + pin) false
    | l =>
      let (s, i) := pickOf s l
      wr s a (rd s a + fld (16 * i) 16 (pin + fld 10 5 (c % 32) + 2 ^ 15))) s

/-- Physical slots of a die that have failed: those listed, and those that boot code found. -/
def badSlotsOf (s : State) (d : Nat) (found : List Nat) : List Nat :=
  (List.range 136).filter (fun k => found.contains k || s.sec.failed.contains (d, k))

/-- The sparing map of a die (R12, R15): a logical pod whose own slot failed takes a good spare. A map that stands since
the last module reset is locked, and a die that is powered again keeps it (R16). -/
def buildMap (s : State) (d : Nat) (bad : List Nat) : State :=
  if s.mapped.contains d then s
  else
  let s := { s with slots := s.slots.filter (fun e => e.1 / 128 != d), mapped := d :: s.mapped }
  ((List.range 128).foldl (fun (a : State × List Nat) k =>
    if bad.contains k then
      let (s, x) := pickOf a.1 a.2
      ({ s with slots := tset s.slots (128 * d + k) x }, a.2.filter (· != x))
    else a) (s, (List.range 136).filter (fun k => decide (128 ≤ k) && !bad.contains k))).1

/-- What the warden and boot code take from the record that is accepted first: its digest, keys and partitions, and the
region table of both dies. -/
def acceptRecord (s : State) (i : Nat) : State :=
  let dg := recDigest s i
  let s := setSlot s 4 i
  let s := modSec s (fun x => { x with setup := some dg, keys := recKeys s i })
  let s := (List.range 8).foldl (fun s p => modPart s p (fun x => { x with
    octets := (List.range 32).filter (fun o => bit (recOctets s i p) o)
    share := recNat s i (0x44 + 16 * p) 1 })) s
  let s := (List.range 512).foldl (fun s r => writeRegion s i r) (clearTable s)
  extend (rebuildRegions s) 4 dg

/-- The fixed slots of a word of MCH_PART_SLOTS read 0xF (R271). -/
def partSlots (n v : Nat) : Nat := if n % 8 = 7 then v % 2 ^ 28 + 0xF0000000 else v % 2 ^ 32

/-- A die's RWL registers take the record's contents. -/
def writeSetup (s : State) (i d : Nat) : State :=
  let s := (List.range 8).foldl (fun s p => wr s (synReg d (0x20 + 4 * p)) (recAlloc s i p d % 2 ^ 25)) s
  let s := wr s (rstReg d 0x18) (recNat s i 0xC0 8 &&& 0x0000FFFFFF800000)
  let s := wr s (rylReg d 0x28) (recNat s i 0xCC 4 % 4)
  let s := if d = 1 then enterEthernet s else s
  let s := wr s (rylReg d 0x2C) (recNat s i 0xD0 4 &&& 0xFFFF000F)
  (List.range 8).foldl (fun s k =>
    let st := 8 * d + k
    let s := wr s (mchReg st 0x10) (max 1024 (recNat s i 0xC8 4 % 65536))
    (List.range 32).foldl (fun s n =>
      wr s (mchReg st (0x100 + 4 * n)) (partSlots n (recNat s i (0x400 + 128 * st + 4 * n) 4))) s) s

/-- The dies stay in reset (R15, R469). -/
def holdAll (s : State) (ds : List Nat) : State := ds.foldl holdDie (resetDies s ds 7)

/-- Boot code has the record and reports complete: the die locks. A die that came up after the module lock leaves
reset (R473, R474). -/
def reportComplete (s : State) (d i : Nat) : State :=
  let s := if s.sec.setup.isNone then acceptRecord s i else s
  let s := writeSetup s i d
  let s := { s with locked := d :: s.locked.filter (· != d) }
  if s.modLock then startDie s d else lockIfDone s

/-- Stage 5 on a die. After an exhausted sparing map (error 7) the module stays out of service (R15). -/
def stage5 (s : State) (d : Nat) (found : List Nat) : State :=
  let first := !s.modLock && bootError s == 0 && decide (4 ≤ bootStage s) && dieUp s d
  let late := s.modLock && s.sup.inReset.contains d && !tripLatched s && steppingsOk s && bootError s != 7
  if (domOf s d).st ≠ 2 || s.locked.contains d || !(first || late) then s
  else
    let s := restoreJournal s d
    let bad := badSlotsOf s d found
    if 136 < 128 + bad.length then
      bootFail (holdAll (logEv s 2 3 0xFF d (136 - bad.length) true) [0, 1]) 7
    else
      let s := buildMap s d bad
      let s := if late then s else extend s 2 0
      match chooseRecord s with
      | .inl i => reportComplete s d i
      | .inr e => bootFail (if late then s else holdAll s (powered s)) e

def execBootStage5 (d : Fin 2) (good : BootReport) (s : State) : Out := .next (stage5 s d good.failedSlots)

end Sys2Proof.Machine
end

