-- ==== Sys2Proof/Machine/ModReset.lean ====
section
/-! DEFINITION. Module resets, escalations, thermal trips, the bridge, the in-charge token and the module's pins
(16 R412, 10 R268, 17 R417–R438, 18 R449–R453, 01 R18, 20 R501, 21 R509–R512). -/
namespace Sys2Proof.Machine
open Sys2Proof

/-! ### Warm module reset (R417, R430, R463, R478, R484) -/

/-- Registers that a warm module reset loses and a die reset keeps. -/
def warmLost (a : Nat) : Bool :=
  let (b, q) := blockOf a
  let r := q % 0x10000
  if isDieReg a then
    match b with
    | 1 => r == 0x10 || decide (0x100 ≤ r ∧ r < 0x180) || decide (0x2100 ≤ r)
    | 3 => decide (0x20 ≤ q ∧ q < 0x40)
    | 5 => q == 4 || q == 8 || q == 0xC
    | 6 => q == 0x18
    | _ => false
  else if isModReg a then
    match b with
    | 2 => decide (0x40 ≤ q ∧ q < 0xA0) || decide (0x1000 ≤ q)
    | 3 => !(decide (0x20000 ≤ q) && q % 0x40 == 0x18)
    | _ => false
  else false

/-- WRD_RESET_STATUS and the black box record a module reset (R437, R496). -/
def noteModReset (s : State) (last cause : Nat) : State :=
  let v := last + fld 2 4 cause
  logEv (wr s (wrdReg 0x40C) v) 2 5 0xFF v 0 (cause == 2 || cause == 3)

/-- Boot starts again at stage 4, unless the last boot stopped or still stands before it (R469). -/
def rebootWarm (s : State) : State :=
  if bootStage s < 3 then s
  else
    let v := rd s (wrdReg 0x40)
    let s := wr s (wrdReg 0x40) (3 + fld 8 1 (bits v 8 1))
    if steppingsOk s then stage4 s else bootFail s 3

def warmReset (s : State) (cause : Nat) : State :=
  let s := (List.range 8).foldl (emptySlots · [0, 1]) (resetDies s [0, 1] 7)
  let s := { s with
    regs := s.regs.filter (fun e => !warmLost e.1)
    shadow := s.shadow.filter (fun e => !isModReg e.1)
    parts := []
    slots := []
    mapped := []
    locked := []
    modLock := false
    modReq := none
    dieReq := []
    ringStop := []
    edgePend := []
    msi := []
    rootCfg := []
    sec := { s.sec with
      meas := (s.sec.meas.take 1) ++ List.replicate 7 0
      mext := s.sec.mext.filter (fun e => e.1 == 0)
      keys := []
      setup := none
      running := s.sec.running.filter (fun e => e.1 == 1) }
    sup := { s.sup with perst := false, appUp := false } }
  rebootWarm (noteModReset ((powered s).foldl holdDie s) 1 cause)

/-! ### Cold module reset (R417, R501, R509–R512) -/

/-- A flash operation that is cut off leaves its bytes open. -/
def loseFlash (s : State) (a n : Nat) : State :=
  modSec (nextFree s) (fun x => { x with flash := mput x.flash a (leBytes n (Config.free (8 * n) s.freeCtr).toNat) })

/-- Bytes that an operation of flash covers: an erase 64 KiB, a program 4 KiB (R483). -/
def flashBlock (op : Nat) : Nat := if op = 1 then 0x10000 else if op = 2 then 0x1000 else 0

/-- The operation in progress is cut off. -/
def cutFlash (s : State) : State :=
  match s.sec.flashOp with
  | some (op, a) => if op = 1 ∨ op = 2 then loseFlash s a (flashBlock op) else s
  | none => s

/-- The module with power off: what flash and fuses hold, and what the model keeps of the world outside. -/
def bareState (s : State) : State :=
  let s := cutFlash s
  { pending := s.pending
    out := s.out
    freeCtr := s.freeCtr
    now := s.now
    journal := s.journal
    pins := s.pins
    podUes := s.podUes
    sec := {
      fuses := s.sec.fuses
      flash := s.sec.flash
      idRes := s.sec.idRes
      seqRes := s.sec.seqRes
      intent := s.sec.intent
      newKey := s.sec.newKey
      failed := s.sec.failed }
    sup := { modReset := s.sup.modReset, smb := s.sup.smb } }

/-- Everything but the standby supply and the black box starts again, and stage 1 follows unless MOD_RESET# holds it. -/
def coldReset (s : State) (cause : Nat) : State :=
  let b := bareState s
  let s := { b with
    colds := s.colds + 1
    bbx := s.bbx
    regs := s.regs.filter (fun e => decide (bbxReg 0 ≤ e.1 ∧ e.1 < bbxReg 0x100000))
    sup := { b.sup with standby := true } }
  let s := noteModReset s 2 cause
  if s.sup.modReset then s else stage1 s

/-- A condition outside the dies resets the module while standby power is present. -/
def coldBy (s : State) (cause : Nat) : State := if s.sup.standby then coldReset s cause else s

def execRefclkLost (s : State) : Out := .next (coldBy s 0)
def execInputVoltageFault (s : State) : Out := .next (coldBy s 0)

/-- MOD_RESET# has been low for 250 samples; while it stays low the warden stays at the start of stage 1 (R509). -/
def execModResetAsserted (s : State) : Out :=
  .next (if s.sup.modReset then s else coldBy { s with sup := { s.sup with modReset := true } } 4)

def execModResetReleased (s : State) : Out :=
  .next (if s.sup.modReset then
    let s := { s with sup := { s.sup with modReset := false } }
    if s.sup.standby then stage1 s else s
  else s)

/-- Standby power fails: the black box empties too (R501, R512). -/
def execStandbyPowerLost (s : State) : Out := .next (if s.sup.standby then bareState s else s)

/-! ### Requests and escalations (R420, R430–R432, R437) -/

/-- A module reset is requested from the warden; a smaller one merges into one that waits. -/
def askModule (s : State) (op cause : Nat) : State :=
  match s.modReq with
  | some (o, _) => if o < op then { s with modReq := some (op, cause) } else s
  | none => { s with modReq := some (op, cause) }

/-- WRD_RESET_CMD: any other key or OP is discarded. -/
def resetCmd (s : State) (v : Nat) : State :=
  if bits v 0 16 = 0x5A17 ∧ (bits v 16 2 = 1 ∨ bits v 16 2 = 2) then askModule s (bits v 16 2) 1 else s

def execWrdResetCmdWarm (r : Requester) (v : BitVec 32) (s : State) : Out :=
  .next (gate s r (wrdReg 0x408) (fun s => if bits v.toNat 16 2 = 1 then resetCmd s v.toNat else s))
def execWrdResetCmdCold (r : Requester) (v : BitVec 32) (s : State) : Out :=
  .next (gate s r (wrdReg 0x408) (fun s => if bits v.toNat 16 2 = 2 then resetCmd s v.toNat else s))

/-- A die that the warden is resetting: powered, and held by neither the boot nor a trip. -/
def resetting (s : State) (d : Nat) : Bool :=
  (domOf s d).st == 2 && !dieUp s d && !s.sup.inReset.contains d && !tripLatched s

/-- The larger reset has taken over on a die: its event, its count and the black box say so (R430). -/
def noteEscalated (s : State) (d k stage : Nat) : State :=
  logEv (bump (rstEvent s d 2) (rstReg d 0xD0) 1) d 0x12 0xFF k stage false

/-- A warm module reset: the one requested, or one that takes over a die reset that missed its deadline. -/
def warmEvent (s : State) : State :=
  match s.modReq with
  | some (1, cause) => warmReset s cause
  | some _ => s
  | none =>
    match [0, 1].filter (resetting s) with
    | [] => s
    | ds =>
      let stage := (Config.free 64 s.freeCtr).toNat
      ds.foldl (fun s d => noteEscalated s d 4 stage) (warmReset (nextFree s) 3)

def execWarmModuleReset (s : State) : Out := .next (if s.sup.standby then warmEvent s else s)

/-- A warm module reset whose boot code has not reported complete. -/
def warmInProgress (s : State) : Bool := bits (rd s (wrdReg 0x40C)) 0 2 == 1 && !s.modLock

/-- A cold module reset: the one requested, or one that takes over a warm reset that missed its deadline. -/
def coldEvent (s : State) : State :=
  match s.modReq with
  | some (2, cause) => coldReset s cause
  | _ =>
    if warmInProgress s then
      let stage := (Config.free 64 s.freeCtr).toNat
      coldReset (logEv (nextFree s) 2 0x12 0xFF 5 stage false) 3
    else s

def execColdModuleReset (s : State) : Out := .next (if s.sup.standby then coldEvent s else s)

/-- A pod whose reset escalates puts its slot on the failed-slot list (R393). -/
def listSlot (s : State) (g : Nat) : State :=
  let f := (g / 128, slotOf s g)
  if s.sec.failed.contains f then s else modSec s (fun x => { x with failed := s.sec.failed ++ [f] })

/-- A partition reset misses its deadline. Which stage was late, and on which die or in which pod, is open: stage 5 is
late in one pod, the others on any of the dies that the partition has (R430, R431). -/
def deadlineMissed (s : State) (p : Nat) : State :=
  match (part s p).resetReq with
  | none => s
  | some r =>
    let ds := (partDies s p).filter (dieUp s)
    if ds.isEmpty then s
    else
      let pods := (podsOf s p).filter (fun g => dieUp s (g / 128))
      let (s, stage) := pickOf s (if pods.isEmpty then [1, 4, 6] else [1, 4, 5, 6])
      let (s, g) := pickOf s pods
      let (s, who) := pickOf s (if ds.length = 2 then [0, 1, 2] else [0])
      let late := if stage = 5 then [g / 128] else match who with | 0 => ds.take 1 | 1 => ds.drop 1 | _ => ds
      let s := if stage = 5 then listSlot s g else s
      let s := runReset s p r (upDies s) none
      let s := resetDies s late 8
      late.foldl (fun s d => noteEscalated s d (if stage = 5 then 1 else 3) stage) s

def execResetDeadlineMissed (p : Fin 8) (s : State) : Out := .next (deadlineMissed s p)

/-! ### Thermal trips (R268, R412) -/

/-- Hottest reading that any sensor has given. -/
def hottest (s : State) : Nat := (s.stks.map (fun (e : Nat × Stack) => e.2.temp)).foldl max (max (dieHottest s 0) (dieHottest s 1))

/-- A trip: both dies go into reset, and the black box takes a fatal event. -/
def trip (s : State) (src unit die reading : Nat) : State :=
  let top := max reading (hottest s)
  let s := resetDies s [0, 1] 7
  let v := 1 + fld 1 2 src + fld 3 5 unit + fld 8 1 die + fld 9 12 top
  logEv (wr s (wrdReg 0x400) v) 2 1 0xFF v reading true

/-- A reading at or above a threshold: the one stored, or one that the command does not give. -/
def readingOf (s : State) (stored least : Nat) : State × Nat :=
  if least ≤ stored then (s, stored) else (nextFree s, (Config.free 12 s.freeCtr).toNat)

def stackTrip (s : State) (st : Nat) : State :=
  if !s.sup.standby || tripLatched s then s
  else
    let (s, t) := readingOf s (stk s st).temp 440
    let s := trip s 0 st (st / 8) t
    modStk (setBits s (mchReg st 8) 8) st (fun x => { x with level := 4 })

def execStackThermalTrip (st : Fin 16) (s : State) : Out := .next (stackTrip s st)

/-- The sensor of a die trip: an octet's, where its reading has reached 105 °C; else it is open. -/
def tripSensor (s : State) (d : Nat) : State × Nat × Nat :=
  match (List.range 17).find? (fun o => decide (420 ≤ tget 0 s.pws.temps (17 * d + o)) &&
      tget 0 s.pws.temps (17 * d + o) == dieHottest s d) with
  | some o => (s, 1, o)
  | none =>
    let (s, src) := pickOf s [1, 2]
    let (s, o) := pickOf s (List.range 17)
    if src = 1 then (s, 1, o) else (nextFree s, 2, (Config.free 5 s.freeCtr).toNat)

def dieTrip (s : State) (d : Nat) : State :=
  if !s.sup.standby || tripLatched s then s
  else
    let (s, t) := readingOf s (dieHottest s d) 420
    let (s, src, u) := tripSensor s d
    trip s src u d t

def execDieThermalTrip (d : Fin 2) (s : State) : Out := .next (dieTrip s d)

/-- The warden's poll of every sensor while a trip is latched. -/
def tripPoll (s : State) (t : Nat) : State :=
  let v := rd s (wrdReg 0x400)
  if tripLatched s then wr s (wrdReg 0x400) (v - fld 9 12 (bits v 9 12) + fld 9 12 t) else s

def execTripSensorPoll (hottest : BitVec 12) (s : State) : Out := .next (tripPoll s hottest.toNat)

/-- RESULT of the last clear. -/
def tripResult (v r : Nat) : Nat := v - fld 21 2 (bits v 21 2) + fld 21 2 r

/-- The release: with every reading at or below 80 °C, the dies leave reset. -/
def tripClear (s : State) (v : Nat) : State :=
  let w := rd s (wrdReg 0x400)
  if bits v 0 16 ≠ 0x7A1E ∨ !tripLatched s then s
  else if 320 < bits w 9 12 then wr s (wrdReg 0x400) (tripResult w 2)
  else
    let s := wr s (wrdReg 0x400) (tripResult w 1 - 1)
    let s := (List.range 16).foldl (fun s st =>
      modStk (clrBits s (mchReg st 8) 8) st (fun x => if x.level = 4 then { x with level := 0 } else x)) s
    [0, 1].foldl (fun s d => if s.sup.inReset.contains d then s else releaseDie s d) s

def execWrdTripClear (r : Requester) (v : BitVec 32) (s : State) : Out :=
  .next (gate s r (wrdReg 0x404) (fun s => tripClear s v.toNat))

/-! ### The bridge (R18) -/

/-- A bridge error that its code cannot correct: the data are poisoned, in memory where the address lies there, and a
warm module reset is requested. Which way the transfer went is open. -/
def bridgeError (s : State) (a : Nat) : State :=
  let s := match locate s a with | some l => poisonGranule s l | none => s
  let (s, way) := pickOf s [0, 1]
  askModule (logEv s 2 2 0xFF way a true) 1 2

def execBridgeUncorrectableError (addr : BitVec 48) (s : State) : Out :=
  .next (if s.sup.standby then bridgeError s addr.toNat else s)

/-! ### Heartbeats and the in-charge token (R449–R453) -/

/-- A heartbeat restarts its die's watchdog. -/
def heartbeat (s : State) (d : Nat) : State := { s with silent := s.silent.filter (· != d) }

def execWrdHeartbeat (r : Requester) (d : Fin 2) (_v : BitVec 32) (s : State) : Out :=
  .next (gate s r (wrdReg (0x20 + 4 * d)) (fun s => heartbeat s d))

/-- A die's watchdog expires. -/
def fwSilent (s : State) (d : Nat) : State :=
  if !s.sup.standby || s.silent.contains d then s
  else
    let s := setBits { s with silent := d :: s.silent } (wrdReg 0x18) (2 ^ (1 + d))
    takeToken (logEv (apcEvent s 4) 2 0x51 0xFF d 0 false) d

def execFwSilent (d : Fin 2) (s : State) : Out := .next (fwSilent s d)

/-- The compare-and-swap of die `d`'s control cores. -/
def tokenCas (s : State) (d v : Nat) : State :=
  let t := rd s (wrdReg 0)
  let new := bits v 2 2
  if bits v 0 2 = bits t 0 2 ∧ bits v 32 32 = bits t 32 32 ∧ (new = 0 ∨ new = d + 1) then
    let s := setBits (wr s (wrdReg 0) (new + fld 32 32 (bits t 32 32 + 1))) (wrdReg 0x18) 8
    let s := if new = bits t 0 2 then s else apcEvent s 2
    wr s (wrdReg (0x10 + 4 * d)) (1 + 4 * new)
  else wr s (wrdReg (0x10 + 4 * d)) (2 + 4 * bits t 0 2)

/-- Only a control core's write acts, for its own die (R447). -/
def casBy (s : State) (r : Requester) (v : Nat) : State :=
  match r with
  | .control d => tokenCas s d v
  | _ => s

def execWrdTokenCas (r : Requester) (v : BitVec 64) (s : State) : Out :=
  .next (gate s r (wrdReg 8) (fun s => casBy s r v.toNat))

/-- Firmware of a die that believes it holds the token at `epoch` meets a record that differs: it becomes a follower
and says so. -/
def conflict (s : State) (d epoch : Nat) : State :=
  let t := rd s (wrdReg 0)
  if !dieUp s d || (bits t 0 2 == d + 1 && bits t 32 32 == epoch) then s
  else logEv (setBits s (wrdReg 0x18) 1) d 0x50 0xFF epoch (bits t 32 32) false

def execOwnershipConflict (d : Fin 2) (epoch : BitVec 32) (s : State) : Out := .next (conflict s d epoch.toNat)

end Sys2Proof.Machine
end

