-- ==== Sys2Proof/Machine/Sec.lean ====
section
/-! DEFINITION. The SEC block's commands: anti-rollback counters, measurements, quotes, the management key and the
flash (19_boot_security.md R468, R476–R483). -/
namespace Sys2Proof.Machine
open Sys2Proof

/-- Words of 64 bits at a register, as one number. -/
def wordsAt (s : State) (a n : Nat) : Nat := foldNat n (fun i v => v + rd s (a + 8 * i) <<< (64 * i)) 0

/-- Store a number in 64-bit registers. -/
def putWords (s : State) (a n v : Nat) : State := foldNat n (fun i s => wr s (a + 8 * i) (bits v (64 * i) 64)) s

def setResult (s : State) (a v : Nat) : State := wr s a (256 * v)

/-! ### Anti-rollback counters (R476, R477) -/

/-- The largest value that a counter may take: 64, or the version of the image that is running. -/
def rollbackLimit (s : State) (c : Nat) : Nat := if c = 4 then 64 else (tget (0, 0) s.sec.running (c + 1)).2

/-- SEC_ROLLBACK_CMD: an advance is accepted, and its intent written to flash; a value above the limit records REFUSED,
in a status register that the spec does not name. -/
def rollbackCmd (s : State) (v : Nat) : State :=
  let c := bits v 0 3
  let x := bits v 3 7
  if 5 ≤ c then s
  else if rollbackLimit s c < x then
    let (s, a) := pickOf s [secReg 0x28, secReg 0x808]
    setResult s a 2
  else if x ≤ nth 0 s.sec.fuses.rollback c then s
  else
    let q := s.sec.advance ++ [(c, x)]
    modSec s (fun x => { x with advance := q, intent := q.head? })

def execSecRollbackCmd (r : Requester) (v : BitVec 32) (s : State) : Out :=
  .next (gate s r (secReg 0x10) (fun s => rollbackCmd s v.toNat))

/-- A READY staged plate whose version is now below the counter goes to REFUSED with ROLLBACK. -/
def refuseStale (s : State) (p : Nat) : State :=
  let x := part s p
  if x.staged = 3 ∧ mread x.stagedImg 0x1C 4 < nth 0 s.sec.fuses.rollback 4 then
    let s := modPart (countTable s x.stagedDescs false) p (fun x => { x with stagedDescs := [] })
    refuseLoad s p ⟨10, 0xFF, 0⟩
  else s

/-- The counter's bits are blown and the intent is erased. -/
def advanceDone (s : State) : State :=
  match s.sec.advance with
  | [] => s
  | (c, x) :: q =>
    let s := modSec s (fun y => { y with
      advance := q
      intent := q.head?
      fuses := { y.fuses with rollback := y.fuses.rollback.modify c (max x) } })
    if c = 4 then (List.range 8).foldl refuseStale s else s

def execFuseAdvanceComplete (s : State) : Out := .next (advanceDone s)

/-! ### Measurements and quotes (R478–R480) -/

/-- SEC_MEASURE_EXTEND: M5 from the application cores, M7 from the management path. -/
def measureExtend (s : State) (r : Requester) (v : Nat) : State :=
  let j := bits v 0 3
  if (j = 5 ∧ r = .app) ∨ (j = 7 ∧ r = .mgmt) then extend s j (wordsAt s (secReg 0x60) 4) else s

def execSecMeasureExtend (r : Requester) (v : BitVec 32) (s : State) : Out :=
  .next (gate s r (secReg 0x2C) (fun s => measureExtend s r v.toNat))

/-- Bytes 0x000 to 0x15F of a quote. -/
def quoteBody (s : State) : Nat :=
  let m := foldNat 8 (fun j v => v + (nth 0 s.sec.meas j % 2 ^ 256) <<< (256 * j)) 0
  fld 0 32 0x544F5551 + fld 32 16 1 + fld 48 16 0x7216 + fld 64 8 0x11 + fld 72 8 (secLock s) + fld 128 64 s.sec.fuses.serial +
    fld 192 64 s.sec.idNext + fld 256 256 (wordsAt s (secReg 0x40) 4) + fld 512 64 (rollbackWord s) +
    fld 576 32 (keyState s) + m <<< 768

/-- QUOTE: the measurements are read now; a command that meets a running quote records BUSY. -/
def quoteCmd (s : State) (v : Nat) : State :=
  if !bit v 0 then s
  else if s.sec.quote.isSome then setResult s (secReg 0x28) 1
  else modSec s (fun x => { x with quote := some (quoteBody s) })

def execQuote (r : Requester) (v : BitVec 32) (s : State) : Out :=
  .next (gate s r (secReg 0x24) (fun s => quoteCmd s v.toNat))

/-- Whether a flash write succeeds is open. -/
def flashWrites (s : State) : State × Bool :=
  let (s, k) := pickOf s [0, 1]
  (s, k == 0)

/-- The block of 64 indices that the next signature opens is reserved first (R479): false where the flash write fails. -/
def reserveIndex (s : State) : State × Bool :=
  if s.sec.idNext < s.sec.idRes then (s, true)
  else
    let (s, ok) := flashWrites s
    (if ok then modSec s (fun x => { x with idRes := (s.sec.idNext / 64 + 1) * 64 }) else s, ok)

/-- 32 bytes of the identity seed: 0 SK_SEED, 1 SK_PRF, 2 PUB_SEED. -/
def idSeed (s : State) (k : Nat) : List Byte := leBytes 32 (bits s.sec.fuses.idSeed (256 * k) 256)

/-- The quote of body `b`, signed with the next index, fills SEC_QUOTE_BUF. -/
def signQuote (s : State) (b : Nat) : State :=
  let sig := ofLE (xmssSign (idSeed s 0) (idSeed s 1) (idSeed s 2) s.sec.idNext (leBytes 0x160 b))
  let s := putWords s (secReg 0x2000) 397 (b + sig <<< (8 * 0x160))
  setResult (modSec s (fun x => { x with idNext := x.idNext + 1 })) (secReg 0x28) 0

/-- Extends that waited for the quote are made, in order. -/
def runExtends (s : State) : State :=
  s.sec.mext.foldl (fun s e => extendMeas s e.1 e.2) (modSec s (fun x => { x with mext := [] }))

def quoteDone (s : State) : State :=
  match s.sec.quote with
  | none => s
  | some b =>
    let s := modSec s (fun x => { x with quote := none })
    let s :=
      if 2 ^ 20 ≤ s.sec.idNext then setResult s (secReg 0x28) 4
      else
        let (s, ok) := reserveIndex s
        if ok then signQuote s b else setResult s (secReg 0x28) 3
    runExtends s

def execQuoteComplete (s : State) : Out := .next (quoteDone s)

/-! ### The management key (R481) -/

def mgmtKey (s : State) : Nat := s.sec.newKey.getD s.sec.fuses.mgmtKey0

/-- What a new key is XORed with: KMAC256 under the current key over the SEQ of the request that carried it. -/
def keyMask (s : State) : Nat :=
  ofLE (kmac256 (leBytes 32 (mgmtKey s)) (asciiBytes "QMKEY") (leBytes 8 s.sec.keySeq))

/-- COMMIT: the key staged is stored and in force for every later request, unless its flash write fails. FLASH is
recorded in a status register that the spec does not name. -/
def commitKey (s : State) (v : Nat) : State :=
  if !bit v 0 then s
  else
    let k := wordsAt s (secReg 0x80) 4 ^^^ keyMask s
    let (s, ok) := flashWrites s
    if ok then modSec s (fun x => { x with newKey := some k })
    else
      let (s, a) := pickOf s [secReg 0x28, secReg 0x808]
      setResult s a 3

def execCommit (r : Requester) (v : BitVec 32) (s : State) : Out :=
  .next (gate s r (secReg 0x30) (fun s => commitKey s v.toNat))

/-! ### Flash commands (R468, R483) -/

def flashSize (op : Nat) : Nat := if op = 1 then 0x10000 else 0x1000

/-- Two spans of the flash share a byte. -/
def flashMeet (a n b m : Nat) : Bool := decide (a < b + m ∧ b < a + n)

/-- A span of the flash that a command may not name: a record area, or for an erase or program the running slot of a
type. -/
def flashRefused (s : State) (op a : Nat) : Bool :=
  let n := flashSize op
  flashMeet a n 0x2A80000 0x140000 || (op != 3 && a % n != 0) ||
    (op != 3 && [1, 2, 3, 4].any (fun t => match tfind s.sec.running t with
      | some (i, _) => flashMeet a n (slotSpan t i).1 (slotSpan t i).2
      | none => false))

/-- SEC_FLASH_CMD. What a span that ends past the flash records is open. -/
def flashCmd (s : State) (op : Nat) : State :=
  let a := rd s (secReg 0x800)
  if op = 0 then s
  else if s.sec.flashOp.isSome then setResult s (secReg 0x808) 1
  else if flashRefused s op a then setResult s (secReg 0x808) 2
  else if 0x4000000 < a + flashSize op then setResult (nextFree s) (secReg 0x808) (Config.free 8 s.freeCtr).toNat
  else modSec s (fun x => { x with flashOp := some (op, a) })

def execFlashErase (r : Requester) (s : State) : Out := .next (gate s r (secReg 0x804) (fun s => flashCmd s 1))
def execFlashProgram (r : Requester) (s : State) : Out := .next (gate s r (secReg 0x804) (fun s => flashCmd s 2))
def execFlashRead (r : Requester) (s : State) : Out := .next (gate s r (secReg 0x804) (fun s => flashCmd s 3))

/-- What a flash operation does: an erase leaves ones, a program clears the bits that its buffer has clear, a read fills
the buffer (R468, R483). -/
def flashEffect (s : State) (op a : Nat) : State :=
  let n := flashBlock op
  if op = 1 then modSec s (fun x => { x with flash := mclear x.flash a n })
  else if op = 2 then
    let clear := 2 ^ (8 * n) - 1 - wordsAt s (secReg 0x1000) 512
    modSec s (fun x => { x with flash := mwrite n x.flash a (mread x.flash a n ||| clear) })
  else putWords s (secReg 0x1000) 512 (flashRead s a 0x1000)

/-- A flash operation completes, or fails with its bytes left open. -/
def flashDone (s : State) : State :=
  match s.sec.flashOp with
  | none => s
  | some (op, a) =>
    let r := if op = 3 then (s, true) else flashWrites s
    let t := if r.2 then flashEffect r.1 op a else cutFlash r.1
    setResult (modSec t (fun x => { x with flashOp := none })) (secReg 0x808) (if r.2 then 0 else 3)

def execFlashOperationComplete (s : State) : Out := .next (flashDone s)

end Sys2Proof.Machine
end

