-- ==== Sys2Proof/Machine/RegWrite.lean ====
section
/-! DEFINITION. Register writes: what a write of each register's whole value does, the half writes of 64-bit registers,
rights, locks and bus errors (00_scope.md R6–R10, 01 R28, 18 R447, and the field tables of every map). -/
namespace Sys2Proof.Machine
open Sys2Proof

/-! ### Writes of a whole value, by block -/

/-- A pod's registers (R86, R132, R168, R293). -/
def podPut (s : State) (a v : Nat) : State :=
  match a % 0x10000 with
  | 0x204 => wr s a v
  | 0x404 => if v % 4 = 3 then s else wr s a (v % 4)
  | 0x408 => clrBits s a v
  | 0x604 => wr s a (v % 128)
  | 0x608 => clrBits s a v
  | 0x60C => clrBits s a v
  | 0xA1C => wr s a (podFlipCtrl v)
  | _ => s

/-- CPY_CH_CMD: other values of OP are no command (R239). -/
def chCmd (s : State) (d n op : Nat) : State :=
  match op with
  | 1 => chAbort s d n
  | 2 => chDisable s d n
  | 3 => chResume s d n
  | _ => s

/-- Copy registers of a die (R238, R239). -/
def cpyPut (s : State) (d q v : Nat) : State :=
  let a := cpyReg d q
  if 0x1000 ≤ q then
    let n := (q - 0x1000) / 0x100
    match q % 0x100 with
    | 4 => chOwner s d n v
    | 8 => chEnq s d n v
    | 0x10 => chCmd s d n (v % 4)
    | 0x14 => clrBits s a v
    | 0x18 => wr s a v
    | 0x20 => wr s a v
    | 0x24 => ringTail s d n v
    | 0x2C => wr s a (v % 64)
    | _ => s
  else match q with
    | 8 => wr s a v
    | 0x10 => wr s a v
    | 0x18 => rangeCmd s d (v % 128)
    | 0x28 => wr s a v
    | 0x30 => descCmd s d (v &&& 0x0FFF001F)
    | 0x38 => wr s a v
    | _ => s

/-- MCH_CE_BUCKET: a 0 in either field stores 1, and the level goes to 0 (R288, R295). -/
def bucketPut (s : State) (st v : Nat) : State :=
  modStk (wr s (mchReg st 0x2008) (max 1 (bits v 0 16) + 65536 * max 1 (bits v 16 16))) st (fun x => { x with bucket := 0 })

/-- A stack's registers that are not RWL (R271, R295). -/
def mchPut (s : State) (st q v : Nat) : State :=
  let a := mchReg st q
  match q with
  | 8 => clrBits s a v
  | 0xC => wr s a (v % 32)
  | 0x2000 => clrBits s a v
  | 0x2004 => wr s a (v % 32)
  | 0x2008 => bucketPut s st v
  | 0x200C => wr s a (bits v 0 16 + 65536 * max 1 (bits v 16 12))
  | 0x2018 => wr s a (flipCtrl v)
  | _ => s

/-- The RWL registers of a stack (R244, R245, R271, R294, R295). -/
def mchLocked (s : State) (st q v : Nat) : State :=
  let a := mchReg st q
  if q = 0x10 then wr s a (max 1024 (v % 65536))
  else if q < 0x180 then wr s a (partSlots ((q - 0x100) / 4) v)
  else if q < 0x2200 then wr s a (v &&& 0xFC1FFC1FFC1FFC1F)
  else if q < 0x4000 then wr s a v
  else if q < 0x8000 then wr s a ((v &&& 0x1FFFFFF7) + fld 3 1 (bits (rd s a) 3 1))
  else
    let r := (q - 0x8000) / 32
    match q / 8 % 4 with
    | 0 => regionCommit s r v
    | w => wr s (regionAddr r w) v

/-- Sync registers but for the RWL ones (R346, R347). -/
def synPut (s : State) (d q v : Nat) : State :=
  let a := synReg d q
  if 0x40 ≤ q ∧ q < 0x60 then wr s a (max 100 v)
  else match q with
    | 8 => clrBits s a v
    | 0xC => wr s a (v % 32)
    | 0x10 => synSignal s d v
    | 0x60 => wr s a (max 1 v)
    | _ => s

/-- RYL_PART_CMD: other values of OP are discarded (R376). -/
def partCmd (s : State) (d v : Nat) : State :=
  match v % 4 with
  | 1 => continuePart s d (bits v 2 3)
  | 2 => abandonPart s d (bits v 2 3)
  | _ => s

/-- Link registers but for the RWL ones (R375, R376). -/
def rylPut (s : State) (d q v : Nat) : State :=
  let a := rylReg d q
  if 0x10000 ≤ q then wr s a v
  else if 0x100 ≤ q then
    if q % 0x40 = 4 then
      match v % 4 with
      | 1 => portTrain s (8 * d + (q - 0x100) / 0x40)
      | 2 => portDown s (8 * d + (q - 0x100) / 0x40)
      | _ => s
    else s
  else match q with
    | 8 => writeModuleId s v
    | 0xC => wr s a (max 1 (min 8 (v % 16)))
    | 0x10 => clrBits s a v
    | 0x14 => wr s a (v % 16)
    | 0x1C => partCmd s d v
    | 0x20 => spareSteer s d 0 v
    | 0x24 => spareSteer s d 1 v
    | _ => s

/-- Power registers (R403, R414, R415); die 1's caps mirror die 0's. -/
def pwsPut (s : State) (d q v : Nat) : State :=
  match q with
  | 4 => if d = 0 then wr s (pwsReg 0 4) (clampCap v) else s
  | 8 => if d = 0 then wr s (pwsReg 0 8) (clampCap v) else s
  | 0x10 => clrBits s (pwsReg d q) v
  | 0x14 => wr s (pwsReg d q) (v % 256)
  | _ => s

/-- RST_CMD: other values of OP are discarded (R437). -/
def rstCmd (s : State) (d v : Nat) : State :=
  match v % 8 with
  | 1 => podCmd s d v resetPod
  | 2 => podCmd s d v resetHatch
  | 3 => askReset s d (bits v 3 3) ⟨5, 0, 0⟩
  | 4 => askDie s d
  | _ => s

/-- Reset registers but for the RWL one (R436, R437). -/
def rstPut (s : State) (d q v : Nat) : State :=
  let a := rstReg d q
  if 0x60 ≤ q ∧ q < 0x80 then (if bit v 0 then crashAck s ((q - 0x60) / 4) else s)
  else if 0x20 ≤ q ∧ q < 0x60 then wr s a (bits v 0 16 + 65536 * min 512 (bits v 16 10))
  else match q with
    | 4 => rstCmd s d v
    | 8 => clrBits s a v
    | 0xC => wr s a (v % 32)
    | 0x10 => wr s a (max 1 (v % 65536))
    | 0x14 => wr s a v
    | _ => s

/-- Sampling counters (R490, R491). -/
def cntPut (s : State) (d q v : Nat) : State :=
  if q = 4 then cntFold s d (v % 16)
  else if 0x100 ≤ q ∧ q < 0x140 then
    let n := (q - 0x100) / 4
    wr (wr (wr s (cntReg d (0x200 + 8 * n)) 0) (cntReg d (0x300 + 8 * n)) 0) (cntReg d q) (sampleCfg v)
  else s

/-- Warden registers (R412, R437, R451, R459, R461). -/
def wrdPut (s : State) (r : Requester) (q v : Nat) : State :=
  match q with
  | 8 => casBy s r v
  | 0x18 => clrBits s (wrdReg q) v
  | 0x1C => wr s (wrdReg q) (v % 32)
  | 0x20 => heartbeat s 0
  | 0x24 => heartbeat s 1
  | 0x28 => wr s (wrdReg q) (max 20 (v % 65536))
  | 0x2C => powerWrite s v
  | 0x404 => tripClear s v
  | 0x408 => resetCmd s v
  | _ => s

/-- SEC registers (R482, R483). -/
def secPut (s : State) (r : Requester) (q v : Nat) : State :=
  let a := secReg q
  if 0x80 ≤ q ∧ q < 0xA0 then wr (modSec s (fun x => { x with keySeq := x.seqMax })) a v
  else if (0x40 ≤ q ∧ q < 0x80) ∨ (0x1000 ≤ q ∧ q < 0x2000) then wr s a v
  else match q with
    | 0x10 => rollbackCmd s v
    | 0x24 => quoteCmd s v
    | 0x2C => measureExtend s r v
    | 0x30 => commitKey s v
    | 0x800 => wr s a v
    | 0x804 => flashCmd s (v % 4)
    | _ => s

/-- APC_PLT_CMD (R60). -/
def pltCmd (s : State) (p v : Nat) : State :=
  match v % 16 with
  | 1 => loadCmd s p (bit v 8)
  | 2 => activateCmd s p
  | 3 => retireCmd s p
  | 4 => discardCmd s p
  | 5 => abortCmd s p
  | op => badCommand s p op

/-- APC registers (R59, R460, R462). -/
def apcPut (s : State) (r : Requester) (q v : Nat) : State :=
  let a := apcReg q
  if 0x10100 ≤ q ∧ q < 0x10900 then
    let p := (q - 0x10100) / 0x100
    match q % 0x100 with
    | 0 => wr s a v
    | 8 => wr s a v
    | 0x10 => wr s a v
    | 0x18 => wr s a v
    | 0x1C => pltCmd s p v
    | 0x24 => clrBits s a v
    | 0x40 => wr s a v
    | 0x50 => permitWrite s r p v
    | 0x58 => wr s a v
    | _ => s
  else if 0x20000 ≤ q ∧ q < 0x20100 then
    match q % 0x40 with
    | 0 => wr s a v
    | 8 => if 6 ≤ v % 32 ∧ v % 32 ≤ 16 then wr s a (v % 32) else s
    | 0x10 => wr s a v
    | _ => s
  else match q with
    | 8 => clrBits s a v
    | 0xC => wr s a (v % 8)
    | _ => s

/-- BBX_CTRL (R499). -/
def bbxPut (s : State) (r : Requester) (q v : Nat) : State :=
  if q = 4 then (if bits v 16 16 = 0x6C31 then bbxUnfreeze s (requesterCode r) v else bbxFreeze s v) else s

/-! ### The whole map -/

/-- RWL registers (R8). -/
def isRwl (a : Nat) : Bool :=
  let (b, q) := blockOf a
  let r := q % 0x10000
  isDieReg a &&
    (match b with
     | 1 => r == 0x10 || decide (0x100 ≤ r ∧ r < 0x180) || decide (0x2100 ≤ r)
     | 3 => decide (0x20 ≤ q ∧ q < 0x40)
     | 4 => q == 0x28 || q == 0x2C
     | 6 => q == 0x18
     | _ => false)

/-- A write of an unlocked RWL register. -/
def putLocked (s : State) (a v : Nat) : State :=
  let (b, q) := blockOf a
  match b with
  | 1 => mchLocked s (8 * dieOfReg a + q / 0x10000) (q % 0x10000) v
  | 3 => wr s a (v % 2 ^ 25)
  | 4 => if q = 0x28 then (if dieOfReg a = 1 then enterEthernet (wr s a (v % 4)) else wr s a (v % 4))
    else wr s a (v &&& 0xFFFF000F)
  | _ => wr s a (v &&& 0x0000FFFFFF800000)

/-- A write of a register's whole value by a requester with rights. -/
def regPut (s : State) (r : Requester) (a v : Nat) : State :=
  let (b, q) := blockOf a
  let d := dieOfReg a
  if isPodReg a then podPut s a v
  else if isDieReg a then
    match b with
    | 0 => cpyPut s d q v
    | 1 => mchPut s (8 * d + q / 0x10000) (q % 0x10000) v
    | 2 => if q % 0x10000 = 4 then clrBits s a v else if q % 0x10000 = 8 then wr s a (v % 8) else s
    | 3 => synPut s d q v
    | 4 => rylPut s d q v
    | 5 => pwsPut s d q v
    | 6 => rstPut s d q v
    | _ => cntPut s d q v
  else match b with
    | 0 => wrdPut s r q v
    | 1 => bbxPut s r q v
    | 2 => secPut s r q v
    | _ => apcPut s r q v

/-- 64-bit registers that act on a write and hold nothing: CPY_CH_ENQ, SYN_SIGNAL, WRD_TOKEN_CAS. -/
def holdsNothing (a : Nat) : Bool :=
  let (b, q) := blockOf a
  (isDieReg a && ((b == 0 && decide (0x1000 ≤ q) && q % 0x100 == 8) || (b == 3 && q == 0x10))) || a == wrdReg 8

/-- The whole value that an access writes. R6 and R10 speak of half reads only; DESIGN CHOICE (log entry 4): a write of
one half of a 64-bit register is taken too and keeps the other half, which is 0 where a 1 would clear a bit; the other
half of a register that holds nothing is open. -/
def mergeHalf (s : State) (a : Nat) (half : Half) (v : Nat) : State × Nat :=
  match half with
  | .whole => (s, v)
  | h =>
    let (s, old) := if holdsNothing a then (nextFree s, (Config.free 64 s.freeCtr).toNat) else (s, rd s a)
    (s, match h with
      | .lower => old / 2 ^ 32 * 2 ^ 32 + v % 2 ^ 32
      | _ => old % 2 ^ 32 + (v % 2 ^ 32) * 2 ^ 32)

/-- A write that acts: RWL fields take it before the lock only (R9). -/
def regStore (s : State) (r : Requester) (a : Nat) (half : Half) (v : Nat) : State :=
  let (s, w) := mergeHalf s a half v
  if isRwl a then (if lockOpen s r a then putLocked s a w else violate s a) else regPut s r a w

/-- PWS_CAP_MGMT with die 0 down: the warden's copy takes the write (R416, R458). -/
def capCopy (s : State) (r : Requester) (a : Nat) : Bool := a == pwsReg 0 8 && r == .mgmt && !dieUp s 0

/-- A register write of `w` bytes: true where it was answered with a bus error (R6, R28). -/
def regWrite (s : State) (r : Requester) (addr w v : Nat) : State × Bool :=
  match regAccess addr w with
  | none => (s, true)
  | some (a, half) =>
    if capCopy s r a then (wr s a (clampCap v), false)
    else if !canReach s r a then (s, true)
    else if !mayWrite r a then (violate s a, false)
    else (regStore s r a half v, false)

end Sys2Proof.Machine
end

