-- ==== Sys2Proof/Machine/Service.lean ====
section
/-! DEFINITION. Service accesses of cores, the management path and inbound DMA to memory, scratchpads and pod registers
(01 R28, R29, 03 R76, 10 R255, R269, 11 R279–R282, R293, 18 R442–R444). -/
namespace Sys2Proof.Machine
open Sys2Proof

/-! ### Memory -/

/-- READER of a requester's uncorrectable reads (R269, R295). -/
def readerOf (r : Requester) : Nat := match r with | .control _ => 3 | .app => 4 | .mgmt => 5

/-- Some piece of a write narrower than its granule meets a granule that reads uncorrectable or poisoned. -/
def narrowBad (s : State) (a n : Nat) : Bool :=
  (List.range (ceilDiv' (a % 64 + n) 64)).any (fun k =>
    let g := a / 64 * 64 + 64 * k
    !(decide (a ≤ g) && decide (g + 64 ≤ a + n)) && memBad s g 64)

/-- All of a span is memory that answers (R25, R28). -/
def memSpanOk (s : State) (r : Requester) (a n : Nat) : Bool :=
  decide (a + n ≤ 2 ^ 39) && memOkFrom s (entryDie r) a n

/-- A write by a core, the management path or DMA: false where it is answered with a bus error, which leaves memory as
it was but for a narrow write's bad granule, written back poisoned (R280, R282). -/
def memStore (s : State) (r : Requester) (a : Nat) (data : List Byte) : State × Bool :=
  let n := data.length
  if n = 0 then (s, true)
  else if !memSpanOk s r a n then (s, false)
  else
    let bad := narrowBad s a n
    (svcWrite s a n (ofLE data) 0xFF, !bad)

/-- A read: none where it is answered with a bus error (R281, R282). -/
def memLoad (s : State) (r : Requester) (a n reader : Nat) : State × Option Nat :=
  if !memSpanOk s r a n then (s, none)
  else
    let s' := memNote s a n reader 0xFF
    (s', if memBad s a n then none else some (memRead s a n))

/-! ### The module's interrupt controllers and the root port -/

/-- Addresses of the APLIC and the IMSICs (R443, R444). -/
def isDevice (a : Nat) : Bool := decide (apcReg 0x40000 ≤ a ∧ a < apcReg 0x100000)

/-- The interrupt file and register offset of an address in the IMSICs (R444). -/
def imsicFile (a : Nat) : Option (Nat × Nat) :=
  if apcReg 0x80000 ≤ a ∧ a < apcReg 0x100000 then some ((a - apcReg 0x80000) / 0x1000, a % 0x1000) else none

/-- A message-signalled interrupt: the identity becomes pending in its file. -/
def deliverMsi (s : State) (file : Nat) (data : List Byte) : State :=
  let id := ofLE data
  if 1 ≤ id ∧ id ≤ 255 ∧ !s.msi.contains (file, id) then { s with msi := s.msi ++ [(file, id)] } else s

/-- The file whose doorbell a write of `n` bytes at `a` rings: four bytes at the first offset of its page. PRESUMED from
the RISC-V Advanced Interrupt Architecture, which R443 names. -/
def doorbell (a n : Nat) : Option Nat :=
  match imsicFile a with
  | some (f, 0) => if n = 4 then some f else none
  | _ => none

/-- An access at `a` that the spec describes no effect for: a well-formed one of the APLIC, or of an IMSIC beside its
doorbells, while the module-level domain is on. A malformed one is a bus error as everywhere (R6). -/
def deviceStop (s : State) (a w : Nat) (write : Bool) : Bool :=
  isDevice a && dieUp s 2 && (w == 4 || w == 8) && a % w == 0 && !(write && (doorbell a w).isSome)

/-- The PCIe outbound window (R25). -/
def isPcie (a : Nat) : Bool := decide (0x020000000000 ≤ a ∧ a < 0x040000000000)

/-- The module-level domain answers a requester: a control core of die 1 crosses the bridge to it. -/
def modReach (s : State) (r : Requester) : Bool := dieUp s 2 && (entryDie r == 0 || bridgeUp s)

/-- A write in the outbound window (R441): configuration space of the root port, that of another function, or memory
space. DESIGN CHOICE: while PERST# is low nothing is sent. -/
def pcieWrite (s : State) (a : Nat) (data : List Byte) : State :=
  let o := a - 0x020000000000
  if o < 0x1000 then { s with rootCfg := mwrite data.length s.rootCfg o (ofLE data) }
  else if !s.sup.perst then s
  else emit s (if o < 0x10000000 then .configWrite (o / 0x1000) (o % 0x1000) data else .pcieWrite a data)

/-- A read in the outbound window: its value is the root port's function's or the device's, which the spec leaves to the
PCI Express Base Specification. -/
def pcieRead (s : State) (a n : Nat) : State × Nat :=
  let o := a - 0x020000000000
  let s := if 0x10000000 ≤ o ∧ s.sup.perst then emit s (.pcieRead a n) else s
  (nextFree s, (Config.rootPort s.freeCtr s.rootCfg o).toNat % 2 ^ (8 * n))

/-- CORE_MEMORY_WRITE, to memory, to the outbound window, or to a doorbell. -/
def coreWrite (s : State) (r : Requester) (a : Nat) (data : List Byte) : State × Bool :=
  if isPcie a then (if modReach s r then (pcieWrite s a data, true) else (s, false))
  else match doorbell a data.length with
    | some f => if modReach s r then (deliverMsi s f data, true) else (s, false)
    | none => memStore s r a data

def execCoreMemoryWrite (r : Requester) (addr : BitVec 48) (data : List (BitVec 8)) (s : State) : Out :=
  let (s, ok) := coreWrite s r addr.toNat data
  .next (if ok then s else emit s (.busError addr.toNat))

/-! ### Scratchpads and pod registers -/


/-- Words of a pod's scratchpad that an access covers. -/
def wordsOf (o w : Nat) : List Nat := (List.range ((o + w - 1) / 32 + 1 - o / 32)).map (o / 32 + ·)

/-- The words of an access are read, and their errors reported (R281, R286); true where one is bad. -/
def spadTouch (s : State) (g h o w reader : Nat) : State × Bool :=
  let p := settleSpad (pod s g) h
  let bad := (wordsOf o w).filter (wordBad p)
  let s := flushCe (setPod (flushCe s g) g (noteWords { p with ceLog := [] } (wordsOf o w))) g reader
  let s := bad.foldl (fun s _ => notePodBad s g ((partOf s g).getD 0xFF) (rd s (podReg g 0xA18))) s
  (s, !bad.isEmpty)

/-- A word is stored, with an armed fault's overlay (R279, R293). -/
def spadSvcWord (s : State) (g w v : Nat) : State :=
  let (s, o) := flipPod s g
  modPod s g (fun p =>
    let p := spadPut p (32 * w) 32 v
    if o = 0 then p else { p with errs := tset p.errs w o })

/-- A read or write of up to 64 bits of a scratchpad, in hc `h`: none where it meets a word that reads uncorrectable or
poisoned, which a write then leaves as it is. -/
def spadAccess (s : State) (g h o w reader : Nat) (write : Option Nat) : State × Option Nat :=
  let (s, bad) := spadTouch s g h o w reader
  if bad then (s, none)
  else match write with
    | none => (s, some (spadRead (pod s g) o w))
    | some v =>
      let s := (wordsOf o w).foldl (fun s k =>
        let lo := max o (32 * k)
        let hi := min (o + w) (32 * k + 32)
        let old := spadRead (pod s g) (32 * k) 32
        spadSvcWord s g k (spliceBytes old (lo - 32 * k) (hi - lo) (v >>> (8 * (lo - o))))) s
      (touchAll s (spadBase + g * 0x200000 + o) w, some 0)

/-- An address in the scratchpad windows. -/
def isSpad (a : Nat) : Bool := decide (spadBase ≤ a ∧ a < spadBase + 256 * 0x200000)

/-- Pod of a scratchpad or pod-register address. -/
def podOf (a : Nat) : Nat := if isSpad a then (a - spadBase) / 0x200000 else (a - podBase) / 0x10000

/-- An access to a pod, made in hc `h`: none is a bus error. -/
def podAccess (s : State) (r : Requester) (a w h : Nat) (write : Option Nat) : State × Option Nat :=
  if isSpad a then spadAccess s (podOf a) h (a % 0x200000) w (readerOf r) write
  else match write with
    | some v =>
      let (s, bad) := regWrite s r a w v
      (s, if bad then none else some 0)
    | none => regRead s a w

/-- What its requester is answered. A control core's load that fails this way takes its die into die reset (R282). -/
def podAnswer (s : State) (r : Requester) (a : Nat) (write : Option Nat) (res : Option Nat) : State :=
  match res, write with
  | some v, none => emit s (.value a v)
  | some _, some _ => s
  | none, none => (match r with | .control d => if isSpad a then askDie s d else emit s (.busError a) | _ => emit s (.busError a))
  | none, some _ => emit s (.busError a)

def whoOf (r : Requester) : Nat := match r with | .app => 0 | .control d => 1 + d | .mgmt => 3
def requesterOf (n : Nat) : Requester := match n with | 0 => .app | 1 => .control 0 | 2 => .control 1 | _ => .mgmt

/-- The address is one of a scratchpad or pod register block, and the access is of up to 64 bits and inside it. -/
def podSpanOk (a w : Nat) : Bool :=
  (isSpad a && decide (1 ≤ w ∧ w ≤ 8 ∧ a % 0x200000 + w ≤ 0x200000)) || (isPodReg a && (regAccess a w).isSome)

/-- A pod's die answers a requester (R28). -/
def podReach (s : State) (r : Requester) (g : Nat) : Bool :=
  dieUp s (g / 128) && (g / 128 == entryDie r || r == .mgmt || bridgeUp s)

/-- The next service slot of a hatch that no waiting access of the pod has (R76). -/
def nextSlot (s : State) (n g : Nat) : Nat :=
  let h := (gen s n).hc
  let q := (pod s g).svc
  match findNat (64 * (q.length + 1)) (fun k => svcSlot s n (h + 1 + k) && q.all (fun x => x.slot != h + 1 + k)) with
  | some k => h + 1 + k
  | none => h

/-- A running hatch comes to hc `h`, as far as no hold or fault stops it before. -/
def bringTo (s : State) (n h : Nat) : State :=
  let s := arrive s n h
  if running s n then reachHc s n h else s

/-- The hatch of a pod comes to the service slot that carries a register write or a management access (R29, R76). -/
def toSlot (s : State) (g : Nat) : State :=
  match (pod s g).hatch with
  | some n => if running s n then bringTo s n (nextSlot s n g) else s
  | none => s

/-- SCRATCHPAD_SERVICE_ACCESS: it waits for a service slot of a running hatch, and is served at once otherwise. -/
def serviceAccess (s : State) (r : Requester) (a w : Nat) (write : Option Nat) : State :=
  let g := podOf a
  if !podSpanOk a w || !podReach s r g then emit s (.busError a)
  else match (pod s g).hatch with
    | some n =>
      if running s n then
        let k := nextSlot s n g
        modPod s g (fun p => { p with svc := p.svc ++ [⟨whoOf r, a, w, write.getD 0, write.isSome, k, []⟩] })
      else
        let (s, v) := podAccess s r a w (gen s n).hc write
        podAnswer s r a write v
    | none =>
      let (s, v) := podAccess s r a w (gen s (podGen s g)).hc write
      podAnswer s r a write v

def execScratchpadServiceAccess (r : Requester) (addr : BitVec 48) (width : Nat) (write : Option (BitVec 64)) (s : State) : Out :=
  .next (serviceAccess s r addr.toNat width (write.map (·.toNat)))

/-- The oldest service access of a pod completes, made in its slot: strokes' accesses before the slot come first, and
those after it later (R76). -/
def serviceDone (s : State) (g : Nat) : State :=
  match (pod s g).svc with
  | [] => s
  | x :: q =>
    let s := modPod s g (fun p => { p with svc := q })
    let n := podGen s g
    let s := if running s n then bringTo s n x.slot else s
    let h := if running s n then x.slot else (gen s n).hc
    let write := if x.write then some x.val else none
    let r := requesterOf x.who
    let (s, v) := podAccess s r x.addr x.width h write
    podAnswer s r x.addr write v

def execServiceAccessComplete (g : Fin 256) (s : State) : Out := .next (serviceDone s g)

/-! ### Register writes of a requester (R6–R10, R25–R29) -/

/-- A write of `w` bytes at an address of the map above memory: true where it is answered with a bus error. One to a pod of
a running hatch is made in the next service slot (R29). -/
def mapWrite (s : State) (r : Requester) (a w v : Nat) : State × Bool :=
  if isPcie a then (if modReach s r then (pcieWrite s a (leBytes w v), false) else (s, true))
  else match doorbell a w with
    | some f => if modReach s r then (deliverMsi s f (leBytes w v), false) else (s, true)
    | none =>
      if isPodReg a && (regAccess a w).isSome && canReach s r a then regWrite (toSlot s (podOf a)) r a w v
      else regWrite s r a w v

/-- REGISTER_WRITE. -/
def execRegisterWrite (r : Requester) (addr : BitVec 48) (width : Nat) (value : BitVec 64) (s : State) : Out :=
  if deviceStop s addr.toNat width true then .refused (.deviceWindow addr.toNat)
  else
    let (s, bad) := mapWrite s r addr.toNat width value.toNat
    .next (if bad then emit s (.busError addr.toNat) else s)

/-! ### Inbound DMA (R442–R444) -/

def inboundDma (s : State) (x : Dma) : State :=
  let dev := x.device.toNat
  let done := fun (s : State) (ok : Bool) (d : List Byte) => emit s (.completion dev ok d)
  if s.dieDown.contains 2 || !s.sup.perst then s
  else
    let t := Config.iommu s.freeCtr dev x.addr.toNat x.data.isSome
    let s := nextFree s
    match t, x.data with
    | none, _ => done s false []
    | some a, some d =>
      match doorbell a.toNat d.length with
      | some f => done (deliverMsi s f d) true []
      | none =>
        let (s, ok) := memStore s .app a.toNat d
        done s ok []
    | some a, none =>
      let (s, v) := memLoad s .app a.toNat x.len 4
      match v with
      | some v => done s true (leBytes x.len v)
      | none => done s false []

def execPcieInboundDma (dma : Dma) (s : State) : Out := .next (inboundDma s dma)

end Sys2Proof.Machine
end

