-- ==== Sys2Proof/Machine/Mgmt.lean ====
section
/-! DEFINITION. The management port and the SMBus sideband (18_cores_management.md R454–R458, 20 R500). -/
namespace Sys2Proof.Machine
open Sys2Proof

/-! ### Accesses of the management path -/

/-- Status of an access that fails: its domain is off or held in reset, or any other bus error (R456). -/
def failStatus (s : State) (a w : Nat) : Nat :=
  if a < 2 ^ 39 then
    (if (List.range (ceilDiv' (a % 64 + w) 64)).any (fun k =>
        match locate s (a / 64 * 64 + 64 * k) with | some l => !dieUp s (l.st / 8) | none => false) then 3 else 1)
  else if isSpad a then (if dieUp s (podOf a / 128) then 1 else 3)
  else if isDevice a || isPcie a then (if dieUp s 2 then 1 else 3)
  else match regAccess a w with
    | some (x, _) => if reachable s x then 1 else 3
    | none => 1

/-- A read of the management path: the value, or none. -/
def mgmtLoad (s : State) (a w : Nat) : State × Option Nat :=
  if a < 2 ^ 39 then memLoad s .mgmt a w 5
  else if isPcie a then
    if modReach s .mgmt then
      let (s, v) := pcieRead s a w
      (s, some v)
    else (s, none)
  else if podSpanOk a w then
    if podReach s .mgmt (podOf a) then
      let s := toSlot s (podOf a)
      podAccess s .mgmt a w (gen s (podGen s (podOf a))).hc none
    else (s, none)
  else regRead s a w

/-- A write of the management path: true where it succeeds. -/
def mgmtStore (s : State) (a w v : Nat) : State × Bool :=
  if a < 2 ^ 39 then memStore s .mgmt a (leBytes w v)
  else if isSpad a then
    if podSpanOk a w && podReach s .mgmt (podOf a) then
      let s := toSlot s (podOf a)
      let (s, x) := podAccess s .mgmt a w (gen s (podGen s (podOf a))).hc (some v)
      (s, x.isSome)
    else (s, false)
  else
    let (s, bad) := mapWrite s .mgmt a w v
    (s, !bad)

/-- Reads in ascending order: the values so far, and the failing access with its status. -/
def mgmtReads : Nat → State → Nat → Nat → List Byte → State × List Byte × Option Nat
  | 0, s, _, _, acc => (s, acc, none)
  | n + 1, s, a, w, acc =>
    match mgmtLoad s a w with
    | (s', some v) => mgmtReads n s' (a + w) w (acc ++ leBytes w v)
    | (s', none) => (s', acc, some (failStatus s a w))

/-- Writes in ascending order: how many were made, and the status of the one that failed. -/
def mgmtWrites : Nat → State → Nat → Nat → List Byte → Nat → State × Nat × Option Nat
  | 0, s, _, _, _, k => (s, k, none)
  | n + 1, s, a, w, d, k =>
    match mgmtStore s a w (ofLE (d.take w)) with
    | (s', true) => mgmtWrites n s' (a + w) w (d.drop w) (k + 1)
    | (s', false) => (s', k, some (failStatus s a w))

/-! ### Datagrams (R455, R456) -/

def dgNat (d : List Byte) (o n : Nat) : Nat := ofLE ((d.drop o).take n)
def dgOp (d : List Byte) : Nat := dgNat d 3 1

/-- Tag over header and payload under a key. -/
def mgmtTag (key : Nat) (m : List Byte) : List Byte := kmac256 (leBytes 32 key) [] m

/-- The datagram is a management request: long enough, with its MAGIC and VERSION. -/
def isRequest (d : List Byte) : Bool := decide (64 ≤ d.length) && dgNat d 0 2 == 0x4D51 && dgNat d 2 1 == 1

/-- A request's tag verifies and its SEQ is above every SEQ accepted. -/
def authentic (s : State) (d : List Byte) : Bool :=
  let m := d.take (d.length - 32)
  mgmtTag (mgmtKey s) m == d.drop (d.length - 32) && decide (s.sec.seqMax < dgNat d 8 8)

/-- A SEQ is accepted; a block of 65,536 is reserved in flash before the first of it is used. -/
def takeSeq (s : State) (q : Nat) : State :=
  modSec s (fun x => { x with
    seqMax := q
    seqRes := if x.seqRes ≤ q then (q / 65536 + 1) * 65536 else x.seqRes })

/-- The reply: header, payload and tag under the key that the request was checked with. -/
def mgmtReply (s : State) (x : MgmtReq) (key status index : Nat) (payload : List Byte) : State :=
  let d := x.bytes
  let len := max payload.length (dgNat d 0x18 4)
  let h := leBytes 32 (fld 0 16 0x4D51 + fld 16 8 1 + fld 24 8 (dgOp d + 0x80) + fld 32 32 index + fld 64 64 (dgNat d 8 8) +
    fld 128 64 (dgNat d 0x10 8) + fld 192 32 len + fld 224 16 status)
  let m := h ++ payload
  emit s (.udp 16 (leBytes 16 x.ip.toNat) x.port.toNat (m ++ mgmtTag key m))

/-- The 32 bytes of STATUS. -/
def statusBytes (s : State) : List Byte :=
  let r := fun (q : Nat) => wrdValue s q
  leBytes 32 (fld 0 32 (r 0x2C) + fld 32 64 (r 0) + fld 96 32 (r 0x400) + fld 128 32 (r 0x40C) + fld 160 32 (r 0x18))

/-- Entries of the black box, whole (R500). -/
def bbxBytes (s : State) (i n : Nat) : List Byte :=
  (List.range n).flatMap (fun k => leBytes 32 (tget 0#256 s.bbx.entries (i + k)).toNat)

/-- The warden's firmware runs; before that the ROM serves STATUS and BBX_READ only (R469). -/
def wardenUp (s : State) : Bool := s.sup.standby && decide (1 ≤ bootStage s)

/-- LENGTH and ADDR of a read or write of `w`-byte accesses are within their limits. -/
def accessOk (d : List Byte) (w : Nat) : Bool :=
  let n := dgNat d 0x18 4
  dgNat d 0x10 8 % w == 0 && n % w == 0 && decide (w ≤ n ∧ n ≤ 1024)

/-- The request is well formed for its operation (R456). -/
def requestOk (s : State) (d : List Byte) : Bool :=
  let n := dgNat d 0x18 4
  let a := dgNat d 0x10 8
  let body := d.length - 64
  match dgOp d with
  | 0x01 => wardenUp s && accessOk d 4 && body == 0
  | 0x02 => wardenUp s && accessOk d 8 && body == 0
  | 0x03 => wardenUp s && accessOk d 4 && body == n
  | 0x04 => wardenUp s && accessOk d 8 && body == n
  | 0x10 => n % 32 == 0 && decide (n ≤ 1024 ∧ a + n / 32 ≤ 8192 ∧ a < 8192) && body == 0
  | 0x11 => n == 0 && a == 0 && body == 0
  | _ => false

/-- What an accepted request does. -/
def runRequest (s : State) (x : MgmtReq) (key : Nat) : State :=
  let d := x.bytes
  let n := dgNat d 0x18 4
  let a := dgNat d 0x10 8
  let answer := fun (s : State) (bad : Option Nat) (index : Nat) (p : List Byte) =>
    match bad with
    | some st => mgmtReply s x key st index []
    | none => mgmtReply s x key 0 0 p
  if !requestOk s d then mgmtReply s x key 2 0 []
  else match dgOp d with
    | 0x01 =>
      let (s, v, bad) := mgmtReads (n / 4) s a 4 []
      answer s bad (v.length / 4) v
    | 0x02 =>
      let (s, v, bad) := mgmtReads (n / 8) s a 8 []
      answer s bad (v.length / 8) v
    | 0x03 =>
      let (s, k, bad) := mgmtWrites (n / 4) s a 4 ((d.drop 32).take n) 0
      answer s bad k []
    | 0x04 =>
      let (s, k, bad) := mgmtWrites (n / 8) s a 8 ((d.drop 32).take n) 0
      answer s bad k []
    | 0x10 => mgmtReply s x key 0 0 (bbxBytes s a (n / 32))
    | _ => mgmtReply s x key 0 0 (statusBytes s)

/-- A datagram at the management port: other traffic is discarded, and so is a request that is not authentic, which is
counted. -/
def mgmtRequest (s : State) (x : MgmtReq) : State :=
  let d := x.bytes
  if !s.sup.standby || s.sup.modReset || !isRequest d then s
  else if !authentic s d then setBits (bump s (wrdReg 0x30) 1) (wrdReg 0x18) 16
  else runRequest (takeSeq s (dgNat d 8 8)) x (mgmtKey s)

/-- Operations of R456. -/
def mgmtOps : List Nat := [1, 2, 3, 4, 0x10, 0x11]

/-- The first access that a request would make of a device whose registers the spec does not give. -/
def deviceAccess (s : State) (d : List Byte) : Option Nat :=
  let n := dgNat d 0x18 4
  let a := dgNat d 0x10 8
  let w := if dgOp d % 2 = 1 then 4 else 8
  if isRequest d && [1, 2, 3, 4].contains (dgOp d) && authentic s d && requestOk s d then
    ((List.range (n / w)).map (fun k => a + w * k)).find? (fun a => deviceStop s a w (decide (2 < dgOp d)))
  else none

/-- A request arrives as the row of its operation; one that lists no operation is any row's. -/
def mgmtRow (op : Nat) (x : MgmtReq) (s : State) : Out :=
  if dgOp x.bytes ≠ op ∧ mgmtOps.contains (dgOp x.bytes) then .next s
  else match deviceAccess s x.bytes with
    | some a => .refused (.deviceWindow a)
    | none => .next (mgmtRequest s x)

def execMgmtRead32 (dg : MgmtReq) (s : State) : Out := mgmtRow 1 dg s
def execMgmtRead64 (dg : MgmtReq) (s : State) : Out := mgmtRow 2 dg s
def execMgmtWrite32 (dg : MgmtReq) (s : State) : Out := mgmtRow 3 dg s
def execMgmtWrite64 (dg : MgmtReq) (s : State) : Out := mgmtRow 4 dg s
def execBbxRead (dg : MgmtReq) (s : State) : Out := mgmtRow 0x10 dg s
def execMgmtStatus (dg : MgmtReq) (s : State) : Out := mgmtRow 0x11 dg s

/-! ### The SMBus sideband (R457) -/

def execSmbStatus (s : State) : Out :=
  .next (if s.sup.standby && !s.sup.modReset then emit s (.smbus (statusBytes s)) else s)

/-- Hottest reading of a die's stacks. -/
def stackHottest (s : State) (d : Nat) : Nat :=
  ((s.stks.filter (fun e => e.1 / 8 == d)).map (fun (e : Nat × Stack) => e.2.temp)).foldl max 0

def execSmbTemps (s : State) : Out :=
  .next (if wardenUp s then
    emit s (.smbus ([dieHottest s 0, dieHottest s 1, stackHottest s 0, stackHottest s 1].flatMap (leBytes 2)))
  else s)

/-- Input power of the last sample; no command carries the input voltage, which is open. -/
def execSmbPower (s : State) : Out :=
  .next (if wardenUp s then
    emit (nextFree s) (.smbus (leBytes 2 s.sup.watts ++ leBytes 2 (Config.free 16 s.freeCtr).toNat))
  else s)

/-- AO_READ: four bytes of WRD, BBX or SEC. -/
def aoRead (s : State) (a : Nat) : State :=
  if !wardenUp s || decide (0x300000 ≤ a) then s
  else match regRead s (modBase + a) 4 with
    | (s, some v) => emit s (.smbus (leBytes 4 v))
    | (s, none) => emit s (.busError (modBase + a))

def execAoRead (a : BitVec 32) (s : State) : Out := .next (aoRead s a.toNat)

/-- AO_WRITE acts on WRD_DIE_POWER, WRD_RESET_CMD, WRD_TRIP_CLEAR and WRD_EVENT only. -/
def aoWrite (s : State) (a v : Nat) : State :=
  if wardenUp s && [0x2C, 0x408, 0x404, 0x18].contains a then (regWrite s .mgmt (wrdReg a) 4 v).1 else s

def execAoWrite (a v : BitVec 32) (s : State) : Out := .next (aoWrite s a.toNat v.toNat)

/-- CAP: PWS_CAP_MGMT in W. -/
def smbCap (s : State) (w : Nat) : State := if wardenUp s then (regWrite s .mgmt (pwsReg 0 8) 4 w).1 else s

def execSmbCap (w : BitVec 16) (s : State) : Out := .next (smbCap s w.toNat)

end Sys2Proof.Machine
end

