-- ==== Sys2Proof/Machine/Dispatch.lean ====
section
/-! DEFINITION. One arm per command: its meaning, or its rejection by name. -/
namespace Sys2Proof.Machine
open Sys2Proof

/-- What a command does to everything but the queue of waiting commands. -/
def exec (i : Instr) (s : State) : Host.Outcome State Fault Refusal :=
  match i with
  | .standbyPowerGood smbAddr => Sys2Proof.Machine.execStandbyPowerGood smbAddr s
  | .bootStage2 => Sys2Proof.Machine.execBootStage2 s
  | .bootStage5 d good => Sys2Proof.Machine.execBootStage5 d good s
  | .registerWrite r addr width value => Sys2Proof.Machine.execRegisterWrite r addr width value s
  | .coreMemoryWrite r addr data => Sys2Proof.Machine.execCoreMemoryWrite r addr data s
  | .scratchpadServiceAccess r addr width write => Sys2Proof.Machine.execScratchpadServiceAccess r addr width write s
  | .serviceAccessComplete g => Sys2Proof.Machine.execServiceAccessComplete g s
  | .bridgeUncorrectableError addr => Sys2Proof.Machine.execBridgeUncorrectableError addr s
  | .load r p replace => Sys2Proof.Machine.execLoad r p replace s
  | .loadCopyComplete p => Sys2Proof.Machine.execLoadCopyComplete p s
  | .loadVerifyComplete p => Sys2Proof.Machine.execLoadVerifyComplete p s
  | .activate r p => Sys2Proof.Machine.execActivate r p s
  | .activateDistributionComplete p => Sys2Proof.Machine.execActivateDistributionComplete p s
  | .hatchStartEdge n => Sys2Proof.Machine.execHatchStartEdge n s
  | .retire r p => Sys2Proof.Machine.execRetire r p s
  | .retireComplete p => Sys2Proof.Machine.execRetireComplete p s
  | .discard r p => Sys2Proof.Machine.execDiscard r p s
  | .abort r p => Sys2Proof.Machine.execAbort r p s
  | .badCommand r p op => Sys2Proof.Machine.execBadCommand r p op s
  | .permitWrite r p n => Sys2Proof.Machine.execPermitWrite r p n s
  | .nop g => Sys2Proof.Machine.execNop g s
  | .loop g => Sys2Proof.Machine.execLoop g s
  | .phase g => Sys2Proof.Machine.execPhase g s
  | .endStep g => Sys2Proof.Machine.execEndStep g s
  | .delay g => Sys2Proof.Machine.execDelay g s
  | .permitWait g => Sys2Proof.Machine.execPermitWait g s
  | .waitRelease n c => Sys2Proof.Machine.execWaitRelease n c s
  | .hatchSleep n => Sys2Proof.Machine.execHatchSleep n s
  | .send g => Sys2Proof.Machine.execSend g s
  | .sendFlitDelivery g => Sys2Proof.Machine.execSendFlitDelivery g s
  | .quarterBoundaryEstimate n ev => Sys2Proof.Machine.execQuarterBoundaryEstimate n ev s
  | .mxaConfig g => Sys2Proof.Machine.execMxaConfig g s
  | .mxaLoad g => Sys2Proof.Machine.execMxaLoad g s
  | .mxaPlaneUsable g => Sys2Proof.Machine.execMxaPlaneUsable g s
  | .mxaStream g => Sys2Proof.Machine.execMxaStream g s
  | .mxaRowResult g => Sys2Proof.Machine.execMxaRowResult g s
  | .add g pipe stip => Sys2Proof.Machine.execAdd g pipe stip s
  | .sub g pipe stip => Sys2Proof.Machine.execSub g pipe stip s
  | .mul g pipe stip => Sys2Proof.Machine.execMul g pipe stip s
  | .fma g pipe stip => Sys2Proof.Machine.execFma g pipe stip s
  | .min g pipe stip => Sys2Proof.Machine.execMin g pipe stip s
  | .max g pipe stip => Sys2Proof.Machine.execMax g pipe stip s
  | .mov g pipe stip => Sys2Proof.Machine.execMov g pipe stip s
  | .movi g pipe stip => Sys2Proof.Machine.execMovi g pipe stip s
  | .iota g pipe stip => Sys2Proof.Machine.execIota g pipe stip s
  | .cmp g pipe stip => Sys2Proof.Machine.execCmp g pipe stip s
  | .sel g pipe stip => Sys2Proof.Machine.execSel g pipe stip s
  | .mand g pipe stip => Sys2Proof.Machine.execMand g pipe stip s
  | .mor g pipe stip => Sys2Proof.Machine.execMor g pipe stip s
  | .mxor g pipe stip => Sys2Proof.Machine.execMxor g pipe stip s
  | .mnot g pipe stip => Sys2Proof.Machine.execMnot g pipe stip s
  | .mtot g pipe stip => Sys2Proof.Machine.execMtot g pipe stip s
  | .ttom g pipe stip => Sys2Proof.Machine.execTtom g pipe stip s
  | .cvt g pipe stip => Sys2Proof.Machine.execCvt g pipe stip s
  | .qnt g pipe stip => Sys2Proof.Machine.execQnt g pipe stip s
  | .dqn g pipe stip => Sys2Proof.Machine.execDqn g pipe stip s
  | .iadd g pipe stip => Sys2Proof.Machine.execIadd g pipe stip s
  | .isub g pipe stip => Sys2Proof.Machine.execIsub g pipe stip s
  | .iand g pipe stip => Sys2Proof.Machine.execIand g pipe stip s
  | .ior g pipe stip => Sys2Proof.Machine.execIor g pipe stip s
  | .ixor g pipe stip => Sys2Proof.Machine.execIxor g pipe stip s
  | .shl g pipe stip => Sys2Proof.Machine.execShl g pipe stip s
  | .shr g pipe stip => Sys2Proof.Machine.execShr g pipe stip s
  | .sra g pipe stip => Sys2Proof.Machine.execSra g pipe stip s
  | .perm g pipe stip => Sys2Proof.Machine.execPerm g pipe stip s
  | .rot g pipe stip => Sys2Proof.Machine.execRot g pipe stip s
  | .setrnd g pipe stip => Sys2Proof.Machine.execSetrnd g pipe stip s
  | .stip g pipe => Sys2Proof.Machine.execStip g pipe s
  | .stippleEnd g pipe => Sys2Proof.Machine.execStippleEnd g pipe s
  | .vectorRowWrite g pipe => Sys2Proof.Machine.execVectorRowWrite g pipe s
  | .exp2 g pipe stip => Sys2Proof.Machine.execExp2 g pipe stip s
  | .log2 g pipe stip => Sys2Proof.Machine.execLog2 g pipe stip s
  | .pip g pipe stip => Sys2Proof.Machine.execPip g pipe stip s
  | .ptload g pipe stip => Sys2Proof.Machine.execPtload g pipe stip s
  | .pipTableReady g pipe => Sys2Proof.Machine.execPipTableReady g pipe s
  | .ptswap g pipe stip => Sys2Proof.Machine.execPtswap g pipe stip s
  | .stat g pipe stip => Sys2Proof.Machine.execStat g pipe stip s
  | .scmb g pipe stip => Sys2Proof.Machine.execScmb g pipe stip s
  | .sfin g pipe stip => Sys2Proof.Machine.execSfin g pipe stip s
  | .sclr g pipe stip => Sys2Proof.Machine.execSclr g pipe stip s
  | .smax g pipe stip => Sys2Proof.Machine.execSmax g pipe stip s
  | .snrm g pipe stip => Sys2Proof.Machine.execSnrm g pipe stip s
  | .scan g pipe stip => Sys2Proof.Machine.execScan g pipe stip s
  | .ascn g pipe stip => Sys2Proof.Machine.execAscn g pipe stip s
  | .ldt g => Sys2Proof.Machine.execLdt g s
  | .stt g => Sys2Proof.Machine.execStt g s
  | .transferRowAccess g => Sys2Proof.Machine.execTransferRowAccess g s
  | .memRead g => Sys2Proof.Machine.execMemRead g s
  | .memWrite g => Sys2Proof.Machine.execMemWrite g s
  | .granuleLanded g => Sys2Proof.Machine.execGranuleLanded g s
  | .landingWrite g => Sys2Proof.Machine.execLandingWrite g s
  | .copyEnqueue g => Sys2Proof.Machine.execCopyEnqueue g s
  | .signal g => Sys2Proof.Machine.execSignal g s
  | .rebase g => Sys2Proof.Machine.execRebase g s
  | .wait g => Sys2Proof.Machine.execWait g s
  | .counterChangeApply d => Sys2Proof.Machine.execCounterChangeApply d s
  | .synSignal r d v => Sys2Proof.Machine.execSynSignal r d v s
  | .lateSend p => Sys2Proof.Machine.execLateSend p s
  | .lateMarkExpired p => Sys2Proof.Machine.execLateMarkExpired p s
  | .lateCapExhausted d p => Sys2Proof.Machine.execLateCapExhausted d p s
  | .deadlockDetected d p => Sys2Proof.Machine.execDeadlockDetected d p s
  | .synDlRecordRead d half => Sys2Proof.Machine.execSynDlRecordRead d half s
  | .portTrain r k => Sys2Proof.Machine.execPortTrain r k s
  | .portDown r k => Sys2Proof.Machine.execPortDown r k s
  | .portDownDrainTimeout k => Sys2Proof.Machine.execPortDownDrainTimeout k s
  | .portSignalDetected k => Sys2Proof.Machine.execPortSignalDetected k s
  | .portTrainingComplete k peer => Sys2Proof.Machine.execPortTrainingComplete k peer s
  | .portSignalLost k lock => Sys2Proof.Machine.execPortSignalLost k lock s
  | .laneFailure k lane => Sys2Proof.Machine.execLaneFailure k lane s
  | .egressTurn k => Sys2Proof.Machine.execEgressTurn k s
  | .idleTimer k => Sys2Proof.Machine.execIdleTimer k s
  | .ackTimeout k => Sys2Proof.Machine.execAckTimeout k s
  | .span k pkt => Sys2Proof.Machine.execSpan k pkt s
  | .sync k pkt => Sys2Proof.Machine.execSync k pkt s
  | .late k pkt => Sys2Proof.Machine.execLate k pkt s
  | .freeze k pkt => Sys2Proof.Machine.execFreeze k pkt s
  | .spanAck k pkt => Sys2Proof.Machine.execSpanAck k pkt s
  | .spanRefused k pkt => Sys2Proof.Machine.execSpanRefused k pkt s
  | .syncBroken k pkt => Sys2Proof.Machine.execSyncBroken k pkt s
  | .unreachable k pkt => Sys2Proof.Machine.execUnreachable k pkt s
  | .idle k pkt => Sys2Proof.Machine.execIdle k pkt s
  | .rylModuleIdWrite r d v => Sys2Proof.Machine.execRylModuleIdWrite r d v s
  | .rylSpareSteer r d j v => Sys2Proof.Machine.execRylSpareSteer r d j v s
  | .routingTableWrite r d table word v => Sys2Proof.Machine.execRoutingTableWrite r d table word v s
  | .continuePart r d p => Sys2Proof.Machine.execContinuePart r d p s
  | .abandon r d p => Sys2Proof.Machine.execAbandon r d p s
  | .ethernetFrameReceived k frame => Sys2Proof.Machine.execEthernetFrameReceived k frame s
  | .jenostRequest k frame => Sys2Proof.Machine.execJenostRequest k frame s
  | .jenostReassemblyTimeout idx => Sys2Proof.Machine.execJenostReassemblyTimeout idx s
  | .queryStepRelease => Sys2Proof.Machine.execQueryStepRelease s
  | .queryResult => Sys2Proof.Machine.execQueryResult s
  | .alloc r d p space writable => Sys2Proof.Machine.execAlloc r d p space writable s
  | .free r d => Sys2Proof.Machine.execFree r d s
  | .cpyRangeBadCommand r d op => Sys2Proof.Machine.execCpyRangeBadCommand r d op s
  | .rangeCommandComplete d => Sys2Proof.Machine.execRangeCommandComplete d s
  | .describeTensor r d p index => Sys2Proof.Machine.execDescribeTensor r d p index s
  | .describeCopy r d p index => Sys2Proof.Machine.execDescribeCopy r d p index s
  | .destroy r d p index => Sys2Proof.Machine.execDestroy r d p index s
  | .cpyDescBadCommand r d => Sys2Proof.Machine.execCpyDescBadCommand r d s
  | .descCommandComplete d => Sys2Proof.Machine.execDescCommandComplete d s
  | .cpyChOwnerWrite r d n v => Sys2Proof.Machine.execCpyChOwnerWrite r d n v s
  | .cpyChEnq r d n v => Sys2Proof.Machine.execCpyChEnq r d n v s
  | .cpyChAbort r d n => Sys2Proof.Machine.execCpyChAbort r d n s
  | .cpyChDisable r d n => Sys2Proof.Machine.execCpyChDisable r d n s
  | .cpyChResume r d n => Sys2Proof.Machine.execCpyChResume r d n s
  | .copyDone d n => Sys2Proof.Machine.execCopyDone d n s
  | .copyDeadlineExpired d n => Sys2Proof.Machine.execCopyDeadlineExpired d n s
  | .copyDrainTimeout d n => Sys2Proof.Machine.execCopyDrainTimeout d n s
  | .cpyChRingTailWrite r d n v => Sys2Proof.Machine.execCpyChRingTailWrite r d n v s
  | .channelSlotService st c => Sys2Proof.Machine.execChannelSlotService st c s
  | .migrationCommit st c => Sys2Proof.Machine.execMigrationCommit st c s
  | .frameBoundary st => Sys2Proof.Machine.execFrameBoundary st s
  | .regionEntryCommit r d idx v => Sys2Proof.Machine.execRegionEntryCommit r d idx v s
  | .stackTemperatureSample st reading => Sys2Proof.Machine.execStackTemperatureSample st reading s
  | .stackThermalTrip st => Sys2Proof.Machine.execStackThermalTrip st s
  | .scrubReadDue st c => Sys2Proof.Machine.execScrubReadDue st c s
  | .scrubWriteback st c => Sys2Proof.Machine.execScrubWriteback st c s
  | .bucketLeak st => Sys2Proof.Machine.execBucketLeak st s
  | .mchPinFailRead st => Sys2Proof.Machine.execMchPinFailRead st s
  | .mchFlipCtrlWrite r st v => Sys2Proof.Machine.execMchFlipCtrlWrite r st v s
  | .podFlipCtrlWrite r g v => Sys2Proof.Machine.execPodFlipCtrlWrite r g v s
  | .upeGradWaitRelease st p => Sys2Proof.Machine.execUpeGradWaitRelease st p s
  | .upeGatherComplete st p => Sys2Proof.Machine.execUpeGatherComplete st p s
  | .upeArriveWaitRelease st p => Sys2Proof.Machine.execUpeArriveWaitRelease st p s
  | .upeCommitWaitRelease st p => Sys2Proof.Machine.execUpeCommitWaitRelease st p s
  | .upeApplyComplete st p => Sys2Proof.Machine.execUpeApplyComplete st p s
  | .upeRefusalRead st half => Sys2Proof.Machine.execUpeRefusalRead st half s
  | .stewardGrant => Sys2Proof.Machine.execStewardGrant s
  | .grantApplied n => Sys2Proof.Machine.execGrantApplied n s
  | .oppChangeComplete n => Sys2Proof.Machine.execOppChangeComplete n s
  | .generatorFallback n => Sys2Proof.Machine.execGeneratorFallback n s
  | .telemetrySample smp => Sys2Proof.Machine.execTelemetrySample smp s
  | .telemetryLost => Sys2Proof.Machine.execTelemetryLost s
  | .pwsCapHostWrite r d v => Sys2Proof.Machine.execPwsCapHostWrite r d v s
  | .pwsCapMgmtWrite r d v => Sys2Proof.Machine.execPwsCapMgmtWrite r d v s
  | .dieTemperatureSample d readings => Sys2Proof.Machine.execDieTemperatureSample d readings s
  | .dieThermalTrip d => Sys2Proof.Machine.execDieThermalTrip d s
  | .tripSensorPoll hottest => Sys2Proof.Machine.execTripSensorPoll hottest s
  | .wrdTripClear r v => Sys2Proof.Machine.execWrdTripClear r v s
  | .droopDetected d => Sys2Proof.Machine.execDroopDetected d s
  | .droopFloorExpired d => Sys2Proof.Machine.execDroopFloorExpired d s
  | .droopRearm d => Sys2Proof.Machine.execDroopRearm d s
  | .energyAccumulate d e => Sys2Proof.Machine.execEnergyAccumulate d e s
  | .rstCmdPod r d v => Sys2Proof.Machine.execRstCmdPod r d v s
  | .rstCmdHatch r d v => Sys2Proof.Machine.execRstCmdHatch r d v s
  | .rstCmdPartition r d v => Sys2Proof.Machine.execRstCmdPartition r d v s
  | .rstCmdDie r d v => Sys2Proof.Machine.execRstCmdDie r d v s
  | .partitionReset p => Sys2Proof.Machine.execPartitionReset p s
  | .crashCaptureCut p records sampleBytes => Sys2Proof.Machine.execCrashCaptureCut p records sampleBytes s
  | .hangDetected n => Sys2Proof.Machine.execHangDetected n s
  | .retireDrainTimeout p => Sys2Proof.Machine.execRetireDrainTimeout p s
  | .resetDeadlineMissed p => Sys2Proof.Machine.execResetDeadlineMissed p s
  | .rstCrashAck r d p => Sys2Proof.Machine.execRstCrashAck r d p s
  | .dieReset d => Sys2Proof.Machine.execDieReset d s
  | .warmModuleReset => Sys2Proof.Machine.execWarmModuleReset s
  | .coldModuleReset => Sys2Proof.Machine.execColdModuleReset s
  | .wrdResetCmdWarm r v => Sys2Proof.Machine.execWrdResetCmdWarm r v s
  | .wrdResetCmdCold r v => Sys2Proof.Machine.execWrdResetCmdCold r v s
  | .wrdHeartbeat r d v => Sys2Proof.Machine.execWrdHeartbeat r d v s
  | .fwSilent d => Sys2Proof.Machine.execFwSilent d s
  | .wrdTokenCas r v => Sys2Proof.Machine.execWrdTokenCas r v s
  | .ownershipConflict d epoch => Sys2Proof.Machine.execOwnershipConflict d epoch s
  | .mgmtRead32 dg => Sys2Proof.Machine.execMgmtRead32 dg s
  | .mgmtRead64 dg => Sys2Proof.Machine.execMgmtRead64 dg s
  | .mgmtWrite32 dg => Sys2Proof.Machine.execMgmtWrite32 dg s
  | .mgmtWrite64 dg => Sys2Proof.Machine.execMgmtWrite64 dg s
  | .bbxRead dg => Sys2Proof.Machine.execBbxRead dg s
  | .mgmtStatus dg => Sys2Proof.Machine.execMgmtStatus dg s
  | .smbStatus => Sys2Proof.Machine.execSmbStatus s
  | .smbTemps => Sys2Proof.Machine.execSmbTemps s
  | .smbPower => Sys2Proof.Machine.execSmbPower s
  | .aoRead a => Sys2Proof.Machine.execAoRead a s
  | .aoWrite a v => Sys2Proof.Machine.execAoWrite a v s
  | .smbCap w => Sys2Proof.Machine.execSmbCap w s
  | .wrdDiePower r v => Sys2Proof.Machine.execWrdDiePower r v s
  | .railPowerGood dom => Sys2Proof.Machine.execRailPowerGood dom s
  | .domainPowerUpComplete dom stepping => Sys2Proof.Machine.execDomainPowerUpComplete dom stepping s
  | .railPowerGoodTimeout dom => Sys2Proof.Machine.execRailPowerGoodTimeout dom s
  | .domainPowerDownComplete dom => Sys2Proof.Machine.execDomainPowerDownComplete dom s
  | .perstRelease => Sys2Proof.Machine.execPerstRelease s
  | .apcRingTailWrite r ring v => Sys2Proof.Machine.execApcRingTailWrite r ring v s
  | .ethernetTransmitComplete ring => Sys2Proof.Machine.execEthernetTransmitComplete ring s
  | .pcieInboundDma dma => Sys2Proof.Machine.execPcieInboundDma dma s
  | .secRollbackCmd r v => Sys2Proof.Machine.execSecRollbackCmd r v s
  | .fuseAdvanceComplete => Sys2Proof.Machine.execFuseAdvanceComplete s
  | .quote r v => Sys2Proof.Machine.execQuote r v s
  | .quoteComplete => Sys2Proof.Machine.execQuoteComplete s
  | .secMeasureExtend r v => Sys2Proof.Machine.execSecMeasureExtend r v s
  | .commit r v => Sys2Proof.Machine.execCommit r v s
  | .flashErase r => Sys2Proof.Machine.execFlashErase r s
  | .flashProgram r => Sys2Proof.Machine.execFlashProgram r s
  | .flashRead r => Sys2Proof.Machine.execFlashRead r s
  | .flashOperationComplete => Sys2Proof.Machine.execFlashOperationComplete s
  | .cntFold r d v => Sys2Proof.Machine.execCntFold r d v s
  | .cntSampleCfgWrite r d n v => Sys2Proof.Machine.execCntSampleCfgWrite r d n v s
  | .bbxStore => Sys2Proof.Machine.execBbxStore s
  | .bbxPostWindowExpired => Sys2Proof.Machine.execBbxPostWindowExpired s
  | .bbxFreeze r v => Sys2Proof.Machine.execBbxFreeze r v s
  | .bbxUnfreeze r v => Sys2Proof.Machine.execBbxUnfreeze r v s
  | .modResetAsserted => Sys2Proof.Machine.execModResetAsserted s
  | .refclkLost => Sys2Proof.Machine.execRefclkLost s
  | .inputVoltageFault => Sys2Proof.Machine.execInputVoltageFault s
  | .standbyPowerLost => Sys2Proof.Machine.execStandbyPowerLost s
  | .modResetReleased => Sys2Proof.Machine.execModResetReleased s
  | .spareLaneRetrainComplete k => Sys2Proof.Machine.execSpareLaneRetrainComplete k s
  | .dieResetComplete d => Sys2Proof.Machine.execDieResetComplete d s
  | .lateEpisodeEnd d p => Sys2Proof.Machine.execLateEpisodeEnd d p s
  | .ethernetPortRetrained k => Sys2Proof.Machine.execEthernetPortRetrained k s

end Sys2Proof.Machine
end

