-- ==== Sys2Proof/Machine/Tick.lean ====
section
/-! DEFINITION. What one cycle of the always-on clock, 20 ns (01_architecture.md R23), does of itself: the counts and
timers that run on physical time. Whatever falls due at such a time is a command of its own. -/
namespace Sys2Proof.Machine
open Sys2Proof

/-- Edges that a clock at an operating point would deliver in 20 ns, rounded down (16_power_thermal.md, table of operating points). -/
def oppEdges (k : Nat) : Nat := nth 0 [18, 20, 22, 24, 26, 28, 30, 32, 34, 36, 39, 42] k

/-- A generator's withheld edges and its hang timer (R80, R85, R421). -/
def tickGen (x : Gen) : Gen :=
  { x with
    holdCount := if x.st = .held then x.holdCount + oppEdges x.opp else x.holdCount
    hang := if hangCounts x then x.hang + 1 else x.hang }

/-- A copy's deadline runs, but for the time in which a stack of it is KEEP_ONLY (R233). -/
def tickCopy (s : State) (k : Nat) (x : CopyChan) : CopyChan :=
  { x with
    run := x.run.map (fun r =>
      if cdDeadline r.img = 0 || r.done.isSome || (copyStacks s (chPart s (k / 32) (k % 32)) r.img r.iter).any (keepOnly s)
      then r else { r with age := r.age + 1 }) }

/-- Time in KEEP_ONLY, in µs (R270). -/
def tickStack (s : State) (st : Nat) : State :=
  if keepOnly s st then
    if 49 ≤ (stk s st).keepTicks then bump (modStk s st (fun x => { x with keepTicks := 0 })) (mchReg st 0x48) 1
    else modStk s st (fun x => { x with keepTicks := x.keepTicks + 1 })
  else s

/-- One always-on cycle; the island counts while standby power is present (R23, R427). -/
def tick (s : State) : State :=
  if s.sup.standby then
    let s := foldNat 32 (fun n s => if (gen s n).st = .held then sample s n 1 (oppEdges (gen s n).opp) else s) s
    let s := foldNat 16 (fun st s => tickStack s st) s
    { s with
      now := s.now + 1
      ticks := s.ticks + 1
      gens := s.gens.map (fun (e : Nat × Gen) => (e.1, tickGen e.2))
      copies := s.copies.map (fun (e : Nat × CopyChan) => (e.1, tickCopy s e.1 e.2)) }
  else { s with now := s.now + 1 }

end Sys2Proof.Machine
end

