-- ==== Sys2Proof/Safety.lean ====
section
/-! DEFINITION. What a sound state of the module is, and what a run that never stops is, in the terms that claims use. -/
namespace Sys2Proof.Machine
open Sys2Proof

/-- The byte memories are in canonical form: the stacks' storage and the flash. -/
def memCanonical (s : State) : Prop := Mem.wf s.mem = true ∧ Mem.wf s.sec.flash = true

/-- A command's outcome is a next state. -/
def Goes (c : Instr) (s : State) : Prop := ∃ t, exec c s = .next t

/-- No fault and no refusal in `n` steps. -/
def runsFor : Nat → State → Prop
  | 0, _ => True
  | n + 1, s => ∃ t, step s = .next t ∧ runsFor n t

/-! ### What a stroke's launch is made of (03_hatch_timing.md R69–R71) -/

/-- Hatch `n` brought to hc `t`, in which a stroke launches: every read due before is made, the edges up to `t` are
counted, and the hang timer starts again (R421). -/
def atLaunch (s : State) (n t : Nat) : State :=
  modGen (reachHc (advance s n t) n t) n (fun x => { x with hang := 0 })

/-- Pod `g`'s burin has a stroke of `unit` to its account in hc `t`. -/
def launched (s : State) (g n t unit : Nat) : State :=
  modPod (atLaunch s n t) g (fun p => { p with burin := noteLaunch p.burin t unit })

/-- Pod `g`'s burin stands past the stroke of hc `t`; the next stroke counts from hc `u`. -/
def movedOn (s : State) (g t u : Nat) : State :=
  modPod s g (fun p => { p with burin := (moveOn p.burin t u).1 })

/-- The burin of pod `g`, of hatch `n`, launches stroke `w`, operation `op` of `unit`, in hc `t`: the hatch's clock
delivers that edge, the burin stands at no wait, the stroke's word reads well, its hc takes it (R71), and no bit that is
reserved (those of `res` and 28 to 31) is set (R70). -/
structure Ready (s : State) (g n t w unit op res : Nat) : Prop where
  hatch : (pod s g).hatch = some n
  word : ((pod s g).burin.prog[(pod s g).burin.idx]?).map BitVec.toNat = some w
  due : launchHc (pod s g).burin w = t
  free : (pod s g).burin.waiting = false
  clock : running s n = true
  runs : running (advance s n t) n = true
  good : tget 0 (pod (atLaunch s n t) g).burin.errs ((pod s g).burin.idx / 2) = 0
  issue : issueFault (pod (atLaunch s n t) g).burin t unit = false
  isUnit : strokeUnit w = unit
  isOp : strokeOp w = op
  high : bits w 28 4 = 0
  rsv : w &&& res = 0

/-- Past stroke `w` of hc `t` the burin stands at another stroke of its program: no LOOP fault, no end of the program
(R71, R84). -/
structure GoesOn (s : State) (g n t unit u : Nat) : Prop where
  loops : (moveOn (pod (launched s g n t unit) g).burin t u).2 = false
  inside : (moveOn (pod (launched s g n t unit) g).burin t u).1.idx < (pod (launched s g n t unit) g).burin.prog.length

end Sys2Proof.Machine
end

