-- ==== Sys2Proof/Certificates/Slice0/Obligations.lean ====
section
/-! DEFINITION. The statements for the provers: what the commands, the queue and the module do, by the rules of spec/. A
statement's docstring names the rules it rests on, and says where it speaks of the model's own choice. -/
open Sys2Proof Sys2Proof.Machine

/-! ### The queue, the steps, and what never changes -/

/-- A step takes the command at the front of the queue: it is `exec` of that command on the state with the queue's
rest. -/
def Obligations.StepTakesFront : Prop :=
  ∀ (c : Instr) (rest : List Instr) (s : State), s.pending = c :: rest → step s = exec c { s with pending := rest }

/-- With no command waiting, a step is one cycle of the always-on clock (the model's choice, assumption 1): it answers a
next state, the module's time goes on by one, and the always-on island counts the cycle where standby power is present
(R23, R427); memory, partitions, counters, ports, supplies and the warden's records stay as they are. -/
def Obligations.EmptyQueueTicks : Prop :=
  ∀ s : State, s.pending = [] → ∃ t, step s = .next t ∧ t.pending = [] ∧ t.now = s.now + 1 ∧
    t.ticks = (if s.sup.standby then s.ticks + 1 else s.ticks) ∧
    (s.sup.standby = false → t = { s with now := s.now + 1 }) ∧
    t.mem = s.mem ∧ t.memErr = s.memErr ∧ t.pods = s.pods ∧ t.parts = s.parts ∧ t.chans = s.chans ∧ t.ranges = s.ranges ∧
    t.ctrs = s.ctrs ∧ t.cons = s.cons ∧ t.dests = s.dests ∧ t.ports = s.ports ∧ t.upes = s.upes ∧ t.bbx = s.bbx ∧
    t.sec = s.sec ∧ t.sup = s.sup ∧ t.dieDown = s.dieDown ∧ t.out = s.out

/-- The queue is first in, first out: whatever a step does, the commands that wait after it are those that waited behind
the one it took, in their order. -/
def Obligations.QueueIsFifo : Prop :=
  ∀ s t : State, step s = .next t → t.pending = s.pending.tail

/-- A command stops the model only where an access names a device whose registers the spec does not give, while the
module-level domain is on: a register write, or a management read or write. Every other command, on every state and all
operands, answers a next state. -/
def Obligations.OnlyDeviceWindowsStop : Prop :=
  ∀ (c : Instr) (s : State),
    (∃ t, exec c s = .next t) ∨
    ∃ a, exec c s = .refused (.deviceWindow a) ∧ isDevice a = true ∧ s.dieDown.contains 2 = false ∧
      ((∃ r x w v, c = .registerWrite r x w v) ∨ (∃ x, c = .mgmtRead32 x) ∨ (∃ x, c = .mgmtRead64 x) ∨
        (∃ x, c = .mgmtWrite32 x) ∨ ∃ x, c = .mgmtWrite64 x)

/-- The value of anti-rollback counter `k`: its blown bits (R476). -/
def Sys2Proof.Machine.rollbackOf (s : State) (k : Nat) : Nat := s.sec.fuses.rollback.getD k 0

/-- A counter never decreases (R476): whatever a step does, no anti-rollback counter is lower after it. -/
def Obligations.RollbackNeverDecreases : Prop :=
  ∀ (s t : State) (k : Nat), step s = .next t → rollbackOf s k ≤ rollbackOf t k

/-- The module at reset, before standby power comes up: the values that the register maps give (R85, R131, R238, R294, R346,
R375, R414, R436, R460, R461, R504), for ECC and bucket registers, copy and sync registers, the fault watch of a die, the
warden's watchdog and the core complex; no command waits, nothing is stored, everything is off (R28, R509, R516). Every
anti-rollback counter is 0, the fuses being blank: the model's choice, assumption 3. -/
def Obligations.ModuleAtReset : Prop :=
  ((∀ g < 256, rd State.reset (podReg g 0x204) = 0x1000 ∧ rd State.reset (podReg g 0x404) = 1) ∧
   (∀ d < 2, rd State.reset (cpyReg d 0) = 0x00400020 ∧ rd State.reset (cpyReg d 0x38) = 0x2710 ∧
     (∀ n < 32, rd State.reset (chReg d n 0x20) = 4) ∧ rd State.reset (synReg d 0) = 0x10001000 ∧
     (∀ p < 8, rd State.reset (synReg d (0x40 + 4 * p)) = 2000) ∧ rd State.reset (synReg d 0x60) = 1000 ∧
     rd State.reset (rylReg d 0) = 0x00020408 ∧ rd State.reset (rylReg d 4) = 3 ∧ rd State.reset (rylReg d 0xC) = 8 ∧
     rd State.reset (pwsReg d 4) = 2000 ∧ rd State.reset (pwsReg d 8) = 2000 ∧ rd State.reset (pwsReg d 0xC) = 2000 ∧
     rd State.reset (rstReg d 0x10) = 100 ∧ rd State.reset (rstReg d 0x14) = 10000) ∧
   (∀ st < 16, rd State.reset (mchReg st 0x10) = 0x1000 ∧ rd State.reset (mchReg st 0x2008) = 0x03E80040 ∧
     rd State.reset (mchReg st 0x200C) = 0x01000200) ∧
   rd State.reset (wrdReg 0x28) = 100 ∧ rd State.reset (bbxReg 4) = 0x20 ∧ rd State.reset (apcReg 0) = 0x00117216 ∧
   (∀ r < 4, rd State.reset (ringReg r 8) = 6)) ∧
  (State.reset.pending = [] ∧ State.reset.mem = [] ∧ State.reset.sup.standby = false ∧
     State.reset.dieDown = [0, 1, 2, 3, 4] ∧ State.reset.bbx = {} ∧ (∀ g, pod State.reset g = {}) ∧
     (∀ n, (gen State.reset n).st = .stopped) ∧ (∀ p, (part State.reset p).active = 0 ∧ (part State.reset p).staged = 0) ∧
     (∀ k, rollbackOf State.reset k = 0))

/-! ### Register and memory accesses -/

/-- Requester `r` reaches register `a`'s unit and may write it (R6, R28, R447). -/
def Sys2Proof.Machine.canWrite (s : State) (r : Requester) (a : Nat) : Prop := canReach s r a = true ∧ mayWrite r a = true

/-- A register is 32 or 64 bits wide and naturally aligned; an access of any other width, or a misaligned one, is
answered with a bus error and changes nothing (R6). A 64-bit register takes a 32-bit access of either half (R10). -/
def Obligations.WrongAccessIsABusError : Prop :=
  (∀ a, (regWidth a = 0 ∨ regWidth a = 32 ∨ regWidth a = 64) ∧ (regWidth a = 32 → a % 4 = 0) ∧
    (regWidth a = 64 → a % 8 = 0)) ∧
  (∀ (r : Requester) (addr : BitVec 48) (w : Nat) (v : BitVec 64) (s : State), isPcie addr.toNat = false →
    (isDevice addr.toNat = false ∨ (w ≠ 4 ∧ w ≠ 8) ∨ addr.toNat % w ≠ 0) →
    ((w ≠ 4 ∧ w ≠ 8) ∨ addr.toNat % w ≠ 0 ∨ (w = 8 ∧ regWidth addr.toNat ≠ 64) ∨
      (w = 4 ∧ regWidth addr.toNat = 0 ∧ (4 ≤ addr.toNat → regWidth (addr.toNat - 4) ≠ 64))) →
    exec (.registerWrite r addr w v) s = .next (emit s (.busError addr.toNat)) ∧ regRead s addr.toNat w = (s, none))

/-- Writes by the access codes of R8, with rights and an answering unit: an RW register of a pod and a 64-bit one of a
die store the value, a W1C register loses the bits written 1, and an RO register keeps its value; nothing else changes,
and there is no bus error. A pod of a running hatch comes to its next service slot first (R29). -/
def Obligations.RegisterWritesFollowTheirCodes : Prop :=
  ∀ (r : Requester) (s : State) (v : BitVec 64),
    (∀ g < 256, v.toNat < 2 ^ 32 →
      let t := toSlot s g
      (∀ o ∈ [0x204, 0x408, 0x200], canReach s r (podReg g o) = true ∧ canReach t r (podReg g o) = true) →
      exec (.registerWrite r (BitVec.ofNat 48 (podReg g 0x204)) 4 v) s = .next (wr t (podReg g 0x204) v.toNat) ∧
      exec (.registerWrite r (BitVec.ofNat 48 (podReg g 0x408)) 4 v) s = .next (clrBits t (podReg g 0x408) v.toNat) ∧
      exec (.registerWrite r (BitVec.ofNat 48 (podReg g 0x200)) 4 v) s = .next t) ∧
    (∀ d < 2, ∀ n < 32, canReach s r (chReg d n 0x18) = true →
      exec (.registerWrite r (BitVec.ofNat 48 (chReg d n 0x18)) 8 v) s = .next (wr s (chReg d n 0x18) v.toNat))

/-- A write to an RWL field after the boot lock gives no bus error and leaves the field unchanged; the die's error
aggregation block counts it as a lock violation (R9): nothing else changes. -/
def Obligations.LockedWriteIsDiscarded : Prop :=
  ∀ (r : Requester) (addr : BitVec 48) (w a : Nat) (half : Half) (v : BitVec 64) (s : State),
    regAccess addr.toNat w = some (a, half) → isRwl a = true → canWrite s r a →
    (s.modLock = true ∨ s.locked.contains (dieOfReg a) = true) →
    exec (.registerWrite r addr w v) s =
      .next { s with violations := tset s.violations (dieOfReg a) (tget 0 s.violations (dieOfReg a) + 1) }

/-- No channel of the stack has a fault armed that this granule's write would take (R293). -/
def Sys2Proof.Machine.noFlip (s : State) (l : Loc) : Prop :=
  (bit (rd s (mchReg l.st 0x2018)) 0 && bits (rd s (mchReg l.st 0x2018)) 8 8 == l.c) = false

/-- A core's write of a whole granule that lies in mapped memory: the granule holds the new bytes, freshly encoded, whatever
it read as before (R279, R280), and the stack's write count goes on by one (R272); every byte of the stacks outside it, and
every other granule's check symbols, stay; no other register, and no pod, generator, partition or counter changes, and no
bus error is answered. -/
def Obligations.CoreMemoryWriteStoresTheGranule : Prop :=
  ∀ (r : Requester) (addr : BitVec 48) (data : List Byte) (s : State) (l : Loc), data.length = 64 → addr.toNat % 64 = 0 →
    addr.toNat + 64 ≤ 2 ^ 39 → locateFrom s (entryDie r) addr.toNat = some l → noFlip s l →
    ∃ t, exec (.coreMemoryWrite r addr data) s = .next t ∧
      (∀ k < 64, readByte t.mem (64 * l.pg + k) = data.getD k 0#8) ∧ granuleOvl t l.pg = 0 ∧
      (∀ a, (a < 64 * l.pg ∨ 64 * l.pg + 64 ≤ a) → readByte t.mem a = readByte s.mem a) ∧
      (∀ pg, pg ≠ l.pg → granuleOvl t pg = granuleOvl s pg) ∧
      (rd s (mchReg l.st 0x28) + 1 < 2 ^ 64 → rd t (mchReg l.st 0x28) = rd s (mchReg l.st 0x28) + 1) ∧
      (∀ a, a ≠ mchReg l.st 0x28 → a ≠ satReg (mchReg l.st 0x28) → rd t a = rd s a) ∧
      t.pods = s.pods ∧ t.gens = s.gens ∧ t.parts = s.parts ∧ t.ctrs = s.ctrs ∧ t.bbx = s.bbx ∧
      t.out = s.out ∧ t.sec = s.sec ∧ t.pending = s.pending

/-- A core's write outside mapped and answering memory is answered with a bus error and changes nothing (R28); so is one to
the outbound window or an interrupt doorbell that the core cannot reach. -/
def Obligations.UnmappedMemoryWriteIsABusError : Prop :=
  ∀ (r : Requester) (addr : BitVec 48) (data : List Byte) (s : State), data ≠ [] →
    (if isPcie addr.toNat = true ∨ (doorbell addr.toNat data.length).isSome = true then modReach s r = false
     else 2 ^ 39 < addr.toNat + data.length ∨ locateFrom s (entryDie r) (addr.toNat / 64 * 64) = none) →
    exec (.coreMemoryWrite r addr data) s = .next (emit s (.busError addr.toNat))

/-- A pod at rest holds no scratchpad error, no bytes on their way and no corrected read to report. -/
def Sys2Proof.Machine.quietSpad (p : Pod) : Prop := p.errs = [] ∧ p.spadPend = [] ∧ p.ceLog = []

/-- Service accesses to a scratchpad (R3, R76). To a pod of a running hatch one waits for a service slot, which comes within
64 / N hc, and is held with the pod until then. A read of up to 64 bits of a pod whose hatch is not running is served at
once, with the little-endian value of its bytes; one that waited is served with it when it completes. Nothing else changes. -/
def Obligations.ServiceAccessesAreServed : Prop :=
  (∀ (r : Requester) (addr : BitVec 48) (w n : Nat) (v : Option (BitVec 64)) (s : State),
     podSpanOk addr.toNat w = true → podReach s r (podOf addr.toNat) = true →
     (pod s (podOf addr.toNat)).hatch = some n → running s n = true → (pod s (podOf addr.toNat)).svc = [] →
     (part s (gen s n).part).share ∈ [1, 2, 4, 8] →
     ∃ k, (gen s n).hc < k ∧ k ≤ (gen s n).hc + 64 / (part s (gen s n).part).share ∧
       (k % 64) % (64 / (part s (gen s n).part).share) = 0 ∧
       exec (.scratchpadServiceAccess r addr w v) s = .next (modPod s (podOf addr.toNat) (fun p => { p with
         svc := [⟨whoOf r, addr.toNat, w, (v.map BitVec.toNat).getD 0, v.isSome, k, []⟩] }))) ∧
  ((∀ (r : Requester) (addr : BitVec 48) (w : Nat) (s : State),
     isSpad addr.toNat = true → podSpanOk addr.toNat w = true → podReach s r (podOf addr.toNat) = true →
     (∀ n, (pod s (podOf addr.toNat)).hatch = some n → running s n = false) → quietSpad (pod s (podOf addr.toNat)) →
     exec (.scratchpadServiceAccess r addr w none) s =
       .next (emit (setPod s (podOf addr.toNat) (pod s (podOf addr.toNat)))
         (.value addr.toNat (mread (pod s (podOf addr.toNat)).spad (addr.toNat % 0x200000) w)))) ∧
   (∀ (g : Fin 256) (x : SvcAcc) (q : List SvcAcc) (s : State), (pod s g).svc = x :: q → x.write = false →
     isSpad x.addr = true → podOf x.addr = g →
     (let t := modPod s g (fun p => { p with svc := q })
      let u := if running t (podGen t g) = true then bringTo t (podGen t g) x.slot else t
      quietSpad (pod u g) → exec (.serviceAccessComplete g) s =
       .next (emit (setPod u g (pod u g)) (.value x.addr (mread (pod u g).spad (x.addr % 0x200000) x.width))))))

/-- A bridge error that its code cannot correct poisons the granule it meets, whose data bytes stay, freezes the black box
by a fatal event and requests a warm module reset (R18). -/
def Obligations.BridgeErrorPoisonsAndResets : Prop :=
  ∀ (addr : BitVec 48) (s : State) (l : Loc), s.sup.standby = true → locate s addr.toNat = some l →
    s.bbx.frozen = false → s.bbx.q2.length < 16 →
    ∃ t e, exec (.bridgeUncorrectableError addr) s = .next t ∧ granuleOvl t l.pg = poisonOf hullF ∧
      (∀ a, readByte t.mem a = readByte s.mem a) ∧ (∀ pg, pg ≠ l.pg → granuleOvl t pg = granuleOvl s pg) ∧
      (s.modReq = none → t.modReq = some (1, 2)) ∧
      t.bbx = { s.bbx with q2 := s.bbx.q2 ++ [e] } ∧ e.fatal = true ∧ e.code = 2 ∧ e.arg1 = addr.toNat ∧
      t.regs = s.regs ∧ t.pods = s.pods ∧ t.gens = s.gens ∧ t.parts = s.parts ∧ t.ctrs = s.ctrs ∧ t.out = s.out ∧
      t.pending = s.pending

/-- Arming an error injection (R293): the register of the stack, or of the pod, takes the value, with ARM clear where the
value names a symbol above 35 or no symbol; nothing else changes. -/
def Obligations.FlipControlsArm : Prop :=
  ∀ (r : Requester) (s : State),
    (∀ (st : Fin 16) (v : BitVec 64), canReach s r (mchReg st 0x2018) = true →
      exec (.mchFlipCtrlWrite r st v) s = .next (wr s (mchReg st 0x2018)
        (if bits v.toNat 1 2 = 0 ∨ 35 < bits v.toNat 16 6 ∨ 35 < bits v.toNat 22 6 ∨ 35 < bits v.toNat 28 6
         then (v.toNat &&& 0xFFFF0003FFFFFF07) / 2 * 2 else v.toNat &&& 0xFFFF0003FFFFFF07))) ∧
    (∀ (g : Fin 256) (v : BitVec 32), canReach s r (podReg g 0xA1C) = true →
      exec (.podFlipCtrlWrite r g v) s = .next (wr s (podReg g 0xA1C)
        (if bits v.toNat 1 2 = 0 ∨ 35 < bits v.toNat 3 6 ∨ 35 < bits v.toNat 9 6 ∨ 35 < bits v.toNat 15 6
         then v.toNat % 2 ^ 29 / 2 * 2 else v.toNat % 2 ^ 29)))

/-! ### Strokes of the burin (R69–R72, R524, R525) -/

/-- NOP, DELAY, END_STEP and LOOP, each launched when its hc comes (R71, R524): the burin notes the launch and stands at its
next stroke, counted from the launch, from COUNT hc later, at stroke 0, or inside the loop's body; nothing else of the
pod, and no other part of the module, changes. -/
def Obligations.ControlStrokesMoveTheBurin : Prop :=
  ∀ (g : Fin 256) (n t w : Nat) (s : State),
    (Ready s g n t w 0 0 (resv 32 127) → GoesOn s g n t 0 t →
      exec (.nop g) s = .next (movedOn (launched s g n t 0) g t t)) ∧
    (Ready s g n t w 0 4 (resv 64 127) → (pod (launched s g n t 0) g).burin.version ≠ 1 →
      GoesOn s g n t 0 (t + bits w 32 32) →
      exec (.delay g) s = .next (movedOn (launched s g n t 0) g t (t + bits w 32 32))) ∧
    (Ready s g n t w 0 3 (resv 32 127) → (pod (launched s g n t 0) g).burin.loops = [] →
      exec (.endStep g) s = .next (modPod (launched s g n t 0) g (fun p => { p with burin :=
        { p.burin with idx := 0, base := t } }))) ∧
    (Ready s g n t w 0 1 (resv 48 63) → 0 < bits w 32 16 → 0 < bits w 64 32 →
      (pod s g).burin.idx + 1 + bits w 32 16 ≤ (pod (launched s g n t 0) g).burin.prog.length →
      (pod (launched s g n t 0) g).burin.loops.length < (if (pod (launched s g n t 0) g).burin.version = 1 then 2 else 4) →
      exec (.loop g) s = .next (modPod (launched s g n t 0) g (fun p => { p with burin := { p.burin with
        idx := (pod s g).burin.idx + 1
        base := t
        loops := { first := (pod s g).burin.idx + 1, len := bits w 32 16, left := bits w 64 32 - 1,
                   period := bits w 96 32, base := t, based := false, last := t } :: p.burin.loops } })))

/-- Where a burin stands after a stroke (R71): the next one in its program, counted from `u`; or, past the last stroke of a
LOOP body with iterations left, the body's first, launched one period after the iteration's base; past the last of its
iterations, beyond the loop. A launch at or after the iteration's end is a LOOP fault. -/
def Obligations.LoopsRepeatTheirBody : Prop :=
  ∀ (b : Burin) (last u : Nat) (f : LoopFrame) (fs : List LoopFrame),
    (b.loops = [] → moveOn b last u = ({ b with idx := b.idx + 1, base := u, loops := [] }, false)) ∧
    (b.loops = f :: fs → b.idx + 1 ≠ f.first + f.len →
      moveOn b last u = ({ b with idx := b.idx + 1, base := u, loops := f :: fs }, false)) ∧
    (b.loops = f :: fs → b.idx + 1 = f.first + f.len → last < f.base + f.period → 0 < f.left →
      moveOn b last u = ({ b with
        idx := f.first, base := u, force := some (f.base + f.period)
        loops := { f with left := f.left - 1, based := false } :: fs }, false)) ∧
    (b.loops = f :: fs → b.idx + 1 = f.first + f.len → last < f.base + f.period → f.left = 0 →
      (moveOn b last u).2 = (moveOn { b with loops := fs } last u).2 ∧
      ((moveOn b last u).2 = false → moveOn b last u = moveOn { b with loops := fs } last u)) ∧
    (b.loops = f :: fs → b.idx + 1 = f.first + f.len → f.base + f.period ≤ last → (moveOn b last u).2 = true)

/-- PHASE of the hatch's lowest burin selects a phase that its plate describes; in every other burin it only launches
(R397). -/
def Obligations.PhaseSelects : Prop :=
  ∀ (g : Fin 256) (n t w : Nat) (s : State), Ready s g n t w 0 2 (resv 36 127) → GoesOn s g n t 0 t →
    ((g : Nat) = hatchLow n →
      bits w 32 4 < (part (launched s g n t 0) (gen (launched s g n t 0) n).part).phases →
      exec (.phase g) s = .next (movedOn (modGen (launched s g n t 0) n (fun x =>
        { x with newPhase := bits w 32 4, pwr := { x.pwr with fresh := true } })) g t t)) ∧
    ((g : Nat) ≠ hatchLow n → exec (.phase g) s = .next (movedOn (launched s g n t 0) g t t))

/-- A stroke with a reserved bit set, or of an operation that its unit does not define, is a stroke fault BAD_UNIT: the
hatch's clock stops, every pod of the hatch whose fault register is clear records code 2 and the stroke's index, and a
partition reset with cause FAULT is requested (R70, R84). -/
def Obligations.BadStrokeStopsTheHatch : Prop :=
  ∀ (g : Fin 256) (n t : Nat) (wv : BitVec 128) (s : State), (pod s g).hatch = some n →
    (pod s g).burin.prog[(pod s g).burin.idx]? = some wv → launchHc (pod s g).burin wv.toNat = t →
    (pod s g).burin.waiting = false → running s n = true → running (advance s n t) n = true →
    tget 0 (pod (atLaunch s n t) g).burin.errs ((pod s g).burin.idx / 2) = 0 →
    issueFault (pod (atLaunch s n t) g).burin t 0 = false →
    (strokeDefined (strokeUnit wv.toNat) (strokeOp wv.toNat) = false ∨
      (strokeUnit wv.toNat = 0 ∧ strokeOp wv.toNat = 0 ∧ (bits wv.toNat 28 4 ≠ 0 ∨ wv.toNat &&& resv 32 127 ≠ 0))) →
    ∃ u, exec (.nop g) s = .next u ∧ (gen u n).faulted = true ∧ running u n = false ∧
      (∀ q ∈ hatchPods (atLaunch s n t) n, q < 256 → rd (atLaunch s n t) (podReg q 0x220) = 0 →
        rd u (podReg q 0x220) = 2 + (pod s g).burin.idx * 256) ∧
      ((part (atLaunch s n t) (gen u n).part).resetReq = none →
        (part u (gen u n).part).resetReq = some ⟨1, g, 1⟩)

/-- The stroke that pod `g`'s burin launches in hc `t` is its program's last. -/
def Sys2Proof.Machine.endsAt (s : State) (g t : Nat) : Prop :=
  (moveOn (pod s g).burin t t).2 = false ∧ (pod s g).burin.prog.length ≤ (moveOn (pod s g).burin t t).1.idx

/-- A PERMIT_WAIT or a sync WAIT that a burin reaches (R56, R72, R329): the first burin fixes the wait's hc, kind and
operands and stands at it; each other burin with the same hc and operands joins it. The first to reach a sync WAIT adds K
to the consumer entry's COUNT, and the new COUNT is what the counter must reach. -/
def Obligations.WaitsAreHatchWide : Prop :=
  ∀ (g : Fin 256) (n t w j : Nat) (s : State),
    let stand := fun u : State => modPod u g (fun p => { p with burin := { p.burin with waiting := true } })
    (Ready s g n t w 10 1 (resv 32 127) → ¬ endsAt (launched s g n t 10) g t → (gen (launched s g n t 10) n).waitKind = 0 →
      exec (.permitWait g) s = .next (stand (modGen (launched s g n t 10) n (fun x =>
        { x with waitKind := 1, waitAt := t, waitArg := 0, waitPods := 1,
                 sleepDelay := rd (launched s g n t 10) (podReg (hatchLow n) 0x204) })))) ∧
    (Ready s g n t w 10 1 (resv 32 127) → ¬ endsAt (launched s g n t 10) g t → (gen (launched s g n t 10) n).waitKind = 1 →
      (gen (launched s g n t 10) n).waitAt = t → (gen (launched s g n t 10) n).waitArg = 0 →
      exec (.permitWait g) s = .next (stand (modGen (launched s g n t 10) n (fun x =>
        { x with waitPods := x.waitPods + 1 })))) ∧
    (Ready s g n t w 9 1 0 → bits w 47 17 = 0 → bits w 96 32 = 0 → waitEntry (launched s g n t 9) n w = some j →
      ¬ endsAt (launched s g n t 9) g t → (gen (launched s g n t 9) n).waitKind = 0 → rebaseDue (launched s g n t 9) j = false →
      (tget ⟨0, 0, 0, 0⟩ (launched s g n t 9).cons j).count + bits w 64 32 < 2 ^ 48 →
      exec (.wait g) s = .next
        (let u := stand (modGen (launched s g n t 9) n (fun x =>
          { x with waitKind := 2, waitAt := t, waitArg := bits w 32 96, waitPods := 1,
                   sleepDelay := rd (launched s g n t 9) (podReg (hatchLow n) 0x204) }))
         let e := tget ⟨0, 0, 0, 0⟩ u.cons j
         modGen { u with cons := tset u.cons j { e with count := e.count + bits w 64 32 } } n (fun x =>
           { x with waitNeed := e.count + bits w 64 32 })))

/-- PERMIT_WAIT and WAIT complete (R56, R72, R329). A burin that launches the one or the other in hc `t`, in a hatch that
stands at no wait and with a stroke after it, answers a next state in which it stands at that wait: the hatch waits, for a
permit or for the consumer entry's COUNT with K added, since hc `t`, with one burin arrived. No other pod or hatch, no
register, no plate, no counter and no byte of memory is changed from the launch, nor any other consumer entry. -/
def Obligations.WaitStrokesComplete : Prop :=
  ∀ (g : Fin 256) (n t w : Nat) (s : State),
    let stands := fun (L u : State) => (pod u g).burin.waiting = true ∧ (gen u n).waitAt = t ∧ (gen u n).waitPods = 1 ∧
      (gen u n).st = (gen L n).st ∧ (gen u n).hc = (gen L n).hc ∧ (∀ q : Nat, q ≠ g → pod u q = pod L q) ∧
      (∀ m : Nat, m ≠ n → gen u m = gen L m) ∧ u.regs = L.regs ∧ u.parts = L.parts ∧ u.ctrs = L.ctrs ∧ u.mem = L.mem ∧
      u.out = L.out
    (let L := launched s g n t 10
     Ready s g n t w 10 1 (resv 32 127) → ¬ endsAt L g t → (gen L n).waitKind = 0 →
      ∃ u, exec (.permitWait g) s = .next u ∧ stands L u ∧ (gen u n).waitKind = 1 ∧ u.cons = L.cons) ∧
    (let L := launched s g n t 9
     ∀ j, Ready s g n t w 9 1 0 → bits w 47 17 = 0 → bits w 96 32 = 0 → waitEntry L n w = some j → ¬ endsAt L g t →
      (gen L n).waitKind = 0 → rebaseDue L j = false → (tget ⟨0, 0, 0, 0⟩ L.cons j).count + bits w 64 32 < 2 ^ 48 →
      let e := tget ⟨0, 0, 0, 0⟩ L.cons j
      ∃ u, exec (.wait g) s = .next u ∧ stands L u ∧ (gen u n).waitKind = 2 ∧ (gen u n).waitArg = bits w 32 96 ∧
        (gen u n).waitNeed = e.count + bits w 64 32 ∧
        u.cons = tset L.cons j { e with count := e.count + bits w 64 32 })

/-- A permit wait's condition holds in cycle `c` with every burin standing at it and a permit outstanding, behind which no
access waits: one permit is taken, one step is released and in progress, and every burin goes on four hc later (R56, R57,
R72). -/
def Obligations.PermitReleasesTheHatch : Prop :=
  ∀ (n : Fin 32) (c : Nat) (s : State), waitReady s n c = true → (gen s n).waitKind = 1 →
    (part s (gen s n).part).released ≤ (gen s n).permitWaits → 0 < (part s (gen s n).part).permits →
    (part s (gen s n).part).active = 2 → fenced s (gen s n).part = false →
    (∀ g ∈ hatchPods s n, (pod s g).burin.waiting = true ∧
      (moveOn { (pod s g).burin with
          waiting := false, loops := (pod s g).burin.loops.map (fun f => { f with base := c + 4, based := true }) }
        (pod s g).burin.curHc (c + 4)).2 = false ∧
      (moveOn { (pod s g).burin with
          waiting := false, loops := (pod s g).burin.loops.map (fun f => { f with base := c + 4, based := true }) }
        (pod s g).burin.curHc (c + 4)).1.idx < (pod s g).burin.prog.length) →
    ∃ t, exec (.waitRelease n c) s = .next t ∧ (part t (gen s n).part).permits = (part s (gen s n).part).permits - 1 ∧
      (part t (gen s n).part).released = (part s (gen s n).part).released + 1 ∧
      (gen t n).st = .running ∧ (gen t n).waitKind = 0 ∧ (gen t n).permitWaits = (gen s n).permitWaits + 1 ∧
      (∀ g ∈ hatchPods s n, (pod t g).burin = (moveOn { (pod s g).burin with
          waiting := false, loops := (pod s g).burin.loops.map (fun f => { f with base := c + 4, based := true }) }
        (pod s g).burin.curHc (c + 4)).1) ∧
      (∀ g, g ∉ hatchPods s n → pod t g = pod s g) ∧ (∀ m : Nat, m ≠ n → gen t m = gen s m) ∧
      t.mem = s.mem ∧ t.ctrs = s.ctrs ∧ t.cons = s.cons ∧ t.out = s.out ∧ t.pending = s.pending

/-- The hc from which nothing that was under way to a waiting hatch's scratchpads and tiles is outstanding, and the sleep
delay has passed (R67). -/
def Sys2Proof.Machine.sleepHc (s : State) (n : Nat) : Nat :=
  ((hatchPods s n).flatMap (fun g => (pod s g).tilePend.map (·.hc) ++ (pod s g).spadPend.map (·.vis))).foldl max
    ((gen s n).waitAt + (gen s n).sleepDelay)

/-- A hatch with every burin at one wait sleeps POD_SLEEP_DELAY hc after the wait, or later as soon as nothing is in flight;
with something still in flight, or a delay of 0, it does not sleep (R67). -/
def Obligations.HatchSleeps : Prop :=
  ∀ (n : Fin 32) (s : State), running s n = true → (gen s n).waitKind ≠ 0 → (gen s n).waitPods = (gen s n).size →
    ((∀ g ∈ hatchPods s n, podIdle (pod s g) = true) → sleepHc s n = (gen s n).waitAt + (gen s n).sleepDelay) ∧
    (let u := arriveTiles s n (sleepHc s n)
     (gen s n).sleepDelay ≠ 0 → running u n = true →
     ((∀ g ∈ hatchPods u n, podIdle (pod u g) = true) →
      exec (.hatchSleep n) s = .next (modGen (reachHc u n (sleepHc s n)) n (fun x => { x with st := .sleeping }))) ∧
     ((∃ g ∈ hatchPods u n, podIdle (pod u g) = false) → exec (.hatchSleep n) s = .next s)) ∧
    ((gen s n).sleepDelay = 0 → exec (.hatchSleep n) s = .next s)

/-- SEND to a pod of the hatch, within both scratchpads, puts a run of flits under way; the flit that falls due is written
at the destination, consumable four hc later (R525). -/
def Obligations.SendDeliversFlits : Prop :=
  (∀ (g : Fin 256) (n t w : Nat) (s : State), Ready s g n t w 5 1 (resv 39 47 + resv 88 127) → GoesOn s g n t 5 t →
    128 * (g / 128) + bits w 32 7 ∈ hatchPods (launched s g n t 5) n →
    bits w 48 16 + 2 * (bits w 80 8 + 1) ≤ 65536 → bits w 64 16 + 2 * (bits w 80 8 + 1) ≤ 65536 →
    exec (.send g) s = .next (movedOn (modPod (launched s g n t 5) g (fun p => { p with sends := p.sends ++
      [{ t := t, dst := 128 * (g / 128) + bits w 32 7, src := bits w 48 16, dstW := bits w 64 16,
         flits := bits w 80 8 + 1, lat := routeLat g (128 * (g / 128) + bits w 32 7), idx := (pod s g).burin.idx }] })) g t t)) ∧
  (∀ (g : Fin 256) (n h v : Nat) (x : Send) (q : Pod) (s : State), (pod s g).hatch = some n →
    (pod s g).sends = [x] → h = x.t + x.nextWrite + x.lat - 4 → running (arrive s n h) n = true →
    (pod (arrive s n h) g).sends = [{ x with data := [(x.nextWrite, v)] }] → x.dst ≠ g →
    portAccess (pod (arrive s n h) x.dst) h []
      [(x.dstW + 2 * x.nextWrite, x.idx), (x.dstW + 2 * x.nextWrite + 1, x.idx)] = (q, []) →
    exec (.sendFlitDelivery g) s = .next (setPod (modPod (reachHc (arrive s n h) n h) g (fun p => { p with sends :=
        if x.nextWrite + 1 = x.flits then [] else [{ x with nextWrite := x.nextWrite + 1, data := [] }] })) x.dst
      { q with spadPend := q.spadPend ++ [⟨h + 4, h, x.t + x.nextWrite, g, 32 * (x.dstW + 2 * x.nextWrite), 64, v⟩] }))

/-! ### Matrix array (R116–R133) -/

/-- The matrix array. CONFIG governs the array from the next hc; LOAD fills the plane that is not active, which is LOADING
until it is usable ROWS + 1 hc later, and then READY, with the completed LOAD counted (R116, R117, R133). STREAM with a READY
plane (R118, R127): the planes swap where it says so, its rows launch one an hc from then, the plane is in use to the last of
them, and the array is busy to 165 hc past it. The oldest row's results are readable 166 hc after its launch, when its flags
are set, the row is counted and its products are counted by the classes of A and B (R126, R133, R488). -/
def Obligations.MatrixArrayRuns : Prop :=
  (∀ (g : Fin 256) (n t w : Nat) (s : State),
     (Ready s g n t w 1 1 (resv 42 47 + resv 96 127) → GoesOn s g n t 1 t → bits w 32 4 < 13 → bits w 36 4 < 13 →
       exec (.mxaConfig g) s = .next (movedOn (modPod (launched s g n t 1) g (fun p => { p with mxa := { p.mxa with cfg := {
         aType := bits w 32 4, bType := bits w 36 4, aScaled := bit w 40, bScaled := bit w 41,
         aStride := bits w 48 16, aScaleAddr := bits w 64 16, bScaleAddr := bits w 80 16 } } })) g t t)) ∧
     (∀ e, Ready s g n t w 1 2 (resv 55 127) → GoesOn s g n t 1 t →
       loadFaults (pod (launched s g n t 1) g).mxa t (bits w 48 7 + 1) (bits w 32 16) = [] →
       pairE (pod (launched s g n t 1) g).mxa.cfg.aType (pod (launched s g n t 1) g).mxa.cfg.bType = some e →
       exec (.mxaLoad g) s = .next (movedOn (modPod (loadDone (launched s g n t 1) g (1 - (pod (launched s g n t 1) g).mxa.active)) g (fun p =>
         let m := setPlane p.mxa (1 - p.mxa.active) { plane p.mxa (1 - p.mxa.active) with
           st := 1, typ := p.mxa.cfg.bType, scaled := p.mxa.cfg.bScaled, rows := bits w 48 7 + 1, e := e,
           usable := t + (bits w 48 7 + 1) + 1 }
         { p with mxa := { m with
           loads := p.mxa.loads ++ [⟨t, bits w 48 7 + 1, bits w 32 16, 1 - p.mxa.active, e, p.mxa.cfg.bScaleAddr, 0,
             (pod s g).burin.idx⟩]
           lastLoad := some (t, bits w 48 7 + 1) } })) g t t)) ∧
     (∀ i < 2, (pod s g).hatch = some n → running s n = true → (plane (pod s g).mxa i).st = 1 →
       (plane (pod s g).mxa (1 - i)).st ≠ 1 → (plane (pod s g).mxa i).usable = t → running (arrive s n t) n = true →
       exec (.mxaPlaneUsable g) s = .next (bump (modPod (reachHc (arrive s n t) n t) g (fun p =>
         { p with mxa := setPlane p.mxa i { plane p.mxa i with st := 2 } })) (podReg g 0x420) 1))) ∧
  (∀ (g : Fin 256) (n t w : Nat) (s : State),
     let L := launched s g n t 1
     let m := (pod L g).mxa
     let act := if bit w 102 then 1 - m.active else m.active
     let rows := bits w 80 12 + 1
     (Ready s g n t w 1 3 (resv 103 127) → GoesOn s g n t 1 t → streamFaults m t w = [] →
       exec (.mxaStream g) s = .next (movedOn (startRamp (busySpan (modPod (loadDone L g act) g (fun p => { p with mxa :=
        { setPlane m act { plane m act with st := 2 } with
         active := act
         streams := m.streams ++ [{
           t := t, rows := rows, aAddr := bits w 32 16, outAddr := bits w 48 16, accAddr := bits w 64 16,
           kExt := bits w 92 9 + 1, init := bit w 101, cfg := m.cfg, plane := { plane m act with st := 2 }, next := 0,
           idx := (pod s g).burin.idx }]
         lastStream := some (t, rows)
         use0 := if act = 0 then some (t + rows - 1) else m.use0
         use1 := if act = 1 then some (t + rows - 1) else m.use1 } })) n g t rows) n t) g t t)) ∧
     (∀ (u : State) (e : Nat), let x := (pod u g).mxa
       (x.busyTo = some e → t ≤ e + 1 → pod (busySpan u n g t rows) g =
         { pod u g with mxa := { x with busyTo := some (max e (t + rows - 1 + 165)) } }) ∧
       ((x.busyTo = none ∨ x.busyTo = some e ∧ e + 1 < t) → pod (busySpan u n g t rows) g =
         { pod u g with mxa := { x with busyFrom := t, busyTo := some (t + rows - 1 + 165) } }) ∧
       (∀ k : Nat, k ≠ g → pod (busySpan u n g t rows) k = pod u k) ∧ (busySpan u n g t rows).gens = u.gens ∧
       (∀ k : Nat, pod (startRamp u n t) k = pod u k) ∧ (∀ k : Nat, k ≠ n → gen (startRamp u n t) k = gen u k)) ∧
     (∀ (r : MxaRow) (rs rs' : List MxaRow), (pod s g).hatch = some n → (pod s g).mxa.rows = r :: rs → t = r.launch + 166 →
       running (arrive s n t) n = true → (pod (arrive s n t) g).mxa.rows = r :: rs' →
       ∃ u, exec (.mxaRowResult g) s = .next u ∧
         (let v := reachHc (setPod (arrive s n t) g { pod (arrive s n t) g with mxa := { (pod (arrive s n t) g).mxa with rows := rs' } }) n t
          u = countOps (countOps (bump (setBits v (podReg g 0x408) r.flags) (podReg g 0x418) 1)
               (g / 128) (gen v n).part 0 r.aType r.products) (g / 128) (gen v n).part 1 r.bType r.products) ∧
         (pod u g).mxa.rows = rs' ∧ (∀ q : Nat, q ≠ g → pod u q = pod (arrive s n t) q)))

/-! ### Vector pipes (R135–R169, R171–R191) -/

/-- The row operations of the vector pipes, each with its OP (R146, R171, R191). -/
def Sys2Proof.Machine.rowCommands : List ((Fin 256 → Fin 2 → Bool → Instr) × Nat) :=
  [(.add, 0x1), (.sub, 0x2), (.mul, 0x3), (.fma, 0x4), (.min, 0x5), (.max, 0x6), (.mov, 0x7), (.movi, 0x8),
   (.iota, 0x9), (.cmp, 0x10), (.sel, 0x11), (.mand, 0x12), (.mor, 0x13), (.mxor, 0x14), (.mnot, 0x15),
   (.mtot, 0x16), (.ttom, 0x17), (.cvt, 0x18), (.qnt, 0x19), (.dqn, 0x1a), (.iadd, 0x20), (.isub, 0x21),
   (.iand, 0x22), (.ior, 0x23), (.ixor, 0x24), (.shl, 0x25), (.shr, 0x26), (.sra, 0x27), (.perm, 0x28), (.rot, 0x29),
   (.exp2, 0x40), (.log2, 0x41), (.pip, 0x44), (.stat, 0x60), (.scmb, 0x61), (.sfin, 0x62), (.sclr, 0x63),
   (.smax, 0x64), (.snrm, 0x65), (.scan, 0x68), (.ascn, 0x69)]

/-- What stands in the way of a row operation launched at `t` on pipe state `q`: nothing (R140–R142, R145, R165, R184). -/
def Sys2Proof.Machine.rowsClear (q : Pipe) (t : Nat) (ins : VIns) : Prop :=
  vBadStroke ins = false ∧ vModeFault ins = false ∧ vExtentFault ins = false ∧ q.portFree ≤ t ∧
    (ins.op = 0x44 → (pip q (activeTable q t)).st ≠ 0 ∧ pipBad (pip q (activeTable q t)).img (ins.subop % 8) = false)

/-- Each row operation, launched by a stroke on a pipe that no stipple owns, starts its rows: row k reads its sources o × k hc
after the launch and is written L hc later; the pipe's port is taken for o × NROWS hc, and its rows and occupied hc up to
the hatch's present hc are counted, those of later hc as they are reached (R141, R169). A PIP holds its table to the hc of its last row's read (R182). Nothing else changes. -/
def Obligations.RowOperationsStartTheirRows : Prop :=
  (∀ x ∈ rowCommands, ∀ (g : Fin 256) (i : Fin 2) (n t w : Nat) (s : State),
    let q := pipe (pod (launched s g n t (2 + i)) g) i
    Ready s g n t w (2 + i) x.2 0 → GoesOn s g n t (2 + i) t → rowsClear q t (vdec w) → q.stip = none → q.owned ≤ t →
    exec (x.1 g i false) s = .next (movedOn (startRows (launched s g n t (2 + i)) n g i t 0 0 (vdec w)
      ⟨(pod s g).burin.idx, i, false, 0, 0⟩ (activeTable q t)) g t t)) ∧
  (∀ (s : State) (h g i t n e : Nat) (ins : VIns) (x : VSite) (a : Nat), g < 256 → i < 2 →
    let u := startRows s h g i t n e ins x a
    let q := pipe (pod s g) i
    let b := vecBusyIn (pipe (pod u g) i) t (max t (gen s h).hc)
    (pipe (pod u g) i).portFree = t + vOcc ins * ins.nrows ∧
    (pipe (pod u g) i).rows = q.rows ++ tab ins.nrows (fun k => {
      pipe := i, ins := ins, row := ins.row0 + k, readHc := t + vOcc ins * k, writeHc := t + vOcc ins * k + vLatency ins,
      site := x, stream := q.stream, ebase := q.rbase + n * e, pitch := q.pitch, table := a }) ∧
    (ins.op = 0x44 → pip (pipe (pod u g) i) a = { pip q a with held := max (pip q a).held (t + 4 * (ins.nrows - 1) + 16) }) ∧
    (ins.op ≠ 0x44 → pip (pipe (pod u g) i) a = pip q a) ∧
    pipe (pod u g) (1 - i) = pipe (pod s g) (1 - i) ∧ (pod u g).burin = (pod s g).burin ∧ (pod u g).spad = (pod s g).spad ∧
    (pod u g).tiles = (pod s g).tiles ∧ (pod u g).masks = (pod s g).masks ∧ (pod u g).mxa = (pod s g).mxa ∧
    (rd s (podReg g (0x618 + 8 * i)) + ceilDiv' b (vOcc ins) < 2 ^ 64 →
      rd u (podReg g (0x618 + 8 * i)) = rd s (podReg g (0x618 + 8 * i)) + ceilDiv' b (vOcc ins)) ∧
    (rd s (podReg g (0x628 + 8 * i)) + b < 2 ^ 64 → rd u (podReg g (0x628 + 8 * i)) = rd s (podReg g (0x628 + 8 * i)) + b) ∧
    (∀ k, k ≠ g → pod u k = pod s k) ∧ u.gens = s.gens ∧ u.mem = s.mem ∧ u.out = s.out ∧ u.pending = s.pending)

/-- The stipple that runs on a pipe of pod `g` launches its next instruction, word `w`, in hc `t`, in the pod's own hatch `n`:
its word reads well, and its UNIT field is 0 (R160, R163). -/
def Sys2Proof.Machine.StipReady (s : State) (g n t i w : Nat) (z : Stip) : Prop :=
  (pod s g).hatch = some n ∧ (pipe (pod s g) i).stip = some z ∧ stipWord (pod s g) z = w ∧ t = z.base + strokeDelta w ∧
    running s n = true ∧ running (advance s n t) n = true ∧
    tget 0 (pod (reachHc (advance s n t) n t) g).slotErrs (16 * z.slot + z.instr / 2) = 0 ∧ bits w 16 4 = 0

/-- Stipples. STIP starts a stipple in its slot; each row operation of the slot launches relocated, with the repetition's
element step, and the stipple stands at the next instruction (R161, R162). END of a slot (R163, R164): with LINK it goes on in
the slot NEXT; else the next repetition starts over in the first slot, or, after the last, the pipe is the stroke program's
again once its port is free. -/
def Obligations.StipplesRunTheirSlots : Prop :=
  (∀ (g : Fin 256) (i : Fin 2) (n t w : Nat) (s : State),
     (let q := pipe (pod (launched s g n t (2 + i)) g) i
      Ready s g n t w (2 + i) 0x38 (resv 80 127) → GoesOn s g n t (2 + i) t → q.stip = none → q.owned ≤ t → q.portFree ≤ t →
      tget [] (pod (launched s g n t (2 + i)) g).slots (bits w 32 4) ≠ [] →
      exec (.stip g i) s = .next (movedOn (modPod (launched s g n t (2 + i)) g (fun p => setPipe p i { pipe p i with stip := some {
        first := bits w 32 4, slot := bits w 32 4, instr := 0, base := t, tbase := bits w 36 6, tstep := bits w 42 6,
        count := bits w 48 8 + 1, estep := bits w 56 24, rep := 0, links := 0, idx := (pod s g).burin.idx } })) g t t)) ∧
     (∀ x ∈ rowCommands, ∀ z : Stip,
      let R := reachHc (advance s n t) n t
      let q := pipe (pod R g) i
      let ins := vdec (relocate w (z.tbase + z.rep * z.tstep))
      StipReady s g n t i w z → strokeOp w = x.2 → vBadStroke (vdec w) = false → rowsClear q t ins → z.instr < 31 →
      exec (x.1 g i true) s = .next (modPod
        (startRows R n g i t z.rep z.estep ins ⟨z.idx, i, true, z.slot, z.instr⟩ (activeTable q t)) g
        (fun p => setPipe p i { pipe p i with stip := some { z with instr := z.instr + 1, base := t } })))) ∧
  (∀ (g : Fin 256) (i : Fin 2) (n t w : Nat) (z : Stip) (s : State),
     let R := reachHc (advance s n t) n t
     let put := fun (z' : Option Stip) (o : Nat) => modPod R g (fun p => setPipe p i { pipe p i with stip := z', owned := o })
     StipReady s g n t i w z → burinEnd (pod s g) i z = false → strokeOp w = 0x3F → w / 2 ^ 37 = 0 →
     (bit w 36 = true → z.links < 3 → tget [] (pod R g).slots (bits w 32 4) ≠ [] →
       exec (.stippleEnd g i) s = .next (put (some { z with slot := bits w 32 4, instr := 0, base := t, links := z.links + 1 })
         (pipe (pod R g) i).owned)) ∧
     (bit w 36 = false → z.rep + 1 < z.count →
       exec (.stippleEnd g i) s = .next (put (some { z with slot := z.first, instr := 0, base := t, links := 0, rep := z.rep + 1 })
         (pipe (pod R g) i).owned)) ∧
     (bit w 36 = false → z.count ≤ z.rep + 1 →
       exec (.stippleEnd g i) s = .next (put none (max t (pipe (pod R g) i).portFree))))

/-- SETRND loads the pipe's rounding context (R150). PTLOAD loads the table that is not active, by reads in the five plate hc
from its launch, READY four hc after the last, when the load is counted; PTSWAP makes it the active one (R180, R181, R187).
Inside a stipple each of them is a STIPPLE fault (R162). -/
def Obligations.PipeContextAndTables : Prop :=
  ∀ (g : Fin 256) (i : Fin 2) (n t w : Nat) (s : State),
    let L := launched s g n t (2 + i)
    let q := pipe (pod L g) i
    (Ready s g n t w (2 + i) 0x30 (resv 122 127) → GoesOn s g n t (2 + i) t → q.stip = none → q.owned ≤ t →
      exec (.setrnd g i false) s = .next (movedOn (modPod L g (fun p => setPipe p i { pipe p i with
        stream := bits w 32 16, rbase := bits w 48 50, pitch := bits w 98 24 })) g t t)) ∧
    (Ready s g n t w (2 + i) 0x48 (resv 48 127) → GoesOn s g n t (2 + i) t → 32 * bits w 32 16 + 4224 ≤ 0x200000 →
      q.act < 2 → (pip q (1 - q.act)).st ≠ 1 → (pip q (1 - q.act)).held ≤ t →
      (let hs := ptHcs (part L (gen L n).part).share (pod L g) t
       exec (.ptload g i false) s = .next (movedOn (modPod L g (fun p => setPipe p i
        { setPip (pipe p i) (1 - q.act) { st := 1, img := 0, ready := nth 0 hs 4 + 4, held := (pip q (1 - q.act)).held } with
          ptReads := q.ptReads ++ (List.range 5).map (fun k =>
            (⟨nth 0 hs k, bits w 32 16 + 32 * k, if k = 4 then 4 else 32, 32 * k, 1 - q.act, (pod s g).burin.idx⟩ : PtRead)) })) g t t))) ∧
    (Ready s g n t w (2 + i) 0x49 (resv 32 127) → GoesOn s g n t (2 + i) t →
      ((pip q (1 - q.act)).st = 2 ∨ (pip q (1 - q.act)).st = 1 ∧ (pip q (1 - q.act)).ready ≤ t) →
      exec (.ptswap g i false) s = .next (movedOn (modPod L g (fun p => setPipe p i { pipe p i with
        act := 1 - q.act, oldAct := q.act, swapAt := t, swapped := true })) g t t)) ∧
    (∀ j < 2, (pod s g).hatch = some n → (pip (pipe (pod s g) i) j).st = 1 → (pip (pipe (pod s g) i) (1 - j)).st ≠ 1 →
      (pip (pipe (pod s g) i) j).ready = t → running (arrive s n t) n = true →
      exec (.pipTableReady g i) s = .next (bump (modPod (reachHc (arrive s n t) n t) g (fun p =>
        setPipe p i (setPip (pipe p i) j { pip (pipe p i) j with st := 2 }))) (podReg g 0x820) 1)) ∧
    (∀ z x, x ∈ [((.setrnd g i true : Instr), 0x30), (.ptload g i true, 0x48), (.ptswap g i true, 0x49)] →
      StipReady s g n t i w z → strokeOp w = x.2 →
      exec x.1 s = .next (vecFault (reachHc (advance s n t) n t) n g t 6 ⟨z.idx, i, true, z.slot, z.instr⟩))

/-- The row of a pipe that falls due first is written in its hc (R141), where no row of the hatch traps in it and no transfer
row clashes: the bits that it writes replace those of its tile or mask row, it is no longer in flight, its flags are set,
and no other pod changes (R135, R158, R159). -/
def Obligations.RowsAreWrittenWhenDue : Prop :=
  ∀ (g : Fin 256) (i : Fin 2) (n h : Nat) (s : State) (r : VRow) (o : RowOut) (rw' : RowWrite) (q : Pod),
    (pod s g).hatch = some n → ((pipe (pod s g) i).rows.map (·.writeHc)).min? = some h →
    running (advance s n h) n = true →
    (∀ k ∈ hatchPods (advance s n h) n, trapRow (advance s n h) k 0 h = none ∧ trapRow (advance s n h) k 1 h = none) →
    settleTiles g (settleSpad (pod (advance s n h) g) h) h = (q, []) →
    (pipe q i).rows.find? (fun r => r.writeHc == h) = some r → r.out = some o → o.writes = [rw'] →
    (∀ a ∈ q.tileAcc, a.hc ≠ h) →
    ∃ u, exec (.vectorRowWrite g i) s = .next u ∧
      fileRow g (pod u g) rw'.key = (fileRow g q rw'.key ^^^ (fileRow g q rw'.key &&& rw'.wmask)) ||| (rw'.val &&& rw'.wmask) ∧
      (∀ k, k ≠ rw'.key → fileRow g (pod u g) k = fileRow g q k) ∧
      (pipe (pod u g) i).rows = (pipe q i).rows.erase r ∧
      rd u (podReg g (0x608 + 4 * i)) = rd (advance s n h) (podReg g (0x608 + 4 * i)) ||| o.flags ∧
      (pod u g).spad = q.spad ∧ (∀ k : Nat, k ≠ g → pod u k = pod (advance s n h) k) ∧ u.mem = (advance s n h).mem ∧
      u.pending = (advance s n h).pending

/-- The value of an integer operation on two lanes (R148). -/
def Sys2Proof.Machine.intSpec (op : Nat) (a b : BitVec 32) : BitVec 32 :=
  match op with
  | 0x20 => a + b
  | 0x21 => a - b
  | 0x22 => a &&& b
  | 0x23 => a ||| b
  | 0x24 => a ^^^ b
  | 0x25 => a <<< b.toNat
  | 0x26 => a >>> b.toNat
  | _ => a.sshiftRight b.toNat

/-- Integer operations wrap modulo 2^32 and raise no flag; a shift's count is B's unsigned value, and one from 32 upwards
leaves 0, or for SRA the sign in every bit (R148). A lane that the mask leaves out keeps its bits, or is written 0 under
ZERO, and lanes from LANES up keep theirs (R143). -/
def Obligations.IntegerRowsWrap : Prop :=
  ∀ (x : RowSrc) (i : VIns), 0x20 ≤ i.op → i.op ≤ 0x27 → i.mode = 3 → i.narrow = false → i.half = 0 → i.bmode = 0 →
    ∃ o, (vecRow x i).writes = [o] ∧ o.key = 8 * i.d + x.row ∧ (vecRow x i).flags = 0 ∧
      (∀ j < i.lanes, maskBit x i.mask j = true → bits o.wmask (32 * j) 32 = 2 ^ 32 - 1 ∧
        BitVec.ofNat 32 (bits o.val (32 * j) 32) = intSpec i.op (BitVec.ofNat 32 (bits (x.tile (8 * i.a + x.row)) (32 * j) 32))
          (BitVec.ofNat 32 (bits (x.tile (8 * i.b + x.row)) (32 * j) 32))) ∧
      (∀ j < i.lanes, maskBit x i.mask j = false → bits o.val (32 * j) 32 = 0 ∧
        bits o.wmask (32 * j) 32 = if i.zero then 2 ^ 32 - 1 else 0) ∧
      (∀ j, i.lanes ≤ j → bits o.wmask (32 * j) 32 = 0)

/-! ### Transfers and memory strokes (R206–R210, R257–R260) -/

/-- LDT and STT put a transfer under way, whose first access is made in the first plate hc (R209, R210). An access of an LDT
reads one row's 32 words, which replace the tile row 6 hc later; one of an STT whose rows fill whole words writes them from
the tile row, visible 4 hc later. The next access follows in the next plate hc. No other pod changes. -/
def Obligations.TransfersMoveTileRows : Prop :=
  (∀ (g : Fin 256) (n t w : Nat) (s : State) (b : Bool),
    let L := launched s g n t 4
    Ready s g n t w 4 (if b then 2 else 1) (resv 86 127) → GoesOn s g n t 4 t → xferBad w b = false → (b = true → bits w 77 9 < 256) →
    exec (if b then .stt g else .ldt g) s = .next (movedOn (modPod L g (fun p => { p with xfers := p.xfers ++ [{
      store := b, tile := bits w 32 6, row0 := bits w 38 3, nrows := bits w 41 3 + 1, waddr := bits w 44 16,
      wstride := bits w 60 16, wide := bit w 76, lanes := bits w 77 9 + 1,
      nextHc := nextPlate (part L (gen L n).part).share p t, row := 0, part := 0, idx := (pod s g).burin.idx, hold := 0 }] })) g t t)) ∧
  (∀ (g : Fin 256) (n h : Nat) (s : State) (x : Xfer) (p q : Pod),
    let A := arrive s n h
    let a := x.waddr + x.wstride * x.row
    let words := (List.range (if x.store then x.lanes / 8 else 32)).map (a + ·)
    let share := (part A (gen A n).part).share
    let more := if x.row + 1 < x.nrows then [{ x with part := 0, row := x.row + 1, nextHc := nextPlate share q (h + 1), hold := 0 }]
      else []
    (pod s g).hatch = some n → (pod s g).xfers = [x] → x.nextHc = h → running A n = true →
    settleTiles g (settleSpad (pod A g) h) h = (p, []) → p.xfers = [x] → p.errs = [] →
    x.wide = false → x.part = 0 → (x.store = true → x.lanes % 8 = 0) →
    portAccess p h (if x.store then [] else words.map (fun k => (k, x.idx))) (if x.store then words.map (fun k => (k, x.idx)) else []) = (q, []) →
    exec (.transferRowAccess g) s = .next (reachHc (setPod A g
      (if x.store then { q with xfers := more, spadPend := q.spadPend ++ (List.range (x.lanes / 8)).map (fun k =>
          ⟨h + 4, h, h, g, 32 * (a + k), 32, bits (fileRow g q (8 * x.tile + x.row0 + x.row)) (256 * k) 256⟩) }
       else { q with xfers := more, tilePend := q.tilePend ++
          [⟨h + 6, ⟨8 * x.tile + x.row0 + x.row, fullRow, x.hold + spadRead q (32 * a) 1024⟩, ⟨x.idx, 0, false, 0, 0⟩⟩] })) n h))

/-- Memory READ and WRITE (R258, R260), of a granule that passes the checks of R259. A READ sends a request to the granule's
channel, with what the granule held then, and its landing entry falls due GAP hc later. A WRITE stores the pod's two words
in the granule, claims an entry of the channel's write buffer, and queues the request that drains it. Requests stand in
launch order, those of one hc in ascending pod order (R254). -/
def Obligations.MemoryStrokesReachTheStacks : Prop :=
  ∀ (g : Fin 256) (n t w a : Nat) (l : Loc) (s : State),
    let L := launched s g n t 6
    let q := (gen L n).part
    (Ready s g n t w 6 1 0 → GoesOn s g n t 6 t → 0 < bits w 112 16 → (∀ x ∈ (pod L g).landing, x.entry ≠ bits w 88 8) →
      (t, bits w 88 8) ∉ (pod L g).landDone → memCheck L n g w (t + bits w 112 16) false = .inr a → locate L a = some l →
      exec (.memRead g) s = .next (movedOn (enqueue (modPod L g (fun p => { p with landing := p.landing ++ [{
        due := t + bits w 112 16, entry := bits w 88 8, word := bits w 96 16, idx := (pod s g).burin.idx,
        desc := bits w 32 16, granule := bits w 48 40, st := l.st, served := none, landed := false, bad := false, data := 0 }] }))
        l.st l.c n ⟨false, l.pg, a, q, t, g, bits w 88 8, rawGranule L l.pg, granuleOvl L l.pg⟩) g t t)) ∧
    (∀ p', Ready s g n t w 6 2 (resv 88 95 + resv 112 127) → GoesOn s g n t 6 t → memCheck L n g w t true = .inr a →
      locate L a = some l → (settleSpad (pod L g) t).errs = [] → (settleSpad (pod L g) t).ceLog = [] →
      portAccess (settleSpad (pod L g) t) t [(bits w 96 16, (pod s g).burin.idx), (bits w 96 16 + 1, (pod s g).burin.idx)] [] = (p', []) →
      ∃ u, exec (.memWrite g) s = .next u ∧ (pod u g).burin = (moveOn (pod L g).burin t t).1 ∧ (pod u g).spad = p'.spad ∧
        (let v := mread (settleSpad (pod L g) t).spad (32 * bits w 96 16) 64
         (∀ k < 64, readByte u.mem (64 * l.pg + k) = BitVec.ofNat 8 (v / 256 ^ k)) ∧ granuleOvl u l.pg = 0 ∧
         tget [] (chan u l.st l.c).queues n = placeReq (tget [] (chan L l.st l.c).queues n) ⟨true, l.pg, a, q, t, g, 0, v, 0⟩) ∧
        (∀ b, (b < 64 * l.pg ∨ 64 * l.pg + 64 ≤ b) → readByte u.mem b = readByte L.mem b) ∧
        (∀ pg, pg ≠ l.pg → granuleOvl u pg = granuleOvl L pg) ∧
        tget 0 (chan u l.st l.c).buf q = tget 0 (chan L l.st l.c).buf q + 1 ∧
        (∀ k : Nat, k ≠ g → pod u k = pod L k) ∧ u.gens = L.gens ∧ u.parts = L.parts ∧ u.ctrs = L.ctrs ∧ u.out = L.out ∧
        u.pending = L.pending)

/-- The served granule of a pod that was served first arrives, and the hatch, where nothing holds its next edge, goes on; the
landing write that falls due takes the granule to its words, to be read 4 hc later, and its entry is free (R75, R78,
R258). -/
def Obligations.GranulesLand : Prop :=
  (∀ (g : Fin 256) (n k : Nat) (s : State), (pod s g).hatch = some n →
    (((pod s g).landing.filter (fun l => !l.landed)).filterMap (·.served)).min? = some k →
    ∃ u, exec (.granuleLanded g) s = .next u ∧
      pod u g = { pod s g with landing := (pod s g).landing.map (fun l => if l.served == some k then { l with landed := true } else l) } ∧
      (∀ j : Nat, j ≠ g → pod u j = pod s j) ∧ (∀ m : Nat, m ≠ n → gen u m = gen s m) ∧
      ((gen s n).st ≠ .held → gen u n = gen s n) ∧ u.regs = s.regs ∧ u.mem = s.mem ∧ u.pending = s.pending) ∧
  (∀ (g : Fin 256) (n h : Nat) (s : State) (x : Landing) (q : Pod),
    let A := arrive s n h
    let R := reachHc A n h
    (pod s g).hatch = some n → ((pod s g).landing.map (·.due)).min? = some h → running A n = true →
    (pod A g).landing.find? (fun l => l.due == h) = some x → x.bad = false →
    plateHc (part R (gen R n).part).share (pod R g) h = true →
    portAccess (pod R g) h [] [(x.word, x.idx), (x.word + 1, x.idx)] = (q, []) →
    ∃ u, exec (.landingWrite g) s = .next u ∧
      pod u g = { q with
        landing := q.landing.erase x
        landDone := q.landDone.filter (fun e => e.1 == h) ++ [(h, x.entry)]
        spadPend := q.spadPend ++ [⟨h + 4, h, h, g, 32 * x.word, 64, x.data⟩] } ∧
      (∀ k : Nat, k ≠ g → pod u k = pod A k) ∧ u.mem = A.mem ∧ u.parts = A.parts ∧ u.ctrs = A.ctrs ∧ u.out = A.out ∧
      u.pending = A.pending)

/-! ### Copies (R211–R240) -/

/-- A copy channel takes a copy: behind the one in progress, or, on an idle channel, at once (R226–R228, R266). The plate
enqueues by a stroke on a channel that it owns, the runtime by a register of one of its own; CPY_CH_OWNER gives a free idle
channel to the runtime and takes it back. -/
def Obligations.CopiesAreQueued : Prop :=
  (∀ (s : State) (d n ref iter : Nat) (r : CopyRun), (copyChan s d n).run = some r → (copyChan s d n).st = 1 →
    enqueueCopy s d n ref iter = setCopy s d n { copyChan s d n with queue := (copyChan s d n).queue ++ [⟨ref, iter⟩] }) ∧
  (∀ (s : State) (d n ref iter img : Nat), (copyChan s d n).run = none → (copyChan s d n).st = 0 → (copyChan s d n).queue = [] →
    (copyChan s d n).held = [] → copyAt s (chPart s d n) ref = some img → cdRemote img = false →
    (let late := cdDeadline img ≠ 0 ∧ (copyStacks s (chPart s d n) img iter).any (keepOnly s) = true
     enqueueCopy s d n ref iter = setCopy s d n { copyChan s d n with
      st := 1
      queue := []
      run := some { img := img, iter := iter, ref := ref, flags := if late then 2 else 0 } })) ∧
  (∀ (g : Fin 256) (n t w img : Nat) (s : State),
    let L := launched s g n t 7
    let d := (g : Nat) / 128
    let c := bits w 32 5
    Ready s g n t w 7 1 (resv 53 63 + resv 96 127) → GoesOn s g n t 7 t → chKind L d c = 1 → chPart L d c = (gen L n).part →
    (copyChan L d c).st = 1 → (copyChan L d c).run ≠ none → copyAt L (gen L n).part (bits w 37 16) = some img →
    bits w 64 32 < cdIters img → chDepth (copyChan L d c) < 64 →
    exec (.copyEnqueue g) s = .next (movedOn (enqueueCopy L d c (bits w 37 16) (bits w 64 32)) g t t)) ∧
  (∀ (r : Requester) (d : Fin 2) (n : Fin 32) (v : BitVec 64) (img : Nat) (s : State), canWrite s r (chReg d n 8) →
    chKind s d n = 2 → (copyChan s d n).st ≠ 2 → copyAt s (chPart s d n) (bits v.toNat 0 32) = some img →
    (bits v.toNat 32 32 < cdIters img → chDepth (copyChan s d n) < 64 →
      exec (.cpyChEnq r d n v) s = .next (enqueueCopy s d n (bits v.toNat 0 32) (bits v.toNat 32 32))) ∧
    (bits v.toNat 32 32 < cdIters img → 64 ≤ chDepth (copyChan s d n) →
      exec (.cpyChEnq r d n v) s = .next (setBits s (chReg d n 0x14) 8))) ∧
  (∀ (r : Requester) (d : Fin 2) (n : Fin 32) (v : BitVec 32) (s : State), canWrite s r (chReg d n 4) → (copyChan s d n).st = 0 →
    (chKind s d n = 0 → bits v.toNat 0 2 = 2 → exec (.cpyChOwnerWrite r d n v) s = .next (wr s (chReg d n 4) (bits v.toNat 0 5))) ∧
    (chKind s d n = 2 → bits v.toNat 0 2 = 0 → exec (.cpyChOwnerWrite r d n v) s = .next (wr s (chReg d n 4) 0)))

/-- The last copy of a channel is done: the channel is IDLE, its event DONE is set, and the descriptor's signal goes to the
counter unit; a local copy's data stand where they were moved, a REMOTE one is done once every span is acknowledged (R228,
R230, R333). -/
def Obligations.LastCopyDone : Prop :=
  ∀ (d : Fin 2) (n : Fin 32) (s : State) (r : CopyRun), (copyChan s d n).run = some r → r.done = none → cdRecord r.img = false →
    let sig := if cdSignal r.img then [({ op := 0, id := 4096 * d + cdCtr r.img, inc := cdInc r.img } : Change)] else []
    (cdRemote r.img = true → r.total ≤ r.acked → (copyChan s d n).st = 1 → (copyChan s d n).queue = [] → (copyChan s d n).held = [] →
      ∃ u, exec (.copyDone d n) s = .next u ∧ (copyChan u d n).run = none ∧ (copyChan u d n).st = 0 ∧
        bit (rd u (chReg d n 0x14)) 0 = true ∧ changes u d = changes s d ++ sig ∧ u.mem = s.mem ∧ u.pods = s.pods ∧
        u.ctrs = s.ctrs ∧ u.out = s.out ∧ u.pending = s.pending) ∧
    (let f := freshSpads s
     let e := moveCopy f (chPart s d n) (copyItems f (jobOf s (chPart s d n) r.img r.iter)) r.touched (chSlots f d n)
     cdRemote r.img = false → e.bad = none → (copyChan e.s d n).st = 1 → (copyChan e.s d n).queue = [] → (copyChan e.s d n).held = [] →
      ∃ u, exec (.copyDone d n) s = .next u ∧ (copyChan u d n).run = none ∧ (copyChan u d n).st = 0 ∧
        bit (rd u (chReg d n 0x14)) 0 = true ∧ changes u d = changes e.s d ++ sig ∧ u.mem = e.s.mem ∧ u.pods = e.s.pods ∧
        u.ctrs = e.s.ctrs ∧ u.out = e.s.out ∧ u.pending = e.s.pending)

/-- Channel commands and limits (R229, R231, R233, R235, R236): ABORT of the copy in progress ends it and, with no copy
behind it, leaves the channel IDLE with ENDED set; DISABLE drains a running channel and frees an idle one; RESUME flushes a
halted one; a passed deadline marks the copy LATE with its event; at the drain limit a channel is free; a ring tail that
frees no record's room only moves. -/
def Obligations.ChannelCommands : Prop :=
  ∀ (r : Requester) (d : Fin 2) (n : Fin 32) (s : State), canWrite s r (chReg d n 0x10) →
    (∀ x, (copyChan s d n).st = 1 → (copyChan s d n).run = some x → cdRecord x.img = false →
      ∃ u, exec (.cpyChAbort r d n) s = .next u ∧
        ((copyChan (poisonDest (cmdResult s d n 0) (jobOf (cmdResult s d n 0) (chPart s d n) x.img x.iter)) d n) =
          { copyChan s d n with result := 0, queue := [], held := [] } →
         (copyChan u d n).run = none ∧ (copyChan u d n).st = 0 ∧ (copyChan u d n).result = 0 ∧
          bit (rd u (chReg d n 0x14)) 5 = true)) ∧
    ((copyChan s d n).run = none → exec (.cpyChAbort r d n) s = .next (setCopy s d n { copyChan s d n with result := 0x23 })) ∧
    (chKind s d n = 2 → (copyChan s d n).st = 1 →
      exec (.cpyChDisable r d n) s = .next (setCopy s d n { copyChan s d n with result := 0, st := 2 })) ∧
    (chKind s d n = 2 → (copyChan s d n).st = 0 →
      exec (.cpyChDisable r d n) s = .next (setCopy (wr s (chReg d n 4) 0) d n { copyChan s d n with result := 0, st := 0, queue := [] })) ∧
    ((copyChan s d n).st = 3 → (copyChan s d n).queue = [] →
      exec (.cpyChResume r d n) s = .next (setCopy s d n { copyChan s d n with result := 0, queue := [], st := 0 })) ∧
    ((copyChan s d n).st ≠ 3 → exec (.cpyChResume r d n) s = .next (setCopy s d n { copyChan s d n with result := 0x20 })) ∧
    (∀ x, (copyChan s d n).run = some x → cdDeadline x.img ≠ 0 → cdAbortLate x.img = false → bit x.flags 0 = false → x.done = none →
      (copyStacks s (chPart s d n) x.img x.iter).any (keepOnly s) = false →
      exec (.copyDeadlineExpired d n) s = .next (setBits (setCopy s d n { copyChan s d n with run := some { x with flags := x.flags ||| 1 } })
        (chReg d n 0x14) 2)) ∧
    ((copyChan s d n).st = 2 → (copyChan s d n).run = none → (copyChan s d n).queue = [] →
      exec (.copyDrainTimeout d n) s = .next (setCopy (wr s (chReg d n 4) 0) d n { copyChan s d n with st := 0, queue := [] })) ∧
    (∀ v : BitVec 32, canWrite s r (chReg d n 0x24) → (copyChan s d n).run = none → (copyChan s d n).held = [] →
      (copyChan s d n).st = 0 → exec (.cpyChRingTailWrite r d n v) s = .next (wr s (chReg d n 0x24) v.toNat))

/-- Range commands (R211, R212, R239): a command is BUSY until it completes, and one that meets BUSY or names no operation
changes nothing but, for the latter, the result. ALLOC of a good span gives a free range a handle; FREE of a range that no
descriptor names takes it back, so that its handle is stale. Describe commands (R218, R239, R240): the 64-byte image is
copied as the command is accepted; when it completes, a good tensor or copy image is a live descriptor of the runtime table,
and DESTROY takes a descriptor out. -/
def Obligations.RangeAndDescriptorCommands : Prop :=
  (∀ (r : Requester) (d : Fin 2) (s : State), (canWrite s r (cpyReg d 0x18) →
     (∀ c, tfind s.rangeCmds d = some c → ∀ p b w, exec (.alloc r d p b w) s = .next s ∧ exec (.free r d) s = .next s) ∧
     (tfind s.rangeCmds d = none →
       (∀ (p : Fin 8) (b w : Bool), exec (.alloc r d p b w) s = .next { s with
         rangeCmds := tset s.rangeCmds d ⟨1 + 4 * p + 32 * b2n b + 64 * b2n w, rd s (cpyReg d 8), rd s (cpyReg d 0x10), false⟩ }) ∧
       exec (.free r d) s = .next { s with rangeCmds := tset s.rangeCmds d ⟨2, rd s (cpyReg d 8), rd s (cpyReg d 0x10), false⟩ } ∧
       (∀ op : BitVec 2, op ≠ 1 → op ≠ 2 → exec (.cpyRangeBadCommand r d op) s = .next (wr s (cpyReg d 0x1C) 0x0F)))) ∧
   (∀ (p : Fin 8) (b w : Bool) (a n : Nat), dieUp s d = true →
     tfind s.rangeCmds d = some ⟨1 + 4 * p + 32 * b2n b + 64 * b2n w, a, n, false⟩ → rangeOk s p a n b = true →
     (∀ e ∈ s.ranges, e.2.live = true → e.2.base + e.2.len ≤ a ∨ a + n ≤ e.2.base) →
     (∃ i < 4096, (rangeAt s i).live = false) →
     ∃ u i, exec (.rangeCommandComplete d) s = .next u ∧ i < 4096 ∧ (rangeAt s i).live = false ∧
       rangeAt u i = { rangeAt s i with live := true, base := a, len := n, part := p, spad := b, writable := w, count := 0 } ∧
       (∀ j, j ≠ i → rangeAt u j = rangeAt s j) ∧ rd u (cpyReg d 0x1C) = 0 ∧
       rd u (cpyReg d 0x20) = i + 4096 * p + 32768 * b2n b + 65536 * ((rangeAt s i).gen % 2 ^ 32) ∧
       tfind u.rangeCmds d = none ∧ u.mem = s.mem ∧ u.parts = s.parts ∧ u.copies = s.copies ∧ u.pending = s.pending) ∧
   (∀ (h : Nat) (x : Range), dieUp s d = true → tfind s.rangeCmds d = some ⟨2, h, 0, false⟩ → rangeOf s h (handlePart h) = some x →
     x.count = 0 →
     exec (.rangeCommandComplete d) s = .next (wr (setRange { s with rangeCmds := tdel s.rangeCmds d } (handleIdx h)
       { x with live := false, gen := (x.gen + 1) % 2 ^ 32 }) (cpyReg d 0x1C) 0))) ∧
  (∀ (r : Requester) (d : Fin 2) (p : Fin 8) (i : Fin 4096) (s : State), (canWrite s r (cpyReg d 0x30) → tfind s.descCmds d = none →
     (memOk s (rd s (cpyReg d 0x28)) 64 = true → memBad s (rd s (cpyReg d 0x28)) 64 = false →
       ∃ u v, exec (.describeTensor r d p i) s = .next u ∧ exec (.describeCopy r d p i) s = .next v ∧
         tfind u.descCmds d = some ⟨1 + 4 * p + 65536 * i, memRead s (rd s (cpyReg d 0x28)) 64, 0, false⟩ ∧
         tfind v.descCmds d = some ⟨2 + 4 * p + 65536 * i, memRead s (rd s (cpyReg d 0x28)) 64, 0, false⟩) ∧
     exec (.destroy r d p i) s = .next { s with descCmds := tset s.descCmds d ⟨3 + 4 * p + 65536 * i, 0, 0, false⟩ } ∧
     exec (.cpyDescBadCommand r d) s = .next (wr s (cpyReg d 0x34) 0x0F)) ∧
   (∀ (img : Nat) (op : Fin 2), dieUp s d = true → tfind s.descCmds d = some ⟨op + 1 + 4 * p + 65536 * i, img, 0, false⟩ →
     tfind (part s p).runDescs i = none → (if op = 0 then describeTensor s img p else describeCopy s img p true) = 0 →
     ∃ u, exec (.descCommandComplete d) s = .next u ∧
       tfind (part u p).runDescs i = some (if op = 0 then .tensor img else .copy img) ∧
       (∀ j, j ≠ (i : Nat) → tfind (part u p).runDescs j = tfind (part s p).runDescs j) ∧
       rd u (cpyReg d 0x34) = 0 ∧ tfind u.descCmds d = none ∧ u.mem = s.mem ∧ u.pending = s.pending) ∧
   (∀ (e : DescE), dieUp s d = true → tfind s.descCmds d = some ⟨3 + 4 * p + 65536 * i, 0, 0, false⟩ →
     tfind (part s p).runDescs i = some e → (∀ x, e = .tensor x → namedByCopy s p (2 ^ 16 + i) = false) →
     ∃ u, exec (.descCommandComplete d) s = .next u ∧ (part u p).runDescs = tdel (part s p).runDescs i ∧
       rd u (cpyReg d 0x34) = 0 ∧ u.mem = s.mem ∧ u.pending = s.pending))

/-! ### Sync counters (R321–R341) -/

/-- Strokes and runtime signals reach the counter units as changes (R323–R327, R337): a SIGNAL to an active counter of its
partition's block queues INC, to take effect once the pod's earlier writes are complete; one to a BROKEN counter is dropped
and counted; a REBASE goes to both dies; SYN_SIGNAL acts on an active counter with RUNTIME, where INC 0 is discarded, and
else sets its event. -/
def Obligations.SignalsReachTheCounterUnits : Prop :=
  (∀ (g : Fin 256) (n t w : Nat) (s : State),
    let L := launched s g n t 8
    let id := bits w 32 13
    let inc := bits w 64 32
    Ready s g n t w 8 1 0 → GoesOn s g n t 8 t → inc ≠ 0 → bits w 45 19 = 0 → bits w 96 32 = 0 →
    inBlock L (gen L n).part id = true →
    (((ctr L id).st = 1 ∨ (ctr L id).st = 3) → exec (.signal g) s =
      .next (movedOn (queueChange L (id / 4096) { op := 0, id := id, inc := inc, cover := some (g, coverHc L n g t) }) g t t)) ∧
    ((ctr L id).st = 2 → exec (.signal g) s = .next (movedOn (bump L (synReg (id / 4096) 0x98) 1) g t t))) ∧
  (∀ (g : Fin 256) (n t w id : Nat) (s : State),
    let L := launched s g n t 8
    let c : Change := { op := 1, id := 16 * (gen L n).part + bits w 32 4 }
    Ready s g n t w 8 2 0 → GoesOn s g n t 8 t → w >>> 36 = 0 → id ∈ ctrsOf L (gen L n).part →
    (ctr L id).group = some (bits w 32 4) →
    exec (.rebase g) s = .next (movedOn (queueChange (queueChange L 0 c) 1 c) g t t)) ∧
  (∀ (r : Requester) (d : Fin 2) (v : BitVec 64) (s : State),
    let id := bits v.toNat 0 13
    let inc := bits v.toNat 32 32
    canWrite s r (synReg d 0x10) →
    exec (.synSignal r d v) s = .next (if ((ctr s id).st = 1 ∨ (ctr s id).st = 3) ∧ (ctr s id).runtime = true then
      (if inc = 0 then s else queueChange s (id / 4096) { op := 0, id := id, inc := inc }) else setBits s (synReg d 8) 8))

/-- A counter unit applies the change at its head (R325, R326, R332). An addition that stays within 48 bits adds; past them
VALUE is 2^48 - 1 and the counter is BROKEN with cause OVERFLOW; one that reaches TRIGGER of a LIVE counter linked to one
counter of this module sends it n × OUT_INC, with TRIGGER n strides on. No other counter changes. -/
def Obligations.CounterChangesApply : Prop :=
  ∀ (d : Fin 2) (c : Change) (l : List Change) (s : State),
    let x := ctr s c.id
    let v := x.value + c.inc
    let n := (v - x.trigger) / x.stride + 1
    let quiet := x.destCount = 0 ∨ x.stride = 0 ∨ v < x.trigger
    changes s d = c :: l → covered s c = true → c.op = 0 → (x.st = 1 ∨ x.st = 3) →
    (2 ^ 48 ≤ v ∨ quiet ∨ (x.st = 1 ∧ ∃ k dc, destsOf s c.id = [(k, synModule s, dc)] ∧ dc / 4096 = d)) →
    ∃ u, exec (.counterChangeApply d) s = .next u ∧ (∀ j, j ≠ c.id → ctr u j = ctr s j) ∧ u.mem = s.mem ∧ u.pods = s.pods ∧
      u.gens = s.gens ∧ u.cons = s.cons ∧ u.dests = s.dests ∧ u.pending = s.pending ∧
      (2 ^ 48 ≤ v → ctr u c.id = { x with value := 2 ^ 48 - 1, st := 2, cause := 4 }) ∧
      (v < 2 ^ 48 → quiet →
        ctr u c.id = { x with value := v } ∧ changes u d = l ∧ changes u (1 - d) = changes s (1 - d)) ∧
      (∀ k dc, v < 2 ^ 48 → x.stride ≠ 0 → x.trigger ≤ v → x.st = 1 → destsOf s c.id = [(k, synModule s, dc)] → dc / 4096 = d →
        ctr u c.id = { x with value := v, trigger := x.trigger + n * x.stride } ∧
        changes u d = l ++ [{ op := 0, id := dc, inc := n * x.outInc, emitter := some c.id }])

/-- LATE and the deadlock detector (R340, R341). A late module's LATE to one remote destination joins its port's queue; the
marks of a LATE that lapses, of a spent allowance and of a new episode change; the detector, on an idle partition's home
die, writes SYN_DL_RECORD and its event, logs, and asks for a reset with cause DEADLOCK; a read of the record takes it. -/
def Obligations.LatenessAndDeadlock : Prop :=
  (∀ (p : Fin 8) (m c e d : Nat) (s : State), lateLocal s p = true → (part s p).frozen = false → remoteDests s p = [(d, m, c)] →
    routeOf s d 8 m = e → portClosed s e = false →
    exec (.lateSend p) s = .next (modPort s e (fun x => { x with q3 := x.q3 ++ [{
      typ := 3, vl := 3, units := 0, hops := 0, dst := m, src := moduleId s,
      body := fld 0 16 c + fld 16 16 (moduleId s) + fld 32 8 0 }] }))) ∧
  (∀ (p : Fin 8) (s : State), exec (.lateMarkExpired p) s = .next (modPart s p (fun x => { x with lateIn := false }))) ∧
  (∀ (d : Fin 2) (p : Fin 8) (s : State), (d : Nat) = homeDie s p →
    ((lateLocal s p = true ∨ (part s p).lateIn = true) →
      exec (.lateCapExhausted d p) s = .next (modPart s p (fun x => { x with lateCapped := true }))) ∧
    (lateLocal s p = false → (part s p).lateIn = false →
      exec (.lateEpisodeEnd d p) s = .next (modPart s p (fun x => { x with lateCapped := false })))) ∧
  (∀ (d : Fin 2) (p : Fin 8) (n : Nat) (ns : List Nat) (s : State),
    let v := fld 0 3 p + fld 8 13 (waitCtr s n) + fld 63 1 1
    dieUp s d = true → (d : Nat) = homeDie s p → gensOf s p = n :: ns → deadlockIdle s p = true → (part s p).resetReq = none →
    ∃ u, exec (.deadlockDetected d p) s = .next u ∧ rd u (synReg d 0x18) = v ∧ bit (rd u (synReg d 8)) 1 = true ∧
      part u p = { part s p with resetReq := some ⟨3, 0, 0⟩ } ∧ (∀ q : Nat, q ≠ p → part u q = part s q) ∧
      u.ctrs = s.ctrs ∧ u.gens = s.gens ∧ u.pods = s.pods ∧ u.mem = s.mem ∧ u.pending = s.pending) ∧
  (∀ (d : Fin 2) (s : State),
    let a := synReg d 0x18
    reachable s a = true →
    (rd s a = 0 → exec (.synDlRecordRead d .whole) s = .next (emit s (.value a 0)) ∧
      exec (.synDlRecordRead d .lower) s = .next (emit s (.value a 0))) ∧
    (rd s a ≠ 0 → exec (.synDlRecordRead d .lower) s =
      .next (emit (wr { s with shadow := tset s.shadow a (rd s a / 2 ^ 32) } a 0) (.value a (rd s a % 2 ^ 32)))) ∧
    (rd s a ≠ 0 → ∃ u, exec (.synDlRecordRead d .whole) s = .next u ∧ rd u a = 0 ∧ u.out = .value a (rd s a) :: s.out) ∧
    exec (.synDlRecordRead d .upper) s = .next (emit s (.value a (tget 0 s.shadow a))))

/-! ### Plates (R46–R62) -/

/-- The life of a staged plate (R46, R47, R52, R53, R60). LOAD copies the bytes that its registers name into an EMPTY or
REFUSED slot, or a READY one under REPLACE; the copy is then verified, READY with its descriptors bound or REFUSED with the
first check that failed; DISCARD empties the slot; ABORT ends a load in progress with its fault; each records
DIE_DOWN with a die of the partition down (R54); a command that the state does not take, or that is not listed, records its fault and changes nothing else. -/
def Obligations.PlatesLoad : Prop :=
  ∀ (r : Requester) (p : Fin 8) (s : State),
    let x := part s p
    let fault := fun (u : State) (c : Nat) => setBits (wr u (pltReg p 0x28) (c + 0xFF00)) (pltReg p 0x24) 2
    (canWrite s r (pltReg p 0x1C) →
      (∀ b : Bool, (x.staged = 0 ∨ x.staged = 4 ∨ (x.staged = 3 ∧ b = true)) → plateDieDown s p = false → sourceOk s p = true →
        exec (.load r p b) s = .next (modPart (dropStaged s p) p (fun y => { y with
          staged := 1
          src := rd s (pltReg p 0)
          srcLen := rd s (pltReg p 8)
          bindAddr := rd s (pltReg p 0x10)
          bindCount := rd s (pltReg p 0x18) }))) ∧
      (x.staged = 3 → exec (.load r p false) s = .next (fault s 0x21)) ∧
      ((x.staged = 3 ∨ x.staged = 4) → exec (.discard r p) s =
        .next (if plateDieDown s p then fault s 0x24 else dropStaged s p)) ∧
      ((x.staged = 1 ∨ x.staged = 2) → exec (.abort r p) s =
        .next (if plateDieDown s p then fault s 0x24 else wr (dropStaged s p) (pltReg p 0x28) (0x22 + 0xFF00))) ∧
      (∀ op : BitVec 4, ¬(1 ≤ op.toNat ∧ op.toNat ≤ 5) → exec (.badCommand r p op) s = .next (fault s 0x26))) ∧
    (loaderUp s = true → plateDieDown s p = false → x.staged = 1 →
      (let n := min (2 ^ 28) x.srcLen
       let k := 16 * x.bindCount
       spanMapped s x.src n = true → spanMapped s x.bindAddr k = true → memBad s x.src n = false → memBad s x.bindAddr k = false →
       ∃ u, exec (.loadCopyComplete p) s = .next u ∧
        part u p = { x with staged := 2, stagedImg := copyImage s x.src n, stagedBind := copyImage s x.bindAddr k } ∧
        (∀ q : Nat, q ≠ p → part u q = part s q))) ∧
    (loaderUp s = true → plateDieDown s p = false → x.staged = 2 →
      (loadFault s p x.stagedImg x.srcLen x.stagedBind x.bindCount = none →
        ∃ u, exec (.loadVerifyComplete p) s = .next u ∧ bit (rd u (pltReg p 0x24)) 0 = true ∧
          part u p = { x with staged := 3, stagedDescs := boundDescs x.stagedImg (bindings x.stagedBind x.bindCount) } ∧
          (∀ q : Nat, q ≠ p → part u q = part s q)) ∧
      (∀ f, loadFault s p x.stagedImg x.srcLen x.stagedBind x.bindCount = some f →
        ∃ u, exec (.loadVerifyComplete p) s = .next u ∧ bit (rd u (pltReg p 0x24)) 1 = true ∧
          rd u (pltReg p 0x28) = f.code + fld 8 8 f.sect + fld 16 32 f.ent ∧ part u p = { x with staged := 4 } ∧
          (∀ q : Nat, q ≠ p → part u q = part s q)))

/-- The life of an active plate (R48, R56, R65, R66, R68). ACTIVATE takes a READY plate into a slot that is NONE or FENCED,
where it is distributed: every hatch of the plate stands STARTING with it, its seed, and its phases; on a RUNNING plate it
first retires that one. Each hatch's start edge sets it RUNNING at hc 0, and with the last one the plate is RUNNING, with
its event. A write of permits adds to those outstanding, up to the limit, where the loss sets the event, and the
sender's own service writes that still wait come before the step (R57). -/
def Obligations.PlatesRun : Prop :=
  (∀ (r : Requester) (p : Fin 8) (s : State),
    let x := part s p
    canWrite s r (pltReg p 0x1C) → plateDieDown s p = false → x.staged = 3 →
    ((x.active = 0 ∨ x.active = 4) → ∃ u, exec (.activate r p) s = .next u ∧
      part u p = { x with
        active := 1
        permits := 0
        released := 0
        completed := 0
        activateNext := false
        image := x.stagedImg
        imageLen := x.srcLen
        descs := x.stagedDescs
        staged := 0
        stagedImg := []
        stagedBind := []
        stagedDescs := [] } ∧ (∀ q : Nat, q ≠ p → part u q = part s q) ∧ u.mem = s.mem ∧ u.ctrs = s.ctrs ∧ u.gens = s.gens) ∧
    (x.active = 2 → exec (.activate r p) s = .next (modPart s p (fun y => { y with active := 3, activateNext := true })))) ∧
  (∀ (p : Fin 8) (s : State),
    let x := part s p
    x.active = 1 → loaderUp s = true → plateDieDown s p = false → (∀ e ∈ s.gens, e.2.part = p → e.2.size = 0 ∨ e.2.st = .stopped) →
    ∃ u, exec (.activateDistributionComplete p) s = .next u ∧ (part u p).seed = mread x.image 0x38 8 ∧
      (part u p).phases = platePhases x.image ∧ (part u p).frozen = false ∧ (part u p).image = x.image ∧
      (plateHatches x.image ≠ [] → (part u p).active = 1) ∧
      (∀ h ∈ plateHatches x.image, (gen u (16 * (h.1 / 128) + h.1 % 128 / 8)).st = .starting ∧
        (gen u (16 * (h.1 / 128) + h.1 % 128 / 8)).part = p ∧ (gen u (16 * (h.1 / 128) + h.1 % 128 / 8)).waitKind = 0)) ∧
  (∀ (n : Fin 32) (s : State),
    let x := gen s n
    let t := setGen s n { x with st := .running, hc := 0 }
    x.st = .starting → x.faulted = false → (part s x.part).active = 1 →
    ((∃ e ∈ t.gens, 0 < e.2.size ∧ e.2.part = x.part ∧ e.2.st ≠ .running) → exec (.hatchStartEdge n) s = .next t) ∧
    ((∀ e ∈ t.gens, 0 < e.2.size → e.2.part = x.part → e.2.st = .running) → exec (.hatchStartEdge n) s =
      .next (setBits (modPart t x.part (fun y => { y with active := 2 })) (pltReg x.part 0x24) 4))) ∧
  (∀ (r : Requester) (p : Fin 8) (k : BitVec 32) (s : State),
    canWrite s r (pltReg p 0x50) → ((part s p).active = 1 ∨ (part s p).active = 2) → lanePart s ≠ some (p : Nat) → k.toNat ≤ 1048575 →
    (k ≠ 0 → (part s p).permits + k.toNat ≤ 1048575 → exec (.permitWrite r p k) s =
      .next (modPart (fencePermit s r p) p (fun y => { y with permits := y.permits + k.toNat }))) ∧
    (1048575 < (part s p).permits + k.toNat → k ≠ 0 → exec (.permitWrite r p k) s =
      .next (setBits (modPart (fencePermit s r p) p (fun y => { y with permits := 1048575 })) (pltReg p 0x24) 0x40)))

/-- The end of an active plate (R49, R53): RETIRE of a RUNNING plate waits for its step; of a FENCED one, and once the step
is complete and the plate's channels are drained, the slot is NONE, or, where an ACTIVATE waits, the staged plate is
ACTIVATING in it; no hatch is left to it, and the runtime is told. -/
def Obligations.PlatesRetire : Prop :=
  ∀ (p : Fin 8) (s : State),
    let x := part s p
    (∀ r : Requester, canWrite s r (pltReg p 0x1C) → plateDieDown s p = false →
      (x.active = 2 → exec (.retire r p) s = .next (modPart s p (fun y => { y with active := 3 }))) ∧
      (x.active = 4 → ∃ u, exec (.retire r p) s = .next u ∧ (part u p).active = 0 ∧ (part u p).image = [] ∧
        bit (rd u (pltReg p 0x24)) 3 = true ∧ (∀ e ∈ u.gens, e.2.part = p → e.2.size = 0))) ∧
    (x.active = 3 → inStep x = false → loaderUp s = true → chansDrained s p = true →
      ∃ u, exec (.retireComplete p) s = .next u ∧ (∀ e ∈ u.gens, e.2.part = p → e.2.size = 0) ∧
        ((x.activateNext = false ∨ x.staged ≠ 3) → (part u p).active = 0 ∧ (part u p).image = [] ∧
          bit (rd u (pltReg p 0x24)) 3 = true) ∧
        (x.activateNext = true → x.staged = 3 → (part u p).active = 1 ∧ (part u p).permits = 0 ∧ (part u p).staged = 0))

/-! ### Power and boot (R459, R469, R501, R509–R517) -/

/-- The warden ROM has checked the warden's image: it is running it, at stage 1, or has stopped with error 1 (R469). -/
def Sys2Proof.Machine.romDone (u : State) : Prop := bootStage u = 1 ∨ bootError u = 1

/-- Power sequences (R459, R515–R517). Standby power starts the ROM. Stage 2 checks OWNER_ROOT and powers the module-level
domain, die 0 and die 1, in that order, as does a write of WRD_DIE_POWER; a write during a sequence is held. Each rail that
is good starts the next; the domain whose last rail is good is on, and the next one in the order starts; so it does where a
rail is late, which leaves its domain in state 3, and where a domain that was cleared has gone off. -/
def Obligations.PowerSequences : Prop :=
  (∀ (a : BitVec 2) (s : State), s.sup.standby = false → s.sup.modReset = false →
    ∃ u, exec (.standbyPowerGood a) s = .next u ∧ u.sup.standby = true ∧ u.sup.smb = a.toNat ∧ romDone u) ∧
  (∀ s : State, s.sup.standby = true → s.sup.modReset = false → bootStage s = 1 → bootError s = 0 → s.sup.booting = false →
    powering s = false → s.sup.held = none → rd s (wrdReg 0x2C) % 8 = 0 →
    (s.sec.fuses.owner = 0 → ∃ u, exec .bootStage2 s = .next u ∧ bootError u = 2 ∧ u.sup = s.sup) ∧
    (s.sec.fuses.owner ≠ 0 → ∃ u, exec .bootStage2 s = .next u ∧ rd u (wrdReg 0x2C) = 7 ∧
      u.sup = { s.sup with booting := true, downQ := [], upQ := [2, 0, 1], mod := { st := 1, rails := 0 } })) ∧
  (∀ (r : Requester) (v : BitVec 32) (s : State), canWrite s r (wrdReg 0x2C) →
    let old := rd s (wrdReg 0x2C)
    (powering s = true → exec (.wrdDiePower r v) s = .next { s with sup := { s.sup with held := some (v.toNat % 8) } }) ∧
    (powering s = false → bit v.toNat 2 = true →
      ∃ u, exec (.wrdDiePower r v) s = .next u ∧
        u.sup.downQ = [1, 0, 2].filter (fun d => bit (old % 8) d && !bit (v.toNat % 8) d && (domOf s d).st == 2) ∧
        u.sup.upQ = [2, 0, 1].filter (fun d => bit (v.toNat % 8) d && !bit (old % 8) d) ∧
        (old % 8 &&& v.toNat % 8 = old % 8 → rd u (wrdReg 0x2C) = v.toNat % 8 ∧ u.mem = s.mem))) ∧
  (∀ (k j : Fin 3) (l : List Nat) (s : State), j ≠ k → s.sup.downQ = [] → s.sup.upQ = k.val :: j.val :: l → (domOf s k).st = 1 →
    ((domOf s k).rails < railsOf k → exec (.railPowerGood k) s =
      .next (setDom s k { (domOf s k) with rails := (domOf s k).rails + 1 })) ∧
    ((domOf s k).rails = railsOf k → s.modLock = false → bootStage s < 4 → ∀ x : BitVec 8,
      ∃ u, exec (.domainPowerUpComplete k x) s = .next u ∧ (domOf u k).st = 2 ∧ domOf u j = { st := 1, rails := 0 } ∧
        u.sup.upQ = j.val :: l ∧ u.dieDown.contains (if k.val = 2 then 2 else 3 + k.val) = false ∧
        (k.val < 2 → u.sup.inReset.contains k.val = true ∧ steppingOf u k = x.toNat) ∧ u.mem = s.mem) ∧
    ((domOf s k).rails < railsOf k → ∃ u, exec (.railPowerGoodTimeout k) s = .next u ∧ (domOf u k).st = 3 ∧
      domOf u j = { st := 1, rails := 0 } ∧ u.sup.upQ = j.val :: l ∧ u.dieDown = s.dieDown ∧ u.mem = s.mem)) ∧
  (∀ (k j : Fin 3) (l : List Nat) (s : State), j ≠ k → s.sup.downQ = k.val :: j.val :: l →
    ∃ u, exec (.domainPowerDownComplete k) s = .next u ∧ domOf u k = {} ∧ domOf u j = { domOf s j with st := 1 } ∧
      u.sup.downQ = j.val :: l ∧ u.sup.upQ = s.sup.upQ ∧ u.mem = s.mem) ∧
  (∀ s : State, (domOf s 2).st = 2 → s.sup.appUp = true →
    exec .perstRelease s = .next { s with sup := { s.sup with perst := true } })

/-- BOOT_STAGE_5 completes (R469, R472–R474). It answers a next state in every state. On a powered die that runs and is
not locked, from stage 4 on and before the module lock, with no boot error and at most eight bad slots: where the module
keeps the digest of a set-up record that a valid slot holds, and likewise where boot code's own checks choose a record, the
die's set-up is written, the die is locked, the module keeps the record's digest, and the other die's lock stays as it was.
With more bad slots the sparing map is exhausted: the first boot error is 7, and the die is not locked (R15). -/
def Obligations.BootCompletesADie : Prop :=
  (∀ (d : Fin 2) (g : BootReport) (s : State), ∃ u, exec (.bootStage5 d g) s = .next u) ∧
  (∀ (d : Fin 2) (g : BootReport) (s : State),
    let bad := badSlotsOf s d g.failedSlots
    let S := extend (buildMap (restoreJournal s d) d bad) 2 0
    let lockedBy := fun (u : State) => exec (.bootStage5 d g) s = .next u ∧ u.locked.contains d.val = true ∧
      u.sec.setup.isSome = true ∧ (∀ e : Nat, (e : Nat) ≠ d → s.locked.contains e = u.locked.contains e)
    s.modLock = false → bootError s = 0 → 4 ≤ bootStage s → dieUp s d = true → (domOf s d).st = 2 →
    s.locked.contains d.val = false →
    (bad.length ≤ 8 → ∀ i dg, i ∈ validSlots s 4 → s.sec.setup = some dg → recDigest s i = dg →
      ∃ u, lockedBy u ∧ u.sec.setup = some dg) ∧
    (bad.length ≤ 8 → ∀ i, chooseRecord S = .inl i → ∃ u, lockedBy u) ∧
    (8 < bad.length → ∃ u, exec (.bootStage5 d g) s = .next u ∧ bootError u = 7 ∧ u.locked.contains d.val = false))

/-- A cold module reset has passed over `s` (R417, R501, R509–R512): power of the dies and the module-level domain is off,
what they held is gone, WRD_RESET_STATUS gives the cause, and the fuses' counters are no lower. -/
def Sys2Proof.Machine.coldPast (s u : State) (cause : Nat) : Prop :=
  u.colds = s.colds + 1 ∧ u.mem = [] ∧ u.pods = [] ∧ u.gens = [] ∧ u.parts = [] ∧ u.ctrs = [] ∧ u.chans = [] ∧ u.copies = [] ∧
    u.ports = [] ∧ u.dieDown = State.reset.dieDown ∧ u.modLock = false ∧ u.sup.standby = true ∧ u.out = s.out ∧
    (domOf u 0).st = 0 ∧ (domOf u 1).st = 0 ∧ (domOf u 2).st = 0 ∧ rd u (wrdReg 0x40C) = 2 + 4 * cause ∧
    (∀ k, rollbackOf s k ≤ rollbackOf u k)

/-- The module's supplies and pins (R501, R509–R512): a lost reference clock or a fault of the input voltage resets the
module cold with cause 0, MOD_RESET# with cause 4, and holds it before stage 1 until it rises; without standby power
everything goes, the black box too, but for fuses and flash. -/
def Obligations.PinsAndSuppliesResetTheModule : Prop :=
  ∀ s : State,
    (s.sup.standby = true → s.sup.modReset = false →
      (∃ u, exec .refclkLost s = .next u ∧ coldPast s u 0 ∧ romDone u) ∧
      (∃ u, exec .inputVoltageFault s = .next u ∧ coldPast s u 0 ∧ romDone u) ∧
      ∃ u, exec .modResetAsserted s = .next u ∧ coldPast s u 4 ∧ u.sup.modReset = true ∧ bootStage u = 0) ∧
    (s.sup.standby = true → s.sup.modReset = true →
      ∃ u, exec .modResetReleased s = .next u ∧ u.sup.modReset = false ∧ u.sup.standby = true ∧ romDone u ∧ u.mem = s.mem) ∧
    (s.sup.standby = true → ∃ u, exec .standbyPowerLost s = .next u ∧ u.sup.standby = false ∧ u.bbx = {} ∧ u.regs = [] ∧
      u.mem = [] ∧ u.pods = [] ∧ u.dieDown = State.reset.dieDown ∧ u.sec.fuses = s.sec.fuses ∧ u.journal = s.journal)

/-! ### Links (R350–R368) -/

/-- Port `k` with nothing queued, nothing to be acknowledged and no drain under way. -/
def Sys2Proof.Machine.emptyPort (s : State) (k : Nat) : State :=
  setPort s k { port s k with q0 := [], q1 := [], q2 := [], q3 := [], replay := [], drain := false, nak := false }

/-- Port `k` in TRAINING, with what its side sends: module id, port number and version bitmap (R353). -/
def Sys2Proof.Machine.trains (s : State) (k : Nat) : State :=
  emit (setPortState (modPort s k (fun x => { x with bad := [] })) k 1 0 0 0)
    (.hello k (moduleId s) (bits (rd s (rylReg (k / 8) 4)) 0 8))

/-- A port's training, spares and failures, its module id and its routes (R353–R355, R360, R362, R365, R366, R369, R375). -/
def Obligations.PortsTrainAndFail : Prop :=
  (∀ (r : Requester) (k : Fin 16) (s : State), canWrite s r (portReg k 4) →
    ((portSt s k = 0 ∨ portSt s k = 4) → ethMode s k = false → moduleValid s k = true →
      exec (.portTrain r k) s = .next (trains s k)) ∧
    (portSt s k = 1 → portAll (port s k) = [] → exec (.portDown r k) s = .next (setPortState (emptyPort s k) k 0 0 5 0)) ∧
    (portCarries s k = true → portAll (port s k) ≠ [] → exec (.portDown r k) s = .next (modPort s k (fun x => { x with drain := true }))) ∧
    (portCarries s k = true → portAll (port s k) = [] →
      exec (.portDown r k) s = .next (setPortState (setPort s k { port s k with drain := false }) k 0 0 5 0))) ∧
  (∀ (k : Fin 16) (s : State),
    let empty := emptyPort s k
    (∀ q : LinkPkt, portCarries s k = true → (port s k).drain = true → portAll (port s k) = [q] → q.arr = none → q.typ = 3 →
      exec (.portDownDrainTimeout k) s =
        .next (logEv (setBits (setPortState empty k 0 0 5 0) (rylReg (k / 8) 0x10) 2) (k / 8) 0x31 0xFF k 3 false)) ∧
    (portSt s k = 0 → moduleValid s k = true → ethMode s k = false → exec (.portSignalDetected k) s = .next (trains s k)) ∧
    (∀ h : PeerHello, portSt s k = 1 → portAll (port s k) = [] → (port s k).bad = [] →
      let v := commonVersion (bits (rd s (rylReg (k / 8) 4)) 0 8) h.versions.toNat
      let t := wr s (portReg k 8) (h.modId.toNat + fld 14 4 h.port.toNat + fld 31 1 1)
      exec (.portTrainingComplete k h) s = .next (if v = 0 then setPortState (emptyPort t k) k 0 0 2 0
        else setPortState (modPort t k freshPort) k 2 0xF 0 v)) ∧
    (∀ lock : Bool,
      (portSt s k = 1 → portAll (port s k) = [] → exec (.portSignalLost k lock) s = .next (setPortState empty k 0 0 1 0)) ∧
      (portCarries s k = true → portAll (port s k) = [] →
        exec (.portSignalLost k lock) s = .next (if lock then setPortState empty k 4 0 4 0 else setPortState empty k 0 0 1 0))) ∧
    (∀ lane : Fin 4, portSt s k = 2 → bit (portLanes s k) lane = true → 2 ≤ portVersion s k → (port s k).bad = [] →
      exec (.laneFailure k lane) s = .next (setPortState (modPort s k (fun x => { x with bad := [lane.val] })) k 3 (otherPair lane) 0
        (portVersion s k))) ∧
    (∀ lane : Fin 4, portSt s k = 1 → (port s k).bad = [] →
      exec (.laneFailure k lane) s = .next (modPort s k (fun x => { x with bad := [lane.val] }))) ∧
    (portSt s k = 3 → (port s k).bad ≠ [] → (∀ x ∈ (port s k).bad, x ∈ steeredLanes s k) →
      exec (.spareLaneRetrainComplete k) s =
        .next (setPortState (modPort s k (fun x => { x with bad := [] })) k 2 0xF 0 (portVersion s k)))) ∧
  (∀ (r : Requester) (d j : Fin 2) (v : BitVec 32) (s : State),
    let a := rylReg d (0x20 + 4 * j)
    let k := 8 * d + bits v.toNat 0 3
    let w := v.toNat &&& 0x8000001F
    canWrite s r a → bit (rd s a) 31 = false → bit v.toNat 31 = true → portSt s k = 2 → (port s k).bad = [] →
    exec (.rylSpareSteer r d j v) s = .next (setPortState (modPort (wr s a w) k (fun x => { x with bad := [bits v.toNat 3 2] })) k 3
      (otherPair (bits v.toNat 3 2)) 0 (portVersion s k))) ∧
  (∀ (r : Requester) (d : Fin 2) (v : BitVec 32) (s : State), canWrite s r (rylReg d 8) → (∀ k < 16, portSt s k = 0 ∨ portSt s k = 5) →
    ∃ u, exec (.rylModuleIdWrite r d v) s = .next u ∧ moduleId u = bits v.toNat 0 14 ∧
      (∀ k < 16, moduleValid u k = bit v.toNat 31) ∧
      synModule u = bits v.toNat 0 14 ∧ u.ports = s.ports) ∧
  (∀ (r : Requester) (d : Fin 2) (t : Fin 9) (w : Fin 2048) (v : BitVec 32) (s : State),
    canWrite s r (rylReg d (0x10000 + 0x2000 * t + 4 * w)) →
    ∃ u, exec (.routingTableWrite r d t w v) s = .next u ∧ (∀ i < 8, routeOf u d t (8 * w + i) = bits v.toNat (4 * i) 4) ∧
      (∀ (e : Fin 2) (t' : Fin 9) (m : Nat), m < 16384 → (e ≠ d ∨ t' ≠ t ∨ m / 8 ≠ w) → routeOf u e t' m = routeOf s e t' m)) ∧
  (∀ (k : Fin 2) (s : State), ethMode s (14 + k) = true → dieUp s 1 = true →
    exec (.ethernetPortRetrained k) s =
      .next (setPortState { s with ringStop := s.ringStop.filter (fun r => r / 2 != k.val) } (14 + k) 5 0xF 0 0))

/-- A packet of type `typ` arrives whole and in its turn on port `k`, which carries; `H` is the module once the header's
acknowledgement and credits have been taken and the next sequence number is expected (R350, R357, R359). -/
def Sys2Proof.Machine.arrives (s : State) (k typ : Nat) (p : Packet) (H : State) : Prop :=
  let c := bump (bump (bump s (portReg k 0x18) (1 + p.units.toNat)) (portReg k 0x28) p.corrected) (portReg k 0x30) p.uncorrected
  let t := takeHeader c k p
  portCarries s k = true ∧ rxWhole typ p = true ∧ portCarries t k = true ∧ bit p.flags.toNat 0 = false ∧
    p.seq.toNat = (port t k).rxSeq ∧ p.hops ≠ 16 ∧ p.dst.toNat % 16384 = moduleId t ∧
    H = modPort t k (fun x => { x with rxSeq := (x.rxSeq + 1) % 2 ^ 32 })

/-- Packets on the links (R332–R334, R340, R351–R364, R367). The egress's turn sends the first packet of its lane under the
port's next number and keeps it to be acknowledged; with none, an IDLE goes; unacknowledged packets go again. A packet of
this module that arrives in order does what its type says, and its buffer's units are owed to the sender. -/
def Obligations.LinksCarryPackets : Prop :=
  (∀ (k : Fin 16) (s : State), portCarries s k = true →
    (∀ i q l, nextTurn (port s k) = some i → portQueue (port s k) (nth 0 rotation i) = q :: l → q.arr = none →
      let v := nth 0 rotation i
      let x := port s k
      let q' := { q with seq := x.txSeq, sent := 1 }
      exec (.egressTurn k) s = .next (putWire (setPort s k { setQueue x v l with
        turn := (i + 1) % 16
        txSeq := (x.txSeq + 1) % 2 ^ 32
        credits := x.credits.modify v (· - (1 + q.units))
        replay := x.replay ++ [q'] }) k q')) ∧
    (nextTurn (port s k) = none → exec (.idleTimer k) s = .next (sendIdle s k)) ∧
    (∀ q, (port s k).replay = [q] → q.sent < retryLimit s k →
      let t := bump (setPort s k { port s k with replay := [{ q with sent := q.sent + 1 }] }) (portReg k 0x20) 1
      exec (.ackTimeout k) s = .next (putWire t k { q with sent := q.sent + 1 }))) ∧
  (∀ (k : Fin 16) (p : Packet) (s H : State),
    let b := p.body.toNat
    let own := fun u : State => oweUnits u k (p.vl.toNat % 4) p.units.toNat
    (arrives s k 1 p H → spanReason H (bits b 0 64) (bits b 64 32) (64 * p.units.toNat) = 0 → exec (.span k p) s = .next (own
      (let T := spanWrite H (p.vl.toNat % 4) (bits b 0 64) (bits b 64 32) (64 * p.units.toNat) (ofLE p.payload)
       if p.src.toNat = moduleId T then deliverAck T (bits b 96 32)
       else sendSimple T (k / 8) 0x10 2 p.src.toNat (fld 0 32 (bits b 96 32) + fld 32 8 0)))) ∧
    (arrives s k 2 p H → dieUp H (bits b 0 13 / 4096) = true → exec (.sync k p) s = .next (own (queueChange H (bits b 0 13 / 4096)
      { op := 0, id := bits b 0 13, inc := bits b 16 48, remote := some (p.src.toNat, bits b 64 13) }))) ∧
    (arrives s k 3 p H → (ctr H (bits b 0 13)).st ≠ 0 → 6 ≤ bits b 32 8 → exec (.late k p) s = .next (own
      (setBits (modPart H (ctr H (bits b 0 13)).part (fun x => { x with lateIn := true })) (synReg (bits b 0 13 / 4096) 8) 4))) ∧
    (arrives s k 4 p H → (ctr H (bits b 0 13)).st ≠ 0 → 6 ≤ bits b 32 8 → exec (.freeze k p) s = .next (own
      (freezeBy H (ctr H (bits b 0 13)).part (bits b 16 16) (bits b 0 13)))) ∧
    (∀ c < 64, arrives s k 0x10 p H → tfind H.spans (bits b 0 32) = some c → exec (.spanAck k p) s = .next (own
      (modCopy { H with spans := tdel H.spans (bits b 0 32) } (c / 32) (c % 32) (fun x =>
        { x with run := x.run.map (fun r => { r with acked := r.acked + 1 }) })))) ∧
    (∀ c x, c < 64 → arrives s k 0x11 p H → tfind H.spans (bits b 0 32) = some c → (copyChan H (c / 32) (c % 32)).run = some x →
      exec (.spanRefused k p) s = .next (own
      (kick (endCopy { H with spans := tdel H.spans (bits b 0 32) } (c / 32) (c % 32) 6 (4096 * x.acked) false) (c / 32) (c % 32)))) ∧
    (arrives s k 0x12 p H → exec (.syncBroken k p) s = .next (own (queueChange H (bits b 12 1) { op := 2, id := bits b 0 13 }))) ∧
    (arrives s k 0x13 p H → bits b 0 8 = 3 → exec (.unreachable k p) s = .next (own
      (logEv (setBits H (rylReg (k / 8) 0x10) 2) (k / 8) 0x31 0xFF k 3 false))) ∧
    (∀ t, t = takeHeader (bump (bump (bump s (portReg k 0x18) (1 + p.units.toNat)) (portReg k 0x28) p.corrected)
        (portReg k 0x30) p.uncorrected) k p →
      portCarries s k = true → rxWhole 0x20 p = true → bit p.flags.toNat 0 = false → exec (.idle k p) s = .next t))

/-- A frozen partition goes on, or is given up (R368). CONTINUE, with no loss in doubt and a way for every emission, makes
its FROZEN counters LIVE, and each emission held goes once to its destination; otherwise it is refused and changes
nothing else. ABANDON breaks the counters with cause PEER and requests a partition reset. -/
def Obligations.FrozenPartitionsEnd : Prop :=
  ∀ (r : Requester) (d : Fin 2) (p : Fin 8) (s : State), canWrite s r (rylReg d 0x1C) →
    (continueRefused s p = true → exec (.continuePart r d p) s = .next (wr s (rylReg d 0x18) 0x200000)) ∧
    (continueRefused s p = false → (∀ id ∈ ctrsOf s p, (ctr s id).st ≠ 3) →
      exec (.continuePart r d p) s = .next (modPart (wr s (rylReg d 0x18) 0) p (fun x => { x with frozen := false, seenFreeze := [] }))) ∧
    (∀ id k dc, continueRefused s p = false → ctrsOf s p = [id] → (ctr s id).st = 3 → destsOf s id = [(k, synModule s, dc)] →
      heldFor (ctr s id) k ≠ 0 → dc / 4096 < 2 →
      ∃ u, exec (.continuePart r d p) s = .next u ∧ ctr u id = { ctr s id with st := 1, held := 0, lost := [] } ∧
        changes u (dc / 4096) = changes s (dc / 4096) ++
          [{ op := 0, id := dc, inc := heldFor (ctr s id) k * (ctr s id).outInc, emitter := some id }] ∧
        (part u p).frozen = false ∧ rd u (rylReg d 0x18) = 0) ∧
    ((∀ id ∈ ctrsOf s p, (ctr s id).st ≠ 3) → (part s p).resetReq = none → exec (.abandon r d p) s =
      .next (modPart (wr s (rylReg d 0x18) 0) p (fun x => { x with resetReq := some ⟨6, 0, 0⟩ }))) ∧
    (∀ id, ctrsOf s p = [id] → (ctr s id).st = 3 → (ctr s id).destCount = 0 → (part s p).resetReq = none →
      ∃ u, exec (.abandon r d p) s = .next u ∧ ctr u id = { ctr s id with st := 2, cause := 3 } ∧
        (part u p).resetReq = some ⟨6, 0, 0⟩ ∧ (∀ j, j ≠ id → ctr u j = ctr s j))

/-! ### The query lane, the rings and inbound accesses (R369–R374, R442–R446) -/

/-- Rings and inbound accesses. A frame for software goes to the next posted descriptor of the port's receive ring or is
counted as dropped; a posted frame that the port carries leaves with its FCS, and its descriptor is marked; a device's access is translated and
answered with a completion, and a write of an identity to an interrupt file is an interrupt. -/
def Obligations.RingsAndInboundAccesses : Prop :=
  (∀ (k : Fin 2) (f b : List Byte) (s : State), acceptFrame s k f = (s, some b) → laneUdp s b = none → s.ringStop.contains (2 * k.val) = false →
    let head := rd s (ringReg (2 * k) 0xC)
    let d := ringDesc s (2 * k) head
    let bad := match ipUdp (ethParse b) with | some u => !u.sumOk | none => false
    (head = rd s (ringReg (2 * k) 0x10) → exec (.ethernetFrameReceived k f) s = .next (bump s (ringReg (2 * k) 0x18) 1)) ∧
    (head ≠ rd s (ringReg (2 * k) 0x10) → (ethParse b).tci = none → b.length ≤ ringRead s (d + 8) 2 →
      exec (.ethernetFrameReceived k f) s = .next (pulse (wr (ringWrite (ringWrite s (ringRead s d 8) b.length (ofLE b)) (d + 0xA) 6
        (b.length + (1 + 8 * b2n bad) * 2 ^ 16)) (ringReg (2 * k) 0xC) ((head + 1) % 2 ^ 32)) (85 + 2 * k)))) ∧
  (∀ (j : Fin 2) (s : State),
    let r := 2 * j.val + 1
    let head := rd s (ringReg r 0xC)
    let d := ringDesc s r head
    let b := leBytes (ringRead s (d + 8) 2) (ringRead s (ringRead s d 8) (ringRead s (d + 8) 2))
    let f := putUdpSum b
    let g := f ++ List.replicate (60 - f.length) 0
    s.ringStop.contains r = false → head ≠ rd s (ringReg r 0x10) → portSt s (14 + j) = 5 → dieUp s 1 = true →
    exec (.ethernetTransmitComplete j) s = .next (pulse (wr (ringWrite
      (if frameOk b then emit s (.frame (14 + j) (g ++ leBytes 4 (crc32 g))) else s) (d + 0xC) 2 1)
      (ringReg r 0xC) ((head + 1) % 2 ^ 32)) (85 + r))) ∧
  (∀ (r : Requester) (k : Fin 4) (v : BitVec 32) (s : State), canWrite s r (ringReg k 0x10) →
    exec (.apcRingTailWrite r k v) s = .next (wr s (ringReg k 0x10) v.toNat)) ∧
  (∀ (x : Dma) (s : State), s.dieDown.contains 2 = false → s.sup.perst = true →
    let t := nextFree s
    let done := fun (u : State) (ok : Bool) (d : List Byte) => emit u (.completion x.device.toNat ok d)
    exec (.pcieInboundDma x) s = .next (match Config.iommu s.freeCtr x.device.toNat x.addr.toNat x.data.isSome, x.data with
      | none, _ => done t false []
      | some a, none => match memLoad t .app a.toNat x.len 4 with
        | (u, some v) => done u true (leBytes x.len v)
        | (u, none) => done u false []
      | some a, some d => match doorbell a.toNat d.length with
        | none => done (memStore t .app a.toNat d).1 (memStore t .app a.toNat d).2 []
        | some file =>
          done (if 1 ≤ ofLE d ∧ ofLE d ≤ 255 ∧ !t.msi.contains (file, ofLE d) then { t with msi := t.msi ++ [(file, ofLE d)] } else t) true []))

/-- Requests of the query lane. A whole request whose promise can be kept joins the first step and its input is written
to its slot, and one whose promise cannot be kept is answered BUSY; missing fragments end in ERROR INCOMPLETE; the next
step goes as one permit once the last has completed; a completed step's results are sent. -/
def Obligations.RequestsAreAdmittedAndAnswered : Prop :=
  (∀ (k : Fin 2) (f b : List Byte) (p : Nat) (u : UdpPkt) (c : QClass) (s : State),
    let h := u.payload
    let v := fun o n => ofLE ((h.drop o).take n)
    let q : QPeer := ⟨14 + k, u.src, u.sport⟩
    let now : Rat := (20 * s.now : Nat) / 1000
    let fin := max (now + (1 + (c.inBytes : Rat) / 16000)) 0 + laneStep s p (laneRatio s)
    let ln := s.lane
    acceptFrame s k f = (s, some b) → laneUdp s b = some (p, u) → u.sumOk = true → ln.steps = [] → ln.asm = [] →
    h.length = 32 + c.inBytes → v 0 2 = 0x514A → v 2 1 = 1 → v 3 1 = 1 → v 6 1 = 0 → v 7 1 = 0 → v 0x10 4 = c.inBytes →
    v 0x14 2 = 0 → v 0x16 2 = 0 → v 0x18 8 = 0 →
    (part s p).active = 2 → (part s p).frozen = false → s.pws.drain = false → (part s p).classes.find? (fun x => x.id == v 4 2) = some c →
    exec (.jenostRequest k f) s = .next (if fin + 5 - now ≤ c.promise then
        bump (svcWrite { s with lane := { ln with
          steps := [⟨fin, false, [⟨q, v 8 8, c.id, 0, 20 * s.now⟩], none⟩]
          est := max ln.est (laneRatio s) } } (slotAddr s p c.inDesc 0 c.inBytes) c.inBytes (ofLE (h.drop 32)) p) (rylReg 1 0x40) 1
      else sendBusy s q c.id (v 8 8))) ∧
  (∀ (i : Nat) (x : QAsm) (s : State), s.lane.asm[i]? = some x →
    exec (.jenostReassemblyTimeout i) s =
      .next (sendError { s with lane := { s.lane with asm := s.lane.asm.eraseIdx i } } x.peer x.cls x.reqId 3)) ∧
  (∀ (p : Nat) (x : QStep) (s : State), lanePart s = some p → s.lane.steps = [x] → x.released = false → inStep (part s p) = false →
    (part s p).permits = 0 → (part s p).active = 2 →
    exec .queryStepRelease s = .next (modPart { s with lane := { s.lane with steps := [{ x with released := true }] } } p
      (fun y => { y with permits := y.permits + 1 }))) ∧
  (∀ (p t : Nat) (x : QStep) (r : QReq) (c : QClass) (s : State),
    let a := slotAddr s p c.outDesc r.slot c.outBytes
    let s' := memNote { s with lane := { s.lane with steps := [] } } a c.outBytes 4 p
    let bytes := leBytes c.outBytes (memRead s' a c.outBytes)
    let u := reply s' r.peer (jenostHeader 0x81 r.cls 0 1 r.reqId bytes.length 0 (20 * t - r.time) ++ bytes)
    lanePart s = some p → s.lane.steps = [x] → x.released = true → x.done = some t → x.reqs = [r] →
    (part s p).classes.find? (fun c => c.id == r.cls) = some c → 0 < c.outBytes → c.outBytes ≤ 8192 → memBad s' a c.outBytes = false →
    exec .queryResult s = .next (
      let w := { u with lane := { u.lane with est := 0 } }
      if laneBusy u then u else if u.pws.drain then setLane (setCap w (capWanted w)) else w))

/-! ### The memory controllers (R245, R249–R254, R262–R266, R283–R294) -/

/-- Slots of a channel and its frame. A fixed slot refreshes while a refresh is due; a HATCH slot serves the head of its
owner's queue, whose read reaches the landing buffer; the frame boundary brings the next frame into force. -/
def Obligations.SlotsServeTheChannels : Prop :=
  (∀ (st : Fin 16) (c : Fin 256) (s : State),
    let n := (chan s st c).slot % 256
    let exec' := exec (.channelSlotService st c) s
    let onward := fun u : State => modChan u st c (fun x => { x with slot := x.slot + 1 })
    let owner := 16 * bits (frameEntry s st n) 9 1 + bits (frameEntry s st n) 4 5
    dieUp s (st / 8) = true →
    ((n = 127 ∨ n = 255) → 0 < refreshDebt s st c → exec' = .next (onward (refreshSlot s st c))) ∧
    ((n = 127 ∨ n = 255) → refreshDebt s st c = 0 → (chan s st c).migr = [] → (chan s st c).scrubDue = false →
      exec' = .next (onward s)) ∧
    (∀ r t0, n ≠ 127 → n ≠ 255 → n ≠ 63 → n ≠ 191 → ((stk s st).level < 3 ∨ bit (frameEntry s st n) 3 = true) →
      (refreshDebt s st c ≤ 8 ∨ bit (frameEntry s st n) 3 = true) → bits (frameEntry s st n) 0 3 = 1 →
      tget [] (chan s st c).queues owner = [r] → tfind (chan s st c).rows (locOf r.pg).bank = some ((locOf r.pg).row, t0) →
      let t := modChan s st c (fun x => { x with queues := tdel x.queues owner })
      exec' = .next (onward (if r.wr then serveWrite t st c r else serveRead t st r)))) ∧
  (∀ (st : Fin 16) (s : State), dieUp s (st / 8) = true →
    let x := stk s st
    let t := setStk s st { x with frame := x.next, frames := x.frames + 1, owed := x.owed + 8208 * refreshMult x.level }
    ((x.frames + 1) % 15625 ≠ 0 → exec (.frameBoundary st) s = .next t) ∧
    ((x.frames + 1) % 15625 = 0 → exec (.frameBoundary st) s =
      .next { t with chans := t.chans.map (fun e => if e.1 / 256 == st.val then (e.1, { e.2 with opens := [] }) else e) })) ∧
  (∀ (st : Fin 16) (v : BitVec 12) (s : State), dieUp s (st / 8) = true →
    let x := stk s st
    let u := setBits (setStk s st { x with temp := v.toNat }) (mchReg st 8) 0
    let w := aimAll (wr u (mchReg st 4) (v.toNat + fld 12 12 (max v.toNat (bits (rd u (mchReg st 4)) 12 12))))
    stackLevel x.level v.toNat = x.level → exec (.stackTemperatureSample st v) s =
      .next (if (laneHatches w).any (fun n => decide (w.lane.est < stackFloorOf w n)) then touchLane w else w))

/-- The scrubber, migrations and the registers with commands of their own. A clean granule moves the scrubber's position
on, a corrected one waits for its write-back; a migration whose granules are copied takes its remap entry; a word 0 without
overlap commits its region entry, with words 1 to 3 as last written, and any other leaves it invalid; the bucket leaks; MCH_PIN_FAIL gives its oldest pin. -/
def Obligations.ScrubbingAndTables : Prop :=
  (∀ (st : Fin 16) (c : Fin 256) (bank row g : Nat) (s : State),
    let l : Loc := ⟨st, c, bank, row, g⟩
    let onward := fun u : State => modChan u st c (fun x => { x with scrub := (bank, row, g + 1) })
    dieUp s (st / 8) = true → bits (rd s (mchReg st 0x200C)) 0 16 ≠ 0 → (chan s st c).fix = none → refreshDebt s st c = 0 → c.val ≠ 0 →
    (chan s st c).scrub = (bank, row, g) → g < 15 →
    (writePending (chan s st c) l.pg = true → exec (.scrubReadDue st c) s = .next (onward s)) ∧
    (writePending (chan s st c) l.pg = false → granuleOvl s l.pg = 0 → exec (.scrubReadDue st c) s = .next (onward (touchRow s st c bank row))) ∧
    (∀ y, writePending (chan s st c) l.pg = false → eccDecode hullF (granuleOvl s l.pg) = .corrected y →
      exec (.scrubReadDue st c) s = .next (onward (modChan (noteRead (touchRow s st c bank row) l 6 0xFF (granuleOvl s l.pg)) st c
        (fun x => { x with fix := some (l.pg, y, false) }))))) ∧
  (∀ (st : Fin 16) (c : Fin 256) (pg : Nat) (y : List (Nat × Nat)) (s : State), dieUp s (st / 8) = true →
    let t := touchRow s st c (locOf pg).bank (locOf pg).row
    ((chan s st c).fix = some (pg, y, false) → exec (.scrubWriteback st c) s =
      .next (modChan (putGranule t (locOf pg) (granuleData s pg) 0) st c (fun x => { x with fix := some (pg, y, true) }))) ∧
    ((chan s st c).fix = some (pg, y, true) → granuleOvl s pg = 0 → exec (.scrubWriteback st c) s =
      .next (modChan t st c (fun x => { x with fix := none })))) ∧
  (∀ (st : Fin 16) (c : Fin 256) (m : Migration) (s : State), (chan s st c).migr = [m] → m.left = [] → m.second = false →
    let v := 1 + fld 1 2 1 + fld 4 4 m.bank + fld 8 13 m.row + fld 21 4 m.spare
    exec (.migrationCommit st c) s = .next { wr (modChan s st c (fun x => { x with migr := [] })) (remapReg st c m.entry) v with
      journal := tset s.journal (remapReg st c m.entry) v }) ∧
  (∀ (r : Requester) (d : Fin 2) (k : Fin 512) (v : BitVec 64) (s : State),
    canWrite s r (mchReg (8 * d) (0x8000 + 32 * k)) → lockOpen s r (mchReg (8 * d) (0x8000 + 32 * k)) = true →
    let t := commitSlabs s k
    let res := regionResult t k v.toNat
    exec (.regionEntryCommit r d k v) s = .next (wr (wr (wr t (regionAddr k 0) (if res = 0 then v.toNat else bits v.toNat 2 10 <<< 2))
      (mchReg 0 0x14) (res + 256 * k)) (mchReg 8 0x14) (res + 256 * k))) ∧
  (∀ (st : Fin 16) (s : State), dieUp s (st / 8) = true →
    exec (.bucketLeak st) s = .next (modStk s st (fun x => { x with bucket := x.bucket - 1 }))) ∧
  (∀ (st : Fin 16) (s : State), reachable s (mchReg st 0x2050) = true →
    ((stk s st).pinFail = [] → exec (.mchPinFailRead st) s = .next (emit s (.value (mchReg st 0x2050) 0))) ∧
    (∀ c p l, (stk s st).pinFail = (c, p) :: l → exec (.mchPinFailRead st) s =
      .next (emit (modStk s st (fun x => { x with pinFail := l })) (.value (mchReg st 0x2050) (2 ^ 31 + c + fld 8 5 p)))))

/-! ### The update engines (R297–R320) -/

/-- A list's steps. A released wait moves its list on, a broken one stops it and requests a partition reset; the gather
sweep of an unsharded layer waits at the commit barrier with its outcome; the shards' refusals are seen on arrival; a
refused layer is reported and passed, an accepted one has its record marked DAMAGED until the apply sweep's last write
stores the next count and this step; refusal records are read oldest first. -/
def Obligations.EngineListsAdvance : Prop :=
  (∀ (st : Fin 16) (p : Fin 8) (s : State),
    let x := upe s st p
    let l := upeLayer x
    x.stopped = false → dieUp s (st / 8) = true →
    (x.phase = 1 → upeWaitSt s (upeEntry x 0) = 1 →
      exec (.upeGradWaitRelease st p) s = .next (setUpe s st p { x with phase := 2 })) ∧
    (x.phase = 1 → upeWaitSt s (upeEntry x 0) = 2 → exec (.upeGradWaitRelease st p) s =
      .next (requestReset (setUpe s st p { x with stopped := true }) p ⟨4, 0, 0⟩)) ∧
    (∀ t code n, x.phase = 2 → keepPause s st p = false → gatherGo s st p = (t, code, n) → layShards l ≤ 1 →
      exec (.upeGatherComplete st p) s = .next (modUpe (upeWait (bump (modUpe t st p (fun x => { x with code := code }))
        (upeReg st 0x30) n) (upeEntry x 1) 1) st p (fun x => { x with phase := 4 }))) ∧
    (∀ d, x.phase = 2 → keepPause s st p = false → layTensor s p l 0x16 = some d →
      let a := upeReads s p (vecUnits d)
      a.2 = false → layTensor a.1 p l 0x16 = some d → bit (memRead a.1 (tdBase d) 64) 32 = true → layShards l ≤ 1 →
      exec (.upeGatherComplete st p) s = .next (modUpe (upeWait (bump (modUpe a.1 st p (fun x => { x with code := 1 }))
        (upeReg st 0x30) 1) (upeEntry x 1) 1) st p (fun x => { x with phase := 4 }))) ∧
    (x.phase = 3 → upeWaitSt s (upeEntry x 3) = 1 →
      let j := upeEntry x 5
      let e := tget ⟨0, 0, 0, 0⟩ s.cons j
      let seen := (ctr s (4096 * (j / 32768) + e.ctr)).value
      exec (.upeArriveWaitRelease st p) s = .next (modUpe (upeWait { s with cons := tset s.cons j { e with count := seen } } (upeEntry x 1) 1)
        st p (fun y => { y with code := if x.code = 0 ∧ seen ≠ e.count then 7 else x.code, phase := 4 }))) ∧
    (∀ d, x.phase = 4 → upeWaitSt s (upeEntry x 1) = 1 → x.code = 0 → layTensor s p l 0x16 = some d →
      let r := memRead s (tdBase d) 64
      exec (.upeCommitWaitRelease st p) s =
        .next (modUpe (writeRecord s d (bits r 0 32) 1 (bits r 64 64)) st p (fun x => { x with phase := 5 }))) ∧
    (x.phase = 4 → upeWaitSt s (upeEntry x 1) = 1 → x.code ≠ 0 →
      exec (.upeCommitWaitRelease st p) s = .next (upeDone (bump (upeReport s st p x.code) (upeReg st 0x20) 1) st p)) ∧
    (∀ w g sd t bad, x.phase = 5 → keepPause s st p = false → layTensor s p l 8 = some w → layTensor s p l 0xA = some g →
      layTensor s p l 0x16 = some sd → applySweep s st p (procRows s p l).length w g sd = (t, bad) →
      exec (.upeApplyComplete st p) s = .next (upeDone (if bad then upeReport t st p 0x10
        else bump (bump (writeRecord t sd (nextCount (bits (memRead s (tdBase sd) 64) 0 32)) 0 (part t p).step) (upeReg st 0x30) 1)
          (upeReg st 0x18) 1) st p))) ∧
  (∀ (st : Fin 16) (h : Half) (s : State), reachable s (upeReg st 0x10) = true →
    (tget [] s.upeQ st = [] → h ≠ .upper → exec (.upeRefusalRead st h) s = .next (emit s (.value (upeReg st 0x10) 0))) ∧
    (∀ v l, tget [] s.upeQ st = v :: l → ∃ u, exec (.upeRefusalRead st h) s = .next u ∧
      tget [] u.upeQ st = (if h = .upper then v :: l else l) ∧ (∀ k : Nat, k ≠ st.val → tget [] u.upeQ k = tget [] s.upeQ k) ∧
      u.out = .value (upeReg st 0x10) (match h with
        | .whole => v | .lower => bits v 0 32 | .upper => tget 0 s.shadow (upeReg st 0x10)) :: s.out))

/-! ### The steward, caps, temperatures and energy (R394–R416) -/

/-- The steward's state at an instant, before it grants (R398, R403, R404, R407): floors of the period that ends, the phases
that its hatches have entered, the cap that comes into force, and the lane's points and ratio. -/
def Sys2Proof.Machine.atInstant (s : State) : State :=
  let a := (liveHatches (pushFloors s)).foldl (fun u n => if pinned u n then u else modGen u n (fun x => { x with phase := x.newPhase }))
    (pushFloors s)
  let b := updateCap a
  setLane (if b.pws.drain && !laneBusy b then { b with pws := { b.pws with drain := false } } else b)

/-- Power. Every instant the steward grants its running hatches what the cap leaves after the floor estimate, the lane's
reserve and the minimum grants, and paces where even those do not fit; a grant arrives and governs from the next quarter; a
change of point completes; a hatch without grants falls back to OPP 0; caps are clamped and mirrored; a valid sample
adjusts the gain and each sample without validity restarts the count of valid ones. -/
def Obligations.PowerIsGranted : Prop :=
  (∀ s : State, dieUp s 0 = true →
    let u := atInstant s
    let hs := (liveHatches u).filter (fun n => !pinned u n)
    let rows := hs.map (fun n => (⟨n, (phaseEntry (gen u n)).prio, demand (gen u n), grantMin (gen u n)⟩ : GrantRow))
    let reserve := ((laneHatches u).map (fun n => scalePower (phaseEntry (gen u n)).watts (phaseEntry (gen u n)).opp
      (oppCount (gen u n)) * (64 - (gen u n).nextRatio : Nat) / 64)).sum
    let avail := (capActive u : Rat) - floorEst u - reserve - (rows.map (·.g)).sum
    let v := (cutRows (grantRows rows avail) u.pws.cut).foldl grantTo u
    exec .stewardGrant s = .next (pace { v with pws := { v.pws with cut := 0 } } (decide (avail < 0)))) ∧
  (∀ (n : Fin 32) (s : State),
    (∀ g, (gen s n).pwr.sent = some g → exec (.grantApplied n) s =
      .next (modGen s n (fun x => { x with pwr := { x.pwr with newGrant := some g, sent := none, fallback := false } }))) ∧
    (∀ o, (gen s n).pwr.oppNew = some o → exec (.oppChangeComplete n) s =
      .next (modGen s n (fun x => { x with opp := o, pwr := { x.pwr with oppNew := none } }))) ∧
    (hatchLive (gen s n) = true → pinned s n = false → exec (.generatorFallback n) s =
      .next (setBits (modGen s n (fun x => moveOpp { x with pwr := { x.pwr with fallback := true, sent := none } } 0))
        (pwsReg (n / 16) 0x10) 0x10)) ∧
    (∀ e : QuarterEvents, hatchLive (gen s n) = true → pinned s n = false → e.edges ≠ 0 →
      let d := quarterD (gen s n).opp e
      let g := (gen s n).pwr.newGrant.getD (gen s n).pwr.grant
      ∃ u, exec (.quarterBoundaryEstimate n e) s = .next u ∧ (gen u n).pwr.est = d ∧ (gen u n).pwr.grant = g ∧
        (gen u n).pwr.newGrant = none ∧ (gen u n).nextRatio = min 60 (max (floorOf u n) (wantRatio d s.pws.gain (g / 8 : Rat))))) ∧
  (∀ (a : PowerSample) (s : State), dieUp s 0 = true →
    (a.valid = false → exec (.telemetrySample a) s = .next { s with pws := { s.pws with good := 0 } }) ∧
    (a.valid = true → meanDynamic s none ≠ 0 →
      let m : Rat := (a.watts0 + a.watts1 : Nat)
      let sum := meanDynamic s none
      let p := s.pws.gain * sum + floorEst s
      ∃ u, exec (.telemetrySample a) s = .next u ∧ u.pws.good = s.pws.good + 1 ∧ u.pws.hold = (s.pws.hold && decide (s.pws.good + 1 < 10)) ∧
        u.pws.gain = (if s.pws.hold then 3 / 2 else min (3 / 2) (max (3 / 4) (s.pws.gain + (m - p) / (4 * sum)))) ∧
        u.pws.cut = (if (capActive s : Rat) < m then 11 * (m - capActive s) / 10 else s.pws.cut))) ∧
  (∀ s : State, dieUp s 0 = true → exec .telemetryLost s =
    .next (setBits { s with pws := { s.pws with hold := true, ok := false, good := 0, gain := 3 / 2 } } (pwsReg 0 0x10) 8)) ∧
  (∀ (r : Requester) (d : Fin 2) (v : BitVec 32) (s : State),
    let c := min 2000 (max 600 (v.toNat % 2 ^ 12))
    (canWrite s r (pwsReg d 4) → exec (.pwsCapHostWrite r d v) s = .next (if d.val = 0 then wr s (pwsReg 0 4) c else s)) ∧
    (canWrite s r (pwsReg d 8) → exec (.pwsCapMgmtWrite r d v) s = .next (if d.val = 0 then wr s (pwsReg 0 8) c else s)) ∧
    (dieUp s 0 = false → exec (.pwsCapMgmtWrite .mgmt 0 v) s = .next (wr s (pwsReg 0 8) c)))

/-- Temperatures, droop and energy. A die's sample stores every octet's reading and its 98 °C level, left at 95 °C; an armed
droop detector gives the die's TRACK hatches a floor of 32/64 and 256 stretched edges, until the floor expires; a period's
energy is added by partition and channel, and the rest of the measured energy to the module's counter. -/
def Obligations.HeatDroopAndEnergy : Prop :=
  (∀ (d : Fin 2) (ts : List (BitVec 12)) (s : State), dieUp s d = true →
    ∃ u, exec (.dieTemperatureSample d ts) s = .next u ∧
      (∀ o < 17, let t := (nth 0 ts o).toNat
        tget 0 u.pws.temps (17 * d + o) = t ∧
        (17 * d + o ∈ u.pws.hot ↔ 392 ≤ t ∨ (17 * d + o ∈ s.pws.hot ∧ 380 < t))) ∧
      (∀ k, k / 17 ≠ d.val → (k ∈ u.pws.hot ↔ k ∈ s.pws.hot))) ∧
  (∀ (d : Fin 2) (s : State), dieUp s d = true →
    (d.val ∈ s.pws.spent → exec (.droopDetected d) s = .next s) ∧
    (d.val ∉ s.pws.spent → ∃ u, exec (.droopDetected d) s = .next u ∧ u.pws.spent = d.val :: s.pws.spent ∧
      rd u (pwsReg d 0x148) = min (rd s (pwsReg d 0x148) + 1) (2 ^ 64 - 1) ∧
      (∀ n ∈ trackOn s d, (gen u n).pwr.droop = true ∧
        (∀ y, y ∈ (gen u n).slow ↔ y ∈ (gen s n).slow ∨ y = ((gen s n).hc + 1, (gen s n).hc + 256))))) ∧
  (∀ (d : Fin 2) (s : State), ∃ u, exec (.droopFloorExpired d) s = .next u ∧ (∀ n ∈ trackOn s d, (gen u n).pwr.droop = false) ∧
    (∀ n, n ∉ trackOn s d → gen u n = gen s n) ∧ u.pws = s.pws ∧ u.regs = s.regs) ∧
  (∀ (d : Fin 2) (s : State), exec (.droopRearm d) s =
    .next { s with pws := { s.pws with spent := s.pws.spent.filter (· != d.val) } }) ∧
  (∀ (d : Fin 2) (e : EnergySample) (s : State), dieUp s d = true → (∀ n < 32, chKind s d n = 0) →
    let pj := fun p => (s.pws.gain * (nth 0 e.hatches p : Nat)).floor.toNat + 691 * nth 0 e.upes p
    let all := ((List.range 8).map pj).sum
    all ≤ 1000000 * e.measured →
    ∃ u, exec (.energyAccumulate d e) s = .next u ∧
      (∀ p < 8, tget 0 u.pws.energy (pwsReg d (0x100 + 8 * p)) = tget 0 s.pws.energy (pwsReg d (0x100 + 8 * p)) + pj p) ∧
      (∀ n < 32, tget 0 u.pws.energy (pwsReg d (0x200 + 8 * n)) =
        tget 0 s.pws.energy (pwsReg d (0x200 + 8 * n)) + 691 * nth 0 e.granules n + 100 * nth 0 e.units n) ∧
      tget 0 u.pws.energy (pwsReg d 0x140) = tget 0 s.pws.energy (pwsReg d 0x140) + (1000000 * e.measured - all))

/-! ### Resets and trips (R268, R393, R412, R417–R438, R463, R478, R484) -/

/-- Resets and trips. RST_CMD resets a pod or hatch at once where no live plate holds it, and otherwise asks for its partition's
reset; it asks for partition and die resets. A hang whose timer has reached RST_HANG_TIMEOUT and an overdue RETIRE ask for a partition reset. A requested one runs on
both dies, with the capture cut off where it ran late; acknowledging empties the crash slots. A die reset leaves the die down
until it completes; module resets run as requested, and take over what missed its deadline; a trip is latched with its
hottest reading, polled, and cleared at 80 °C. -/
def Obligations.ResetsRunAndTripsLatch : Prop :=
  (∀ (r : Requester) (d : Fin 2) (v : BitVec 32) (s : State), canWrite s r (rstReg d 4) →
    let g := 128 * d.val + bits v.toNat 6 7
    let op := bits v.toNat 0 3
    (op = 1 → partOf s g = none → exec (.rstCmdPod r d v) s = .next (resetPod s g)) ∧
    (op = 2 → partOf s g = none → exec (.rstCmdHatch r d v) s = .next (resetHatch s g)) ∧
    (∀ p, partOf s g = some p → plateLive s p = false →
      (op = 1 → exec (.rstCmdPod r d v) s = .next (resetPod s g)) ∧ (op = 2 → exec (.rstCmdHatch r d v) s = .next (resetHatch s g))) ∧
    (∀ p, partOf s g = some p → plateLive s p = true → (part s p).resetReq = none →
      let t := modPart s p (fun x => { x with resetReq := some ⟨5, g, 0⟩ })
      (op = 1 → exec (.rstCmdPod r d v) s = .next t) ∧ (op = 2 → exec (.rstCmdHatch r d v) s = .next t)) ∧
    (op = 3 → (part s (bits v.toNat 3 3)).resetReq = none →
      exec (.rstCmdPartition r d v) s = .next (modPart s (bits v.toNat 3 3) (fun x => { x with resetReq := some ⟨5, 0, 0⟩ }))) ∧
    (op = 4 → s.dieReq.contains d.val = false → exec (.rstCmdDie r d v) s = .next { s with dieReq := s.dieReq ++ [d.val] })) ∧
  (∀ (n : Fin 32) (s : State), hangCounts (gen s n) = true → hangDue s n = true → dieUp s (n / 16) = true → (part s (gen s n).part).resetReq = none →
    exec (.hangDetected n) s = .next (modPart (logEv (rstEvent s (n / 16) 0) (n / 16) 0x11 (gen s n).part (hatchLow n)
      ((gen s n).hang / 50) false) (gen s n).part (fun x => { x with resetReq := some ⟨2, 0, 0⟩ }))) ∧
  (∀ (p : Fin 8) (s : State), (part s p).active = 3 → (part s p).resetReq = none →
    exec (.retireDrainTimeout p) s = .next (modPart s p (fun x => { x with resetReq := some ⟨5, 0, 0⟩ }))) ∧
  (∀ (p : Fin 8) (q : ResetReq) (s : State), (part s p).resetReq = some q → dieUp s 0 = true → dieUp s 1 = true →
    (∀ k ∈ (part s p).octets, k < 32) →
    exec (.partitionReset p) s = .next (runReset s p q [0, 1] none) ∧
    (∀ k b, exec (.crashCaptureCut p k b) s = .next (runReset s p q [0, 1] (some (k, b)))) ∧
    (∀ d, partDies s p = [d] → d < 2 →
      let pods := (podsOf s p).filter (fun g => dieUp s (g / 128))
      let a := pickOf s (if pods.isEmpty then [1, 4, 6] else [1, 4, 5, 6])
      let b := pickOf a.1 pods
      exec (.resetDeadlineMissed p) s = .next (
        if a.2 = 5 then noteEscalated (resetDies (runReset (listSlot b.1 b.2) p q [0, 1] none) [b.2 / 128] 8) (b.2 / 128) 1 5
        else noteEscalated (resetDies (runReset b.1 p q [0, 1] none) [d] 8) d 3 a.2))) ∧
  (∀ (r : Requester) (d : Fin 2) (p : Fin 8) (s : State), canWrite s r (rstReg d (0x60 + 4 * p)) →
    ∃ u, exec (.rstCrashAck r d p) s = .next u ∧ crashSt u 0 p = 0 ∧ crashSt u 1 p = 0 ∧
      (crashSt s 0 p = 0 → crashSt s 1 p = 0 → u.mem = s.mem)) ∧
  (∀ (d : Fin 2) (s : State),
    (dieUp s d = true → ∃ u, exec (.dieReset d) s = .next u ∧ dieUp u d = false ∧ d.val ∉ u.dieReq ∧ (∀ e ∈ u.copies, e.1 / 32 ≠ d.val)) ∧
    (dieUp s d = false → exec (.dieReset d) s = .next { s with dieReq := s.dieReq.filter (· != d.val) }) ∧
    (tripLatched s = false → s.sup.inReset.contains d.val = false → (domOf s d).st = 2 → s.dieDown.contains d.val = true →
      s.dieDown.contains 2 = false → exec (.dieResetComplete d) s = .next (setBits { s with
        dieDown := s.dieDown.filter (· != d.val)
        sup := { s.sup with inReset := s.sup.inReset.filter (· != d.val) } } (apcReg 8) 1))) ∧
  (∀ s : State, s.sup.standby = true →
    (∀ c, s.modReq = some (1, c) → exec .warmModuleReset s = .next (warmReset s c)) ∧
    (∀ d, s.modReq = none → [0, 1].filter (resetting s) = [d] →
      exec .warmModuleReset s = .next (noteEscalated (warmReset (nextFree s) 3) d 4 (Config.free 64 s.freeCtr).toNat)) ∧
    (∀ c, s.modReq = some (2, c) → c < 16 → s.sup.modReset = false →
      ∃ u, exec .coldModuleReset s = .next u ∧ coldPast s u c ∧ romDone u) ∧
    (s.modReq = none → warmInProgress s = true → exec .coldModuleReset s =
      .next (coldReset (logEv (nextFree s) 2 0x12 0xFF 5 (Config.free 64 s.freeCtr).toNat false) 3))) ∧
  (∀ (r : Requester) (v : BitVec 32) (s : State), canWrite s r (wrdReg 0x408) → bits v.toNat 0 16 = 0x5A17 → s.modReq = none →
    (bits v.toNat 16 2 = 1 → exec (.wrdResetCmdWarm r v) s = .next { s with modReq := some (1, 1) }) ∧
    (bits v.toNat 16 2 = 2 → exec (.wrdResetCmdCold r v) s = .next { s with modReq := some (2, 1) })) ∧
  (∀ s : State, s.sup.standby = true → tripLatched s = false →
    (∀ st : Fin 16, 440 ≤ (stk s st).temp → exec (.stackThermalTrip st) s =
      .next (modStk (setBits (trip s 0 st (st / 8) (stk s st).temp) (mchReg st 8) 8) st (fun x => { x with level := 4 }))) ∧
    (∀ (d : Fin 2) (o : Fin 17), 420 ≤ dieHottest s d → (∀ k < 17, tget 0 s.pws.temps (17 * d + k) = dieHottest s d ↔ k = o.val) →
      exec (.dieThermalTrip d) s = .next (trip s 1 o d (dieHottest s d)))) ∧
  (∀ s : State, tripLatched s = true →
    let w := rd s (wrdReg 0x400)
    (∀ t : BitVec 12, exec (.tripSensorPoll t) s = .next (wr s (wrdReg 0x400) (w - fld 9 12 (bits w 9 12) + fld 9 12 t.toNat))) ∧
    (∀ (r : Requester) (v : BitVec 32), canWrite s r (wrdReg 0x404) → bits v.toNat 0 16 = 0x7A1E →
      (320 < bits w 9 12 → exec (.wrdTripClear r v) s = .next (wr s (wrdReg 0x400) (tripResult w 2))) ∧
      (bits w 9 12 ≤ 320 → ∃ u, exec (.wrdTripClear r v) s = .next u ∧ (∀ st < 16, (stk u st).level ≠ 4) ∧ u.mem = s.mem ∧
        (∀ d < 2, (domOf s d).st = 2 → s.sup.inReset.contains d = false → dieUp u d = true))))

/-! ### The warden, the management port and the sideband (R447–R458) -/

/-- Bytes of a datagram that asks for operation `op` and carries header and payload `m` under its valid tag (R455). -/
def Sys2Proof.Machine.asks (s : State) (x : MgmtReq) (m : List Byte) (op : Nat) : Prop :=
  x.bytes = m ++ mgmtTag (mgmtKey s) m ∧ 32 ≤ m.length ∧ dgNat m 0 2 = 0x4D51 ∧ dgNat m 2 1 = 1 ∧ dgOp m = op ∧
    s.sec.seqMax < dgNat m 8 8 ∧ s.sup.standby = true ∧ s.sup.modReset = false

/-- Management requests (R454–R456). An authentic request above every sequence number accepted makes its accesses in
ascending order and is answered with their values, or with the status and the index of the access that failed. -/
def Obligations.ManagementRequestsAreAnswered : Prop :=
  ∀ (x : MgmtReq) (m : List Byte) (s : State),
    let n := dgNat m 0x18 4
    let a := dgNat m 0x10 8
    let t := takeSeq s (dgNat m 8 8)
    let reply := fun (u : State) (bad : Option Nat) (index : Nat) (p : List Byte) =>
      mgmtReply u x (mgmtKey s) (bad.getD 0) (if bad.isSome then index else 0) (if bad.isSome then [] else p)
    let fits := fun w => a % w = 0 ∧ n % w = 0 ∧ w ≤ n ∧ n ≤ 1024 ∧ (∀ k < n / w, isDevice (a + w * k) = false)
    (asks s x m 1 → wardenUp s = true → fits 4 → m.length = 32 → ∀ u v bad, mgmtReads (n / 4) t a 4 [] = (u, v, bad) →
      exec (.mgmtRead32 x) s = .next (reply u bad (v.length / 4) v)) ∧
    (asks s x m 2 → wardenUp s = true → fits 8 → m.length = 32 → ∀ u v bad, mgmtReads (n / 8) t a 8 [] = (u, v, bad) →
      exec (.mgmtRead64 x) s = .next (reply u bad (v.length / 8) v)) ∧
    (asks s x m 3 → wardenUp s = true → fits 4 → m.length = 32 + n → ∀ u k bad, mgmtWrites (n / 4) t a 4 (m.drop 32) 0 = (u, k, bad) →
      exec (.mgmtWrite32 x) s = .next (reply u bad k [])) ∧
    (asks s x m 4 → wardenUp s = true → fits 8 → m.length = 32 + n → ∀ u k bad, mgmtWrites (n / 8) t a 8 (m.drop 32) 0 = (u, k, bad) →
      exec (.mgmtWrite64 x) s = .next (reply u bad k [])) ∧
    (asks s x m 0x10 → n % 32 = 0 → n ≤ 1024 → a + n / 32 ≤ 8192 → a < 8192 → m.length = 32 →
      exec (.bbxRead x) s = .next (reply t none 0 (bbxBytes s a (n / 32)))) ∧
    (asks s x m 0x11 → n = 0 → a = 0 → m.length = 32 → exec (.mgmtStatus x) s = .next (reply t none 0 (statusBytes s)))

/-- The sideband, heartbeats and the in-charge token (R449–R453, R457). The sideband answers status, temperatures, power and
the always-on registers, and writes the few it may; a heartbeat ends its die's silence; a die that goes silent loses the
token, a compare-and-swap that finds holder and epoch moves it and counts the epoch on, and any other one changes nothing. -/
def Obligations.SidebandAndToken : Prop :=
  (∀ s : State, wardenUp s = true → s.sup.modReset = false →
    exec .smbStatus s = .next (emit s (.smbus (statusBytes s))) ∧
    exec .smbTemps s = .next (emit s (.smbus (leBytes 2 (dieHottest s 0) ++ leBytes 2 (dieHottest s 1) ++
      leBytes 2 (stackHottest s 0) ++ leBytes 2 (stackHottest s 1)))) ∧
    exec .smbPower s = .next (emit (nextFree s) (.smbus (leBytes 2 s.sup.watts ++ leBytes 2 (Config.free 16 s.freeCtr).toNat))) ∧
    (∀ (a : BitVec 32) u v, a.toNat < 0x300000 → regRead s (modBase + a.toNat) 4 = (u, some v) →
      exec (.aoRead a) s = .next (emit u (.smbus (leBytes 4 v)))) ∧
    (∀ v : BitVec 32, exec (.aoWrite 0x18 v) s = .next (clrBits s (wrdReg 0x18) v.toNat)) ∧
    (∀ a v : BitVec 32, a.toNat = 0x2C ∨ a.toNat = 0x404 ∨ a.toNat = 0x408 →
      exec (.aoWrite a v) s = .next (regWrite s .mgmt (wrdReg a.toNat) 4 v.toNat).1) ∧
    (∀ w : BitVec 16, exec (.smbCap w) s = .next (wr s (pwsReg 0 8) (min 2000 (max 600 (w.toNat % 2 ^ 12)))))) ∧
  (∀ (r : Requester) (d : Fin 2) (v : BitVec 32) (s : State), canWrite s r (wrdReg (0x20 + 4 * d)) →
    exec (.wrdHeartbeat r d v) s = .next { s with silent := s.silent.filter (· != d.val) }) ∧
  (∀ (d : Fin 2) (s : State), s.sup.standby = true → s.silent.contains d.val = false →
    ∃ u, exec (.fwSilent d) s = .next u ∧ u.silent = d.val :: s.silent ∧ u.pods = s.pods ∧ u.parts = s.parts ∧
      rd u (wrdReg 0) = (if bits (rd s (wrdReg 0)) 0 2 = d.val + 1 then fld 32 32 (bits (rd s (wrdReg 0)) 32 32 + 1) else rd s (wrdReg 0))) ∧
  (∀ (d : Fin 2) (v : BitVec 64) (s : State), canWrite s (.control d) (wrdReg 8) →
    let t := rd s (wrdReg 0)
    let new := bits v.toNat 2 2
    (bits v.toNat 0 2 = bits t 0 2 → bits v.toNat 32 32 = bits t 32 32 → (new = 0 ∨ new = d.val + 1) →
      ∃ u, exec (.wrdTokenCas (.control d) v) s = .next u ∧ rd u (wrdReg 0) = new + fld 32 32 (bits t 32 32 + 1) ∧
        rd u (wrdReg (0x10 + 4 * d)) = 1 + 4 * new) ∧
    (¬ (bits v.toNat 0 2 = bits t 0 2 ∧ bits v.toNat 32 32 = bits t 32 32 ∧ (new = 0 ∨ new = d.val + 1)) →
      exec (.wrdTokenCas (.control d) v) s = .next (wr s (wrdReg (0x10 + 4 * d)) (2 + 4 * bits t 0 2)))) ∧
  (∀ (d : Fin 2) (e : BitVec 32) (s : State), dieUp s d = true →
    (bits (rd s (wrdReg 0)) 0 2 ≠ d.val + 1 ∨ bits (rd s (wrdReg 0)) 32 32 ≠ e.toNat) →
    exec (.ownershipConflict d e) s =
      .next (logEv (setBits s (wrdReg 0x18) 1) d 0x50 0xFF e.toNat (bits (rd s (wrdReg 0)) 32 32) false))

/-! ### Security commands, sampling counters and the black box (R476–R483, R490–R499) -/

/-- Security commands. An anti-rollback advance within its limit is queued and its counter takes the value when it
completes; a quote is taken, signed with an index that is reserved, and leaves its result; M5 and M7 are extended by those
who may; a key is committed if its flash write succeeds; flash commands run one at a time. -/
def Obligations.SecurityCommands : Prop :=
  (∀ (r : Requester) (v : BitVec 32) (s : State), canWrite s r (secReg 0x10) → bits v.toNat 0 3 < 5 →
    let c := bits v.toNat 0 3
    let x := bits v.toNat 3 7
    (x ≤ rollbackLimit s c → nth 0 s.sec.fuses.rollback c < x →
      exec (.secRollbackCmd r v) s = .next { s with sec := { s.sec with
        advance := s.sec.advance ++ [(c, x)]
        intent := (s.sec.advance ++ [(c, x)]).head? } }) ∧
    (x ≤ rollbackLimit s c → x ≤ nth 0 s.sec.fuses.rollback c → exec (.secRollbackCmd r v) s = .next s) ∧
    (rollbackLimit s c < x → exec (.secRollbackCmd r v) s =
      .next (wr (pickOf s [secReg 0x28, secReg 0x808]).1 (pickOf s [secReg 0x28, secReg 0x808]).2 512))) ∧
  (∀ (c x : Nat) (q : List (Nat × Nat)) (s : State), s.sec.advance = (c, x) :: q → c ≠ 4 →
    exec .fuseAdvanceComplete s = .next { s with sec := { s.sec with
      advance := q
      intent := q.head?
      fuses := { s.sec.fuses with rollback := s.sec.fuses.rollback.modify c (max x) } } }) ∧
  (∀ (r : Requester) (v : BitVec 32) (s : State), canWrite s r (secReg 0x24) → bit v.toNat 0 = true →
    (s.sec.quote = none → exec (.quote r v) s = .next { s with sec := { s.sec with quote := some (quoteBody s) } }) ∧
    (s.sec.quote.isSome = true → exec (.quote r v) s = .next (wr s (secReg 0x28) 256))) ∧
  (∀ (b : Nat) (s : State), s.sec.quote = some b →
    let t := modSec s (fun x => { x with quote := none })
    (2 ^ 20 ≤ s.sec.idNext → exec .quoteComplete s = .next (runExtends (wr t (secReg 0x28) 1024))) ∧
    (s.sec.idNext < 2 ^ 20 → s.sec.idNext < s.sec.idRes → exec .quoteComplete s = .next (runExtends (signQuote t b)))) ∧
  (∀ (v : BitVec 32) (s : State),
    (bits v.toNat 0 3 = 5 → canWrite s .app (secReg 0x2C) →
      exec (.secMeasureExtend .app v) s = .next (extend s 5 (wordsAt s (secReg 0x60) 4))) ∧
    (bits v.toNat 0 3 = 7 → canWrite s .mgmt (secReg 0x2C) →
      exec (.secMeasureExtend .mgmt v) s = .next (extend s 7 (wordsAt s (secReg 0x60) 4)))) ∧
  (∀ (r : Requester) (v : BitVec 32) (s : State), canWrite s r (secReg 0x30) → bit v.toNat 0 = true →
    let a := pickOf s [0, 1]
    let b := pickOf a.1 [secReg 0x28, secReg 0x808]
    exec (.commit r v) s = .next (if a.2 = 0 then modSec a.1 (fun x => { x with newKey := some (wordsAt s (secReg 0x80) 4 ^^^ keyMask s) })
      else wr b.1 b.2 768)) ∧
  (∀ (r : Requester) (s : State), canWrite s r (secReg 0x804) →
    let a := rd s (secReg 0x800)
    let begun := fun op => Host.Outcome.next { s with sec := { s.sec with flashOp := some (op, a) } }
    (s.sec.flashOp = none → flashRefused s 1 a = false → a + 0x10000 ≤ 0x4000000 → exec (.flashErase r) s = begun 1) ∧
    (s.sec.flashOp = none → flashRefused s 2 a = false → a + 0x1000 ≤ 0x4000000 → exec (.flashProgram r) s = begun 2) ∧
    (s.sec.flashOp = none → flashRefused s 3 a = false → a + 0x1000 ≤ 0x4000000 → exec (.flashRead r) s = begun 3) ∧
    (s.sec.flashOp.isSome = true → exec (.flashErase r) s = .next (wr s (secReg 0x808) 256) ∧
      exec (.flashProgram r) s = .next (wr s (secReg 0x808) 256) ∧ exec (.flashRead r) s = .next (wr s (secReg 0x808) 256))) ∧
  (∀ (op a : Nat) (s : State), s.sec.flashOp = some (op, a) →
    let done := fun (u : State) (res : Nat) => wr (modSec u (fun x => { x with flashOp := none })) (secReg 0x808) (256 * res)
    (op = 3 → exec .flashOperationComplete s = .next (done (putWords s (secReg 0x1000) 512 (flashRead s a 0x1000)) 0)) ∧
    (op = 1 → exec .flashOperationComplete s = .next (
      let k := pickOf s [0, 1]
      if k.2 = 0 then done (modSec k.1 (fun x => { x with flash := mclear x.flash a 0x10000 })) 0
      else done (loseFlash k.1 a 0x10000) 3)))

/-- Sampling counters and the black box (R490–R492, R496–R499). A fold moves a count's low 33 bits to its total; a
configuration clears both. The writer stores the next queue's oldest event under the next SEQ, or first how many were
lost; the box freezes when its post window closes or on the key, and storing resumes with UNFREEZE. -/
def Obligations.SamplingAndBlackBox : Prop :=
  (∀ (r : Requester) (d : Fin 2) (v : BitVec 32) (s : State), canWrite s r (cntReg d 4) →
    let n := v.toNat % 16
    let c := rd s (cntReg d (0x200 + 8 * n))
    let t := rd s (cntReg d (0x300 + 8 * n))
    t + c % 2 ^ 33 < 2 ^ 64 → exec (.cntFold r d v) s =
      .next (wr (wr s (cntReg d (0x200 + 8 * n)) (c - c % 2 ^ 33)) (cntReg d (0x300 + 8 * n)) (t + c % 2 ^ 33))) ∧
  (∀ (r : Requester) (d : Fin 2) (n : Fin 16) (v : BitVec 32) (s : State), canWrite s r (cntReg d (0x100 + 4 * n)) →
    exec (.cntSampleCfgWrite r d n v) s = .next (wr (wr (wr s (cntReg d (0x200 + 8 * n)) 0) (cntReg d (0x300 + 8 * n)) 0)
      (cntReg d (0x100 + 4 * n)) (if 9 ≤ bits v.toNat 0 4 then bits v.toNat 0 13 else bits v.toNat 0 14))) ∧
  (∀ (k : Fin 3) (e : BbxEvent) (l : List BbxEvent) (s : State), s.bbx.frozen = false → s.bbx.pend = false → s.bbx.turn % 3 = k.val →
    bbxQueue s.bbx k = e :: l →
    (bbxLost s.bbx k = 0 → e.fatal = false → ∃ u, exec .bbxStore s = .next u ∧ bbxQueue u.bbx k = l ∧
      tget 0#256 u.bbx.entries (s.bbx.seq % 8192) = bbxEntry s.bbx.seq false e ∧ u.bbx.seq = (s.bbx.seq + 1) % 2 ^ 32 ∧
      u.bbx.turn = (k + 1) % 3 ∧ u.bbx.frozen = false ∧ u.bbx.pend = false) ∧
    (bbxLost s.bbx k = 0 → e.fatal = true → ∃ u, exec .bbxStore s = .next u ∧ bbxQueue u.bbx k = l ∧ u.bbx.freezeSeq = s.bbx.seq ∧
      u.bbx.left = bbxPost s ∧ u.bbx.pend = decide (0 < bbxPost s) ∧ u.bbx.frozen = decide (bbxPost s = 0)) ∧
    (0 < bbxLost s.bbx k → ∃ u, exec .bbxStore s = .next u ∧ bbxQueue u.bbx k = e :: l ∧ bbxLost u.bbx k = 0 ∧
      tget 0#256 u.bbx.entries (s.bbx.seq % 8192) = bbxEntry s.bbx.seq false
        ⟨0xFF, false, k, 0xFF, s.colds % 256 * 2 ^ 56 + s.ticks % 2 ^ 56, bbxLost s.bbx k, 0⟩)) ∧
  (∀ s : State, s.bbx.pend = true → exec .bbxPostWindowExpired s = .next { s with bbx := { s.bbx with pend := false, frozen := true } }) ∧
  (∀ (r : Requester) (v : BitVec 32) (s : State), canWrite s r (bbxReg 4) →
    let t := wr s (bbxReg 4) (bits v.toNat 0 10)
    (bits v.toNat 16 16 = 0x2F0C → s.bbx.frozen = false → exec (.bbxFreeze r v) s = .next { t with bbx := { s.bbx with
      frozen := true
      pend := false
      freezeSeq := if s.bbx.entries.isEmpty then s.bbx.freezeSeq else (s.bbx.seq + (2 ^ 32 - 1)) % 2 ^ 32 } }) ∧
    (bits v.toNat 16 16 = 0x6C31 → (s.bbx.frozen = true ∨ s.bbx.pend = true) → exec (.bbxUnfreeze r v) s =
      .next (logEv { t with bbx := { s.bbx with frozen := false, pend := false } } 2 0x60 0xFF (requesterCode r) s.bbx.freezeSeq false)))
end

