-- ==== Sys2Proof/Laws/Tables.lean ====
section
/-! SUPPORT. Laws of the sparse tables: a read after a write, a write leaves every other key alone, and every operation
keeps the keys rising. The reading laws hold of every list, in canonical form or not. -/

namespace Sys2Proof.Machine

open Sys2Proof

theorem tget_dropWhile {α : Type} (d : α) (t : Tbl α) (k j : Nat) (h : k < j) :
    tget d (t.dropWhile (fun e => decide (e.1 ≤ k))) j = tget d t j := by
  induction t with
  | nil => rfl
  | cons e t ih =>
    obtain ⟨a, v⟩ := e
    by_cases c : a ≤ k
    · simp only [List.dropWhile_cons, c, decide_true, if_true, ih, tget]
      rw [if_neg (by omega), if_neg (by omega)]
    · simp [c]

theorem tget_dropWhile_le {α : Type} (d : α) (t : Tbl α) (k j : Nat) (h : j ≤ k) :
    tget d (t.dropWhile (fun e => decide (e.1 ≤ k))) j = d := by
  induction t with
  | nil => rfl
  | cons e t ih =>
    obtain ⟨a, v⟩ := e
    by_cases c : a ≤ k
    · simpa [List.dropWhile_cons, c] using ih
    · simp only [List.dropWhile_cons, c, decide_false, tget, Bool.false_eq_true, if_false]
      rw [if_neg (by omega), if_pos (by omega)]

@[simp] theorem tget_tset_same {α : Type} (d : α) (t : Tbl α) (k : Nat) (v : α) : tget d (tset t k v) k = v := by
  induction t with
  | nil => simp [tset, tget]
  | cons e t ih =>
    obtain ⟨a, w⟩ := e
    simp only [tset]
    split
    · simp [tget]
    · split
      · simp [tget]
      · simp only [tget, ih]
        rw [if_neg (by omega), if_neg (by omega)]

theorem tget_tset_ne {α : Type} (d : α) (t : Tbl α) (k j : Nat) (v : α) (h : j ≠ k) :
    tget d (tset t k v) j = tget d t j := by
  induction t with
  | nil => simp [tset, tget, Ne.symm h]
  | cons e t ih =>
    obtain ⟨a, w⟩ := e
    simp only [tset]
    split
    · simp only [tget]
      by_cases c : j < k
      · rw [if_neg (by omega), if_pos c, if_neg (by omega), if_pos (by omega)]
      · rw [if_neg (by omega), if_neg c]
    · split
      · subst a
        simp only [tget]
        by_cases c : j < k
        · rw [if_neg (by omega), if_pos c, if_neg (by omega)]
        · rw [if_neg (by omega), if_neg c, if_neg (by omega)]
      · simp only [tget, ih]

theorem tget_tset {α : Type} (d : α) (t : Tbl α) (k j : Nat) (v : α) :
    tget d (tset t k v) j = if j = k then v else tget d t j := by
  split
  · subst j; exact tget_tset_same d t k v
  · exact tget_tset_ne d t k j v ‹_›

theorem tfind_tset {α : Type} (t : Tbl α) (k j : Nat) (v : α) :
    tfind (tset t k v) j = if j = k then some v else tfind t j := by
  induction t with
  | nil => simp [tset, tfind, eq_comm]
  | cons e t ih =>
    obtain ⟨a, w⟩ := e
    simp only [tset]
    split
    · simp only [tfind]
      by_cases c : j = k
      · simp [c]
      · rw [if_neg (Ne.symm c), if_neg c]
        split
        · rw [if_neg (by omega), if_pos (by omega)]
        · rfl
    · split
      · subst a
        simp only [tfind]
        by_cases c : j = k
        · simp [c]
        · simp [c, Ne.symm c]
      · simp only [tfind, ih]
        by_cases c : j = k
        · subst j; simp only [if_true]; rw [if_neg (by omega), if_neg (by omega)]
        · simp [c]

theorem tfind_tdel_same {α : Type} (t : Tbl α) (k : Nat) : tfind (tdel t k) k = none := by
  induction t with
  | nil => rfl
  | cons e t ih =>
    obtain ⟨a, w⟩ := e
    simp only [tdel]
    split
    · simp only [tfind]; rw [if_neg (by omega), if_pos ‹_›]
    · split
      · generalize hl : t.dropWhile (fun e => decide (e.1 ≤ k)) = l
        cases l with
        | nil => rfl
        | cons x l =>
          have h := List.head?_dropWhile_not (fun e : Nat × α => decide (e.1 ≤ k)) t
          rw [hl] at h
          simp only [List.head?_cons, decide_eq_false_iff_not] at h
          obtain ⟨b, y⟩ := x
          simp only at h
          simp only [tfind]; rw [if_neg (by omega), if_pos (by omega)]
      · simp only [tfind, ih]; rw [if_neg ‹_›, if_neg (by omega)]

@[simp] theorem tget_tdel_same {α : Type} (d : α) (t : Tbl α) (k : Nat) : tget d (tdel t k) k = d := by
  induction t with
  | nil => rfl
  | cons e t ih =>
    obtain ⟨a, w⟩ := e
    simp only [tdel]
    split
    · simp only [tget]; rw [if_neg (by omega), if_pos ‹_›]
    · split
      · exact tget_dropWhile_le d t k k (Nat.le_refl k)
      · simp only [tget, ih]; rw [if_neg ‹_›, if_neg ‹_›]

theorem tget_tdel_ne {α : Type} (d : α) (t : Tbl α) (k j : Nat) (h : j ≠ k) : tget d (tdel t k) j = tget d t j := by
  induction t with
  | nil => rfl
  | cons e t ih =>
    obtain ⟨a, w⟩ := e
    simp only [tdel]
    split
    · rfl
    · split
      · subst a
        simp only [tget]
        rw [if_neg (by omega)]
        split
        · exact tget_dropWhile_le d t k j (by omega)
        · exact tget_dropWhile d t k j (by omega)
      · simp only [tget, ih]

@[simp] theorem tget_tmod_same {α : Type} (d : α) (t : Tbl α) (k : Nat) (f : α → α) :
    tget d (tmod d t k f) k = f (tget d t k) := tget_tset_same d t k _

theorem tget_tmod_ne {α : Type} (d : α) (t : Tbl α) (k j : Nat) (f : α → α) (h : j ≠ k) :
    tget d (tmod d t k f) j = tget d t j := tget_tset_ne d t k j _ h

/-- Rising keys, as the list library says it. -/
theorem twf_iff {α : Type} (t : Tbl α) : twf t = true ↔ (t.map Prod.fst).Pairwise (· < ·) := by
  induction t with
  | nil => simp [twf]
  | cons e t ih =>
    cases t with
    | nil => simp [twf]
    | cons f t =>
      simp only [twf, Bool.and_eq_true, decide_eq_true_eq, ih, List.map_cons, List.pairwise_cons, List.mem_cons,
        List.mem_map, forall_eq_or_imp]
      constructor
      · rintro ⟨h, hk, hp⟩
        exact ⟨⟨h, fun a m => Nat.lt_trans h (hk a m)⟩, hk, hp⟩
      · rintro ⟨⟨h, -⟩, hk, hp⟩
        exact ⟨h, hk, hp⟩

theorem fst_tset {α : Type} (t : Tbl α) (k : Nat) (v : α) (x : Nat) :
    x ∈ (tset t k v).map Prod.fst ↔ x = k ∨ x ∈ t.map Prod.fst := by
  induction t with
  | nil => simp [tset]
  | cons e t ih =>
    obtain ⟨a, w⟩ := e
    simp only [tset]
    split
    · simp
    · split
      · subst a; simp
      · simp only [List.map_cons, List.mem_cons, ih]; tauto

/-- A store keeps the form. -/
theorem twf_tset {α : Type} (t : Tbl α) (k : Nat) (v : α) (h : twf t = true) : twf (tset t k v) = true := by
  rw [twf_iff] at *
  induction t with
  | nil => simp [tset]
  | cons e t ih =>
    obtain ⟨a, w⟩ := e
    simp only [List.map_cons, List.pairwise_cons] at h
    simp only [tset]
    split
    · simp only [List.map_cons, List.pairwise_cons, List.mem_cons]
      refine ⟨?_, h⟩
      rintro x (rfl | m)
      · assumption
      · exact Nat.lt_trans ‹_› (h.1 x m)
    · split
      · subst a; simpa using h
      · simp only [List.map_cons, List.pairwise_cons]
        refine ⟨fun x m => ?_, ih h.2⟩
        rw [fst_tset] at m
        rcases m with rfl | m
        · omega
        · exact h.1 x m

/-- A removal keeps the form. -/
theorem twf_tdel {α : Type} (t : Tbl α) (k : Nat) (h : twf t = true) : twf (tdel t k) = true := by
  rw [twf_iff] at *
  refine List.Pairwise.sublist ?_ h
  refine List.Sublist.map _ ?_
  clear h
  induction t with
  | nil => exact List.Sublist.refl _
  | cons e t ih =>
    obtain ⟨a, w⟩ := e
    simp only [tdel]
    split
    · exact List.Sublist.refl _
    · split
      · exact (List.dropWhile_sublist _).trans (List.sublist_cons_self _ _)
      · exact ih.cons_cons _

end Sys2Proof.Machine
end

