-- ==== Sys2Proof/Laws/State.lean ====
section
/-! SUPPORT. What each named update leaves alone: one law per update over all other fields and readers, true by
unfolding, and the reading laws of what it writes. -/

namespace Sys2Proof.Machine

open Sys2Proof

set_option linter.all false

@[simp] theorem wr_frame (s : State) (a v : Nat) :
    (wr s a v).mapped = s.mapped ∧ (wr s a v).slabs = s.slabs ∧ (wr s a v).rootCfg = s.rootCfg ∧
    (wr s a v).pending = s.pending ∧ (wr s a v).out = s.out ∧ (wr s a v).freeCtr = s.freeCtr ∧
    (wr s a v).now = s.now ∧ (wr s a v).pods = s.pods ∧ (wr s a v).gens = s.gens ∧ (wr s a v).parts = s.parts ∧
    (wr s a v).mem = s.mem ∧ (wr s a v).memErr = s.memErr ∧ (wr s a v).stks = s.stks ∧ (wr s a v).chans = s.chans ∧
    (wr s a v).ranges = s.ranges ∧ (wr s a v).copies = s.copies ∧ (wr s a v).rangeCmds = s.rangeCmds ∧
    (wr s a v).descCmds = s.descCmds ∧ (wr s a v).cntOps = s.cntOps ∧ (wr s a v).bbx = s.bbx ∧
    (wr s a v).ctrs = s.ctrs ∧ (wr s a v).dests = s.dests ∧ (wr s a v).cons = s.cons ∧
    (wr s a v).changes0 = s.changes0 ∧ (wr s a v).changes1 = s.changes1 ∧ (wr s a v).ports = s.ports ∧
    (wr s a v).upes = s.upes ∧ (wr s a v).upeQ = s.upeQ ∧ (wr s a v).shadow = s.shadow ∧
    (wr s a v).spans = s.spans ∧ (wr s a v).nextSpan = s.nextSpan ∧ (wr s a v).ticks = s.ticks ∧
    (wr s a v).colds = s.colds ∧ (wr s a v).journal = s.journal ∧ (wr s a v).pins = s.pins ∧
    (wr s a v).slots = s.slots ∧ (wr s a v).pws = s.pws ∧ (wr s a v).lane = s.lane ∧ (wr s a v).fcsBad = s.fcsBad ∧
    (wr s a v).ringStop = s.ringStop ∧ (wr s a v).msi = s.msi ∧ (wr s a v).edgePend = s.edgePend ∧
    (wr s a v).dieDown = s.dieDown ∧ (wr s a v).dieReq = s.dieReq ∧ (wr s a v).modReq = s.modReq ∧
    (wr s a v).silent = s.silent ∧ (wr s a v).crash = s.crash ∧ (wr s a v).crashSeq = s.crashSeq ∧
    (wr s a v).podUes = s.podUes ∧ (wr s a v).sec = s.sec ∧ (wr s a v).sup = s.sup ∧ (wr s a v).locked = s.locked ∧
    (wr s a v).modLock = s.modLock ∧ (wr s a v).violations = s.violations ∧ (∀ g', pod (wr s a v) g' = pod s g') ∧
    (∀ n', gen (wr s a v) n' = gen s n') ∧ (∀ p', part (wr s a v) p' = part s p') ∧
    (∀ n', stk (wr s a v) n' = stk s n') ∧ (∀ x' y', chan (wr s a v) x' y' = chan s x' y') ∧
    (∀ x' y', copyChan (wr s a v) x' y' = copyChan s x' y') ∧ (∀ i', rangeAt (wr s a v) i' = rangeAt s i') ∧
    (∀ i', ctr (wr s a v) i' = ctr s i') ∧ (∀ k', port (wr s a v) k' = port s k') ∧
    (∀ x' y', upe (wr s a v) x' y' = upe s x' y') ∧ (∀ d', dieUp (wr s a v) d' = dieUp s d') := by
  refine ⟨?_, ?_, ?_, ?_, ?_, ?_, ?_, ?_, ?_, ?_, ?_, ?_, ?_, ?_, ?_, ?_, ?_, ?_, ?_, ?_, ?_, ?_, ?_, ?_, ?_, ?_, ?_, ?_, ?_, ?_, ?_, ?_, ?_, ?_, ?_, ?_, ?_, ?_, ?_, ?_, ?_, ?_, ?_, ?_, ?_, ?_, ?_, ?_, ?_, ?_, ?_, ?_, ?_, ?_, ?_, ?_, ?_, ?_, ?_, ?_, ?_, ?_, ?_, ?_, ?_⟩ <;> first | rfl | (intros; rfl)

@[simp] theorem setPod_frame (s : State) (g : Nat) (p : Pod) :
    (setPod s g p).mapped = s.mapped ∧ (setPod s g p).slabs = s.slabs ∧ (setPod s g p).rootCfg = s.rootCfg ∧
    (setPod s g p).pending = s.pending ∧ (setPod s g p).out = s.out ∧ (setPod s g p).freeCtr = s.freeCtr ∧
    (setPod s g p).now = s.now ∧ (setPod s g p).regs = s.regs ∧ (setPod s g p).gens = s.gens ∧
    (setPod s g p).parts = s.parts ∧ (setPod s g p).mem = s.mem ∧ (setPod s g p).memErr = s.memErr ∧
    (setPod s g p).stks = s.stks ∧ (setPod s g p).chans = s.chans ∧ (setPod s g p).ranges = s.ranges ∧
    (setPod s g p).copies = s.copies ∧ (setPod s g p).rangeCmds = s.rangeCmds ∧
    (setPod s g p).descCmds = s.descCmds ∧ (setPod s g p).cntOps = s.cntOps ∧ (setPod s g p).bbx = s.bbx ∧
    (setPod s g p).ctrs = s.ctrs ∧ (setPod s g p).dests = s.dests ∧ (setPod s g p).cons = s.cons ∧
    (setPod s g p).changes0 = s.changes0 ∧ (setPod s g p).changes1 = s.changes1 ∧ (setPod s g p).ports = s.ports ∧
    (setPod s g p).upes = s.upes ∧ (setPod s g p).upeQ = s.upeQ ∧ (setPod s g p).shadow = s.shadow ∧
    (setPod s g p).spans = s.spans ∧ (setPod s g p).nextSpan = s.nextSpan ∧ (setPod s g p).ticks = s.ticks ∧
    (setPod s g p).colds = s.colds ∧ (setPod s g p).journal = s.journal ∧ (setPod s g p).pins = s.pins ∧
    (setPod s g p).slots = s.slots ∧ (setPod s g p).pws = s.pws ∧ (setPod s g p).lane = s.lane ∧
    (setPod s g p).fcsBad = s.fcsBad ∧ (setPod s g p).ringStop = s.ringStop ∧ (setPod s g p).msi = s.msi ∧
    (setPod s g p).edgePend = s.edgePend ∧ (setPod s g p).dieDown = s.dieDown ∧ (setPod s g p).dieReq = s.dieReq ∧
    (setPod s g p).modReq = s.modReq ∧ (setPod s g p).silent = s.silent ∧ (setPod s g p).crash = s.crash ∧
    (setPod s g p).crashSeq = s.crashSeq ∧ (setPod s g p).podUes = s.podUes ∧ (setPod s g p).sec = s.sec ∧
    (setPod s g p).sup = s.sup ∧ (setPod s g p).locked = s.locked ∧ (setPod s g p).modLock = s.modLock ∧
    (setPod s g p).violations = s.violations ∧ (∀ a', rd (setPod s g p) a' = rd s a') ∧
    (∀ n', gen (setPod s g p) n' = gen s n') ∧ (∀ p', part (setPod s g p) p' = part s p') ∧
    (∀ n', stk (setPod s g p) n' = stk s n') ∧ (∀ x' y', chan (setPod s g p) x' y' = chan s x' y') ∧
    (∀ x' y', copyChan (setPod s g p) x' y' = copyChan s x' y') ∧
    (∀ i', rangeAt (setPod s g p) i' = rangeAt s i') ∧ (∀ i', ctr (setPod s g p) i' = ctr s i') ∧
    (∀ k', port (setPod s g p) k' = port s k') ∧ (∀ x' y', upe (setPod s g p) x' y' = upe s x' y') ∧
    (∀ d', dieUp (setPod s g p) d' = dieUp s d') := by
  refine ⟨?_, ?_, ?_, ?_, ?_, ?_, ?_, ?_, ?_, ?_, ?_, ?_, ?_, ?_, ?_, ?_, ?_, ?_, ?_, ?_, ?_, ?_, ?_, ?_, ?_, ?_, ?_, ?_, ?_, ?_, ?_, ?_, ?_, ?_, ?_, ?_, ?_, ?_, ?_, ?_, ?_, ?_, ?_, ?_, ?_, ?_, ?_, ?_, ?_, ?_, ?_, ?_, ?_, ?_, ?_, ?_, ?_, ?_, ?_, ?_, ?_, ?_, ?_, ?_, ?_⟩ <;> first | rfl | (intros; rfl)

@[simp] theorem modPod_frame (s : State) (g : Nat) (f : Pod → Pod) :
    (modPod s g f).mapped = s.mapped ∧ (modPod s g f).slabs = s.slabs ∧ (modPod s g f).rootCfg = s.rootCfg ∧
    (modPod s g f).pending = s.pending ∧ (modPod s g f).out = s.out ∧ (modPod s g f).freeCtr = s.freeCtr ∧
    (modPod s g f).now = s.now ∧ (modPod s g f).regs = s.regs ∧ (modPod s g f).gens = s.gens ∧
    (modPod s g f).parts = s.parts ∧ (modPod s g f).mem = s.mem ∧ (modPod s g f).memErr = s.memErr ∧
    (modPod s g f).stks = s.stks ∧ (modPod s g f).chans = s.chans ∧ (modPod s g f).ranges = s.ranges ∧
    (modPod s g f).copies = s.copies ∧ (modPod s g f).rangeCmds = s.rangeCmds ∧
    (modPod s g f).descCmds = s.descCmds ∧ (modPod s g f).cntOps = s.cntOps ∧ (modPod s g f).bbx = s.bbx ∧
    (modPod s g f).ctrs = s.ctrs ∧ (modPod s g f).dests = s.dests ∧ (modPod s g f).cons = s.cons ∧
    (modPod s g f).changes0 = s.changes0 ∧ (modPod s g f).changes1 = s.changes1 ∧ (modPod s g f).ports = s.ports ∧
    (modPod s g f).upes = s.upes ∧ (modPod s g f).upeQ = s.upeQ ∧ (modPod s g f).shadow = s.shadow ∧
    (modPod s g f).spans = s.spans ∧ (modPod s g f).nextSpan = s.nextSpan ∧ (modPod s g f).ticks = s.ticks ∧
    (modPod s g f).colds = s.colds ∧ (modPod s g f).journal = s.journal ∧ (modPod s g f).pins = s.pins ∧
    (modPod s g f).slots = s.slots ∧ (modPod s g f).pws = s.pws ∧ (modPod s g f).lane = s.lane ∧
    (modPod s g f).fcsBad = s.fcsBad ∧ (modPod s g f).ringStop = s.ringStop ∧ (modPod s g f).msi = s.msi ∧
    (modPod s g f).edgePend = s.edgePend ∧ (modPod s g f).dieDown = s.dieDown ∧ (modPod s g f).dieReq = s.dieReq ∧
    (modPod s g f).modReq = s.modReq ∧ (modPod s g f).silent = s.silent ∧ (modPod s g f).crash = s.crash ∧
    (modPod s g f).crashSeq = s.crashSeq ∧ (modPod s g f).podUes = s.podUes ∧ (modPod s g f).sec = s.sec ∧
    (modPod s g f).sup = s.sup ∧ (modPod s g f).locked = s.locked ∧ (modPod s g f).modLock = s.modLock ∧
    (modPod s g f).violations = s.violations ∧ (∀ a', rd (modPod s g f) a' = rd s a') ∧
    (∀ n', gen (modPod s g f) n' = gen s n') ∧ (∀ p', part (modPod s g f) p' = part s p') ∧
    (∀ n', stk (modPod s g f) n' = stk s n') ∧ (∀ x' y', chan (modPod s g f) x' y' = chan s x' y') ∧
    (∀ x' y', copyChan (modPod s g f) x' y' = copyChan s x' y') ∧
    (∀ i', rangeAt (modPod s g f) i' = rangeAt s i') ∧ (∀ i', ctr (modPod s g f) i' = ctr s i') ∧
    (∀ k', port (modPod s g f) k' = port s k') ∧ (∀ x' y', upe (modPod s g f) x' y' = upe s x' y') ∧
    (∀ d', dieUp (modPod s g f) d' = dieUp s d') := by
  refine ⟨?_, ?_, ?_, ?_, ?_, ?_, ?_, ?_, ?_, ?_, ?_, ?_, ?_, ?_, ?_, ?_, ?_, ?_, ?_, ?_, ?_, ?_, ?_, ?_, ?_, ?_, ?_, ?_, ?_, ?_, ?_, ?_, ?_, ?_, ?_, ?_, ?_, ?_, ?_, ?_, ?_, ?_, ?_, ?_, ?_, ?_, ?_, ?_, ?_, ?_, ?_, ?_, ?_, ?_, ?_, ?_, ?_, ?_, ?_, ?_, ?_, ?_, ?_, ?_, ?_⟩ <;> first | rfl | (intros; rfl)

@[simp] theorem setGen_frame (s : State) (n : Nat) (x : Gen) :
    (setGen s n x).mapped = s.mapped ∧ (setGen s n x).slabs = s.slabs ∧ (setGen s n x).rootCfg = s.rootCfg ∧
    (setGen s n x).pending = s.pending ∧ (setGen s n x).out = s.out ∧ (setGen s n x).freeCtr = s.freeCtr ∧
    (setGen s n x).now = s.now ∧ (setGen s n x).regs = s.regs ∧ (setGen s n x).pods = s.pods ∧
    (setGen s n x).parts = s.parts ∧ (setGen s n x).mem = s.mem ∧ (setGen s n x).memErr = s.memErr ∧
    (setGen s n x).stks = s.stks ∧ (setGen s n x).chans = s.chans ∧ (setGen s n x).ranges = s.ranges ∧
    (setGen s n x).copies = s.copies ∧ (setGen s n x).rangeCmds = s.rangeCmds ∧
    (setGen s n x).descCmds = s.descCmds ∧ (setGen s n x).cntOps = s.cntOps ∧ (setGen s n x).bbx = s.bbx ∧
    (setGen s n x).ctrs = s.ctrs ∧ (setGen s n x).dests = s.dests ∧ (setGen s n x).cons = s.cons ∧
    (setGen s n x).changes0 = s.changes0 ∧ (setGen s n x).changes1 = s.changes1 ∧ (setGen s n x).ports = s.ports ∧
    (setGen s n x).upes = s.upes ∧ (setGen s n x).upeQ = s.upeQ ∧ (setGen s n x).shadow = s.shadow ∧
    (setGen s n x).spans = s.spans ∧ (setGen s n x).nextSpan = s.nextSpan ∧ (setGen s n x).ticks = s.ticks ∧
    (setGen s n x).colds = s.colds ∧ (setGen s n x).journal = s.journal ∧ (setGen s n x).pins = s.pins ∧
    (setGen s n x).slots = s.slots ∧ (setGen s n x).pws = s.pws ∧ (setGen s n x).lane = s.lane ∧
    (setGen s n x).fcsBad = s.fcsBad ∧ (setGen s n x).ringStop = s.ringStop ∧ (setGen s n x).msi = s.msi ∧
    (setGen s n x).edgePend = s.edgePend ∧ (setGen s n x).dieDown = s.dieDown ∧ (setGen s n x).dieReq = s.dieReq ∧
    (setGen s n x).modReq = s.modReq ∧ (setGen s n x).silent = s.silent ∧ (setGen s n x).crash = s.crash ∧
    (setGen s n x).crashSeq = s.crashSeq ∧ (setGen s n x).podUes = s.podUes ∧ (setGen s n x).sec = s.sec ∧
    (setGen s n x).sup = s.sup ∧ (setGen s n x).locked = s.locked ∧ (setGen s n x).modLock = s.modLock ∧
    (setGen s n x).violations = s.violations ∧ (∀ a', rd (setGen s n x) a' = rd s a') ∧
    (∀ g', pod (setGen s n x) g' = pod s g') ∧ (∀ p', part (setGen s n x) p' = part s p') ∧
    (∀ n', stk (setGen s n x) n' = stk s n') ∧ (∀ x' y', chan (setGen s n x) x' y' = chan s x' y') ∧
    (∀ x' y', copyChan (setGen s n x) x' y' = copyChan s x' y') ∧
    (∀ i', rangeAt (setGen s n x) i' = rangeAt s i') ∧ (∀ i', ctr (setGen s n x) i' = ctr s i') ∧
    (∀ k', port (setGen s n x) k' = port s k') ∧ (∀ x' y', upe (setGen s n x) x' y' = upe s x' y') ∧
    (∀ d', dieUp (setGen s n x) d' = dieUp s d') := by
  refine ⟨?_, ?_, ?_, ?_, ?_, ?_, ?_, ?_, ?_, ?_, ?_, ?_, ?_, ?_, ?_, ?_, ?_, ?_, ?_, ?_, ?_, ?_, ?_, ?_, ?_, ?_, ?_, ?_, ?_, ?_, ?_, ?_, ?_, ?_, ?_, ?_, ?_, ?_, ?_, ?_, ?_, ?_, ?_, ?_, ?_, ?_, ?_, ?_, ?_, ?_, ?_, ?_, ?_, ?_, ?_, ?_, ?_, ?_, ?_, ?_, ?_, ?_, ?_, ?_, ?_⟩ <;> first | rfl | (intros; rfl)

@[simp] theorem modGen_frame (s : State) (n : Nat) (f : Gen → Gen) :
    (modGen s n f).mapped = s.mapped ∧ (modGen s n f).slabs = s.slabs ∧ (modGen s n f).rootCfg = s.rootCfg ∧
    (modGen s n f).pending = s.pending ∧ (modGen s n f).out = s.out ∧ (modGen s n f).freeCtr = s.freeCtr ∧
    (modGen s n f).now = s.now ∧ (modGen s n f).regs = s.regs ∧ (modGen s n f).pods = s.pods ∧
    (modGen s n f).parts = s.parts ∧ (modGen s n f).mem = s.mem ∧ (modGen s n f).memErr = s.memErr ∧
    (modGen s n f).stks = s.stks ∧ (modGen s n f).chans = s.chans ∧ (modGen s n f).ranges = s.ranges ∧
    (modGen s n f).copies = s.copies ∧ (modGen s n f).rangeCmds = s.rangeCmds ∧
    (modGen s n f).descCmds = s.descCmds ∧ (modGen s n f).cntOps = s.cntOps ∧ (modGen s n f).bbx = s.bbx ∧
    (modGen s n f).ctrs = s.ctrs ∧ (modGen s n f).dests = s.dests ∧ (modGen s n f).cons = s.cons ∧
    (modGen s n f).changes0 = s.changes0 ∧ (modGen s n f).changes1 = s.changes1 ∧ (modGen s n f).ports = s.ports ∧
    (modGen s n f).upes = s.upes ∧ (modGen s n f).upeQ = s.upeQ ∧ (modGen s n f).shadow = s.shadow ∧
    (modGen s n f).spans = s.spans ∧ (modGen s n f).nextSpan = s.nextSpan ∧ (modGen s n f).ticks = s.ticks ∧
    (modGen s n f).colds = s.colds ∧ (modGen s n f).journal = s.journal ∧ (modGen s n f).pins = s.pins ∧
    (modGen s n f).slots = s.slots ∧ (modGen s n f).pws = s.pws ∧ (modGen s n f).lane = s.lane ∧
    (modGen s n f).fcsBad = s.fcsBad ∧ (modGen s n f).ringStop = s.ringStop ∧ (modGen s n f).msi = s.msi ∧
    (modGen s n f).edgePend = s.edgePend ∧ (modGen s n f).dieDown = s.dieDown ∧ (modGen s n f).dieReq = s.dieReq ∧
    (modGen s n f).modReq = s.modReq ∧ (modGen s n f).silent = s.silent ∧ (modGen s n f).crash = s.crash ∧
    (modGen s n f).crashSeq = s.crashSeq ∧ (modGen s n f).podUes = s.podUes ∧ (modGen s n f).sec = s.sec ∧
    (modGen s n f).sup = s.sup ∧ (modGen s n f).locked = s.locked ∧ (modGen s n f).modLock = s.modLock ∧
    (modGen s n f).violations = s.violations ∧ (∀ a', rd (modGen s n f) a' = rd s a') ∧
    (∀ g', pod (modGen s n f) g' = pod s g') ∧ (∀ p', part (modGen s n f) p' = part s p') ∧
    (∀ n', stk (modGen s n f) n' = stk s n') ∧ (∀ x' y', chan (modGen s n f) x' y' = chan s x' y') ∧
    (∀ x' y', copyChan (modGen s n f) x' y' = copyChan s x' y') ∧
    (∀ i', rangeAt (modGen s n f) i' = rangeAt s i') ∧ (∀ i', ctr (modGen s n f) i' = ctr s i') ∧
    (∀ k', port (modGen s n f) k' = port s k') ∧ (∀ x' y', upe (modGen s n f) x' y' = upe s x' y') ∧
    (∀ d', dieUp (modGen s n f) d' = dieUp s d') := by
  refine ⟨?_, ?_, ?_, ?_, ?_, ?_, ?_, ?_, ?_, ?_, ?_, ?_, ?_, ?_, ?_, ?_, ?_, ?_, ?_, ?_, ?_, ?_, ?_, ?_, ?_, ?_, ?_, ?_, ?_, ?_, ?_, ?_, ?_, ?_, ?_, ?_, ?_, ?_, ?_, ?_, ?_, ?_, ?_, ?_, ?_, ?_, ?_, ?_, ?_, ?_, ?_, ?_, ?_, ?_, ?_, ?_, ?_, ?_, ?_, ?_, ?_, ?_, ?_, ?_, ?_⟩ <;> first | rfl | (intros; rfl)

@[simp] theorem setPart_frame (s : State) (p : Nat) (x : Part) :
    (setPart s p x).mapped = s.mapped ∧ (setPart s p x).slabs = s.slabs ∧ (setPart s p x).rootCfg = s.rootCfg ∧
    (setPart s p x).pending = s.pending ∧ (setPart s p x).out = s.out ∧ (setPart s p x).freeCtr = s.freeCtr ∧
    (setPart s p x).now = s.now ∧ (setPart s p x).regs = s.regs ∧ (setPart s p x).pods = s.pods ∧
    (setPart s p x).gens = s.gens ∧ (setPart s p x).mem = s.mem ∧ (setPart s p x).memErr = s.memErr ∧
    (setPart s p x).stks = s.stks ∧ (setPart s p x).chans = s.chans ∧ (setPart s p x).ranges = s.ranges ∧
    (setPart s p x).copies = s.copies ∧ (setPart s p x).rangeCmds = s.rangeCmds ∧
    (setPart s p x).descCmds = s.descCmds ∧ (setPart s p x).cntOps = s.cntOps ∧ (setPart s p x).bbx = s.bbx ∧
    (setPart s p x).ctrs = s.ctrs ∧ (setPart s p x).dests = s.dests ∧ (setPart s p x).cons = s.cons ∧
    (setPart s p x).changes0 = s.changes0 ∧ (setPart s p x).changes1 = s.changes1 ∧
    (setPart s p x).ports = s.ports ∧ (setPart s p x).upes = s.upes ∧ (setPart s p x).upeQ = s.upeQ ∧
    (setPart s p x).shadow = s.shadow ∧ (setPart s p x).spans = s.spans ∧ (setPart s p x).nextSpan = s.nextSpan ∧
    (setPart s p x).ticks = s.ticks ∧ (setPart s p x).colds = s.colds ∧ (setPart s p x).journal = s.journal ∧
    (setPart s p x).pins = s.pins ∧ (setPart s p x).slots = s.slots ∧ (setPart s p x).pws = s.pws ∧
    (setPart s p x).lane = s.lane ∧ (setPart s p x).fcsBad = s.fcsBad ∧ (setPart s p x).ringStop = s.ringStop ∧
    (setPart s p x).msi = s.msi ∧ (setPart s p x).edgePend = s.edgePend ∧ (setPart s p x).dieDown = s.dieDown ∧
    (setPart s p x).dieReq = s.dieReq ∧ (setPart s p x).modReq = s.modReq ∧ (setPart s p x).silent = s.silent ∧
    (setPart s p x).crash = s.crash ∧ (setPart s p x).crashSeq = s.crashSeq ∧ (setPart s p x).podUes = s.podUes ∧
    (setPart s p x).sec = s.sec ∧ (setPart s p x).sup = s.sup ∧ (setPart s p x).locked = s.locked ∧
    (setPart s p x).modLock = s.modLock ∧ (setPart s p x).violations = s.violations ∧
    (∀ a', rd (setPart s p x) a' = rd s a') ∧ (∀ g', pod (setPart s p x) g' = pod s g') ∧
    (∀ n', gen (setPart s p x) n' = gen s n') ∧ (∀ n', stk (setPart s p x) n' = stk s n') ∧
    (∀ x' y', chan (setPart s p x) x' y' = chan s x' y') ∧
    (∀ x' y', copyChan (setPart s p x) x' y' = copyChan s x' y') ∧
    (∀ i', rangeAt (setPart s p x) i' = rangeAt s i') ∧ (∀ i', ctr (setPart s p x) i' = ctr s i') ∧
    (∀ k', port (setPart s p x) k' = port s k') ∧ (∀ x' y', upe (setPart s p x) x' y' = upe s x' y') ∧
    (∀ d', dieUp (setPart s p x) d' = dieUp s d') := by
  refine ⟨?_, ?_, ?_, ?_, ?_, ?_, ?_, ?_, ?_, ?_, ?_, ?_, ?_, ?_, ?_, ?_, ?_, ?_, ?_, ?_, ?_, ?_, ?_, ?_, ?_, ?_, ?_, ?_, ?_, ?_, ?_, ?_, ?_, ?_, ?_, ?_, ?_, ?_, ?_, ?_, ?_, ?_, ?_, ?_, ?_, ?_, ?_, ?_, ?_, ?_, ?_, ?_, ?_, ?_, ?_, ?_, ?_, ?_, ?_, ?_, ?_, ?_, ?_, ?_, ?_⟩ <;> first | rfl | (intros; rfl)

@[simp] theorem modPart_frame (s : State) (p : Nat) (f : Part → Part) :
    (modPart s p f).mapped = s.mapped ∧ (modPart s p f).slabs = s.slabs ∧ (modPart s p f).rootCfg = s.rootCfg ∧
    (modPart s p f).pending = s.pending ∧ (modPart s p f).out = s.out ∧ (modPart s p f).freeCtr = s.freeCtr ∧
    (modPart s p f).now = s.now ∧ (modPart s p f).regs = s.regs ∧ (modPart s p f).pods = s.pods ∧
    (modPart s p f).gens = s.gens ∧ (modPart s p f).mem = s.mem ∧ (modPart s p f).memErr = s.memErr ∧
    (modPart s p f).stks = s.stks ∧ (modPart s p f).chans = s.chans ∧ (modPart s p f).ranges = s.ranges ∧
    (modPart s p f).copies = s.copies ∧ (modPart s p f).rangeCmds = s.rangeCmds ∧
    (modPart s p f).descCmds = s.descCmds ∧ (modPart s p f).cntOps = s.cntOps ∧ (modPart s p f).bbx = s.bbx ∧
    (modPart s p f).ctrs = s.ctrs ∧ (modPart s p f).dests = s.dests ∧ (modPart s p f).cons = s.cons ∧
    (modPart s p f).changes0 = s.changes0 ∧ (modPart s p f).changes1 = s.changes1 ∧
    (modPart s p f).ports = s.ports ∧ (modPart s p f).upes = s.upes ∧ (modPart s p f).upeQ = s.upeQ ∧
    (modPart s p f).shadow = s.shadow ∧ (modPart s p f).spans = s.spans ∧ (modPart s p f).nextSpan = s.nextSpan ∧
    (modPart s p f).ticks = s.ticks ∧ (modPart s p f).colds = s.colds ∧ (modPart s p f).journal = s.journal ∧
    (modPart s p f).pins = s.pins ∧ (modPart s p f).slots = s.slots ∧ (modPart s p f).pws = s.pws ∧
    (modPart s p f).lane = s.lane ∧ (modPart s p f).fcsBad = s.fcsBad ∧ (modPart s p f).ringStop = s.ringStop ∧
    (modPart s p f).msi = s.msi ∧ (modPart s p f).edgePend = s.edgePend ∧ (modPart s p f).dieDown = s.dieDown ∧
    (modPart s p f).dieReq = s.dieReq ∧ (modPart s p f).modReq = s.modReq ∧ (modPart s p f).silent = s.silent ∧
    (modPart s p f).crash = s.crash ∧ (modPart s p f).crashSeq = s.crashSeq ∧ (modPart s p f).podUes = s.podUes ∧
    (modPart s p f).sec = s.sec ∧ (modPart s p f).sup = s.sup ∧ (modPart s p f).locked = s.locked ∧
    (modPart s p f).modLock = s.modLock ∧ (modPart s p f).violations = s.violations ∧
    (∀ a', rd (modPart s p f) a' = rd s a') ∧ (∀ g', pod (modPart s p f) g' = pod s g') ∧
    (∀ n', gen (modPart s p f) n' = gen s n') ∧ (∀ n', stk (modPart s p f) n' = stk s n') ∧
    (∀ x' y', chan (modPart s p f) x' y' = chan s x' y') ∧
    (∀ x' y', copyChan (modPart s p f) x' y' = copyChan s x' y') ∧
    (∀ i', rangeAt (modPart s p f) i' = rangeAt s i') ∧ (∀ i', ctr (modPart s p f) i' = ctr s i') ∧
    (∀ k', port (modPart s p f) k' = port s k') ∧ (∀ x' y', upe (modPart s p f) x' y' = upe s x' y') ∧
    (∀ d', dieUp (modPart s p f) d' = dieUp s d') := by
  refine ⟨?_, ?_, ?_, ?_, ?_, ?_, ?_, ?_, ?_, ?_, ?_, ?_, ?_, ?_, ?_, ?_, ?_, ?_, ?_, ?_, ?_, ?_, ?_, ?_, ?_, ?_, ?_, ?_, ?_, ?_, ?_, ?_, ?_, ?_, ?_, ?_, ?_, ?_, ?_, ?_, ?_, ?_, ?_, ?_, ?_, ?_, ?_, ?_, ?_, ?_, ?_, ?_, ?_, ?_, ?_, ?_, ?_, ?_, ?_, ?_, ?_, ?_, ?_, ?_, ?_⟩ <;> first | rfl | (intros; rfl)

@[simp] theorem setStk_frame (s : State) (st : Nat) (x : Stack) :
    (setStk s st x).mapped = s.mapped ∧ (setStk s st x).slabs = s.slabs ∧ (setStk s st x).rootCfg = s.rootCfg ∧
    (setStk s st x).pending = s.pending ∧ (setStk s st x).out = s.out ∧ (setStk s st x).freeCtr = s.freeCtr ∧
    (setStk s st x).now = s.now ∧ (setStk s st x).regs = s.regs ∧ (setStk s st x).pods = s.pods ∧
    (setStk s st x).gens = s.gens ∧ (setStk s st x).parts = s.parts ∧ (setStk s st x).mem = s.mem ∧
    (setStk s st x).memErr = s.memErr ∧ (setStk s st x).chans = s.chans ∧ (setStk s st x).ranges = s.ranges ∧
    (setStk s st x).copies = s.copies ∧ (setStk s st x).rangeCmds = s.rangeCmds ∧
    (setStk s st x).descCmds = s.descCmds ∧ (setStk s st x).cntOps = s.cntOps ∧ (setStk s st x).bbx = s.bbx ∧
    (setStk s st x).ctrs = s.ctrs ∧ (setStk s st x).dests = s.dests ∧ (setStk s st x).cons = s.cons ∧
    (setStk s st x).changes0 = s.changes0 ∧ (setStk s st x).changes1 = s.changes1 ∧
    (setStk s st x).ports = s.ports ∧ (setStk s st x).upes = s.upes ∧ (setStk s st x).upeQ = s.upeQ ∧
    (setStk s st x).shadow = s.shadow ∧ (setStk s st x).spans = s.spans ∧ (setStk s st x).nextSpan = s.nextSpan ∧
    (setStk s st x).ticks = s.ticks ∧ (setStk s st x).colds = s.colds ∧ (setStk s st x).journal = s.journal ∧
    (setStk s st x).pins = s.pins ∧ (setStk s st x).slots = s.slots ∧ (setStk s st x).pws = s.pws ∧
    (setStk s st x).lane = s.lane ∧ (setStk s st x).fcsBad = s.fcsBad ∧ (setStk s st x).ringStop = s.ringStop ∧
    (setStk s st x).msi = s.msi ∧ (setStk s st x).edgePend = s.edgePend ∧ (setStk s st x).dieDown = s.dieDown ∧
    (setStk s st x).dieReq = s.dieReq ∧ (setStk s st x).modReq = s.modReq ∧ (setStk s st x).silent = s.silent ∧
    (setStk s st x).crash = s.crash ∧ (setStk s st x).crashSeq = s.crashSeq ∧ (setStk s st x).podUes = s.podUes ∧
    (setStk s st x).sec = s.sec ∧ (setStk s st x).sup = s.sup ∧ (setStk s st x).locked = s.locked ∧
    (setStk s st x).modLock = s.modLock ∧ (setStk s st x).violations = s.violations ∧
    (∀ a', rd (setStk s st x) a' = rd s a') ∧ (∀ g', pod (setStk s st x) g' = pod s g') ∧
    (∀ n', gen (setStk s st x) n' = gen s n') ∧ (∀ p', part (setStk s st x) p' = part s p') ∧
    (∀ x' y', chan (setStk s st x) x' y' = chan s x' y') ∧
    (∀ x' y', copyChan (setStk s st x) x' y' = copyChan s x' y') ∧
    (∀ i', rangeAt (setStk s st x) i' = rangeAt s i') ∧ (∀ i', ctr (setStk s st x) i' = ctr s i') ∧
    (∀ k', port (setStk s st x) k' = port s k') ∧ (∀ x' y', upe (setStk s st x) x' y' = upe s x' y') ∧
    (∀ d', dieUp (setStk s st x) d' = dieUp s d') := by
  refine ⟨?_, ?_, ?_, ?_, ?_, ?_, ?_, ?_, ?_, ?_, ?_, ?_, ?_, ?_, ?_, ?_, ?_, ?_, ?_, ?_, ?_, ?_, ?_, ?_, ?_, ?_, ?_, ?_, ?_, ?_, ?_, ?_, ?_, ?_, ?_, ?_, ?_, ?_, ?_, ?_, ?_, ?_, ?_, ?_, ?_, ?_, ?_, ?_, ?_, ?_, ?_, ?_, ?_, ?_, ?_, ?_, ?_, ?_, ?_, ?_, ?_, ?_, ?_, ?_, ?_⟩ <;> first | rfl | (intros; rfl)

@[simp] theorem modStk_frame (s : State) (st : Nat) (f : Stack → Stack) :
    (modStk s st f).mapped = s.mapped ∧ (modStk s st f).slabs = s.slabs ∧ (modStk s st f).rootCfg = s.rootCfg ∧
    (modStk s st f).pending = s.pending ∧ (modStk s st f).out = s.out ∧ (modStk s st f).freeCtr = s.freeCtr ∧
    (modStk s st f).now = s.now ∧ (modStk s st f).regs = s.regs ∧ (modStk s st f).pods = s.pods ∧
    (modStk s st f).gens = s.gens ∧ (modStk s st f).parts = s.parts ∧ (modStk s st f).mem = s.mem ∧
    (modStk s st f).memErr = s.memErr ∧ (modStk s st f).chans = s.chans ∧ (modStk s st f).ranges = s.ranges ∧
    (modStk s st f).copies = s.copies ∧ (modStk s st f).rangeCmds = s.rangeCmds ∧
    (modStk s st f).descCmds = s.descCmds ∧ (modStk s st f).cntOps = s.cntOps ∧ (modStk s st f).bbx = s.bbx ∧
    (modStk s st f).ctrs = s.ctrs ∧ (modStk s st f).dests = s.dests ∧ (modStk s st f).cons = s.cons ∧
    (modStk s st f).changes0 = s.changes0 ∧ (modStk s st f).changes1 = s.changes1 ∧
    (modStk s st f).ports = s.ports ∧ (modStk s st f).upes = s.upes ∧ (modStk s st f).upeQ = s.upeQ ∧
    (modStk s st f).shadow = s.shadow ∧ (modStk s st f).spans = s.spans ∧ (modStk s st f).nextSpan = s.nextSpan ∧
    (modStk s st f).ticks = s.ticks ∧ (modStk s st f).colds = s.colds ∧ (modStk s st f).journal = s.journal ∧
    (modStk s st f).pins = s.pins ∧ (modStk s st f).slots = s.slots ∧ (modStk s st f).pws = s.pws ∧
    (modStk s st f).lane = s.lane ∧ (modStk s st f).fcsBad = s.fcsBad ∧ (modStk s st f).ringStop = s.ringStop ∧
    (modStk s st f).msi = s.msi ∧ (modStk s st f).edgePend = s.edgePend ∧ (modStk s st f).dieDown = s.dieDown ∧
    (modStk s st f).dieReq = s.dieReq ∧ (modStk s st f).modReq = s.modReq ∧ (modStk s st f).silent = s.silent ∧
    (modStk s st f).crash = s.crash ∧ (modStk s st f).crashSeq = s.crashSeq ∧ (modStk s st f).podUes = s.podUes ∧
    (modStk s st f).sec = s.sec ∧ (modStk s st f).sup = s.sup ∧ (modStk s st f).locked = s.locked ∧
    (modStk s st f).modLock = s.modLock ∧ (modStk s st f).violations = s.violations ∧
    (∀ a', rd (modStk s st f) a' = rd s a') ∧ (∀ g', pod (modStk s st f) g' = pod s g') ∧
    (∀ n', gen (modStk s st f) n' = gen s n') ∧ (∀ p', part (modStk s st f) p' = part s p') ∧
    (∀ x' y', chan (modStk s st f) x' y' = chan s x' y') ∧
    (∀ x' y', copyChan (modStk s st f) x' y' = copyChan s x' y') ∧
    (∀ i', rangeAt (modStk s st f) i' = rangeAt s i') ∧ (∀ i', ctr (modStk s st f) i' = ctr s i') ∧
    (∀ k', port (modStk s st f) k' = port s k') ∧ (∀ x' y', upe (modStk s st f) x' y' = upe s x' y') ∧
    (∀ d', dieUp (modStk s st f) d' = dieUp s d') := by
  refine ⟨?_, ?_, ?_, ?_, ?_, ?_, ?_, ?_, ?_, ?_, ?_, ?_, ?_, ?_, ?_, ?_, ?_, ?_, ?_, ?_, ?_, ?_, ?_, ?_, ?_, ?_, ?_, ?_, ?_, ?_, ?_, ?_, ?_, ?_, ?_, ?_, ?_, ?_, ?_, ?_, ?_, ?_, ?_, ?_, ?_, ?_, ?_, ?_, ?_, ?_, ?_, ?_, ?_, ?_, ?_, ?_, ?_, ?_, ?_, ?_, ?_, ?_, ?_, ?_, ?_⟩ <;> first | rfl | (intros; rfl)

@[simp] theorem setChan_frame (s : State) (st c : Nat) (x : Chan) :
    (setChan s st c x).mapped = s.mapped ∧ (setChan s st c x).slabs = s.slabs ∧
    (setChan s st c x).rootCfg = s.rootCfg ∧ (setChan s st c x).pending = s.pending ∧
    (setChan s st c x).out = s.out ∧ (setChan s st c x).freeCtr = s.freeCtr ∧ (setChan s st c x).now = s.now ∧
    (setChan s st c x).regs = s.regs ∧ (setChan s st c x).pods = s.pods ∧ (setChan s st c x).gens = s.gens ∧
    (setChan s st c x).parts = s.parts ∧ (setChan s st c x).mem = s.mem ∧ (setChan s st c x).memErr = s.memErr ∧
    (setChan s st c x).stks = s.stks ∧ (setChan s st c x).ranges = s.ranges ∧
    (setChan s st c x).copies = s.copies ∧ (setChan s st c x).rangeCmds = s.rangeCmds ∧
    (setChan s st c x).descCmds = s.descCmds ∧ (setChan s st c x).cntOps = s.cntOps ∧
    (setChan s st c x).bbx = s.bbx ∧ (setChan s st c x).ctrs = s.ctrs ∧ (setChan s st c x).dests = s.dests ∧
    (setChan s st c x).cons = s.cons ∧ (setChan s st c x).changes0 = s.changes0 ∧
    (setChan s st c x).changes1 = s.changes1 ∧ (setChan s st c x).ports = s.ports ∧
    (setChan s st c x).upes = s.upes ∧ (setChan s st c x).upeQ = s.upeQ ∧ (setChan s st c x).shadow = s.shadow ∧
    (setChan s st c x).spans = s.spans ∧ (setChan s st c x).nextSpan = s.nextSpan ∧
    (setChan s st c x).ticks = s.ticks ∧ (setChan s st c x).colds = s.colds ∧
    (setChan s st c x).journal = s.journal ∧ (setChan s st c x).pins = s.pins ∧
    (setChan s st c x).slots = s.slots ∧ (setChan s st c x).pws = s.pws ∧ (setChan s st c x).lane = s.lane ∧
    (setChan s st c x).fcsBad = s.fcsBad ∧ (setChan s st c x).ringStop = s.ringStop ∧
    (setChan s st c x).msi = s.msi ∧ (setChan s st c x).edgePend = s.edgePend ∧
    (setChan s st c x).dieDown = s.dieDown ∧ (setChan s st c x).dieReq = s.dieReq ∧
    (setChan s st c x).modReq = s.modReq ∧ (setChan s st c x).silent = s.silent ∧
    (setChan s st c x).crash = s.crash ∧ (setChan s st c x).crashSeq = s.crashSeq ∧
    (setChan s st c x).podUes = s.podUes ∧ (setChan s st c x).sec = s.sec ∧ (setChan s st c x).sup = s.sup ∧
    (setChan s st c x).locked = s.locked ∧ (setChan s st c x).modLock = s.modLock ∧
    (setChan s st c x).violations = s.violations ∧ (∀ a', rd (setChan s st c x) a' = rd s a') ∧
    (∀ g', pod (setChan s st c x) g' = pod s g') ∧ (∀ n', gen (setChan s st c x) n' = gen s n') ∧
    (∀ p', part (setChan s st c x) p' = part s p') ∧ (∀ n', stk (setChan s st c x) n' = stk s n') ∧
    (∀ x' y', copyChan (setChan s st c x) x' y' = copyChan s x' y') ∧
    (∀ i', rangeAt (setChan s st c x) i' = rangeAt s i') ∧ (∀ i', ctr (setChan s st c x) i' = ctr s i') ∧
    (∀ k', port (setChan s st c x) k' = port s k') ∧ (∀ x' y', upe (setChan s st c x) x' y' = upe s x' y') ∧
    (∀ d', dieUp (setChan s st c x) d' = dieUp s d') := by
  refine ⟨?_, ?_, ?_, ?_, ?_, ?_, ?_, ?_, ?_, ?_, ?_, ?_, ?_, ?_, ?_, ?_, ?_, ?_, ?_, ?_, ?_, ?_, ?_, ?_, ?_, ?_, ?_, ?_, ?_, ?_, ?_, ?_, ?_, ?_, ?_, ?_, ?_, ?_, ?_, ?_, ?_, ?_, ?_, ?_, ?_, ?_, ?_, ?_, ?_, ?_, ?_, ?_, ?_, ?_, ?_, ?_, ?_, ?_, ?_, ?_, ?_, ?_, ?_, ?_, ?_⟩ <;> first | rfl | (intros; rfl)

@[simp] theorem modChan_frame (s : State) (st c : Nat) (f : Chan → Chan) :
    (modChan s st c f).mapped = s.mapped ∧ (modChan s st c f).slabs = s.slabs ∧
    (modChan s st c f).rootCfg = s.rootCfg ∧ (modChan s st c f).pending = s.pending ∧
    (modChan s st c f).out = s.out ∧ (modChan s st c f).freeCtr = s.freeCtr ∧ (modChan s st c f).now = s.now ∧
    (modChan s st c f).regs = s.regs ∧ (modChan s st c f).pods = s.pods ∧ (modChan s st c f).gens = s.gens ∧
    (modChan s st c f).parts = s.parts ∧ (modChan s st c f).mem = s.mem ∧ (modChan s st c f).memErr = s.memErr ∧
    (modChan s st c f).stks = s.stks ∧ (modChan s st c f).ranges = s.ranges ∧
    (modChan s st c f).copies = s.copies ∧ (modChan s st c f).rangeCmds = s.rangeCmds ∧
    (modChan s st c f).descCmds = s.descCmds ∧ (modChan s st c f).cntOps = s.cntOps ∧
    (modChan s st c f).bbx = s.bbx ∧ (modChan s st c f).ctrs = s.ctrs ∧ (modChan s st c f).dests = s.dests ∧
    (modChan s st c f).cons = s.cons ∧ (modChan s st c f).changes0 = s.changes0 ∧
    (modChan s st c f).changes1 = s.changes1 ∧ (modChan s st c f).ports = s.ports ∧
    (modChan s st c f).upes = s.upes ∧ (modChan s st c f).upeQ = s.upeQ ∧ (modChan s st c f).shadow = s.shadow ∧
    (modChan s st c f).spans = s.spans ∧ (modChan s st c f).nextSpan = s.nextSpan ∧
    (modChan s st c f).ticks = s.ticks ∧ (modChan s st c f).colds = s.colds ∧
    (modChan s st c f).journal = s.journal ∧ (modChan s st c f).pins = s.pins ∧
    (modChan s st c f).slots = s.slots ∧ (modChan s st c f).pws = s.pws ∧ (modChan s st c f).lane = s.lane ∧
    (modChan s st c f).fcsBad = s.fcsBad ∧ (modChan s st c f).ringStop = s.ringStop ∧
    (modChan s st c f).msi = s.msi ∧ (modChan s st c f).edgePend = s.edgePend ∧
    (modChan s st c f).dieDown = s.dieDown ∧ (modChan s st c f).dieReq = s.dieReq ∧
    (modChan s st c f).modReq = s.modReq ∧ (modChan s st c f).silent = s.silent ∧
    (modChan s st c f).crash = s.crash ∧ (modChan s st c f).crashSeq = s.crashSeq ∧
    (modChan s st c f).podUes = s.podUes ∧ (modChan s st c f).sec = s.sec ∧ (modChan s st c f).sup = s.sup ∧
    (modChan s st c f).locked = s.locked ∧ (modChan s st c f).modLock = s.modLock ∧
    (modChan s st c f).violations = s.violations ∧ (∀ a', rd (modChan s st c f) a' = rd s a') ∧
    (∀ g', pod (modChan s st c f) g' = pod s g') ∧ (∀ n', gen (modChan s st c f) n' = gen s n') ∧
    (∀ p', part (modChan s st c f) p' = part s p') ∧ (∀ n', stk (modChan s st c f) n' = stk s n') ∧
    (∀ x' y', copyChan (modChan s st c f) x' y' = copyChan s x' y') ∧
    (∀ i', rangeAt (modChan s st c f) i' = rangeAt s i') ∧ (∀ i', ctr (modChan s st c f) i' = ctr s i') ∧
    (∀ k', port (modChan s st c f) k' = port s k') ∧ (∀ x' y', upe (modChan s st c f) x' y' = upe s x' y') ∧
    (∀ d', dieUp (modChan s st c f) d' = dieUp s d') := by
  refine ⟨?_, ?_, ?_, ?_, ?_, ?_, ?_, ?_, ?_, ?_, ?_, ?_, ?_, ?_, ?_, ?_, ?_, ?_, ?_, ?_, ?_, ?_, ?_, ?_, ?_, ?_, ?_, ?_, ?_, ?_, ?_, ?_, ?_, ?_, ?_, ?_, ?_, ?_, ?_, ?_, ?_, ?_, ?_, ?_, ?_, ?_, ?_, ?_, ?_, ?_, ?_, ?_, ?_, ?_, ?_, ?_, ?_, ?_, ?_, ?_, ?_, ?_, ?_, ?_, ?_⟩ <;> first | rfl | (intros; rfl)

@[simp] theorem setCopy_frame (s : State) (d n : Nat) (x : CopyChan) :
    (setCopy s d n x).mapped = s.mapped ∧ (setCopy s d n x).slabs = s.slabs ∧
    (setCopy s d n x).rootCfg = s.rootCfg ∧ (setCopy s d n x).pending = s.pending ∧ (setCopy s d n x).out = s.out ∧
    (setCopy s d n x).freeCtr = s.freeCtr ∧ (setCopy s d n x).now = s.now ∧ (setCopy s d n x).regs = s.regs ∧
    (setCopy s d n x).pods = s.pods ∧ (setCopy s d n x).gens = s.gens ∧ (setCopy s d n x).parts = s.parts ∧
    (setCopy s d n x).mem = s.mem ∧ (setCopy s d n x).memErr = s.memErr ∧ (setCopy s d n x).stks = s.stks ∧
    (setCopy s d n x).chans = s.chans ∧ (setCopy s d n x).ranges = s.ranges ∧
    (setCopy s d n x).rangeCmds = s.rangeCmds ∧ (setCopy s d n x).descCmds = s.descCmds ∧
    (setCopy s d n x).cntOps = s.cntOps ∧ (setCopy s d n x).bbx = s.bbx ∧ (setCopy s d n x).ctrs = s.ctrs ∧
    (setCopy s d n x).dests = s.dests ∧ (setCopy s d n x).cons = s.cons ∧ (setCopy s d n x).changes0 = s.changes0 ∧
    (setCopy s d n x).changes1 = s.changes1 ∧ (setCopy s d n x).ports = s.ports ∧ (setCopy s d n x).upes = s.upes ∧
    (setCopy s d n x).upeQ = s.upeQ ∧ (setCopy s d n x).shadow = s.shadow ∧ (setCopy s d n x).spans = s.spans ∧
    (setCopy s d n x).nextSpan = s.nextSpan ∧ (setCopy s d n x).ticks = s.ticks ∧
    (setCopy s d n x).colds = s.colds ∧ (setCopy s d n x).journal = s.journal ∧ (setCopy s d n x).pins = s.pins ∧
    (setCopy s d n x).slots = s.slots ∧ (setCopy s d n x).pws = s.pws ∧ (setCopy s d n x).lane = s.lane ∧
    (setCopy s d n x).fcsBad = s.fcsBad ∧ (setCopy s d n x).ringStop = s.ringStop ∧ (setCopy s d n x).msi = s.msi ∧
    (setCopy s d n x).edgePend = s.edgePend ∧ (setCopy s d n x).dieDown = s.dieDown ∧
    (setCopy s d n x).dieReq = s.dieReq ∧ (setCopy s d n x).modReq = s.modReq ∧
    (setCopy s d n x).silent = s.silent ∧ (setCopy s d n x).crash = s.crash ∧
    (setCopy s d n x).crashSeq = s.crashSeq ∧ (setCopy s d n x).podUes = s.podUes ∧ (setCopy s d n x).sec = s.sec ∧
    (setCopy s d n x).sup = s.sup ∧ (setCopy s d n x).locked = s.locked ∧ (setCopy s d n x).modLock = s.modLock ∧
    (setCopy s d n x).violations = s.violations ∧ (∀ a', rd (setCopy s d n x) a' = rd s a') ∧
    (∀ g', pod (setCopy s d n x) g' = pod s g') ∧ (∀ n', gen (setCopy s d n x) n' = gen s n') ∧
    (∀ p', part (setCopy s d n x) p' = part s p') ∧ (∀ n', stk (setCopy s d n x) n' = stk s n') ∧
    (∀ x' y', chan (setCopy s d n x) x' y' = chan s x' y') ∧ (∀ i', rangeAt (setCopy s d n x) i' = rangeAt s i') ∧
    (∀ i', ctr (setCopy s d n x) i' = ctr s i') ∧ (∀ k', port (setCopy s d n x) k' = port s k') ∧
    (∀ x' y', upe (setCopy s d n x) x' y' = upe s x' y') ∧ (∀ d', dieUp (setCopy s d n x) d' = dieUp s d') := by
  refine ⟨?_, ?_, ?_, ?_, ?_, ?_, ?_, ?_, ?_, ?_, ?_, ?_, ?_, ?_, ?_, ?_, ?_, ?_, ?_, ?_, ?_, ?_, ?_, ?_, ?_, ?_, ?_, ?_, ?_, ?_, ?_, ?_, ?_, ?_, ?_, ?_, ?_, ?_, ?_, ?_, ?_, ?_, ?_, ?_, ?_, ?_, ?_, ?_, ?_, ?_, ?_, ?_, ?_, ?_, ?_, ?_, ?_, ?_, ?_, ?_, ?_, ?_, ?_, ?_, ?_⟩ <;> first | rfl | (intros; rfl)

@[simp] theorem modCopy_frame (s : State) (d n : Nat) (f : CopyChan → CopyChan) :
    (modCopy s d n f).mapped = s.mapped ∧ (modCopy s d n f).slabs = s.slabs ∧
    (modCopy s d n f).rootCfg = s.rootCfg ∧ (modCopy s d n f).pending = s.pending ∧ (modCopy s d n f).out = s.out ∧
    (modCopy s d n f).freeCtr = s.freeCtr ∧ (modCopy s d n f).now = s.now ∧ (modCopy s d n f).regs = s.regs ∧
    (modCopy s d n f).pods = s.pods ∧ (modCopy s d n f).gens = s.gens ∧ (modCopy s d n f).parts = s.parts ∧
    (modCopy s d n f).mem = s.mem ∧ (modCopy s d n f).memErr = s.memErr ∧ (modCopy s d n f).stks = s.stks ∧
    (modCopy s d n f).chans = s.chans ∧ (modCopy s d n f).ranges = s.ranges ∧
    (modCopy s d n f).rangeCmds = s.rangeCmds ∧ (modCopy s d n f).descCmds = s.descCmds ∧
    (modCopy s d n f).cntOps = s.cntOps ∧ (modCopy s d n f).bbx = s.bbx ∧ (modCopy s d n f).ctrs = s.ctrs ∧
    (modCopy s d n f).dests = s.dests ∧ (modCopy s d n f).cons = s.cons ∧ (modCopy s d n f).changes0 = s.changes0 ∧
    (modCopy s d n f).changes1 = s.changes1 ∧ (modCopy s d n f).ports = s.ports ∧ (modCopy s d n f).upes = s.upes ∧
    (modCopy s d n f).upeQ = s.upeQ ∧ (modCopy s d n f).shadow = s.shadow ∧ (modCopy s d n f).spans = s.spans ∧
    (modCopy s d n f).nextSpan = s.nextSpan ∧ (modCopy s d n f).ticks = s.ticks ∧
    (modCopy s d n f).colds = s.colds ∧ (modCopy s d n f).journal = s.journal ∧ (modCopy s d n f).pins = s.pins ∧
    (modCopy s d n f).slots = s.slots ∧ (modCopy s d n f).pws = s.pws ∧ (modCopy s d n f).lane = s.lane ∧
    (modCopy s d n f).fcsBad = s.fcsBad ∧ (modCopy s d n f).ringStop = s.ringStop ∧ (modCopy s d n f).msi = s.msi ∧
    (modCopy s d n f).edgePend = s.edgePend ∧ (modCopy s d n f).dieDown = s.dieDown ∧
    (modCopy s d n f).dieReq = s.dieReq ∧ (modCopy s d n f).modReq = s.modReq ∧
    (modCopy s d n f).silent = s.silent ∧ (modCopy s d n f).crash = s.crash ∧
    (modCopy s d n f).crashSeq = s.crashSeq ∧ (modCopy s d n f).podUes = s.podUes ∧ (modCopy s d n f).sec = s.sec ∧
    (modCopy s d n f).sup = s.sup ∧ (modCopy s d n f).locked = s.locked ∧ (modCopy s d n f).modLock = s.modLock ∧
    (modCopy s d n f).violations = s.violations ∧ (∀ a', rd (modCopy s d n f) a' = rd s a') ∧
    (∀ g', pod (modCopy s d n f) g' = pod s g') ∧ (∀ n', gen (modCopy s d n f) n' = gen s n') ∧
    (∀ p', part (modCopy s d n f) p' = part s p') ∧ (∀ n', stk (modCopy s d n f) n' = stk s n') ∧
    (∀ x' y', chan (modCopy s d n f) x' y' = chan s x' y') ∧ (∀ i', rangeAt (modCopy s d n f) i' = rangeAt s i') ∧
    (∀ i', ctr (modCopy s d n f) i' = ctr s i') ∧ (∀ k', port (modCopy s d n f) k' = port s k') ∧
    (∀ x' y', upe (modCopy s d n f) x' y' = upe s x' y') ∧ (∀ d', dieUp (modCopy s d n f) d' = dieUp s d') := by
  refine ⟨?_, ?_, ?_, ?_, ?_, ?_, ?_, ?_, ?_, ?_, ?_, ?_, ?_, ?_, ?_, ?_, ?_, ?_, ?_, ?_, ?_, ?_, ?_, ?_, ?_, ?_, ?_, ?_, ?_, ?_, ?_, ?_, ?_, ?_, ?_, ?_, ?_, ?_, ?_, ?_, ?_, ?_, ?_, ?_, ?_, ?_, ?_, ?_, ?_, ?_, ?_, ?_, ?_, ?_, ?_, ?_, ?_, ?_, ?_, ?_, ?_, ?_, ?_, ?_, ?_⟩ <;> first | rfl | (intros; rfl)

@[simp] theorem modSec_frame (s : State) (f : Sec → Sec) :
    (modSec s f).mapped = s.mapped ∧ (modSec s f).slabs = s.slabs ∧ (modSec s f).rootCfg = s.rootCfg ∧
    (modSec s f).pending = s.pending ∧ (modSec s f).out = s.out ∧ (modSec s f).freeCtr = s.freeCtr ∧
    (modSec s f).now = s.now ∧ (modSec s f).regs = s.regs ∧ (modSec s f).pods = s.pods ∧
    (modSec s f).gens = s.gens ∧ (modSec s f).parts = s.parts ∧ (modSec s f).mem = s.mem ∧
    (modSec s f).memErr = s.memErr ∧ (modSec s f).stks = s.stks ∧ (modSec s f).chans = s.chans ∧
    (modSec s f).ranges = s.ranges ∧ (modSec s f).copies = s.copies ∧ (modSec s f).rangeCmds = s.rangeCmds ∧
    (modSec s f).descCmds = s.descCmds ∧ (modSec s f).cntOps = s.cntOps ∧ (modSec s f).bbx = s.bbx ∧
    (modSec s f).ctrs = s.ctrs ∧ (modSec s f).dests = s.dests ∧ (modSec s f).cons = s.cons ∧
    (modSec s f).changes0 = s.changes0 ∧ (modSec s f).changes1 = s.changes1 ∧ (modSec s f).ports = s.ports ∧
    (modSec s f).upes = s.upes ∧ (modSec s f).upeQ = s.upeQ ∧ (modSec s f).shadow = s.shadow ∧
    (modSec s f).spans = s.spans ∧ (modSec s f).nextSpan = s.nextSpan ∧ (modSec s f).ticks = s.ticks ∧
    (modSec s f).colds = s.colds ∧ (modSec s f).journal = s.journal ∧ (modSec s f).pins = s.pins ∧
    (modSec s f).slots = s.slots ∧ (modSec s f).pws = s.pws ∧ (modSec s f).lane = s.lane ∧
    (modSec s f).fcsBad = s.fcsBad ∧ (modSec s f).ringStop = s.ringStop ∧ (modSec s f).msi = s.msi ∧
    (modSec s f).edgePend = s.edgePend ∧ (modSec s f).dieDown = s.dieDown ∧ (modSec s f).dieReq = s.dieReq ∧
    (modSec s f).modReq = s.modReq ∧ (modSec s f).silent = s.silent ∧ (modSec s f).crash = s.crash ∧
    (modSec s f).crashSeq = s.crashSeq ∧ (modSec s f).podUes = s.podUes ∧ (modSec s f).sup = s.sup ∧
    (modSec s f).locked = s.locked ∧ (modSec s f).modLock = s.modLock ∧ (modSec s f).violations = s.violations ∧
    (∀ a', rd (modSec s f) a' = rd s a') ∧ (∀ g', pod (modSec s f) g' = pod s g') ∧
    (∀ n', gen (modSec s f) n' = gen s n') ∧ (∀ p', part (modSec s f) p' = part s p') ∧
    (∀ n', stk (modSec s f) n' = stk s n') ∧ (∀ x' y', chan (modSec s f) x' y' = chan s x' y') ∧
    (∀ x' y', copyChan (modSec s f) x' y' = copyChan s x' y') ∧ (∀ i', rangeAt (modSec s f) i' = rangeAt s i') ∧
    (∀ i', ctr (modSec s f) i' = ctr s i') ∧ (∀ k', port (modSec s f) k' = port s k') ∧
    (∀ x' y', upe (modSec s f) x' y' = upe s x' y') ∧ (∀ d', dieUp (modSec s f) d' = dieUp s d') := by
  refine ⟨?_, ?_, ?_, ?_, ?_, ?_, ?_, ?_, ?_, ?_, ?_, ?_, ?_, ?_, ?_, ?_, ?_, ?_, ?_, ?_, ?_, ?_, ?_, ?_, ?_, ?_, ?_, ?_, ?_, ?_, ?_, ?_, ?_, ?_, ?_, ?_, ?_, ?_, ?_, ?_, ?_, ?_, ?_, ?_, ?_, ?_, ?_, ?_, ?_, ?_, ?_, ?_, ?_, ?_, ?_, ?_, ?_, ?_, ?_, ?_, ?_, ?_, ?_, ?_, ?_, ?_⟩ <;> first | rfl | (intros; rfl)

@[simp] theorem emit_frame (s : State) (o : Output) :
    (emit s o).mapped = s.mapped ∧ (emit s o).slabs = s.slabs ∧ (emit s o).rootCfg = s.rootCfg ∧
    (emit s o).pending = s.pending ∧ (emit s o).freeCtr = s.freeCtr ∧ (emit s o).now = s.now ∧
    (emit s o).regs = s.regs ∧ (emit s o).pods = s.pods ∧ (emit s o).gens = s.gens ∧ (emit s o).parts = s.parts ∧
    (emit s o).mem = s.mem ∧ (emit s o).memErr = s.memErr ∧ (emit s o).stks = s.stks ∧ (emit s o).chans = s.chans ∧
    (emit s o).ranges = s.ranges ∧ (emit s o).copies = s.copies ∧ (emit s o).rangeCmds = s.rangeCmds ∧
    (emit s o).descCmds = s.descCmds ∧ (emit s o).cntOps = s.cntOps ∧ (emit s o).bbx = s.bbx ∧
    (emit s o).ctrs = s.ctrs ∧ (emit s o).dests = s.dests ∧ (emit s o).cons = s.cons ∧
    (emit s o).changes0 = s.changes0 ∧ (emit s o).changes1 = s.changes1 ∧ (emit s o).ports = s.ports ∧
    (emit s o).upes = s.upes ∧ (emit s o).upeQ = s.upeQ ∧ (emit s o).shadow = s.shadow ∧
    (emit s o).spans = s.spans ∧ (emit s o).nextSpan = s.nextSpan ∧ (emit s o).ticks = s.ticks ∧
    (emit s o).colds = s.colds ∧ (emit s o).journal = s.journal ∧ (emit s o).pins = s.pins ∧
    (emit s o).slots = s.slots ∧ (emit s o).pws = s.pws ∧ (emit s o).lane = s.lane ∧ (emit s o).fcsBad = s.fcsBad ∧
    (emit s o).ringStop = s.ringStop ∧ (emit s o).msi = s.msi ∧ (emit s o).edgePend = s.edgePend ∧
    (emit s o).dieDown = s.dieDown ∧ (emit s o).dieReq = s.dieReq ∧ (emit s o).modReq = s.modReq ∧
    (emit s o).silent = s.silent ∧ (emit s o).crash = s.crash ∧ (emit s o).crashSeq = s.crashSeq ∧
    (emit s o).podUes = s.podUes ∧ (emit s o).sec = s.sec ∧ (emit s o).sup = s.sup ∧ (emit s o).locked = s.locked ∧
    (emit s o).modLock = s.modLock ∧ (emit s o).violations = s.violations ∧ (∀ a', rd (emit s o) a' = rd s a') ∧
    (∀ g', pod (emit s o) g' = pod s g') ∧ (∀ n', gen (emit s o) n' = gen s n') ∧
    (∀ p', part (emit s o) p' = part s p') ∧ (∀ n', stk (emit s o) n' = stk s n') ∧
    (∀ x' y', chan (emit s o) x' y' = chan s x' y') ∧ (∀ x' y', copyChan (emit s o) x' y' = copyChan s x' y') ∧
    (∀ i', rangeAt (emit s o) i' = rangeAt s i') ∧ (∀ i', ctr (emit s o) i' = ctr s i') ∧
    (∀ k', port (emit s o) k' = port s k') ∧ (∀ x' y', upe (emit s o) x' y' = upe s x' y') ∧
    (∀ d', dieUp (emit s o) d' = dieUp s d') := by
  refine ⟨?_, ?_, ?_, ?_, ?_, ?_, ?_, ?_, ?_, ?_, ?_, ?_, ?_, ?_, ?_, ?_, ?_, ?_, ?_, ?_, ?_, ?_, ?_, ?_, ?_, ?_, ?_, ?_, ?_, ?_, ?_, ?_, ?_, ?_, ?_, ?_, ?_, ?_, ?_, ?_, ?_, ?_, ?_, ?_, ?_, ?_, ?_, ?_, ?_, ?_, ?_, ?_, ?_, ?_, ?_, ?_, ?_, ?_, ?_, ?_, ?_, ?_, ?_, ?_, ?_, ?_⟩ <;> first | rfl | (intros; rfl)

@[simp] theorem nextFree_frame (s : State) :
    (nextFree s).mapped = s.mapped ∧ (nextFree s).slabs = s.slabs ∧ (nextFree s).rootCfg = s.rootCfg ∧
    (nextFree s).pending = s.pending ∧ (nextFree s).out = s.out ∧ (nextFree s).now = s.now ∧
    (nextFree s).regs = s.regs ∧ (nextFree s).pods = s.pods ∧ (nextFree s).gens = s.gens ∧
    (nextFree s).parts = s.parts ∧ (nextFree s).mem = s.mem ∧ (nextFree s).memErr = s.memErr ∧
    (nextFree s).stks = s.stks ∧ (nextFree s).chans = s.chans ∧ (nextFree s).ranges = s.ranges ∧
    (nextFree s).copies = s.copies ∧ (nextFree s).rangeCmds = s.rangeCmds ∧ (nextFree s).descCmds = s.descCmds ∧
    (nextFree s).cntOps = s.cntOps ∧ (nextFree s).bbx = s.bbx ∧ (nextFree s).ctrs = s.ctrs ∧
    (nextFree s).dests = s.dests ∧ (nextFree s).cons = s.cons ∧ (nextFree s).changes0 = s.changes0 ∧
    (nextFree s).changes1 = s.changes1 ∧ (nextFree s).ports = s.ports ∧ (nextFree s).upes = s.upes ∧
    (nextFree s).upeQ = s.upeQ ∧ (nextFree s).shadow = s.shadow ∧ (nextFree s).spans = s.spans ∧
    (nextFree s).nextSpan = s.nextSpan ∧ (nextFree s).ticks = s.ticks ∧ (nextFree s).colds = s.colds ∧
    (nextFree s).journal = s.journal ∧ (nextFree s).pins = s.pins ∧ (nextFree s).slots = s.slots ∧
    (nextFree s).pws = s.pws ∧ (nextFree s).lane = s.lane ∧ (nextFree s).fcsBad = s.fcsBad ∧
    (nextFree s).ringStop = s.ringStop ∧ (nextFree s).msi = s.msi ∧ (nextFree s).edgePend = s.edgePend ∧
    (nextFree s).dieDown = s.dieDown ∧ (nextFree s).dieReq = s.dieReq ∧ (nextFree s).modReq = s.modReq ∧
    (nextFree s).silent = s.silent ∧ (nextFree s).crash = s.crash ∧ (nextFree s).crashSeq = s.crashSeq ∧
    (nextFree s).podUes = s.podUes ∧ (nextFree s).sec = s.sec ∧ (nextFree s).sup = s.sup ∧
    (nextFree s).locked = s.locked ∧ (nextFree s).modLock = s.modLock ∧ (nextFree s).violations = s.violations ∧
    (∀ a', rd (nextFree s) a' = rd s a') ∧ (∀ g', pod (nextFree s) g' = pod s g') ∧
    (∀ n', gen (nextFree s) n' = gen s n') ∧ (∀ p', part (nextFree s) p' = part s p') ∧
    (∀ n', stk (nextFree s) n' = stk s n') ∧ (∀ x' y', chan (nextFree s) x' y' = chan s x' y') ∧
    (∀ x' y', copyChan (nextFree s) x' y' = copyChan s x' y') ∧ (∀ i', rangeAt (nextFree s) i' = rangeAt s i') ∧
    (∀ i', ctr (nextFree s) i' = ctr s i') ∧ (∀ k', port (nextFree s) k' = port s k') ∧
    (∀ x' y', upe (nextFree s) x' y' = upe s x' y') ∧ (∀ d', dieUp (nextFree s) d' = dieUp s d') := by
  refine ⟨?_, ?_, ?_, ?_, ?_, ?_, ?_, ?_, ?_, ?_, ?_, ?_, ?_, ?_, ?_, ?_, ?_, ?_, ?_, ?_, ?_, ?_, ?_, ?_, ?_, ?_, ?_, ?_, ?_, ?_, ?_, ?_, ?_, ?_, ?_, ?_, ?_, ?_, ?_, ?_, ?_, ?_, ?_, ?_, ?_, ?_, ?_, ?_, ?_, ?_, ?_, ?_, ?_, ?_, ?_, ?_, ?_, ?_, ?_, ?_, ?_, ?_, ?_, ?_, ?_, ?_⟩ <;> first | rfl | (intros; rfl)

@[simp] theorem setRange_frame (s : State) (i : Nat) (r : Range) :
    (setRange s i r).mapped = s.mapped ∧ (setRange s i r).slabs = s.slabs ∧ (setRange s i r).rootCfg = s.rootCfg ∧
    (setRange s i r).pending = s.pending ∧ (setRange s i r).out = s.out ∧ (setRange s i r).freeCtr = s.freeCtr ∧
    (setRange s i r).now = s.now ∧ (setRange s i r).regs = s.regs ∧ (setRange s i r).pods = s.pods ∧
    (setRange s i r).gens = s.gens ∧ (setRange s i r).parts = s.parts ∧ (setRange s i r).mem = s.mem ∧
    (setRange s i r).memErr = s.memErr ∧ (setRange s i r).stks = s.stks ∧ (setRange s i r).chans = s.chans ∧
    (setRange s i r).copies = s.copies ∧ (setRange s i r).rangeCmds = s.rangeCmds ∧
    (setRange s i r).descCmds = s.descCmds ∧ (setRange s i r).cntOps = s.cntOps ∧ (setRange s i r).bbx = s.bbx ∧
    (setRange s i r).ctrs = s.ctrs ∧ (setRange s i r).dests = s.dests ∧ (setRange s i r).cons = s.cons ∧
    (setRange s i r).changes0 = s.changes0 ∧ (setRange s i r).changes1 = s.changes1 ∧
    (setRange s i r).ports = s.ports ∧ (setRange s i r).upes = s.upes ∧ (setRange s i r).upeQ = s.upeQ ∧
    (setRange s i r).shadow = s.shadow ∧ (setRange s i r).spans = s.spans ∧
    (setRange s i r).nextSpan = s.nextSpan ∧ (setRange s i r).ticks = s.ticks ∧ (setRange s i r).colds = s.colds ∧
    (setRange s i r).journal = s.journal ∧ (setRange s i r).pins = s.pins ∧ (setRange s i r).slots = s.slots ∧
    (setRange s i r).pws = s.pws ∧ (setRange s i r).lane = s.lane ∧ (setRange s i r).fcsBad = s.fcsBad ∧
    (setRange s i r).ringStop = s.ringStop ∧ (setRange s i r).msi = s.msi ∧
    (setRange s i r).edgePend = s.edgePend ∧ (setRange s i r).dieDown = s.dieDown ∧
    (setRange s i r).dieReq = s.dieReq ∧ (setRange s i r).modReq = s.modReq ∧ (setRange s i r).silent = s.silent ∧
    (setRange s i r).crash = s.crash ∧ (setRange s i r).crashSeq = s.crashSeq ∧
    (setRange s i r).podUes = s.podUes ∧ (setRange s i r).sec = s.sec ∧ (setRange s i r).sup = s.sup ∧
    (setRange s i r).locked = s.locked ∧ (setRange s i r).modLock = s.modLock ∧
    (setRange s i r).violations = s.violations ∧ (∀ a', rd (setRange s i r) a' = rd s a') ∧
    (∀ g', pod (setRange s i r) g' = pod s g') ∧ (∀ n', gen (setRange s i r) n' = gen s n') ∧
    (∀ p', part (setRange s i r) p' = part s p') ∧ (∀ n', stk (setRange s i r) n' = stk s n') ∧
    (∀ x' y', chan (setRange s i r) x' y' = chan s x' y') ∧
    (∀ x' y', copyChan (setRange s i r) x' y' = copyChan s x' y') ∧ (∀ i', ctr (setRange s i r) i' = ctr s i') ∧
    (∀ k', port (setRange s i r) k' = port s k') ∧ (∀ x' y', upe (setRange s i r) x' y' = upe s x' y') ∧
    (∀ d', dieUp (setRange s i r) d' = dieUp s d') := by
  refine ⟨?_, ?_, ?_, ?_, ?_, ?_, ?_, ?_, ?_, ?_, ?_, ?_, ?_, ?_, ?_, ?_, ?_, ?_, ?_, ?_, ?_, ?_, ?_, ?_, ?_, ?_, ?_, ?_, ?_, ?_, ?_, ?_, ?_, ?_, ?_, ?_, ?_, ?_, ?_, ?_, ?_, ?_, ?_, ?_, ?_, ?_, ?_, ?_, ?_, ?_, ?_, ?_, ?_, ?_, ?_, ?_, ?_, ?_, ?_, ?_, ?_, ?_, ?_, ?_, ?_⟩ <;> first | rfl | (intros; rfl)

@[simp] theorem setCtr_frame (s : State) (id : Nat) (c : Ctr) :
    (setCtr s id c).mapped = s.mapped ∧ (setCtr s id c).slabs = s.slabs ∧ (setCtr s id c).rootCfg = s.rootCfg ∧
    (setCtr s id c).pending = s.pending ∧ (setCtr s id c).out = s.out ∧ (setCtr s id c).freeCtr = s.freeCtr ∧
    (setCtr s id c).now = s.now ∧ (setCtr s id c).regs = s.regs ∧ (setCtr s id c).pods = s.pods ∧
    (setCtr s id c).gens = s.gens ∧ (setCtr s id c).parts = s.parts ∧ (setCtr s id c).mem = s.mem ∧
    (setCtr s id c).memErr = s.memErr ∧ (setCtr s id c).stks = s.stks ∧ (setCtr s id c).chans = s.chans ∧
    (setCtr s id c).ranges = s.ranges ∧ (setCtr s id c).copies = s.copies ∧
    (setCtr s id c).rangeCmds = s.rangeCmds ∧ (setCtr s id c).descCmds = s.descCmds ∧
    (setCtr s id c).cntOps = s.cntOps ∧ (setCtr s id c).bbx = s.bbx ∧ (setCtr s id c).dests = s.dests ∧
    (setCtr s id c).cons = s.cons ∧ (setCtr s id c).changes0 = s.changes0 ∧ (setCtr s id c).changes1 = s.changes1 ∧
    (setCtr s id c).ports = s.ports ∧ (setCtr s id c).upes = s.upes ∧ (setCtr s id c).upeQ = s.upeQ ∧
    (setCtr s id c).shadow = s.shadow ∧ (setCtr s id c).spans = s.spans ∧ (setCtr s id c).nextSpan = s.nextSpan ∧
    (setCtr s id c).ticks = s.ticks ∧ (setCtr s id c).colds = s.colds ∧ (setCtr s id c).journal = s.journal ∧
    (setCtr s id c).pins = s.pins ∧ (setCtr s id c).slots = s.slots ∧ (setCtr s id c).pws = s.pws ∧
    (setCtr s id c).lane = s.lane ∧ (setCtr s id c).fcsBad = s.fcsBad ∧ (setCtr s id c).ringStop = s.ringStop ∧
    (setCtr s id c).msi = s.msi ∧ (setCtr s id c).edgePend = s.edgePend ∧ (setCtr s id c).dieDown = s.dieDown ∧
    (setCtr s id c).dieReq = s.dieReq ∧ (setCtr s id c).modReq = s.modReq ∧ (setCtr s id c).silent = s.silent ∧
    (setCtr s id c).crash = s.crash ∧ (setCtr s id c).crashSeq = s.crashSeq ∧ (setCtr s id c).podUes = s.podUes ∧
    (setCtr s id c).sec = s.sec ∧ (setCtr s id c).sup = s.sup ∧ (setCtr s id c).locked = s.locked ∧
    (setCtr s id c).modLock = s.modLock ∧ (setCtr s id c).violations = s.violations ∧
    (∀ a', rd (setCtr s id c) a' = rd s a') ∧ (∀ g', pod (setCtr s id c) g' = pod s g') ∧
    (∀ n', gen (setCtr s id c) n' = gen s n') ∧ (∀ p', part (setCtr s id c) p' = part s p') ∧
    (∀ n', stk (setCtr s id c) n' = stk s n') ∧ (∀ x' y', chan (setCtr s id c) x' y' = chan s x' y') ∧
    (∀ x' y', copyChan (setCtr s id c) x' y' = copyChan s x' y') ∧
    (∀ i', rangeAt (setCtr s id c) i' = rangeAt s i') ∧ (∀ k', port (setCtr s id c) k' = port s k') ∧
    (∀ x' y', upe (setCtr s id c) x' y' = upe s x' y') ∧ (∀ d', dieUp (setCtr s id c) d' = dieUp s d') := by
  refine ⟨?_, ?_, ?_, ?_, ?_, ?_, ?_, ?_, ?_, ?_, ?_, ?_, ?_, ?_, ?_, ?_, ?_, ?_, ?_, ?_, ?_, ?_, ?_, ?_, ?_, ?_, ?_, ?_, ?_, ?_, ?_, ?_, ?_, ?_, ?_, ?_, ?_, ?_, ?_, ?_, ?_, ?_, ?_, ?_, ?_, ?_, ?_, ?_, ?_, ?_, ?_, ?_, ?_, ?_, ?_, ?_, ?_, ?_, ?_, ?_, ?_, ?_, ?_, ?_, ?_⟩ <;> first | rfl | (intros; rfl)

@[simp] theorem modCtr_frame (s : State) (id : Nat) (f : Ctr → Ctr) :
    (modCtr s id f).mapped = s.mapped ∧ (modCtr s id f).slabs = s.slabs ∧ (modCtr s id f).rootCfg = s.rootCfg ∧
    (modCtr s id f).pending = s.pending ∧ (modCtr s id f).out = s.out ∧ (modCtr s id f).freeCtr = s.freeCtr ∧
    (modCtr s id f).now = s.now ∧ (modCtr s id f).regs = s.regs ∧ (modCtr s id f).pods = s.pods ∧
    (modCtr s id f).gens = s.gens ∧ (modCtr s id f).parts = s.parts ∧ (modCtr s id f).mem = s.mem ∧
    (modCtr s id f).memErr = s.memErr ∧ (modCtr s id f).stks = s.stks ∧ (modCtr s id f).chans = s.chans ∧
    (modCtr s id f).ranges = s.ranges ∧ (modCtr s id f).copies = s.copies ∧
    (modCtr s id f).rangeCmds = s.rangeCmds ∧ (modCtr s id f).descCmds = s.descCmds ∧
    (modCtr s id f).cntOps = s.cntOps ∧ (modCtr s id f).bbx = s.bbx ∧ (modCtr s id f).dests = s.dests ∧
    (modCtr s id f).cons = s.cons ∧ (modCtr s id f).changes0 = s.changes0 ∧ (modCtr s id f).changes1 = s.changes1 ∧
    (modCtr s id f).ports = s.ports ∧ (modCtr s id f).upes = s.upes ∧ (modCtr s id f).upeQ = s.upeQ ∧
    (modCtr s id f).shadow = s.shadow ∧ (modCtr s id f).spans = s.spans ∧ (modCtr s id f).nextSpan = s.nextSpan ∧
    (modCtr s id f).ticks = s.ticks ∧ (modCtr s id f).colds = s.colds ∧ (modCtr s id f).journal = s.journal ∧
    (modCtr s id f).pins = s.pins ∧ (modCtr s id f).slots = s.slots ∧ (modCtr s id f).pws = s.pws ∧
    (modCtr s id f).lane = s.lane ∧ (modCtr s id f).fcsBad = s.fcsBad ∧ (modCtr s id f).ringStop = s.ringStop ∧
    (modCtr s id f).msi = s.msi ∧ (modCtr s id f).edgePend = s.edgePend ∧ (modCtr s id f).dieDown = s.dieDown ∧
    (modCtr s id f).dieReq = s.dieReq ∧ (modCtr s id f).modReq = s.modReq ∧ (modCtr s id f).silent = s.silent ∧
    (modCtr s id f).crash = s.crash ∧ (modCtr s id f).crashSeq = s.crashSeq ∧ (modCtr s id f).podUes = s.podUes ∧
    (modCtr s id f).sec = s.sec ∧ (modCtr s id f).sup = s.sup ∧ (modCtr s id f).locked = s.locked ∧
    (modCtr s id f).modLock = s.modLock ∧ (modCtr s id f).violations = s.violations ∧
    (∀ a', rd (modCtr s id f) a' = rd s a') ∧ (∀ g', pod (modCtr s id f) g' = pod s g') ∧
    (∀ n', gen (modCtr s id f) n' = gen s n') ∧ (∀ p', part (modCtr s id f) p' = part s p') ∧
    (∀ n', stk (modCtr s id f) n' = stk s n') ∧ (∀ x' y', chan (modCtr s id f) x' y' = chan s x' y') ∧
    (∀ x' y', copyChan (modCtr s id f) x' y' = copyChan s x' y') ∧
    (∀ i', rangeAt (modCtr s id f) i' = rangeAt s i') ∧ (∀ k', port (modCtr s id f) k' = port s k') ∧
    (∀ x' y', upe (modCtr s id f) x' y' = upe s x' y') ∧ (∀ d', dieUp (modCtr s id f) d' = dieUp s d') := by
  refine ⟨?_, ?_, ?_, ?_, ?_, ?_, ?_, ?_, ?_, ?_, ?_, ?_, ?_, ?_, ?_, ?_, ?_, ?_, ?_, ?_, ?_, ?_, ?_, ?_, ?_, ?_, ?_, ?_, ?_, ?_, ?_, ?_, ?_, ?_, ?_, ?_, ?_, ?_, ?_, ?_, ?_, ?_, ?_, ?_, ?_, ?_, ?_, ?_, ?_, ?_, ?_, ?_, ?_, ?_, ?_, ?_, ?_, ?_, ?_, ?_, ?_, ?_, ?_, ?_, ?_⟩ <;> first | rfl | (intros; rfl)

@[simp] theorem setPort_frame (s : State) (k : Nat) (x : Port) :
    (setPort s k x).mapped = s.mapped ∧ (setPort s k x).slabs = s.slabs ∧ (setPort s k x).rootCfg = s.rootCfg ∧
    (setPort s k x).pending = s.pending ∧ (setPort s k x).out = s.out ∧ (setPort s k x).freeCtr = s.freeCtr ∧
    (setPort s k x).now = s.now ∧ (setPort s k x).regs = s.regs ∧ (setPort s k x).pods = s.pods ∧
    (setPort s k x).gens = s.gens ∧ (setPort s k x).parts = s.parts ∧ (setPort s k x).mem = s.mem ∧
    (setPort s k x).memErr = s.memErr ∧ (setPort s k x).stks = s.stks ∧ (setPort s k x).chans = s.chans ∧
    (setPort s k x).ranges = s.ranges ∧ (setPort s k x).copies = s.copies ∧
    (setPort s k x).rangeCmds = s.rangeCmds ∧ (setPort s k x).descCmds = s.descCmds ∧
    (setPort s k x).cntOps = s.cntOps ∧ (setPort s k x).bbx = s.bbx ∧ (setPort s k x).ctrs = s.ctrs ∧
    (setPort s k x).dests = s.dests ∧ (setPort s k x).cons = s.cons ∧ (setPort s k x).changes0 = s.changes0 ∧
    (setPort s k x).changes1 = s.changes1 ∧ (setPort s k x).upes = s.upes ∧ (setPort s k x).upeQ = s.upeQ ∧
    (setPort s k x).shadow = s.shadow ∧ (setPort s k x).spans = s.spans ∧ (setPort s k x).nextSpan = s.nextSpan ∧
    (setPort s k x).ticks = s.ticks ∧ (setPort s k x).colds = s.colds ∧ (setPort s k x).journal = s.journal ∧
    (setPort s k x).pins = s.pins ∧ (setPort s k x).slots = s.slots ∧ (setPort s k x).pws = s.pws ∧
    (setPort s k x).lane = s.lane ∧ (setPort s k x).fcsBad = s.fcsBad ∧ (setPort s k x).ringStop = s.ringStop ∧
    (setPort s k x).msi = s.msi ∧ (setPort s k x).edgePend = s.edgePend ∧ (setPort s k x).dieDown = s.dieDown ∧
    (setPort s k x).dieReq = s.dieReq ∧ (setPort s k x).modReq = s.modReq ∧ (setPort s k x).silent = s.silent ∧
    (setPort s k x).crash = s.crash ∧ (setPort s k x).crashSeq = s.crashSeq ∧ (setPort s k x).podUes = s.podUes ∧
    (setPort s k x).sec = s.sec ∧ (setPort s k x).sup = s.sup ∧ (setPort s k x).locked = s.locked ∧
    (setPort s k x).modLock = s.modLock ∧ (setPort s k x).violations = s.violations ∧
    (∀ a', rd (setPort s k x) a' = rd s a') ∧ (∀ g', pod (setPort s k x) g' = pod s g') ∧
    (∀ n', gen (setPort s k x) n' = gen s n') ∧ (∀ p', part (setPort s k x) p' = part s p') ∧
    (∀ n', stk (setPort s k x) n' = stk s n') ∧ (∀ x' y', chan (setPort s k x) x' y' = chan s x' y') ∧
    (∀ x' y', copyChan (setPort s k x) x' y' = copyChan s x' y') ∧
    (∀ i', rangeAt (setPort s k x) i' = rangeAt s i') ∧ (∀ i', ctr (setPort s k x) i' = ctr s i') ∧
    (∀ x' y', upe (setPort s k x) x' y' = upe s x' y') ∧ (∀ d', dieUp (setPort s k x) d' = dieUp s d') := by
  refine ⟨?_, ?_, ?_, ?_, ?_, ?_, ?_, ?_, ?_, ?_, ?_, ?_, ?_, ?_, ?_, ?_, ?_, ?_, ?_, ?_, ?_, ?_, ?_, ?_, ?_, ?_, ?_, ?_, ?_, ?_, ?_, ?_, ?_, ?_, ?_, ?_, ?_, ?_, ?_, ?_, ?_, ?_, ?_, ?_, ?_, ?_, ?_, ?_, ?_, ?_, ?_, ?_, ?_, ?_, ?_, ?_, ?_, ?_, ?_, ?_, ?_, ?_, ?_, ?_, ?_⟩ <;> first | rfl | (intros; rfl)

@[simp] theorem modPort_frame (s : State) (k : Nat) (f : Port → Port) :
    (modPort s k f).mapped = s.mapped ∧ (modPort s k f).slabs = s.slabs ∧ (modPort s k f).rootCfg = s.rootCfg ∧
    (modPort s k f).pending = s.pending ∧ (modPort s k f).out = s.out ∧ (modPort s k f).freeCtr = s.freeCtr ∧
    (modPort s k f).now = s.now ∧ (modPort s k f).regs = s.regs ∧ (modPort s k f).pods = s.pods ∧
    (modPort s k f).gens = s.gens ∧ (modPort s k f).parts = s.parts ∧ (modPort s k f).mem = s.mem ∧
    (modPort s k f).memErr = s.memErr ∧ (modPort s k f).stks = s.stks ∧ (modPort s k f).chans = s.chans ∧
    (modPort s k f).ranges = s.ranges ∧ (modPort s k f).copies = s.copies ∧
    (modPort s k f).rangeCmds = s.rangeCmds ∧ (modPort s k f).descCmds = s.descCmds ∧
    (modPort s k f).cntOps = s.cntOps ∧ (modPort s k f).bbx = s.bbx ∧ (modPort s k f).ctrs = s.ctrs ∧
    (modPort s k f).dests = s.dests ∧ (modPort s k f).cons = s.cons ∧ (modPort s k f).changes0 = s.changes0 ∧
    (modPort s k f).changes1 = s.changes1 ∧ (modPort s k f).upes = s.upes ∧ (modPort s k f).upeQ = s.upeQ ∧
    (modPort s k f).shadow = s.shadow ∧ (modPort s k f).spans = s.spans ∧ (modPort s k f).nextSpan = s.nextSpan ∧
    (modPort s k f).ticks = s.ticks ∧ (modPort s k f).colds = s.colds ∧ (modPort s k f).journal = s.journal ∧
    (modPort s k f).pins = s.pins ∧ (modPort s k f).slots = s.slots ∧ (modPort s k f).pws = s.pws ∧
    (modPort s k f).lane = s.lane ∧ (modPort s k f).fcsBad = s.fcsBad ∧ (modPort s k f).ringStop = s.ringStop ∧
    (modPort s k f).msi = s.msi ∧ (modPort s k f).edgePend = s.edgePend ∧ (modPort s k f).dieDown = s.dieDown ∧
    (modPort s k f).dieReq = s.dieReq ∧ (modPort s k f).modReq = s.modReq ∧ (modPort s k f).silent = s.silent ∧
    (modPort s k f).crash = s.crash ∧ (modPort s k f).crashSeq = s.crashSeq ∧ (modPort s k f).podUes = s.podUes ∧
    (modPort s k f).sec = s.sec ∧ (modPort s k f).sup = s.sup ∧ (modPort s k f).locked = s.locked ∧
    (modPort s k f).modLock = s.modLock ∧ (modPort s k f).violations = s.violations ∧
    (∀ a', rd (modPort s k f) a' = rd s a') ∧ (∀ g', pod (modPort s k f) g' = pod s g') ∧
    (∀ n', gen (modPort s k f) n' = gen s n') ∧ (∀ p', part (modPort s k f) p' = part s p') ∧
    (∀ n', stk (modPort s k f) n' = stk s n') ∧ (∀ x' y', chan (modPort s k f) x' y' = chan s x' y') ∧
    (∀ x' y', copyChan (modPort s k f) x' y' = copyChan s x' y') ∧
    (∀ i', rangeAt (modPort s k f) i' = rangeAt s i') ∧ (∀ i', ctr (modPort s k f) i' = ctr s i') ∧
    (∀ x' y', upe (modPort s k f) x' y' = upe s x' y') ∧ (∀ d', dieUp (modPort s k f) d' = dieUp s d') := by
  refine ⟨?_, ?_, ?_, ?_, ?_, ?_, ?_, ?_, ?_, ?_, ?_, ?_, ?_, ?_, ?_, ?_, ?_, ?_, ?_, ?_, ?_, ?_, ?_, ?_, ?_, ?_, ?_, ?_, ?_, ?_, ?_, ?_, ?_, ?_, ?_, ?_, ?_, ?_, ?_, ?_, ?_, ?_, ?_, ?_, ?_, ?_, ?_, ?_, ?_, ?_, ?_, ?_, ?_, ?_, ?_, ?_, ?_, ?_, ?_, ?_, ?_, ?_, ?_, ?_, ?_⟩ <;> first | rfl | (intros; rfl)

@[simp] theorem setUpe_frame (s : State) (st p : Nat) (x : UpeList) :
    (setUpe s st p x).mapped = s.mapped ∧ (setUpe s st p x).slabs = s.slabs ∧
    (setUpe s st p x).rootCfg = s.rootCfg ∧ (setUpe s st p x).pending = s.pending ∧ (setUpe s st p x).out = s.out ∧
    (setUpe s st p x).freeCtr = s.freeCtr ∧ (setUpe s st p x).now = s.now ∧ (setUpe s st p x).regs = s.regs ∧
    (setUpe s st p x).pods = s.pods ∧ (setUpe s st p x).gens = s.gens ∧ (setUpe s st p x).parts = s.parts ∧
    (setUpe s st p x).mem = s.mem ∧ (setUpe s st p x).memErr = s.memErr ∧ (setUpe s st p x).stks = s.stks ∧
    (setUpe s st p x).chans = s.chans ∧ (setUpe s st p x).ranges = s.ranges ∧ (setUpe s st p x).copies = s.copies ∧
    (setUpe s st p x).rangeCmds = s.rangeCmds ∧ (setUpe s st p x).descCmds = s.descCmds ∧
    (setUpe s st p x).cntOps = s.cntOps ∧ (setUpe s st p x).bbx = s.bbx ∧ (setUpe s st p x).ctrs = s.ctrs ∧
    (setUpe s st p x).dests = s.dests ∧ (setUpe s st p x).cons = s.cons ∧ (setUpe s st p x).changes0 = s.changes0 ∧
    (setUpe s st p x).changes1 = s.changes1 ∧ (setUpe s st p x).ports = s.ports ∧ (setUpe s st p x).upeQ = s.upeQ ∧
    (setUpe s st p x).shadow = s.shadow ∧ (setUpe s st p x).spans = s.spans ∧
    (setUpe s st p x).nextSpan = s.nextSpan ∧ (setUpe s st p x).ticks = s.ticks ∧
    (setUpe s st p x).colds = s.colds ∧ (setUpe s st p x).journal = s.journal ∧ (setUpe s st p x).pins = s.pins ∧
    (setUpe s st p x).slots = s.slots ∧ (setUpe s st p x).pws = s.pws ∧ (setUpe s st p x).lane = s.lane ∧
    (setUpe s st p x).fcsBad = s.fcsBad ∧ (setUpe s st p x).ringStop = s.ringStop ∧ (setUpe s st p x).msi = s.msi ∧
    (setUpe s st p x).edgePend = s.edgePend ∧ (setUpe s st p x).dieDown = s.dieDown ∧
    (setUpe s st p x).dieReq = s.dieReq ∧ (setUpe s st p x).modReq = s.modReq ∧
    (setUpe s st p x).silent = s.silent ∧ (setUpe s st p x).crash = s.crash ∧
    (setUpe s st p x).crashSeq = s.crashSeq ∧ (setUpe s st p x).podUes = s.podUes ∧ (setUpe s st p x).sec = s.sec ∧
    (setUpe s st p x).sup = s.sup ∧ (setUpe s st p x).locked = s.locked ∧ (setUpe s st p x).modLock = s.modLock ∧
    (setUpe s st p x).violations = s.violations ∧ (∀ a', rd (setUpe s st p x) a' = rd s a') ∧
    (∀ g', pod (setUpe s st p x) g' = pod s g') ∧ (∀ n', gen (setUpe s st p x) n' = gen s n') ∧
    (∀ p', part (setUpe s st p x) p' = part s p') ∧ (∀ n', stk (setUpe s st p x) n' = stk s n') ∧
    (∀ x' y', chan (setUpe s st p x) x' y' = chan s x' y') ∧
    (∀ x' y', copyChan (setUpe s st p x) x' y' = copyChan s x' y') ∧
    (∀ i', rangeAt (setUpe s st p x) i' = rangeAt s i') ∧ (∀ i', ctr (setUpe s st p x) i' = ctr s i') ∧
    (∀ k', port (setUpe s st p x) k' = port s k') ∧ (∀ d', dieUp (setUpe s st p x) d' = dieUp s d') := by
  refine ⟨?_, ?_, ?_, ?_, ?_, ?_, ?_, ?_, ?_, ?_, ?_, ?_, ?_, ?_, ?_, ?_, ?_, ?_, ?_, ?_, ?_, ?_, ?_, ?_, ?_, ?_, ?_, ?_, ?_, ?_, ?_, ?_, ?_, ?_, ?_, ?_, ?_, ?_, ?_, ?_, ?_, ?_, ?_, ?_, ?_, ?_, ?_, ?_, ?_, ?_, ?_, ?_, ?_, ?_, ?_, ?_, ?_, ?_, ?_, ?_, ?_, ?_, ?_, ?_, ?_⟩ <;> first | rfl | (intros; rfl)

/-! ### Registers -/

@[simp] theorem rd_wr_same (s : State) (a v : Nat) : rd (wr s a v) a = v := by
  simp only [rd, wr]
  split
  · simp_all
  · simp

theorem rd_wr_ne (s : State) (a b v : Nat) (h : b ≠ a) : rd (wr s a v) b = rd s b := by
  simp only [rd, wr]
  split
  · exact tget_tdel_ne _ _ _ _ h
  · exact tget_tset_ne _ _ _ _ _ h

theorem rd_wr (s : State) (a b v : Nat) : rd (wr s a v) b = if b = a then v else rd s b := by
  split
  · subst b; exact rd_wr_same s a v
  · exact rd_wr_ne s a b v ‹_›

@[simp] theorem rd_setBits_same (s : State) (a m : Nat) : rd (setBits s a m) a = rd s a ||| m := rd_wr_same s a _

theorem rd_setBits_ne (s : State) (a b m : Nat) (h : b ≠ a) : rd (setBits s a m) b = rd s b := rd_wr_ne s a b _ h

@[simp] theorem rd_clrBits_same (s : State) (a m : Nat) : rd (clrBits s a m) a = rd s a ^^^ (rd s a &&& m) :=
  rd_wr_same s a _

theorem rd_clrBits_ne (s : State) (a b m : Nat) (h : b ≠ a) : rd (clrBits s a m) b = rd s b := rd_wr_ne s a b _ h

/-- A count below its limit. -/
theorem bump_eq (s : State) (a n : Nat) (h : rd s a + n < 2 ^ 64) : bump s a n = wr s a (rd s a + n) := by
  simp only [bump]
  rw [if_neg (by omega)]

theorem rd_bump_ne (s : State) (a b n : Nat) (h : b ≠ a) (h' : b ≠ satReg a) : rd (bump s a n) b = rd s b := by
  simp only [bump]
  split
  · rw [rd_setBits_ne _ _ _ _ h', rd_wr_ne _ _ _ _ h]
  · exact rd_wr_ne _ _ _ _ h

/-! ### Tables of units -/

@[simp] theorem pod_setPod_same (s : State) (g : Nat) (p : Pod) : pod (setPod s g p) g = p := tget_tset_same _ _ _ _
theorem pod_setPod_ne (s : State) (g k : Nat) (p : Pod) (h : k ≠ g) : pod (setPod s g p) k = pod s k :=
  tget_tset_ne _ _ _ _ _ h
@[simp] theorem pod_modPod_same (s : State) (g : Nat) (f : Pod → Pod) : pod (modPod s g f) g = f (pod s g) :=
  pod_setPod_same _ _ _
theorem pod_modPod_ne (s : State) (g k : Nat) (f : Pod → Pod) (h : k ≠ g) : pod (modPod s g f) k = pod s k :=
  pod_setPod_ne _ _ _ _ h
@[simp] theorem gen_setGen_same (s : State) (k : Nat) (x : Gen) : gen (setGen s k x) k = x := tget_tset_same _ _ _ _
theorem gen_setGen_ne (s : State) (k j : Nat) (x : Gen) (h : j ≠ k) : gen (setGen s k x) j = gen s j :=
  tget_tset_ne _ _ _ _ _ h
@[simp] theorem gen_modGen_same (s : State) (k : Nat) (f : Gen → Gen) : gen (modGen s k f) k = f (gen s k) :=
  gen_setGen_same _ _ _
theorem gen_modGen_ne (s : State) (k j : Nat) (f : Gen → Gen) (h : j ≠ k) : gen (modGen s k f) j = gen s j :=
  gen_setGen_ne _ _ _ _ h
@[simp] theorem part_setPart_same (s : State) (k : Nat) (x : Part) : part (setPart s k x) k = x := tget_tset_same _ _ _ _
theorem part_setPart_ne (s : State) (k j : Nat) (x : Part) (h : j ≠ k) : part (setPart s k x) j = part s j :=
  tget_tset_ne _ _ _ _ _ h
@[simp] theorem part_modPart_same (s : State) (k : Nat) (f : Part → Part) : part (modPart s k f) k = f (part s k) :=
  part_setPart_same _ _ _
theorem part_modPart_ne (s : State) (k j : Nat) (f : Part → Part) (h : j ≠ k) : part (modPart s k f) j = part s j :=
  part_setPart_ne _ _ _ _ h
@[simp] theorem stk_setStk_same (s : State) (k : Nat) (x : Stack) : stk (setStk s k x) k = x := tget_tset_same _ _ _ _
theorem stk_setStk_ne (s : State) (k j : Nat) (x : Stack) (h : j ≠ k) : stk (setStk s k x) j = stk s j :=
  tget_tset_ne _ _ _ _ _ h
@[simp] theorem stk_modStk_same (s : State) (k : Nat) (f : Stack → Stack) : stk (modStk s k f) k = f (stk s k) :=
  stk_setStk_same _ _ _
theorem stk_modStk_ne (s : State) (k j : Nat) (f : Stack → Stack) (h : j ≠ k) : stk (modStk s k f) j = stk s j :=
  stk_setStk_ne _ _ _ _ h
@[simp] theorem ctr_setCtr_same (s : State) (k : Nat) (x : Ctr) : ctr (setCtr s k x) k = x := tget_tset_same _ _ _ _
theorem ctr_setCtr_ne (s : State) (k j : Nat) (x : Ctr) (h : j ≠ k) : ctr (setCtr s k x) j = ctr s j :=
  tget_tset_ne _ _ _ _ _ h
@[simp] theorem ctr_modCtr_same (s : State) (k : Nat) (f : Ctr → Ctr) : ctr (modCtr s k f) k = f (ctr s k) :=
  ctr_setCtr_same _ _ _
theorem ctr_modCtr_ne (s : State) (k j : Nat) (f : Ctr → Ctr) (h : j ≠ k) : ctr (modCtr s k f) j = ctr s j :=
  ctr_setCtr_ne _ _ _ _ h
@[simp] theorem port_setPort_same (s : State) (k : Nat) (x : Port) : port (setPort s k x) k = x := tget_tset_same _ _ _ _
theorem port_setPort_ne (s : State) (k j : Nat) (x : Port) (h : j ≠ k) : port (setPort s k x) j = port s j :=
  tget_tset_ne _ _ _ _ _ h
@[simp] theorem port_modPort_same (s : State) (k : Nat) (f : Port → Port) : port (modPort s k f) k = f (port s k) :=
  port_setPort_same _ _ _
theorem port_modPort_ne (s : State) (k j : Nat) (f : Port → Port) (h : j ≠ k) : port (modPort s k f) j = port s j :=
  port_setPort_ne _ _ _ _ h
@[simp] theorem rangeAt_setRange_same (s : State) (i : Nat) (r : Range) : rangeAt (setRange s i r) i = r :=
  tget_tset_same _ _ _ _
theorem rangeAt_setRange_ne (s : State) (i j : Nat) (r : Range) (h : j ≠ i) : rangeAt (setRange s i r) j = rangeAt s j :=
  tget_tset_ne _ _ _ _ _ h
@[simp] theorem copyChan_setCopy_same (s : State) (d n : Nat) (x : CopyChan) : copyChan (setCopy s d n x) d n = x :=
  tget_tset_same _ _ _ _
theorem copyChan_setCopy_ne (s : State) (d n e m : Nat) (x : CopyChan) (h : 32 * e + m ≠ 32 * d + n) :
    copyChan (setCopy s d n x) e m = copyChan s e m := tget_tset_ne _ _ _ _ _ h
@[simp] theorem chan_setChan_same (s : State) (st c : Nat) (x : Chan) : chan (setChan s st c x) st c = x :=
  tget_tset_same _ _ _ _
@[simp] theorem upe_setUpe_same (s : State) (st p : Nat) (x : UpeList) : upe (setUpe s st p x) st p = x :=
  tget_tset_same _ _ _ _

@[simp] theorem pipe_setPipe_same (p : Pod) (i : Nat) (x : Pipe) : pipe (setPipe p i x) i = x := by
  simp only [pipe, setPipe]; split <;> simp
theorem pipe_setPipe_ne (p : Pod) (i j : Nat) (x : Pipe) (h : (i = 0) ≠ (j = 0)) : pipe (setPipe p i x) j = pipe p j := by
  simp only [pipe, setPipe]; split <;> split <;> simp_all

end Sys2Proof.Machine
end

