-- ==== Sys2Proof/Laws/Launch.lean ====
section
/-! SUPPORT. What the shared operations of a launch and of a register write do when nothing stands in their way. -/

namespace Sys2Proof.Machine

open Sys2Proof

/-- A register write by a requester with rights, of a unit that answers, takes its effect. -/
theorem gate_go {s : State} {r : Requester} {a : Nat} (act : State → State) (h : canReach s r a = true)
    (k : mayWrite r a = true) : gate s r a act = act s := by
  simp [gate, h, k]

/-- A unit that does not answer: a bus error and nothing else (R6, R28). -/
theorem gate_busError {s : State} {r : Requester} {a : Nat} (act : State → State) (h : canReach s r a = false) :
    gate s r a act = emit s (.busError a) := by
  simp [gate, h]

/-- Without rights the write is discarded and counted (R9, R447). -/
theorem gate_violate {s : State} {r : Requester} {a : Nat} (act : State → State) (h : canReach s r a = true)
    (k : mayWrite r a = false) : gate s r a act = violate s a := by
  simp [gate, h, k]

theorem tset_tset {α : Type} (t : Tbl α) (k : Nat) (v w : α) : tset (tset t k v) k w = tset t k w := by
  induction t with
  | nil => simp [tset]
  | cons e t ih =>
    obtain ⟨a, x⟩ := e
    by_cases h1 : k < a
    · simp [tset, h1]
    · by_cases h2 : k = a
      · simp [tset, h2]
      · simp [tset, h1, h2, ih]

theorem setPod_setPod (s : State) (g : Nat) (p q : Pod) : setPod (setPod s g p) g q = setPod s g q := by
  simp [setPod, tset_tset]

theorem running_canLaunch {s : State} {n h : Nat} (r : running s n = true) : canLaunch s n h = true := by
  simp [canLaunch, r]

/-- Hang timers do not decide whether a clock runs. -/
theorem running_modGen (s : State) (n : Nat) (f : Gen → Gen) (hs : (f (gen s n)).st = (gen s n).st)
    (hf : (f (gen s n)).faulted = (gen s n).faulted) : running (modGen s n f) n = running s n := by
  simp [running, hs, hf]

/-- A clean store word has no fault, and its read leaves no note. -/
@[simp] theorem eccBad_husk_zero : eccBad huskF 0 = false := by decide

@[simp] theorem noteStore_zero (s : State) (g : Nat) : noteStore s g 0 = s := by
  have : eccDecode huskF 0 = .clean := by decide
  simp [noteStore, this]

/-- A launch that is ready takes its effect, from the state in which its burin has noted it. -/
theorem launchWith_go {s : State} {g n t w unit op mask : Nat} {m : Nat → Bool} {res : Nat → Nat} {mv : Bool}
    (eff : State → Nat → Nat → Nat → Nat → State) (r : Ready s g n t w unit op mask) (hm : m w = true)
    (hres : res w = mask) (hd : strokeDefined unit op = true) :
    launchWith s g unit m res mv eff =
      (if mv then afterLaunch (eff (launched s g n t unit) n t w (pod s g).burin.idx) n g t t
       else eff (launched s g n t unit) n t w (pod s g).burin.idx) := by
  obtain ⟨hatch, word, due, free, clock, runs, good, issue, hu, ho, high, rsv⟩ := r
  obtain ⟨wv, hw, rfl⟩ := Option.map_eq_some_iff.mp word
  subst hres
  have c1 : canLaunch s n (launchHc (pod s g).burin wv.toNat) = true := running_canLaunch clock
  rw [due] at c1
  have c2 : canLaunch (advance s n t) n t = true := running_canLaunch runs
  unfold atLaunch at good issue
  unfold launchWith launched atLaunch
  simp only [hatch, hw, due, c1, free, hm, c2, good, noteStore_zero, eccBad_husk_zero, issue, high, rsv, hu, ho, hd, Bool.not_true, Bool.or_false,
    Bool.false_eq_true, if_false, bne_self_eq_false]

/-- As `launchWith_go`, for one operation of a unit whose stroke moves on by itself. -/
theorem launch_go {s : State} {g n t w unit op res : Nat} (eff : State → Nat → Nat → Nat → Nat → State)
    (r : Ready s g n t w unit op res) (hd : strokeDefined unit op = true) :
    launch s g unit op res eff = afterLaunch (eff (launched s g n t unit) n t w (pod s g).burin.idx) n g t t := by
  unfold launch
  rw [launchWith_go eff r (by simp [r.isUnit, r.isOp]) rfl hd]
  simp

/-- Past an effect that left the burin as it was, the burin moves on. -/
theorem afterLaunch_go {s' s : State} {n g t unit u : Nat} (h : GoesOn s g n t unit u) (hc : canLaunch s' n t = true)
    (hb : (pod s' g).burin = (pod (launched s g n t unit) g).burin) : afterLaunch s' n g t u = movedOn s' g t u := by
  obtain ⟨h1, h2⟩ := h
  rw [← hb] at h1 h2
  have h3 : (moveOn (pod s' g).burin t u).1.prog = (pod s' g).burin.prog := by
    have : ∀ (fs : List LoopFrame) (a b c : Nat) (x : Burin), (closeLoops fs a b c x).1.prog = x.prog := by
      intro fs
      induction fs with
      | nil => intros; rfl
      | cons f fs ih => intro a b c x; unfold closeLoops; split <;> [split <;> [rfl; (split <;> [rfl; exact ih _ _ _ _])]; rfl]
    exact this _ _ _ _ _
  unfold afterLaunch movedOn modPod
  cases hmv : moveOn (pod s' g).burin t u with
  | mk b bad =>
    rw [hmv] at h1 h2 h3
    simp only at h1 h2 h3
    subst h1
    simp only [hc, Bool.not_true, Bool.false_eq_true, if_false]
    rw [hmv]
    exact if_neg (by show ¬ b.prog.length ≤ b.idx; rw [h3]; omega)


/-! ### Counting edges leaves the pods alone -/

theorem foldNat_inv {σ : Type} (P : σ → Prop) (f : Nat → σ → σ) (hf : ∀ k x, P x → P (f k x)) :
    ∀ n x, P x → P (foldNat n f x)
  | 0, _, h => h
  | n + 1, x, h => hf n _ (foldNat_inv P f hf n x h)

theorem sample_frame (s : State) (n ev k : Nat) : sample s n ev k = { s with regs := (sample s n ev k).regs } := by
  unfold sample
  split
  · rfl
  · refine foldNat_inv (fun x : State => x = { s with regs := x.regs }) _ ?_ _ _ rfl
    intro i x hx
    dsimp only
    split
    · generalize hq : sampleAdd x (n / 16) i k = q
      have : q = { x with regs := q.regs } := by rw [← hq]; rfl
      rw [hx] at this
      exact this
    · exact hx

@[simp] theorem pod_sample (s : State) (n ev k g : Nat) : pod (sample s n ev k) g = pod s g := by
  rw [sample_frame]; rfl

@[simp] theorem gen_sample (s : State) (n ev k m : Nat) : gen (sample s n ev k) m = gen s m := by
  rw [sample_frame]; rfl

@[simp] theorem part_sample (s : State) (n ev k p : Nat) : part (sample s n ev k) p = part s p := by
  rw [sample_frame]; rfl

/-- A saturating count writes registers only. -/
theorem bump_regs (s : State) (a k : Nat) : bump s a k = { s with regs := (bump s a k).regs } := by
  unfold bump; dsimp only; split_ifs <;> rfl

theorem foldl_regs {α : Type} (f : State → α → State) (hf : ∀ s x, f s x = { s with regs := (f s x).regs }) :
    ∀ (l : List α) (s : State), l.foldl f s = { s with regs := (l.foldl f s).regs }
  | [], _ => rfl
  | a :: l, s => by
    have h := foldl_regs f hf l (f s a)
    generalize hq : l.foldl f (f s a) = q at h
    rw [List.foldl_cons, hq, h, hf s a]

/-- Counting a pod's edges writes registers only. -/
theorem countEdges_frame (s : State) (lo hi g : Nat) :
    countEdges s lo hi g = { s with regs := (countEdges s lo hi g).regs } :=
  foldl_regs _ (fun s e => by split; exacts [rfl, bump_regs _ _ _]) _ s

theorem countAll_frame (s : State) (lo hi : Nat) (l : List Nat) :
    l.foldl (fun s g => countEdges s lo hi g) s = { s with regs := (l.foldl (fun s g => countEdges s lo hi g) s).regs } :=
  foldl_regs _ (fun s g => countEdges_frame s lo hi g) l s

@[simp] theorem pod_countAll (s : State) (lo hi g : Nat) (l : List Nat) :
    pod (l.foldl (fun s g => countEdges s lo hi g) s) g = pod s g := by
  rw [countAll_frame]; rfl

@[simp] theorem part_countAll (s : State) (lo hi p : Nat) (l : List Nat) :
    part (l.foldl (fun s g => countEdges s lo hi g) s) p = part s p := by
  rw [countAll_frame]; rfl

@[simp] theorem pod_reachHc (s : State) (n h g : Nat) : pod (reachHc s n h) g = pod s g := by
  unfold reachHc
  dsimp only
  split <;> simp

@[simp] theorem part_reachHc (s : State) (n h p : Nat) : part (reachHc s n h) p = part s p := by
  unfold reachHc
  dsimp only
  split <;> simp

theorem gen_reachHc (s : State) (n h : Nat) : gen (reachHc s n h) n =
    if (gen s n).hc < h then slowed s n h (passEdges (gen s n) (h - (gen s n).hc)) else gen s n := by
  unfold reachHc
  dsimp only
  split <;> simp

@[simp] theorem running_reachHc (s : State) (n h : Nat) : running (reachHc s n h) n = running s n := by
  unfold running
  rw [gen_reachHc]
  split
  · have hs : ∀ y, (slowed s n h y).st = y.st ∧ (slowed s n h y).faulted = y.faulted := by
      intro y
      unfold slowed
      dsimp only
      split
      · split <;> exact ⟨rfl, rfl⟩
      · exact ⟨rfl, rfl⟩
    rw [(hs _).1, (hs _).2]
    unfold passEdges
    dsimp only
    split <;> rfl
  · rfl

@[simp] theorem running_modPod (s : State) (g n : Nat) (f : Pod → Pod) : running (modPod s g f) n = running s n := by
  simp [running]

/-- The clock still runs when a launch has been noted. -/
theorem Ready.running {s : State} {g n t w unit op res u : Nat} (r : Ready s g n t w unit op res) :
    running (launched s g n t u) n = true := by
  unfold launched atLaunch
  rw [running_modPod, running_modGen _ _ _ rfl rfl, running_reachHc]
  exact r.runs

theorem Ready.canLaunch {s : State} {g n t w unit op res u : Nat} (r : Ready s g n t w unit op res) (h : Nat) :
    canLaunch (launched s g n t u) n h = true := running_canLaunch r.running

end Sys2Proof.Machine
end

