-- ==== Sys2Proof/Laws/Access.lean ====
section
/-! SUPPORT. Which register writes pass the gate of rights and reach, by block. -/

namespace Sys2Proof.Machine

open Sys2Proof

/-- A register of a die that is up answers a requester that reaches the die: its own, the management path, or across a
bridge that runs. -/
theorem die_go {s : State} {r : Requester} {a d : Nat} (hd : d < 2) (act : State → State) (hup : dieUp s d = true)
    (hr : d = entryDie r ∨ r = .mgmt ∨ bridgeUp s = true) (h : dieBase d ≤ a ∧ a < dieBase d + 0x1000000)
    (hm : mayWrite r a = true) : gate s r a act = act s := by
  apply gate_go _ _ hm
  unfold dieBase at h
  have h1 : isAlwaysOn a = false := by unfold isAlwaysOn modBase; simp only [decide_eq_false_iff_not]; omega
  have h2 : isModReg a = false := by unfold isModReg modBase; simp only [decide_eq_false_iff_not]; omega
  have h3 : isPodReg a = false := by unfold isPodReg podBase; simp only [decide_eq_false_iff_not]; omega
  have h4 : isDieReg a = true := by
    have k1 : dieBase 0 ≤ a := by unfold dieBase; omega
    have k2 : a < dieBase 2 := by unfold dieBase; omega
    unfold isDieReg; exact decide_eq_true ⟨k1, k2⟩
  have h5 : dieOfReg a = d := by unfold dieOfReg dieBase; simp only [h3, h4, Bool.false_eq_true, if_false, if_true]; omega
  unfold canReach reachable
  rcases hr with hr | hr | hr
  · simp [h1, h2, h5, hup, ← hr]
  · simp [h1, h2, h5, hup, hr]
  · simp [h1, h2, h5, hup, hr]

/-- Every requester may write a die's registers, but for the link and power blocks. -/
theorem mayDie {r : Requester} {a d : Nat} (hd : d < 2) (h : dieBase d ≤ a ∧ a < dieBase d + 0x1000000)
   (hb : a / 0x100000 % 16 ≠ 4 ∧ a / 0x100000 % 16 ≠ 5) : mayWrite r a = true := by
  unfold dieBase at h
  have h2 : isModReg a = false := by unfold isModReg modBase; simp only [decide_eq_false_iff_not]; omega
  have h4 : isDieReg a = true := by
    have k1 : dieBase 0 ≤ a := by unfold dieBase; omega
    have k2 : a < dieBase 2 := by unfold dieBase; omega
    unfold isDieReg; exact decide_eq_true ⟨k1, k2⟩
  unfold mayWrite mgmtOnly
  have e1 : ¬ (apcReg 0x10000 ≤ a ∧ a < apcReg 0x20000) := by unfold apcReg modBase; omega
  have e2 : (a == wrdReg 8) = false := by rw [beq_eq_false_iff_ne]; unfold wrdReg modBase; omega
  have e3 : (a == wrdReg 0x20) = false := by rw [beq_eq_false_iff_ne]; unfold wrdReg modBase; omega
  have e4 : (a == wrdReg 0x24) = false := by rw [beq_eq_false_iff_ne]; unfold wrdReg modBase; omega
  have e5 : (a % 0x1000000 == 0x500004) = false := by rw [beq_eq_false_iff_ne]; omega
  have e6 : (a % 0x1000000 == 0x500008) = false := by rw [beq_eq_false_iff_ne]; omega
  have e7 : ¬ (0x410000 ≤ a % 0x1000000 ∧ a % 0x1000000 < 0x422000) := by omega
  simp only [h2, h4, e1, e2, e3, e4, e5, e6, e7, decide_false, Bool.false_eq_true, if_false, Bool.false_and, Bool.and_false, Bool.false_or]

/-- A register of a pod whose die is up answers, and takes writes, where the requester reaches the die. -/
theorem pod_go {s : State} {r : Requester} {g o : Nat} (hg : g < 256) (ho : o < 0x10000) (act : State → State)
    (hup : dieUp s (g / 128) = true) (hr : g / 128 = entryDie r ∨ r = .mgmt ∨ bridgeUp s = true) : gate s r (podReg g o) act = act s := by
  have ha : podReg g o = 0x010100000000 + g * 0x10000 + o := by unfold podReg podBase; omega
  have h1 : isAlwaysOn (podReg g o) = false := by unfold isAlwaysOn modBase; simp only [decide_eq_false_iff_not]; omega
  have h2 : isModReg (podReg g o) = false := by unfold isModReg modBase; simp only [decide_eq_false_iff_not]; omega
  have h3 : isPodReg (podReg g o) = true := by unfold isPodReg podBase; simp only [decide_eq_true_eq]; omega
  have h4 : isDieReg (podReg g o) = false := by unfold isDieReg dieBase; simp only [decide_eq_false_iff_not]; omega
  have h5 : dieOfReg (podReg g o) = g / 128 := by unfold dieOfReg podBase; simp only [h3, if_true]; omega
  apply gate_go
  · unfold canReach reachable
    rcases hr with hr | hr | hr
    · simp [h1, h2, h5, hup, ← hr]
    · simp [h1, h2, h5, hup, hr]
    · simp [h1, h2, h5, hup, hr]
  · unfold mayWrite mgmtOnly
    have e1 : ¬ (apcReg 0x10000 ≤ podReg g o ∧ podReg g o < apcReg 0x20000) := by unfold apcReg modBase; omega
    have e2 : (podReg g o == wrdReg 8) = false := by rw [beq_eq_false_iff_ne]; unfold wrdReg modBase; omega
    have e3 : (podReg g o == wrdReg 0x20) = false := by rw [beq_eq_false_iff_ne]; unfold wrdReg modBase; omega
    have e4 : (podReg g o == wrdReg 0x24) = false := by rw [beq_eq_false_iff_ne]; unfold wrdReg modBase; omega
    simp only [h2, h4, e1, e2, e3, e4, decide_false, Bool.false_eq_true, if_false, Bool.false_and, Bool.false_or]

/-- Masking leaves the fields that the mask covers. -/
theorem bits_and (v m lo n : Nat) (h : ∀ i < n, m.testBit (lo + i) = true) : bits (v &&& m) lo n = bits v lo n := by
  unfold bits; apply Nat.eq_of_testBit_eq; intro i
  simp only [Nat.testBit_mod_two_pow, Nat.testBit_shiftRight, Nat.testBit_and]
  by_cases hi : i < n
  · simp [h i hi]
  · simp [hi]

theorem bits_mod (v m lo n : Nat) (h : lo + n ≤ m) : bits (v % 2 ^ m) lo n = bits v lo n := by
  unfold bits; apply Nat.eq_of_testBit_eq; intro i
  simp only [Nat.testBit_mod_two_pow, Nat.testBit_shiftRight]
  by_cases hi : i < n
  · simp [hi]; intro _; omega
  · simp [hi]

end Sys2Proof.Machine
end

