-- ==== Sys2Proof/Laws/KeepsCore.lean ====
section
/-! SUPPORT. Frame laws, one per operation: the command queue and the fuse array are as they were, for the shared operations, the channel words, the burin, the links and lanes. -/

namespace Sys2Proof.Machine

open Sys2Proof

set_option linter.all false
set_option Elab.async false


/-- The queue and the fuse array are as they were. -/
def Keeps (s t : State) : Prop := t.pending = s.pending ∧ t.sec.fuses = s.sec.fuses

theorem Keeps.refl (s : State) : Keeps s s := ⟨rfl, rfl⟩

theorem Keeps.trans {s t u : State} (h : Keeps s t) (k : Keeps t u) : Keeps s u :=
  ⟨k.1.trans h.1, k.2.trans h.2⟩

theorem Keeps.foldl {α : Type} (f : State → α → State) (l : List α) (s : State) (h : ∀ s x, Keeps s (f s x)) :
    Keeps s (l.foldl f s) := by
  induction l generalizing s with
  | nil => exact Keeps.refl s
  | cons a t ih => exact Keeps.trans (h s a) (ih (f s a))

theorem foldl_pending {α : Type} (f : State → α → State) (l : List α) (s : State) (h : ∀ s x, (f s x).pending = s.pending) :
    (l.foldl f s).pending = s.pending := by
  induction l generalizing s with
  | nil => rfl
  | cons a t ih => exact (ih (f s a)).trans (h s a)

theorem foldNat_pending (n : Nat) (f : Nat → State → State) (s : State) (h : ∀ k s, (f k s).pending = s.pending) :
    (foldNat n f s).pending = s.pending := by
  induction n with
  | zero => rfl
  | succ n ih => exact (h n _).trans ih

theorem foldPair_pending {α β : Type} (f : State × β → α → State × β) (l : List α) (x : State × β)
    (h : ∀ x a, (f x a).1.pending = x.1.pending) : (l.foldl f x).1.pending = x.1.pending := by
  induction l generalizing x with
  | nil => rfl
  | cons a t ih => exact (ih (f x a)).trans (h x a)

theorem foldl_fuses {α : Type} (f : State → α → State) (l : List α) (s : State) (h : ∀ s x, (f s x).sec.fuses = s.sec.fuses) :
    (l.foldl f s).sec.fuses = s.sec.fuses := by
  induction l generalizing s with
  | nil => rfl
  | cons a t ih => exact (ih (f s a)).trans (h s a)

theorem foldNat_fuses (n : Nat) (f : Nat → State → State) (s : State) (h : ∀ k s, (f k s).sec.fuses = s.sec.fuses) :
    (foldNat n f s).sec.fuses = s.sec.fuses := by
  induction n with
  | zero => rfl
  | succ n ih => exact (h n _).trans ih

theorem foldPair_fuses {α β : Type} (f : State × β → α → State × β) (l : List α) (x : State × β)
    (h : ∀ x a, (f x a).1.sec.fuses = x.1.sec.fuses) : (l.foldl f x).1.sec.fuses = x.1.sec.fuses := by
  induction l generalizing x with
  | nil => rfl
  | cons a t ih => exact (ih (f x a)).trans (h x a)

@[simp] theorem wr_keeps (s : State) (a v : Nat) :
    (wr s a v).pending = s.pending ∧
    (wr s a v).sec.fuses = s.sec.fuses := by
  simp only [wr, apply_ite State.pending, apply_ite State.sec, apply_ite Sec.fuses, ite_self, and_self]

@[simp] theorem setBits_keeps (s : State) (a m : Nat) :
    (setBits s a m).pending = s.pending ∧
    (setBits s a m).sec.fuses = s.sec.fuses := by
  simp only [setBits, wr_keeps, and_self]

@[simp] theorem clrBits_keeps (s : State) (a m : Nat) :
    (clrBits s a m).pending = s.pending ∧
    (clrBits s a m).sec.fuses = s.sec.fuses := by
  simp only [clrBits, wr_keeps, and_self]

@[simp] theorem bump_keeps (s : State) (a n : Nat) :
    (bump s a n).pending = s.pending ∧
    (bump s a n).sec.fuses = s.sec.fuses := by
  simp only [bump, setBits_keeps, wr_keeps, apply_ite State.pending, apply_ite State.sec, apply_ite Sec.fuses, ite_self, and_self]

@[simp] theorem dropRegs_keeps (s : State) (lo hi : Nat) (keep : Nat → Bool) :
    (dropRegs s lo hi keep).pending = s.pending ∧
    (dropRegs s lo hi keep).sec.fuses = s.sec.fuses := by
  simp only [dropRegs, and_self]

@[simp] theorem setPod_keeps (s : State) (g : Nat) (p : Pod) :
    (setPod s g p).pending = s.pending ∧
    (setPod s g p).sec.fuses = s.sec.fuses := by
  simp only [setPod, and_self]

@[simp] theorem modPod_keeps (s : State) (g : Nat) (f : Pod → Pod) :
    (modPod s g f).pending = s.pending ∧
    (modPod s g f).sec.fuses = s.sec.fuses := by
  simp only [modPod, setPod_keeps, and_self]

@[simp] theorem setGen_keeps (s : State) (n : Nat) (x : Gen) :
    (setGen s n x).pending = s.pending ∧
    (setGen s n x).sec.fuses = s.sec.fuses := by
  simp only [setGen, and_self]

@[simp] theorem modGen_keeps (s : State) (n : Nat) (f : Gen → Gen) :
    (modGen s n f).pending = s.pending ∧
    (modGen s n f).sec.fuses = s.sec.fuses := by
  simp only [modGen, setGen_keeps, and_self]

@[simp] theorem setPart_keeps (s : State) (p : Nat) (x : Part) :
    (setPart s p x).pending = s.pending ∧
    (setPart s p x).sec.fuses = s.sec.fuses := by
  simp only [setPart, and_self]

@[simp] theorem modPart_keeps (s : State) (p : Nat) (f : Part → Part) :
    (modPart s p f).pending = s.pending ∧
    (modPart s p f).sec.fuses = s.sec.fuses := by
  simp only [modPart, setPart_keeps, and_self]

@[simp] theorem setStk_keeps (s : State) (st : Nat) (x : Stack) :
    (setStk s st x).pending = s.pending ∧
    (setStk s st x).sec.fuses = s.sec.fuses := by
  simp only [setStk, and_self]

@[simp] theorem modStk_keeps (s : State) (st : Nat) (f : Stack → Stack) :
    (modStk s st f).pending = s.pending ∧
    (modStk s st f).sec.fuses = s.sec.fuses := by
  simp only [modStk, setStk_keeps, and_self]

@[simp] theorem setChan_keeps (s : State) (st c : Nat) (x : Chan) :
    (setChan s st c x).pending = s.pending ∧
    (setChan s st c x).sec.fuses = s.sec.fuses := by
  simp only [setChan, and_self]

@[simp] theorem modChan_keeps (s : State) (st c : Nat) (f : Chan → Chan) :
    (modChan s st c f).pending = s.pending ∧
    (modChan s st c f).sec.fuses = s.sec.fuses := by
  simp only [modChan, setChan_keeps, and_self]

@[simp] theorem setCopy_keeps (s : State) (d n : Nat) (x : CopyChan) :
    (setCopy s d n x).pending = s.pending ∧
    (setCopy s d n x).sec.fuses = s.sec.fuses := by
  simp only [setCopy, and_self]

@[simp] theorem modCopy_keeps (s : State) (d n : Nat) (f : CopyChan → CopyChan) :
    (modCopy s d n f).pending = s.pending ∧
    (modCopy s d n f).sec.fuses = s.sec.fuses := by
  simp only [modCopy, setCopy_keeps, and_self]

@[simp] theorem modSec_keeps (s : State) (f : Sec → Sec) :
    (modSec s f).pending = s.pending := by
  simp only [modSec, and_self]

@[simp] theorem modSec_fuses (s : State) (f : Sec → Sec) : (modSec s f).sec.fuses = (f s.sec).fuses := rfl

@[simp] theorem logEv_keeps (s : State) (origin code part a0 a1 : Nat) (fatal : Bool) :
    (logEv s origin code part a0 a1 fatal).pending = s.pending ∧
    (logEv s origin code part a0 a1 fatal).sec.fuses = s.sec.fuses := by
  simp only [logEv]
  repeat' split
  all_goals simp only [*, bump_keeps, apply_ite State.pending, apply_ite State.sec, apply_ite Sec.fuses, ite_self, and_self]

@[simp] theorem countOps_keeps (s : State) (d p cls t n : Nat) :
    (countOps s d p cls t n).pending = s.pending ∧
    (countOps s d p cls t n).sec.fuses = s.sec.fuses := by
  simp only [countOps, apply_ite State.pending, apply_ite State.sec, apply_ite Sec.fuses, ite_self, and_self]

@[simp] theorem emit_keeps (s : State) (o : Output) :
    (emit s o).pending = s.pending ∧
    (emit s o).sec.fuses = s.sec.fuses := by
  simp only [emit, and_self]

@[simp] theorem nextFree_keeps (s : State) :
    (nextFree s).pending = s.pending ∧
    (nextFree s).sec.fuses = s.sec.fuses := by
  simp [nextFree]

@[simp] theorem pickOf_keeps (s : State) (vals : List Nat) :
    (pickOf s vals).1.pending = s.pending ∧
    (pickOf s vals).1.sec.fuses = s.sec.fuses := by
  simp only [pickOf]
  repeat' split
  all_goals simp only [*, nextFree_keeps, and_self]

@[simp] theorem touchCopies_keeps (s : State) (d n a k : Nat) :
    (touchCopies s d n a k).pending = s.pending ∧
    (touchCopies s d n a k).sec.fuses = s.sec.fuses := by
  simp only [touchCopies, apply_ite State.pending, apply_ite State.sec, apply_ite Sec.fuses, ite_self, and_self]

@[simp] theorem touchUpes_keeps (s : State) (a k : Nat) :
    (touchUpes s a k).pending = s.pending ∧
    (touchUpes s a k).sec.fuses = s.sec.fuses := by
  simp only [touchUpes, apply_ite State.pending, apply_ite State.sec, apply_ite Sec.fuses, ite_self, and_self]

@[simp] theorem touchOthers_keeps (s : State) (d n a k : Nat) :
    (touchOthers s d n a k).pending = s.pending ∧
    (touchOthers s d n a k).sec.fuses = s.sec.fuses := by
  simp only [touchOthers, touchUpes_keeps, touchCopies_keeps, and_self]

@[simp] theorem touchAll_keeps (s : State) (a k : Nat) :
    (touchAll s a k).pending = s.pending ∧
    (touchAll s a k).sec.fuses = s.sec.fuses := by
  simp only [touchAll, touchUpes_keeps, touchCopies_keeps, apply_ite State.pending, apply_ite State.sec, apply_ite Sec.fuses, ite_self, and_self]

@[simp] theorem rcRead_keeps (s : State) (a : Nat) (half : Half) (v : Nat) :
    (rcRead s a half v).1.pending = s.pending ∧
    (rcRead s a half v).1.sec.fuses = s.sec.fuses := by
  simp only [rcRead]
  repeat' split
  all_goals simp only [*, and_self]

@[simp] theorem setRange_keeps (s : State) (i : Nat) (r : Range) :
    (setRange s i r).pending = s.pending ∧
    (setRange s i r).sec.fuses = s.sec.fuses := by
  simp only [setRange, and_self]

@[simp] theorem countDesc_keeps (s : State) (e : DescE) (up : Bool) :
    (countDesc s e up).pending = s.pending ∧
    (countDesc s e up).sec.fuses = s.sec.fuses := by
  simp only [countDesc]
  repeat' split
  all_goals simp only [*, setRange_keeps, apply_ite State.pending, apply_ite State.sec, apply_ite Sec.fuses, ite_self, and_self]

@[simp] theorem noteGranule_keeps (s : State) (l : Loc) :
    (noteGranule s l).pending = s.pending ∧
    (noteGranule s l).sec.fuses = s.sec.fuses := by
  simp only [noteGranule, setChan_keeps, apply_ite State.pending, apply_ite State.sec, apply_ite Sec.fuses, ite_self, and_self]

@[simp] theorem putGranule_keeps (s : State) (l : Loc) (data ovl : Nat) :
    (putGranule s l data ovl).pending = s.pending ∧
    (putGranule s l data ovl).sec.fuses = s.sec.fuses := by
  simp only [putGranule, noteGranule_keeps, apply_ite State.pending, apply_ite State.sec, apply_ite Sec.fuses, ite_self, and_self]

@[simp] theorem poisonGranule_keeps (s : State) (l : Loc) :
    (poisonGranule s l).pending = s.pending ∧
    (poisonGranule s l).sec.fuses = s.sec.fuses := by
  simp only [poisonGranule, putGranule_keeps, and_self]

@[simp] theorem bucketAdd_keeps (s : State) (st : Nat) :
    (bucketAdd s st).pending = s.pending ∧
    (bucketAdd s st).sec.fuses = s.sec.fuses := by
  simp only [bucketAdd, setStk_keeps, bump_keeps, setBits_keeps, logEv_keeps, apply_ite State.pending, apply_ite State.sec, apply_ite Sec.fuses, ite_self, and_self]

@[simp] theorem pinAdd_keeps (s : State) (st c : Nat) (syms : List (Nat × Nat)) :
    (pinAdd s st c syms).pending = s.pending ∧
    (pinAdd s st c syms).sec.fuses = s.sec.fuses := by
  simp only [pinAdd, modChan_keeps, foldl_pending, foldl_fuses, and_self]

@[simp] theorem noteCorrected_keeps (s : State) (l : Loc) (reader : Nat) (syms : List (Nat × Nat)) :
    (noteCorrected s l reader syms).pending = s.pending ∧
    (noteCorrected s l reader syms).sec.fuses = s.sec.fuses := by
  simp only [noteCorrected, wr_keeps, bump_keeps, bucketAdd_keeps, pinAdd_keeps, and_self]

@[simp] theorem reportSlab_keeps (s : State) (st slab : Nat) :
    (reportSlab s st slab).pending = s.pending ∧
    (reportSlab s st slab).sec.fuses = s.sec.fuses := by
  simp only [reportSlab, setBits_keeps, logEv_keeps, and_self]

@[simp] theorem strike_keeps (s : State) (l : Loc) :
    (strike s l).pending = s.pending ∧
    (strike s l).sec.fuses = s.sec.fuses := by
  simp only [strike]
  repeat' split
  all_goals simp only [*, reportSlab_keeps, pickOf_keeps, wr_keeps, modChan_keeps, apply_ite State.pending, apply_ite State.sec, apply_ite Sec.fuses, ite_self, and_self]

@[simp] theorem noteUncorrectable_keeps (s : State) (l : Loc) (reader part : Nat) (poisoned : Bool) :
    (noteUncorrectable s l reader part poisoned).pending = s.pending ∧
    (noteUncorrectable s l reader part poisoned).sec.fuses = s.sec.fuses := by
  simp only [noteUncorrectable, wr_keeps, bump_keeps, logEv_keeps, setBits_keeps, strike_keeps, apply_ite State.pending, apply_ite State.sec, apply_ite Sec.fuses, ite_self, and_self]

@[simp] theorem noteRead_keeps (s : State) (l : Loc) (reader part ovl : Nat) :
    (noteRead s l reader part ovl).pending = s.pending ∧
    (noteRead s l reader part ovl).sec.fuses = s.sec.fuses := by
  simp only [noteRead]
  repeat' split
  all_goals simp only [*, noteCorrected_keeps, noteUncorrectable_keeps, and_self]

@[simp] theorem notePodBad_keeps (s : State) (g part val : Nat) :
    (notePodBad s g part val).pending = s.pending ∧
    (notePodBad s g part val).sec.fuses = s.sec.fuses := by
  simp only [notePodBad, setBits_keeps, bump_keeps, logEv_keeps, and_self]

@[simp] theorem notePodCorrected_keeps (s : State) (g sym : Nat) (reader : optParam Nat 0) :
    (notePodCorrected s g sym reader).pending = s.pending ∧
    (notePodCorrected s g sym reader).sec.fuses = s.sec.fuses := by
  simp only [notePodCorrected, wr_keeps, bump_keeps, nextFree_keeps, bucketAdd_keeps, and_self]

theorem corrected_keeps (g r : Nat) (z : State) (e : Nat × Nat) : Keeps z (notePodCorrected z g e.1 r) :=
  notePodCorrected_keeps z g e.1 r

@[simp] theorem openRow_keeps (s : State) (st c bank row : Nat) :
    (openRow s st c bank row).pending = s.pending ∧
    (openRow s st c bank row).sec.fuses = s.sec.fuses := by
  simp only [openRow, setChan_keeps, apply_ite State.pending, apply_ite State.sec, apply_ite Sec.fuses, ite_self, and_self]

@[simp] theorem touchRow_keeps (s : State) (st c bank row : Nat) :
    (touchRow s st c bank row).pending = s.pending ∧
    (touchRow s st c bank row).sec.fuses = s.sec.fuses := by
  simp only [touchRow]
  repeat' split
  all_goals simp only [*, openRow_keeps, apply_ite State.pending, apply_ite State.sec, apply_ite Sec.fuses, ite_self, and_self]

@[simp] theorem accessed_keeps (s : State) (l : Loc) (wr : Bool) :
    (accessed s l wr).pending = s.pending ∧
    (accessed s l wr).sec.fuses = s.sec.fuses := by
  simp only [accessed, wr_keeps, bump_keeps, touchRow_keeps, apply_ite State.pending, apply_ite State.sec, apply_ite Sec.fuses, ite_self, and_self]

@[simp] theorem flipService_keeps (s : State) (l : Loc) :
    (flipService s l).1.pending = s.pending ∧
    (flipService s l).1.sec.fuses = s.sec.fuses := by
  simp only [flipService]
  repeat' split
  all_goals simp only [*, setBits_keeps, wr_keeps, apply_ite State.pending, apply_ite State.sec, apply_ite Sec.fuses, ite_self, and_self]

@[simp] theorem takeFlip_keeps (s : State) (l : Loc) :
    (takeFlip s l).pending = s.pending ∧
    (takeFlip s l).sec.fuses = s.sec.fuses := by
  simp only [takeFlip, flipService_keeps, putGranule_keeps, apply_ite State.pending, apply_ite State.sec, apply_ite Sec.fuses, ite_self, and_self]

@[simp] theorem memWriteIn_keeps (s : State) (a n v part : Nat) :
    (memWriteIn s a n v part).pending = s.pending ∧
    (memWriteIn s a n v part).sec.fuses = s.sec.fuses := by
  simp only [memWriteIn]
  repeat' split
  all_goals simp only [*, putGranule_keeps, accessed_keeps, noteRead_keeps, apply_ite State.pending, apply_ite State.sec, apply_ite Sec.fuses, ite_self, and_self]

@[simp] theorem memWriteGo_keeps (x0 : Nat) (x1 : State) (x2 x3 x4 x5 : Nat) :
    (memWriteGo x0 x1 x2 x3 x4 x5).pending = x1.pending ∧
    (memWriteGo x0 x1 x2 x3 x4 x5).sec.fuses = x1.sec.fuses := by
  induction x0 generalizing x1 x2 x3 x4 with
  | zero => exact ⟨rfl, rfl⟩
  | succ k ih =>
    simp only [memWriteGo]
    split
    · exact ⟨rfl, rfl⟩
    · simp only [ih, memWriteIn_keeps, and_self]

@[simp] theorem memWrite_keeps (s : State) (a n v part : Nat) :
    (memWrite s a n v part).pending = s.pending ∧
    (memWrite s a n v part).sec.fuses = s.sec.fuses := by
  simp only [memWrite, memWriteGo_keeps, and_self]

@[simp] theorem memNote_keeps (s : State) (a n reader part : Nat) :
    (memNote s a n reader part).pending = s.pending ∧
    (memNote s a n reader part).sec.fuses = s.sec.fuses := by
  simp only [memNote]
  refine ⟨?_, ?_⟩ <;> repeat' first
    | (split <;> rename_i e <;> try (replace e := congrArg (fun x => (x.1.pending, x.1.sec.fuses)) e; simp only [Prod.mk.injEq, noteRead_keeps, accessed_keeps] at e))
    | (with_reducible refine (foldl_pending _ _ _ fun _ _ => ?_).trans ?_)
    | (with_reducible refine (foldl_fuses _ _ _ fun _ _ => ?_).trans ?_)
    | simp only [*, noteRead_keeps, accessed_keeps, and_self]

@[simp] theorem sampleAdd_keeps (s : State) (d i k : Nat) :
    (sampleAdd s d i k).pending = s.pending ∧
    (sampleAdd s d i k).sec.fuses = s.sec.fuses := by
  simp only [sampleAdd, wr_keeps, apply_ite State.pending, apply_ite State.sec, apply_ite Sec.fuses, ite_self, and_self]

@[simp] theorem sample_keeps (s : State) (n ev k : Nat) :
    (sample s n ev k).pending = s.pending ∧
    (sample s n ev k).sec.fuses = s.sec.fuses := by
  simp only [sample]
  refine ⟨?_, ?_⟩ <;> repeat' first
    | (split <;> rename_i e <;> try (replace e := congrArg (fun x => (x.1.pending, x.1.sec.fuses)) e; simp only [Prod.mk.injEq, sampleAdd_keeps] at e))
    | (with_reducible refine (foldNat_pending _ _ _ fun _ _ => ?_).trans ?_)
    | (with_reducible refine (foldNat_fuses _ _ _ fun _ _ => ?_).trans ?_)
    | simp only [*, sampleAdd_keeps, apply_ite State.pending, apply_ite State.sec, apply_ite Sec.fuses, ite_self, and_self]

@[simp] theorem countEdges_keeps (s : State) (lo hi g : Nat) :
    (countEdges s lo hi g).pending = s.pending ∧
    (countEdges s lo hi g).sec.fuses = s.sec.fuses := by
  simp [countEdges, apply_ite State.pending, apply_ite State.sec, apply_ite Sec.fuses]

@[simp] theorem reachHc_keeps (s : State) (n h : Nat) :
    (reachHc s n h).pending = s.pending ∧
    (reachHc s n h).sec.fuses = s.sec.fuses := by
  simp only [reachHc]
  refine ⟨?_, ?_⟩ <;> repeat' first
    | (split <;> rename_i e <;> try (replace e := congrArg (fun x => (x.1.pending, x.1.sec.fuses)) e; simp only [Prod.mk.injEq, countEdges_keeps, sample_keeps, setGen_keeps] at e))
    | (with_reducible refine (foldl_pending _ _ _ fun _ _ => ?_).trans ?_)
    | (with_reducible refine (foldl_fuses _ _ _ fun _ _ => ?_).trans ?_)
    | simp only [*, countEdges_keeps, sample_keeps, setGen_keeps, apply_ite State.pending, apply_ite State.sec, apply_ite Sec.fuses, ite_self, and_self]

@[simp] theorem requestReset_keeps (s : State) (p : Nat) (r : ResetReq) :
    (requestReset s p r).pending = s.pending ∧
    (requestReset s p r).sec.fuses = s.sec.fuses := by
  simp only [requestReset, modPart_keeps, and_self]

@[simp] theorem stopClock_keeps (s : State) (n h : Nat) (late : Bool) :
    (stopClock s n h late).pending = s.pending ∧
    (stopClock s n h late).sec.fuses = s.sec.fuses := by
  simp only [stopClock]
  refine ⟨?_, ?_⟩ <;> repeat' first
    | (split <;> rename_i e <;> try (replace e := congrArg (fun x => (x.1.pending, x.1.sec.fuses)) e; simp only [Prod.mk.injEq, modPod_keeps, modGen_keeps, reachHc_keeps] at e))
    | (with_reducible refine (foldl_pending _ _ _ fun _ _ => ?_).trans ?_)
    | (with_reducible refine (foldl_fuses _ _ _ fun _ _ => ?_).trans ?_)
    | simp only [*, modPod_keeps, modGen_keeps, reachHc_keeps, apply_ite State.pending, apply_ite State.sec, apply_ite Sec.fuses, ite_self, and_self]

@[simp] theorem recordFault_keeps (s : State) (reg v : Nat) :
    (recordFault s reg v).pending = s.pending ∧
    (recordFault s reg v).sec.fuses = s.sec.fuses := by
  simp only [recordFault, wr_keeps, apply_ite State.pending, apply_ite State.sec, apply_ite Sec.fuses, ite_self, and_self]

@[simp] theorem unitFault_keeps (s : State) (n g h reg : Nat) (vals : List Nat) (unit : Nat) :
    (unitFault s n g h reg vals unit).pending = s.pending ∧
    (unitFault s n g h reg vals unit).sec.fuses = s.sec.fuses := by
  simp only [unitFault, pickOf_keeps, stopClock_keeps, recordFault_keeps, requestReset_keeps, and_self]

@[simp] theorem noteStoreFault_keeps (s : State) (g code : Nat) :
    (noteStoreFault s g code).pending = s.pending ∧
    (noteStoreFault s g code).sec.fuses = s.sec.fuses := by
  simp only [noteStoreFault, modSec_keeps, modSec_fuses, apply_ite State.pending, apply_ite State.sec, apply_ite Sec.fuses, ite_self, and_self]

@[simp] theorem eccFault_keeps (s : State) (n g h : Nat) (vals : List Nat) :
    (eccFault s n g h vals).pending = s.pending ∧
    (eccFault s n g h vals).sec.fuses = s.sec.fuses := by
  simp only [eccFault, pickOf_keeps, noteStoreFault_keeps, unitFault_keeps, notePodBad_keeps, and_self]

@[simp] theorem noteStore_keeps (s : State) (g o : Nat) :
    (noteStore s g o).pending = s.pending ∧
    (noteStore s g o).sec.fuses = s.sec.fuses := by
  simp only [noteStore]
  repeat' split
  all_goals simp only [*, notePodCorrected_keeps, and_self]

@[simp] theorem strokeFault_keeps (s : State) (n g h code idx : Nat) :
    (strokeFault s n g h code idx).pending = s.pending ∧
    (strokeFault s n g h code idx).sec.fuses = s.sec.fuses := by
  simp only [strokeFault]
  refine ⟨?_, ?_⟩ <;> repeat' first
    | (split <;> rename_i e <;> try (replace e := congrArg (fun x => (x.1.pending, x.1.sec.fuses)) e; simp only [Prod.mk.injEq, stopClock_keeps, recordFault_keeps, requestReset_keeps] at e))
    | (with_reducible refine (foldl_pending _ _ _ fun _ _ => ?_).trans ?_)
    | (with_reducible refine (foldl_fuses _ _ _ fun _ _ => ?_).trans ?_)
    | simp only [*, stopClock_keeps, recordFault_keeps, requestReset_keeps, and_self]

@[simp] theorem flushCe_keeps (s : State) (g : Nat) (reader : optParam Nat 0) :
    (flushCe s g reader).pending = s.pending ∧
    (flushCe s g reader).sec.fuses = s.sec.fuses := by
  change Keeps s (flushCe s g reader)
  unfold flushCe
  extract_lets l
  split
  · exact Keeps.refl s
  · exact Keeps.trans (modPod_keeps s g _) (Keeps.foldl _ _ _ (corrected_keeps g reader))

@[simp] theorem advanceReads_keeps (s : State) (n h : Nat) :
    (advanceReads s n h).pending = s.pending ∧
    (advanceReads s n h).sec.fuses = s.sec.fuses := by
  simp only [advanceReads]
  refine ⟨?_, ?_⟩ <;> repeat' first
    | (split <;> rename_i e <;> try (replace e := congrArg (fun x => (x.1.pending, x.1.sec.fuses)) e; simp only [Prod.mk.injEq, flushCe_keeps, setPod_keeps, eccFault_keeps, unitFault_keeps] at e))
    | (with_reducible refine (foldl_pending _ _ _ fun _ _ => ?_).trans ?_)
    | (with_reducible refine (foldl_fuses _ _ _ fun _ _ => ?_).trans ?_)
    | simp only [*, flushCe_keeps, setPod_keeps, eccFault_keeps, unitFault_keeps, apply_ite State.pending, apply_ite State.sec, apply_ite Sec.fuses, ite_self, and_self]

@[simp] theorem freshSpads_keeps (s : State) :
    (freshSpads s).pending = s.pending ∧
    (freshSpads s).sec.fuses = s.sec.fuses := by
  simp only [freshSpads]
  refine ⟨?_, ?_⟩ <;> repeat' first
    | (split <;> rename_i e <;> try (replace e := congrArg (fun x => (x.1.pending, x.1.sec.fuses)) e; simp only [Prod.mk.injEq, modPod_keeps] at e))
    | (with_reducible refine (foldl_pending _ _ _ fun _ _ => ?_).trans ?_)
    | (with_reducible refine (foldl_fuses _ _ _ fun _ _ => ?_).trans ?_)
    | simp only [*, modPod_keeps, and_self]

@[simp] theorem hold_keeps (s : State) (n h cause : Nat) :
    (hold s n h cause).pending = s.pending ∧
    (hold s n h cause).sec.fuses = s.sec.fuses := by
  simp only [hold, modGen_keeps, reachHc_keeps, apply_ite State.pending, apply_ite State.sec, apply_ite Sec.fuses, ite_self, and_self]

@[simp] theorem advance_keeps (s : State) (n h : Nat) :
    (advance s n h).pending = s.pending ∧
    (advance s n h).sec.fuses = s.sec.fuses := by
  simp only [advance]
  repeat' split
  all_goals simp only [*, advanceReads_keeps, hold_keeps, apply_ite State.pending, apply_ite State.sec, apply_ite Sec.fuses, ite_self, and_self]

@[simp] theorem arrive_keeps (s : State) (n h : Nat) :
    (arrive s n h).pending = s.pending ∧
    (arrive s n h).sec.fuses = s.sec.fuses := by
  simp only [arrive]
  refine ⟨?_, ?_⟩ <;> repeat' first
    | (split <;> rename_i e <;> try (replace e := congrArg (fun x => (x.1.pending, x.1.sec.fuses)) e; simp only [Prod.mk.injEq, advance_keeps, modPod_keeps] at e))
    | (with_reducible refine (foldl_pending _ _ _ fun _ _ => ?_).trans ?_)
    | (with_reducible refine (foldl_fuses _ _ _ fun _ _ => ?_).trans ?_)
    | simp only [*, advance_keeps, modPod_keeps, apply_ite State.pending, apply_ite State.sec, apply_ite Sec.fuses, ite_self, and_self]

@[simp] theorem tryResume_keeps (s : State) (n : Nat) :
    (tryResume s n).pending = s.pending ∧
    (tryResume s n).sec.fuses = s.sec.fuses := by
  simp only [tryResume, setGen_keeps, apply_ite State.pending, apply_ite State.sec, apply_ite Sec.fuses, ite_self, and_self]

@[simp] theorem poisonUnit_keeps (s : State) (a : Nat) :
    (poisonUnit s a).pending = s.pending ∧
    (poisonUnit s a).sec.fuses = s.sec.fuses := by
  simp only [poisonUnit]
  repeat' split
  all_goals simp only [*, poisonGranule_keeps, modPod_keeps, apply_ite State.pending, apply_ite State.sec, apply_ite Sec.fuses, ite_self, and_self]

@[simp] theorem noteUnit_keeps (s : State) (a part : Nat) :
    (noteUnit s a part).1.pending = s.pending ∧
    (noteUnit s a part).1.sec.fuses = s.sec.fuses := by
  simp only [noteUnit]
  repeat' split
  all_goals simp only [*, noteRead_keeps, accessed_keeps, notePodCorrected_keeps, notePodBad_keeps, apply_ite State.pending, apply_ite State.sec, apply_ite Sec.fuses, ite_self, and_self]

@[simp] theorem noteMerge_keeps (s : State) (a part : Nat) :
    (noteMerge s a part).pending = s.pending ∧
    (noteMerge s a part).sec.fuses = s.sec.fuses := by
  simp only [noteMerge]
  repeat' split
  all_goals simp only [*, noteRead_keeps, accessed_keeps, notePodCorrected_keeps, notePodBad_keeps, apply_ite State.pending, apply_ite State.sec, apply_ite Sec.fuses, ite_self, and_self]

@[simp] theorem carried_keeps (s : State) (l : Loc) (own : Nat → Bool) :
    (carried s l own).pending = s.pending ∧
    (carried s l own).sec.fuses = s.sec.fuses := by
  simp only [carried, takeFlip_keeps, apply_ite State.pending, apply_ite State.sec, apply_ite Sec.fuses, ite_self, and_self]

@[simp] theorem unitWrite_keeps (s : State) (a mask v part : Nat) (own : Nat → Bool) :
    (unitWrite s a mask v part own).pending = s.pending ∧
    (unitWrite s a mask v part own).sec.fuses = s.sec.fuses := by
  unfold unitWrite
  grind [carried_keeps, putGranule_keeps, accessed_keeps, noteMerge_keeps, modPod_keeps, foldNat_pending, foldNat_fuses]

theorem Keeps.foldPair {α β : Type} (f : State × β → α → State × β) (l : List α) (x : State × β)
    (h : ∀ x a, Keeps x.1 (f x a).1) : Keeps x.1 (l.foldl f x).1 := by
  induction l generalizing x with
  | nil => exact Keeps.refl x.1
  | cons a t ih => exact Keeps.trans (h x a) (ih (f x a))

theorem Keeps.unitWrite (s : State) (u m v p : Nat) (own : Nat → Bool) : Keeps s (unitWrite s u m v p own) :=
  unitWrite_keeps s u m v p own

theorem Keeps.poisonUnit (s : State) (u : Nat) : Keeps s (poisonUnit s u) := poisonUnit_keeps s u

theorem Keeps.noteUnit (s : State) (u p : Nat) : Keeps s (noteUnit s u p).1 := noteUnit_keeps s u p

@[simp] theorem blur_keeps (s : State) (touched : List (Nat × Nat)) (m : UnitMap) :
    (blur s touched m).1.pending = s.pending ∧
    (blur s touched m).1.sec.fuses = s.sec.fuses := by
  simp only [blur]
  refine ⟨?_, ?_⟩ <;> repeat' first
    | (split <;> rename_i e <;> try (replace e := congrArg (fun x => (x.1.pending, x.1.sec.fuses)) e; simp only [Prod.mk.injEq, nextFree_keeps] at e))
    | (with_reducible refine (foldl_pending _ _ _ fun _ _ => ?_).trans ?_)
    | (with_reducible refine (foldl_fuses _ _ _ fun _ _ => ?_).trans ?_)
    | (with_reducible refine (foldPair_pending _ _ _ fun _ _ => ?_).trans ?_)
    | (with_reducible refine (foldPair_fuses _ _ _ fun _ _ => ?_).trans ?_)
    | simp only [*, nextFree_keeps, apply_ite State.pending, apply_ite State.sec, apply_ite Sec.fuses, ite_self, and_self]

@[simp] theorem poisonDest_keeps (s : State) (j : CopyJob) :
    (poisonDest s j).pending = s.pending ∧
    (poisonDest s j).sec.fuses = s.sec.fuses := by
  simp only [poisonDest]
  refine ⟨?_, ?_⟩ <;> repeat' first
    | (split <;> rename_i e <;> try (replace e := congrArg (fun x => (x.1.pending, x.1.sec.fuses)) e; simp only [Prod.mk.injEq, poisonUnit_keeps] at e))
    | (with_reducible refine (foldl_pending _ _ _ fun _ _ => ?_).trans ?_)
    | (with_reducible refine (foldl_fuses _ _ _ fun _ _ => ?_).trans ?_)
    | simp only [*, poisonUnit_keeps, and_self]

@[simp] theorem violate_keeps (s : State) (a : Nat) :
    (violate s a).pending = s.pending ∧
    (violate s a).sec.fuses = s.sec.fuses := by
  simp only [violate, bump_keeps, apply_ite State.pending, apply_ite State.sec, apply_ite Sec.fuses, ite_self, and_self]

@[simp] theorem gate_keeps (s : State) (r : Requester) (a : Nat) (act : State → State) (hact_pending : ∀ z0, (act z0).pending = z0.pending) (hact_fuses : ∀ z0, (act z0).sec.fuses = z0.sec.fuses) :
    (gate s r a act).pending = s.pending ∧
    (gate s r a act).sec.fuses = s.sec.fuses := by
  simp only [gate]
  repeat' split
  all_goals simp only [*, emit_keeps, violate_keeps, apply_ite State.pending, apply_ite State.sec, apply_ite Sec.fuses, ite_self, and_self]

@[simp] theorem gateLocked_keeps (s : State) (r : Requester) (a : Nat) (act : State → State) (hact_pending : ∀ z0, (act z0).pending = z0.pending) (hact_fuses : ∀ z0, (act z0).sec.fuses = z0.sec.fuses) :
    (gateLocked s r a act).pending = s.pending ∧
    (gateLocked s r a act).sec.fuses = s.sec.fuses := by
  refine gate_keeps s r a _ (fun z => ?_) (fun z => ?_) <;> split <;>
    simp only [hact_pending, hact_fuses, violate_keeps]

@[simp] theorem setPort_keeps (s : State) (k : Nat) (x : Port) :
    (setPort s k x).pending = s.pending ∧
    (setPort s k x).sec.fuses = s.sec.fuses := by
  simp only [setPort, and_self]

@[simp] theorem modPort_keeps (s : State) (k : Nat) (f : Port → Port) :
    (modPort s k f).pending = s.pending ∧
    (modPort s k f).sec.fuses = s.sec.fuses := by
  simp only [modPort, setPort_keeps, and_self]

@[simp] theorem setPortState_keeps (s : State) (k st lanes reason version : Nat) :
    (setPortState s k st lanes reason version).pending = s.pending ∧
    (setPortState s k st lanes reason version).sec.fuses = s.sec.fuses := by
  simp only [setPortState, setBits_keeps, wr_keeps, apply_ite State.pending, apply_ite State.sec, apply_ite Sec.fuses, ite_self, and_self]

@[simp] theorem enterEthernet_keeps (s : State) :
    (enterEthernet s).pending = s.pending ∧
    (enterEthernet s).sec.fuses = s.sec.fuses := by
  simp [enterEthernet, apply_ite State.pending, apply_ite State.sec, apply_ite Sec.fuses]

@[simp] theorem oweUnits_keeps (s : State) (k vl units : Nat) :
    (oweUnits s k vl units).pending = s.pending ∧
    (oweUnits s k vl units).sec.fuses = s.sec.fuses := by
  simp only [oweUnits, modPort_keeps, and_self]

@[simp] theorem putWire_keeps (s : State) (k : Nat) (p : LinkPkt) :
    (putWire s k p).pending = s.pending ∧
    (putWire s k p).sec.fuses = s.sec.fuses := by
  simp only [putWire, emit_keeps, setPort_keeps, bump_keeps, and_self]

@[simp] theorem sendIdle_keeps (s : State) (k : Nat) :
    (sendIdle s k).pending = s.pending ∧
    (sendIdle s k).sec.fuses = s.sec.fuses := by
  simp only [sendIdle, putWire_keeps, nextFree_keeps, and_self]

@[simp] theorem drained_keeps (s : State) (k : Nat) :
    (drained s k).pending = s.pending ∧
    (drained s k).sec.fuses = s.sec.fuses := by
  simp only [drained, setPortState_keeps, setPort_keeps, apply_ite State.pending, apply_ite State.sec, apply_ite Sec.fuses, ite_self, and_self]

@[simp] theorem egressTurn_keeps (s : State) (k : Nat) :
    (egressTurn s k).pending = s.pending ∧
    (egressTurn s k).sec.fuses = s.sec.fuses := by
  simp only [egressTurn]
  repeat' split
  all_goals simp only [*, putWire_keeps, setPort_keeps, oweUnits_keeps, apply_ite State.pending, apply_ite State.sec, apply_ite Sec.fuses, ite_self, and_self]

@[simp] theorem idleTimer_keeps (s : State) (k : Nat) :
    (idleTimer s k).pending = s.pending ∧
    (idleTimer s k).sec.fuses = s.sec.fuses := by
  simp only [idleTimer, sendIdle_keeps, apply_ite State.pending, apply_ite State.sec, apply_ite Sec.fuses, ite_self, and_self]

@[simp] theorem originate_keeps (s : State) (d : Nat) (p : LinkPkt) :
    (originate s d p).1.pending = s.pending ∧
    (originate s d p).1.sec.fuses = s.sec.fuses := by
  simp only [originate]
  repeat' split
  all_goals simp only [*, modPort_keeps, apply_ite State.pending, apply_ite State.sec, apply_ite Sec.fuses, ite_self, and_self]

@[simp] theorem dropPacket_keeps (s : State) (d k typ : Nat) :
    (dropPacket s d k typ).pending = s.pending ∧
    (dropPacket s d k typ).sec.fuses = s.sec.fuses := by
  simp only [dropPacket, logEv_keeps, setBits_keeps, and_self]

@[simp] theorem sendSimple_keeps (s : State) (d typ vl dst body : Nat) :
    (sendSimple s d typ vl dst body).pending = s.pending ∧
    (sendSimple s d typ vl dst body).sec.fuses = s.sec.fuses := by
  simp only [sendSimple]
  refine ⟨?_, ?_⟩ <;> repeat' first
    | (split <;> rename_i e <;> try (replace e := congrArg (fun x => (x.1.pending, x.1.sec.fuses)) e; simp only [Prod.mk.injEq, originate_keeps, dropPacket_keeps] at e))
    | simp only [*, originate_keeps, dropPacket_keeps, and_self]

@[simp] theorem answerUnreachable_keeps (s : State) (d src typ body : Nat) (inDoubt : Bool) :
    (answerUnreachable s d src typ body inDoubt).pending = s.pending ∧
    (answerUnreachable s d src typ body inDoubt).sec.fuses = s.sec.fuses := by
  simp only [answerUnreachable, sendSimple_keeps, and_self]

@[simp] theorem reply_keeps (s : State) (p : QPeer) (bytes : List Byte) :
    (reply s p bytes).pending = s.pending ∧
    (reply s p bytes).sec.fuses = s.sec.fuses := by
  simp only [reply, emit_keeps, apply_ite State.pending, apply_ite State.sec, apply_ite Sec.fuses, ite_self, and_self]

@[simp] theorem sendBusy_keeps (s : State) (p : QPeer) (cls id : Nat) :
    (sendBusy s p cls id).pending = s.pending ∧
    (sendBusy s p cls id).sec.fuses = s.sec.fuses := by
  simp only [sendBusy, reply_keeps, bump_keeps, and_self]

@[simp] theorem sendError_keeps (s : State) (p : QPeer) (cls id status : Nat) :
    (sendError s p cls id status).pending = s.pending ∧
    (sendError s p cls id status).sec.fuses = s.sec.fuses := by
  simp only [sendError, reply_keeps, bump_keeps, and_self]

@[simp] theorem voidLane_keeps (s : State) (p : Nat) :
    (voidLane s p).pending = s.pending ∧
    (voidLane s p).sec.fuses = s.sec.fuses := by
  simp only [voidLane]
  refine ⟨?_, ?_⟩ <;> repeat' first
    | (split <;> rename_i e <;> try (replace e := congrArg (fun x => (x.1.pending, x.1.sec.fuses)) e; simp only [Prod.mk.injEq, setBits_keeps, sendError_keeps] at e))
    | (with_reducible refine (foldl_pending _ _ _ fun _ _ => ?_).trans ?_)
    | (with_reducible refine (foldl_fuses _ _ _ fun _ _ => ?_).trans ?_)
    | simp only [*, setBits_keeps, sendError_keeps, apply_ite State.pending, apply_ite State.sec, apply_ite Sec.fuses, ite_self, and_self]

@[simp] theorem afterLaunch_keeps (s : State) (n g t from' : Nat) :
    (afterLaunch s n g t from').pending = s.pending ∧
    (afterLaunch s n g t from').sec.fuses = s.sec.fuses := by
  simp only [afterLaunch, strokeFault_keeps, setPod_keeps, apply_ite State.pending, apply_ite State.sec, apply_ite Sec.fuses, ite_self, and_self]

@[simp] theorem launchWith_keeps (s : State) (g unit : Nat) (match0 : Nat → Bool) (res : Nat → Nat) (move : Bool) (eff : State → Nat → Nat → Nat → Nat → State) (heff_pending : ∀ z0 z1 z2 z3 z4, (eff z0 z1 z2 z3 z4).pending = z0.pending) (heff_fuses : ∀ z0 z1 z2 z3 z4, (eff z0 z1 z2 z3 z4).sec.fuses = z0.sec.fuses) :
    (launchWith s g unit match0 res move eff).pending = s.pending ∧
    (launchWith s g unit match0 res move eff).sec.fuses = s.sec.fuses := by
  unfold launchWith
  dsimp only
  split
  · split
    · exact ⟨rfl, rfl⟩
    · split
      · exact advance_keeps _ _ _
      · (repeat' split) <;> simp only [eccFault_keeps, strokeFault_keeps, afterLaunch_keeps, heff_pending, heff_fuses,
          noteStore_keeps, modPod_keeps, modGen_keeps, reachHc_keeps, advance_keeps, and_self]
  · exact ⟨rfl, rfl⟩

theorem Keeps.launchWith (s : State) (g unit : Nat) (m : Nat → Bool) (res : Nat → Nat) (move : Bool)
    (eff : State → Nat → Nat → Nat → Nat → State) (h : ∀ z n t w i, Keeps z (eff z n t w i)) :
    Keeps s (launchWith s g unit m res move eff) :=
  launchWith_keeps s g unit m res move eff (fun z n t w i => (h z n t w i).1) (fun z n t w i => (h z n t w i).2)

@[simp] theorem launch_keeps (s : State) (g unit op res : Nat) (eff : State → Nat → Nat → Nat → Nat → State) (heff_pending : ∀ z0 z1 z2 z3 z4, (eff z0 z1 z2 z3 z4).pending = z0.pending) (heff_fuses : ∀ z0 z1 z2 z3 z4, (eff z0 z1 z2 z3 z4).sec.fuses = z0.sec.fuses) :
    (launch s g unit op res eff).pending = s.pending ∧
    (launch s g unit op res eff).sec.fuses = s.sec.fuses := by
  exact launchWith_keeps s g unit _ _ true eff heff_pending heff_fuses

theorem Keeps.launch (s : State) (g unit op res : Nat) (eff : State → Nat → Nat → Nat → Nat → State)
    (h : ∀ z n t w i, Keeps z (eff z n t w i)) : Keeps s (launch s g unit op res eff) :=
  launch_keeps s g unit op res eff (fun z n t w i => (h z n t w i).1) (fun z n t w i => (h z n t w i).2)

@[simp] theorem nopStroke_keeps (s : State) (g : Nat) :
    (nopStroke s g).pending = s.pending ∧
    (nopStroke s g).sec.fuses = s.sec.fuses := by
  simp [nopStroke, apply_ite State.pending, apply_ite State.sec, apply_ite Sec.fuses]

@[simp] theorem loopStroke_keeps (s : State) (g : Nat) :
    (loopStroke s g).pending = s.pending ∧
    (loopStroke s g).sec.fuses = s.sec.fuses := by
  simp [loopStroke, apply_ite State.pending, apply_ite State.sec, apply_ite Sec.fuses]

@[simp] theorem phaseStroke_keeps (s : State) (g : Nat) :
    (phaseStroke s g).pending = s.pending ∧
    (phaseStroke s g).sec.fuses = s.sec.fuses := by
  simp [phaseStroke, apply_ite State.pending, apply_ite State.sec, apply_ite Sec.fuses]

@[simp] theorem endStepStroke_keeps (s : State) (g : Nat) :
    (endStepStroke s g).pending = s.pending ∧
    (endStepStroke s g).sec.fuses = s.sec.fuses := by
  simp [endStepStroke, apply_ite State.pending, apply_ite State.sec, apply_ite Sec.fuses]

@[simp] theorem delayStroke_keeps (s : State) (g : Nat) :
    (delayStroke s g).pending = s.pending ∧
    (delayStroke s g).sec.fuses = s.sec.fuses := by
  simp [delayStroke, apply_ite State.pending, apply_ite State.sec, apply_ite Sec.fuses]

@[simp] theorem joinWait_keeps (s : State) (n g t kind arg idx : Nat) :
    (joinWait s n g t kind arg idx).pending = s.pending ∧
    (joinWait s n g t kind arg idx).sec.fuses = s.sec.fuses := by
  simp only [joinWait, modPod_keeps, strokeFault_keeps, modGen_keeps, apply_ite State.pending, apply_ite State.sec, apply_ite Sec.fuses, ite_self, and_self]

@[simp] theorem permitWaitStroke_keeps (s : State) (g : Nat) :
    (permitWaitStroke s g).pending = s.pending ∧
    (permitWaitStroke s g).sec.fuses = s.sec.fuses := by
  simp [permitWaitStroke]

@[simp] theorem releaseWait_keeps (s : State) (n c : Nat) :
    (releaseWait s n c).pending = s.pending ∧
    (releaseWait s n c).sec.fuses = s.sec.fuses := by
  change Keeps s (releaseWait s n c)
  unfold releaseWait
  extract_lets r t u
  have h : Keeps s u := Keeps.trans (reachHc_keeps s n c) (modGen_keeps _ _ _)
  clear_value u
  refine h.trans (Keeps.foldl _ _ _ fun z g => ?_)
  extract_lets p
  split
  · generalize moveOn _ _ _ = mv
    dsimp only
    split
    · exact strokeFault_keeps _ _ _ _ _ _
    · split
      · exact Keeps.trans (setPod_keeps z g _) (strokeFault_keeps _ _ _ _ _ _)
      · exact setPod_keeps z g _
  · exact Keeps.refl z

@[simp] theorem permitRelease_keeps (s : State) (n c : Nat) :
    (permitRelease s n c).pending = s.pending ∧
    (permitRelease s n c).sec.fuses = s.sec.fuses := by
  simp only [permitRelease, releaseWait_keeps, modGen_keeps, setPart_keeps, apply_ite State.pending, apply_ite State.sec, apply_ite Sec.fuses, ite_self, and_self]

@[simp] theorem arriveTiles_keeps (s : State) (n h : Nat) :
    (arriveTiles s n h).pending = s.pending ∧
    (arriveTiles s n h).sec.fuses = s.sec.fuses := by
  simp only [arriveTiles]
  refine ⟨?_, ?_⟩ <;> repeat' first
    | (split <;> rename_i e <;> try (replace e := congrArg (fun x => (x.1.pending, x.1.sec.fuses)) e; simp only [Prod.mk.injEq, setPod_keeps, unitFault_keeps, arrive_keeps] at e))
    | (with_reducible refine (foldl_pending _ _ _ fun _ _ => ?_).trans ?_)
    | (with_reducible refine (foldl_fuses _ _ _ fun _ _ => ?_).trans ?_)
    | simp only [*, setPod_keeps, unitFault_keeps, arrive_keeps, apply_ite State.pending, apply_ite State.sec, apply_ite Sec.fuses, ite_self, and_self]

@[simp] theorem hatchSleep_keeps (s : State) (n : Nat) :
    (hatchSleep s n).pending = s.pending ∧
    (hatchSleep s n).sec.fuses = s.sec.fuses := by
  simp only [hatchSleep, arriveTiles_keeps, modGen_keeps, reachHc_keeps, foldl_pending, foldl_fuses, apply_ite State.pending, apply_ite State.sec, apply_ite Sec.fuses, ite_self, and_self]

@[simp] theorem sendStroke_keeps (s : State) (g : Nat) :
    (sendStroke s g).pending = s.pending ∧
    (sendStroke s g).sec.fuses = s.sec.fuses := by
  simp [sendStroke, apply_ite State.pending, apply_ite State.sec, apply_ite Sec.fuses]

@[simp] theorem sendDelivery_keeps (s : State) (g : Nat) :
    (sendDelivery s g).pending = s.pending ∧
    (sendDelivery s g).sec.fuses = s.sec.fuses := by
  simp only [sendDelivery]
  repeat' split
  all_goals simp only [*, arrive_keeps, reachHc_keeps, modPod_keeps, setPod_keeps, unitFault_keeps, apply_ite State.pending, apply_ite State.sec, apply_ite Sec.fuses, ite_self, and_self]

end Sys2Proof.Machine
end

