-- ==== Sys2Proof/Laws/KeepsSync.lean ====
section
/-! SUPPORT. Frame laws, one per operation: the command queue and the fuse array are as they were, for the sync block and the fabric. -/

namespace Sys2Proof.Machine

open Sys2Proof

set_option linter.all false
set_option Elab.async false

@[simp] theorem setCtr_keeps (s : State) (id : Nat) (c : Ctr) :
    (setCtr s id c).pending = s.pending ∧
    (setCtr s id c).sec.fuses = s.sec.fuses := by
  simp only [setCtr, and_self]

@[simp] theorem modCtr_keeps (s : State) (id : Nat) (f : Ctr → Ctr) :
    (modCtr s id f).pending = s.pending ∧
    (modCtr s id f).sec.fuses = s.sec.fuses := by
  simp only [modCtr, setCtr_keeps, and_self]

@[simp] theorem setChanges_keeps (s : State) (d : Nat) (l : List Change) :
    (setChanges s d l).pending = s.pending ∧
    (setChanges s d l).sec.fuses = s.sec.fuses := by
  simp only [setChanges, apply_ite State.pending, apply_ite State.sec, apply_ite Sec.fuses, ite_self, and_self]

@[simp] theorem queueChange_keeps (s : State) (d : Nat) (c : Change) :
    (queueChange s d c).pending = s.pending ∧
    (queueChange s d c).sec.fuses = s.sec.fuses := by
  simp only [queueChange, setChanges_keeps, and_self]

@[simp] theorem floodDests_keeps (s : State) (p typ origin ttl : Nat) :
    (floodDests s p typ origin ttl).pending = s.pending ∧
    (floodDests s p typ origin ttl).sec.fuses = s.sec.fuses := by
  simp only [floodDests]
  refine ⟨?_, ?_⟩ <;> repeat' first
    | (split <;> rename_i e <;> try (replace e := congrArg (fun x => (x.1.pending, x.1.sec.fuses)) e; simp only [Prod.mk.injEq, sendSimple_keeps] at e))
    | (with_reducible refine (foldl_pending _ _ _ fun _ _ => ?_).trans ?_)
    | (with_reducible refine (foldl_fuses _ _ _ fun _ _ => ?_).trans ?_)
    | simp only [*, sendSimple_keeps, and_self]

@[simp] theorem freezeCounters_keeps (s : State) (p : Nat) :
    (freezeCounters s p).pending = s.pending ∧
    (freezeCounters s p).sec.fuses = s.sec.fuses := by
  simp only [freezeCounters]
  refine ⟨?_, ?_⟩ <;> repeat' first
    | (split <;> rename_i e <;> try (replace e := congrArg (fun x => (x.1.pending, x.1.sec.fuses)) e; simp only [Prod.mk.injEq, setBits_keeps, modCtr_keeps] at e))
    | (with_reducible refine (foldl_pending _ _ _ fun _ _ => ?_).trans ?_)
    | (with_reducible refine (foldl_fuses _ _ _ fun _ _ => ?_).trans ?_)
    | simp only [*, setBits_keeps, modCtr_keeps, apply_ite State.pending, apply_ite State.sec, apply_ite Sec.fuses, ite_self, and_self]

@[simp] theorem freezePart_keeps (s : State) (p origin id : Nat) :
    (freezePart s p origin id).pending = s.pending ∧
    (freezePart s p origin id).sec.fuses = s.sec.fuses := by
  simp only [freezePart, freezeCounters_keeps, modPart_keeps, setBits_keeps, voidLane_keeps, logEv_keeps, apply_ite State.pending, apply_ite State.sec, apply_ite Sec.fuses, ite_self, and_self]

@[simp] theorem markDoubt_keeps (s : State) (p : Nat) (inDoubt : Bool) :
    (markDoubt s p inDoubt).pending = s.pending ∧
    (markDoubt s p inDoubt).sec.fuses = s.sec.fuses := by
  simp only [markDoubt, modPart_keeps, apply_ite State.pending, apply_ite State.sec, apply_ite Sec.fuses, ite_self, and_self]

@[simp] theorem freezeBy_keeps (s : State) (p origin id : Nat) :
    (freezeBy s p origin id).pending = s.pending ∧
    (freezeBy s p origin id).sec.fuses = s.sec.fuses := by
  simp only [freezeBy, floodDests_keeps, freezePart_keeps, apply_ite State.pending, apply_ite State.sec, apply_ite Sec.fuses, ite_self, and_self]

@[simp] theorem freezeOwn_keeps (s : State) (p id : Nat) :
    (freezeOwn s p id).pending = s.pending ∧
    (freezeOwn s p id).sec.fuses = s.sec.fuses := by
  simp only [freezeOwn, freezeBy_keeps, and_self]

@[simp] theorem sendSync_keeps (s : State) (id k m dc n : Nat) :
    (sendSync s id k m dc n).1.pending = s.pending ∧
    (sendSync s id k m dc n).1.sec.fuses = s.sec.fuses := by
  simp only [sendSync]
  refine ⟨?_, ?_⟩ <;> repeat' first
    | (split <;> rename_i e <;> try (replace e := congrArg (fun x => (x.1.pending, x.1.sec.fuses)) e; simp only [Prod.mk.injEq, bump_keeps, originate_keeps, modCtr_keeps, setBits_keeps] at e))
    | simp only [*, bump_keeps, originate_keeps, modCtr_keeps, setBits_keeps, and_self]

@[simp] theorem emitTo_keeps (s : State) (id n : Nat) (x : Nat × Nat × Nat) :
    (emitTo s id n x).1.pending = s.pending ∧
    (emitTo s id n x).1.sec.fuses = s.sec.fuses := by
  simp only [emitTo]
  repeat' split
  all_goals simp only [*, queueChange_keeps, sendSync_keeps, apply_ite State.pending, apply_ite State.sec, apply_ite Sec.fuses, ite_self, and_self]

@[simp] theorem emitAll_keeps (s : State) (id : Nat) (amount : Nat → Nat) :
    (emitAll s id amount).pending = s.pending ∧
    (emitAll s id amount).sec.fuses = s.sec.fuses := by
  simp only [emitAll]
  refine ⟨?_, ?_⟩ <;> repeat' first
    | (split <;> rename_i e <;> try (replace e := congrArg (fun x => (x.1.pending, x.1.sec.fuses)) e; simp only [Prod.mk.injEq, emitTo_keeps, freezeOwn_keeps] at e))
    | (with_reducible refine (foldl_pending _ _ _ fun _ _ => ?_).trans ?_)
    | (with_reducible refine (foldl_fuses _ _ _ fun _ _ => ?_).trans ?_)
    | (with_reducible refine (foldPair_pending _ _ _ fun _ _ => ?_).trans ?_)
    | (with_reducible refine (foldPair_fuses _ _ _ fun _ _ => ?_).trans ?_)
    | simp only [*, emitTo_keeps, freezeOwn_keeps, apply_ite State.pending, apply_ite State.sec, apply_ite Sec.fuses, ite_self, and_self]

@[simp] theorem fire_keeps (s : State) (id : Nat) :
    (fire s id).pending = s.pending ∧
    (fire s id).sec.fuses = s.sec.fuses := by
  simp only [fire, setCtr_keeps, emitAll_keeps, apply_ite State.pending, apply_ite State.sec, apply_ite Sec.fuses, ite_self, and_self]

@[simp] theorem sendBroken_keeps (s : State) (d m id : Nat) :
    (sendBroken s d m id).pending = s.pending ∧
    (sendBroken s d m id).sec.fuses = s.sec.fuses := by
  simp only [sendBroken, queueChange_keeps, sendSimple_keeps, bump_keeps, apply_ite State.pending, apply_ite State.sec, apply_ite Sec.fuses, ite_self, and_self]

@[simp] theorem breakCtr_keeps (s : State) (id cause : Nat) :
    (breakCtr s id cause).pending = s.pending ∧
    (breakCtr s id cause).sec.fuses = s.sec.fuses := by
  simp only [breakCtr]
  refine ⟨?_, ?_⟩ <;> repeat' first
    | (split <;> rename_i e <;> try (replace e := congrArg (fun x => (x.1.pending, x.1.sec.fuses)) e; simp only [Prod.mk.injEq, setCtr_keeps, bump_keeps, setBits_keeps, logEv_keeps, queueChange_keeps, sendBroken_keeps] at e))
    | (with_reducible refine (foldl_pending _ _ _ fun _ _ => ?_).trans ?_)
    | (with_reducible refine (foldl_fuses _ _ _ fun _ _ => ?_).trans ?_)
    | simp only [*, setCtr_keeps, bump_keeps, setBits_keeps, logEv_keeps, queueChange_keeps, sendBroken_keeps, apply_ite State.pending, apply_ite State.sec, apply_ite Sec.fuses, ite_self, and_self]

@[simp] theorem freeCtr_keeps (s : State) (id : Nat) :
    (freeCtr s id).pending = s.pending ∧
    (freeCtr s id).sec.fuses = s.sec.fuses := by
  simp only [freeCtr, and_self]

@[simp] theorem releaseCtrs_keeps (s : State) (p : Nat) :
    (releaseCtrs s p).pending = s.pending ∧
    (releaseCtrs s p).sec.fuses = s.sec.fuses := by
  simp only [releaseCtrs]
  refine ⟨?_, ?_⟩ <;> repeat' first
    | (split <;> rename_i e <;> try (replace e := congrArg (fun x => (x.1.pending, x.1.sec.fuses)) e; simp only [Prod.mk.injEq, freeCtr_keeps] at e))
    | (with_reducible refine (foldl_pending _ _ _ fun _ _ => ?_).trans ?_)
    | (with_reducible refine (foldl_fuses _ _ _ fun _ _ => ?_).trans ?_)
    | simp only [*, freeCtr_keeps, and_self]

@[simp] theorem releaseCtrsOn_keeps (s : State) (p d : Nat) :
    (releaseCtrsOn s p d).pending = s.pending ∧
    (releaseCtrsOn s p d).sec.fuses = s.sec.fuses := by
  simp only [releaseCtrsOn]
  refine ⟨?_, ?_⟩ <;> repeat' first
    | (split <;> rename_i e <;> try (replace e := congrArg (fun x => (x.1.pending, x.1.sec.fuses)) e; simp only [Prod.mk.injEq, freeCtr_keeps] at e))
    | (with_reducible refine (foldl_pending _ _ _ fun _ _ => ?_).trans ?_)
    | (with_reducible refine (foldl_fuses _ _ _ fun _ _ => ?_).trans ?_)
    | simp only [*, freeCtr_keeps, and_self]

@[simp] theorem dropChanges_keeps (s : State) (p : Nat) :
    (dropChanges s p).pending = s.pending ∧
    (dropChanges s p).sec.fuses = s.sec.fuses := by
  simp only [dropChanges, and_self]

@[simp] theorem stepCheck_keeps (s : State) (p : Nat) :
    (stepCheck s p).pending = s.pending ∧
    (stepCheck s p).sec.fuses = s.sec.fuses := by
  simp only [stepCheck, setPart_keeps, setBits_keeps, apply_ite State.pending, apply_ite State.sec, apply_ite Sec.fuses, ite_self, and_self]

@[simp] theorem applyAdd_keeps (s : State) (c : Change) :
    (applyAdd s c).pending = s.pending ∧
    (applyAdd s c).sec.fuses = s.sec.fuses := by
  simp only [applyAdd]
  repeat' split
  all_goals simp only [*, bump_keeps, breakCtr_keeps, setCtr_keeps, stepCheck_keeps, fire_keeps, sendBroken_keeps, apply_ite State.pending, apply_ite State.sec, apply_ite Sec.fuses, ite_self, and_self]

@[simp] theorem rebaseOne_keeps (s : State) (id : Nat) :
    (rebaseOne s id).pending = s.pending ∧
    (rebaseOne s id).sec.fuses = s.sec.fuses := by
  simp only [rebaseOne]
  refine ⟨?_, ?_⟩ <;> repeat' first
    | (split <;> rename_i e <;> try (replace e := congrArg (fun x => (x.1.pending, x.1.sec.fuses)) e; simp only [Prod.mk.injEq, modCtr_keeps, modGen_keeps, modPart_keeps] at e))
    | (with_reducible refine (foldl_pending _ _ _ fun _ _ => ?_).trans ?_)
    | (with_reducible refine (foldl_fuses _ _ _ fun _ _ => ?_).trans ?_)
    | simp only [*, modCtr_keeps, modGen_keeps, modPart_keeps, apply_ite State.pending, apply_ite State.sec, apply_ite Sec.fuses, ite_self, and_self]

@[simp] theorem applyRebase_keeps (s : State) (d : Nat) (c : Change) :
    (applyRebase s d c).pending = s.pending ∧
    (applyRebase s d c).sec.fuses = s.sec.fuses := by
  simp only [applyRebase]
  refine ⟨?_, ?_⟩ <;> repeat' first
    | (split <;> rename_i e <;> try (replace e := congrArg (fun x => (x.1.pending, x.1.sec.fuses)) e; simp only [Prod.mk.injEq, rebaseOne_keeps] at e))
    | (with_reducible refine (foldl_pending _ _ _ fun _ _ => ?_).trans ?_)
    | (with_reducible refine (foldl_fuses _ _ _ fun _ _ => ?_).trans ?_)
    | simp only [*, rebaseOne_keeps, and_self]

@[simp] theorem addConsumer_keeps (s : State) (n j k : Nat) :
    (addConsumer s n j k).pending = s.pending ∧
    (addConsumer s n j k).sec.fuses = s.sec.fuses := by
  simp only [addConsumer, breakCtr_keeps, modGen_keeps, apply_ite State.pending, apply_ite State.sec, apply_ite Sec.fuses, ite_self, and_self]

@[simp] theorem applyChange_keeps (s : State) (d : Nat) (c : Change) :
    (applyChange s d c).pending = s.pending ∧
    (applyChange s d c).sec.fuses = s.sec.fuses := by
  simp only [applyChange]
  repeat' split
  all_goals simp only [*, applyAdd_keeps, applyRebase_keeps, addConsumer_keeps, breakCtr_keeps, apply_ite State.pending, apply_ite State.sec, apply_ite Sec.fuses, ite_self, and_self]

@[simp] theorem counterUnit_keeps (s : State) (d : Nat) :
    (counterUnit s d).pending = s.pending ∧
    (counterUnit s d).sec.fuses = s.sec.fuses := by
  simp only [counterUnit]
  repeat' split
  all_goals simp only [*, applyChange_keeps, setChanges_keeps, arrive_keeps, reachHc_keeps, apply_ite State.pending, apply_ite State.sec, apply_ite Sec.fuses, ite_self, and_self]

@[simp] theorem synFault_keeps (s : State) (n g h : Nat) (vals : List Nat) :
    (synFault s n g h vals).pending = s.pending ∧
    (synFault s n g h vals).sec.fuses = s.sec.fuses := by
  simp only [synFault]
  refine ⟨?_, ?_⟩ <;> repeat' first
    | (split <;> rename_i e <;> try (replace e := congrArg (fun x => (x.1.pending, x.1.sec.fuses)) e; simp only [Prod.mk.injEq, pickOf_keeps, stopClock_keeps, recordFault_keeps, requestReset_keeps] at e))
    | (with_reducible refine (foldl_pending _ _ _ fun _ _ => ?_).trans ?_)
    | (with_reducible refine (foldl_fuses _ _ _ fun _ _ => ?_).trans ?_)
    | simp only [*, pickOf_keeps, stopClock_keeps, recordFault_keeps, requestReset_keeps, and_self]

@[simp] theorem signalStroke_keeps (s : State) (g : Nat) :
    (signalStroke s g).pending = s.pending ∧
    (signalStroke s g).sec.fuses = s.sec.fuses := by
  simp [signalStroke, apply_ite State.pending, apply_ite State.sec, apply_ite Sec.fuses]

@[simp] theorem rebaseStroke_keeps (s : State) (g : Nat) :
    (rebaseStroke s g).pending = s.pending ∧
    (rebaseStroke s g).sec.fuses = s.sec.fuses := by
  simp [rebaseStroke, apply_ite State.pending, apply_ite State.sec, apply_ite Sec.fuses]

@[simp] theorem askConsumer_keeps (s : State) (n j k : Nat) :
    (askConsumer s n j k).pending = s.pending ∧
    (askConsumer s n j k).sec.fuses = s.sec.fuses := by
  simp only [askConsumer, modGen_keeps, queueChange_keeps, addConsumer_keeps, apply_ite State.pending, apply_ite State.sec, apply_ite Sec.fuses, ite_self, and_self]

@[simp] theorem waitStroke_keeps (s : State) (g : Nat) :
    (waitStroke s g).pending = s.pending ∧
    (waitStroke s g).sec.fuses = s.sec.fuses := by
  refine Keeps.launchWith _ _ _ _ _ _ _ fun z n t w idx => ?_
  beta_reduce
  extract_lets bad
  split
  · exact synFault_keeps _ _ _ _ _
  · split
    · exact Keeps.refl z
    · split
      · exact Keeps.trans (joinWait_keeps z _ _ _ _ _ _) (askConsumer_keeps _ _ _ _)
      · exact joinWait_keeps z _ _ _ _ _ _

@[simp] theorem syncRelease_keeps (s : State) (n c : Nat) :
    (syncRelease s n c).pending = s.pending ∧
    (syncRelease s n c).sec.fuses = s.sec.fuses := by
  simp only [syncRelease]
  refine ⟨?_, ?_⟩ <;> repeat' first
    | (split <;> rename_i e <;> try (replace e := congrArg (fun x => (x.1.pending, x.1.sec.fuses)) e; simp only [Prod.mk.injEq, releaseWait_keeps, reachHc_keeps, modGen_keeps, stopClock_keeps, recordFault_keeps, requestReset_keeps] at e))
    | (with_reducible refine (foldl_pending _ _ _ fun _ _ => ?_).trans ?_)
    | (with_reducible refine (foldl_fuses _ _ _ fun _ _ => ?_).trans ?_)
    | simp only [*, releaseWait_keeps, reachHc_keeps, modGen_keeps, stopClock_keeps, recordFault_keeps, requestReset_keeps, apply_ite State.pending, apply_ite State.sec, apply_ite Sec.fuses, ite_self, and_self]

@[simp] theorem frozenLists_keeps (s : State) (p : Nat) :
    (frozenLists s p).pending = s.pending ∧
    (frozenLists s p).sec.fuses = s.sec.fuses := by
  simp only [frozenLists]
  refine ⟨?_, ?_⟩ <;> repeat' first
    | (split <;> rename_i e <;> try (replace e := congrArg (fun x => (x.1.pending, x.1.sec.fuses)) e; simp only [Prod.mk.injEq, queueChange_keeps] at e))
    | (with_reducible refine (foldl_pending _ _ _ fun _ _ => ?_).trans ?_)
    | (with_reducible refine (foldl_fuses _ _ _ fun _ _ => ?_).trans ?_)
    | simp only [*, queueChange_keeps, apply_ite State.pending, apply_ite State.sec, apply_ite Sec.fuses, ite_self, and_self]

@[simp] theorem permitBegin_keeps (s : State) (n c : Nat) :
    (permitBegin s n c).pending = s.pending ∧
    (permitBegin s n c).sec.fuses = s.sec.fuses := by
  simp only [permitBegin, permitRelease_keeps, frozenLists_keeps, apply_ite State.pending, apply_ite State.sec, apply_ite Sec.fuses, ite_self, and_self]

@[simp] theorem waitRelease_keeps (s : State) (n c : Nat) :
    (waitRelease s n c).pending = s.pending ∧
    (waitRelease s n c).sec.fuses = s.sec.fuses := by
  simp only [waitRelease, stepCheck_keeps, permitBegin_keeps, syncRelease_keeps, apply_ite State.pending, apply_ite State.sec, apply_ite Sec.fuses, ite_self, and_self]

@[simp] theorem synSignal_keeps (s : State) (d v : Nat) :
    (synSignal s d v).pending = s.pending ∧
    (synSignal s d v).sec.fuses = s.sec.fuses := by
  simp only [synSignal, queueChange_keeps, setBits_keeps, apply_ite State.pending, apply_ite State.sec, apply_ite Sec.fuses, ite_self, and_self]

end Sys2Proof.Machine
end

