-- ==== Sys2Proof/Laws/KeepsCopy.lean ====
section
/-! SUPPORT. Frame laws, one per operation: the command queue and the fuse array are as they were, for the local copies. -/

namespace Sys2Proof.Machine

open Sys2Proof

set_option linter.all false
set_option Elab.async false

@[simp] theorem chEvent_keeps (s : State) (d n bit' : Nat) :
    (chEvent s d n bit').pending = s.pending ∧
    (chEvent s d n bit').sec.fuses = s.sec.fuses := by
  simp only [chEvent, setBits_keeps, and_self]

@[simp] theorem haltChan_keeps (s : State) (d n a : Nat) :
    (haltChan s d n a).pending = s.pending ∧
    (haltChan s d n a).sec.fuses = s.sec.fuses := by
  simp only [haltChan, wr_keeps, modCopy_keeps, chEvent_keeps, apply_ite State.pending, apply_ite State.sec, apply_ite Sec.fuses, ite_self, and_self]

@[simp] theorem writeRec_keeps (s : State) (d n : Nat) (r : CopyRec) :
    (writeRec s d n r).pending = s.pending ∧
    (writeRec s d n r).sec.fuses = s.sec.fuses := by
  simp only [writeRec]
  repeat' split
  all_goals simp only [*, memWrite_keeps, carried_keeps, wr_keeps, haltChan_keeps, apply_ite State.pending, apply_ite State.sec, apply_ite Sec.fuses, ite_self, and_self]

@[simp] theorem afterRec_keeps (s : State) (d n : Nat) (r : CopyRec) :
    (afterRec s d n r).pending = s.pending ∧
    (afterRec s d n r).sec.fuses = s.sec.fuses := by
  simp only [afterRec]
  repeat' split
  all_goals simp only [*, queueChange_keeps, chEvent_keeps, apply_ite State.pending, apply_ite State.sec, apply_ite Sec.fuses, ite_self, and_self]

@[simp] theorem drainHeld_keeps (d n x2 : Nat) (x3 : State) :
    (drainHeld d n x2 x3).pending = x3.pending ∧
    (drainHeld d n x2 x3).sec.fuses = x3.sec.fuses := by
  induction x2 generalizing x3 with
  | zero => exact ⟨rfl, rfl⟩
  | succ k ih =>
    simp only [drainHeld]
    split
    · exact ⟨rfl, rfl⟩
    · split
      · simp only [ih, afterRec_keeps, writeRec_keeps, modCopy_keeps, and_self]
      · simp only [chEvent_keeps, and_self]

@[simp] theorem pushRec_keeps (s : State) (d n : Nat) (r : CopyRec) :
    (pushRec s d n r).pending = s.pending ∧
    (pushRec s d n r).sec.fuses = s.sec.fuses := by
  simp only [pushRec, chEvent_keeps, modCopy_keeps, drainHeld_keeps, afterRec_keeps, apply_ite State.pending, apply_ite State.sec, apply_ite Sec.fuses, ite_self, and_self]

@[simp] theorem spanWrite_keeps (s : State) (vl h off n v : Nat) :
    (spanWrite s vl h off n v).pending = s.pending ∧
    (spanWrite s vl h off n v).sec.fuses = s.sec.fuses := by
  simp only [spanWrite]
  refine ⟨?_, ?_⟩ <;> repeat' first
    | (split <;> rename_i e <;> try (replace e := congrArg (fun x => (x.1.pending, x.1.sec.fuses)) e; simp only [Prod.mk.injEq, touchAll_keeps, unitWrite_keeps, freshSpads_keeps] at e))
    | (with_reducible refine (foldl_pending _ _ _ fun _ _ => ?_).trans ?_)
    | (with_reducible refine (foldl_fuses _ _ _ fun _ _ => ?_).trans ?_)
    | (with_reducible refine (foldNat_pending _ _ _ fun _ _ => ?_).trans ?_)
    | (with_reducible refine (foldNat_fuses _ _ _ fun _ _ => ?_).trans ?_)
    | simp only [*, touchAll_keeps, unitWrite_keeps, freshSpads_keeps, and_self]

@[simp] theorem sendSpans_keeps (d n img iter v x5 x6 x7 : Nat) (x8 : State) :
    (sendSpans d n img iter v x5 x6 x7 x8).1.pending = x8.pending ∧
    (sendSpans d n img iter v x5 x6 x7 x8).1.sec.fuses = x8.sec.fuses := by
  induction x5 generalizing x6 x7 x8 with
  | zero => exact ⟨rfl, rfl⟩
  | succ f ih =>
    simp only [sendSpans]
    split
    · exact ⟨rfl, rfl⟩
    · split
      · split
        · simp only [ih, modCopy_keeps, spanWrite_keeps, and_self]
        · exact ⟨rfl, rfl⟩
      · split
        · rename_i e
          replace e := congrArg (fun x => (x.1.pending, x.1.sec.fuses)) e
          simp only [Prod.mk.injEq, originate_keeps] at e
          simp only [ih, e, and_self]
        · rename_i e
          replace e := congrArg (fun x => (x.1.pending, x.1.sec.fuses)) e
          simp only [Prod.mk.injEq, originate_keeps] at e
          simp only [setBits_keeps, e, and_self]

@[simp] theorem forgetSpans_keeps (s : State) (d n : Nat) :
    (forgetSpans s d n).pending = s.pending ∧
    (forgetSpans s d n).sec.fuses = s.sec.fuses := by
  simp only [forgetSpans, apply_ite State.pending, apply_ite State.sec, apply_ite Sec.fuses, ite_self, and_self]

@[simp] theorem endCopy_keeps (s : State) (d n status bytes : Nat) (poisoned : Bool) :
    (endCopy s d n status bytes poisoned).pending = s.pending ∧
    (endCopy s d n status bytes poisoned).sec.fuses = s.sec.fuses := by
  simp only [endCopy]
  repeat' split
  all_goals simp only [*, modCopy_keeps, forgetSpans_keeps, pushRec_keeps, apply_ite State.pending, apply_ite State.sec, apply_ite Sec.fuses, ite_self, and_self]

@[simp] theorem abortCopy_keeps (s : State) (d n status : Nat) :
    (abortCopy s d n status).pending = s.pending ∧
    (abortCopy s d n status).sec.fuses = s.sec.fuses := by
  simp only [abortCopy]
  repeat' split
  all_goals simp only [*, endCopy_keeps, poisonDest_keeps, and_self]

@[simp] theorem haltCopy_keeps (s : State) (d n a bytes : Nat) :
    (haltCopy s d n a bytes).pending = s.pending ∧
    (haltCopy s d n a bytes).sec.fuses = s.sec.fuses := by
  simp only [haltCopy, haltChan_keeps, endCopy_keeps, and_self]

@[simp] theorem countBytes_keeps (s : State) (d n k : Nat) :
    (countBytes s d n k).pending = s.pending ∧
    (countBytes s d n k).sec.fuses = s.sec.fuses := by
  simp only [countBytes, bump_keeps, and_self]

@[simp] theorem startRemote_keeps (s : State) (d n img iter : Nat) :
    (startRemote s d n img iter).pending = s.pending ∧
    (startRemote s d n img iter).sec.fuses = s.sec.fuses := by
  simp only [startRemote]
  refine ⟨?_, ?_⟩ <;> repeat' first
    | (split <;> rename_i e <;> try (replace e := congrArg (fun x => (x.1.pending, x.1.sec.fuses)) e; simp only [Prod.mk.injEq, freshSpads_keeps, noteUnit_keeps, modCopy_keeps, sendSpans_keeps, haltCopy_keeps, countBytes_keeps, freezeOwn_keeps, markDoubt_keeps, endCopy_keeps] at e))
    | (with_reducible refine (foldl_pending _ _ _ fun _ _ => ?_).trans ?_)
    | (with_reducible refine (foldl_fuses _ _ _ fun _ _ => ?_).trans ?_)
    | (with_reducible refine (foldPair_pending _ _ _ fun _ _ => ?_).trans ?_)
    | (with_reducible refine (foldPair_fuses _ _ _ fun _ _ => ?_).trans ?_)
    | simp only [*, freshSpads_keeps, noteUnit_keeps, modCopy_keeps, sendSpans_keeps, haltCopy_keeps, countBytes_keeps, freezeOwn_keeps, markDoubt_keeps, endCopy_keeps, apply_ite State.pending, apply_ite State.sec, apply_ite Sec.fuses, ite_self, and_self]

@[simp] theorem freeChan_keeps (s : State) (d n : Nat) :
    (freeChan s d n).pending = s.pending ∧
    (freeChan s d n).sec.fuses = s.sec.fuses := by
  simp only [freeChan, modCopy_keeps, wr_keeps, and_self]

@[simp] theorem startNext_keeps (d n x2 : Nat) (x3 : State) :
    (startNext d n x2 x3).pending = x3.pending ∧
    (startNext d n x2 x3).sec.fuses = x3.sec.fuses := by
  induction x2 generalizing x3 with
  | zero => exact ⟨rfl, rfl⟩
  | succ k ih =>
    simp only [startNext]
    split
    · split
      · split <;> simp only [freeChan_keeps, setCopy_keeps, and_self]
      · split
        · simp only [ih, setCopy_keeps, and_self]
        · split <;> simp only [ih, startRemote_keeps, setCopy_keeps, and_self]
    · exact ⟨rfl, rfl⟩

@[simp] theorem kick_keeps (s : State) (d n : Nat) :
    (kick s d n).pending = s.pending ∧
    (kick s d n).sec.fuses = s.sec.fuses := by
  simp only [kick, startNext_keeps, and_self]

@[simp] theorem enqueueCopy_keeps (s : State) (d n ref iter : Nat) :
    (enqueueCopy s d n ref iter).pending = s.pending ∧
    (enqueueCopy s d n ref iter).sec.fuses = s.sec.fuses := by
  simp only [enqueueCopy, kick_keeps, setCopy_keeps, apply_ite State.pending, apply_ite State.sec, apply_ite Sec.fuses, ite_self, and_self]

@[simp] theorem flushQueue_keeps (s : State) (d n : Nat) :
    (flushQueue s d n).pending = s.pending ∧
    (flushQueue s d n).sec.fuses = s.sec.fuses := by
  simp only [flushQueue]
  refine ⟨?_, ?_⟩ <;> repeat' first
    | (split <;> rename_i e <;> try (replace e := congrArg (fun x => (x.1.pending, x.1.sec.fuses)) e; simp only [Prod.mk.injEq, pushRec_keeps, setCopy_keeps] at e))
    | (with_reducible refine (foldl_pending _ _ _ fun _ _ => ?_).trans ?_)
    | (with_reducible refine (foldl_fuses _ _ _ fun _ _ => ?_).trans ?_)
    | simp only [*, pushRec_keeps, setCopy_keeps, and_self]

@[simp] theorem enqFault_keeps (s : State) (n g t code idx : Nat) :
    (enqFault s n g t code idx).pending = s.pending ∧
    (enqFault s n g t code idx).sec.fuses = s.sec.fuses := by
  simp only [enqFault, unitFault_keeps, and_self]

@[simp] theorem copyEnqueueStroke_keeps (s : State) (g : Nat) :
    (copyEnqueueStroke s g).pending = s.pending ∧
    (copyEnqueueStroke s g).sec.fuses = s.sec.fuses := by
  refine Keeps.launch _ _ _ _ _ _ fun z n t w idx => ?_
  dsimp only
  (repeat' split) <;> first | exact enqFault_keeps _ _ _ _ _ _ | exact enqueueCopy_keeps _ _ _ _ _

@[simp] theorem countCopy_keeps (s : State) (d p dd : Nat) (conv : Bool) (e : CopyEnd) :
    (countCopy s d p dd conv e).pending = s.pending ∧
    (countCopy s d p dd conv e).sec.fuses = s.sec.fuses := by
  simp only [countCopy]
  refine ⟨?_, ?_⟩ <;> repeat' first
    | (split <;> rename_i e <;> try (replace e := congrArg (fun x => (x.1.pending, x.1.sec.fuses)) e; simp only [Prod.mk.injEq, countOps_keeps] at e))
    | (with_reducible refine (foldNat_pending _ _ _ fun _ _ => ?_).trans ?_)
    | (with_reducible refine (foldNat_fuses _ _ _ fun _ _ => ?_).trans ?_)
    | simp only [*, countOps_keeps, apply_ite State.pending, apply_ite State.sec, apply_ite Sec.fuses, ite_self, and_self]

@[simp] theorem copyDone.finish'_keeps (d n : Nat) (s : State) (r : CopyRun) (bytes : Nat) :
    (copyDone.finish' d n s r bytes).pending = s.pending ∧
    (copyDone.finish' d n s r bytes).sec.fuses = s.sec.fuses := by
  simp only [copyDone.finish', countBytes_keeps, freshSpads_keeps, touchOthers_keeps, modCopy_keeps, countCopy_keeps, kick_keeps, haltCopy_keeps, chEvent_keeps, pushRec_keeps, forgetSpans_keeps, foldl_pending, foldl_fuses, apply_ite State.pending, apply_ite State.sec, apply_ite Sec.fuses, ite_self, and_self]

@[simp] theorem moveCopy_keeps (s : State) (p : Nat) (items : List CopyItem) (touched : List (Nat × Nat))
    (own : Nat → Bool) :
    (moveCopy s p items touched own).s.pending = s.pending ∧
    (moveCopy s p items touched own).s.sec.fuses = s.sec.fuses := by
  change Keeps s (moveCopy s p items touched own).s
  unfold moveCopy
  extract_lets u0 err all badDst badAt stop run bad read seen r um
  have h0 : Keeps s r.1 := Keeps.trans (freshSpads_keeps s)
    (Keeps.foldPair _ _ (u0, false) fun x u => Keeps.noteUnit x.1 u p)
  have h2 : Keeps s (blur r.1 touched um).1 := h0.trans (blur_keeps r.1 touched um)
  split
  rename_i b um' eb
  rw [eb] at h2
  extract_lets w x v
  have h3 : Keeps s w := h2.trans (Keeps.foldl _ _ _ fun z e => Keeps.unitWrite z _ _ _ p own)
  clear_value w
  have h4 : Keeps s x := by
    simp only [x]
    clear_value bad
    split
    · exact h3.trans (noteMerge_keeps _ _ _)
    · exact h3
  clear_value x
  exact h4.trans (Keeps.foldl _ _ _ fun z u => Keeps.poisonUnit z u)

@[simp] theorem copyDone_keeps (s : State) (d n : Nat) :
    (copyDone s d n).pending = s.pending ∧
    (copyDone s d n).sec.fuses = s.sec.fuses := by
  change Keeps s (copyDone s d n)
  unfold copyDone
  extract_lets p s0
  split
  · exact Keeps.refl s
  · split
    · exact Keeps.refl s
    · split
      · split
        · exact Keeps.refl s
        · exact Keeps.trans (countBytes_keeps s d n _) (copyDone.finish'_keeps d n _ _ _)
      · extract_lets j e t fl u v
        have h1 : Keeps s t := Keeps.trans (Keeps.trans (freshSpads_keeps s) (moveCopy_keeps s0 p _ _ _))
          (Keeps.foldl _ _ _ fun z x => touchOthers_keeps z d n x.1 x.2)
        clear_value t
        have h2 : Keeps s u := h1.trans (modCopy_keeps t d n _)
        clear_value u
        have h3 : Keeps s v := by
          simp only [v]
          split
          · exact h2.trans (Keeps.trans (countBytes_keeps _ _ _ _) (countCopy_keeps _ _ _ _ _ _))
          · exact h2
        clear_value v
        split
        · exact (h3.trans (haltCopy_keeps _ _ _ _ _)).trans (kick_keeps _ _ _)
        · exact h3.trans (copyDone.finish'_keeps d n _ _ _)

@[simp] theorem ringTail_keeps (s : State) (d n v : Nat) :
    (ringTail s d n v).pending = s.pending ∧
    (ringTail s d n v).sec.fuses = s.sec.fuses := by
  simp only [ringTail]
  repeat' split
  all_goals simp only [*, wr_keeps, pushRec_keeps, modCopy_keeps, drainHeld_keeps, kick_keeps, apply_ite State.pending, apply_ite State.sec, apply_ite Sec.fuses, ite_self, and_self]

@[simp] theorem copyDeadline_keeps (s : State) (d n : Nat) :
    (copyDeadline s d n).pending = s.pending ∧
    (copyDeadline s d n).sec.fuses = s.sec.fuses := by
  simp only [copyDeadline]
  repeat' split
  all_goals simp only [*, chEvent_keeps, modCopy_keeps, kick_keeps, abortCopy_keeps, apply_ite State.pending, apply_ite State.sec, apply_ite Sec.fuses, ite_self, and_self]

@[simp] theorem copyDrainTimeout_keeps (s : State) (d n : Nat) :
    (copyDrainTimeout s d n).pending = s.pending ∧
    (copyDrainTimeout s d n).sec.fuses = s.sec.fuses := by
  simp only [copyDrainTimeout, freeChan_keeps, flushQueue_keeps, abortCopy_keeps, apply_ite State.pending, apply_ite State.sec, apply_ite Sec.fuses, ite_self, and_self]

@[simp] theorem cmdResult_keeps (s : State) (d n v : Nat) :
    (cmdResult s d n v).pending = s.pending ∧
    (cmdResult s d n v).sec.fuses = s.sec.fuses := by
  simp only [cmdResult, modCopy_keeps, and_self]

@[simp] theorem chAbort_keeps (s : State) (d n : Nat) :
    (chAbort s d n).pending = s.pending ∧
    (chAbort s d n).sec.fuses = s.sec.fuses := by
  simp only [chAbort, kick_keeps, abortCopy_keeps, cmdResult_keeps, apply_ite State.pending, apply_ite State.sec, apply_ite Sec.fuses, ite_self, and_self]

@[simp] theorem chDisable_keeps (s : State) (d n : Nat) :
    (chDisable s d n).pending = s.pending ∧
    (chDisable s d n).sec.fuses = s.sec.fuses := by
  simp only [chDisable]
  repeat' split
  all_goals simp only [*, cmdResult_keeps, freeChan_keeps, modCopy_keeps, flushQueue_keeps, apply_ite State.pending, apply_ite State.sec, apply_ite Sec.fuses, ite_self, and_self]

@[simp] theorem chResume_keeps (s : State) (d n : Nat) :
    (chResume s d n).pending = s.pending ∧
    (chResume s d n).sec.fuses = s.sec.fuses := by
  simp only [chResume, modCopy_keeps, flushQueue_keeps, cmdResult_keeps, apply_ite State.pending, apply_ite State.sec, apply_ite Sec.fuses, ite_self, and_self]

@[simp] theorem chOwner_keeps (s : State) (d n v : Nat) :
    (chOwner s d n v).pending = s.pending ∧
    (chOwner s d n v).sec.fuses = s.sec.fuses := by
  simp only [chOwner, wr_keeps, apply_ite State.pending, apply_ite State.sec, apply_ite Sec.fuses, ite_self, and_self]

@[simp] theorem chEnq_keeps (s : State) (d n v : Nat) :
    (chEnq s d n v).pending = s.pending ∧
    (chEnq s d n v).sec.fuses = s.sec.fuses := by
  simp only [chEnq]
  repeat' split
  all_goals simp only [*, chEvent_keeps, enqueueCopy_keeps, apply_ite State.pending, apply_ite State.sec, apply_ite Sec.fuses, ite_self, and_self]

@[simp] theorem resetChan_keeps (s : State) (d n : Nat) :
    (resetChan s d n).1.pending = s.pending ∧
    (resetChan s d n).1.sec.fuses = s.sec.fuses := by
  simp only [resetChan, abortCopy_keeps, flushQueue_keeps, freeChan_keeps, modCopy_keeps, and_self]

@[simp] theorem resetChans_keeps (s : State) (p d : Nat) :
    (resetChans s p d).pending = s.pending ∧
    (resetChans s p d).sec.fuses = s.sec.fuses := by
  simp only [resetChans]
  refine ⟨?_, ?_⟩ <;> repeat' first
    | (split <;> rename_i e <;> try (replace e := congrArg (fun x => (x.1.pending, x.1.sec.fuses)) e; simp only [Prod.mk.injEq, resetChan_keeps, logEv_keeps] at e))
    | (with_reducible refine (foldl_pending _ _ _ fun _ _ => ?_).trans ?_)
    | (with_reducible refine (foldl_fuses _ _ _ fun _ _ => ?_).trans ?_)
    | simp only [*, resetChan_keeps, logEv_keeps, apply_ite State.pending, apply_ite State.sec, apply_ite Sec.fuses, ite_self, and_self]

@[simp] theorem allocRange_keeps (s : State) (d w a n : Nat) :
    (allocRange s d w a n).1.pending = s.pending ∧
    (allocRange s d w a n).1.sec.fuses = s.sec.fuses := by
  simp only [allocRange]
  repeat' split
  all_goals simp only [*, pickOf_keeps, setRange_keeps, wr_keeps, apply_ite State.pending, apply_ite State.sec, apply_ite Sec.fuses, ite_self, and_self]

@[simp] theorem freeRange_keeps (s : State) (h : Nat) :
    (freeRange s h).1.pending = s.pending ∧
    (freeRange s h).1.sec.fuses = s.sec.fuses := by
  simp only [freeRange]
  repeat' split
  all_goals simp only [*, setRange_keeps, apply_ite State.pending, apply_ite State.sec, apply_ite Sec.fuses, ite_self, and_self]

@[simp] theorem rangeCmd_keeps (s : State) (d w : Nat) :
    (rangeCmd s d w).pending = s.pending ∧
    (rangeCmd s d w).sec.fuses = s.sec.fuses := by
  simp only [rangeCmd, wr_keeps, apply_ite State.pending, apply_ite State.sec, apply_ite Sec.fuses, ite_self, and_self]

@[simp] theorem rangeComplete_keeps (s : State) (d : Nat) :
    (rangeComplete s d).pending = s.pending ∧
    (rangeComplete s d).sec.fuses = s.sec.fuses := by
  simp only [rangeComplete]
  repeat' split
  all_goals simp only [*, allocRange_keeps, freeRange_keeps, wr_keeps, apply_ite State.pending, apply_ite State.sec, apply_ite Sec.fuses, ite_self, and_self]

@[simp] theorem putDesc_keeps (s : State) (p i : Nat) (e : DescE) :
    (putDesc s p i e).pending = s.pending ∧
    (putDesc s p i e).sec.fuses = s.sec.fuses := by
  simp only [putDesc, countDesc_keeps, modPart_keeps, and_self]

@[simp] theorem descCmd_keeps (s : State) (d w : Nat) :
    (descCmd s d w).pending = s.pending ∧
    (descCmd s d w).sec.fuses = s.sec.fuses := by
  simp only [descCmd]
  repeat' split
  all_goals simp only [*, wr_keeps, memNote_keeps, apply_ite State.pending, apply_ite State.sec, apply_ite Sec.fuses, ite_self, and_self]

@[simp] theorem descRun_keeps (s : State) (c : CpyCmd) :
    (descRun s c).1.pending = s.pending ∧
    (descRun s c).1.sec.fuses = s.sec.fuses := by
  simp only [descRun]
  repeat' split
  all_goals simp only [*, countDesc_keeps, modPart_keeps, putDesc_keeps, apply_ite State.pending, apply_ite State.sec, apply_ite Sec.fuses, ite_self, and_self]

@[simp] theorem descComplete_keeps (s : State) (d : Nat) :
    (descComplete s d).pending = s.pending ∧
    (descComplete s d).sec.fuses = s.sec.fuses := by
  simp only [descComplete]
  repeat' split
  all_goals simp only [*, descRun_keeps, wr_keeps, and_self]

end Sys2Proof.Machine
end

