-- ==== Sys2Proof/Laws/KeepsUnits.lean ====
section
/-! SUPPORT. Frame laws, one per operation: the command queue and the fuse array are as they were, for the remote copies, the UPE and the pod's pipes. -/

namespace Sys2Proof.Machine

open Sys2Proof

set_option linter.all false
set_option Elab.async false

@[simp] theorem loseSpan_keeps (s : State) (k id : Nat) (inDoubt : Bool) :
    (loseSpan s k id inDoubt).pending = s.pending ∧
    (loseSpan s k id inDoubt).sec.fuses = s.sec.fuses := by
  simp only [loseSpan]
  repeat' split
  all_goals simp only [*, setBits_keeps, freezeOwn_keeps, markDoubt_keeps, kick_keeps, endCopy_keeps, apply_ite State.pending, apply_ite State.sec, apply_ite Sec.fuses, ite_self, and_self]

@[simp] theorem loseSync_keeps (s : State) (id k n : Nat) (inDoubt : Bool) :
    (loseSync s id k n inDoubt).pending = s.pending ∧
    (loseSync s id k n inDoubt).sec.fuses = s.sec.fuses := by
  simp only [loseSync, setBits_keeps, setCtr_keeps, freezeOwn_keeps, markDoubt_keeps, apply_ite State.pending, apply_ite State.sec, apply_ite Sec.fuses, ite_self, and_self]

@[simp] theorem loseOwn_keeps (s : State) (k : Nat) (p : LinkPkt) (inDoubt : Bool) :
    (loseOwn s k p inDoubt).pending = s.pending ∧
    (loseOwn s k p inDoubt).sec.fuses = s.sec.fuses := by
  simp only [loseOwn, loseSpan_keeps, loseSync_keeps, dropPacket_keeps, apply_ite State.pending, apply_ite State.sec, apply_ite Sec.fuses, ite_self, and_self]

@[simp] theorem deliverUnreachable_keeps (s : State) (k body : Nat) :
    (deliverUnreachable s k body).pending = s.pending ∧
    (deliverUnreachable s k body).sec.fuses = s.sec.fuses := by
  simp only [deliverUnreachable, loseSpan_keeps, loseSync_keeps, pickOf_keeps, modCtr_keeps, dropPacket_keeps, apply_ite State.pending, apply_ite State.sec, apply_ite Sec.fuses, ite_self, and_self]

@[simp] theorem answerBack_keeps (s : State) (k src typ body : Nat) (inDoubt : Bool) :
    (answerBack s k src typ body inDoubt).pending = s.pending ∧
    (answerBack s k src typ body inDoubt).sec.fuses = s.sec.fuses := by
  simp only [answerBack, deliverUnreachable_keeps, answerUnreachable_keeps, apply_ite State.pending, apply_ite State.sec, apply_ite Sec.fuses, ite_self, and_self]

@[simp] theorem closePort_keeps (s : State) (k st reason : Nat) :
    (closePort s k st reason).pending = s.pending ∧
    (closePort s k st reason).sec.fuses = s.sec.fuses := by
  simp only [closePort]
  refine ⟨?_, ?_⟩ <;> repeat' first
    | (split <;> rename_i e <;> try (replace e := congrArg (fun x => (x.1.pending, x.1.sec.fuses)) e; simp only [Prod.mk.injEq, setPort_keeps, setPortState_keeps, oweUnits_keeps, answerBack_keeps, loseOwn_keeps] at e))
    | (with_reducible refine (foldl_pending _ _ _ fun _ _ => ?_).trans ?_)
    | (with_reducible refine (foldl_fuses _ _ _ fun _ _ => ?_).trans ?_)
    | simp only [*, setPort_keeps, setPortState_keeps, oweUnits_keeps, answerBack_keeps, loseOwn_keeps, apply_ite State.pending, apply_ite State.sec, apply_ite Sec.fuses, ite_self, and_self]

@[simp] theorem replayPort_keeps (s : State) (k : Nat) (nak : Bool) :
    (replayPort s k nak).pending = s.pending ∧
    (replayPort s k nak).sec.fuses = s.sec.fuses := by
  simp only [replayPort]
  refine ⟨?_, ?_⟩ <;> repeat' first
    | (split <;> rename_i e <;> try (replace e := congrArg (fun x => (x.1.pending, x.1.sec.fuses)) e; simp only [Prod.mk.injEq, setPort_keeps, closePort_keeps, bump_keeps, putWire_keeps] at e))
    | (with_reducible refine (foldl_pending _ _ _ fun _ _ => ?_).trans ?_)
    | (with_reducible refine (foldl_fuses _ _ _ fun _ _ => ?_).trans ?_)
    | simp only [*, setPort_keeps, closePort_keeps, bump_keeps, putWire_keeps, apply_ite State.pending, apply_ite State.sec, apply_ite Sec.fuses, ite_self, and_self]

@[simp] theorem takeHeader_keeps (s : State) (k : Nat) (p : Packet) :
    (takeHeader s k p).pending = s.pending ∧
    (takeHeader s k p).sec.fuses = s.sec.fuses := by
  simp only [takeHeader]
  refine ⟨?_, ?_⟩ <;> repeat' first
    | (split <;> rename_i e <;> try (replace e := congrArg (fun x => (x.1.pending, x.1.sec.fuses)) e; simp only [Prod.mk.injEq, setPort_keeps, modCtr_keeps, drained_keeps] at e))
    | (with_reducible refine (foldl_pending _ _ _ fun _ _ => ?_).trans ?_)
    | (with_reducible refine (foldl_fuses _ _ _ fun _ _ => ?_).trans ?_)
    | simp only [*, setPort_keeps, modCtr_keeps, drained_keeps, apply_ite State.pending, apply_ite State.sec, apply_ite Sec.fuses, ite_self, and_self]

@[simp] theorem nakPacket_keeps (s : State) (k : Nat) :
    (nakPacket s k).pending = s.pending ∧
    (nakPacket s k).sec.fuses = s.sec.fuses := by
  simp only [nakPacket, modPort_keeps, sendIdle_keeps, apply_ite State.pending, apply_ite State.sec, apply_ite Sec.fuses, ite_self, and_self]

@[simp] theorem deliverLate_keeps (s : State) (id origin ttl : Nat) :
    (deliverLate s id origin ttl).pending = s.pending ∧
    (deliverLate s id origin ttl).sec.fuses = s.sec.fuses := by
  simp only [deliverLate, setBits_keeps, modPart_keeps, floodDests_keeps, apply_ite State.pending, apply_ite State.sec, apply_ite Sec.fuses, ite_self, and_self]

@[simp] theorem deliverFreeze_keeps (s : State) (id origin ttl : Nat) :
    (deliverFreeze s id origin ttl).pending = s.pending ∧
    (deliverFreeze s id origin ttl).sec.fuses = s.sec.fuses := by
  simp only [deliverFreeze, freezeBy_keeps, floodDests_keeps, modPart_keeps, apply_ite State.pending, apply_ite State.sec, apply_ite Sec.fuses, ite_self, and_self]

@[simp] theorem deliverAck_keeps (s : State) (id : Nat) :
    (deliverAck s id).pending = s.pending ∧
    (deliverAck s id).sec.fuses = s.sec.fuses := by
  simp only [deliverAck]
  repeat' split
  all_goals simp only [*, modCopy_keeps, apply_ite State.pending, apply_ite State.sec, apply_ite Sec.fuses, ite_self, and_self]

@[simp] theorem deliverRefused_keeps (s : State) (id : Nat) :
    (deliverRefused s id).pending = s.pending ∧
    (deliverRefused s id).sec.fuses = s.sec.fuses := by
  simp only [deliverRefused]
  repeat' split
  all_goals simp only [*, kick_keeps, endCopy_keeps, apply_ite State.pending, apply_ite State.sec, apply_ite Sec.fuses, ite_self, and_self]

@[simp] theorem deliverSpan_keeps (s : State) (k vl src body units v : Nat) :
    (deliverSpan s k vl src body units v).pending = s.pending ∧
    (deliverSpan s k vl src body units v).sec.fuses = s.sec.fuses := by
  simp only [deliverSpan, spanWrite_keeps, deliverAck_keeps, deliverRefused_keeps, sendSimple_keeps, apply_ite State.pending, apply_ite State.sec, apply_ite Sec.fuses, ite_self, and_self]

@[simp] theorem deliverSync_keeps (s : State) (src body : Nat) :
    (deliverSync s src body).pending = s.pending ∧
    (deliverSync s src body).sec.fuses = s.sec.fuses := by
  simp only [deliverSync, queueChange_keeps, sendBroken_keeps, apply_ite State.pending, apply_ite State.sec, apply_ite Sec.fuses, ite_self, and_self]

@[simp] theorem deliver_keeps (s : State) (k typ : Nat) (p : Packet) :
    (deliver s k typ p).pending = s.pending ∧
    (deliver s k typ p).sec.fuses = s.sec.fuses := by
  simp only [deliver, deliverSpan_keeps, deliverSync_keeps, deliverLate_keeps, deliverFreeze_keeps, deliverAck_keeps, deliverRefused_keeps, queueChange_keeps, deliverUnreachable_keeps, apply_ite State.pending, apply_ite State.sec, apply_ite Sec.fuses, ite_self, and_self]

@[simp] theorem routePacket_keeps (s : State) (k typ : Nat) (p : Packet) :
    (routePacket s k typ p).pending = s.pending ∧
    (routePacket s k typ p).sec.fuses = s.sec.fuses := by
  simp only [routePacket, answerBack_keeps, oweUnits_keeps, deliver_keeps, modPort_keeps, apply_ite State.pending, apply_ite State.sec, apply_ite Sec.fuses, ite_self, and_self]

@[simp] theorem receive_keeps (s : State) (k typ : Nat) (p : Packet) :
    (receive s k typ p).pending = s.pending ∧
    (receive s k typ p).sec.fuses = s.sec.fuses := by
  simp only [receive, bump_keeps, nakPacket_keeps, takeHeader_keeps, replayPort_keeps, routePacket_keeps, modPort_keeps, apply_ite State.pending, apply_ite State.sec, apply_ite Sec.fuses, ite_self, and_self]

@[simp] theorem startTraining_keeps (s : State) (k : Nat) :
    (startTraining s k).pending = s.pending ∧
    (startTraining s k).sec.fuses = s.sec.fuses := by
  simp only [startTraining, emit_keeps, setPortState_keeps, modPort_keeps, apply_ite State.pending, apply_ite State.sec, apply_ite Sec.fuses, ite_self, and_self]

@[simp] theorem portTrain_keeps (s : State) (k : Nat) :
    (portTrain s k).pending = s.pending ∧
    (portTrain s k).sec.fuses = s.sec.fuses := by
  simp only [portTrain, startTraining_keeps, apply_ite State.pending, apply_ite State.sec, apply_ite Sec.fuses, ite_self, and_self]

@[simp] theorem portDown_keeps (s : State) (k : Nat) :
    (portDown s k).pending = s.pending ∧
    (portDown s k).sec.fuses = s.sec.fuses := by
  simp only [portDown, drained_keeps, modPort_keeps, closePort_keeps, apply_ite State.pending, apply_ite State.sec, apply_ite Sec.fuses, ite_self, and_self]

@[simp] theorem portTrained_keeps (s : State) (k : Nat) (h : PeerHello) :
    (portTrained s k h).pending = s.pending ∧
    (portTrained s k h).sec.fuses = s.sec.fuses := by
  simp only [portTrained]
  repeat' split
  all_goals simp only [*, wr_keeps, closePort_keeps, setPortState_keeps, modPort_keeps, apply_ite State.pending, apply_ite State.sec, apply_ite Sec.fuses, ite_self, and_self]

@[simp] theorem portLost_keeps (s : State) (k : Nat) (lock : Bool) :
    (portLost s k lock).pending = s.pending ∧
    (portLost s k lock).sec.fuses = s.sec.fuses := by
  simp only [portLost, closePort_keeps, apply_ite State.pending, apply_ite State.sec, apply_ite Sec.fuses, ite_self, and_self]

@[simp] theorem laneFailure_keeps (s : State) (k lane : Nat) :
    (laneFailure s k lane).pending = s.pending ∧
    (laneFailure s k lane).sec.fuses = s.sec.fuses := by
  simp only [laneFailure, modPort_keeps, closePort_keeps, setPortState_keeps, apply_ite State.pending, apply_ite State.sec, apply_ite Sec.fuses, ite_self, and_self]

@[simp] theorem spareSteer_keeps (s : State) (d j v : Nat) :
    (spareSteer s d j v).pending = s.pending ∧
    (spareSteer s d j v).sec.fuses = s.sec.fuses := by
  simp only [spareSteer, wr_keeps, setPortState_keeps, modPort_keeps, apply_ite State.pending, apply_ite State.sec, apply_ite Sec.fuses, ite_self, and_self]

@[simp] theorem spareTrained_keeps (s : State) (k : Nat) :
    (spareTrained s k).pending = s.pending ∧
    (spareTrained s k).sec.fuses = s.sec.fuses := by
  simp only [spareTrained, modPort_keeps, setPortState_keeps, apply_ite State.pending, apply_ite State.sec, apply_ite Sec.fuses, ite_self, and_self]

@[simp] theorem writeModuleId_keeps (s : State) (v : Nat) :
    (writeModuleId s v).pending = s.pending ∧
    (writeModuleId s v).sec.fuses = s.sec.fuses := by
  simp only [writeModuleId, wr_keeps, apply_ite State.pending, apply_ite State.sec, apply_ite Sec.fuses, ite_self, and_self]

@[simp] theorem partResult_keeps (s : State) (d v : Nat) :
    (partResult s d v).pending = s.pending ∧
    (partResult s d v).sec.fuses = s.sec.fuses := by
  simp only [partResult, wr_keeps, and_self]

@[simp] theorem continuePart_keeps (s : State) (d p : Nat) :
    (continuePart s d p).pending = s.pending ∧
    (continuePart s d p).sec.fuses = s.sec.fuses := by
  simp only [continuePart]
  refine ⟨?_, ?_⟩ <;> repeat' first
    | (split <;> rename_i e <;> try (replace e := congrArg (fun x => (x.1.pending, x.1.sec.fuses)) e; simp only [Prod.mk.injEq, partResult_keeps, modPart_keeps, modCtr_keeps, emitAll_keeps] at e))
    | (with_reducible refine (foldl_pending _ _ _ fun _ _ => ?_).trans ?_)
    | (with_reducible refine (foldl_fuses _ _ _ fun _ _ => ?_).trans ?_)
    | simp only [*, partResult_keeps, modPart_keeps, modCtr_keeps, emitAll_keeps, apply_ite State.pending, apply_ite State.sec, apply_ite Sec.fuses, ite_self, and_self]

@[simp] theorem abandonPart_keeps (s : State) (d p : Nat) :
    (abandonPart s d p).pending = s.pending ∧
    (abandonPart s d p).sec.fuses = s.sec.fuses := by
  simp only [abandonPart]
  refine ⟨?_, ?_⟩ <;> repeat' first
    | (split <;> rename_i e <;> try (replace e := congrArg (fun x => (x.1.pending, x.1.sec.fuses)) e; simp only [Prod.mk.injEq, requestReset_keeps, breakCtr_keeps, partResult_keeps] at e))
    | (with_reducible refine (foldl_pending _ _ _ fun _ _ => ?_).trans ?_)
    | (with_reducible refine (foldl_fuses _ _ _ fun _ _ => ?_).trans ?_)
    | simp only [*, requestReset_keeps, breakCtr_keeps, partResult_keeps, and_self]

@[simp] theorem upeReads_keeps (s : State) (p : Nat) (us : List Nat) :
    (upeReads s p us).1.pending = s.pending ∧
    (upeReads s p us).1.sec.fuses = s.sec.fuses := by
  simp only [upeReads]
  refine ⟨?_, ?_⟩ <;> repeat' first
    | (split <;> rename_i e <;> try (replace e := congrArg (fun x => (x.1.pending, x.1.sec.fuses)) e; simp only [Prod.mk.injEq, noteRead_keeps, accessed_keeps] at e))
    | (with_reducible refine (foldl_pending _ _ _ fun _ _ => ?_).trans ?_)
    | (with_reducible refine (foldl_fuses _ _ _ fun _ _ => ?_).trans ?_)
    | (with_reducible refine (foldPair_pending _ _ _ fun _ _ => ?_).trans ?_)
    | (with_reducible refine (foldPair_fuses _ _ _ fun _ _ => ?_).trans ?_)
    | simp only [*, noteRead_keeps, accessed_keeps, and_self]

@[simp] theorem upeWrite_keeps (s : State) (m : UnitMap) :
    (upeWrite s m).pending = s.pending ∧
    (upeWrite s m).sec.fuses = s.sec.fuses := by
  simp only [upeWrite]
  refine ⟨?_, ?_⟩ <;> repeat' first
    | (split <;> rename_i e <;> try (replace e := congrArg (fun x => (x.1.pending, x.1.sec.fuses)) e; simp only [Prod.mk.injEq, putGranule_keeps, accessed_keeps] at e))
    | (with_reducible refine (foldl_pending _ _ _ fun _ _ => ?_).trans ?_)
    | (with_reducible refine (foldl_fuses _ _ _ fun _ _ => ?_).trans ?_)
    | simp only [*, putGranule_keeps, accessed_keeps, and_self]

@[simp] theorem setUpe_keeps (s : State) (st p : Nat) (x : UpeList) :
    (setUpe s st p x).pending = s.pending ∧
    (setUpe s st p x).sec.fuses = s.sec.fuses := by
  simp only [setUpe, and_self]

@[simp] theorem modUpe_keeps (s : State) (st p : Nat) (f : UpeList → UpeList) :
    (modUpe s st p f).pending = s.pending ∧
    (modUpe s st p f).sec.fuses = s.sec.fuses := by
  simp only [modUpe, setUpe_keeps, and_self]

@[simp] theorem upeWait_keeps (s : State) (j k : Nat) :
    (upeWait s j k).pending = s.pending ∧
    (upeWait s j k).sec.fuses = s.sec.fuses := by
  simp only [upeWait, breakCtr_keeps, apply_ite State.pending, apply_ite State.sec, apply_ite Sec.fuses, ite_self, and_self]

@[simp] theorem upeSignal_keeps (s : State) (st id : Nat) :
    (upeSignal s st id).pending = s.pending ∧
    (upeSignal s st id).sec.fuses = s.sec.fuses := by
  simp only [upeSignal, queueChange_keeps, and_self]

@[simp] theorem upeBegin_keeps (st p x2 : Nat) (x3 : State) :
    (upeBegin st p x2 x3).pending = x3.pending ∧
    (upeBegin st p x2 x3).sec.fuses = x3.sec.fuses := by
  induction x2 generalizing x3 with
  | zero => simp only [upeBegin, modUpe_keeps, and_self]
  | succ k ih =>
    simp only [upeBegin]
    split <;> simp only [ih, modUpe_keeps, setUpe_keeps, upeSignal_keeps, upeWait_keeps, and_self]

@[simp] theorem upeNext_keeps (s : State) (st p : Nat) :
    (upeNext s st p).pending = s.pending ∧
    (upeNext s st p).sec.fuses = s.sec.fuses := by
  simp only [upeNext, modUpe_keeps, upeBegin_keeps, and_self]

@[simp] theorem upeStart_keeps (s : State) (st p : Nat) :
    (upeStart s st p).pending = s.pending ∧
    (upeStart s st p).sec.fuses = s.sec.fuses := by
  simp only [upeStart, upeBegin_keeps, apply_ite State.pending, apply_ite State.sec, apply_ite Sec.fuses, ite_self, and_self]

@[simp] theorem upeBroken_keeps (s : State) (st p : Nat) :
    (upeBroken s st p).pending = s.pending ∧
    (upeBroken s st p).sec.fuses = s.sec.fuses := by
  simp only [upeBroken, requestReset_keeps, modUpe_keeps, and_self]

@[simp] theorem upeRelease_keeps (s : State) (st p phase k : Nat) (act : State → State) (hact_pending : ∀ z0, (act z0).pending = z0.pending) (hact_fuses : ∀ z0, (act z0).sec.fuses = z0.sec.fuses) :
    (upeRelease s st p phase k act).pending = s.pending ∧
    (upeRelease s st p phase k act).sec.fuses = s.sec.fuses := by
  simp only [upeRelease]
  repeat' split
  all_goals simp only [*, upeBroken_keeps, apply_ite State.pending, apply_ite State.sec, apply_ite Sec.fuses, ite_self, and_self]

theorem Keeps.upeRelease (s : State) (st p a b : Nat) (go : State → State) (h : ∀ z, Keeps z (go z)) :
    Keeps s (upeRelease s st p a b go) :=
  upeRelease_keeps s st p a b go (fun z => (h z).1) (fun z => (h z).2)

@[simp] theorem gradRelease_keeps (s : State) (st p : Nat) :
    (gradRelease s st p).pending = s.pending ∧
    (gradRelease s st p).sec.fuses = s.sec.fuses := by
  simp [gradRelease]

@[simp] theorem gatherGrad_keeps (s : State) (st p n : Nat) :
    (gatherGrad s st p n).1.pending = s.pending ∧
    (gatherGrad s st p n).1.sec.fuses = s.sec.fuses := by
  simp only [gatherGrad]
  (repeat' split) <;> simp only [upeReads_keeps, modUpe_keeps, and_self]

@[simp] theorem gatherRate_keeps (s : State) (st p rec' : Nat) (bad : Bool) :
    (gatherRate s st p rec' bad).1.pending = s.pending ∧
    (gatherRate s st p rec' bad).1.sec.fuses = s.sec.fuses := by
  simp only [gatherRate]
  (repeat' split) <;> simp only [upeReads_keeps, gatherGrad_keeps, and_self]

@[simp] theorem gatherGo_keeps (s : State) (st p : Nat) :
    (gatherGo s st p).1.pending = s.pending ∧
    (gatherGo s st p).1.sec.fuses = s.sec.fuses := by
  simp only [gatherGo]
  (repeat' split) <;> simp only [upeReads_keeps, gatherRate_keeps, and_self]

@[simp] theorem gatherComplete_keeps (s : State) (st p : Nat) :
    (gatherComplete s st p).pending = s.pending ∧
    (gatherComplete s st p).sec.fuses = s.sec.fuses := by
  simp only [gatherComplete, gatherGo_keeps, bump_keeps, modUpe_keeps, upeSignal_keeps, upeWait_keeps, apply_ite State.pending, apply_ite State.sec, apply_ite Sec.fuses, ite_self, and_self]

@[simp] theorem arriveRelease_keeps (s : State) (st p : Nat) :
    (arriveRelease s st p).pending = s.pending ∧
    (arriveRelease s st p).sec.fuses = s.sec.fuses := by
  simp [arriveRelease, apply_ite State.pending, apply_ite State.sec, apply_ite Sec.fuses]

@[simp] theorem upeReport_keeps (s : State) (st p code : Nat) :
    (upeReport s st p code).pending = s.pending ∧
    (upeReport s st p code).sec.fuses = s.sec.fuses := by
  simp only [upeReport, setBits_keeps, logEv_keeps, apply_ite State.pending, apply_ite State.sec, apply_ite Sec.fuses, ite_self, and_self]

@[simp] theorem upeBlur_keeps (s : State) (st p : Nat) :
    (upeBlur s st p).pending = s.pending ∧
    (upeBlur s st p).sec.fuses = s.sec.fuses := by
  simp only [upeBlur]
  refine ⟨?_, ?_⟩ <;> repeat' first
    | (split <;> rename_i e <;> try (replace e := congrArg (fun x => (x.1.pending, x.1.sec.fuses)) e; simp only [Prod.mk.injEq, putGranule_keeps, nextFree_keeps] at e))
    | (with_reducible refine (foldl_pending _ _ _ fun _ _ => ?_).trans ?_)
    | (with_reducible refine (foldl_fuses _ _ _ fun _ _ => ?_).trans ?_)
    | simp only [*, putGranule_keeps, nextFree_keeps, apply_ite State.pending, apply_ite State.sec, apply_ite Sec.fuses, ite_self, and_self]

@[simp] theorem upeDone_keeps (s : State) (st p : Nat) :
    (upeDone s st p).pending = s.pending ∧
    (upeDone s st p).sec.fuses = s.sec.fuses := by
  simp only [upeDone, upeBlur_keeps, upeNext_keeps, upeSignal_keeps, and_self]

@[simp] theorem writeRecord_keeps (s : State) (d count damaged last : Nat) :
    (writeRecord s d count damaged last).pending = s.pending ∧
    (writeRecord s d count damaged last).sec.fuses = s.sec.fuses := by
  simp only [writeRecord]
  repeat' split
  all_goals simp only [*, putGranule_keeps, accessed_keeps, and_self]

@[simp] theorem commitRelease_keeps (s : State) (st p : Nat) :
    (commitRelease s st p).pending = s.pending ∧
    (commitRelease s st p).sec.fuses = s.sec.fuses := by
  refine Keeps.upeRelease _ _ _ _ _ _ fun z => ?_
  dsimp only
  split
  · split
    · exact modUpe_keeps _ _ _ _
    · exact Keeps.trans (writeRecord_keeps _ _ _ _ _) (modUpe_keeps _ _ _ _)
  · exact (Keeps.trans (upeReport_keeps _ _ _ _) (bump_keeps _ _ _)).trans (upeDone_keeps _ _ _)

@[simp] theorem writeVec_keeps (s : State) (d : Nat) (vs : List Nat) :
    (writeVec s d vs).pending = s.pending ∧
    (writeVec s d vs).sec.fuses = s.sec.fuses := by
  simp only [writeVec, upeWrite_keeps, foldl_pending, foldl_fuses, and_self]

@[simp] theorem applyRow_keeps (s : State) (p l : Nat) (x : UpeCtx) (r1 : Nat) (c1 : List Nat) (g w : Nat) (m v : Option Nat) (i : Nat) :
    (applyRow s p l x r1 c1 g w m v i).pending = s.pending ∧
    (applyRow s p l x r1 c1 g w m v i).sec.fuses = s.sec.fuses := by
  simp only [applyRow, upeWrite_keeps, foldl_pending, foldl_fuses, and_self]

@[simp] theorem applyRows_keeps (p l : Nat) (x : UpeCtx) (r1 c1 : List Nat) (g w : Nat) (m v : Option Nat) (x9 : List Nat) (x10 : State) (x11 : Nat) :
    (applyRows p l x r1 c1 g w m v x9 x10 x11).1.pending = x10.pending ∧
    (applyRows p l x r1 c1 g w m v x9 x10 x11).1.sec.fuses = x10.sec.fuses := by
  induction x9 generalizing x10 x11 with
  | nil => exact ⟨rfl, rfl⟩
  | cons i is ih =>
    simp only [applyRows]
    split
    · simp only [upeReads_keeps, and_self]
    · simp only [ih, applyRow_keeps, upeReads_keeps, and_self]

@[simp] theorem applySweep_keeps (s : State) (st p lim w g sd : Nat) :
    (applySweep s st p lim w g sd).1.pending = s.pending ∧
    (applySweep s st p lim w g sd).1.sec.fuses = s.sec.fuses := by
  simp only [applySweep]
  repeat' split
  all_goals simp only [*, upeReads_keeps, bump_keeps, writeVec_keeps, applyRows_keeps, countOps_keeps, apply_ite State.pending, apply_ite State.sec, apply_ite Sec.fuses, ite_self, and_self]

@[simp] theorem applyComplete_keeps (s : State) (st p : Nat) :
    (applyComplete s st p).pending = s.pending ∧
    (applyComplete s st p).sec.fuses = s.sec.fuses := by
  simp only [applyComplete]
  repeat' split
  all_goals simp only [*, applySweep_keeps, upeDone_keeps, upeReport_keeps, writeRecord_keeps, bump_keeps, apply_ite State.pending, apply_ite State.sec, apply_ite Sec.fuses, ite_self, and_self]

@[simp] theorem applyStop_keeps (s : State) (st p : Nat) :
    (applyStop s st p).pending = s.pending ∧
    (applyStop s st p).sec.fuses = s.sec.fuses := by
  simp only [applyStop]
  repeat' split
  all_goals simp only [*, pickOf_keeps, applySweep_keeps, upeReport_keeps, upeBlur_keeps, apply_ite State.pending, apply_ite State.sec, apply_ite Sec.fuses, ite_self, and_self]

@[simp] theorem refusalRead_keeps (s : State) (st : Nat) (half : Half) :
    (refusalRead s st half).pending = s.pending ∧
    (refusalRead s st half).sec.fuses = s.sec.fuses := by
  simp only [refusalRead, rcRead_keeps, emit_keeps, apply_ite State.pending, apply_ite State.sec, apply_ite Sec.fuses, ite_self, and_self]

@[simp] theorem emptyLists_keeps (s : State) (p : Nat) :
    (emptyLists s p).pending = s.pending ∧
    (emptyLists s p).sec.fuses = s.sec.fuses := by
  simp only [emptyLists, and_self]

@[simp] theorem withDescs_keeps (s : State) (p : Nat) (t : Tbl DescE) :
    (withDescs s p t).pending = s.pending ∧
    (withDescs s p t).sec.fuses = s.sec.fuses := by
  simp only [withDescs, modPart_keeps, and_self]

@[simp] theorem mxaFault_keeps (s : State) (n g h idx : Nat) (codes : List Nat) :
    (mxaFault s n g h idx codes).pending = s.pending ∧
    (mxaFault s n g h idx codes).sec.fuses = s.sec.fuses := by
  simp only [mxaFault, unitFault_keeps, apply_ite State.pending, apply_ite State.sec, apply_ite Sec.fuses, ite_self, and_self]

@[simp] theorem mxaConfig_keeps (s : State) (g : Nat) :
    (mxaConfig s g).pending = s.pending ∧
    (mxaConfig s g).sec.fuses = s.sec.fuses := by
  simp [mxaConfig, apply_ite State.pending, apply_ite State.sec, apply_ite Sec.fuses]

@[simp] theorem loadDone_keeps (s : State) (g i : Nat) :
    (loadDone s g i).pending = s.pending ∧
    (loadDone s g i).sec.fuses = s.sec.fuses := by
  simp only [loadDone, bump_keeps, apply_ite State.pending, apply_ite State.sec, apply_ite Sec.fuses, ite_self, and_self]

@[simp] theorem mxaLoad_keeps (s : State) (g : Nat) :
    (mxaLoad s g).pending = s.pending ∧
    (mxaLoad s g).sec.fuses = s.sec.fuses := by
  refine Keeps.launch _ _ _ _ _ _ fun z n t w idx => ?_
  dsimp only
  split
  · exact Keeps.trans (loadDone_keeps z _ _) (modPod_keeps _ _ _)
  · exact mxaFault_keeps _ _ _ _ _ _

@[simp] theorem planeUsable_keeps (s : State) (g : Nat) :
    (planeUsable s g).pending = s.pending ∧
    (planeUsable s g).sec.fuses = s.sec.fuses := by
  simp only [planeUsable]
  repeat' split
  all_goals simp only [*, arrive_keeps, modPod_keeps, reachHc_keeps, bump_keeps, apply_ite State.pending, apply_ite State.sec, apply_ite Sec.fuses, ite_self, and_self]

@[simp] theorem busySpan_keeps (s : State) (n g t rows : Nat) :
    (busySpan s n g t rows).pending = s.pending ∧
    (busySpan s n g t rows).sec.fuses = s.sec.fuses := by
  simp only [busySpan, modPod_keeps, sample_keeps, bump_keeps, apply_ite State.pending, apply_ite State.sec, apply_ite Sec.fuses, ite_self, and_self]

@[simp] theorem startRamp_keeps (s : State) (n t : Nat) :
    (startRamp s n t).pending = s.pending ∧
    (startRamp s n t).sec.fuses = s.sec.fuses := by
  simp only [startRamp, setGen_keeps, apply_ite State.pending, apply_ite State.sec, apply_ite Sec.fuses, ite_self, and_self]

@[simp] theorem mxaStream_keeps (s : State) (g : Nat) :
    (mxaStream s g).pending = s.pending ∧
    (mxaStream s g).sec.fuses = s.sec.fuses := by
  refine Keeps.launch _ _ _ _ _ _ fun z n t w idx => ?_
  beta_reduce
  extract_lets m
  split
  · exact ((Keeps.trans (loadDone_keeps z _ _) (modPod_keeps _ g _)).trans (busySpan_keeps _ _ _ _ _)).trans
      (startRamp_keeps _ _ _)
  · exact mxaFault_keeps _ _ _ _ _ _

@[simp] theorem mxaRowResult_keeps (s : State) (g : Nat) :
    (mxaRowResult s g).pending = s.pending ∧
    (mxaRowResult s g).sec.fuses = s.sec.fuses := by
  simp only [mxaRowResult]
  repeat' split
  all_goals simp only [*, arrive_keeps, reachHc_keeps, setPod_keeps, bump_keeps, setBits_keeps, countOps_keeps, apply_ite State.pending, apply_ite State.sec, apply_ite Sec.fuses, ite_self, and_self]

@[simp] theorem vecFault_keeps (s : State) (n g h code : Nat) (x : VSite) :
    (vecFault s n g h code x).pending = s.pending ∧
    (vecFault s n g h code x).sec.fuses = s.sec.fuses := by
  simp only [vecFault, unitFault_keeps, and_self]

@[simp] theorem sfuFault_keeps (s : State) (n g h : Nat) (codes : List Nat) (x : VSite) (table curve : Nat) :
    (sfuFault s n g h codes x table curve).pending = s.pending ∧
    (sfuFault s n g h codes x table curve).sec.fuses = s.sec.fuses := by
  simp only [sfuFault, unitFault_keeps, and_self]

@[simp] theorem startRows_keeps (s : State) (h g i t n estep : Nat) (ins : VIns) (x : VSite) (table : Nat) :
    (startRows s h g i t n estep ins x table).pending = s.pending ∧
    (startRows s h g i t n estep ins x table).sec.fuses = s.sec.fuses := by
  simp only [startRows, modPod_keeps, sample_keeps, bump_keeps, apply_ite State.pending, apply_ite State.sec, apply_ite Sec.fuses, ite_self, and_self]

@[simp] theorem launchRows_keeps (s : State) (g h t i w n estep : Nat) (x : VSite) (own : Bool) :
    (launchRows s g h t i w n estep x own).pending = s.pending ∧
    (launchRows s g h t i w n estep x own).sec.fuses = s.sec.fuses := by
  simp only [launchRows, strokeFault_keeps, vecFault_keeps, sfuFault_keeps, startRows_keeps, apply_ite State.pending, apply_ite State.sec, apply_ite Sec.fuses, ite_self, and_self]

@[simp] theorem stipWith_keeps (s : State) (g i : Nat) (match0 : Nat → Bool) (eff : State → Nat → Nat → Nat → Stip → VSite → State) (heff_pending : ∀ z0 z1 z2 z3 z4 z5, (eff z0 z1 z2 z3 z4 z5).pending = z0.pending) (heff_fuses : ∀ z0 z1 z2 z3 z4 z5, (eff z0 z1 z2 z3 z4 z5).sec.fuses = z0.sec.fuses) :
    (stipWith s g i match0 eff).pending = s.pending ∧
    (stipWith s g i match0 eff).sec.fuses = s.sec.fuses := by
  simp only [stipWith]
  repeat' split
  all_goals simp only [*, advance_keeps, reachHc_keeps, noteStore_keeps, eccFault_keeps, apply_ite State.pending, apply_ite State.sec, apply_ite Sec.fuses, ite_self, and_self]

theorem Keeps.stipWith (s : State) (g i : Nat) (m : Nat → Bool) (eff : State → Nat → Nat → Nat → Stip → VSite → State)
    (h : ∀ z n t w y x, Keeps z (eff z n t w y x)) : Keeps s (stipWith s g i m eff) :=
  stipWith_keeps s g i m eff (fun z n t w y x => (h z n t w y x).1) (fun z n t w y x => (h z n t w y x).2)

@[simp] theorem stipMoveOn_keeps (s : State) (h g i t : Nat) (z : Stip) (x : VSite) :
    (stipMoveOn s h g i t z x).pending = s.pending ∧
    (stipMoveOn s h g i t z x).sec.fuses = s.sec.fuses := by
  simp only [stipMoveOn, vecFault_keeps, modPod_keeps, apply_ite State.pending, apply_ite State.sec, apply_ite Sec.fuses, ite_self, and_self]

@[simp] theorem vecOp_keeps (s : State) (g i op : Nat) (stip : Bool) :
    (vecOp s g i op stip).pending = s.pending ∧
    (vecOp s g i op stip).sec.fuses = s.sec.fuses := by
  simp [vecOp, apply_ite State.pending, apply_ite State.sec, apply_ite Sec.fuses]

@[simp] theorem setRnd_keeps (s : State) (g i : Nat) (stip : Bool) :
    (setRnd s g i stip).pending = s.pending ∧
    (setRnd s g i stip).sec.fuses = s.sec.fuses := by
  simp [setRnd, apply_ite State.pending, apply_ite State.sec, apply_ite Sec.fuses]

@[simp] theorem stipStroke_keeps (s : State) (g i : Nat) :
    (stipStroke s g i).pending = s.pending ∧
    (stipStroke s g i).sec.fuses = s.sec.fuses := by
  simp [stipStroke, apply_ite State.pending, apply_ite State.sec, apply_ite Sec.fuses]

@[simp] theorem stippleEnd_keeps (s : State) (g i : Nat) :
    (stippleEnd s g i).pending = s.pending ∧
    (stippleEnd s g i).sec.fuses = s.sec.fuses := by
  change Keeps s (stippleEnd s g i)
  unfold stippleEnd
  extract_lets p
  split
  · split
    · exact Keeps.launch _ _ _ _ _ _ fun z n t w idx => unitFault_keeps _ _ _ _ _ _ _
    · refine Keeps.stipWith _ _ _ _ _ fun z n t w y x => ?_
      dsimp only
      (repeat' split) <;>
        first | exact strokeFault_keeps _ _ _ _ _ _ | exact vecFault_keeps _ _ _ _ _ _ | exact setPod_keeps _ _ _
  · exact Keeps.launch _ _ _ _ _ _ fun z n t w idx => vecFault_keeps _ _ _ _ _ _

@[simp] theorem ptLoad_keeps (s : State) (g i : Nat) (stip : Bool) :
    (ptLoad s g i stip).pending = s.pending ∧
    (ptLoad s g i stip).sec.fuses = s.sec.fuses := by
  change Keeps s (ptLoad s g i stip)
  unfold ptLoad
  split
  · exact Keeps.stipWith _ _ _ _ _ fun z n t w y x => vecFault_keeps _ _ _ _ _ _
  · refine Keeps.launch _ _ _ _ _ _ fun z n t w idx => ?_
    dsimp only
    split
    · split
      · exact Keeps.trans (bump_keeps z _ _) (setPod_keeps _ _ _)
      · exact setPod_keeps _ _ _
    · exact sfuFault_keeps _ _ _ _ _ _ _ _

@[simp] theorem pipTableReady_keeps (s : State) (g i : Nat) :
    (pipTableReady s g i).pending = s.pending ∧
    (pipTableReady s g i).sec.fuses = s.sec.fuses := by
  simp only [pipTableReady]
  repeat' split
  all_goals simp only [*, arrive_keeps, modPod_keeps, reachHc_keeps, bump_keeps, apply_ite State.pending, apply_ite State.sec, apply_ite Sec.fuses, ite_self, and_self]

@[simp] theorem ptSwap_keeps (s : State) (g i : Nat) (stip : Bool) :
    (ptSwap s g i stip).pending = s.pending ∧
    (ptSwap s g i stip).sec.fuses = s.sec.fuses := by
  simp [ptSwap, apply_ite State.pending, apply_ite State.sec, apply_ite Sec.fuses]

@[simp] theorem recordTrap_keeps (s : State) (g h : Nat) :
    (recordTrap s g h).1.pending = s.pending ∧
    (recordTrap s g h).1.sec.fuses = s.sec.fuses := by
  simp only [recordTrap]
  repeat' split
  all_goals simp only [*, setBits_keeps, recordFault_keeps, and_self]

@[simp] theorem trapStop_keeps (s : State) (n h : Nat) :
    (trapStop s n h).1.pending = s.pending ∧
    (trapStop s n h).1.sec.fuses = s.sec.fuses := by
  simp only [trapStop]
  refine ⟨?_, ?_⟩ <;> repeat' first
    | (split <;> rename_i e <;> try (replace e := congrArg (fun x => (x.1.pending, x.1.sec.fuses)) e; simp only [Prod.mk.injEq, recordTrap_keeps, requestReset_keeps, stopClock_keeps] at e))
    | (with_reducible refine (foldl_pending _ _ _ fun _ _ => ?_).trans ?_)
    | (with_reducible refine (foldl_fuses _ _ _ fun _ _ => ?_).trans ?_)
    | (with_reducible refine (foldPair_pending _ _ _ fun _ _ => ?_).trans ?_)
    | (with_reducible refine (foldPair_fuses _ _ _ fun _ _ => ?_).trans ?_)
    | simp only [*, recordTrap_keeps, requestReset_keeps, stopClock_keeps, and_self]

@[simp] theorem countFlags_keeps (s : State) (d p : Nat) (fs : List Nat) :
    (countFlags s d p fs).pending = s.pending ∧
    (countFlags s d p fs).sec.fuses = s.sec.fuses := by
  simp only [countFlags]
  refine ⟨?_, ?_⟩ <;> repeat' first
    | (split <;> rename_i e <;> try (replace e := congrArg (fun x => (x.1.pending, x.1.sec.fuses)) e; simp only [Prod.mk.injEq, countOps_keeps] at e))
    | (with_reducible refine (foldNat_pending _ _ _ fun _ _ => ?_).trans ?_)
    | (with_reducible refine (foldNat_fuses _ _ _ fun _ _ => ?_).trans ?_)
    | simp only [*, countOps_keeps, and_self]

@[simp] theorem writeRow_keeps (s : State) (n g i h : Nat) (r : VRow) :
    (writeRow s n g i h r).pending = s.pending ∧
    (writeRow s n g i h r).sec.fuses = s.sec.fuses := by
  simp only [writeRow, reachHc_keeps, setBits_keeps, setPod_keeps, unitFault_keeps, countOps_keeps, countFlags_keeps, bump_keeps, foldl_pending, foldl_fuses, apply_ite State.pending, apply_ite State.sec, apply_ite Sec.fuses, ite_self, and_self]

@[simp] theorem vectorRowWrite_keeps (s : State) (g i : Nat) :
    (vectorRowWrite s g i).pending = s.pending ∧
    (vectorRowWrite s g i).sec.fuses = s.sec.fuses := by
  simp only [vectorRowWrite]
  repeat' split
  all_goals simp only [*, advance_keeps, trapStop_keeps, setPod_keeps, unitFault_keeps, writeRow_keeps, apply_ite State.pending, apply_ite State.sec, apply_ite Sec.fuses, ite_self, and_self]

@[simp] theorem xferStroke_keeps (s : State) (g : Nat) (store : Bool) :
    (xferStroke s g store).pending = s.pending ∧
    (xferStroke s g store).sec.fuses = s.sec.fuses := by
  simp [xferStroke, apply_ite State.pending, apply_ite State.sec, apply_ite Sec.fuses]

@[simp] theorem transferRowAccess_keeps (s : State) (g : Nat) :
    (transferRowAccess s g).pending = s.pending ∧
    (transferRowAccess s g).sec.fuses = s.sec.fuses := by
  simp only [transferRowAccess]
  repeat' split
  all_goals simp only [*, arrive_keeps, reachHc_keeps, setPod_keeps, unitFault_keeps, eccFault_keeps, apply_ite State.pending, apply_ite State.sec, apply_ite Sec.fuses, ite_self, and_self]

@[simp] theorem memFault_keeps (s : State) (n g t code idx : Nat) :
    (memFault s n g t code idx).pending = s.pending ∧
    (memFault s n g t code idx).sec.fuses = s.sec.fuses := by
  simp only [memFault, unitFault_keeps, and_self]

@[simp] theorem enqueue_keeps (s : State) (st c owner : Nat) (r : MemReq) :
    (enqueue s st c owner r).pending = s.pending ∧
    (enqueue s st c owner r).sec.fuses = s.sec.fuses := by
  simp only [enqueue, modChan_keeps, and_self]

@[simp] theorem memRead'_keeps (s : State) (g : Nat) :
    (memRead' s g).pending = s.pending ∧
    (memRead' s g).sec.fuses = s.sec.fuses := by
  refine Keeps.launch _ _ _ _ _ _ fun z n t w idx => ?_
  dsimp only
  split
  · exact strokeFault_keeps _ _ _ _ _ _
  · split
    · exact strokeFault_keeps _ _ _ _ _ _
    · split
      · exact memFault_keeps _ _ _ _ _ _
      · split
        · exact Keeps.refl z
        · exact Keeps.trans (modPod_keeps z g _) (enqueue_keeps _ _ _ _ _)

@[simp] theorem memWriteStroke_keeps (s : State) (g : Nat) :
    (memWriteStroke s g).pending = s.pending ∧
    (memWriteStroke s g).sec.fuses = s.sec.fuses := by
  refine Keeps.launch _ _ _ _ _ _ fun z n t w idx => ?_
  dsimp only
  split
  · exact memFault_keeps _ _ _ _ _ _
  · split
    · exact Keeps.refl z
    · generalize portAccess _ _ _ _ = pa
      generalize hm : flushCe _ g = u
      have h : Keeps z u := hm ▸ Keeps.trans (setPod_keeps z g _) (flushCe_keeps _ g)
      split
      · exact h.trans (unitFault_keeps _ _ _ _ _ _ _)
      · split
        · exact h.trans (eccFault_keeps _ _ _ _ _)
        · exact (((((h.trans (modChan_keeps _ _ _ _)).trans (putGranule_keeps _ _ _ _)).trans
            (touchAll_keeps _ _ _)).trans (sample_keeps _ _ _ _))).trans (enqueue_keeps _ _ _ _ _)

@[simp] theorem granuleLanded_keeps (s : State) (g : Nat) :
    (granuleLanded s g).pending = s.pending ∧
    (granuleLanded s g).sec.fuses = s.sec.fuses := by
  simp only [granuleLanded]
  repeat' split
  all_goals simp only [*, setPod_keeps, tryResume_keeps, apply_ite State.pending, apply_ite State.sec, apply_ite Sec.fuses, ite_self, and_self]

@[simp] theorem landingWrite_keeps (s : State) (g : Nat) :
    (landingWrite s g).pending = s.pending ∧
    (landingWrite s g).sec.fuses = s.sec.fuses := by
  simp only [landingWrite]
  repeat' split
  all_goals simp only [*, arrive_keeps, reachHc_keeps, unitFault_keeps, memFault_keeps, touchAll_keeps, sample_keeps, setPod_keeps, apply_ite State.pending, apply_ite State.sec, apply_ite Sec.fuses, ite_self, and_self]

end Sys2Proof.Machine
end

