-- ==== Sys2Proof/Laws/KeepsChannel.lean ====
section
/-! SUPPORT. Frame laws, one per operation: the command queue and the fuse array are as they were, for the channel slots and power. -/

namespace Sys2Proof.Machine

open Sys2Proof

set_option linter.all false
set_option Elab.async false

@[simp] theorem refreshSlot_keeps (s : State) (st c : Nat) :
    (refreshSlot s st c).pending = s.pending ∧
    (refreshSlot s st c).sec.fuses = s.sec.fuses := by
  simp only [refreshSlot]
  refine ⟨?_, ?_⟩ <;> repeat' first
    | (split <;> rename_i e <;> try (replace e := congrArg (fun x => (x.1.pending, x.1.sec.fuses)) e; simp only [Prod.mk.injEq, setChan_keeps, bump_keeps, openRow_keeps] at e))
    | (with_reducible refine (foldl_pending _ _ _ fun _ _ => ?_).trans ?_)
    | (with_reducible refine (foldl_fuses _ _ _ fun _ _ => ?_).trans ?_)
    | simp only [*, setChan_keeps, bump_keeps, openRow_keeps, and_self]

@[simp] theorem migrateSlot_keeps (s : State) (st c : Nat) :
    (migrateSlot s st c).pending = s.pending ∧
    (migrateSlot s st c).sec.fuses = s.sec.fuses := by
  simp only [migrateSlot]
  repeat' split
  all_goals simp only [*, modChan_keeps, openRow_keeps, touchRow_keeps, noteRead_keeps, putGranule_keeps, apply_ite State.pending, apply_ite State.sec, apply_ite Sec.fuses, ite_self, and_self]

@[simp] theorem listPin_keeps (s : State) (st c pin : Nat) :
    (listPin s st c pin).pending = s.pending ∧
    (listPin s st c pin).sec.fuses = s.sec.fuses := by
  simp only [listPin, modStk_keeps, setBits_keeps, apply_ite State.pending, apply_ite State.sec, apply_ite Sec.fuses, ite_self, and_self]

@[simp] theorem scrubPassEnd_keeps (s : State) (st c : Nat) :
    (scrubPassEnd s st c).pending = s.pending ∧
    (scrubPassEnd s st c).sec.fuses = s.sec.fuses := by
  simp only [scrubPassEnd]
  refine ⟨?_, ?_⟩ <;> repeat' first
    | (split <;> rename_i e <;> try (replace e := congrArg (fun x => (x.1.pending, x.1.sec.fuses)) e; simp only [Prod.mk.injEq, bump_keeps, listPin_keeps, modChan_keeps] at e))
    | (with_reducible refine (foldl_pending _ _ _ fun _ _ => ?_).trans ?_)
    | (with_reducible refine (foldl_fuses _ _ _ fun _ _ => ?_).trans ?_)
    | simp only [*, bump_keeps, listPin_keeps, modChan_keeps, and_self]

@[simp] theorem scrubGranule_keeps (s : State) (l : Loc) :
    (scrubGranule s l).pending = s.pending ∧
    (scrubGranule s l).sec.fuses = s.sec.fuses := by
  simp only [scrubGranule]
  repeat' split
  all_goals simp only [*, noteRead_keeps, touchRow_keeps, modChan_keeps, poisonGranule_keeps, and_self]

@[simp] theorem scrubGo_keeps (s : State) (st c : Nat) :
    (scrubGo s st c).pending = s.pending ∧
    (scrubGo s st c).sec.fuses = s.sec.fuses := by
  simp only [scrubGo, scrubGranule_keeps, modChan_keeps, wr_keeps, scrubPassEnd_keeps, apply_ite State.pending, apply_ite State.sec, apply_ite Sec.fuses, ite_self, and_self]

@[simp] theorem scrubRead_keeps (s : State) (st c : Nat) :
    (scrubRead s st c).pending = s.pending ∧
    (scrubRead s st c).sec.fuses = s.sec.fuses := by
  simp only [scrubRead, modChan_keeps, scrubGo_keeps, apply_ite State.pending, apply_ite State.sec, apply_ite Sec.fuses, ite_self, and_self]

@[simp] theorem spareSlot_keeps (s : State) (st c : Nat) :
    (spareSlot s st c).pending = s.pending ∧
    (spareSlot s st c).sec.fuses = s.sec.fuses := by
  simp only [spareSlot, refreshSlot_keeps, scrubGo_keeps, modChan_keeps, migrateSlot_keeps, apply_ite State.pending, apply_ite State.sec, apply_ite Sec.fuses, ite_self, and_self]

@[simp] theorem serveRead_keeps (s : State) (st : Nat) (r : MemReq) :
    (serveRead s st r).pending = s.pending ∧
    (serveRead s st r).sec.fuses = s.sec.fuses := by
  simp only [serveRead, modPod_keeps, bump_keeps, noteRead_keeps, apply_ite State.pending, apply_ite State.sec, apply_ite Sec.fuses, ite_self, and_self]

@[simp] theorem serveWrite_keeps (s : State) (st c : Nat) (r : MemReq) :
    (serveWrite s st c r).pending = s.pending ∧
    (serveWrite s st c r).sec.fuses = s.sec.fuses := by
  simp only [serveWrite]
  refine ⟨?_, ?_⟩ <;> repeat' first
    | (split <;> rename_i e <;> try (replace e := congrArg (fun x => (x.1.pending, x.1.sec.fuses)) e; simp only [Prod.mk.injEq, modChan_keeps, bump_keeps, tryResume_keeps] at e))
    | (with_reducible refine (foldl_pending _ _ _ fun _ _ => ?_).trans ?_)
    | (with_reducible refine (foldl_fuses _ _ _ fun _ _ => ?_).trans ?_)
    | simp only [*, modChan_keeps, bump_keeps, tryResume_keeps, and_self]

@[simp] theorem serveHead_keeps (s : State) (st c owner : Nat) :
    (serveHead s st c owner).pending = s.pending ∧
    (serveHead s st c owner).sec.fuses = s.sec.fuses := by
  simp only [serveHead]
  repeat' split
  all_goals simp only [*, bump_keeps, touchRow_keeps, modChan_keeps, serveWrite_keeps, serveRead_keeps, apply_ite State.pending, apply_ite State.sec, apply_ite Sec.fuses, ite_self, and_self]

@[simp] theorem slotWork_keeps (s : State) (st c n : Nat) :
    (slotWork s st c n).pending = s.pending ∧
    (slotWork s st c n).sec.fuses = s.sec.fuses := by
  simp only [slotWork, spareSlot_keeps, migrateSlot_keeps, refreshSlot_keeps, setBits_keeps, bump_keeps, serveHead_keeps, apply_ite State.pending, apply_ite State.sec, apply_ite Sec.fuses, ite_self, and_self]

@[simp] theorem channelSlot_keeps (s : State) (st c : Nat) :
    (channelSlot s st c).pending = s.pending ∧
    (channelSlot s st c).sec.fuses = s.sec.fuses := by
  simp only [channelSlot, modChan_keeps, slotWork_keeps, apply_ite State.pending, apply_ite State.sec, apply_ite Sec.fuses, ite_self, and_self]

@[simp] theorem migrationCommit_keeps (s : State) (st c : Nat) :
    (migrationCommit s st c).pending = s.pending ∧
    (migrationCommit s st c).sec.fuses = s.sec.fuses := by
  simp only [migrationCommit]
  repeat' split
  all_goals simp only [*, modChan_keeps, wr_keeps, apply_ite State.pending, apply_ite State.sec, apply_ite Sec.fuses, ite_self, and_self]

@[simp] theorem frameBoundary_keeps (s : State) (st : Nat) :
    (frameBoundary s st).pending = s.pending ∧
    (frameBoundary s st).sec.fuses = s.sec.fuses := by
  simp only [frameBoundary, setStk_keeps, apply_ite State.pending, apply_ite State.sec, apply_ite Sec.fuses, ite_self, and_self]

@[simp] theorem commitSlabs_keeps (s : State) (r : Nat) :
    (commitSlabs s r).pending = s.pending ∧
    (commitSlabs s r).sec.fuses = s.sec.fuses := by
  simp only [commitSlabs, foldl_pending, foldl_fuses, and_self]

@[simp] theorem regionCommit_keeps (s : State) (r v : Nat) :
    (regionCommit s r v).pending = s.pending ∧
    (regionCommit s r v).sec.fuses = s.sec.fuses := by
  simp only [regionCommit, commitSlabs_keeps, wr_keeps, apply_ite State.pending, apply_ite State.sec, apply_ite Sec.fuses, ite_self, and_self]

@[simp] theorem scrubWriteback_keeps (s : State) (st c : Nat) :
    (scrubWriteback s st c).pending = s.pending ∧
    (scrubWriteback s st c).sec.fuses = s.sec.fuses := by
  simp only [scrubWriteback]
  repeat' split
  all_goals simp only [*, putGranule_keeps, touchRow_keeps, modChan_keeps, noteRead_keeps, strike_keeps, poisonGranule_keeps, apply_ite State.pending, apply_ite State.sec, apply_ite Sec.fuses, ite_self, and_self]

@[simp] theorem pinFailRead_keeps (s : State) (st : Nat) :
    (pinFailRead s st).pending = s.pending ∧
    (pinFailRead s st).sec.fuses = s.sec.fuses := by
  simp only [pinFailRead]
  repeat' split
  all_goals simp only [*, emit_keeps, modStk_keeps, apply_ite State.pending, apply_ite State.sec, apply_ite Sec.fuses, ite_self, and_self]

@[simp] theorem svcWriteGo_keeps (x0 : Nat) (x1 : State) (x2 x3 x4 x5 : Nat) :
    (svcWriteGo x0 x1 x2 x3 x4 x5).pending = x1.pending ∧
    (svcWriteGo x0 x1 x2 x3 x4 x5).sec.fuses = x1.sec.fuses := by
  induction x0 generalizing x1 x2 x3 x4 with
  | zero => exact ⟨rfl, rfl⟩
  | succ k ih =>
    simp only [svcWriteGo]
    split
    · exact ⟨rfl, rfl⟩
    · rw [(ih _ _ _ _).1, (ih _ _ _ _).2]
      split <;> simp only [takeFlip_keeps, memWriteIn_keeps, and_self]

@[simp] theorem svcWrite_keeps (s : State) (a n v part : Nat) :
    (svcWrite s a n v part).pending = s.pending ∧
    (svcWrite s a n v part).sec.fuses = s.sec.fuses := by
  simp only [svcWrite, touchAll_keeps, svcWriteGo_keeps, and_self]

@[simp] theorem flipPod_keeps (s : State) (g : Nat) :
    (flipPod s g).1.pending = s.pending ∧
    (flipPod s g).1.sec.fuses = s.sec.fuses := by
  simp only [flipPod]
  repeat' split
  all_goals simp only [*, setBits_keeps, wr_keeps, apply_ite State.pending, apply_ite State.sec, apply_ite Sec.fuses, ite_self, and_self]

@[simp] theorem aimRatio_keeps (s : State) (n : Nat) :
    (aimRatio s n).pending = s.pending ∧
    (aimRatio s n).sec.fuses = s.sec.fuses := by
  simp only [aimRatio, modGen_keeps, apply_ite State.pending, apply_ite State.sec, apply_ite Sec.fuses, ite_self, and_self]

@[simp] theorem aimAll_keeps (s : State) :
    (aimAll s).pending = s.pending ∧
    (aimAll s).sec.fuses = s.sec.fuses := by
  simp only [aimAll]
  refine ⟨?_, ?_⟩ <;> repeat' first
    | (split <;> rename_i e <;> try (replace e := congrArg (fun x => (x.1.pending, x.1.sec.fuses)) e; simp only [Prod.mk.injEq, aimRatio_keeps] at e))
    | (with_reducible refine (foldl_pending _ _ _ fun _ _ => ?_).trans ?_)
    | (with_reducible refine (foldl_fuses _ _ _ fun _ _ => ?_).trans ?_)
    | simp only [*, aimRatio_keeps, and_self]

@[simp] theorem setLane_keeps (s : State) :
    (setLane s).pending = s.pending ∧
    (setLane s).sec.fuses = s.sec.fuses := by
  simp only [setLane]
  refine ⟨?_, ?_⟩ <;> repeat' first
    | (split <;> rename_i e <;> try (replace e := congrArg (fun x => (x.1.pending, x.1.sec.fuses)) e; simp only [Prod.mk.injEq, modGen_keeps] at e))
    | (with_reducible refine (foldl_pending _ _ _ fun _ _ => ?_).trans ?_)
    | (with_reducible refine (foldl_fuses _ _ _ fun _ _ => ?_).trans ?_)
    | simp only [*, modGen_keeps, apply_ite State.pending, apply_ite State.sec, apply_ite Sec.fuses, ite_self, and_self]

@[simp] theorem startDrain_keeps (s : State) :
    (startDrain s).pending = s.pending ∧
    (startDrain s).sec.fuses = s.sec.fuses := by
  simp only [startDrain, setBits_keeps, apply_ite State.pending, apply_ite State.sec, apply_ite Sec.fuses, ite_self, and_self]

@[simp] theorem touchLane_keeps (s : State) :
    (touchLane s).pending = s.pending ∧
    (touchLane s).sec.fuses = s.sec.fuses := by
  simp only [touchLane, startDrain_keeps, setLane_keeps, apply_ite State.pending, apply_ite State.sec, apply_ite Sec.fuses, ite_self, and_self]

@[simp] theorem setCap_keeps (s : State) (w : Nat) :
    (setCap s w).pending = s.pending ∧
    (setCap s w).sec.fuses = s.sec.fuses := by
  simp only [setCap, setBits_keeps, wr_keeps, apply_ite State.pending, apply_ite State.sec, apply_ite Sec.fuses, ite_self, and_self]

@[simp] theorem updateCap_keeps (s : State) :
    (updateCap s).pending = s.pending ∧
    (updateCap s).sec.fuses = s.sec.fuses := by
  simp only [updateCap, startDrain_keeps, wr_keeps, setCap_keeps, apply_ite State.pending, apply_ite State.sec, apply_ite Sec.fuses, ite_self, and_self]

@[simp] theorem capWrite_keeps (s : State) (r : Requester) (d o v : Nat) :
    (capWrite s r d o v).pending = s.pending ∧
    (capWrite s r d o v).sec.fuses = s.sec.fuses := by
  simp [capWrite, apply_ite State.pending, apply_ite State.sec, apply_ite Sec.fuses]

@[simp] theorem grantTo_keeps (s : State) (r : GrantRow) :
    (grantTo s r).pending = s.pending ∧
    (grantTo s r).sec.fuses = s.sec.fuses := by
  simp only [grantTo, modGen_keeps, and_self]

@[simp] theorem pushFloors_keeps (s : State) :
    (pushFloors s).pending = s.pending ∧
    (pushFloors s).sec.fuses = s.sec.fuses := by
  simp only [pushFloors, and_self]

@[simp] theorem pace_keeps (s : State) (on : Bool) :
    (pace s on).pending = s.pending ∧
    (pace s on).sec.fuses = s.sec.fuses := by
  simp only [pace, pickOf_keeps, setBits_keeps, wr_keeps, apply_ite State.pending, apply_ite State.sec, apply_ite Sec.fuses, ite_self, and_self]

@[simp] theorem stewardGrant_keeps (s : State) :
    (stewardGrant s).pending = s.pending ∧
    (stewardGrant s).sec.fuses = s.sec.fuses := by
  simp only [stewardGrant]
  refine ⟨?_, ?_⟩ <;> repeat' first
    | (split <;> rename_i e <;> try (replace e := congrArg (fun x => (x.1.pending, x.1.sec.fuses)) e; simp only [Prod.mk.injEq, pushFloors_keeps, modGen_keeps, updateCap_keeps, setLane_keeps, grantTo_keeps, pace_keeps] at e))
    | (with_reducible refine (foldl_pending _ _ _ fun _ _ => ?_).trans ?_)
    | (with_reducible refine (foldl_fuses _ _ _ fun _ _ => ?_).trans ?_)
    | simp only [*, pushFloors_keeps, modGen_keeps, updateCap_keeps, setLane_keeps, grantTo_keeps, pace_keeps, apply_ite State.pending, apply_ite State.sec, apply_ite Sec.fuses, ite_self, and_self]

@[simp] theorem quarter_keeps (s : State) (n : Nat) (e : QuarterEvents) :
    (quarter s n e).pending = s.pending ∧
    (quarter s n e).sec.fuses = s.sec.fuses := by
  simp only [quarter, modGen_keeps, aimRatio_keeps, apply_ite State.pending, apply_ite State.sec, apply_ite Sec.fuses, ite_self, and_self]

@[simp] theorem nextGain_keeps (s : State) (m p sum : Rat) :
    (nextGain s m p sum).pending = s.pending ∧
    (nextGain s m p sum).sec.fuses = s.sec.fuses := by
  simp only [nextGain, nextFree_keeps, apply_ite State.pending, apply_ite State.sec, apply_ite Sec.fuses, ite_self, and_self]

@[simp] theorem writeTelemetry_keeps (s : State) (d watts : Nat) :
    (writeTelemetry s d watts).pending = s.pending ∧
    (writeTelemetry s d watts).sec.fuses = s.sec.fuses := by
  simp only [writeTelemetry, wr_keeps, apply_ite State.pending, apply_ite State.sec, apply_ite Sec.fuses, ite_self, and_self]

@[simp] theorem validSample_keeps (s : State) (a : PowerSample) :
    (validSample s a).pending = s.pending ∧
    (validSample s a).sec.fuses = s.sec.fuses := by
  simp only [validSample]
  refine ⟨?_, ?_⟩ <;> repeat' first
    | (split <;> rename_i e <;> try (replace e := congrArg (fun x => (x.1.pending, x.1.sec.fuses)) e; simp only [Prod.mk.injEq, nextGain_keeps, hold_keeps, setBits_keeps, writeTelemetry_keeps, modGen_keeps] at e))
    | (with_reducible refine (foldl_pending _ _ _ fun _ _ => ?_).trans ?_)
    | (with_reducible refine (foldl_fuses _ _ _ fun _ _ => ?_).trans ?_)
    | simp only [*, nextGain_keeps, hold_keeps, setBits_keeps, writeTelemetry_keeps, modGen_keeps, apply_ite State.pending, apply_ite State.sec, apply_ite Sec.fuses, ite_self, and_self]

@[simp] theorem pauseCopies_keeps (s : State) (st : Nat) :
    (pauseCopies s st).pending = s.pending ∧
    (pauseCopies s st).sec.fuses = s.sec.fuses := by
  simp only [pauseCopies, apply_ite State.pending, apply_ite State.sec, apply_ite Sec.fuses, ite_self, and_self]

@[simp] theorem stackSample_keeps (s : State) (st t : Nat) :
    (stackSample s st t).pending = s.pending ∧
    (stackSample s st t).sec.fuses = s.sec.fuses := by
  simp only [stackSample, setStk_keeps, setBits_keeps, wr_keeps, pauseCopies_keeps, aimAll_keeps, touchLane_keeps, foldl_pending, foldl_fuses, apply_ite State.pending, apply_ite State.sec, apply_ite Sec.fuses, ite_self, and_self]

@[simp] theorem dieSample_keeps (s : State) (d : Nat) (ts : List Nat) :
    (dieSample s d ts).pending = s.pending ∧
    (dieSample s d ts).sec.fuses = s.sec.fuses := by
  simp only [dieSample, setBits_keeps, aimAll_keeps, touchLane_keeps, foldl_pending, foldl_fuses, apply_ite State.pending, apply_ite State.sec, apply_ite Sec.fuses, ite_self, and_self]

@[simp] theorem droop_keeps (s : State) (d : Nat) :
    (droop s d).pending = s.pending ∧
    (droop s d).sec.fuses = s.sec.fuses := by
  simp only [droop]
  refine ⟨?_, ?_⟩ <;> repeat' first
    | (split <;> rename_i e <;> try (replace e := congrArg (fun x => (x.1.pending, x.1.sec.fuses)) e; simp only [Prod.mk.injEq, setBits_keeps, bump_keeps, aimRatio_keeps, modGen_keeps] at e))
    | (with_reducible refine (foldl_pending _ _ _ fun _ _ => ?_).trans ?_)
    | (with_reducible refine (foldl_fuses _ _ _ fun _ _ => ?_).trans ?_)
    | simp only [*, setBits_keeps, bump_keeps, aimRatio_keeps, modGen_keeps, apply_ite State.pending, apply_ite State.sec, apply_ite Sec.fuses, ite_self, and_self]

@[simp] theorem addEnergy_keeps (s : State) (a pj : Nat) :
    (addEnergy s a pj).pending = s.pending ∧
    (addEnergy s a pj).sec.fuses = s.sec.fuses := by
  simp [addEnergy]

@[simp] theorem energy_keeps (s : State) (d : Nat) (e : EnergySample) :
    (energy s d e).pending = s.pending ∧
    (energy s d e).sec.fuses = s.sec.fuses := by
  simp only [energy]
  refine ⟨?_, ?_⟩ <;> repeat' first
    | (split <;> rename_i e <;> try (replace e := congrArg (fun x => (x.1.pending, x.1.sec.fuses)) e; simp only [Prod.mk.injEq, addEnergy_keeps, logEv_keeps] at e))
    | (with_reducible refine (foldl_pending _ _ _ fun _ _ => ?_).trans ?_)
    | (with_reducible refine (foldl_fuses _ _ _ fun _ _ => ?_).trans ?_)
    | simp only [*, addEnergy_keeps, logEv_keeps, apply_ite State.pending, apply_ite State.sec, apply_ite Sec.fuses, ite_self, and_self]

end Sys2Proof.Machine
end

