-- ==== Sys2Proof/Laws/KeepsPlate.lean ====
section
/-! SUPPORT. Frame laws, one per operation: the command queue and the fuse array are as they were, for plates, queries, probes and register reads. -/

namespace Sys2Proof.Machine

open Sys2Proof

set_option linter.all false
set_option Elab.async false

@[simp] theorem plateEvent_keeps (s : State) (p k : Nat) :
    (plateEvent s p k).pending = s.pending ∧
    (plateEvent s p k).sec.fuses = s.sec.fuses := by
  simp only [plateEvent, setBits_keeps, and_self]

@[simp] theorem plateFault_keeps (s : State) (p : Nat) (f : PFault) :
    (plateFault s p f).pending = s.pending ∧
    (plateFault s p f).sec.fuses = s.sec.fuses := by
  simp only [plateFault, wr_keeps, and_self]

@[simp] theorem notAccepted_keeps (s : State) (p code : Nat) :
    (notAccepted s p code).pending = s.pending ∧
    (notAccepted s p code).sec.fuses = s.sec.fuses := by
  simp only [notAccepted, plateEvent_keeps, plateFault_keeps, and_self]

@[simp] theorem countTable_keeps (s : State) (t : Tbl DescE) (up : Bool) :
    (countTable s t up).pending = s.pending ∧
    (countTable s t up).sec.fuses = s.sec.fuses := by
  simp only [countTable]
  refine ⟨?_, ?_⟩ <;> repeat' first
    | (split <;> rename_i e <;> try (replace e := congrArg (fun x => (x.1.pending, x.1.sec.fuses)) e; simp only [Prod.mk.injEq, countDesc_keeps] at e))
    | (with_reducible refine (foldl_pending _ _ _ fun _ _ => ?_).trans ?_)
    | (with_reducible refine (foldl_fuses _ _ _ fun _ _ => ?_).trans ?_)
    | simp only [*, countDesc_keeps, and_self]

@[simp] theorem dropStaged_keeps (s : State) (p : Nat) :
    (dropStaged s p).pending = s.pending ∧
    (dropStaged s p).sec.fuses = s.sec.fuses := by
  simp only [dropStaged, modPart_keeps, countTable_keeps, and_self]

@[simp] theorem dropDescs_keeps (s : State) (p : Nat) :
    (dropDescs s p).pending = s.pending ∧
    (dropDescs s p).sec.fuses = s.sec.fuses := by
  simp only [dropDescs, modPart_keeps, countTable_keeps, and_self]

@[simp] theorem loadCmd_keeps (s : State) (p : Nat) (replace : Bool) :
    (loadCmd s p replace).pending = s.pending ∧
    (loadCmd s p replace).sec.fuses = s.sec.fuses := by
  simp only [loadCmd, notAccepted_keeps, modPart_keeps, dropStaged_keeps, apply_ite State.pending, apply_ite State.sec, apply_ite Sec.fuses, ite_self, and_self]

@[simp] theorem refuseLoad_keeps (s : State) (p : Nat) (f : PFault) :
    (refuseLoad s p f).pending = s.pending ∧
    (refuseLoad s p f).sec.fuses = s.sec.fuses := by
  simp only [refuseLoad, plateEvent_keeps, plateFault_keeps, modPart_keeps, and_self]

@[simp] theorem loadCopied_keeps (s : State) (p : Nat) :
    (loadCopied s p).pending = s.pending ∧
    (loadCopied s p).sec.fuses = s.sec.fuses := by
  simp only [loadCopied, refuseLoad_keeps, memNote_keeps, modPart_keeps, apply_ite State.pending, apply_ite State.sec, apply_ite Sec.fuses, ite_self, and_self]

@[simp] theorem logSkipped_keeps (s : State) (p : Nat) (m : Mem) :
    (logSkipped s p m).pending = s.pending ∧
    (logSkipped s p m).sec.fuses = s.sec.fuses := by
  simp only [logSkipped]
  refine ⟨?_, ?_⟩ <;> repeat' first
    | (split <;> rename_i e <;> try (replace e := congrArg (fun x => (x.1.pending, x.1.sec.fuses)) e; simp only [Prod.mk.injEq, logEv_keeps] at e))
    | (with_reducible refine (foldl_pending _ _ _ fun _ _ => ?_).trans ?_)
    | (with_reducible refine (foldl_fuses _ _ _ fun _ _ => ?_).trans ?_)
    | simp only [*, logEv_keeps, and_self]

@[simp] theorem loadVerified_keeps (s : State) (p : Nat) :
    (loadVerified s p).pending = s.pending ∧
    (loadVerified s p).sec.fuses = s.sec.fuses := by
  simp only [loadVerified]
  repeat' split
  all_goals simp only [*, logSkipped_keeps, refuseLoad_keeps, plateEvent_keeps, modPart_keeps, countTable_keeps, apply_ite State.pending, apply_ite State.sec, apply_ite Sec.fuses, ite_self, and_self]

@[simp] theorem discardCmd_keeps (s : State) (p : Nat) :
    (discardCmd s p).pending = s.pending ∧
    (discardCmd s p).sec.fuses = s.sec.fuses := by
  simp only [discardCmd, notAccepted_keeps, dropStaged_keeps, apply_ite State.pending, apply_ite State.sec, apply_ite Sec.fuses, ite_self, and_self]

@[simp] theorem abortLoad_keeps (s : State) (p : Nat) :
    (abortLoad s p).pending = s.pending ∧
    (abortLoad s p).sec.fuses = s.sec.fuses := by
  simp only [abortLoad, plateFault_keeps, dropStaged_keeps, and_self]

@[simp] theorem abortCmd_keeps (s : State) (p : Nat) :
    (abortCmd s p).pending = s.pending ∧
    (abortCmd s p).sec.fuses = s.sec.fuses := by
  simp only [abortCmd]
  repeat' split
  all_goals simp only [*, notAccepted_keeps, abortLoad_keeps, apply_ite State.pending, apply_ite State.sec, apply_ite Sec.fuses, ite_self, and_self]

@[simp] theorem badCommand_keeps (s : State) (p op : Nat) :
    (badCommand s p op).pending = s.pending ∧
    (badCommand s p op).sec.fuses = s.sec.fuses := by
  simp only [badCommand, notAccepted_keeps, apply_ite State.pending, apply_ite State.sec, apply_ite Sec.fuses, ite_self, and_self]

@[simp] theorem takeStaged_keeps (s : State) (p : Nat) :
    (takeStaged s p).pending = s.pending ∧
    (takeStaged s p).sec.fuses = s.sec.fuses := by
  simp only [takeStaged, modPart_keeps, dropDescs_keeps, and_self]

@[simp] theorem beginActivate_keeps (s : State) (p : Nat) :
    (beginActivate s p).pending = s.pending ∧
    (beginActivate s p).sec.fuses = s.sec.fuses := by
  simp only [beginActivate, modPart_keeps, and_self]

@[simp] theorem activateCmd_keeps (s : State) (p : Nat) :
    (activateCmd s p).pending = s.pending ∧
    (activateCmd s p).sec.fuses = s.sec.fuses := by
  simp only [activateCmd, notAccepted_keeps, modPart_keeps, beginActivate_keeps, takeStaged_keeps, apply_ite State.pending, apply_ite State.sec, apply_ite Sec.fuses, ite_self, and_self]

@[simp] theorem packDests_keeps (s : State) (d : Nat) :
    (packDests s d).pending = s.pending ∧
    (packDests s d).sec.fuses = s.sec.fuses := by
  simp only [packDests]
  refine ⟨?_, ?_⟩ <;> repeat' first
    | (split <;> rename_i e <;> try (replace e := congrArg (fun x => (x.1.pending, x.1.sec.fuses)) e; simp only [Prod.mk.injEq, setCtr_keeps] at e))
    | (with_reducible refine (foldl_pending _ _ _ fun _ _ => ?_).trans ?_)
    | (with_reducible refine (foldl_fuses _ _ _ fun _ _ => ?_).trans ?_)
    | (with_reducible refine (foldNat_pending _ _ _ fun _ _ => ?_).trans ?_)
    | (with_reducible refine (foldNat_fuses _ _ _ fun _ _ => ?_).trans ?_)
    | (with_reducible refine (foldPair_pending _ _ _ fun _ _ => ?_).trans ?_)
    | (with_reducible refine (foldPair_fuses _ _ _ fun _ _ => ?_).trans ?_)
    | simp only [*, setCtr_keeps, and_self]

@[simp] theorem placeCons_keeps (s : State) (p id kind initial : Nat) :
    (placeCons s p id kind initial).1.pending = s.pending ∧
    (placeCons s p id kind initial).1.sec.fuses = s.sec.fuses := by
  simp only [placeCons, pickOf_keeps, and_self]

@[simp] theorem placeCtr_keeps (s : State) (p : Nat) (m : Mem) (r : Nat) :
    (placeCtr s p m r).pending = s.pending ∧
    (placeCtr s p m r).sec.fuses = s.sec.fuses := by
  simp only [placeCtr]
  refine ⟨?_, ?_⟩ <;> repeat' first
    | (split <;> rename_i e <;> try (replace e := congrArg (fun x => (x.1.pending, x.1.sec.fuses)) e; simp only [Prod.mk.injEq, packDests_keeps, pickOf_keeps, setCtr_keeps] at e))
    | (with_reducible refine (foldNat_pending _ _ _ fun _ _ => ?_).trans ?_)
    | (with_reducible refine (foldNat_fuses _ _ _ fun _ _ => ?_).trans ?_)
    | simp only [*, packDests_keeps, pickOf_keeps, setCtr_keeps, apply_ite State.pending, apply_ite State.sec, apply_ite Sec.fuses, ite_self, and_self]

@[simp] theorem placeSync_keeps (s : State) (p : Nat) (m : Mem) :
    (placeSync s p m).pending = s.pending ∧
    (placeSync s p m).sec.fuses = s.sec.fuses := by
  simp only [placeSync]
  refine ⟨?_, ?_⟩ <;> repeat' first
    | (split <;> rename_i e <;> try (replace e := congrArg (fun x => (x.1.pending, x.1.sec.fuses)) e; simp only [Prod.mk.injEq, placeCtr_keeps, releaseCtrs_keeps, modPart_keeps, placeCons_keeps] at e))
    | (with_reducible refine (foldl_pending _ _ _ fun _ _ => ?_).trans ?_)
    | (with_reducible refine (foldl_fuses _ _ _ fun _ _ => ?_).trans ?_)
    | simp only [*, placeCtr_keeps, releaseCtrs_keeps, modPart_keeps, placeCons_keeps, and_self]

@[simp] theorem takeChans_keeps (s : State) (p : Nat) (m : Mem) :
    (takeChans s p m).pending = s.pending ∧
    (takeChans s p m).sec.fuses = s.sec.fuses := by
  simp only [takeChans]
  refine ⟨?_, ?_⟩ <;> repeat' first
    | (split <;> rename_i e <;> try (replace e := congrArg (fun x => (x.1.pending, x.1.sec.fuses)) e; simp only [Prod.mk.injEq, wr_keeps] at e))
    | (with_reducible refine (foldl_pending _ _ _ fun _ _ => ?_).trans ?_)
    | (with_reducible refine (foldl_fuses _ _ _ fun _ _ => ?_).trans ?_)
    | simp only [*, wr_keeps, apply_ite State.pending, apply_ite State.sec, apply_ite Sec.fuses, ite_self, and_self]

@[simp] theorem placeFrames_keeps (s : State) (p : Nat) (ent : Nat → Nat → Nat) :
    (placeFrames s p ent).pending = s.pending ∧
    (placeFrames s p ent).sec.fuses = s.sec.fuses := by
  simp only [placeFrames]
  refine ⟨?_, ?_⟩ <;> repeat' first
    | (split <;> rename_i e <;> try (replace e := congrArg (fun x => (x.1.pending, x.1.sec.fuses)) e; simp only [Prod.mk.injEq, modStk_keeps] at e))
    | (with_reducible refine (foldl_pending _ _ _ fun _ _ => ?_).trans ?_)
    | (with_reducible refine (foldl_fuses _ _ _ fun _ _ => ?_).trans ?_)
    | simp only [*, modStk_keeps, apply_ite State.pending, apply_ite State.sec, apply_ite Sec.fuses, ite_self, and_self]

@[simp] theorem placeLayer_keeps (s : State) (p l : Nat) :
    (placeLayer s p l).1.pending = s.pending ∧
    (placeLayer s p l).1.sec.fuses = s.sec.fuses := by
  simp only [placeLayer]
  repeat' split
  all_goals simp only [*, placeCons_keeps, apply_ite State.pending, apply_ite State.sec, apply_ite Sec.fuses, ite_self, and_self]

@[simp] theorem placeLists_keeps (s : State) (p : Nat) (m : Mem) :
    (placeLists s p m).pending = s.pending ∧
    (placeLists s p m).sec.fuses = s.sec.fuses := by
  simp only [placeLists]
  refine ⟨?_, ?_⟩ <;> repeat' first
    | (split <;> rename_i e <;> try (replace e := congrArg (fun x => (x.1.pending, x.1.sec.fuses)) e; simp only [Prod.mk.injEq, emptyLists_keeps, placeLayer_keeps, modUpe_keeps, upeStart_keeps] at e))
    | (with_reducible refine (foldl_pending _ _ _ fun _ _ => ?_).trans ?_)
    | (with_reducible refine (foldl_fuses _ _ _ fun _ _ => ?_).trans ?_)
    | simp only [*, emptyLists_keeps, placeLayer_keeps, modUpe_keeps, upeStart_keeps, and_self]

@[simp] theorem clearPodRegs_keeps (s : State) (g : Nat) :
    (clearPodRegs s g).pending = s.pending ∧
    (clearPodRegs s g).sec.fuses = s.sec.fuses := by
  simp [clearPodRegs]

@[simp] theorem startGen_keeps (s : State) (p : Nat) (m : Mem) (h : Nat × Nat) :
    (startGen s p m h).pending = s.pending ∧
    (startGen s p m h).sec.fuses = s.sec.fuses := by
  simp only [startGen]
  refine ⟨?_, ?_⟩ <;> repeat' first
    | (split <;> rename_i e <;> try (replace e := congrArg (fun x => (x.1.pending, x.1.sec.fuses)) e; simp only [Prod.mk.injEq, clearPodRegs_keeps, modPod_keeps, nextFree_keeps, modGen_keeps] at e))
    | (with_reducible refine (foldl_pending _ _ _ fun _ _ => ?_).trans ?_)
    | (with_reducible refine (foldl_fuses _ _ _ fun _ _ => ?_).trans ?_)
    | (with_reducible refine (foldPair_pending _ _ _ fun _ _ => ?_).trans ?_)
    | (with_reducible refine (foldPair_fuses _ _ _ fun _ _ => ?_).trans ?_)
    | simp only [*, clearPodRegs_keeps, modPod_keeps, nextFree_keeps, modGen_keeps, apply_ite State.pending, apply_ite State.sec, apply_ite Sec.fuses, ite_self, and_self]

@[simp] theorem clearHatches_keeps (s : State) (p : Nat) :
    (clearHatches s p).pending = s.pending ∧
    (clearHatches s p).sec.fuses = s.sec.fuses := by
  simp only [clearHatches]
  refine ⟨?_, ?_⟩ <;> repeat' first
    | (split <;> rename_i e <;> try (replace e := congrArg (fun x => (x.1.pending, x.1.sec.fuses)) e; simp only [Prod.mk.injEq, clearPodRegs_keeps, modPod_keeps] at e))
    | (with_reducible refine (foldl_pending _ _ _ fun _ _ => ?_).trans ?_)
    | (with_reducible refine (foldl_fuses _ _ _ fun _ _ => ?_).trans ?_)
    | simp only [*, clearPodRegs_keeps, modPod_keeps, apply_ite State.pending, apply_ite State.sec, apply_ite Sec.fuses, ite_self, and_self]

@[simp] theorem extendMeas_keeps (s : State) (j x : Nat) :
    (extendMeas s j x).pending = s.pending ∧
    (extendMeas s j x).sec.fuses = s.sec.fuses := by
  simp only [extendMeas, modSec_keeps, nextFree_keeps, modSec_fuses, apply_ite State.pending, apply_ite State.sec, apply_ite Sec.fuses, ite_self, and_self]

@[simp] theorem extend_keeps (s : State) (j x : Nat) :
    (extend s j x).pending = s.pending ∧
    (extend s j x).sec.fuses = s.sec.fuses := by
  simp only [extend, modSec_keeps, extendMeas_keeps, modSec_fuses, apply_ite State.pending, apply_ite State.sec, apply_ite Sec.fuses, ite_self, and_self]

@[simp] theorem checkRunning_keeps (s : State) (p : Nat) :
    (checkRunning s p).pending = s.pending ∧
    (checkRunning s p).sec.fuses = s.sec.fuses := by
  simp only [checkRunning, plateEvent_keeps, modPart_keeps, apply_ite State.pending, apply_ite State.sec, apply_ite Sec.fuses, ite_self, and_self]

@[simp] theorem distribute_keeps (s : State) (p : Nat) :
    (distribute s p).pending = s.pending ∧
    (distribute s p).sec.fuses = s.sec.fuses := by
  simp only [distribute]
  refine ⟨?_, ?_⟩ <;> repeat' first
    | (split <;> rename_i e <;> try (replace e := congrArg (fun x => (x.1.pending, x.1.sec.fuses)) e; simp only [Prod.mk.injEq, clearHatches_keeps, placeSync_keeps, takeChans_keeps, placeFrames_keeps, placeLists_keeps, modPart_keeps, extend_keeps, startGen_keeps, checkRunning_keeps] at e))
    | (with_reducible refine (foldl_pending _ _ _ fun _ _ => ?_).trans ?_)
    | (with_reducible refine (foldl_fuses _ _ _ fun _ _ => ?_).trans ?_)
    | simp only [*, clearHatches_keeps, placeSync_keeps, takeChans_keeps, placeFrames_keeps, placeLists_keeps, modPart_keeps, extend_keeps, startGen_keeps, checkRunning_keeps, apply_ite State.pending, apply_ite State.sec, apply_ite Sec.fuses, ite_self, and_self]

@[simp] theorem startEdge_keeps (s : State) (n : Nat) :
    (startEdge s n).pending = s.pending ∧
    (startEdge s n).sec.fuses = s.sec.fuses := by
  simp only [startEdge, checkRunning_keeps, setGen_keeps, apply_ite State.pending, apply_ite State.sec, apply_ite Sec.fuses, ite_self, and_self]

@[simp] theorem dropPermits_keeps (s : State) (p : Nat) :
    (dropPermits s p).1.pending = s.pending ∧
    (dropPermits s p).1.sec.fuses = s.sec.fuses := by
  simp only [dropPermits, modPart_keeps, plateEvent_keeps, apply_ite State.pending, apply_ite State.sec, apply_ite Sec.fuses, ite_self, and_self]

@[simp] theorem retirePermits_keeps (s : State) (p : Nat) :
    (retirePermits s p).pending = s.pending ∧
    (retirePermits s p).sec.fuses = s.sec.fuses := by
  simp only [retirePermits, dropPermits_keeps, logEv_keeps, apply_ite State.pending, apply_ite State.sec, apply_ite Sec.fuses, ite_self, and_self]

@[simp] theorem emptyActive_keeps (s : State) (p : Nat) :
    (emptyActive s p).pending = s.pending ∧
    (emptyActive s p).sec.fuses = s.sec.fuses := by
  simp only [emptyActive, modPart_keeps, dropDescs_keeps, and_self]

@[simp] theorem stopHatches_keeps (s : State) (p : Nat) :
    (stopHatches s p).pending = s.pending ∧
    (stopHatches s p).sec.fuses = s.sec.fuses := by
  simp only [stopHatches, apply_ite State.pending, apply_ite State.sec, apply_ite Sec.fuses, ite_self, and_self]

@[simp] theorem discardReqs_keeps (s : State) (p : Nat) :
    (discardReqs s p).pending = s.pending ∧
    (discardReqs s p).sec.fuses = s.sec.fuses := by
  simp only [discardReqs]
  refine ⟨?_, ?_⟩ <;> repeat' first
    | (split <;> rename_i e <;> try (replace e := congrArg (fun x => (x.1.pending, x.1.sec.fuses)) e; simp only [Prod.mk.injEq, bump_keeps] at e))
    | (with_reducible refine (foldl_pending _ _ _ fun _ _ => ?_).trans ?_)
    | (with_reducible refine (foldl_fuses _ _ _ fun _ _ => ?_).trans ?_)
    | simp only [*, bump_keeps, apply_ite State.pending, apply_ite State.sec, apply_ite Sec.fuses, ite_self, and_self]

@[simp] theorem retireNow_keeps (s : State) (p : Nat) :
    (retireNow s p).pending = s.pending ∧
    (retireNow s p).sec.fuses = s.sec.fuses := by
  simp only [retireNow]
  refine ⟨?_, ?_⟩ <;> repeat' first
    | (split <;> rename_i e <;> try (replace e := congrArg (fun x => (x.1.pending, x.1.sec.fuses)) e; simp only [Prod.mk.injEq, stopHatches_keeps, breakCtr_keeps, dropChanges_keeps, releaseCtrs_keeps, emptyLists_keeps, retirePermits_keeps, voidLane_keeps, freeChan_keeps, placeFrames_keeps, discardReqs_keeps, emptyActive_keeps] at e))
    | (with_reducible refine (foldl_pending _ _ _ fun _ _ => ?_).trans ?_)
    | (with_reducible refine (foldl_fuses _ _ _ fun _ _ => ?_).trans ?_)
    | simp only [*, stopHatches_keeps, breakCtr_keeps, dropChanges_keeps, releaseCtrs_keeps, emptyLists_keeps, retirePermits_keeps, voidLane_keeps, freeChan_keeps, placeFrames_keeps, discardReqs_keeps, emptyActive_keeps, apply_ite State.pending, apply_ite State.sec, apply_ite Sec.fuses, ite_self, and_self]

@[simp] theorem retireCmd_keeps (s : State) (p : Nat) :
    (retireCmd s p).pending = s.pending ∧
    (retireCmd s p).sec.fuses = s.sec.fuses := by
  simp only [retireCmd, notAccepted_keeps, plateEvent_keeps, retireNow_keeps, modPart_keeps, apply_ite State.pending, apply_ite State.sec, apply_ite Sec.fuses, ite_self, and_self]

@[simp] theorem retireComplete_keeps (s : State) (p : Nat) :
    (retireComplete s p).pending = s.pending ∧
    (retireComplete s p).sec.fuses = s.sec.fuses := by
  simp only [retireComplete, retireNow_keeps, beginActivate_keeps, takeStaged_keeps, plateEvent_keeps, apply_ite State.pending, apply_ite State.sec, apply_ite Sec.fuses, ite_self, and_self]

@[simp] theorem fencePermit_keeps (s : State) (r : Requester) (p : Nat) :
    (fencePermit s r p).pending = s.pending ∧
    (fencePermit s r p).sec.fuses = s.sec.fuses := by
  simp only [fencePermit, apply_ite State.pending, apply_ite State.sec, apply_ite Sec.fuses, ite_self, and_self]

@[simp] theorem permitWrite_keeps (s : State) (r : Requester) (p n : Nat) :
    (permitWrite s r p n).pending = s.pending ∧
    (permitWrite s r p n).sec.fuses = s.sec.fuses := by
  simp only [permitWrite, plateEvent_keeps, fencePermit_keeps, setPart_keeps, apply_ite State.pending, apply_ite State.sec, apply_ite Sec.fuses, ite_self, and_self]

@[simp] theorem pulse_keeps (s : State) (src : Nat) :
    (pulse s src).pending = s.pending ∧
    (pulse s src).sec.fuses = s.sec.fuses := by
  simp only [pulse, apply_ite State.pending, apply_ite State.sec, apply_ite Sec.fuses, ite_self, and_self]

@[simp] theorem ringWrite_keeps (s : State) (a n v : Nat) :
    (ringWrite s a n v).pending = s.pending ∧
    (ringWrite s a n v).sec.fuses = s.sec.fuses := by
  simp only [ringWrite, svcWrite_keeps, and_self]

@[simp] theorem ringReceive_keeps (s : State) (r : Nat) (f : List Byte) (csumBad : Bool) :
    (ringReceive s r f csumBad).pending = s.pending ∧
    (ringReceive s r f csumBad).sec.fuses = s.sec.fuses := by
  simp only [ringReceive, bump_keeps, ringWrite_keeps, pulse_keeps, wr_keeps, apply_ite State.pending, apply_ite State.sec, apply_ite Sec.fuses, ite_self, and_self]

@[simp] theorem ringTransmit_keeps (s : State) (j : Nat) :
    (ringTransmit s j).pending = s.pending ∧
    (ringTransmit s j).sec.fuses = s.sec.fuses := by
  simp only [ringTransmit, emit_keeps, ringWrite_keeps, pulse_keeps, wr_keeps, apply_ite State.pending, apply_ite State.sec, apply_ite Sec.fuses, ite_self, and_self]

@[simp] theorem admitReq_keeps (s : State) (p : Nat) (c : QClass) (q : QPeer) (id : Nat) (bytes : List Byte) :
    (admitReq s p c q id bytes).pending = s.pending ∧
    (admitReq s p c q id bytes).sec.fuses = s.sec.fuses := by
  simp only [admitReq, bump_keeps, svcWrite_keeps, sendBusy_keeps, apply_ite State.pending, apply_ite State.sec, apply_ite Sec.fuses, ite_self, and_self]

@[simp] theorem complete_keeps (s : State) (p : Nat) (x : QAsm) :
    (complete s p x).pending = s.pending ∧
    (complete s p x).sec.fuses = s.sec.fuses := by
  simp only [complete]
  repeat' split
  all_goals simp only [*, sendBusy_keeps, sendError_keeps, admitReq_keeps, apply_ite State.pending, apply_ite State.sec, apply_ite Sec.fuses, ite_self, and_self]

@[simp] theorem jenost_keeps (s : State) (port p : Nat) (u : UdpPkt) :
    (jenost s port p u).pending = s.pending ∧
    (jenost s port p u).sec.fuses = s.sec.fuses := by
  simp only [jenost]
  repeat' split
  all_goals simp only [*, sendError_keeps, complete_keeps, sendBusy_keeps, apply_ite State.pending, apply_ite State.sec, apply_ite Sec.fuses, ite_self, and_self]

@[simp] theorem acceptFrame_keeps (s : State) (k : Nat) (f : List Byte) :
    (acceptFrame s k f).1.pending = s.pending ∧
    (acceptFrame s k f).1.sec.fuses = s.sec.fuses := by
  simp only [acceptFrame]
  repeat' split
  all_goals simp only [*, apply_ite State.pending, apply_ite State.sec, apply_ite Sec.fuses, ite_self, and_self]

@[simp] theorem frameIn_keeps (s : State) (k : Nat) (f : List Byte) :
    (frameIn s k f).pending = s.pending ∧
    (frameIn s k f).sec.fuses = s.sec.fuses := by
  simp only [frameIn]
  refine ⟨?_, ?_⟩ <;> repeat' first
    | (split <;> rename_i e <;> try (replace e := congrArg (fun x => (x.1.pending, x.1.sec.fuses)) e; simp only [Prod.mk.injEq, acceptFrame_keeps, jenost_keeps, ringReceive_keeps] at e))
    | simp only [*, acceptFrame_keeps, jenost_keeps, ringReceive_keeps, apply_ite State.pending, apply_ite State.sec, apply_ite Sec.fuses, ite_self, and_self]

@[simp] theorem stepRelease_keeps (s : State) (p : Nat) :
    (stepRelease s p).pending = s.pending ∧
    (stepRelease s p).sec.fuses = s.sec.fuses := by
  simp only [stepRelease]
  repeat' split
  all_goals simp only [*, modPart_keeps, apply_ite State.pending, apply_ite State.sec, apply_ite Sec.fuses, ite_self, and_self]

@[simp] theorem sendResult_keeps (s : State) (p done : Nat) (r : QReq) :
    (sendResult s p done r).pending = s.pending ∧
    (sendResult s p done r).sec.fuses = s.sec.fuses := by
  simp only [sendResult]
  refine ⟨?_, ?_⟩ <;> repeat' first
    | (split <;> rename_i e <;> try (replace e := congrArg (fun x => (x.1.pending, x.1.sec.fuses)) e; simp only [Prod.mk.injEq, memNote_keeps, sendError_keeps, reply_keeps] at e))
    | (with_reducible refine (foldl_pending _ _ _ fun _ _ => ?_).trans ?_)
    | (with_reducible refine (foldl_fuses _ _ _ fun _ _ => ?_).trans ?_)
    | simp only [*, memNote_keeps, sendError_keeps, reply_keeps, apply_ite State.pending, apply_ite State.sec, apply_ite Sec.fuses, ite_self, and_self]

@[simp] theorem queryResult_keeps (s : State) (p : Nat) :
    (queryResult s p).pending = s.pending ∧
    (queryResult s p).sec.fuses = s.sec.fuses := by
  simp only [queryResult]
  refine ⟨?_, ?_⟩ <;> repeat' first
    | (split <;> rename_i e <;> try (replace e := congrArg (fun x => (x.1.pending, x.1.sec.fuses)) e; simp only [Prod.mk.injEq, sendResult_keeps, setLane_keeps, setCap_keeps] at e))
    | (with_reducible refine (foldl_pending _ _ _ fun _ _ => ?_).trans ?_)
    | (with_reducible refine (foldl_fuses _ _ _ fun _ _ => ?_).trans ?_)
    | simp only [*, sendResult_keeps, setLane_keeps, setCap_keeps, apply_ite State.pending, apply_ite State.sec, apply_ite Sec.fuses, ite_self, and_self]

@[simp] theorem cntFold_keeps (s : State) (d n : Nat) :
    (cntFold s d n).pending = s.pending ∧
    (cntFold s d n).sec.fuses = s.sec.fuses := by
  simp only [cntFold, bump_keeps, wr_keeps, and_self]

@[simp] theorem storeEvent_keeps (s : State) (e : BbxEvent) :
    (storeEvent s e).pending = s.pending ∧
    (storeEvent s e).sec.fuses = s.sec.fuses := by
  simp only [storeEvent, apply_ite State.pending, apply_ite State.sec, apply_ite Sec.fuses, ite_self, and_self]

@[simp] theorem bbxStore_keeps (s : State) :
    (bbxStore s).pending = s.pending ∧
    (bbxStore s).sec.fuses = s.sec.fuses := by
  simp only [bbxStore]
  repeat' split
  all_goals simp only [*, storeEvent_keeps, apply_ite State.pending, apply_ite State.sec, apply_ite Sec.fuses, ite_self, and_self]

@[simp] theorem setPost_keeps (s : State) (v : Nat) :
    (setPost s v).pending = s.pending ∧
    (setPost s v).sec.fuses = s.sec.fuses := by
  simp only [setPost, wr_keeps, and_self]

@[simp] theorem bbxFreeze_keeps (s : State) (v : Nat) :
    (bbxFreeze s v).pending = s.pending ∧
    (bbxFreeze s v).sec.fuses = s.sec.fuses := by
  simp only [bbxFreeze, setPost_keeps, apply_ite State.pending, apply_ite State.sec, apply_ite Sec.fuses, ite_self, and_self]

@[simp] theorem bbxUnfreeze_keeps (s : State) (who v : Nat) :
    (bbxUnfreeze s who v).pending = s.pending ∧
    (bbxUnfreeze s who v).sec.fuses = s.sec.fuses := by
  simp only [bbxUnfreeze, setPost_keeps, logEv_keeps, apply_ite State.pending, apply_ite State.sec, apply_ite Sec.fuses, ite_self, and_self]

@[simp] theorem dlRead_keeps (s : State) (d : Nat) (half : Half) :
    (dlRead s d half).1.pending = s.pending ∧
    (dlRead s d half).1.sec.fuses = s.sec.fuses := by
  simp only [dlRead]
  repeat' split
  all_goals simp only [*, rcRead_keeps, wr_keeps, apply_ite State.pending, apply_ite State.sec, apply_ite Sec.fuses, ite_self, and_self]

@[simp] theorem rcTake_keeps (s : State) (a : Nat) (half : Half) :
    (rcTake s a half).1.pending = s.pending ∧
    (rcTake s a half).1.sec.fuses = s.sec.fuses := by
  simp only [rcTake]
  repeat' split
  all_goals simp only [*, dlRead_keeps, rcRead_keeps, modStk_keeps, apply_ite State.pending, apply_ite State.sec, apply_ite Sec.fuses, ite_self, and_self]

@[simp] theorem regRead_keeps (s : State) (a w : Nat) :
    (regRead s a w).1.pending = s.pending ∧
    (regRead s a w).1.sec.fuses = s.sec.fuses := by
  simp only [regRead]
  repeat' split
  all_goals simp only [*, rcTake_keeps, apply_ite State.pending, apply_ite State.sec, apply_ite Sec.fuses, ite_self, and_self]

end Sys2Proof.Machine
end

