-- ==== Sys2Proof/Laws/KeepsReset.lean ====
section
/-! SUPPORT. Frame laws, one per operation: the command queue and the fuse array are as they were, for resets and boot. -/

namespace Sys2Proof.Machine

open Sys2Proof

set_option linter.all false
set_option Elab.async false

@[simp] theorem resetPod_keeps (s : State) (g : Nat) :
    (resetPod s g).pending = s.pending ∧
    (resetPod s g).sec.fuses = s.sec.fuses := by
  simp only [resetPod]
  refine ⟨?_, ?_⟩ <;> repeat' first
    | (split <;> rename_i e <;> try (replace e := congrArg (fun x => (x.1.pending, x.1.sec.fuses)) e; simp only [Prod.mk.injEq, flushCe_keeps, setPod_keeps, wr_keeps] at e))
    | (with_reducible refine (foldl_pending _ _ _ fun _ _ => ?_).trans ?_)
    | (with_reducible refine (foldl_fuses _ _ _ fun _ _ => ?_).trans ?_)
    | simp only [*, flushCe_keeps, setPod_keeps, wr_keeps, and_self]

@[simp] theorem stopGen_keeps (s : State) (n : Nat) :
    (stopGen s n).pending = s.pending ∧
    (stopGen s n).sec.fuses = s.sec.fuses := by
  simp only [stopGen, stopClock_keeps, modGen_keeps, apply_ite State.pending, apply_ite State.sec, apply_ite Sec.fuses, ite_self, and_self]

@[simp] theorem clearGen_keeps (s : State) (n : Nat) :
    (clearGen s n).pending = s.pending ∧
    (clearGen s n).sec.fuses = s.sec.fuses := by
  simp [clearGen]

@[simp] theorem rstEvent_keeps (s : State) (d k : Nat) :
    (rstEvent s d k).pending = s.pending ∧
    (rstEvent s d k).sec.fuses = s.sec.fuses := by
  simp only [rstEvent, setBits_keeps, and_self]

@[simp] theorem askReset_keeps (s : State) (d p : Nat) (r : ResetReq) :
    (askReset s d p r).pending = s.pending ∧
    (askReset s d p r).sec.fuses = s.sec.fuses := by
  simp only [askReset, rstEvent_keeps, requestReset_keeps, apply_ite State.pending, apply_ite State.sec, apply_ite Sec.fuses, ite_self, and_self]

@[simp] theorem setCrash_keeps (s : State) (d p v : Nat) :
    (setCrash s d p v).pending = s.pending ∧
    (setCrash s d p v).sec.fuses = s.sec.fuses := by
  simp only [setCrash, apply_ite State.pending, apply_ite State.sec, apply_ite Sec.fuses, ite_self, and_self]

@[simp] theorem snapQueue_keeps (s : State) (p st : Nat) :
    (snapQueue s p st).1.pending = s.pending ∧
    (snapQueue s p st).1.sec.fuses = s.sec.fuses := by
  simp only [snapQueue]
  refine ⟨?_, ?_⟩ <;> repeat' first
    | (split <;> rename_i e <;> try (replace e := congrArg (fun x => (x.1.pending, x.1.sec.fuses)) e; simp only [Prod.mk.injEq, pickOf_keeps] at e))
    | (with_reducible refine (foldl_pending _ _ _ fun _ _ => ?_).trans ?_)
    | (with_reducible refine (foldl_fuses _ _ _ fun _ _ => ?_).trans ?_)
    | (with_reducible refine (foldPair_pending _ _ _ fun _ _ => ?_).trans ?_)
    | (with_reducible refine (foldPair_fuses _ _ _ fun _ _ => ?_).trans ?_)
    | simp only [*, pickOf_keeps, apply_ite State.pending, apply_ite State.sec, apply_ite Sec.fuses, ite_self, and_self]

@[simp] theorem snapCopy_keeps (s : State) (d n : Nat) :
    (snapCopy s d n).1.pending = s.pending ∧
    (snapCopy s d n).1.sec.fuses = s.sec.fuses := by
  simp only [snapCopy]
  repeat' split
  all_goals simp only [*, nextFree_keeps, apply_ite State.pending, apply_ite State.sec, apply_ite Sec.fuses, ite_self, and_self]

@[simp] theorem noteSample_keeps (s : State) (p g w n : Nat) :
    (noteSample s p g w n).pending = s.pending ∧
    (noteSample s p g w n).sec.fuses = s.sec.fuses := by
  simp only [noteSample]
  refine ⟨?_, ?_⟩ <;> repeat' first
    | (split <;> rename_i e <;> try (replace e := congrArg (fun x => (x.1.pending, x.1.sec.fuses)) e; simp only [Prod.mk.injEq, flushCe_keeps, modPod_keeps, notePodBad_keeps] at e))
    | (with_reducible refine (foldl_pending _ _ _ fun _ _ => ?_).trans ?_)
    | (with_reducible refine (foldl_fuses _ _ _ fun _ _ => ?_).trans ?_)
    | simp only [*, flushCe_keeps, modPod_keeps, notePodBad_keeps, and_self]

@[simp] theorem snapshots_keeps (s : State) (d p : Nat) :
    (snapshots s d p).1.pending = s.pending ∧
    (snapshots s d p).1.sec.fuses = s.sec.fuses := by
  simp only [snapshots]
  refine ⟨?_, ?_⟩ <;> repeat' first
    | (split <;> rename_i e <;> try (replace e := congrArg (fun x => (x.1.pending, x.1.sec.fuses)) e; simp only [Prod.mk.injEq, snapQueue_keeps, snapCopy_keeps] at e))
    | (with_reducible refine (foldl_pending _ _ _ fun _ _ => ?_).trans ?_)
    | (with_reducible refine (foldl_fuses _ _ _ fun _ _ => ?_).trans ?_)
    | (with_reducible refine (foldPair_pending _ _ _ fun _ _ => ?_).trans ?_)
    | (with_reducible refine (foldPair_fuses _ _ _ fun _ _ => ?_).trans ?_)
    | simp only [*, snapQueue_keeps, snapCopy_keeps, apply_ite State.pending, apply_ite State.sec, apply_ite Sec.fuses, ite_self, and_self]

@[simp] theorem writeHalf_keeps (s : State) (d p : Nat) (cut : Option (Nat × Nat)) :
    (writeHalf s d p cut).pending = s.pending ∧
    (writeHalf s d p cut).sec.fuses = s.sec.fuses := by
  simp only [writeHalf]
  refine ⟨?_, ?_⟩ <;> repeat' first
    | (split <;> rename_i e <;> try (replace e := congrArg (fun x => (x.1.pending, x.1.sec.fuses)) e; simp only [Prod.mk.injEq, snapshots_keeps, svcWrite_keeps, noteSample_keeps, setCrash_keeps] at e))
    | (with_reducible refine (foldl_pending _ _ _ fun _ _ => ?_).trans ?_)
    | (with_reducible refine (foldl_fuses _ _ _ fun _ _ => ?_).trans ?_)
    | (with_reducible refine (foldPair_pending _ _ _ fun _ _ => ?_).trans ?_)
    | (with_reducible refine (foldPair_fuses _ _ _ fun _ _ => ?_).trans ?_)
    | simp only [*, snapshots_keeps, svcWrite_keeps, noteSample_keeps, setCrash_keeps, apply_ite State.pending, apply_ite State.sec, apply_ite Sec.fuses, ite_self, and_self]

@[simp] theorem capture_keeps (s : State) (p : Nat) (dies : List Nat) (cut : Option (Nat × Nat)) :
    (capture s p dies cut).pending = s.pending ∧
    (capture s p dies cut).sec.fuses = s.sec.fuses := by
  simp only [capture]
  refine ⟨?_, ?_⟩ <;> repeat' first
    | (split <;> rename_i e <;> try (replace e := congrArg (fun x => (x.1.pending, x.1.sec.fuses)) e; simp only [Prod.mk.injEq, rstEvent_keeps, logEv_keeps, writeHalf_keeps] at e))
    | (with_reducible refine (foldl_pending _ _ _ fun _ _ => ?_).trans ?_)
    | (with_reducible refine (foldl_fuses _ _ _ fun _ _ => ?_).trans ?_)
    | (with_reducible refine (foldPair_pending _ _ _ fun _ _ => ?_).trans ?_)
    | (with_reducible refine (foldPair_fuses _ _ _ fun _ _ => ?_).trans ?_)
    | simp only [*, rstEvent_keeps, logEv_keeps, writeHalf_keeps, apply_ite State.pending, apply_ite State.sec, apply_ite Sec.fuses, ite_self, and_self]

@[simp] theorem crashAck_keeps (s : State) (p : Nat) :
    (crashAck s p).pending = s.pending ∧
    (crashAck s p).sec.fuses = s.sec.fuses := by
  simp [crashAck, apply_ite State.pending, apply_ite State.sec, apply_ite Sec.fuses]

@[simp] theorem writeCause_keeps (s : State) (p : Nat) (r : ResetReq) (d : Nat) :
    (writeCause s p r d).pending = s.pending ∧
    (writeCause s p r d).sec.fuses = s.sec.fuses := by
  simp only [writeCause, wr_keeps, apply_ite State.pending, apply_ite State.sec, apply_ite Sec.fuses, ite_self, and_self]

@[simp] theorem logListed_keeps (s : State) :
    (logListed s).pending = s.pending ∧
    (logListed s).sec.fuses = s.sec.fuses := by
  simp only [logListed]
  refine ⟨?_, ?_⟩ <;> repeat' first
    | (split <;> rename_i e <;> try (replace e := congrArg (fun x => (x.1.pending, x.1.sec.fuses)) e; simp only [Prod.mk.injEq, logEv_keeps] at e))
    | (with_reducible refine (foldl_pending _ _ _ fun _ _ => ?_).trans ?_)
    | (with_reducible refine (foldl_fuses _ _ _ fun _ _ => ?_).trans ?_)
    | simp only [*, logEv_keeps, apply_ite State.pending, apply_ite State.sec, apply_ite Sec.fuses, ite_self, and_self]

@[simp] theorem fencePlate_keeps (s : State) (p : Nat) :
    (fencePlate s p).pending = s.pending ∧
    (fencePlate s p).sec.fuses = s.sec.fuses := by
  simp only [fencePlate]
  repeat' split
  all_goals simp only [*, dropPermits_keeps, modPart_keeps, abortLoad_keeps, plateEvent_keeps, releaseCtrs_keeps, takeStaged_keeps, emptyActive_keeps, apply_ite State.pending, apply_ite State.sec, apply_ite Sec.fuses, ite_self, and_self]

@[simp] theorem runReset_keeps (s : State) (p : Nat) (r : ResetReq) (dies : List Nat) (cut : Option (Nat × Nat)) :
    (runReset s p r dies cut).pending = s.pending ∧
    (runReset s p r dies cut).sec.fuses = s.sec.fuses := by
  simp only [runReset]
  refine ⟨?_, ?_⟩ <;> repeat' first
    | (split <;> rename_i e <;> try (replace e := congrArg (fun x => (x.1.pending, x.1.sec.fuses)) e; simp only [Prod.mk.injEq, modPart_keeps, stopGen_keeps, writeCause_keeps, capture_keeps, applyStop_keeps, breakCtr_keeps, dropChanges_keeps, emptyLists_keeps, resetChans_keeps, placeFrames_keeps, discardReqs_keeps, resetPod_keeps, clearGen_keeps, fencePlate_keeps, voidLane_keeps, bump_keeps, rstEvent_keeps, logListed_keeps, logEv_keeps] at e))
    | (with_reducible refine (foldl_pending _ _ _ fun _ _ => ?_).trans ?_)
    | (with_reducible refine (foldl_fuses _ _ _ fun _ _ => ?_).trans ?_)
    | (with_reducible refine (foldPair_pending _ _ _ fun _ _ => ?_).trans ?_)
    | (with_reducible refine (foldPair_fuses _ _ _ fun _ _ => ?_).trans ?_)
    | simp only [*, modPart_keeps, stopGen_keeps, writeCause_keeps, capture_keeps, applyStop_keeps, breakCtr_keeps, dropChanges_keeps, emptyLists_keeps, resetChans_keeps, placeFrames_keeps, discardReqs_keeps, resetPod_keeps, clearGen_keeps, fencePlate_keeps, voidLane_keeps, bump_keeps, rstEvent_keeps, logListed_keeps, logEv_keeps, apply_ite State.pending, apply_ite State.sec, apply_ite Sec.fuses, ite_self, and_self]

@[simp] theorem partReset_keeps (s : State) (p : Nat) (cut : Option (Nat × Nat)) :
    (partReset s p cut).pending = s.pending ∧
    (partReset s p cut).sec.fuses = s.sec.fuses := by
  simp only [partReset]
  refine ⟨?_, ?_⟩ <;> repeat' first
    | (split <;> rename_i e <;> try (replace e := congrArg (fun x => (x.1.pending, x.1.sec.fuses)) e; simp only [Prod.mk.injEq, rstEvent_keeps, modPart_keeps, runReset_keeps] at e))
    | (with_reducible refine (foldl_pending _ _ _ fun _ _ => ?_).trans ?_)
    | (with_reducible refine (foldl_fuses _ _ _ fun _ _ => ?_).trans ?_)
    | (with_reducible refine (foldPair_pending _ _ _ fun _ _ => ?_).trans ?_)
    | (with_reducible refine (foldPair_fuses _ _ _ fun _ _ => ?_).trans ?_)
    | simp only [*, rstEvent_keeps, modPart_keeps, runReset_keeps, apply_ite State.pending, apply_ite State.sec, apply_ite Sec.fuses, ite_self, and_self]

@[simp] theorem podCmd_keeps (s : State) (d v : Nat) (act : State → Nat → State) (hact_pending : ∀ z0 z1, (act z0 z1).pending = z0.pending) (hact_fuses : ∀ z0 z1, (act z0 z1).sec.fuses = z0.sec.fuses) :
    (podCmd s d v act).pending = s.pending ∧
    (podCmd s d v act).sec.fuses = s.sec.fuses := by
  simp only [podCmd]
  repeat' split
  all_goals simp only [*, askReset_keeps, apply_ite State.pending, apply_ite State.sec, apply_ite Sec.fuses, ite_self, and_self]

@[simp] theorem resetHatch_keeps (s : State) (g : Nat) :
    (resetHatch s g).pending = s.pending ∧
    (resetHatch s g).sec.fuses = s.sec.fuses := by
  simp only [resetHatch]
  refine ⟨?_, ?_⟩ <;> repeat' first
    | (split <;> rename_i e <;> try (replace e := congrArg (fun x => (x.1.pending, x.1.sec.fuses)) e; simp only [Prod.mk.injEq, stopGen_keeps, breakCtr_keeps, clearGen_keeps, resetPod_keeps] at e))
    | (with_reducible refine (foldl_pending _ _ _ fun _ _ => ?_).trans ?_)
    | (with_reducible refine (foldl_fuses _ _ _ fun _ _ => ?_).trans ?_)
    | simp only [*, stopGen_keeps, breakCtr_keeps, clearGen_keeps, resetPod_keeps, apply_ite State.pending, apply_ite State.sec, apply_ite Sec.fuses, ite_self, and_self]

@[simp] theorem askDie_keeps (s : State) (d : Nat) :
    (askDie s d).pending = s.pending ∧
    (askDie s d).sec.fuses = s.sec.fuses := by
  simp only [askDie, rstEvent_keeps, apply_ite State.pending, apply_ite State.sec, apply_ite Sec.fuses, ite_self, and_self]

@[simp] theorem hang_keeps (s : State) (n : Nat) :
    (hang s n).pending = s.pending ∧
    (hang s n).sec.fuses = s.sec.fuses := by
  simp only [hang, askReset_keeps, logEv_keeps, rstEvent_keeps, apply_ite State.pending, apply_ite State.sec, apply_ite Sec.fuses, ite_self, and_self]

@[simp] theorem lateSend_keeps (s : State) (p : Nat) :
    (lateSend s p).pending = s.pending ∧
    (lateSend s p).sec.fuses = s.sec.fuses := by
  simp only [lateSend, floodDests_keeps, apply_ite State.pending, apply_ite State.sec, apply_ite Sec.fuses, ite_self, and_self]

@[simp] theorem deadlock_keeps (s : State) (d p : Nat) :
    (deadlock s d p).pending = s.pending ∧
    (deadlock s d p).sec.fuses = s.sec.fuses := by
  simp only [deadlock, setBits_keeps, wr_keeps, askReset_keeps, logEv_keeps, apply_ite State.pending, apply_ite State.sec, apply_ite Sec.fuses, ite_self, and_self]

@[simp] theorem apcEvent_keeps (s : State) (m : Nat) :
    (apcEvent s m).pending = s.pending ∧
    (apcEvent s m).sec.fuses = s.sec.fuses := by
  simp only [apcEvent, setBits_keeps, apply_ite State.pending, apply_ite State.sec, apply_ite Sec.fuses, ite_self, and_self]

@[simp] theorem takeToken_keeps (s : State) (d : Nat) :
    (takeToken s d).pending = s.pending ∧
    (takeToken s d).sec.fuses = s.sec.fuses := by
  simp only [takeToken, wr_keeps, apcEvent_keeps, setBits_keeps, apply_ite State.pending, apply_ite State.sec, apply_ite Sec.fuses, ite_self, and_self]

@[simp] theorem resetStack_keeps (s : State) (st : Nat) :
    (resetStack s st).pending = s.pending ∧
    (resetStack s st).sec.fuses = s.sec.fuses := by
  change Keeps s (resetStack s st)
  unfold resetStack
  extract_lets a b c d
  have h1 : Keeps s a := by
    refine Keeps.foldl _ _ _ fun z e => ?_
    split
    · exact bump_keeps _ _ _
    · exact Keeps.refl z
  clear_value a
  have h2 : Keeps a b := ⟨rfl, rfl⟩
  clear_value b
  have h3 : Keeps b c := by
    refine Keeps.foldl _ _ _ fun z e => ?_
    split
    · exact wr_keeps _ _ _
    · exact Keeps.refl z
  clear_value c
  exact h1.trans (h2.trans (h3.trans (Keeps.trans (wr_keeps _ _ _) (modStk_keeps _ _ _))))

@[simp] theorem freeRanges_keeps (s : State) (p : Nat) :
    (freeRanges s p).pending = s.pending ∧
    (freeRanges s p).sec.fuses = s.sec.fuses := by
  simp only [freeRanges, apply_ite State.pending, apply_ite State.sec, apply_ite Sec.fuses, ite_self, and_self]

@[simp] theorem emptySlots_keeps (s : State) (ds : List Nat) (p : Nat) :
    (emptySlots s ds p).pending = s.pending ∧
    (emptySlots s ds p).sec.fuses = s.sec.fuses := by
  simp only [emptySlots]
  refine ⟨?_, ?_⟩ <;> repeat' first
    | (split <;> rename_i e <;> try (replace e := congrArg (fun x => (x.1.pending, x.1.sec.fuses)) e; simp only [Prod.mk.injEq, emptyActive_keeps, dropStaged_keeps, releaseCtrsOn_keeps, plateEvent_keeps, modPart_keeps, countTable_keeps, freeRanges_keeps] at e))
    | (with_reducible refine (foldl_pending _ _ _ fun _ _ => ?_).trans ?_)
    | (with_reducible refine (foldl_fuses _ _ _ fun _ _ => ?_).trans ?_)
    | simp only [*, emptyActive_keeps, dropStaged_keeps, releaseCtrsOn_keeps, plateEvent_keeps, modPart_keeps, countTable_keeps, freeRanges_keeps, apply_ite State.pending, apply_ite State.sec, apply_ite Sec.fuses, ite_self, and_self]

@[simp] theorem clearDie_keeps (s : State) (d : Nat) :
    (clearDie s d).pending = s.pending ∧
    (clearDie s d).sec.fuses = s.sec.fuses := by
  simp only [clearDie]
  refine ⟨?_, ?_⟩ <;> repeat' first
    | (split <;> rename_i e <;> try (replace e := congrArg (fun x => (x.1.pending, x.1.sec.fuses)) e; simp only [Prod.mk.injEq, resetStack_keeps, emit_keeps, modPod_keeps, resetPod_keeps, hold_keeps, setChanges_keeps, dropRegs_keeps, setPortState_keeps] at e))
    | (with_reducible refine (foldl_pending _ _ _ fun _ _ => ?_).trans ?_)
    | (with_reducible refine (foldl_fuses _ _ _ fun _ _ => ?_).trans ?_)
    | (with_reducible refine (foldPair_pending _ _ _ fun _ _ => ?_).trans ?_)
    | (with_reducible refine (foldPair_fuses _ _ _ fun _ _ => ?_).trans ?_)
    | simp only [*, resetStack_keeps, emit_keeps, modPod_keeps, resetPod_keeps, hold_keeps, setChanges_keeps, dropRegs_keeps, setPortState_keeps, apply_ite State.pending, apply_ite State.sec, apply_ite Sec.fuses, ite_self, and_self]

@[simp] theorem resetDies_keeps (s : State) (ds : List Nat) (cause : Nat) :
    (resetDies s ds cause).pending = s.pending ∧
    (resetDies s ds cause).sec.fuses = s.sec.fuses := by
  simp only [resetDies]
  refine ⟨?_, ?_⟩ <;> repeat' first
    | (split <;> rename_i e <;> try (replace e := congrArg (fun x => (x.1.pending, x.1.sec.fuses)) e; simp only [Prod.mk.injEq, runReset_keeps, emptySlots_keeps, takeToken_keeps, clearDie_keeps, bump_keeps, apcEvent_keeps] at e))
    | (with_reducible refine (foldl_pending _ _ _ fun _ _ => ?_).trans ?_)
    | (with_reducible refine (foldl_fuses _ _ _ fun _ _ => ?_).trans ?_)
    | simp only [*, runReset_keeps, emptySlots_keeps, takeToken_keeps, clearDie_keeps, bump_keeps, apcEvent_keeps, apply_ite State.pending, apply_ite State.sec, apply_ite Sec.fuses, ite_self, and_self]

@[simp] theorem dieReset_keeps (s : State) (d cause : Nat) :
    (dieReset s d cause).pending = s.pending ∧
    (dieReset s d cause).sec.fuses = s.sec.fuses := by
  simp only [dieReset, resetDies_keeps, and_self]

@[simp] theorem releaseDie_keeps (s : State) (d : Nat) :
    (releaseDie s d).pending = s.pending ∧
    (releaseDie s d).sec.fuses = s.sec.fuses := by
  simp only [releaseDie, apcEvent_keeps, apply_ite State.pending, apply_ite State.sec, apply_ite Sec.fuses, ite_self, and_self]

@[simp] theorem holdDie_keeps (s : State) (d : Nat) :
    (holdDie s d).pending = s.pending ∧
    (holdDie s d).sec.fuses = s.sec.fuses := by
  simp only [holdDie, apply_ite State.pending, apply_ite State.sec, apply_ite Sec.fuses, ite_self, and_self]

@[simp] theorem setStage_keeps (s : State) (n : Nat) :
    (setStage s n).pending = s.pending ∧
    (setStage s n).sec.fuses = s.sec.fuses := by
  simp only [setStage, wr_keeps, and_self]

@[simp] theorem setSlot_keeps (s : State) (t i : Nat) :
    (setSlot s t i).pending = s.pending ∧
    (setSlot s t i).sec.fuses = s.sec.fuses := by
  simp only [setSlot, wr_keeps, modSec_keeps, modSec_fuses, and_self]

@[simp] theorem bootFail_keeps (s : State) (e : Nat) :
    (bootFail s e).pending = s.pending ∧
    (bootFail s e).sec.fuses = s.sec.fuses := by
  simp only [bootFail, wr_keeps, logEv_keeps, apply_ite State.pending, apply_ite State.sec, apply_ite Sec.fuses, ite_self, and_self]

@[simp] theorem setDom_keeps (s : State) (k : Nat) (x : Domain) :
    (setDom s k x).pending = s.pending ∧
    (setDom s k x).sec.fuses = s.sec.fuses := by
  simp only [setDom]
  repeat' split
  all_goals simp only [*, and_self]

@[simp] theorem finishIntent_keeps (s : State) :
    (finishIntent s).pending = s.pending := by
  simp only [finishIntent]
  repeat' split
  all_goals simp only [*, modSec_keeps, advance_keeps, and_self]

@[simp] theorem stage1_keeps (s : State) :
    (stage1 s).pending = s.pending := by
  unfold stage1
  extract_lets u
  have h : u.pending = s.pending := (modSec_keeps _ _).trans ((wr_keeps _ _ _).1.trans (finishIntent_keeps s))
  clear_value u
  split
  · exact (bootFail_keeps u 1).1.trans h
  · simp only [extend_keeps, setStage_keeps, setSlot_keeps, h]

@[simp] theorem stage7_keeps (s : State) :
    (stage7 s).pending = s.pending ∧
    (stage7 s).sec.fuses = s.sec.fuses := by
  simp only [stage7]
  repeat' split
  all_goals simp only [*, bootFail_keeps, extend_keeps, setStage_keeps, setSlot_keeps, apply_ite State.pending, apply_ite State.sec, apply_ite Sec.fuses, ite_self, and_self]

@[simp] theorem lockIfDone_keeps (s : State) :
    (lockIfDone s).pending = s.pending ∧
    (lockIfDone s).sec.fuses = s.sec.fuses := by
  simp only [lockIfDone, stage7_keeps, setStage_keeps, apply_ite State.pending, apply_ite State.sec, apply_ite Sec.fuses, ite_self, and_self]

@[simp] theorem startDie_keeps (s : State) (d : Nat) :
    (startDie s d).pending = s.pending ∧
    (startDie s d).sec.fuses = s.sec.fuses := by
  simp only [startDie, releaseDie_keeps, apply_ite State.pending, apply_ite State.sec, apply_ite Sec.fuses, ite_self, and_self]

@[simp] theorem stage4_keeps (s : State) :
    (stage4 s).pending = s.pending ∧
    (stage4 s).sec.fuses = s.sec.fuses := by
  unfold stage4
  split
  · exact bootFail_keeps s 4
  · rename_i i _ _
    extract_lets t
    have h : t.pending = s.pending ∧ t.sec.fuses = s.sec.fuses := by
      simp only [t, extend_keeps, setStage_keeps, setSlot_keeps, and_self]
    clear_value t
    exact ⟨(lockIfDone_keeps _).1.trans ((foldl_pending _ _ _ fun z d => (startDie_keeps z d).1).trans h.1),
      (lockIfDone_keeps _).2.trans ((foldl_fuses _ _ _ fun z d => (startDie_keeps z d).2).trans h.2)⟩

@[simp] theorem stage3_keeps (s : State) :
    (stage3 s).pending = s.pending ∧
    (stage3 s).sec.fuses = s.sec.fuses := by
  simp only [stage3, stage4_keeps, setStage_keeps, bootFail_keeps, apply_ite State.pending, apply_ite State.sec, apply_ite Sec.fuses, ite_self, and_self]

@[simp] theorem loseStack_keeps (s : State) (st : Nat) :
    (loseStack s st).pending = s.pending ∧
    (loseStack s st).sec.fuses = s.sec.fuses := by
  simp only [loseStack, and_self]

@[simp] theorem cutDie_keeps (s : State) (d : Nat) :
    (cutDie s d).pending = s.pending ∧
    (cutDie s d).sec.fuses = s.sec.fuses := by
  simp only [cutDie]
  refine ⟨?_, ?_⟩ <;> repeat' first
    | (split <;> rename_i e <;> try (replace e := congrArg (fun x => (x.1.pending, x.1.sec.fuses)) e; simp only [Prod.mk.injEq, dieReset_keeps, loseStack_keeps, dropRegs_keeps, apcEvent_keeps] at e))
    | (with_reducible refine (foldl_pending _ _ _ fun _ _ => ?_).trans ?_)
    | (with_reducible refine (foldl_fuses _ _ _ fun _ _ => ?_).trans ?_)
    | simp only [*, dieReset_keeps, loseStack_keeps, dropRegs_keeps, apcEvent_keeps, apply_ite State.pending, apply_ite State.sec, apply_ite Sec.fuses, ite_self, and_self]

@[simp] theorem cutModule_keeps (s : State) :
    (cutModule s).pending = s.pending ∧
    (cutModule s).sec.fuses = s.sec.fuses := by
  simp only [cutModule, dropRegs_keeps, and_self]

@[simp] theorem nextDomain_keeps (s : State) :
    (nextDomain s).pending = s.pending ∧
    (nextDomain s).sec.fuses = s.sec.fuses := by
  simp only [nextDomain]
  repeat' split
  all_goals simp only [*, setDom_keeps, and_self]

@[simp] theorem applyPower_keeps (s : State) (v : Nat) :
    (applyPower s v).pending = s.pending ∧
    (applyPower s v).sec.fuses = s.sec.fuses := by
  simp only [applyPower]
  refine ⟨?_, ?_⟩ <;> repeat' first
    | (split <;> rename_i e <;> try (replace e := congrArg (fun x => (x.1.pending, x.1.sec.fuses)) e; simp only [Prod.mk.injEq, cutModule_keeps, cutDie_keeps, wr_keeps, nextDomain_keeps] at e))
    | (with_reducible refine (foldl_pending _ _ _ fun _ _ => ?_).trans ?_)
    | (with_reducible refine (foldl_fuses _ _ _ fun _ _ => ?_).trans ?_)
    | simp only [*, cutModule_keeps, cutDie_keeps, wr_keeps, nextDomain_keeps, apply_ite State.pending, apply_ite State.sec, apply_ite Sec.fuses, ite_self, and_self]

@[simp] theorem powerWrite_keeps (s : State) (v : Nat) :
    (powerWrite s v).pending = s.pending ∧
    (powerWrite s v).sec.fuses = s.sec.fuses := by
  simp only [powerWrite, applyPower_keeps, apply_ite State.pending, apply_ite State.sec, apply_ite Sec.fuses, ite_self, and_self]

@[simp] theorem sequenceEnded_keeps (s : State) :
    (sequenceEnded s).pending = s.pending ∧
    (sequenceEnded s).sec.fuses = s.sec.fuses := by
  simp only [sequenceEnded]
  repeat' split
  all_goals simp only [*, applyPower_keeps, stage3_keeps, setStage_keeps, lockIfDone_keeps, apply_ite State.pending, apply_ite State.sec, apply_ite Sec.fuses, ite_self, and_self]

@[simp] theorem railGood_keeps (s : State) (k : Nat) :
    (railGood s k).pending = s.pending ∧
    (railGood s k).sec.fuses = s.sec.fuses := by
  simp only [railGood, setDom_keeps, apply_ite State.pending, apply_ite State.sec, apply_ite Sec.fuses, ite_self, and_self]

@[simp] theorem domainOn_keeps (s : State) (k stepping : Nat) :
    (domainOn s k stepping).pending = s.pending ∧
    (domainOn s k stepping).sec.fuses = s.sec.fuses := by
  simp only [domainOn, stage7_keeps, holdDie_keeps, apcEvent_keeps, startDie_keeps, apply_ite State.pending, apply_ite State.sec, apply_ite Sec.fuses, ite_self, and_self]

@[simp] theorem domainUp_keeps (s : State) (k stepping : Nat) :
    (domainUp s k stepping).pending = s.pending ∧
    (domainUp s k stepping).sec.fuses = s.sec.fuses := by
  simp only [domainUp, setDom_keeps, sequenceEnded_keeps, nextDomain_keeps, domainOn_keeps, apply_ite State.pending, apply_ite State.sec, apply_ite Sec.fuses, ite_self, and_self]

@[simp] theorem railTimeout_keeps (s : State) (k : Nat) :
    (railTimeout s k).pending = s.pending ∧
    (railTimeout s k).sec.fuses = s.sec.fuses := by
  simp only [railTimeout, sequenceEnded_keeps, nextDomain_keeps, setDom_keeps, apply_ite State.pending, apply_ite State.sec, apply_ite Sec.fuses, ite_self, and_self]

@[simp] theorem domainOff_keeps (s : State) (k : Nat) :
    (domainOff s k).pending = s.pending ∧
    (domainOff s k).sec.fuses = s.sec.fuses := by
  simp only [domainOff, sequenceEnded_keeps, nextDomain_keeps, setDom_keeps, apply_ite State.pending, apply_ite State.sec, apply_ite Sec.fuses, ite_self, and_self]

@[simp] theorem stage2_keeps (s : State) :
    (stage2 s).pending = s.pending ∧
    (stage2 s).sec.fuses = s.sec.fuses := by
  simp only [stage2, bootFail_keeps, sequenceEnded_keeps, powerWrite_keeps, apply_ite State.pending, apply_ite State.sec, apply_ite Sec.fuses, ite_self, and_self]

@[simp] theorem writeRegion_keeps (s : State) (i r : Nat) :
    (writeRegion s i r).pending = s.pending ∧
    (writeRegion s i r).sec.fuses = s.sec.fuses := by
  simp only [writeRegion, wr_keeps, regionCommit_keeps, and_self]

@[simp] theorem clearTable_keeps (s : State) :
    (clearTable s).pending = s.pending ∧
    (clearTable s).sec.fuses = s.sec.fuses := by
  simp only [clearTable, dropRegs_keeps, and_self]

@[simp] theorem setSlab_keeps (s : State) (r i v : Nat) :
    (setSlab s r i v).pending = s.pending ∧
    (setSlab s r i v).sec.fuses = s.sec.fuses := by
  simp only [setSlab, commitSlabs_keeps, wr_keeps, and_self]

@[simp] theorem rebuildRegions_keeps (s : State) :
    (rebuildRegions s).pending = s.pending ∧
    (rebuildRegions s).sec.fuses = s.sec.fuses := by
  simp only [rebuildRegions]
  refine ⟨?_, ?_⟩ <;> repeat' first
    | (split <;> rename_i e <;> try (replace e := congrArg (fun x => (x.1.pending, x.1.sec.fuses)) e; simp only [Prod.mk.injEq, wr_keeps, pickOf_keeps, setSlab_keeps] at e))
    | (with_reducible refine (foldl_pending _ _ _ fun _ _ => ?_).trans ?_)
    | (with_reducible refine (foldl_fuses _ _ _ fun _ _ => ?_).trans ?_)
    | simp only [*, wr_keeps, pickOf_keeps, setSlab_keeps, apply_ite State.pending, apply_ite State.sec, apply_ite Sec.fuses, ite_self, and_self]

@[simp] theorem restoreJournal_keeps (s : State) (d : Nat) :
    (restoreJournal s d).pending = s.pending ∧
    (restoreJournal s d).sec.fuses = s.sec.fuses := by
  simp only [restoreJournal]
  refine ⟨?_, ?_⟩ <;> repeat' first
    | (split <;> rename_i e <;> try (replace e := congrArg (fun x => (x.1.pending, x.1.sec.fuses)) e; simp only [Prod.mk.injEq, dropRegs_keeps, wr_keeps, logEv_keeps, pickOf_keeps] at e))
    | (with_reducible refine (foldl_pending _ _ _ fun _ _ => ?_).trans ?_)
    | (with_reducible refine (foldl_fuses _ _ _ fun _ _ => ?_).trans ?_)
    | (with_reducible refine (foldPair_pending _ _ _ fun _ _ => ?_).trans ?_)
    | (with_reducible refine (foldPair_fuses _ _ _ fun _ _ => ?_).trans ?_)
    | simp only [*, dropRegs_keeps, wr_keeps, logEv_keeps, pickOf_keeps, apply_ite State.pending, apply_ite State.sec, apply_ite Sec.fuses, ite_self, and_self]

@[simp] theorem buildMap_keeps (s : State) (d : Nat) (bad : List Nat) :
    (buildMap s d bad).pending = s.pending ∧
    (buildMap s d bad).sec.fuses = s.sec.fuses := by
  simp only [buildMap]
  refine ⟨?_, ?_⟩ <;> repeat' first
    | (split <;> rename_i e <;> try (replace e := congrArg (fun x => (x.1.pending, x.1.sec.fuses)) e; simp only [Prod.mk.injEq, pickOf_keeps] at e))
    | (with_reducible refine (foldl_pending _ _ _ fun _ _ => ?_).trans ?_)
    | (with_reducible refine (foldl_fuses _ _ _ fun _ _ => ?_).trans ?_)
    | (with_reducible refine (foldPair_pending _ _ _ fun _ _ => ?_).trans ?_)
    | (with_reducible refine (foldPair_fuses _ _ _ fun _ _ => ?_).trans ?_)
    | simp only [*, pickOf_keeps, apply_ite State.pending, apply_ite State.sec, apply_ite Sec.fuses, ite_self, and_self]

@[simp] theorem acceptRecord_keeps (s : State) (i : Nat) :
    (acceptRecord s i).pending = s.pending ∧
    (acceptRecord s i).sec.fuses = s.sec.fuses := by
  simp only [acceptRecord]
  refine ⟨?_, ?_⟩ <;> repeat' first
    | (split <;> rename_i e <;> try (replace e := congrArg (fun x => (x.1.pending, x.1.sec.fuses)) e; simp only [Prod.mk.injEq, setSlot_keeps, modSec_keeps, modPart_keeps, writeRegion_keeps, clearTable_keeps, extend_keeps, rebuildRegions_keeps, modSec_fuses] at e))
    | (with_reducible refine (foldl_pending _ _ _ fun _ _ => ?_).trans ?_)
    | (with_reducible refine (foldl_fuses _ _ _ fun _ _ => ?_).trans ?_)
    | simp only [*, setSlot_keeps, modSec_keeps, modPart_keeps, writeRegion_keeps, clearTable_keeps, extend_keeps, rebuildRegions_keeps, modSec_fuses, and_self]

@[simp] theorem writeSetup_keeps (s : State) (i d : Nat) :
    (writeSetup s i d).pending = s.pending ∧
    (writeSetup s i d).sec.fuses = s.sec.fuses := by
  simp only [writeSetup]
  refine ⟨?_, ?_⟩ <;> repeat' first
    | (split <;> rename_i e <;> try (replace e := congrArg (fun x => (x.1.pending, x.1.sec.fuses)) e; simp only [Prod.mk.injEq, wr_keeps, enterEthernet_keeps] at e))
    | (with_reducible refine (foldl_pending _ _ _ fun _ _ => ?_).trans ?_)
    | (with_reducible refine (foldl_fuses _ _ _ fun _ _ => ?_).trans ?_)
    | simp only [*, wr_keeps, enterEthernet_keeps, apply_ite State.pending, apply_ite State.sec, apply_ite Sec.fuses, ite_self, and_self]

@[simp] theorem holdAll_keeps (s : State) (ds : List Nat) :
    (holdAll s ds).pending = s.pending ∧
    (holdAll s ds).sec.fuses = s.sec.fuses := by
  simp only [holdAll]
  refine ⟨?_, ?_⟩ <;> repeat' first
    | (split <;> rename_i e <;> try (replace e := congrArg (fun x => (x.1.pending, x.1.sec.fuses)) e; simp only [Prod.mk.injEq, holdDie_keeps, resetDies_keeps] at e))
    | (with_reducible refine (foldl_pending _ _ _ fun _ _ => ?_).trans ?_)
    | (with_reducible refine (foldl_fuses _ _ _ fun _ _ => ?_).trans ?_)
    | simp only [*, holdDie_keeps, resetDies_keeps, and_self]

@[simp] theorem reportComplete_keeps (s : State) (d i : Nat) :
    (reportComplete s d i).pending = s.pending ∧
    (reportComplete s d i).sec.fuses = s.sec.fuses := by
  simp only [reportComplete, acceptRecord_keeps, writeSetup_keeps, startDie_keeps, lockIfDone_keeps, apply_ite State.pending, apply_ite State.sec, apply_ite Sec.fuses, ite_self, and_self]

@[simp] theorem stage5_keeps (s : State) (d : Nat) (found : List Nat) :
    (stage5 s d found).pending = s.pending ∧
    (stage5 s d found).sec.fuses = s.sec.fuses := by
  simp only [stage5]
  repeat' split
  all_goals simp only [*, restoreJournal_keeps, bootFail_keeps, holdAll_keeps, logEv_keeps, buildMap_keeps, extend_keeps, reportComplete_keeps, apply_ite State.pending, apply_ite State.sec, apply_ite Sec.fuses, ite_self, and_self]

end Sys2Proof.Machine
end

