-- ==== Sys2Proof/Laws/KeepsModule.lean ====
section
/-! SUPPORT. Frame laws, one per operation: the command queue and the fuse array are as they were, for module resets, security, register writes, service accesses, management and the tick. -/

namespace Sys2Proof.Machine

open Sys2Proof

set_option linter.all false
set_option Elab.async false

@[simp] theorem noteModReset_keeps (s : State) (last cause : Nat) :
    (noteModReset s last cause).pending = s.pending ∧
    (noteModReset s last cause).sec.fuses = s.sec.fuses := by
  simp only [noteModReset, logEv_keeps, wr_keeps, and_self]

@[simp] theorem rebootWarm_keeps (s : State) :
    (rebootWarm s).pending = s.pending ∧
    (rebootWarm s).sec.fuses = s.sec.fuses := by
  simp only [rebootWarm, wr_keeps, stage4_keeps, bootFail_keeps, apply_ite State.pending, apply_ite State.sec, apply_ite Sec.fuses, ite_self, and_self]

@[simp] theorem warmReset_keeps (s : State) (cause : Nat) :
    (warmReset s cause).pending = s.pending ∧
    (warmReset s cause).sec.fuses = s.sec.fuses := by
  simp only [warmReset]
  refine ⟨?_, ?_⟩ <;> repeat' first
    | (split <;> rename_i e <;> try (replace e := congrArg (fun x => (x.1.pending, x.1.sec.fuses)) e; simp only [Prod.mk.injEq, emptySlots_keeps, resetDies_keeps, rebootWarm_keeps, noteModReset_keeps, holdDie_keeps] at e))
    | (with_reducible refine (foldl_pending _ _ _ fun _ _ => ?_).trans ?_)
    | (with_reducible refine (foldl_fuses _ _ _ fun _ _ => ?_).trans ?_)
    | simp only [*, emptySlots_keeps, resetDies_keeps, rebootWarm_keeps, noteModReset_keeps, holdDie_keeps, and_self]

@[simp] theorem loseFlash_keeps (s : State) (a n : Nat) :
    (loseFlash s a n).pending = s.pending ∧
    (loseFlash s a n).sec.fuses = s.sec.fuses := by
  simp only [loseFlash, modSec_keeps, nextFree_keeps, modSec_fuses, and_self]

@[simp] theorem cutFlash_keeps (s : State) :
    (cutFlash s).pending = s.pending ∧
    (cutFlash s).sec.fuses = s.sec.fuses := by
  simp only [cutFlash]
  repeat' split
  all_goals simp only [*, loseFlash_keeps, apply_ite State.pending, apply_ite State.sec, apply_ite Sec.fuses, ite_self, and_self]

@[simp] theorem bareState_keeps (s : State) :
    (bareState s).pending = s.pending := by
  simp only [bareState, cutFlash_keeps, freeCtr_keeps, and_self]

@[simp] theorem coldReset_keeps (s : State) (cause : Nat) :
    (coldReset s cause).pending = s.pending := by
  simp only [coldReset, bareState_keeps, noteModReset_keeps, stage1_keeps, apply_ite State.pending, ite_self, and_self]

@[simp] theorem coldBy_keeps (s : State) (cause : Nat) :
    (coldBy s cause).pending = s.pending := by
  simp only [coldBy, coldReset_keeps, apply_ite State.pending, ite_self, and_self]

@[simp] theorem askModule_keeps (s : State) (op cause : Nat) :
    (askModule s op cause).pending = s.pending ∧
    (askModule s op cause).sec.fuses = s.sec.fuses := by
  simp only [askModule]
  repeat' split
  all_goals simp only [*, apply_ite State.pending, apply_ite State.sec, apply_ite Sec.fuses, ite_self, and_self]

@[simp] theorem resetCmd_keeps (s : State) (v : Nat) :
    (resetCmd s v).pending = s.pending ∧
    (resetCmd s v).sec.fuses = s.sec.fuses := by
  simp only [resetCmd, askModule_keeps, apply_ite State.pending, apply_ite State.sec, apply_ite Sec.fuses, ite_self, and_self]

@[simp] theorem noteEscalated_keeps (s : State) (d k stage : Nat) :
    (noteEscalated s d k stage).pending = s.pending ∧
    (noteEscalated s d k stage).sec.fuses = s.sec.fuses := by
  simp only [noteEscalated, logEv_keeps, bump_keeps, rstEvent_keeps, and_self]

@[simp] theorem warmEvent_keeps (s : State) :
    (warmEvent s).pending = s.pending ∧
    (warmEvent s).sec.fuses = s.sec.fuses := by
  simp only [warmEvent]
  refine ⟨?_, ?_⟩ <;> repeat' first
    | (split <;> rename_i e <;> try (replace e := congrArg (fun x => (x.1.pending, x.1.sec.fuses)) e; simp only [Prod.mk.injEq, warmReset_keeps, noteEscalated_keeps, nextFree_keeps] at e))
    | (with_reducible refine (foldl_pending _ _ _ fun _ _ => ?_).trans ?_)
    | (with_reducible refine (foldl_fuses _ _ _ fun _ _ => ?_).trans ?_)
    | simp only [*, warmReset_keeps, noteEscalated_keeps, nextFree_keeps, and_self]

@[simp] theorem coldEvent_keeps (s : State) :
    (coldEvent s).pending = s.pending := by
  simp only [coldEvent]
  repeat' split
  all_goals simp only [*, coldReset_keeps, logEv_keeps, nextFree_keeps, apply_ite State.pending, ite_self, and_self]

@[simp] theorem listSlot_keeps (s : State) (g : Nat) :
    (listSlot s g).pending = s.pending ∧
    (listSlot s g).sec.fuses = s.sec.fuses := by
  simp only [listSlot, modSec_keeps, modSec_fuses, apply_ite State.pending, apply_ite State.sec, apply_ite Sec.fuses, ite_self, and_self]

@[simp] theorem deadlineMissed_keeps (s : State) (p : Nat) :
    (deadlineMissed s p).pending = s.pending ∧
    (deadlineMissed s p).sec.fuses = s.sec.fuses := by
  simp only [deadlineMissed]
  refine ⟨?_, ?_⟩ <;> repeat' first
    | (split <;> rename_i e <;> try (replace e := congrArg (fun x => (x.1.pending, x.1.sec.fuses)) e; simp only [Prod.mk.injEq, pickOf_keeps, listSlot_keeps, runReset_keeps, resetDies_keeps, noteEscalated_keeps] at e))
    | (with_reducible refine (foldl_pending _ _ _ fun _ _ => ?_).trans ?_)
    | (with_reducible refine (foldl_fuses _ _ _ fun _ _ => ?_).trans ?_)
    | simp only [*, pickOf_keeps, listSlot_keeps, runReset_keeps, resetDies_keeps, noteEscalated_keeps, apply_ite State.pending, apply_ite State.sec, apply_ite Sec.fuses, ite_self, and_self]

@[simp] theorem trip_keeps (s : State) (src unit die reading : Nat) :
    (trip s src unit die reading).pending = s.pending ∧
    (trip s src unit die reading).sec.fuses = s.sec.fuses := by
  simp only [trip, resetDies_keeps, logEv_keeps, wr_keeps, and_self]

@[simp] theorem readingOf_keeps (s : State) (stored least : Nat) :
    (readingOf s stored least).1.pending = s.pending ∧
    (readingOf s stored least).1.sec.fuses = s.sec.fuses := by
  simp only [readingOf]
  repeat' split
  all_goals simp only [*, nextFree_keeps, apply_ite State.pending, apply_ite State.sec, apply_ite Sec.fuses, ite_self, and_self]

@[simp] theorem stackTrip_keeps (s : State) (st : Nat) :
    (stackTrip s st).pending = s.pending ∧
    (stackTrip s st).sec.fuses = s.sec.fuses := by
  simp only [stackTrip, readingOf_keeps, trip_keeps, modStk_keeps, setBits_keeps, apply_ite State.pending, apply_ite State.sec, apply_ite Sec.fuses, ite_self, and_self]

@[simp] theorem tripSensor_keeps (s : State) (d : Nat) :
    (tripSensor s d).1.pending = s.pending ∧
    (tripSensor s d).1.sec.fuses = s.sec.fuses := by
  simp only [tripSensor]
  repeat' split
  all_goals simp only [*, pickOf_keeps, nextFree_keeps, apply_ite State.pending, apply_ite State.sec, apply_ite Sec.fuses, ite_self, and_self]

@[simp] theorem dieTrip_keeps (s : State) (d : Nat) :
    (dieTrip s d).pending = s.pending ∧
    (dieTrip s d).sec.fuses = s.sec.fuses := by
  simp only [dieTrip, readingOf_keeps, tripSensor_keeps, trip_keeps, apply_ite State.pending, apply_ite State.sec, apply_ite Sec.fuses, ite_self, and_self]

@[simp] theorem tripPoll_keeps (s : State) (t : Nat) :
    (tripPoll s t).pending = s.pending ∧
    (tripPoll s t).sec.fuses = s.sec.fuses := by
  simp only [tripPoll, wr_keeps, apply_ite State.pending, apply_ite State.sec, apply_ite Sec.fuses, ite_self, and_self]

@[simp] theorem tripClear_keeps (s : State) (v : Nat) :
    (tripClear s v).pending = s.pending ∧
    (tripClear s v).sec.fuses = s.sec.fuses := by
  simp only [tripClear]
  refine ⟨?_, ?_⟩ <;> repeat' first
    | (split <;> rename_i e <;> try (replace e := congrArg (fun x => (x.1.pending, x.1.sec.fuses)) e; simp only [Prod.mk.injEq, wr_keeps, modStk_keeps, clrBits_keeps, releaseDie_keeps] at e))
    | (with_reducible refine (foldl_pending _ _ _ fun _ _ => ?_).trans ?_)
    | (with_reducible refine (foldl_fuses _ _ _ fun _ _ => ?_).trans ?_)
    | simp only [*, wr_keeps, modStk_keeps, clrBits_keeps, releaseDie_keeps, apply_ite State.pending, apply_ite State.sec, apply_ite Sec.fuses, ite_self, and_self]

@[simp] theorem bridgeError_keeps (s : State) (a : Nat) :
    (bridgeError s a).pending = s.pending ∧
    (bridgeError s a).sec.fuses = s.sec.fuses := by
  simp only [bridgeError]
  repeat' split
  all_goals simp only [*, poisonGranule_keeps, pickOf_keeps, askModule_keeps, logEv_keeps, and_self]

@[simp] theorem heartbeat_keeps (s : State) (d : Nat) :
    (heartbeat s d).pending = s.pending ∧
    (heartbeat s d).sec.fuses = s.sec.fuses := by
  simp only [heartbeat, and_self]

@[simp] theorem fwSilent_keeps (s : State) (d : Nat) :
    (fwSilent s d).pending = s.pending ∧
    (fwSilent s d).sec.fuses = s.sec.fuses := by
  simp only [fwSilent, setBits_keeps, takeToken_keeps, logEv_keeps, apcEvent_keeps, apply_ite State.pending, apply_ite State.sec, apply_ite Sec.fuses, ite_self, and_self]

@[simp] theorem tokenCas_keeps (s : State) (d v : Nat) :
    (tokenCas s d v).pending = s.pending ∧
    (tokenCas s d v).sec.fuses = s.sec.fuses := by
  simp only [tokenCas, setBits_keeps, wr_keeps, apcEvent_keeps, apply_ite State.pending, apply_ite State.sec, apply_ite Sec.fuses, ite_self, and_self]

@[simp] theorem casBy_keeps (s : State) (r : Requester) (v : Nat) :
    (casBy s r v).pending = s.pending ∧
    (casBy s r v).sec.fuses = s.sec.fuses := by
  simp only [casBy]
  repeat' split
  all_goals simp only [*, tokenCas_keeps, and_self]

@[simp] theorem conflict_keeps (s : State) (d epoch : Nat) :
    (conflict s d epoch).pending = s.pending ∧
    (conflict s d epoch).sec.fuses = s.sec.fuses := by
  simp only [conflict, logEv_keeps, setBits_keeps, apply_ite State.pending, apply_ite State.sec, apply_ite Sec.fuses, ite_self, and_self]

@[simp] theorem putWords_keeps (s : State) (a n v : Nat) :
    (putWords s a n v).pending = s.pending ∧
    (putWords s a n v).sec.fuses = s.sec.fuses := by
  simp only [putWords]
  refine ⟨?_, ?_⟩ <;> repeat' first
    | (split <;> rename_i e <;> try (replace e := congrArg (fun x => (x.1.pending, x.1.sec.fuses)) e; simp only [Prod.mk.injEq, wr_keeps] at e))
    | (with_reducible refine (foldNat_pending _ _ _ fun _ _ => ?_).trans ?_)
    | (with_reducible refine (foldNat_fuses _ _ _ fun _ _ => ?_).trans ?_)
    | simp only [*, wr_keeps, and_self]

@[simp] theorem setResult_keeps (s : State) (a v : Nat) :
    (setResult s a v).pending = s.pending ∧
    (setResult s a v).sec.fuses = s.sec.fuses := by
  simp only [setResult, wr_keeps, and_self]

theorem quoteBuf_keeps (s : State) (v : Nat) : Keeps s (putWords s (secReg 0x2000) 397 v) := putWords_keeps _ _ _ _

theorem index_keeps (s t : State) (h : Keeps s t) : Keeps s (modSec t (fun x => { x with idNext := x.idNext + 1 })) := h

@[simp] theorem rollbackCmd_keeps (s : State) (v : Nat) :
    (rollbackCmd s v).pending = s.pending ∧
    (rollbackCmd s v).sec.fuses = s.sec.fuses := by
  simp only [rollbackCmd, pickOf_keeps, setResult_keeps, modSec_keeps, advance_keeps, modSec_fuses, apply_ite State.pending, apply_ite State.sec, apply_ite Sec.fuses, ite_self, and_self]

@[simp] theorem refuseStale_keeps (s : State) (p : Nat) :
    (refuseStale s p).pending = s.pending ∧
    (refuseStale s p).sec.fuses = s.sec.fuses := by
  simp only [refuseStale, modPart_keeps, countTable_keeps, refuseLoad_keeps, apply_ite State.pending, apply_ite State.sec, apply_ite Sec.fuses, ite_self, and_self]

@[simp] theorem advanceDone_keeps (s : State) :
    (advanceDone s).pending = s.pending := by
  simp only [advanceDone]
  repeat' first
    | (split <;> rename_i e <;> try (replace e := congrArg (fun x => (x.1.pending, x.1.sec.fuses)) e; simp only [Prod.mk.injEq, modSec_keeps, advance_keeps, refuseStale_keeps] at e))
    | (with_reducible refine (foldl_pending _ _ _ fun _ _ => ?_).trans ?_)
    | simp only [*, modSec_keeps, advance_keeps, refuseStale_keeps, apply_ite State.pending, ite_self, and_self]

@[simp] theorem measureExtend_keeps (s : State) (r : Requester) (v : Nat) :
    (measureExtend s r v).pending = s.pending ∧
    (measureExtend s r v).sec.fuses = s.sec.fuses := by
  simp only [measureExtend, extend_keeps, apply_ite State.pending, apply_ite State.sec, apply_ite Sec.fuses, ite_self, and_self]

@[simp] theorem quoteCmd_keeps (s : State) (v : Nat) :
    (quoteCmd s v).pending = s.pending ∧
    (quoteCmd s v).sec.fuses = s.sec.fuses := by
  simp only [quoteCmd, setResult_keeps, modSec_keeps, modSec_fuses, apply_ite State.pending, apply_ite State.sec, apply_ite Sec.fuses, ite_self, and_self]

@[simp] theorem flashWrites_keeps (s : State) :
    (flashWrites s).1.pending = s.pending ∧
    (flashWrites s).1.sec.fuses = s.sec.fuses := by
  simp only [flashWrites, pickOf_keeps, and_self]

@[simp] theorem reserveIndex_keeps (s : State) :
    (reserveIndex s).1.pending = s.pending ∧
    (reserveIndex s).1.sec.fuses = s.sec.fuses := by
  simp only [reserveIndex]
  repeat' split
  all_goals simp only [*, flashWrites_keeps, modSec_keeps, modSec_fuses, apply_ite State.pending, apply_ite State.sec, apply_ite Sec.fuses, ite_self, and_self]

@[simp] theorem signQuote_keeps (s : State) (b : Nat) :
    (signQuote s b).pending = s.pending ∧
    (signQuote s b).sec.fuses = s.sec.fuses := by
  change Keeps s (signQuote s b)
  delta signQuote
  exact Keeps.trans (index_keeps s _ (quoteBuf_keeps s _)) (setResult_keeps _ _ _)

@[simp] theorem runExtends_keeps (s : State) :
    (runExtends s).pending = s.pending ∧
    (runExtends s).sec.fuses = s.sec.fuses := by
  simp only [runExtends]
  refine ⟨?_, ?_⟩ <;> repeat' first
    | (split <;> rename_i e <;> try (replace e := congrArg (fun x => (x.1.pending, x.1.sec.fuses)) e; simp only [Prod.mk.injEq, extendMeas_keeps, modSec_keeps, modSec_fuses] at e))
    | (with_reducible refine (foldl_pending _ _ _ fun _ _ => ?_).trans ?_)
    | (with_reducible refine (foldl_fuses _ _ _ fun _ _ => ?_).trans ?_)
    | simp only [*, extendMeas_keeps, modSec_keeps, modSec_fuses, and_self]

@[simp] theorem quoteDone_keeps (s : State) :
    (quoteDone s).pending = s.pending ∧
    (quoteDone s).sec.fuses = s.sec.fuses := by
  simp only [quoteDone]
  repeat' split
  all_goals simp only [*, modSec_keeps, setResult_keeps, reserveIndex_keeps, signQuote_keeps, runExtends_keeps, modSec_fuses, apply_ite State.pending, apply_ite State.sec, apply_ite Sec.fuses, ite_self, and_self]

@[simp] theorem commitKey_keeps (s : State) (v : Nat) :
    (commitKey s v).pending = s.pending ∧
    (commitKey s v).sec.fuses = s.sec.fuses := by
  simp only [commitKey, flashWrites_keeps, modSec_keeps, pickOf_keeps, setResult_keeps, modSec_fuses, apply_ite State.pending, apply_ite State.sec, apply_ite Sec.fuses, ite_self, and_self]

@[simp] theorem flashCmd_keeps (s : State) (op : Nat) :
    (flashCmd s op).pending = s.pending ∧
    (flashCmd s op).sec.fuses = s.sec.fuses := by
  simp only [flashCmd, setResult_keeps, nextFree_keeps, modSec_keeps, modSec_fuses, apply_ite State.pending, apply_ite State.sec, apply_ite Sec.fuses, ite_self, and_self]

@[simp] theorem flashEffect_keeps (s : State) (op a : Nat) :
    (flashEffect s op a).pending = s.pending ∧
    (flashEffect s op a).sec.fuses = s.sec.fuses := by
  simp only [flashEffect, modSec_keeps, putWords_keeps, modSec_fuses, apply_ite State.pending, apply_ite State.sec, apply_ite Sec.fuses, ite_self, and_self]

@[simp] theorem flashDone_keeps (s : State) :
    (flashDone s).pending = s.pending ∧
    (flashDone s).sec.fuses = s.sec.fuses := by
  change Keeps s (flashDone s)
  unfold flashDone
  split
  · exact Keeps.refl s
  · rename_i op a _
    extract_lets r t
    have h1 : Keeps s r.1 := by
      simp only [r]
      split
      · exact Keeps.refl s
      · exact flashWrites_keeps s
    have h2 : Keeps s t := by
      simp only [t]
      split
      · exact h1.trans (flashEffect_keeps _ _ _)
      · exact h1.trans (cutFlash_keeps _)
    clear_value t
    have h3 : Keeps s (modSec t (fun x => { x with flashOp := none })) := h2
    exact h3.trans (setResult_keeps _ _ _)

@[simp] theorem podPut_keeps (s : State) (a v : Nat) :
    (podPut s a v).pending = s.pending ∧
    (podPut s a v).sec.fuses = s.sec.fuses := by
  simp only [podPut]
  repeat' split
  all_goals simp only [*, wr_keeps, clrBits_keeps, apply_ite State.pending, apply_ite State.sec, apply_ite Sec.fuses, ite_self, and_self]

@[simp] theorem chCmd_keeps (s : State) (d n op : Nat) :
    (chCmd s d n op).pending = s.pending ∧
    (chCmd s d n op).sec.fuses = s.sec.fuses := by
  simp only [chCmd]
  repeat' split
  all_goals simp only [*, chAbort_keeps, chDisable_keeps, chResume_keeps, and_self]

@[simp] theorem cpyPut_keeps (s : State) (d q v : Nat) :
    (cpyPut s d q v).pending = s.pending ∧
    (cpyPut s d q v).sec.fuses = s.sec.fuses := by
  simp only [cpyPut]
  repeat' split
  all_goals simp only [*, chOwner_keeps, chEnq_keeps, chCmd_keeps, clrBits_keeps, wr_keeps, ringTail_keeps, rangeCmd_keeps, descCmd_keeps, apply_ite State.pending, apply_ite State.sec, apply_ite Sec.fuses, ite_self, and_self]

@[simp] theorem bucketPut_keeps (s : State) (st v : Nat) :
    (bucketPut s st v).pending = s.pending ∧
    (bucketPut s st v).sec.fuses = s.sec.fuses := by
  simp only [bucketPut, modStk_keeps, wr_keeps, and_self]

@[simp] theorem mchPut_keeps (s : State) (st q v : Nat) :
    (mchPut s st q v).pending = s.pending ∧
    (mchPut s st q v).sec.fuses = s.sec.fuses := by
  simp only [mchPut]
  repeat' split
  all_goals simp only [*, clrBits_keeps, wr_keeps, bucketPut_keeps, and_self]

@[simp] theorem mchLocked_keeps (s : State) (st q v : Nat) :
    (mchLocked s st q v).pending = s.pending ∧
    (mchLocked s st q v).sec.fuses = s.sec.fuses := by
  simp only [mchLocked]
  repeat' split
  all_goals simp only [*, wr_keeps, regionCommit_keeps, apply_ite State.pending, apply_ite State.sec, apply_ite Sec.fuses, ite_self, and_self]

@[simp] theorem synPut_keeps (s : State) (d q v : Nat) :
    (synPut s d q v).pending = s.pending ∧
    (synPut s d q v).sec.fuses = s.sec.fuses := by
  simp only [synPut]
  repeat' split
  all_goals simp only [*, wr_keeps, clrBits_keeps, synSignal_keeps, apply_ite State.pending, apply_ite State.sec, apply_ite Sec.fuses, ite_self, and_self]

@[simp] theorem partCmd_keeps (s : State) (d v : Nat) :
    (partCmd s d v).pending = s.pending ∧
    (partCmd s d v).sec.fuses = s.sec.fuses := by
  simp only [partCmd]
  repeat' split
  all_goals simp only [*, continuePart_keeps, abandonPart_keeps, and_self]

@[simp] theorem rylPut_keeps (s : State) (d q v : Nat) :
    (rylPut s d q v).pending = s.pending ∧
    (rylPut s d q v).sec.fuses = s.sec.fuses := by
  simp only [rylPut]
  repeat' split
  all_goals simp only [*, wr_keeps, portTrain_keeps, portDown_keeps, writeModuleId_keeps, clrBits_keeps, partCmd_keeps, spareSteer_keeps, apply_ite State.pending, apply_ite State.sec, apply_ite Sec.fuses, ite_self, and_self]

@[simp] theorem pwsPut_keeps (s : State) (d q v : Nat) :
    (pwsPut s d q v).pending = s.pending ∧
    (pwsPut s d q v).sec.fuses = s.sec.fuses := by
  simp only [pwsPut]
  repeat' split
  all_goals simp only [*, wr_keeps, clrBits_keeps, apply_ite State.pending, apply_ite State.sec, apply_ite Sec.fuses, ite_self, and_self]

@[simp] theorem rstCmd_keeps (s : State) (d v : Nat) :
    (rstCmd s d v).pending = s.pending ∧
    (rstCmd s d v).sec.fuses = s.sec.fuses := by
  simp only [rstCmd]
  split
  · exact podCmd_keeps s d v _ (fun z n => (resetPod_keeps z n).1) (fun z n => (resetPod_keeps z n).2)
  · exact podCmd_keeps s d v _ (fun z n => (resetHatch_keeps z n).1) (fun z n => (resetHatch_keeps z n).2)
  all_goals simp only [askReset_keeps, askDie_keeps, and_self]

@[simp] theorem rstPut_keeps (s : State) (d q v : Nat) :
    (rstPut s d q v).pending = s.pending ∧
    (rstPut s d q v).sec.fuses = s.sec.fuses := by
  simp only [rstPut]
  repeat' split
  all_goals simp only [*, crashAck_keeps, wr_keeps, rstCmd_keeps, clrBits_keeps, apply_ite State.pending, apply_ite State.sec, apply_ite Sec.fuses, ite_self, and_self]

@[simp] theorem cntPut_keeps (s : State) (d q v : Nat) :
    (cntPut s d q v).pending = s.pending ∧
    (cntPut s d q v).sec.fuses = s.sec.fuses := by
  simp only [cntPut, cntFold_keeps, wr_keeps, apply_ite State.pending, apply_ite State.sec, apply_ite Sec.fuses, ite_self, and_self]

@[simp] theorem wrdPut_keeps (s : State) (r : Requester) (q v : Nat) :
    (wrdPut s r q v).pending = s.pending ∧
    (wrdPut s r q v).sec.fuses = s.sec.fuses := by
  simp only [wrdPut]
  repeat' split
  all_goals simp only [*, casBy_keeps, clrBits_keeps, wr_keeps, heartbeat_keeps, powerWrite_keeps, tripClear_keeps, resetCmd_keeps, and_self]

@[simp] theorem secPut_keeps (s : State) (r : Requester) (q v : Nat) :
    (secPut s r q v).pending = s.pending ∧
    (secPut s r q v).sec.fuses = s.sec.fuses := by
  simp only [secPut]
  repeat' split
  all_goals simp only [*, wr_keeps, modSec_keeps, rollbackCmd_keeps, quoteCmd_keeps, measureExtend_keeps, commitKey_keeps, flashCmd_keeps, modSec_fuses, apply_ite State.pending, apply_ite State.sec, apply_ite Sec.fuses, ite_self, and_self]

@[simp] theorem pltCmd_keeps (s : State) (p v : Nat) :
    (pltCmd s p v).pending = s.pending ∧
    (pltCmd s p v).sec.fuses = s.sec.fuses := by
  simp only [pltCmd]
  repeat' split
  all_goals simp only [*, loadCmd_keeps, activateCmd_keeps, retireCmd_keeps, discardCmd_keeps, abortCmd_keeps, badCommand_keeps, and_self]

@[simp] theorem apcPut_keeps (s : State) (r : Requester) (q v : Nat) :
    (apcPut s r q v).pending = s.pending ∧
    (apcPut s r q v).sec.fuses = s.sec.fuses := by
  simp only [apcPut]
  repeat' split
  all_goals simp only [*, wr_keeps, pltCmd_keeps, clrBits_keeps, permitWrite_keeps, apply_ite State.pending, apply_ite State.sec, apply_ite Sec.fuses, ite_self, and_self]

@[simp] theorem bbxPut_keeps (s : State) (r : Requester) (q v : Nat) :
    (bbxPut s r q v).pending = s.pending ∧
    (bbxPut s r q v).sec.fuses = s.sec.fuses := by
  simp only [bbxPut, bbxUnfreeze_keeps, bbxFreeze_keeps, apply_ite State.pending, apply_ite State.sec, apply_ite Sec.fuses, ite_self, and_self]

@[simp] theorem putLocked_keeps (s : State) (a v : Nat) :
    (putLocked s a v).pending = s.pending ∧
    (putLocked s a v).sec.fuses = s.sec.fuses := by
  simp only [putLocked]
  repeat' split
  all_goals simp only [*, mchLocked_keeps, wr_keeps, enterEthernet_keeps, apply_ite State.pending, apply_ite State.sec, apply_ite Sec.fuses, ite_self, and_self]

@[simp] theorem regPut_keeps (s : State) (r : Requester) (a v : Nat) :
    (regPut s r a v).pending = s.pending ∧
    (regPut s r a v).sec.fuses = s.sec.fuses := by
  simp only [regPut]
  repeat' split
  all_goals simp only [*, podPut_keeps, cpyPut_keeps, mchPut_keeps, clrBits_keeps, wr_keeps, synPut_keeps, rylPut_keeps, pwsPut_keeps, rstPut_keeps, cntPut_keeps, wrdPut_keeps, bbxPut_keeps, secPut_keeps, apcPut_keeps, apply_ite State.pending, apply_ite State.sec, apply_ite Sec.fuses, ite_self, and_self]

@[simp] theorem mergeHalf_keeps (s : State) (a : Nat) (half : Half) (v : Nat) :
    (mergeHalf s a half v).1.pending = s.pending ∧
    (mergeHalf s a half v).1.sec.fuses = s.sec.fuses := by
  simp only [mergeHalf]
  repeat' split
  all_goals simp only [*, nextFree_keeps, apply_ite State.pending, apply_ite State.sec, apply_ite Sec.fuses, ite_self, and_self]

@[simp] theorem regStore_keeps (s : State) (r : Requester) (a : Nat) (half : Half) (v : Nat) :
    (regStore s r a half v).pending = s.pending ∧
    (regStore s r a half v).sec.fuses = s.sec.fuses := by
  simp only [regStore, mergeHalf_keeps, putLocked_keeps, violate_keeps, regPut_keeps, apply_ite State.pending, apply_ite State.sec, apply_ite Sec.fuses, ite_self, and_self]

@[simp] theorem regWrite_keeps (s : State) (r : Requester) (addr w v : Nat) :
    (regWrite s r addr w v).1.pending = s.pending ∧
    (regWrite s r addr w v).1.sec.fuses = s.sec.fuses := by
  simp only [regWrite]
  repeat' split
  all_goals simp only [*, wr_keeps, violate_keeps, regStore_keeps, apply_ite State.pending, apply_ite State.sec, apply_ite Sec.fuses, ite_self, and_self]

@[simp] theorem memStore_keeps (s : State) (r : Requester) (a : Nat) (data : List Byte) :
    (memStore s r a data).1.pending = s.pending ∧
    (memStore s r a data).1.sec.fuses = s.sec.fuses := by
  simp only [memStore]
  repeat' split
  all_goals simp only [*, svcWrite_keeps, apply_ite State.pending, apply_ite State.sec, apply_ite Sec.fuses, ite_self, and_self]

@[simp] theorem memLoad_keeps (s : State) (r : Requester) (a n reader : Nat) :
    (memLoad s r a n reader).1.pending = s.pending ∧
    (memLoad s r a n reader).1.sec.fuses = s.sec.fuses := by
  simp only [memLoad]
  repeat' split
  all_goals simp only [*, memNote_keeps, apply_ite State.pending, apply_ite State.sec, apply_ite Sec.fuses, ite_self, and_self]

@[simp] theorem deliverMsi_keeps (s : State) (file : Nat) (data : List Byte) :
    (deliverMsi s file data).pending = s.pending ∧
    (deliverMsi s file data).sec.fuses = s.sec.fuses := by
  simp only [deliverMsi, apply_ite State.pending, apply_ite State.sec, apply_ite Sec.fuses, ite_self, and_self]

@[simp] theorem pcieWrite_keeps (s : State) (a : Nat) (data : List Byte) :
    (pcieWrite s a data).pending = s.pending ∧
    (pcieWrite s a data).sec.fuses = s.sec.fuses := by
  simp only [pcieWrite, emit_keeps, apply_ite State.pending, apply_ite State.sec, apply_ite Sec.fuses, ite_self, and_self]

@[simp] theorem pcieRead_keeps (s : State) (a n : Nat) :
    (pcieRead s a n).1.pending = s.pending ∧
    (pcieRead s a n).1.sec.fuses = s.sec.fuses := by
  simp only [pcieRead, emit_keeps, nextFree_keeps, apply_ite State.pending, apply_ite State.sec, apply_ite Sec.fuses, ite_self, and_self]

@[simp] theorem coreWrite_keeps (s : State) (r : Requester) (a : Nat) (data : List Byte) :
    (coreWrite s r a data).1.pending = s.pending ∧
    (coreWrite s r a data).1.sec.fuses = s.sec.fuses := by
  simp only [coreWrite]
  repeat' split
  all_goals simp only [*, pcieWrite_keeps, deliverMsi_keeps, memStore_keeps, apply_ite State.pending, apply_ite State.sec, apply_ite Sec.fuses, ite_self, and_self]

@[simp] theorem spadTouch_keeps (s : State) (g h o w reader : Nat) :
    (spadTouch s g h o w reader).1.pending = s.pending ∧
    (spadTouch s g h o w reader).1.sec.fuses = s.sec.fuses := by
  simp only [spadTouch]
  refine ⟨?_, ?_⟩ <;> repeat' first
    | (split <;> rename_i e <;> try (replace e := congrArg (fun x => (x.1.pending, x.1.sec.fuses)) e; simp only [Prod.mk.injEq, flushCe_keeps, setPod_keeps, notePodBad_keeps] at e))
    | (with_reducible refine (foldl_pending _ _ _ fun _ _ => ?_).trans ?_)
    | (with_reducible refine (foldl_fuses _ _ _ fun _ _ => ?_).trans ?_)
    | (with_reducible refine (foldPair_pending _ _ _ fun _ _ => ?_).trans ?_)
    | (with_reducible refine (foldPair_fuses _ _ _ fun _ _ => ?_).trans ?_)
    | simp only [*, flushCe_keeps, setPod_keeps, notePodBad_keeps, and_self]

@[simp] theorem spadSvcWord_keeps (s : State) (g w v : Nat) :
    (spadSvcWord s g w v).pending = s.pending ∧
    (spadSvcWord s g w v).sec.fuses = s.sec.fuses := by
  simp only [spadSvcWord, flipPod_keeps, modPod_keeps, apply_ite State.pending, apply_ite State.sec, apply_ite Sec.fuses, ite_self, and_self]

@[simp] theorem spadAccess_keeps (s : State) (g h o w reader : Nat) (write : Option Nat) :
    (spadAccess s g h o w reader write).1.pending = s.pending ∧
    (spadAccess s g h o w reader write).1.sec.fuses = s.sec.fuses := by
  simp only [spadAccess]
  refine ⟨?_, ?_⟩ <;> repeat' first
    | (split <;> rename_i e <;> try (replace e := congrArg (fun x => (x.1.pending, x.1.sec.fuses)) e; simp only [Prod.mk.injEq, spadTouch_keeps, spadSvcWord_keeps, touchAll_keeps] at e))
    | (with_reducible refine (foldl_pending _ _ _ fun _ _ => ?_).trans ?_)
    | (with_reducible refine (foldl_fuses _ _ _ fun _ _ => ?_).trans ?_)
    | (with_reducible refine (foldPair_pending _ _ _ fun _ _ => ?_).trans ?_)
    | (with_reducible refine (foldPair_fuses _ _ _ fun _ _ => ?_).trans ?_)
    | simp only [*, spadTouch_keeps, spadSvcWord_keeps, touchAll_keeps, apply_ite State.pending, apply_ite State.sec, apply_ite Sec.fuses, ite_self, and_self]

@[simp] theorem podAccess_keeps (s : State) (r : Requester) (a w h : Nat) (write : Option Nat) :
    (podAccess s r a w h write).1.pending = s.pending ∧
    (podAccess s r a w h write).1.sec.fuses = s.sec.fuses := by
  simp only [podAccess]
  repeat' split
  all_goals simp only [*, spadAccess_keeps, regWrite_keeps, regRead_keeps, apply_ite State.pending, apply_ite State.sec, apply_ite Sec.fuses, ite_self, and_self]

@[simp] theorem podAnswer_keeps (s : State) (r : Requester) (a : Nat) (write res : Option Nat) :
    (podAnswer s r a write res).pending = s.pending ∧
    (podAnswer s r a write res).sec.fuses = s.sec.fuses := by
  simp only [podAnswer]
  repeat' split
  all_goals simp only [*, emit_keeps, askDie_keeps, apply_ite State.pending, apply_ite State.sec, apply_ite Sec.fuses, ite_self, and_self]

@[simp] theorem bringTo_keeps (s : State) (n h : Nat) :
    (bringTo s n h).pending = s.pending ∧
    (bringTo s n h).sec.fuses = s.sec.fuses := by
  simp only [bringTo, arrive_keeps, reachHc_keeps, apply_ite State.pending, apply_ite State.sec, apply_ite Sec.fuses, ite_self, and_self]

@[simp] theorem toSlot_keeps (s : State) (g : Nat) :
    (toSlot s g).pending = s.pending ∧
    (toSlot s g).sec.fuses = s.sec.fuses := by
  simp only [toSlot]
  repeat' split
  all_goals simp only [*, bringTo_keeps, apply_ite State.pending, apply_ite State.sec, apply_ite Sec.fuses, ite_self, and_self]

@[simp] theorem serviceAccess_keeps (s : State) (r : Requester) (a w : Nat) (write : Option Nat) :
    (serviceAccess s r a w write).pending = s.pending ∧
    (serviceAccess s r a w write).sec.fuses = s.sec.fuses := by
  simp only [serviceAccess]
  repeat' split
  all_goals simp only [*, emit_keeps, modPod_keeps, podAccess_keeps, podAnswer_keeps, apply_ite State.pending, apply_ite State.sec, apply_ite Sec.fuses, ite_self, and_self]

@[simp] theorem serviceDone_keeps (s : State) (g : Nat) :
    (serviceDone s g).pending = s.pending ∧
    (serviceDone s g).sec.fuses = s.sec.fuses := by
  simp only [serviceDone]
  repeat' split
  all_goals simp only [*, modPod_keeps, bringTo_keeps, podAccess_keeps, podAnswer_keeps, apply_ite State.pending, apply_ite State.sec, apply_ite Sec.fuses, ite_self, and_self]

@[simp] theorem mapWrite_keeps (s : State) (r : Requester) (a w v : Nat) :
    (mapWrite s r a w v).1.pending = s.pending ∧
    (mapWrite s r a w v).1.sec.fuses = s.sec.fuses := by
  simp only [mapWrite]
  repeat' split
  all_goals simp only [*, pcieWrite_keeps, deliverMsi_keeps, regWrite_keeps, toSlot_keeps, apply_ite State.pending, apply_ite State.sec, apply_ite Sec.fuses, ite_self, and_self]

@[simp] theorem inboundDma_keeps (s : State) (x : Dma) :
    (inboundDma s x).pending = s.pending ∧
    (inboundDma s x).sec.fuses = s.sec.fuses := by
  simp only [inboundDma]
  repeat' split
  all_goals simp only [*, emit_keeps, nextFree_keeps, deliverMsi_keeps, memStore_keeps, memLoad_keeps, apply_ite State.pending, apply_ite State.sec, apply_ite Sec.fuses, ite_self, and_self]

@[simp] theorem mgmtLoad_keeps (s : State) (a w : Nat) :
    (mgmtLoad s a w).1.pending = s.pending ∧
    (mgmtLoad s a w).1.sec.fuses = s.sec.fuses := by
  simp only [mgmtLoad]
  repeat' split
  all_goals simp only [*, memLoad_keeps, pcieRead_keeps, toSlot_keeps, podAccess_keeps, regRead_keeps, apply_ite State.pending, apply_ite State.sec, apply_ite Sec.fuses, ite_self, and_self]

@[simp] theorem mgmtStore_keeps (s : State) (a w v : Nat) :
    (mgmtStore s a w v).1.pending = s.pending ∧
    (mgmtStore s a w v).1.sec.fuses = s.sec.fuses := by
  simp only [mgmtStore]
  repeat' split
  all_goals simp only [*, memStore_keeps, toSlot_keeps, podAccess_keeps, mapWrite_keeps, apply_ite State.pending, apply_ite State.sec, apply_ite Sec.fuses, ite_self, and_self]

@[simp] theorem mgmtReads_keeps (x0 : Nat) (x1 : State) (x2 x3 : Nat) (x4 : List Byte) :
    (mgmtReads x0 x1 x2 x3 x4).1.pending = x1.pending ∧
    (mgmtReads x0 x1 x2 x3 x4).1.sec.fuses = x1.sec.fuses := by
  induction x0 generalizing x1 x2 x4 with
  | zero => exact ⟨rfl, rfl⟩
  | succ n ih =>
    simp only [mgmtReads]
    split <;> rename_i e <;> replace e := congrArg (fun x => (x.1.pending, x.1.sec.fuses)) e <;>
      simp only [Prod.mk.injEq, mgmtLoad_keeps] at e <;> simp only [ih, e, and_self]

@[simp] theorem mgmtWrites_keeps (x0 : Nat) (x1 : State) (x2 x3 : Nat) (x4 : List Byte) (x5 : Nat) :
    (mgmtWrites x0 x1 x2 x3 x4 x5).1.pending = x1.pending ∧
    (mgmtWrites x0 x1 x2 x3 x4 x5).1.sec.fuses = x1.sec.fuses := by
  induction x0 generalizing x1 x2 x4 x5 with
  | zero => exact ⟨rfl, rfl⟩
  | succ n ih =>
    simp only [mgmtWrites]
    split <;> rename_i e <;> replace e := congrArg (fun x => (x.1.pending, x.1.sec.fuses)) e <;>
      simp only [Prod.mk.injEq, mgmtStore_keeps] at e <;> simp only [ih, e, and_self]

@[simp] theorem takeSeq_keeps (s : State) (q : Nat) :
    (takeSeq s q).pending = s.pending ∧
    (takeSeq s q).sec.fuses = s.sec.fuses := by
  simp only [takeSeq, modSec_keeps, modSec_fuses, apply_ite State.pending, apply_ite State.sec, apply_ite Sec.fuses, ite_self, and_self]

@[simp] theorem mgmtReply_keeps (s : State) (x : MgmtReq) (key status index : Nat) (payload : List Byte) :
    (mgmtReply s x key status index payload).pending = s.pending ∧
    (mgmtReply s x key status index payload).sec.fuses = s.sec.fuses := by
  simp only [mgmtReply, emit_keeps, and_self]

@[simp] theorem runRequest_keeps (s : State) (x : MgmtReq) (key : Nat) :
    (runRequest s x key).pending = s.pending ∧
    (runRequest s x key).sec.fuses = s.sec.fuses := by
  simp only [runRequest]
  repeat' split
  all_goals simp only [*, mgmtReply_keeps, mgmtReads_keeps, mgmtWrites_keeps, apply_ite State.pending, apply_ite State.sec, apply_ite Sec.fuses, ite_self, and_self]

@[simp] theorem mgmtRequest_keeps (s : State) (x : MgmtReq) :
    (mgmtRequest s x).pending = s.pending ∧
    (mgmtRequest s x).sec.fuses = s.sec.fuses := by
  simp only [mgmtRequest, setBits_keeps, bump_keeps, runRequest_keeps, takeSeq_keeps, apply_ite State.pending, apply_ite State.sec, apply_ite Sec.fuses, ite_self, and_self]

@[simp] theorem aoRead_keeps (s : State) (a : Nat) :
    (aoRead s a).pending = s.pending ∧
    (aoRead s a).sec.fuses = s.sec.fuses := by
  simp only [aoRead]
  refine ⟨?_, ?_⟩ <;> repeat' first
    | (split <;> rename_i e <;> try (replace e := congrArg (fun x => (x.1.pending, x.1.sec.fuses)) e; simp only [Prod.mk.injEq, regRead_keeps, emit_keeps] at e))
    | simp only [*, regRead_keeps, emit_keeps, apply_ite State.pending, apply_ite State.sec, apply_ite Sec.fuses, ite_self, and_self]

@[simp] theorem aoWrite_keeps (s : State) (a v : Nat) :
    (aoWrite s a v).pending = s.pending ∧
    (aoWrite s a v).sec.fuses = s.sec.fuses := by
  simp only [aoWrite, regWrite_keeps, apply_ite State.pending, apply_ite State.sec, apply_ite Sec.fuses, ite_self, and_self]

@[simp] theorem smbCap_keeps (s : State) (w : Nat) :
    (smbCap s w).pending = s.pending ∧
    (smbCap s w).sec.fuses = s.sec.fuses := by
  simp only [smbCap, regWrite_keeps, apply_ite State.pending, apply_ite State.sec, apply_ite Sec.fuses, ite_self, and_self]

@[simp] theorem tickStack_keeps (s : State) (st : Nat) :
    (tickStack s st).pending = s.pending ∧
    (tickStack s st).sec.fuses = s.sec.fuses := by
  simp only [tickStack, bump_keeps, modStk_keeps, apply_ite State.pending, apply_ite State.sec, apply_ite Sec.fuses, ite_self, and_self]

@[simp] theorem tick_keeps (s : State) :
    (tick s).pending = s.pending ∧
    (tick s).sec.fuses = s.sec.fuses := by
  simp only [tick]
  refine ⟨?_, ?_⟩ <;> repeat' first
    | (split <;> rename_i e <;> try (replace e := congrArg (fun x => (x.1.pending, x.1.sec.fuses)) e; simp only [Prod.mk.injEq, sample_keeps, tickStack_keeps] at e))
    | (with_reducible refine (foldNat_pending _ _ _ fun _ _ => ?_).trans ?_)
    | (with_reducible refine (foldNat_fuses _ _ _ fun _ _ => ?_).trans ?_)
    | simp only [*, sample_keeps, tickStack_keeps, apply_ite State.pending, apply_ite State.sec, apply_ite Sec.fuses, ite_self, and_self]

end Sys2Proof.Machine
end

