-- ==== Sys2Proof/Laws/Memory.lean ====
section
/-! SUPPORT. Laws of the byte memories: a read after a write, a write leaves every other byte alone, wide accesses are
their bytes, and every operation keeps the canonical form. The reading laws hold of every list, canonical or not. -/

namespace Sys2Proof.Machine

open Sys2Proof

theorem readByte_dropWhile (m : Mem) (k j : Nat) (h : k < j) :
    readByte (m.dropWhile (fun c => decide (c.1 ≤ k))) j = readByte m j := by
  induction m with
  | nil => rfl
  | cons e t ih =>
    obtain ⟨a, v⟩ := e
    by_cases c : a ≤ k
    · simp only [List.dropWhile_cons, c, decide_true, if_true, ih, readByte]
      rw [if_neg (by omega), if_neg (by omega)]
    · simp [c]

theorem readByte_dropWhile_le (m : Mem) (k j : Nat) (h : j ≤ k) :
    readByte (m.dropWhile (fun c => decide (c.1 ≤ k))) j = 0#8 := by
  induction m with
  | nil => rfl
  | cons e t ih =>
    obtain ⟨a, v⟩ := e
    by_cases c : a ≤ k
    · simpa [List.dropWhile_cons, c] using ih
    · simp only [List.dropWhile_cons, c, decide_false, readByte, Bool.false_eq_true, if_false]
      rw [if_neg (by omega), if_pos (by omega)]

@[simp] theorem readByte_writeByte_same (m : Mem) (k : Nat) (v : Byte) : readByte (writeByte m k v) k = v := by
  induction m with
  | nil => simp only [writeByte]; split <;> simp_all [readByte]
  | cons e t ih =>
    obtain ⟨a, b⟩ := e
    simp only [writeByte]
    split
    · split
      · simp only [readByte]; rw [if_neg (by omega), if_pos ‹_›]; simp_all
      · simp [readByte]
    · split
      · split
        · simp_all [readByte_dropWhile_le]
        · simp [readByte]
      · simp only [readByte, ih]; rw [if_neg (by omega), if_neg (by omega)]

theorem readByte_writeByte_ne (m : Mem) (k j : Nat) (v : Byte) (h : j ≠ k) :
    readByte (writeByte m k v) j = readByte m j := by
  induction m with
  | nil => simp only [writeByte]; split <;> simp [readByte, Ne.symm h]
  | cons e t ih =>
    obtain ⟨a, b⟩ := e
    simp only [writeByte]
    split
    · split
      · rfl
      · simp only [readByte]
        by_cases c : j < k
        · rw [if_neg (by omega), if_pos c, if_neg (by omega), if_pos (by omega)]
        · rw [if_neg (by omega), if_neg c]
    · split
      · subst a
        have hk : ¬ k = j := fun e => h e.symm
        split
        · by_cases c : j < k
          · rw [readByte_dropWhile_le _ _ _ (by omega)]; simp [readByte, hk, c]
          · rw [readByte_dropWhile _ _ _ (by omega)]; simp [readByte, hk, c]
        · simp [readByte, hk]
      · simp only [readByte, ih]

theorem readByte_writeByte (m : Mem) (k j : Nat) (v : Byte) :
    readByte (writeByte m k v) j = if j = k then v else readByte m j := by
  split
  · subst j; exact readByte_writeByte_same m k v
  · exact readByte_writeByte_ne m k j v ‹_›

/-- A wide write is its bytes, lowest first. -/
theorem readByte_mwrite (n : Nat) (m : Mem) (k v j : Nat) :
    readByte (mwrite n m k v) j =
      if k ≤ j ∧ j < k + n then BitVec.ofNat 8 (v / 256 ^ (j - k)) else readByte m j := by
  induction n generalizing m k v with
  | zero => simp only [mwrite]; rw [if_neg (by omega)]
  | succ n ih =>
    simp only [mwrite, ih]
    by_cases c : j = k
    · subst j
      rw [if_neg (by omega), if_pos (by omega)]
      simp
    · rw [readByte_writeByte_ne _ _ _ _ c]
      by_cases d : k + 1 ≤ j ∧ j < k + 1 + n
      · rw [if_pos d, if_pos (by omega), Nat.div_div_eq_div_mul, show j - k = (j - (k + 1)) + 1 by omega,
          Nat.pow_succ, Nat.mul_comm]
      · rw [if_neg d, if_neg (by omega)]

theorem readByte_mput (m : Mem) (k j : Nat) (l : List Byte) :
    readByte (mput m k l) j = if k ≤ j ∧ j < k + l.length then l.getD (j - k) 0#8 else readByte m j := by
  induction l generalizing m k with
  | nil => simp only [mput]; rw [if_neg (by simp only [List.length_nil]; omega)]
  | cons b t ih =>
    simp only [mput, ih, List.length_cons]
    by_cases c : j = k
    · subst j; rw [if_neg (by omega), if_pos (by omega)]; simp
    · rw [readByte_writeByte_ne _ _ _ _ c]
      by_cases d : k + 1 ≤ j ∧ j < k + 1 + t.length
      · rw [if_pos d, if_pos (by omega), show j - k = (j - (k + 1)) + 1 by omega]; simp
      · rw [if_neg d, if_neg (by omega)]

/-! ### The canonical form -/

theorem Mem.wf_iff (m : Mem) :
    Mem.wf m = true ↔ (m.map Prod.fst).Pairwise (· < ·) ∧ ∀ c ∈ m, c.2 ≠ 0#8 := by
  induction m with
  | nil => simp [Mem.wf]
  | cons e t ih =>
    obtain ⟨a, b⟩ := e
    cases t with
    | nil => simp [Mem.wf]
    | cons f t =>
      obtain ⟨a', b'⟩ := f
      simp only [Mem.wf, Bool.and_eq_true, decide_eq_true_eq, ih, List.map_cons, List.pairwise_cons, List.mem_cons,
        List.mem_map, forall_eq_or_imp]
      constructor
      · rintro ⟨⟨h1, h2⟩, ⟨h3, h4⟩, h5⟩
        exact ⟨⟨⟨h2, fun x m => Nat.lt_trans h2 (h3 x m)⟩, h3, h4⟩, h1, h5⟩
      · rintro ⟨⟨⟨h2, -⟩, h3, h4⟩, h1, h5⟩
        exact ⟨⟨h1, h2⟩, ⟨h3, h4⟩, h5⟩

theorem Mem.wf_sublist {m m' : Mem} (h : m'.Sublist m) (w : Mem.wf m = true) : Mem.wf m' = true := by
  rw [Mem.wf_iff] at *
  exact ⟨w.1.sublist (h.map _), fun c hc => w.2 c (h.subset hc)⟩

theorem Mem.wf_nil : Mem.wf [] = true := rfl

theorem fst_writeByte (m : Mem) (k : Nat) (v : Byte) (x : Nat) :
    x ∈ (writeByte m k v).map Prod.fst → x = k ∨ x ∈ m.map Prod.fst := by
  induction m with
  | nil => simp only [writeByte]; split <;> simp
  | cons e t ih =>
    obtain ⟨a, b⟩ := e
    simp only [writeByte]
    split
    · split <;> simp only [List.map_cons, List.mem_cons] <;> tauto
    · split
      · split
        · intro h; right; simp only [List.map_cons, List.mem_cons]
          exact Or.inr (((List.dropWhile_sublist _).map Prod.fst).subset h)
        · simp only [List.map_cons, List.mem_cons]; tauto
      · simp only [List.map_cons, List.mem_cons]; tauto

/-- A byte written keeps the form. -/
theorem Mem.wf_writeByte (m : Mem) (k : Nat) (v : Byte) (h : Mem.wf m = true) : Mem.wf (writeByte m k v) = true := by
  induction m with
  | nil => simp only [writeByte]; split <;> simp_all [Mem.wf]
  | cons e t ih =>
    obtain ⟨a, b⟩ := e
    have ht : Mem.wf t = true := Mem.wf_sublist (List.sublist_cons_self _ _) h
    have h' := (Mem.wf_iff _).1 h
    simp only [List.map_cons, List.pairwise_cons, List.mem_cons, forall_eq_or_imp] at h'
    simp only [writeByte]
    split
    · split
      · exact h
      · simp [Mem.wf, *]
    · split
      · split
        · exact Mem.wf_sublist (List.dropWhile_sublist _) ht
        · subst a; rw [Mem.wf_iff]; simpa [*] using h'
      · rw [Mem.wf_iff]
        have w := (Mem.wf_iff _).1 (ih ht)
        simp only [List.map_cons, List.pairwise_cons, List.mem_cons, forall_eq_or_imp]
        refine ⟨⟨fun x m => ?_, w.1⟩, h'.2.1, w.2⟩
        rcases fst_writeByte t k v x m with rfl | m
        · omega
        · exact h'.1.1 x m

/-- A wide write keeps the form. -/
theorem Mem.wf_mwrite (n : Nat) (m : Mem) (k v : Nat) (h : Mem.wf m = true) : Mem.wf (mwrite n m k v) = true := by
  induction n generalizing m k v with
  | zero => exact h
  | succ n ih => exact ih _ _ _ (Mem.wf_writeByte _ _ _ h)

/-- Writing a list of bytes keeps the form. -/
theorem Mem.wf_mput (m : Mem) (k : Nat) (l : List Byte) (h : Mem.wf m = true) : Mem.wf (mput m k l) = true := by
  induction l generalizing m k with
  | nil => exact h
  | cons b t ih => exact ih _ _ (Mem.wf_writeByte _ _ _ h)

/-- Dropping a span keeps the form. -/
theorem Mem.wf_mclear (m : Mem) (k n : Nat) (h : Mem.wf m = true) : Mem.wf (mclear m k n) = true :=
  Mem.wf_sublist List.filter_sublist h

/-! ### Wide reads -/

theorem mread_zero (m : Mem) (k : Nat) : mread m k 0 = 0 := by
  induction m with
  | nil => rfl
  | cons e t ih =>
    obtain ⟨a, b⟩ := e
    simp only [mread, ih]
    split
    · rfl
    · rw [if_neg (by omega)]

/-- A wide read is its lowest byte and the rest. -/
theorem mread_succ (m : Mem) (k n : Nat) : mread m k (n + 1) = (readByte m k).toNat + 256 * mread m (k + 1) n := by
  induction m with
  | nil => rfl
  | cons e t ih =>
    obtain ⟨a, b⟩ := e
    simp only [mread, readByte]
    by_cases h1 : a < k
    · simp only [if_pos h1, if_neg (show ¬ a = k by omega), if_neg (show ¬ k < a by omega),
        if_pos (show a < k + 1 by omega), ih]
    · by_cases h2 : a = k
      · subst a
        simp only [if_neg h1, if_pos (show k < k + (n + 1) by omega), if_pos (show k < k + 1 by omega), if_true,
          show k + (n + 1) - (k + 1) = n by omega]
        simp [Nat.mul_comm]
      · simp only [if_neg h1, if_neg h2, if_pos (show k < a by omega), if_neg (show ¬ a < k + 1 by omega)]
        by_cases h3 : a < k + (n + 1)
        · simp only [if_pos h3, if_pos (show a < k + 1 + n by omega),
            show k + (n + 1) - (a + 1) = k + 1 + n - (a + 1) by omega, show 8 * (a - k) = 8 * (a - (k + 1)) + 8 by omega,
            Nat.shiftLeft_eq, Nat.pow_add]
          simp
          ring
        · simp only [if_neg h3, if_neg (show ¬ a < k + 1 + n by omega)]; rfl

/-- Two memories that agree on a span read alike over it. -/
theorem mread_congr {m m' : Mem} {k n : Nat} (h : ∀ j, k ≤ j → j < k + n → readByte m j = readByte m' j) :
    mread m k n = mread m' k n := by
  induction n generalizing k with
  | zero => simp [mread_zero]
  | succ n ih =>
    rw [mread_succ, mread_succ, h k (by omega) (by omega), ih (fun j a b => h j (by omega) (by omega))]

/-- A read after a write of the same span. -/
@[simp] theorem mread_mwrite_same (n : Nat) (m : Mem) (k v : Nat) : mread (mwrite n m k v) k n = v % 256 ^ n := by
  induction n generalizing m k v with
  | zero => simp [mread_zero, Nat.mod_one]
  | succ n ih =>
    rw [mread_succ]
    simp only [mwrite, ih, readByte_mwrite]
    rw [if_neg (by omega), Nat.pow_succ, Nat.mul_comm (256 ^ n), Nat.mod_mul]
    simp

/-- A read of a span that a write does not reach. -/
theorem mread_mwrite_apart (n : Nat) (m : Mem) (k v a w : Nat) (h : a + w ≤ k ∨ k + n ≤ a) :
    mread (mwrite n m k v) a w = mread m a w :=
  mread_congr (fun j _ _ => by rw [readByte_mwrite, if_neg (by omega)])

end Sys2Proof.Machine
end

