-- ==== Sys2Proof/Laws/Shape.lean ====
section
/-! SUPPORT. What the shared operations can change: each is the state with the named fields replaced, and so leaves every
other field as it was. -/

namespace Sys2Proof.Machine

open Sys2Proof

theorem wr_shape (s : State) (a v : Nat) : ∃ r, wr s a v = { s with regs := r } := ⟨_, rfl⟩

theorem setBits_shape (s : State) (a m : Nat) : ∃ r, setBits s a m = { s with regs := r } := ⟨_, rfl⟩

theorem clrBits_shape (s : State) (a m : Nat) : ∃ r, clrBits s a m = { s with regs := r } := ⟨_, rfl⟩

theorem bump_shape (s : State) (a n : Nat) : ∃ r, bump s a n = { s with regs := r } := by
  unfold bump
  dsimp only
  split <;> exact ⟨_, rfl⟩

/-- An event is offered to the black box: its queues and losses, and the count of drops. -/
theorem logEv_shape (s : State) (o c p a b : Nat) (f : Bool) : ∃ x r, logEv s o c p a b f = { s with bbx := x, regs := r } := by
  have k : ∀ t : State, (∃ x, t = { s with bbx := x }) → ∃ x r, bump t (bbxReg 0x10) 1 = { s with bbx := x, regs := r } := by
    rintro t ⟨x, rfl⟩
    obtain ⟨r, e⟩ := bump_shape { s with bbx := x } (bbxReg 0x10) 1
    exact ⟨x, r, e⟩
  unfold logEv
  dsimp only
  split
  · exact k _ ⟨_, rfl⟩
  · split
    all_goals split
    all_goals first
      | exact k _ ⟨_, rfl⟩
      | exact ⟨_, _, rfl⟩

/-- An event that finds room on the always-on island is queued behind the others. -/
theorem logEv_queued {s : State} {c p a b : Nat} {f : Bool} (h : s.bbx.frozen = false) (k : s.bbx.q2.length < 16) :
    ∃ e : BbxEvent, e.code = c ∧ e.fatal = f ∧ e.origin = 2 ∧ e.part = p ∧ e.arg0 = a % 2 ^ 64 ∧ e.arg1 = b % 2 ^ 64 ∧
      logEv s 2 c p a b f = { s with bbx := { s.bbx with q2 := s.bbx.q2 ++ [e] } } := by
  refine ⟨⟨c, f, 2, p, s.colds % 256 * 2 ^ 56 + s.ticks % 2 ^ 56, a % 2 ^ 64, b % 2 ^ 64⟩, rfl, rfl, rfl, rfl, rfl, rfl, ?_⟩
  unfold logEv
  simp only [h, Bool.false_eq_true, if_false]
  rw [if_neg (by omega)]

theorem sample_shape (s : State) (n ev k : Nat) : ∃ r, sample s n ev k = { s with regs := r } := ⟨_, sample_frame s n ev k⟩

theorem sample_regs {s t : State} (n ev k : Nat) (h : ∃ r, t = { s with regs := r }) :
    ∃ r, sample t n ev k = { s with regs := r } := by
  obtain ⟨r, rfl⟩ := h
  obtain ⟨q, e⟩ := sample_shape { s with regs := r } n ev k
  exact ⟨q, e⟩

/-- Edges are counted in the generator, by the pods' counts and by the sampling counters. -/
theorem reachHc_shape (s : State) (n h : Nat) : ∃ g r, reachHc s n h = { s with gens := g, regs := r } := by
  unfold reachHc
  dsimp only
  split
  · refine (?_ : ∀ (z : Gen) (t : State), (∃ r, t = { s with regs := r }) →
      ∃ g r, setGen t n z = { s with gens := g, regs := r }) _ _ ?_
    · rintro z t ⟨r, rfl⟩
      exact ⟨_, r, rfl⟩
    · repeat apply sample_regs
      exact ⟨_, countAll_frame s _ _ _⟩
  · exact ⟨_, _, rfl⟩

theorem countOps_shape (s : State) (d p c t n : Nat) : ∃ x, countOps s d p c t n = { s with cntOps := x } := by
  unfold countOps
  split <;> exact ⟨_, rfl⟩

theorem pickOf_shape (s : State) (l : List Nat) : ∃ x v, pickOf s l = ({ s with freeCtr := x }, v) := by
  unfold pickOf
  split <;> exact ⟨_, _, rfl⟩

theorem touchAll_shape (s : State) (a k : Nat) : ∃ x y, touchAll s a k = { s with copies := x, upes := y } := by
  unfold touchAll touchUpes touchCopies
  split <;> split <;> exact ⟨_, _, rfl⟩

theorem violate_shape (s : State) (a : Nat) : ∃ x y, violate s a = { s with regs := x, violations := y } := by
  unfold violate
  split
  · obtain ⟨r, e⟩ := bump_shape s (wrdReg 0x30) 1
    exact ⟨r, s.violations, e⟩
  · exact ⟨_, _, rfl⟩

/-! ### Granules of the stacks -/

theorem noteGranule_shape (s : State) (l : Loc) : noteGranule s l = { s with chans := (noteGranule s l).chans } := by
  unfold noteGranule
  dsimp only
  split <;> rfl

/-- A granule is stored under its place, with its overlay; only marks of a migration or a write-back go beside it. -/
theorem putGranule_eq (s : State) (l : Loc) (data ovl : Nat) :
    putGranule s l data ovl = { s with
      chans := (noteGranule s l).chans
      mem := mwrite 64 s.mem (64 * l.pg) data
      memErr := if ovl = 0 then tdel s.memErr l.pg else tset s.memErr l.pg ovl } := by
  unfold putGranule
  rw [noteGranule_shape]

@[simp] theorem rd_putGranule (s : State) (l : Loc) (data ovl a : Nat) : rd (putGranule s l data ovl) a = rd s a := by
  unfold rd
  rw [putGranule_eq]

/-- The address map depends on the registers and the slabs in force alone. -/
theorem locate_congr {s t : State} (h : t.regs = s.regs) (k : t.slabs = s.slabs) (a : Nat) : locate t a = locate s a := by
  unfold locate rowInUse slabOf regionWord rd
  rw [h, k]

theorem regs_putGranule (s : State) (l : Loc) (data ovl : Nat) : (putGranule s l data ovl).regs = s.regs := by
  rw [putGranule_eq]

@[simp] theorem slabs_putGranule (s : State) (l : Loc) (data ovl : Nat) : (putGranule s l data ovl).slabs = s.slabs := by
  rw [putGranule_eq]

theorem granuleOvl_putGranule (s : State) (l : Loc) (data ovl pg : Nat) :
    granuleOvl (putGranule s l data ovl) pg = if pg = l.pg then ovl else granuleOvl s pg := by
  unfold granuleOvl
  have e : (putGranule s l data ovl).memErr = if ovl = 0 then tdel s.memErr l.pg else tset s.memErr l.pg ovl := by
    rw [putGranule_eq]
  rw [e]
  by_cases h0 : ovl = 0
  · rw [if_pos h0]
    by_cases h : pg = l.pg
    · rw [if_pos h, h, h0]; exact tget_tdel_same _ _ _
    · rw [if_neg h]; exact tget_tdel_ne _ _ _ _ h
  · rw [if_neg h0]
    by_cases h : pg = l.pg
    · rw [if_pos h, h]; exact tget_tset_same _ _ _ _
    · rw [if_neg h]; exact tget_tset_ne _ _ _ _ _ h

theorem readByte_putGranule (s : State) (l : Loc) (data ovl a : Nat) :
    readByte (putGranule s l data ovl).mem a =
      if 64 * l.pg ≤ a ∧ a < 64 * l.pg + 64 then BitVec.ofNat 8 (data / 256 ^ (a - 64 * l.pg)) else readByte s.mem a := by
  have e : (putGranule s l data ovl).mem = mwrite 64 s.mem (64 * l.pg) data := by rw [putGranule_eq]
  rw [e, readByte_mwrite]

/-- Little-endian bytes, one by one (R3). -/
theorem ofLE_byte (d : List Byte) (k : Nat) : BitVec.ofNat 8 (ofLE d / 256 ^ k) = d.getD k 0#8 := by
  induction d generalizing k with
  | nil => simp [ofLE]
  | cons b t ih =>
    cases k with
    | zero =>
      simp only [ofLE, Nat.pow_zero, Nat.div_one, List.getD_cons_zero]
      apply BitVec.eq_of_toNat_eq
      rw [BitVec.toNat_ofNat]
      have := b.isLt
      omega
    | succ k =>
      simp only [ofLE, List.getD_cons_succ]
      rw [← ih k, Nat.pow_succ, Nat.mul_comm (256 ^ k) 256, ← Nat.div_div_eq_div_mul]
      congr 2
      have := b.isLt
      omega

/-- A number read from memory and written back is its bytes again. -/
theorem mread_byte (m : Mem) (k n j : Nat) (h : j < n) : BitVec.ofNat 8 (mread m k n / 256 ^ j) = readByte m (k + j) := by
  induction n generalizing k j with
  | zero => omega
  | succ n ih =>
    rw [mread_succ]
    cases j with
    | zero =>
      rw [Nat.pow_zero, Nat.div_one, Nat.add_zero k]
      apply BitVec.eq_of_toNat_eq
      rw [BitVec.toNat_ofNat]
      have := (readByte m k).isLt
      omega
    | succ j =>
      rw [Nat.pow_succ, Nat.mul_comm (256 ^ j) 256, ← Nat.div_div_eq_div_mul,
        show ((readByte m k).toNat + 256 * mread m (k + 1) n) / 256 = mread m (k + 1) n by
          have := (readByte m k).isLt
          omega, ih (k + 1) j (by omega), Nat.add_assoc, Nat.add_comm 1 j]

end Sys2Proof.Machine
end

