-- ==== Sys2Proof/Laws/Regs.lean ====
section
/-! SUPPORT. Registers that a shared operation leaves alone: pod registers under counted edges and saturating counts; pods,
generators and partitions under counts and events. -/
namespace Sys2Proof.Machine
open Sys2Proof

theorem podReg_lt (g o : Nat) (hg : g < 256) (ho : o < 0x10000) : podReg g o < dieBase 0 := by
  unfold podReg podBase dieBase; omega

theorem podReg_inj {g q o o' : Nat} (ho : o < 0x10000) (ho' : o' < 0x10000) (h : podReg g o = podReg q o') :
    g = q ∧ o = o' := by
  unfold podReg podBase at h; omega

theorem podReg_off {g o o' : Nat} (h : podReg g o = podReg g o') : o = o' := by
  unfold podReg at h; omega

/-- No pod register records a saturation. -/
theorem podReg_ne_satReg {g o g' o' : Nat} (hg : g < 256) (ho : o < 0x10000) : podReg g o ≠ satReg (podReg g' o') := by
  have h := podReg_lt g o hg ho
  have h2 : dieBase 0 ≤ satReg (podReg g' o') := by
    unfold satReg
    split
    · decide
    · split
      · decide
      · split
        · decide
        · split <;> decide
  omega

theorem rd_foldNat (s : State) (a n : Nat) (f : Nat → State → State) (h : ∀ k x, rd (f k x) a = rd x a) :
    rd (foldNat n f s) a = rd s a :=
  foldNat_inv (fun x : State => rd x a = rd s a) f (fun k x e => (h k x).trans e) n s rfl

theorem rd_sample (s : State) (n ev k a : Nat) (h : a < dieBase 0) : rd (sample s n ev k) a = rd s a := by
  unfold sample
  split
  · rfl
  · refine rd_foldNat _ _ _ _ ?_
    intro i x
    dsimp only
    split
    · unfold sampleAdd
      dsimp only
      rw [rd_wr_ne]
      intro c
      rw [c] at h
      unfold cntReg at h
      have : dieBase 0 ≤ dieBase (n / 16) := by
        unfold dieBase; omega
      omega
    · rfl

/-- The pod registers that count edges (R133, R169). -/
def edgeCounts : List Nat := [0x410, 0x618, 0x620, 0x628, 0x630]

theorem rd_countEdges {s : State} {lo hi g a : Nat} (ha : a < dieBase 0) (hb : ∀ q, ∀ o ∈ edgeCounts, a ≠ podReg q o) :
    rd (countEdges s lo hi g) a = rd s a := by
  have hs : ∀ o, a ≠ satReg (podReg g o) := by
    intro o e
    have : dieBase 0 ≤ satReg (podReg g o) := by
      unfold satReg
      split
      · decide
      · split
        · decide
        · split
          · decide
          · split <;> decide
    omega
  unfold countEdges
  dsimp only
  simp only [List.foldl_cons, List.foldl_nil]
  repeat' first
    | rfl
    | (rw [rd_bump_ne _ _ _ _ (hb g _ (by decide)) (hs _)])
    | split

/-- Counting edges touches no register below the dies' blocks but the pods' counts of edges. -/
theorem rd_reachHc (s : State) (n h a : Nat) (ha : a < dieBase 0) (hb : ∀ q, ∀ o ∈ edgeCounts, a ≠ podReg q o) :
    rd (reachHc s n h) a = rd s a := by
  have hf : ∀ (l : List Nat) (lo hi : Nat) (s : State), rd (l.foldl (fun s g => countEdges s lo hi g) s) a = rd s a := by
    intro l lo hi
    induction l with
    | nil => intro s; rfl
    | cons g l ih => intro s; exact (ih _).trans (rd_countEdges ha hb)
  unfold reachHc
  dsimp only
  split
  · show rd (sample _ _ _ _) a = _
    simp only [rd_sample _ _ _ _ _ ha, hf]
  · rfl

@[simp] theorem pod_bump (s : State) (a n g : Nat) : pod (bump s a n) g = pod s g := by
  obtain ⟨r, e⟩ := bump_shape s a n; rw [e]; rfl
@[simp] theorem gen_bump (s : State) (a n g : Nat) : gen (bump s a n) g = gen s g := by
  obtain ⟨r, e⟩ := bump_shape s a n; rw [e]; rfl
@[simp] theorem part_bump (s : State) (a n g : Nat) : part (bump s a n) g = part s g := by
  obtain ⟨r, e⟩ := bump_shape s a n; rw [e]; rfl
@[simp] theorem running_bump (s : State) (a n k : Nat) : running (bump s a n) k = running s k := by
  unfold running; rw [gen_bump]
@[simp] theorem pod_countOps (s : State) (d p c t n g : Nat) : pod (countOps s d p c t n) g = pod s g := by
  obtain ⟨x, e⟩ := countOps_shape s d p c t n; rw [e]; rfl
@[simp] theorem gen_countOps (s : State) (d p c t n g : Nat) : gen (countOps s d p c t n) g = gen s g := by
  obtain ⟨x, e⟩ := countOps_shape s d p c t n; rw [e]; rfl
@[simp] theorem part_countOps (s : State) (d p c t n g : Nat) : part (countOps s d p c t n) g = part s g := by
  obtain ⟨x, e⟩ := countOps_shape s d p c t n; rw [e]; rfl
@[simp] theorem rd_countOps (s : State) (d p c t n a : Nat) : rd (countOps s d p c t n) a = rd s a := by
  obtain ⟨x, e⟩ := countOps_shape s d p c t n; rw [e]; rfl

theorem bump_bump_shape (s : State) (a n b m : Nat) : ∃ r, bump (bump s a n) b m = { s with regs := r } := by
  obtain ⟨r, e⟩ := bump_shape s a n
  obtain ⟨r', e'⟩ := bump_shape (bump s a n) b m
  rw [e', e]; exact ⟨_, rfl⟩

theorem countFlags_shape (s : State) (d p : Nat) (fs : List Nat) : ∃ x, countFlags s d p fs = { s with cntOps := x } := by
  unfold countFlags
  refine foldNat_inv (fun t : State => ∃ x, t = { s with cntOps := x }) _ ?_ 7 s ⟨s.cntOps, rfl⟩
  intro k x h
  obtain ⟨y, h⟩ := h
  obtain ⟨z, e⟩ := countOps_shape x d p 11 k ((fs.filter (fun f => bit f k)).length)
  exact ⟨z, by rw [e, h]⟩

theorem reachHc_frame (s : State) (n h : Nat) : (reachHc s n h).mem = s.mem ∧ (reachHc s n h).ctrs = s.ctrs ∧
    (reachHc s n h).chans = s.chans ∧ (reachHc s n h).out = s.out ∧ (reachHc s n h).pending = s.pending := by
  obtain ⟨g, r, e⟩ := reachHc_shape s n h; rw [e]; exact ⟨rfl, rfl, rfl, rfl, rfl⟩

end Sys2Proof.Machine
end

