-- ==== Sys2Proof/Machine/Irq.lean ====
section
/-! DEFINITION. Interrupt lines (18_cores_management.md R443, R444) and output pins (21_electrical_package.md R509), each derived from the event register and the enable
register that its rule names: R62, R238, R271, R294, R319, R346, R375, R414, R436, R461. No line is state of its own: a
line is asserted exactly while its condition holds. -/
namespace Sys2Proof.Machine
open Sys2Proof

/-- An event register AND its enable register is non-zero. -/
def raised (s : State) (ev en : Nat) : Bool := (rd s ev &&& rd s en) != 0

/-- Plate interrupt of partition `p` (R62). -/
def plateIrq (s : State) (p : Nat) : Bool := raised s (pltReg p 0x24) (pltReg p 0x58)

/-- Interrupt of copy channel `n` of die `d` (R238). -/
def channelIrq (s : State) (d n : Nat) : Bool := raised s (chReg d n 0x14) (chReg d n 0x2C)

/-- Thermal interrupt of die `d`, to its control cores: any stack of the die (R271). -/
def thermalIrq (s : State) (d : Nat) : Bool :=
  (List.range 8).any (fun k => raised s (mchReg (8 * d + k) 8) (mchReg (8 * d + k) 0xC))

/-- Integrity interrupt of stack `st`, to its die's control cores and error aggregation block (R294). -/
def integrityIrq (s : State) (st : Nat) : Bool := raised s (mchReg st 0x2000) (mchReg st 0x2004)

/-- Interrupt of the update engine of stack `st` (R319). -/
def engineIrq (s : State) (st : Nat) : Bool := raised s (upeReg st 4) (upeReg st 8)

/-- Sync interrupt of die `d` (R346). -/
def syncIrq (s : State) (d : Nat) : Bool := raised s (synReg d 8) (synReg d 0xC)

/-- Link interrupt of die `d` (R375). -/
def linkIrq (s : State) (d : Nat) : Bool := raised s (rylReg d 0x10) (rylReg d 0x14)

/-- Power interrupt of die `d`, to its control cores and the application cores (R414). -/
def powerIrq (s : State) (d : Nat) : Bool := raised s (pwsReg d 0x10) (pwsReg d 0x14)

/-- Reset interrupt of die `d` (R436). -/
def resetIrq (s : State) (d : Nat) : Bool := raised s (rstReg d 8) (rstReg d 0xC)

/-- The engines of die `d`, as one source (R443). -/
def enginesIrq (s : State) (d : Nat) : Bool := (List.range 8).any (fun k => engineIrq s (8 * d + k))

/-- The error aggregation block of die `d` passes on the interrupts that the rules send to it (R294, R319, R346, R375,
R436). DEDUCED: the spec gives the block no register and no condition of its own. -/
def aggregateIrq (s : State) (d : Nat) : Bool :=
  (List.range 8).any (fun k => integrityIrq s (8 * d + k)) || enginesIrq s d || syncIrq s d || linkIrq s d || resetIrq s d

/-- The condition of wired source `k` of the APLIC (R443). The lines of the PCIe devices and of the root port's own
events (91–95) are open. -/
def sourceRaised (s : State) (k : Nat) : Bool :=
  let die := fun (base : Nat) (f : State → Nat → Bool) => f s (k - base)
  if 1 ≤ k ∧ k ≤ 8 then plateIrq s (k - 1)
  else if k = 9 ∨ k = 10 then die 9 syncIrq
  else if k = 11 ∨ k = 12 then die 11 resetIrq
  else if k = 13 ∨ k = 14 then die 13 linkIrq
  else if k = 15 ∨ k = 16 then die 15 enginesIrq
  else if k = 17 ∨ k = 18 then die 17 powerIrq
  else if 19 ≤ k ∧ k ≤ 50 then channelIrq s 0 (k - 19)
  else if 51 ≤ k ∧ k ≤ 82 then channelIrq s 1 (k - 51)
  else if k = 83 ∨ k = 84 then die 83 aggregateIrq
  else if 85 ≤ k ∧ k ≤ 88 then s.edgePend.contains k
  else if k = 89 then raised s (apcReg 8) (apcReg 0xC)
  else if k = 90 then raised s (wrdReg 0x18) (wrdReg 0x1C)
  else if 91 ≤ k ∧ k ≤ 95 then Config.pcieLine k s.rootCfg
  else false

/-- The die on which a source has its origin (R443); none for the complex, the always-on island and the root port. -/
def sourceDie (k : Nat) : Option Nat :=
  if k = 9 ∨ k = 11 ∨ k = 13 ∨ k = 15 ∨ k = 17 ∨ k = 83 ∨ (19 ≤ k ∧ k ≤ 50) then some 0
  else if k = 10 ∨ k = 12 ∨ k = 14 ∨ k = 16 ∨ k = 18 ∨ (51 ≤ k ∧ k ≤ 82) ∨ (84 ≤ k ∧ k ≤ 88) then some 1
  else none

/-- What the APLIC sees on source `k`: deasserted where its origin lies on a die that is off or held in reset (R444). -/
def sourceLine (s : State) (k : Nat) : Bool :=
  (match sourceDie k with | some d => !s.dieDown.contains d | none => true) && sourceRaised s k

/-- SMBALERT# is asserted while WRD_EVENT AND WRD_EVENT_EN is non-zero (R457). -/
def smbAlert (s : State) : Bool := raised s (wrdReg 0x18) (wrdReg 0x1C)

/-! ### Output pins of J4 (R509) -/

/-- STBY_PG: the standby rails are within tolerance. -/
def stbyPin (s : State) : Bool := s.sup.standby

/-- MAIN_PG: every domain whose WRD_DIE_POWER bit is set reads state 2, and none is being powered. -/
def mainPin (s : State) : Bool :=
  s.sup.standby && [0, 1, 2].all (fun k => (domOf s k).st != 1 && (!bit (rd s (wrdReg 0x2C)) k || (domOf s k).st == 2))

/-- THERM_TRIP# is low while a trip is latched (R412). -/
def thermPin (s : State) : Bool := !tripLatched s

/-- PERST# is low until the application cores have been released. -/
def perstPin (s : State) : Bool := s.sup.perst

end Sys2Proof.Machine
end

