-- ==== Sys2Proof/WellFormed.lean ====
section
/-! DEFINITION. What a command's operands must be for it to be a command that the module can be given. The types bound
every number that names a part; what is left are the lengths that a type does not bound. `exec` answers every command,
well formed or not: a width or a length that the spec answers with a bus error or a discard is well formed. -/
namespace Sys2Proof

/-- An access is of 1, 2, 4 or 8 bytes, and the value written fits it. -/
def widthOk (w : Nat) : Bool := w == 1 || w == 2 || w == 4 || w == 8

/-- A packet's payload is its UNITS of 64 bytes, and no codeword counts twice (14_links.md R350). -/
def Packet.wf (p : Packet) : Bool := p.payload.length == 64 * p.units.toNat && decide (p.units.toNat ≤ 64)

/-- An energy sample has a figure for each hatch generator, partition and copy channel of the die (16_power_thermal.md
R413). -/
def EnergySample.wf (e : EnergySample) : Bool :=
  e.hatches.length == 16 && e.upes.length == 8 && e.granules.length == 32 && e.units.length == 32

/-- An inbound access is of at most 4 KiB, and a write's length is that of its bytes. -/
def Dma.wf (x : Dma) : Bool :=
  decide (x.len ≤ 4096) && (match x.data with | some b => b.length == x.len | none => true)

/-- An Ethernet frame with its FCS: at least 18 bytes (14_links.md R369). -/
def frameWf (f : List (BitVec 8)) : Bool := decide (18 ≤ f.length)

/-- The operands of a command are such as the module can be given. -/
def WellFormed (c : Instr) : Bool :=
  match c with
  | .registerWrite _ _ w v => widthOk w && decide (v.toNat < 2 ^ (8 * w))
  | .coreMemoryWrite _ a b => decide (0 < b.length) && decide (a.toNat % 64 + b.length ≤ 64)
  | .scratchpadServiceAccess _ _ w v =>
    widthOk w && (match v with | some v => decide (v.toNat < 2 ^ (8 * w)) | none => true)
  | .bootStage5 _ good => good.failedSlots.all (fun k => decide (k < 136))
  | .span _ p | .sync _ p | .late _ p | .freeze _ p | .spanAck _ p | .spanRefused _ p | .syncBroken _ p
  | .unreachable _ p | .idle _ p => p.wf
  | .ethernetFrameReceived _ f | .jenostRequest _ f => frameWf f
  | .dieTemperatureSample _ r => r.length == 17
  | .energyAccumulate _ e => e.wf
  | .pcieInboundDma x => x.wf
  | .standbyPowerGood .. | .bootStage2 .. | .serviceAccessComplete .. | .bridgeUncorrectableError ..
  | .load .. | .loadCopyComplete .. | .loadVerifyComplete .. | .activate ..
  | .activateDistributionComplete .. | .hatchStartEdge .. | .retire .. | .retireComplete .. | .discard ..
  | .abort .. | .badCommand .. | .permitWrite .. | .nop .. | .loop .. | .phase .. | .endStep .. | .delay ..
  | .permitWait .. | .waitRelease .. | .hatchSleep .. | .send .. | .sendFlitDelivery ..
  | .quarterBoundaryEstimate .. | .mxaConfig .. | .mxaLoad .. | .mxaPlaneUsable .. | .mxaStream ..
  | .mxaRowResult .. | .add .. | .sub .. | .mul .. | .fma .. | .min .. | .max .. | .mov .. | .movi ..
  | .iota .. | .cmp .. | .sel .. | .mand .. | .mor .. | .mxor .. | .mnot .. | .mtot .. | .ttom .. | .cvt ..
  | .qnt .. | .dqn .. | .iadd .. | .isub .. | .iand .. | .ior .. | .ixor .. | .shl .. | .shr .. | .sra ..
  | .perm .. | .rot .. | .setrnd .. | .stip .. | .stippleEnd .. | .vectorRowWrite .. | .exp2 .. | .log2 ..
  | .pip .. | .ptload .. | .pipTableReady .. | .ptswap .. | .stat .. | .scmb .. | .sfin .. | .sclr ..
  | .smax .. | .snrm .. | .scan .. | .ascn .. | .ldt .. | .stt .. | .transferRowAccess .. | .memRead ..
  | .memWrite .. | .granuleLanded .. | .landingWrite .. | .copyEnqueue .. | .signal .. | .rebase ..
  | .wait .. | .counterChangeApply .. | .synSignal .. | .lateSend .. | .lateMarkExpired ..
  | .lateCapExhausted .. | .deadlockDetected .. | .synDlRecordRead .. | .portTrain .. | .portDown ..
  | .portDownDrainTimeout .. | .portSignalDetected .. | .portTrainingComplete .. | .portSignalLost ..
  | .laneFailure .. | .egressTurn .. | .idleTimer .. | .ackTimeout .. | .rylModuleIdWrite ..
  | .rylSpareSteer .. | .routingTableWrite .. | .continuePart .. | .abandon .. | .jenostReassemblyTimeout ..
  | .queryStepRelease .. | .queryResult .. | .alloc .. | .free .. | .cpyRangeBadCommand ..
  | .rangeCommandComplete .. | .describeTensor .. | .describeCopy .. | .destroy .. | .cpyDescBadCommand ..
  | .descCommandComplete .. | .cpyChOwnerWrite .. | .cpyChEnq .. | .cpyChAbort .. | .cpyChDisable ..
  | .cpyChResume .. | .copyDone .. | .copyDeadlineExpired .. | .copyDrainTimeout .. | .cpyChRingTailWrite ..
  | .channelSlotService .. | .migrationCommit .. | .frameBoundary .. | .regionEntryCommit ..
  | .stackTemperatureSample .. | .stackThermalTrip .. | .scrubReadDue .. | .scrubWriteback ..
  | .bucketLeak .. | .mchPinFailRead .. | .mchFlipCtrlWrite .. | .podFlipCtrlWrite ..
  | .upeGradWaitRelease .. | .upeGatherComplete .. | .upeArriveWaitRelease .. | .upeCommitWaitRelease ..
  | .upeApplyComplete .. | .upeRefusalRead .. | .stewardGrant .. | .grantApplied .. | .oppChangeComplete ..
  | .generatorFallback .. | .telemetrySample .. | .telemetryLost .. | .pwsCapHostWrite ..
  | .pwsCapMgmtWrite .. | .dieThermalTrip .. | .tripSensorPoll .. | .wrdTripClear .. | .droopDetected ..
  | .droopFloorExpired .. | .droopRearm .. | .rstCmdPod .. | .rstCmdHatch .. | .rstCmdPartition ..
  | .rstCmdDie .. | .partitionReset .. | .crashCaptureCut .. | .hangDetected .. | .retireDrainTimeout ..
  | .resetDeadlineMissed .. | .rstCrashAck .. | .dieReset .. | .warmModuleReset .. | .coldModuleReset ..
  | .wrdResetCmdWarm .. | .wrdResetCmdCold .. | .wrdHeartbeat .. | .fwSilent .. | .wrdTokenCas ..
  | .ownershipConflict .. | .mgmtRead32 .. | .mgmtRead64 .. | .mgmtWrite32 .. | .mgmtWrite64 .. | .bbxRead ..
  | .mgmtStatus .. | .smbStatus .. | .smbTemps .. | .smbPower .. | .aoRead .. | .aoWrite .. | .smbCap ..
  | .wrdDiePower .. | .railPowerGood .. | .domainPowerUpComplete .. | .railPowerGoodTimeout ..
  | .domainPowerDownComplete .. | .perstRelease .. | .apcRingTailWrite .. | .ethernetTransmitComplete ..
  | .secRollbackCmd .. | .fuseAdvanceComplete .. | .quote .. | .quoteComplete ..
  | .secMeasureExtend .. | .commit .. | .flashErase .. | .flashProgram .. | .flashRead ..
  | .flashOperationComplete .. | .cntFold .. | .cntSampleCfgWrite .. | .bbxStore ..
  | .bbxPostWindowExpired .. | .bbxFreeze .. | .bbxUnfreeze .. | .modResetAsserted .. | .refclkLost ..
  | .inputVoltageFault .. | .standbyPowerLost .. | .modResetReleased .. | .spareLaneRetrainComplete ..
  | .dieResetComplete .. | .lateEpisodeEnd .. | .ethernetPortRetrained .. => true

end Sys2Proof
end

