-- ==== Sys2Proof/Tests/Slice0.lean ====
section
/-! SUPPORT. Checks of the model on small states: values worked out by hand from the rules, a command that `WellFormed`
refuses for each of its checks, words of the opcode table, and for each statement with hypotheses a state and operands that
meet them (a `witness_` theorem, whose parts are the statement's hypotheses in order). -/
namespace Sys2Proof.Tests
open Sys2Proof Sys2Proof.Machine
set_option Elab.async false

/-! ### Small states -/

/-- The module on, every die up. -/
def up : State := { State.reset with
  dieDown := []
  sup := { State.reset.sup with standby := true, mod := { st := 2 }, die0 := { st := 2 }, die1 := { st := 2 } } }

/-- A stroke of `unit`, operation `op`, one hc after the last, with ARGS. -/
def strk (unit op args : Nat) : BitVec 128 := BitVec.ofNat 128 (1 + unit * 2 ^ 16 + op * 2 ^ 20 + args * 2 ^ 32)

/-- Hatch 0 of one pod, pod 0, runs for a RUNNING plate of partition 0, its burin at the first of these strokes. -/
def ran (prog : List (BitVec 128)) (p : Pod := {}) : State := { up with
  pods := [(0, { p with hatch := some 0, burin := { prog := prog ++ [strk 0 0 0], version := 2 } })]
  gens := [(0, { st := .running, size := 1 })]
  parts := [(0, { octets := [0], share := 1, active := 2, phases := 2 })] }

/-- The plate with one such stroke. -/
def ran1 (unit op args : Nat) (p : Pod := {}) : State := ran [strk unit op args] p
/-- That stroke as a number. -/
def wd (unit op args : Nat) : Nat := (strk unit op args).toNat

/-- Region `r` is mapped with MODE 3, in slab 0 of stack `st`. -/
def withRegion (s : State) (r st : Nat) : State := wr s (regionAddr r 0) (3 + 8 * st)

theorem ready_of {s : State} {g n t w unit op res : Nat} (h : (pod s g).hatch = some n ∧
    ((pod s g).burin.prog[(pod s g).burin.idx]?).map BitVec.toNat = some w ∧ launchHc (pod s g).burin w = t ∧
    (pod s g).burin.waiting = false ∧ running s n = true ∧ running (advance s n t) n = true ∧
    tget 0 (pod (atLaunch s n t) g).burin.errs ((pod s g).burin.idx / 2) = 0 ∧
    issueFault (pod (atLaunch s n t) g).burin t unit = false ∧ strokeUnit w = unit ∧ strokeOp w = op ∧ bits w 28 4 = 0 ∧
    w &&& res = 0) : Ready s g n t w unit op res := by
  obtain ⟨a, b, c, d, e, f, g, h, i, j, k, l⟩ := h
  exact ⟨a, b, c, d, e, f, g, h, i, j, k, l⟩

theorem goesOn_of {s : State} {g n t unit u : Nat} (h : (moveOn (pod (launched s g n t unit) g).burin t u).2 = false ∧
    (moveOn (pod (launched s g n t unit) g).burin t u).1.idx < (pod (launched s g n t unit) g).burin.prog.length) :
    GoesOn s g n t unit u := ⟨h.1, h.2⟩

/-- What `Ready` and `GoesOn` say of a launch, as one fact to compute. -/
abbrev CanGo (s : State) (g n t w unit op res : Nat) : Prop := ((pod s g).hatch = some n ∧
    ((pod s g).burin.prog[(pod s g).burin.idx]?).map BitVec.toNat = some w ∧ launchHc (pod s g).burin w = t ∧
    (pod s g).burin.waiting = false ∧ running s n = true ∧ running (advance s n t) n = true ∧
    tget 0 (pod (atLaunch s n t) g).burin.errs ((pod s g).burin.idx / 2) = 0 ∧
    issueFault (pod (atLaunch s n t) g).burin t unit = false ∧ strokeUnit w = unit ∧ strokeOp w = op ∧ bits w 28 4 = 0 ∧
    w &&& res = 0) ∧ (moveOn (pod (launched s g n t unit) g).burin t t).2 = false ∧
    (moveOn (pod (launched s g n t unit) g).burin t t).1.idx < (pod (launched s g n t unit) g).burin.prog.length

theorem launches_of {s : State} {g n t w unit op res : Nat} (h : CanGo s g n t w unit op res) :
    Ready s g n t w unit op res ∧ GoesOn s g n t unit t := ⟨ready_of h.1, goesOn_of h.2⟩

/-- A hatch of two pods, 0 and 1, each at such a stroke. -/
def ranTwo (unit op args : Nat) (x : Gen := {}) (p : Pod := {}) : State := { ran1 unit op args p with
  pods := [(0, { p with hatch := some 0, burin := { prog := [strk unit op args, strk 0 0 0], version := 2 } }),
           (1, { p with hatch := some 0, burin := { prog := [strk unit op args, strk 0 0 0], version := 2 } })]
  gens := [(0, { x with st := .running, size := 2 })] }

/-- A tensor of 64 writable FP8 elements at address 0, in table index 0. -/
def bytes64 : Nat := 3 * 2 ^ 48 + 2 ^ 56 + 64 * 2 ^ 128 + 2 ^ 160 + 2 ^ 192 + 2 ^ 224 + 2 ^ 256 + 2 ^ 288

/-- Pod 0 at a WAIT for consumer entry 0 and K = 3. -/
def waits : State := { ran1 9 1 (3 * 2 ^ 32) with
  parts := [(0, { octets := [0], share := 1, active := 2, consMap := [(0, 0)] })]
  cons := [(0, ⟨0, 0, 0, 0⟩)]
  ctrs := [(0, { st := 1 })] }

theorem crcByte_lt (c b : Nat) (hc : c < 2 ^ 32) (hb : b < 2 ^ 32) : crcByte c b < 2 ^ 32 := by
  have bit1 : ∀ x, x < 2 ^ 32 → crcBit x < 2 ^ 32 := fun x h => by
    have h' : x >>> 1 < 2 ^ 32 := Nat.lt_of_le_of_lt (Nat.shiftRight_le _ _) h
    unfold crcBit
    split
    · exact Nat.xor_lt_two_pow h' (by decide)
    · exact h'
  have go : ∀ n x, x < 2 ^ 32 → foldNat n (fun _ c => crcBit c) x < 2 ^ 32 := fun n => by
    induction n with
    | zero => exact fun x h => h
    | succ n ih => exact fun x h => bit1 _ (ih x h)
  exact go 8 _ (Nat.xor_lt_two_pow hc hb)

theorem crc32_lt (bs : List Byte) : crc32 bs < 2 ^ 32 := by
  have go : ∀ (l : List Byte) (c : Nat), c < 2 ^ 32 → l.foldl (fun c b => crcByte c b.toNat) c < 2 ^ 32 := fun l => by
    induction l with
    | nil => exact fun c h => h
    | cons b l ih => exact fun c h => ih _ (crcByte_lt c b.toNat h (Nat.lt_trans b.isLt (by decide)))
  exact Nat.xor_lt_two_pow (go bs _ (by decide)) (by decide)

theorem split₂ {α β : Type} (x : α × β) : ∃ t b, x = (t, b) := ⟨x.1, x.2, rfl⟩
theorem split₃ {α β γ : Type} (x : α × β × γ) : ∃ t b c, x = (t, b, c) := ⟨x.1, x.2.1, x.2.2, rfl⟩

theorem witness_StepTakesFront : ({ up with pending := [.frameBoundary 0] } : State).pending = .frameBoundary 0 :: [] := rfl
theorem witness_EmptyQueueTicks : up.pending = [] ∧ State.reset.sup.standby = false := ⟨rfl, rfl⟩
theorem witness_QueueIsFifo : step { up with pending := [.droopRearm 0, .frameBoundary 0] } = .next { up with pending := [.frameBoundary 0] } := rfl
theorem witness_RollbackNeverDecreases : ∃ t, step { up with pending := [.droopRearm 0] } = .next t := ⟨_, rfl⟩
theorem witness_WrongAccessIsABusError : regWidth (podReg 255 0x204) = 32 ∧ regWidth (chReg 1 31 0x18) = 64 ∧
    isPcie (podReg 255 0x204) = false ∧ isDevice (podReg 255 0x204) = false ∧ regWidth (podReg 255 0x204) ≠ 64 ∧
    isPcie (apcReg 0x40000) = false ∧ ((2 : Nat) ≠ 4 ∧ (2 : Nat) ≠ 8) := by decide +kernel

/-- The module on, with a hatch of pods 248 to 255 running for partition 7. -/
def top : State := { up with
  pods := [(248, { hatch := some 31 }), (255, { hatch := some 31 })]
  gens := [(31, { st := .running, size := 8, part := 7, hc := 100 })]
  parts := [(7, { octets := [31], share := 8, active := 2, phases := 1 })] }

theorem witness_RegisterWritesFollowTheirCodes : (0xFFFFFFFF#64).toNat < 2 ^ 32 ∧
    (∀ o ∈ [0x204, 0x408, 0x200], canReach top .app (podReg 255 o) = true ∧ canReach (toSlot top 255) .app (podReg 255 o) = true) ∧
    canReach up .mgmt (chReg 1 31 0x18) = true := by decide +kernel
theorem witness_LockedWriteIsDiscarded : regAccess (mchReg 15 0x10) 4 = some (mchReg 15 0x10, .whole) ∧ isRwl (mchReg 15 0x10) = true ∧
    (canReach { up with modLock := true } (.control 1) (mchReg 15 0x10) = true ∧ mayWrite (.control 1) (mchReg 15 0x10) = true) ∧
    ({ up with modLock := true } : State).modLock = true := by decide +kernel

theorem witness_CoreMemoryWriteStoresTheGranule : (List.replicate 64 (7#8)).length = 64 ∧ (0x7FFFFFFFC0#48).toNat % 64 = 0 ∧
    (0x7FFFFFFFC0#48).toNat + 64 ≤ 2 ^ 39 ∧
    (locateFrom (withRegion up 511 15) (entryDie (.control 1)) (0x7FFFFFFFC0#48).toNat).isSome = true ∧
    noFlip (withRegion up 511 15) ⟨15, 255, 0, 0, 0⟩ := by unfold noFlip; decide +kernel
theorem witness_UnmappedMemoryWriteIsABusError : ([1#8] : List Byte) ≠ [] ∧
    (if isPcie (2 ^ 39) = true ∨ (doorbell (2 ^ 39) 1).isSome = true then modReach up .app = false
     else 2 ^ 39 < 2 ^ 39 + 1 ∨ locateFrom up (entryDie .app) (2 ^ 39 / 64 * 64) = none) ∧
    isPcie 0x020000000000 = true ∧ modReach State.reset .app = false := by decide +kernel

/-- Last bytes of pod 255's scratchpad. -/
def lastSpad : Nat := spadBase + 256 * 0x200000 - 8

theorem witness_ServiceAccessesAreServed : (podSpanOk lastSpad 8 = true ∧ podReach top .app (podOf lastSpad) = true ∧
    (pod top (podOf lastSpad)).hatch = some 31 ∧ running top 31 = true ∧ (pod top (podOf lastSpad)).svc = [] ∧
    (part top (gen top 31).part).share ∈ [1, 2, 4, 8]) ∧
    (isSpad lastSpad = true ∧ podSpanOk lastSpad 8 = true ∧ podReach up .mgmt (podOf lastSpad) = true ∧
      (pod up (podOf lastSpad)).hatch = none ∧ quietSpad (pod up (podOf lastSpad))) ∧
    (let x : SvcAcc := ⟨0, lastSpad, 8, 0, false, 104, []⟩
     let s := setPod top 255 { hatch := some 31, svc := [x] }
     (pod s 255).svc = x :: [] ∧ x.write = false ∧ isSpad x.addr = true ∧ podOf x.addr = 255 ∧
      running (modPod s 255 (fun p => { p with svc := [] })) (podGen s 255) = true ∧
      quietSpad (pod (bringTo (modPod s 255 (fun p => { p with svc := [] })) 31 104) 255)) := by
  unfold quietSpad; decide +kernel
theorem witness_BridgeErrorPoisonsAndResets : up.sup.standby = true ∧ (locate (withRegion up 0 0) 0).isSome = true ∧
    (withRegion up 0 0).bbx.frozen = false ∧ (withRegion up 0 0).bbx.q2.length < 16 := by decide +kernel
theorem witness_FlipControlsArm : canReach up (.control 1) (mchReg 15 0x2018) = true ∧ canReach up .mgmt (podReg 255 0xA1C) = true := by
  decide +kernel

theorem witness_ControlStrokesMoveTheBurin :
    (Ready (ran1 0 0 0) 0 0 1 (wd 0 0 0) 0 0 (resv 32 127) ∧ GoesOn (ran1 0 0 0) 0 0 1 0 1) ∧
    (Ready (ran1 0 4 0xFFFFFFFF) 0 0 1 (wd 0 4 0xFFFFFFFF) 0 4 (resv 64 127) ∧
      (pod (launched (ran1 0 4 0xFFFFFFFF) 0 0 1 0) 0).burin.version ≠ 1 ∧
      GoesOn (ran1 0 4 0xFFFFFFFF) 0 0 1 0 (1 + bits (wd 0 4 0xFFFFFFFF) 32 32)) ∧
    (Ready (ran1 0 3 0) 0 0 1 (wd 0 3 0) 0 3 (resv 32 127) ∧ (pod (launched (ran1 0 3 0) 0 0 1 0) 0).burin.loops = []) ∧
    (let a := 1 + 2 ^ 32
     Ready (ran1 0 1 a) 0 0 1 (wd 0 1 a) 0 1 (resv 48 63) ∧ 0 < bits (wd 0 1 a) 32 16 ∧ 0 < bits (wd 0 1 a) 64 32 ∧
      (pod (ran1 0 1 a) 0).burin.idx + 1 + bits (wd 0 1 a) 32 16 ≤ (pod (launched (ran1 0 1 a) 0 0 1 0) 0).burin.prog.length ∧
      (pod (launched (ran1 0 1 a) 0 0 1 0) 0).burin.loops.length <
        (if (pod (launched (ran1 0 1 a) 0 0 1 0) 0).burin.version = 1 then 2 else 4)) :=
  ⟨⟨ready_of (by decide +kernel), goesOn_of (by decide +kernel)⟩,
   ⟨ready_of (by decide +kernel), by decide +kernel, goesOn_of (by decide +kernel)⟩,
   ⟨ready_of (by decide +kernel), by decide +kernel⟩, ⟨ready_of (by decide +kernel), by decide +kernel⟩⟩

/-- A loop of one stroke, with `left` iterations to begin, whose period is 5. -/
def oneLoop (left : Nat) : Burin := { loops := [⟨0, 1, left, 5, 0, true, 0⟩] }

theorem witness_LoopsRepeatTheirBody : ({} : Burin).loops = [] ∧ ({ oneLoop 1 with idx := 2 } : Burin).idx + 1 ≠ 0 + 1 ∧
    ((oneLoop 1).idx + 1 = 0 + 1 ∧ 4 < 0 + 5 ∧ 0 < 1) ∧ ((oneLoop 0).idx + 1 = 0 + 1 ∧ 4 < 0 + 5) ∧
    ((oneLoop 1).idx + 1 = 0 + 1 ∧ 0 + 5 ≤ 5) := by decide +kernel
theorem witness_PhaseSelects :
    (Ready (ran1 0 2 1) 0 0 1 (wd 0 2 1) 0 2 (resv 36 127) ∧ GoesOn (ran1 0 2 1) 0 0 1 0 1 ∧ 0 = hatchLow 0 ∧
      bits (wd 0 2 1) 32 4 < (part (launched (ran1 0 2 1) 0 0 1 0) (gen (launched (ran1 0 2 1) 0 0 1 0) 0).part).phases) ∧
    (Ready (ranTwo 0 2 1) 1 0 1 (wd 0 2 1) 0 2 (resv 36 127) ∧ GoesOn (ranTwo 0 2 1) 1 0 1 0 1 ∧ 1 ≠ hatchLow 0) :=
  ⟨⟨ready_of (by decide +kernel), goesOn_of (by decide +kernel), by decide +kernel⟩,
   ⟨ready_of (by decide +kernel), goesOn_of (by decide +kernel), by decide +kernel⟩⟩
theorem witness_BadStrokeStopsTheHatch : (pod (ran1 15 0 0) 0).hatch = some 0 ∧
    (pod (ran1 15 0 0) 0).burin.prog[(pod (ran1 15 0 0) 0).burin.idx]? = some (strk 15 0 0) ∧
    launchHc (pod (ran1 15 0 0) 0).burin (strk 15 0 0).toNat = 1 ∧ (pod (ran1 15 0 0) 0).burin.waiting = false ∧
    running (ran1 15 0 0) 0 = true ∧ running (advance (ran1 15 0 0) 0 1) 0 = true ∧
    tget 0 (pod (atLaunch (ran1 15 0 0) 0 1) 0).burin.errs ((pod (ran1 15 0 0) 0).burin.idx / 2) = 0 ∧
    issueFault (pod (atLaunch (ran1 15 0 0) 0 1) 0).burin 1 0 = false ∧
    strokeDefined (strokeUnit (strk 15 0 0).toNat) (strokeOp (strk 15 0 0).toNat) = false := by decide +kernel

theorem witness_WaitsAreHatchWide :
    (Ready (ran1 10 1 0) 0 0 1 (wd 10 1 0) 10 1 (resv 32 127) ∧ ¬ endsAt (launched (ran1 10 1 0) 0 0 1 10) 0 1 ∧
      (gen (launched (ran1 10 1 0) 0 0 1 10) 0).waitKind = 0) ∧
    (let s := ranTwo 10 1 0 { waitKind := 1, waitAt := 1, waitPods := 1 }
     Ready s 1 0 1 (wd 10 1 0) 10 1 (resv 32 127) ∧ ¬ endsAt (launched s 1 0 1 10) 1 1 ∧
      (gen (launched s 1 0 1 10) 0).waitKind = 1 ∧ (gen (launched s 1 0 1 10) 0).waitAt = 1 ∧
      (gen (launched s 1 0 1 10) 0).waitArg = 0) ∧
    (Ready waits 0 0 1 (wd 9 1 (3 * 2 ^ 32)) 9 1 0 ∧ bits (wd 9 1 (3 * 2 ^ 32)) 47 17 = 0 ∧ bits (wd 9 1 (3 * 2 ^ 32)) 96 32 = 0 ∧
      waitEntry (launched waits 0 0 1 9) 0 (wd 9 1 (3 * 2 ^ 32)) = some 0 ∧ ¬ endsAt (launched waits 0 0 1 9) 0 1 ∧
      (gen (launched waits 0 0 1 9) 0).waitKind = 0 ∧ rebaseDue (launched waits 0 0 1 9) 0 = false ∧
      (tget ⟨0, 0, 0, 0⟩ (launched waits 0 0 1 9).cons 0).count + bits (wd 9 1 (3 * 2 ^ 32)) 64 32 < 2 ^ 48) := by
  unfold endsAt
  exact ⟨⟨ready_of (by decide +kernel), by decide +kernel⟩, ⟨ready_of (by decide +kernel), by decide +kernel⟩,
    ⟨ready_of (by decide +kernel), by decide +kernel⟩⟩
theorem witness_WaitStrokesComplete :
    (Ready (ran1 10 1 0) 0 0 1 (wd 10 1 0) 10 1 (resv 32 127) ∧ ¬ endsAt (launched (ran1 10 1 0) 0 0 1 10) 0 1 ∧
      (gen (launched (ran1 10 1 0) 0 0 1 10) 0).waitKind = 0) ∧
    (Ready waits 0 0 1 (wd 9 1 (3 * 2 ^ 32)) 9 1 0 ∧ waitEntry (launched waits 0 0 1 9) 0 (wd 9 1 (3 * 2 ^ 32)) = some 0) :=
  ⟨witness_WaitsAreHatchWide.1, witness_WaitsAreHatchWide.2.2.1, witness_WaitsAreHatchWide.2.2.2.2.2.1⟩

/-- Pod 0 stands at its permit wait, and a permit is outstanding. -/
def permitted : State := { ran1 10 1 0 with
  pods := [(0, { hatch := some 0, burin := { prog := [strk 10 1 0, strk 0 0 0], version := 2, curHc := 1, waiting := true } })]
  gens := [(0, { st := .running, size := 1, hc := 1, waitKind := 1, waitAt := 1, waitPods := 1, sleepDelay := 0x1000 })]
  parts := [(0, { octets := [0], share := 1, active := 2, permits := 1 })] }

theorem witness_PermitReleasesTheHatch : waitReady permitted 0 2 = true ∧ (gen permitted 0).waitKind = 1 ∧
    (part permitted (gen permitted 0).part).released ≤ (gen permitted 0).permitWaits ∧
    0 < (part permitted (gen permitted 0).part).permits ∧ (part permitted (gen permitted 0).part).active = 2 ∧
    fenced permitted (gen permitted 0).part = false ∧ (∀ g ∈ hatchPods permitted 0, (pod permitted g).burin.waiting = true ∧
      (moveOn { (pod permitted g).burin with waiting := false, loops := (pod permitted g).burin.loops.map (fun f => { f with base := 2 + 4, based := true }) } (pod permitted g).burin.curHc (2 + 4)).2 = false ∧
      (moveOn { (pod permitted g).burin with waiting := false, loops := (pod permitted g).burin.loops.map (fun f => { f with base := 2 + 4, based := true }) } (pod permitted g).burin.curHc (2 + 4)).1.idx <
        (pod permitted g).burin.prog.length) := by decide +kernel
/-- The same, with an unfinished SEND, and with a sleep delay of 0. -/
def unquiet : State := modPod permitted 0 (fun p => { p with sends := [⟨1, 1, 0, 0, 1, 40, 0, 0, 0, []⟩] })
def sleepless : State := modGen permitted 0 (fun x => { x with sleepDelay := 0 })

theorem witness_HatchSleeps : (∀ s ∈ [permitted, unquiet, sleepless], running s 0 = true ∧ (gen s 0).waitKind ≠ 0 ∧
      (gen s 0).waitPods = (gen s 0).size) ∧
    (∀ g ∈ hatchPods permitted 0, podIdle (pod permitted g) = true) ∧
    (∀ s ∈ [permitted, unquiet], (gen s 0).sleepDelay ≠ 0 ∧ running (arriveTiles s 0 (sleepHc s 0)) 0 = true) ∧
    (∀ g ∈ hatchPods (arriveTiles permitted 0 (sleepHc permitted 0)) 0,
      podIdle (pod (arriveTiles permitted 0 (sleepHc permitted 0)) g) = true) ∧
    (∃ g ∈ hatchPods (arriveTiles unquiet 0 (sleepHc unquiet 0)) 0,
      podIdle (pod (arriveTiles unquiet 0 (sleepHc unquiet 0)) g) = false) ∧
    (gen sleepless 0).sleepDelay = 0 := by decide +kernel

/-- A SEND of one flit from pod 0 to pod 1, to the last words of its scratchpad. -/
def sendArgs : Nat := 1 + 65534 * 2 ^ 16 + 65534 * 2 ^ 32

/-- Its flit falls due. -/
def sending : State := ranTwo 5 1 sendArgs {} { sends := [⟨1, 1, 65534, 65534, 1, 40, 0, 1, 0, [(0, 5)]⟩] }

theorem witness_SendDeliversFlits :
    (Ready (ranTwo 5 1 sendArgs) 0 0 1 (wd 5 1 sendArgs) 5 1 (resv 39 47 + resv 88 127) ∧ GoesOn (ranTwo 5 1 sendArgs) 0 0 1 5 1 ∧
      1 ∈ hatchPods (launched (ranTwo 5 1 sendArgs) 0 0 1 5) 0 ∧ bits (wd 5 1 sendArgs) 48 16 + 2 * (bits (wd 5 1 sendArgs) 80 8 + 1) ≤ 65536 ∧
      bits (wd 5 1 sendArgs) 64 16 + 2 * (bits (wd 5 1 sendArgs) 80 8 + 1) ≤ 65536) ∧
    (running (arrive sending 0 37) 0 = true ∧ (pod sending 0).sends.map (·.dst) = [1] ∧
      (portAccess (pod (arrive sending 0 37) 1) 37 [] [(65534, 0), (65535, 0)]).2 = []) :=
  ⟨⟨ready_of (by decide +kernel), goesOn_of (by decide +kernel), by decide +kernel⟩, by decide +kernel⟩

theorem witness_MatrixPlanesLoad :
    (Ready (ran1 1 1 0) 0 0 1 (wd 1 1 0) 1 1 (resv 42 47 + resv 96 127) ∧ GoesOn (ran1 1 1 0) 0 0 1 1 1 ∧
      bits (wd 1 1 0) 32 4 < 13 ∧ bits (wd 1 1 0) 36 4 < 13) ∧
    (let s := ran1 1 2 (127 * 2 ^ 16) { mxa := { cfg := { aType := 1, bType := 1 } } }
     let w := wd 1 2 (127 * 2 ^ 16)
     Ready s 0 0 1 w 1 2 (resv 55 127) ∧ GoesOn s 0 0 1 1 1 ∧
      loadFaults (pod (launched s 0 0 1 1) 0).mxa 1 (bits w 48 7 + 1) (bits w 32 16) = [] ∧
      pairE (pod (launched s 0 0 1 1) 0).mxa.cfg.aType (pod (launched s 0 0 1 1) 0).mxa.cfg.bType = some 1) ∧
    (let s := ran [] { mxa := { p1 := { st := 1, rows := 1, usable := 3 } } }
     1 < 2 ∧ (pod s 0).hatch = some 0 ∧ running s 0 = true ∧ (plane (pod s 0).mxa 1).st = 1 ∧
      (plane (pod s 0).mxa (1 - 1)).st ≠ 1 ∧ (plane (pod s 0).mxa 1).usable = 3 ∧ running (arrive s 0 3) 0 = true) :=
  ⟨⟨ready_of (by decide +kernel), goesOn_of (by decide +kernel), by decide +kernel⟩,
   ⟨ready_of (by decide +kernel), goesOn_of (by decide +kernel), by decide +kernel⟩, by decide +kernel⟩

/-- The array with a READY plane. -/
def readyMxa : Mxa := { cfg := { aType := 1, bType := 1, aStride := 1 }, active := 1, p0 := { st := 2, typ := 1, rows := 128, e := 1 } }
/-- A row of the array, launched in hc 1, that falls due. -/
def dueRow : MxaRow := ⟨1, 0, 5, 0, 128, 1, 1, 0, true⟩

theorem witness_MatrixStreamsDeliver :
    (let s := ran1 1 3 (1 * 2 ^ 70) { mxa := readyMxa }
     let w := wd 1 3 (1 * 2 ^ 70)
     Ready s 0 0 1 w 1 3 (resv 103 127) ∧ GoesOn s 0 0 1 1 1 ∧ streamFaults (pod (launched s 0 0 1 1) 0).mxa 1 w = []) ∧
    (let x : Mxa := { busyTo := some 4 }
     (x.busyTo = some 4 ∧ 5 ≤ 4 + 1) ∧ ({} : Mxa).busyTo = none ∧ (x.busyTo = some 4 ∧ 4 + 1 < 6)) ∧
    (let s := ran [] { mxa := { rows := [dueRow] } }
     (pod s 0).hatch = some 0 ∧ (pod s 0).mxa.rows = dueRow :: [] ∧ 167 = dueRow.launch + 166 ∧
      running (arrive s 0 167) 0 = true ∧ (pod (arrive s 0 167) 0).mxa.rows = dueRow :: []) :=
  ⟨⟨ready_of (by decide +kernel), goesOn_of (by decide +kernel), by decide +kernel⟩, by decide +kernel, by decide +kernel⟩

/-- ARGS with which a row operation meets every one of its checks: MODE 3 for the integers, a mask other than M0, types that
convert, a SUBOP that the combination of statistics takes; 0 elsewhere. -/
def rowArgs (op : Nat) : Nat :=
  if op = 9 ∨ 0x20 ≤ op ∧ op ≤ 0x27 then 3 * 2 ^ 54
  else if op = 0x10 ∨ 0x12 ≤ op ∧ op ≤ 0x15 ∨ op = 0x17 then 1
  else if op = 0x18 then 2 ^ 68
  else if op = 0x19 then 31 * 2 ^ 30 + 3 * 2 ^ 68
  else if op = 0x1A then 31 * 2 ^ 30 + 3 * 2 ^ 64
  else if op = 0x61 then 2 ^ 64
  else 0

/-- A pod whose pipe 0 has a READY table: channel 0 has SCALE 1 and one segment. -/
def tabled : Pod := { pipe0 := { pt0 := { st := 2, img := 0x3F800000 * 2 ^ 32 + 2 ^ 80 } } }

/-- A stipple of one repetition in slot 15. -/
def theStip : Stip := ⟨15, 15, 0, 0, 1, 0, 1, 0, 0, 0, 0⟩
/-- Pipe 0 of pod 0 runs that stipple, which stands at this instruction. -/
def stippled (op args : Nat) (z : Stip := theStip) : State :=
  ran [] { tabled with
    pipe0 := { tabled.pipe0 with stip := some z }
    slots := [(15, [strk 0 op args, strk 0 0x3F 0])] }

theorem witness_RowOperationsStartTheirRows :
    (∀ x ∈ rowCommands, (Ready (ran1 2 x.2 (rowArgs x.2) tabled) 0 0 1 (wd 2 x.2 (rowArgs x.2)) 2 x.2 0 ∧
      GoesOn (ran1 2 x.2 (rowArgs x.2) tabled) 0 0 1 2 1) ∧
      (let q := pipe (pod (launched (ran1 2 x.2 (rowArgs x.2) tabled) 0 0 1 2) 0) 0
       rowsClear q 1 (vdec (wd 2 x.2 (rowArgs x.2))) ∧ q.stip = none ∧ q.owned ≤ 1)) ∧
    ((255 < 256 ∧ 1 < 2) ∧ (vdec (wd 2 0x44 0)).op = 0x44 ∧ (vdec (wd 2 1 0)).op ≠ 0x44 ∧
      rd up (podReg 255 0x620) + 7 < 2 ^ 64) := by
  have h : ∀ x ∈ rowCommands, CanGo (ran1 2 x.2 (rowArgs x.2) tabled) 0 0 1 (wd 2 x.2 (rowArgs x.2)) 2 x.2 0 ∧
      (let q := pipe (pod (launched (ran1 2 x.2 (rowArgs x.2) tabled) 0 0 1 2) 0) 0
       rowsClear q 1 (vdec (wd 2 x.2 (rowArgs x.2))) ∧ q.stip = none ∧ q.owned ≤ 1) := by
    unfold rowsClear; decide +kernel
  exact ⟨fun x hx => ⟨launches_of (h x hx).1, (h x hx).2⟩, by decide +kernel⟩

theorem witness_StipplesLaunchRelocatedRows :
    ((Ready (ran1 2 0x38 15 { slots := [(15, [strk 0 0x3F 0])] }) 0 0 1 (wd 2 0x38 15) 2 0x38 (resv 80 127) ∧
      GoesOn (ran1 2 0x38 15 { slots := [(15, [strk 0 0x3F 0])] }) 0 0 1 2 1) ∧
     (let P := pod (launched (ran1 2 0x38 15 { slots := [(15, [strk 0 0x3F 0])] }) 0 0 1 2) 0
      (pipe P 0).stip = none ∧ (pipe P 0).owned ≤ 1 ∧ (pipe P 0).portFree ≤ 1 ∧ tget [] P.slots (bits (wd 2 0x38 15) 32 4) ≠ [])) ∧
    (∀ x ∈ rowCommands, StipReady (stippled x.2 (rowArgs x.2)) 0 0 1 0 (wd 0 x.2 (rowArgs x.2)) theStip ∧
      strokeOp (wd 0 x.2 (rowArgs x.2)) = x.2 ∧ vBadStroke (vdec (wd 0 x.2 (rowArgs x.2))) = false ∧
      rowsClear (pipe (pod (reachHc (advance (stippled x.2 (rowArgs x.2)) 0 1) 0 1) 0) 0) 1
        (vdec (relocate (wd 0 x.2 (rowArgs x.2)) (theStip.tbase + theStip.rep * theStip.tstep))) ∧ theStip.instr < 31) := by
  unfold StipReady rowsClear
  exact ⟨⟨launches_of (by decide +kernel), by decide +kernel⟩, by decide +kernel⟩

theorem witness_StippleEndRepeats :
    (StipReady (stippled 0x3F (2 ^ 4 + 15)) 0 0 1 0 (wd 0 0x3F (2 ^ 4 + 15)) theStip ∧
      burinEnd (pod (stippled 0x3F (2 ^ 4 + 15)) 0) 0 theStip = false ∧ strokeOp (wd 0 0x3F (2 ^ 4 + 15)) = 0x3F ∧
      wd 0 0x3F (2 ^ 4 + 15) / 2 ^ 37 = 0 ∧ bit (wd 0 0x3F (2 ^ 4 + 15)) 36 = true ∧ theStip.links < 3 ∧
      tget [] (pod (reachHc (advance (stippled 0x3F (2 ^ 4 + 15)) 0 1) 0 1) 0).slots (bits (wd 0 0x3F (2 ^ 4 + 15)) 32 4) ≠ []) ∧
    (let z := { theStip with count := 2 }
     StipReady (stippled 0x3F 0 z) 0 0 1 0 (wd 0 0x3F 0) z ∧ burinEnd (pod (stippled 0x3F 0 z) 0) 0 z = false ∧
      bit (wd 0 0x3F 0) 36 = false ∧ z.rep + 1 < z.count) ∧
    (StipReady (stippled 0x3F 0) 0 0 1 0 (wd 0 0x3F 0) theStip ∧ burinEnd (pod (stippled 0x3F 0) 0) 0 theStip = false ∧
      bit (wd 0 0x3F 0) 36 = false ∧ theStip.count ≤ theStip.rep + 1) := by
  unfold StipReady; decide +kernel

theorem witness_PipeContextAndTables :
    ((Ready (ran1 2 0x30 0xFFFF) 0 0 1 (wd 2 0x30 0xFFFF) 2 0x30 (resv 122 127) ∧ GoesOn (ran1 2 0x30 0xFFFF) 0 0 1 2 1) ∧
      (let q := pipe (pod (launched (ran1 2 0x30 0xFFFF) 0 0 1 2) 0) 0
       q.stip = none ∧ q.owned ≤ 1)) ∧
    ((Ready (ran1 2 0x48 65404) 0 0 1 (wd 2 0x48 65404) 2 0x48 (resv 48 127) ∧ GoesOn (ran1 2 0x48 65404) 0 0 1 2 1) ∧
      (let q := pipe (pod (launched (ran1 2 0x48 65404) 0 0 1 2) 0) 0
       32 * bits (wd 2 0x48 65404) 32 16 + 4224 ≤ 0x200000 ∧ q.act < 2 ∧ (pip q (1 - q.act)).st ≠ 1 ∧ (pip q (1 - q.act)).held ≤ 1)) ∧
    (let p : Pod := { pipe0 := { pt1 := { st := 1, ready := 1 } } }
     (Ready (ran1 2 0x49 0 p) 0 0 1 (wd 2 0x49 0) 2 0x49 (resv 32 127) ∧ GoesOn (ran1 2 0x49 0 p) 0 0 1 2 1) ∧
      (let q := pipe (pod (launched (ran1 2 0x49 0 p) 0 0 1 2) 0) 0
       (pip q (1 - q.act)).st = 1 ∧ (pip q (1 - q.act)).ready ≤ 1)) ∧
    (let s := ran [] { pipe0 := { pt1 := { st := 1, ready := 9 } } }
     1 < 2 ∧ (pod s 0).hatch = some 0 ∧ (pip (pipe (pod s 0) 0) 1).st = 1 ∧ (pip (pipe (pod s 0) 0) (1 - 1)).st ≠ 1 ∧
      (pip (pipe (pod s 0) 0) 1).ready = 9 ∧ running (arrive s 0 9) 0 = true) ∧
    (∀ op ∈ [0x30, 0x48, 0x49], StipReady (stippled op 0) 0 0 1 0 (wd 0 op 0) theStip ∧ strokeOp (wd 0 op 0) = op) := by
  unfold StipReady
  exact ⟨⟨launches_of (by decide +kernel), by decide +kernel⟩, ⟨launches_of (by decide +kernel), by decide +kernel⟩,
    ⟨launches_of (by decide +kernel), by decide +kernel⟩, by decide +kernel⟩

/-- A row of an IADD in pipe 0 that has read its sources and falls due in hc 5. -/
def dueVec : VRow := {
  pipe := 0, ins := vdec (wd 2 0x20 (rowArgs 0x20)), row := 0, readHc := 1, writeHc := 5
  site := ⟨0, 0, false, 0, 0⟩, stream := 0, ebase := 0, pitch := 0, table := 0
  out := some { writes := [⟨0, 2 ^ 32 - 1, 7⟩], flags := 0 } }
/-- Its pod's state. -/
def vecDue : State := ran [] { pipe0 := { rows := [dueVec] } }

theorem witness_RowsAreWrittenWhenDue : (pod vecDue 0).hatch = some 0 ∧
    ((pipe (pod vecDue 0) 0).rows.map (·.writeHc)).min? = some 5 ∧ running (advance vecDue 0 5) 0 = true ∧
    (∀ k ∈ hatchPods (advance vecDue 0 5) 0, trapRow (advance vecDue 0 5) k 0 5 = none ∧ trapRow (advance vecDue 0 5) k 1 5 = none) ∧
    (let q := (settleTiles 0 (settleSpad (pod (advance vecDue 0 5) 0) 5) 5).1
     (settleTiles 0 (settleSpad (pod (advance vecDue 0 5) 0) 5) 5).2 = [] ∧
      (pipe q 0).rows.find? (fun r => r.writeHc == 5) = some dueVec ∧ dueVec.out = some { writes := [⟨0, 2 ^ 32 - 1, 7⟩], flags := 0 } ∧
      ∀ a ∈ q.tileAcc, a.hc ≠ 5) := by decide +kernel

theorem witness_IntegerRowsWrap : ∀ op ∈ [0x20, 0x27], (let i := vdec (wd 2 op (rowArgs op))
    0x20 ≤ i.op ∧ i.op ≤ 0x27 ∧ i.mode = 3 ∧ i.narrow = false ∧ i.half = 0 ∧ i.bmode = 0 ∧ 0 < i.lanes ∧
      maskBit ⟨fun _ => 0, fun _ => 0, 0, fun _ => 0, 0⟩ i.mask 0 = true ∧ maskBit ⟨fun _ => 0, fun _ => 0, 0, fun _ => 0, 0⟩ 1 0 = false) := by
  decide +kernel

/-- Hatch 0 runs with that tensor, in stack 0, whose first slot is the hatch's. -/
def onStack (op args : Nat) : State := withRegion { ran1 6 op args with
  parts := [(0, { octets := [0], share := 1, active := 2, descs := [(0, .tensor bytes64)] })]
  stks := [(0, { frame := [(0, 1)], frames := 1 })] } 0 0

theorem witness_TransfersMoveTileRows :
    ((Ready (ran1 4 2 (7 * 2 ^ 9 + 7 * 2 ^ 45)) 0 0 1 (wd 4 2 (7 * 2 ^ 9 + 7 * 2 ^ 45)) 4 2 (resv 86 127) ∧
      GoesOn (ran1 4 2 (7 * 2 ^ 9 + 7 * 2 ^ 45)) 0 0 1 4 1) ∧ xferBad (wd 4 2 (7 * 2 ^ 9 + 7 * 2 ^ 45)) true = false ∧
      bits (wd 4 2 (7 * 2 ^ 9 + 7 * 2 ^ 45)) 77 9 < 256) ∧
    ((Ready (ran1 4 1 (255 * 2 ^ 45 + 65504 * 2 ^ 12)) 0 0 1 (wd 4 1 (255 * 2 ^ 45 + 65504 * 2 ^ 12)) 4 1 (resv 86 127) ∧
      GoesOn (ran1 4 1 (255 * 2 ^ 45 + 65504 * 2 ^ 12)) 0 0 1 4 1) ∧ xferBad (wd 4 1 (255 * 2 ^ 45 + 65504 * 2 ^ 12)) false = false) ∧
    (∀ b ∈ [true, false],
      let x : Xfer := ⟨b, 63, 7, 1, 65504, 0, false, 256, 5, 0, 0, 0, 0⟩
      let s := ran [] { xfers := [x] }
      let A := arrive s 0 5
      let p := (settleTiles 0 (settleSpad (pod A 0) 5) 5).1
      let words := (List.range 32).map (fun k => (x.waddr + k, x.idx))
      (pod s 0).hatch = some 0 ∧ (pod s 0).xfers = [x] ∧ x.nextHc = 5 ∧ running A 0 = true ∧
        (settleTiles 0 (settleSpad (pod A 0) 5) 5).2 = [] ∧ p.xfers = [x] ∧ p.errs = [] ∧ x.wide = false ∧ x.part = 0 ∧
        x.lanes % 8 = 0 ∧ (portAccess p 5 (if b then [] else words) (if b then words else [])).2 = []) :=
  ⟨⟨launches_of (by decide +kernel), by decide +kernel⟩, ⟨launches_of (by decide +kernel), by decide +kernel⟩, by decide +kernel⟩

theorem witness_MemoryStrokesReachTheStacks :
    ((Ready (onStack 1 (2 ^ 80 + 255 * 2 ^ 56)) 0 0 1 (wd 6 1 (2 ^ 80 + 255 * 2 ^ 56)) 6 1 0 ∧
      GoesOn (onStack 1 (2 ^ 80 + 255 * 2 ^ 56)) 0 0 1 6 1) ∧
     (let w := wd 6 1 (2 ^ 80 + 255 * 2 ^ 56)
      let L := launched (onStack 1 (2 ^ 80 + 255 * 2 ^ 56)) 0 0 1 6
      0 < bits w 112 16 ∧ (∀ x ∈ (pod L 0).landing, x.entry ≠ bits w 88 8) ∧ (1, bits w 88 8) ∉ (pod L 0).landDone ∧
      memCheck L 0 0 w (1 + bits w 112 16) false = .inr 0 ∧ (locate L 0).isSome = true)) ∧
    ((Ready (onStack 2 (65534 * 2 ^ 64)) 0 0 1 (wd 6 2 (65534 * 2 ^ 64)) 6 2 (resv 88 95 + resv 112 127) ∧
      GoesOn (onStack 2 (65534 * 2 ^ 64)) 0 0 1 6 1) ∧
     (let w := wd 6 2 (65534 * 2 ^ 64)
      let L := launched (onStack 2 (65534 * 2 ^ 64)) 0 0 1 6
      memCheck L 0 0 w 1 true = .inr 0 ∧ (locate L 0).isSome = true ∧ (settleSpad (pod L 0) 1).errs = [] ∧
      (settleSpad (pod L 0) 1).ceLog = [] ∧
      (portAccess (settleSpad (pod L 0) 1) 1 [(bits w 96 16, 0), (bits w 96 16 + 1, 0)] []).2 = [])) :=
  ⟨⟨launches_of (by decide +kernel), by decide +kernel⟩, launches_of (by decide +kernel), by decide +kernel⟩

/-- A granule for entry 255 that was served first. -/
def servedL : Landing := { due := 5, entry := 255, word := 65534, idx := 0, desc := 0, granule := 0, st := 0, served := some 0, data := 9 }

theorem witness_GranulesLand :
    (let s := ran [] { landing := [servedL] }
     (pod s 0).hatch = some 0 ∧ (((pod s 0).landing.filter (fun l => !l.landed)).filterMap (·.served)).min? = some 0) ∧
    (let s := ran [] { landing := [{ servedL with landed := true }] }
     let A := arrive s 0 5
     let R := reachHc A 0 5
     (pod s 0).hatch = some 0 ∧ ((pod s 0).landing.map (·.due)).min? = some 5 ∧ running A 0 = true ∧
      (pod A 0).landing.find? (fun l => l.due == 5) = some { servedL with landed := true } ∧ servedL.bad = false ∧
      plateHc (part R (gen R 0).part).share (pod R 0) 5 = true ∧
      (portAccess (pod R 0) 5 [] [(65534, 0), (65535, 0)]).2 = []) := by decide +kernel

/-- A fill of the tensor in table index 0 with 7, in one iteration, and the same copy as REMOTE. -/
def fill7 : Nat := 2 * 2 ^ 32 + (8 + 2 * 64 + 3 * 512 + 4 * 4096) * 2 ^ 48 + noRef * (2 ^ 64 + 2 ^ 128 + 2 ^ 160) + 2 ^ 288 +
  7 * 2 ^ 416
def remote7 : Nat := fill7 + 2 ^ 43

/-- Hatch 0 runs with that tensor and copy, channel 31 of die 0 is of `kind` and of partition 0, and holds `x`. -/
def copying (kind : Nat) (x : CopyChan) (args : Nat := 0) : State := wr { withRegion (ran1 7 1 args) 0 0 with
  parts := [(0, { octets := [0], share := 1, active := 2, descs := [(0, .tensor bytes64), (1, .copy fill7)],
                  runDescs := [(5, .copy fill7)] })]
  copies := [(31, x)] } (chReg 0 31 4) kind

/-- The fill in progress. -/
def filling : CopyChan := { st := 1, run := some { img := fill7, iter := 0 } }

theorem witness_CopiesAreQueued :
    ((copyChan (copying 2 filling) 0 31).run = some { img := fill7, iter := 0 } ∧ (copyChan (copying 2 filling) 0 31).st = 1) ∧
    ((copyChan (copying 2 {}) 0 31).run = none ∧ (copyChan (copying 2 {}) 0 31).st = 0 ∧ (copyChan (copying 2 {}) 0 31).queue = [] ∧
      (copyChan (copying 2 {}) 0 31).held = [] ∧ copyAt (copying 2 {}) (chPart (copying 2 {}) 0 31) 1 = some fill7 ∧
      cdRemote fill7 = false) ∧
    ((Ready (copying 1 filling (31 + 2 ^ 5)) 0 0 1 (wd 7 1 (31 + 2 ^ 5)) 7 1 (resv 53 63 + resv 96 127) ∧
      GoesOn (copying 1 filling (31 + 2 ^ 5)) 0 0 1 7 1) ∧
      (let L := launched (copying 1 filling (31 + 2 ^ 5)) 0 0 1 7
       chKind L 0 31 = 1 ∧ chPart L 0 31 = (gen L 0).part ∧ (copyChan L 0 31).st = 1 ∧ (copyChan L 0 31).run ≠ none ∧
        copyAt L (gen L 0).part (bits (wd 7 1 (31 + 2 ^ 5)) 37 16) = some fill7 ∧ bits (wd 7 1 (31 + 2 ^ 5)) 64 32 < cdIters fill7 ∧
        chDepth (copyChan L 0 31) < 64)) ∧
    (canWrite (copying 2 {}) .app (chReg 0 31 8) ∧ chKind (copying 2 {}) 0 31 = 2 ∧ (copyChan (copying 2 {}) 0 31).st ≠ 2 ∧
      copyAt (copying 2 {}) (chPart (copying 2 {}) 0 31) (bits 65541 0 32) = some fill7 ∧ bits 65541 32 32 < cdIters fill7 ∧
      chDepth (copyChan (copying 2 {}) 0 31) < 64) ∧
    (64 ≤ chDepth (copyChan (copying 2 { filling with queue := List.replicate 63 ⟨1, 0⟩ }) 0 31)) ∧
    (canWrite (copying 0 {}) .app (chReg 0 31 4) ∧ (copyChan (copying 0 {}) 0 31).st = 0 ∧ chKind (copying 0 {}) 0 31 = 0 ∧
      bits 2 0 2 = 2 ∧ chKind (copying 2 {}) 0 31 = 2 ∧ bits 28 0 2 = 0) := by
  unfold canWrite
  exact ⟨by decide +kernel, by decide +kernel, ⟨launches_of (by decide +kernel), by decide +kernel⟩, by decide +kernel⟩

theorem witness_LastCopyDone :
    (let s := copying 1 { st := 1, run := some { img := remote7, iter := 0, total := 1, acked := 1 } }
     (copyChan s 0 31).run = some { img := remote7, iter := 0, total := 1, acked := 1 } ∧ cdRecord remote7 = false ∧
      cdRemote remote7 = true ∧ (copyChan s 0 31).st = 1 ∧ (copyChan s 0 31).queue = [] ∧ (copyChan s 0 31).held = []) ∧
    (let s := copying 1 filling
     let f := freshSpads s
     let e := moveCopy f (chPart s 0 31) (copyItems f (jobOf s (chPart s 0 31) fill7 0)) [] (chSlots f 0 31)
     (copyChan s 0 31).run = some { img := fill7, iter := 0 } ∧ cdRecord fill7 = false ∧ cdRemote fill7 = false ∧ e.bad = none ∧
      (copyChan e.s 0 31).st = 1 ∧ (copyChan e.s 0 31).queue = [] ∧ (copyChan e.s 0 31).held = []) := by decide +kernel

theorem witness_ChannelCommands :
    (canWrite (copying 2 filling) .app (chReg 0 31 0x10) ∧ (copyChan (copying 2 filling) 0 31).st = 1 ∧
      (copyChan (copying 2 filling) 0 31).run = some { img := fill7, iter := 0 } ∧ cdRecord fill7 = false ∧
      copyChan (poisonDest (cmdResult (copying 2 filling) 0 31 0) (jobOf (cmdResult (copying 2 filling) 0 31 0)
        (chPart (copying 2 filling) 0 31) fill7 0)) 0 31 = { filling with result := 0, queue := [], held := [] }) ∧
    ((copyChan (copying 2 {}) 0 31).run = none ∧ chKind (copying 2 {}) 0 31 = 2 ∧ (copyChan (copying 2 {}) 0 31).st = 0) ∧
    ((copyChan (copying 2 { st := 3 }) 0 31).st = 3 ∧ (copyChan (copying 2 { st := 3 }) 0 31).queue = []) ∧
    (let y : CopyRun := { img := fill7 + 2 ^ 224, iter := 0 }
     let s := copying 2 { st := 1, run := some y }
     (copyChan s 0 31).run = some y ∧ cdDeadline y.img ≠ 0 ∧ cdAbortLate y.img = false ∧ bit y.flags 0 = false ∧ y.done = none ∧
      (copyStacks s (chPart s 0 31) y.img y.iter).any (keepOnly s) = false) ∧
    ((copyChan (copying 2 { st := 2 }) 0 31).st = 2 ∧ (copyChan (copying 2 { st := 2 }) 0 31).run = none) ∧
    (canWrite (copying 2 {}) .app (chReg 0 31 0x24) ∧ (copyChan (copying 2 {}) 0 31).held = []) := by
  unfold canWrite; decide +kernel

/-- Die 0 completes this range command, with region 0 mapped for partition 0 and range 4,095 live, and it names 0. -/
def ranging (c : CpyCmd) (x : Range := {}) : State := wr { withRegion up 0 0 with
  rangeCmds := [(0, c)], ranges := [(4095, x)] } (regionAddr 0 1) 1

theorem witness_RangesComeAndGo :
    (canWrite up .app (cpyReg 1 0x18) ∧ tfind (ranging ⟨2, 0, 0, false⟩).rangeCmds 0 = some ⟨2, 0, 0, false⟩ ∧
      tfind up.rangeCmds 1 = none ∧ (0#2 ≠ 1 ∧ 0#2 ≠ 2)) ∧
    (let s := ranging ⟨1 + 64, 64, 64, false⟩ { live := true, base := 0, len := 64 }
     dieUp s 0 = true ∧ tfind s.rangeCmds 0 = some ⟨1 + 4 * 0 + 32 * b2n false + 64 * b2n true, 64, 64, false⟩ ∧
      rangeOk s 0 64 64 false = true ∧ (∀ e ∈ s.ranges, e.2.live = true → e.2.base + e.2.len ≤ 64 ∨ 64 + 64 ≤ e.2.base) ∧
      (0 < 4096 ∧ (rangeAt s 0).live = false)) ∧
    (let s := ranging ⟨2, 4095, 0, false⟩ { live := true, base := 0, len := 64 }
     dieUp s 0 = true ∧ tfind s.rangeCmds 0 = some ⟨2, 4095, 0, false⟩ ∧
      rangeOf s 4095 (handlePart 4095) = some { live := true, base := 0, len := 64 }) := by
  unfold canWrite; decide +kernel

/-- Die 0 completes this describe command of table index 4,095 of partition 0, whose runtime table holds `l`. -/
def describing (c : CpyCmd) (l : Tbl DescE) : State := { withRegion up 0 0 with
  descCmds := [(0, c)], parts := [(0, { octets := [0], runDescs := l })]
  ranges := [(0, { live := true, base := 0, len := 64, writable := true })] }

theorem witness_DescriptorsComeAndGo :
    (let s := wr (withRegion up 0 0) (cpyReg 1 0x28) 0
     canWrite s .app (cpyReg 1 0x30) ∧ tfind s.descCmds 1 = none ∧ memOk s (rd s (cpyReg 1 0x28)) 64 = true ∧
      memBad s (rd s (cpyReg 1 0x28)) 64 = false) ∧
    (let s := describing ⟨1 + 65536 * 4095, bytes64, 0, false⟩ []
     dieUp s 0 = true ∧ tfind s.descCmds 0 = some ⟨0 + 1 + 4 * 0 + 65536 * 4095, bytes64, 0, false⟩ ∧
      tfind (part s 0).runDescs 4095 = none ∧ describeTensor s bytes64 0 = 0) ∧
    (let s := describing ⟨2 + 65536 * 4095, fill7 + 2 ^ 96 * 65536, 0, false⟩ [(0, .tensor bytes64)]
     dieUp s 0 = true ∧ tfind s.descCmds 0 = some ⟨1 + 1 + 4 * 0 + 65536 * 4095, fill7 + 2 ^ 96 * 65536, 0, false⟩ ∧
      tfind (part s 0).runDescs 4095 = none ∧ describeCopy s (fill7 + 2 ^ 96 * 65536) 0 true = 0) ∧
    (let s := describing ⟨3 + 65536 * 4095, 0, 0, false⟩ [(4095, .tensor bytes64)]
     dieUp s 0 = true ∧ tfind s.descCmds 0 = some ⟨3 + 4 * 0 + 65536 * 4095, 0, 0, false⟩ ∧
      tfind (part s 0).runDescs 4095 = some (.tensor bytes64) ∧ namedByCopy s 0 (2 ^ 16 + 4095) = false) := by
  unfold canWrite; decide +kernel

/-- Hatch 0's partition has the counter block of one counter, 4,095, of die 0. -/
def signalling (op args : Nat) (x : Ctr) : State := wr { ran1 8 op args with ctrs := [(4095, x)] } (synReg 0 0x20) (4095 + 2 ^ 12)

theorem witness_SignalsReachTheCounterUnits :
    (∀ x ∈ [({ st := 1 } : Ctr), { st := 3 }, { st := 2 }], CanGo (signalling 1 (4095 + 2 ^ 32) x) 0 0 1 (wd 8 1 (4095 + 2 ^ 32)) 8 1 0 ∧
      bits (wd 8 1 (4095 + 2 ^ 32)) 64 32 ≠ 0 ∧ bits (wd 8 1 (4095 + 2 ^ 32)) 45 19 = 0 ∧ bits (wd 8 1 (4095 + 2 ^ 32)) 96 32 = 0 ∧
      inBlock (launched (signalling 1 (4095 + 2 ^ 32) x) 0 0 1 8) 0 (bits (wd 8 1 (4095 + 2 ^ 32)) 32 13) = true ∧
      (ctr (launched (signalling 1 (4095 + 2 ^ 32) x) 0 0 1 8) (bits (wd 8 1 (4095 + 2 ^ 32)) 32 13)).st = x.st) ∧
    (CanGo (signalling 2 15 { st := 1, group := some 15 }) 0 0 1 (wd 8 2 15) 8 2 0 ∧ wd 8 2 15 >>> 36 = 0 ∧
      4095 ∈ ctrsOf (launched (signalling 2 15 { st := 1, group := some 15 }) 0 0 1 8) 0 ∧
      (ctr (launched (signalling 2 15 { st := 1, group := some 15 }) 0 0 1 8) 4095).group = some (bits (wd 8 2 15) 32 4)) ∧
    canWrite up .app (synReg 1 0x10) := by
  unfold canWrite; decide +kernel

/-- Counter 1 of die 0 has a change of `inc` waiting; it may be linked to counter 2. -/
def adding (inc : Nat) (x : Ctr) : State := { up with
  changes0 := [{ op := 0, id := 1, inc := inc }], ctrs := [(1, x)], dests := [(4095, (2, 0))] }

theorem witness_CounterChangesApply :
    (∀ s ∈ [adding (2 ^ 32 - 1) { st := 1, value := 2 ^ 48 - 2 ^ 32 + 1 }, adding 5 { st := 3 },
        adding 5 { st := 1, trigger := 5, stride := 5, outInc := 3, destFirst := 4095, destCount := 1 }],
      covered s ((changes s 0).headD { op := 9, id := 0 }) = true ∧ ((changes s 0).headD { op := 9, id := 0 }).op = 0 ∧
      ((ctr s 1).st = 1 ∨ (ctr s 1).st = 3)) ∧
    2 ^ 48 ≤ (2 ^ 48 - 2 ^ 32 + 1) + (2 ^ 32 - 1) ∧ (ctr (adding 5 { st := 3 }) 1).destCount = 0 ∧
    (let s := adding 5 { st := 1, trigger := 5, stride := 5, outInc := 3, destFirst := 4095, destCount := 1 }
     (ctr s 1).st = 1 ∧ destsOf s 1 = [(0, synModule s, 2)] ∧ 2 / 4096 = 0 ∧ (ctr s 1).trigger ≤ (ctr s 1).value + 5 ∧
      (ctr s 1).stride ≠ 0) := by decide +kernel

/-- Partition 0's hatch owns a slot of stack 0, which is paused; its counter 1 is linked to counter 7 of module 5, through
port 3, which is UP. -/
def lateState : State := wr (wr (wr { ran [] with
  stks := [(0, { level := 3, frame := [(0, 1)], frames := 1 })]
  ctrs := [(1, { st := 1, destCount := 1 })]
  dests := [(0, (7 + 2 ^ 13 * 5, 0))] } (rylReg 0 0x20000) (3 <<< 20)) (portReg 3 0) 2) (mchReg 0 0x100) 0

/-- Every burin of the only hatch of partition 0 stands at a sync wait. -/
def stuck : State := { waits with gens := [(0, { st := .running, size := 1, waitKind := 2, waitPods := 1 })] }

theorem witness_LatenessAndDeadlock :
    (lateLocal lateState 0 = true ∧ (part lateState 0).frozen = false ∧ remoteDests lateState 0 = [(0, 5, 7)] ∧
      routeOf lateState 0 8 5 = 3 ∧ portClosed lateState 3 = false) ∧
    (0 = homeDie lateState 0 ∧ lateLocal up 0 = false ∧ (part up 0).lateIn = false ∧ 0 = homeDie up 0) ∧
    (dieUp stuck 0 = true ∧ 0 = homeDie stuck 0 ∧ gensOf stuck 0 = 0 :: [] ∧ deadlockIdle stuck 0 = true ∧
      (part stuck 0).resetReq = none) ∧
    (reachable up (synReg 1 0x18) = true ∧ rd up (synReg 1 0x18) = 0 ∧
      reachable (wr up (synReg 1 0x18) (2 ^ 63)) (synReg 1 0x18) = true ∧ rd (wr up (synReg 1 0x18) (2 ^ 63)) (synReg 1 0x18) ≠ 0) := by
  decide +kernel

/-- Partition 7, of octet 31, with this plate; die 0 holds the token; region 0 is mapped, and its LOAD names 64 bytes there. -/
def plated (x : Part) (gens : Tbl Gen := []) : State :=
  wr (wr (wr { withRegion up 0 0 with parts := [(7, { x with octets := [31] })], gens := gens } (wrdReg 0) 1) (pltReg 7 8) 64)
    (pltReg 7 0x10) 64

/-- `loadFault` answers none only for a plate whose signatures verify; no such plate is at hand here (NOTES.md). -/
theorem witness_PlatesLoad :
    (∀ k ∈ [0, 4, 3, 1, 2], canWrite (plated { staged := k }) .app (pltReg 7 0x1C) ∧ plateDieDown (plated { staged := k }) 7 = false ∧
      sourceOk (plated { staged := k }) 7 = true ∧ (part (plated { staged := k }) 7).staged = k) ∧
    (¬(1 ≤ (0#4).toNat ∧ (0#4).toNat ≤ 5) ∧ ¬(1 ≤ (15#4).toNat ∧ (15#4).toNat ≤ 5)) ∧
    (let s := plated { staged := 1, srcLen := 64, bindAddr := 64, bindCount := 1 }
     loaderUp s = true ∧ plateDieDown s 7 = false ∧ (part s 7).staged = 1 ∧ spanMapped s 0 64 = true ∧ spanMapped s 64 16 = true ∧
      memBad s 0 64 = false ∧ memBad s 64 16 = false) ∧
    (let s := plated { staged := 2 }
     loaderUp s = true ∧ plateDieDown s 7 = false ∧ (part s 7).staged = 2 ∧ loadFault s 7 [] 0 [] 0 = some ⟨1, 0xFF, 0⟩) := by
  unfold canWrite; decide +kernel

/-- Generator 31 of partition 7 and generator 30, which may be its too. -/
def twoGens (p : Nat) : Tbl Gen := [(30, { st := .starting, size := 1, part := p }), (31, { st := .starting, size := 1, part := 7 })]

theorem witness_PlatesRun :
    (∀ k ∈ [0, 4, 2], canWrite (plated { staged := 3, active := k }) .app (pltReg 7 0x1C) ∧
      plateDieDown (plated { staged := 3, active := k }) 7 = false ∧ (part (plated { staged := 3, active := k }) 7).staged = 3 ∧
      (part (plated { staged := 3, active := k }) 7).active = k) ∧
    (let s := plated { active := 1 } [(31, { st := .stopped, size := 1, part := 7 })]
     (part s 7).active = 1 ∧ loaderUp s = true ∧ plateDieDown s 7 = false ∧
      (∀ e ∈ s.gens, e.2.part = 7 → e.2.size = 0 ∨ e.2.st = .stopped)) ∧
    (let s := plated { active := 1 } (twoGens 7)
     (gen s 31).st = .starting ∧ (gen s 31).faulted = false ∧ (part s (gen s 31).part).active = 1 ∧
      (∃ e ∈ (setGen s 31 { gen s 31 with st := .running, hc := 0 }).gens, 0 < e.2.size ∧ e.2.part = 7 ∧ e.2.st ≠ .running)) ∧
    (let s := plated { active := 1 } (twoGens 0)
     ∀ e ∈ (setGen s 31 { gen s 31 with st := .running, hc := 0 }).gens, 0 < e.2.size → e.2.part = 7 → e.2.st = .running) ∧
    (∀ k ∈ [1, 2], canWrite (plated { active := k, permits := 1048574 }) .app (pltReg 7 0x50) ∧
      (part (plated { active := k, permits := 1048574 }) 7).active = k ∧ lanePart (plated { active := k, permits := 1048574 }) ≠ some 7 ∧
      (1#32).toNat ≤ 1048575 ∧ (part (plated { active := k, permits := 1048574 }) 7).permits + (1#32).toNat ≤ 1048575 ∧
      1048575 < (part (plated { active := k, permits := 1048574 }) 7).permits + (2#32).toNat) := by
  unfold canWrite; decide +kernel

theorem witness_PlatesRetire :
    (∀ k ∈ [2, 4], canWrite (plated { active := k }) .app (pltReg 7 0x1C) ∧ plateDieDown (plated { active := k }) 7 = false ∧
      (part (plated { active := k }) 7).active = k) ∧
    (∀ b ∈ [true, false], let s := plated { active := 3, staged := 3, activateNext := b } (twoGens 7)
     (part s 7).active = 3 ∧ inStep (part s 7) = false ∧ loaderUp s = true ∧ chansDrained s 7 = true ∧
      (part s 7).activateNext = b ∧ (part s 7).staged = 3) := by
  unfold canWrite; decide +kernel

/-- The module with standby power, its warden at `stage`, nothing powered. -/
def standing (stage : Nat) (x : Supply := {}) : State :=
  wr { State.reset with sup := { x with standby := true } } (wrdReg 0x40) stage

theorem witness_PowerSequences :
    (State.reset.sup.standby = false ∧ State.reset.sup.modReset = false) ∧
    (∀ o ∈ [0, 7], let s := modSec (wr (standing 1) (wrdReg 0x2C) 0) (fun x => { x with fuses := { x.fuses with owner := o } })
     s.sup.standby = true ∧ s.sup.modReset = false ∧ bootStage s = 1 ∧ bootError s = 0 ∧ s.sup.booting = false ∧
      powering s = false ∧ s.sup.held = none ∧ rd s (wrdReg 0x2C) % 8 = 0 ∧ s.sec.fuses.owner = o) ∧
    (∀ k ∈ [1, 2], let s : State := { up with sup := { up.sup with die1 := { st := k } } }
     canWrite s .mgmt (wrdReg 0x2C) ∧ powering s = decide (k = 1) ∧ bit (7#32).toNat 2 = true) ∧
    (∀ k ∈ ([0, 1, 2] : List Nat), ∀ e ∈ [0, 1], let j := (k + 1) % 3
     let s := setDom (standing 2 { upQ := [k, j, 9] }) k { st := 1, rails := railsOf k - e }
     j ≠ k ∧ s.sup.downQ = [] ∧ s.sup.upQ = k :: j :: [9] ∧ (domOf s k).st = 1 ∧ (e = 1 → (domOf s k).rails < railsOf k) ∧
      (e = 0 → (domOf s k).rails = railsOf k) ∧ s.modLock = false ∧ bootStage s < 4) ∧
    ((standing 2 { downQ := [1, 0, 2] }).sup.downQ = 1 :: 0 :: [2]) ∧
    (let s := setDom (standing 8 { appUp := true }) 2 { st := 2 }
     (domOf s 2).st = 2 ∧ s.sup.appUp = true) := by
  unfold canWrite; decide +kernel

/-- The clauses of a boot that locks a die ask for a set-up record whose signature verifies; no such record is at hand here
(NOTES.md). -/
theorem witness_BootCompletesADie :
    let s := wr up (wrdReg 0x40) 4
    let bad := badSlotsOf s 1 (List.range 9)
    s.modLock = false ∧ bootError s = 0 ∧ 4 ≤ bootStage s ∧ dieUp s 1 = true ∧ (domOf s 1).st = 2 ∧ s.locked.contains 1 = false ∧
      8 < bad.length ∧ (badSlotsOf s 1 (List.range 8)).length ≤ 8 := by decide +kernel

theorem witness_PinsAndSuppliesResetTheModule :
    (up.sup.standby = true ∧ up.sup.modReset = false) ∧
    (let s : State := { up with sup := { up.sup with modReset := true } }
     s.sup.standby = true ∧ s.sup.modReset = true) := by decide +kernel

/-- Port 15 in this state (its status register), on the module with a valid module id. -/
def linked (st : Nat) (x : Port := {}) : State :=
  wr (wr { up with ports := [(15, x)] } (portReg 15 0) st) (rylReg 1 8) (2 ^ 31)

/-- A queued packet of this module. -/
def queued (typ : Nat) : LinkPkt := { typ := typ, vl := 3, units := 0, hops := 0, dst := 1, src := 0, body := 7 }

theorem witness_PortsTrainAndFail :
    (canWrite (linked 0) .app (portReg 15 4) ∧ portSt (linked 0) 15 = 0 ∧ portSt (linked 4) 15 = 4 ∧ ethMode (linked 0) 15 = false ∧
      moduleValid (linked 0) 15 = true) ∧
    (portSt (linked 1) 15 = 1 ∧ portAll (port (linked 1) 15) = [] ∧ (port (linked 1) 15).bad = []) ∧
    (portCarries (linked 2 { q3 := [queued 3] }) 15 = true ∧ portAll (port (linked 2 { q3 := [queued 3] }) 15) ≠ [] ∧
      portCarries (linked 3) 15 = true ∧ portAll (port (linked 3) 15) = []) ∧
    (let s := linked 2 { q3 := [queued 3], drain := true }
     portCarries s 15 = true ∧ (port s 15).drain = true ∧ portAll (port s 15) = [queued 3] ∧ (queued 3).arr = none ∧ (queued 3).typ = 3) ∧
    (let s := linked (2 + 8 * 15 + 2 ^ 17)
     portSt s 15 = 2 ∧ bit (portLanes s 15) 3 = true ∧ 2 ≤ portVersion s 15 ∧ (port s 15).bad = []) ∧
    (let s := wr (linked 3 { bad := [3] }) (rylReg 1 0x24) (2 ^ 31 + 7 + 8 * 3)
     portSt s 15 = 3 ∧ (port s 15).bad ≠ [] ∧ (∀ x ∈ (port s 15).bad, x ∈ steeredLanes s 15)) ∧
    (canWrite (linked 2) .app (rylReg 1 0x24) ∧ bit (rd (linked 2) (rylReg 1 0x24)) 31 = false ∧
      bit (BitVec.ofNat 32 (2 ^ 31 + 7)).toNat 31 = true ∧ portSt (linked 2) (8 + bits (2 ^ 31 + 7) 0 3) = 2 ∧ (port (linked 2) 15).bad = []) ∧
    (canWrite up .app (rylReg 1 8) ∧ ∀ k < 16, portSt up k = 0 ∨ portSt up k = 5) ∧
    canWrite up .mgmt (rylReg 1 (0x10000 + 0x2000 * 8 + 4 * 2047)) ∧
    (ethMode (wr up (rylReg 1 0x28) 3) 15 = true ∧ dieUp up 1 = true) := by
  unfold canWrite; decide +kernel

/-- The only packet of type `typ` with this body, for this module, first in its turn. -/
def pkt (typ body : Nat) (payload : List Byte := []) : Packet :=
  let p : Packet := ⟨3, BitVec.ofNat 8 (payload.length / 64), 0, 0, 1, 0, 0, 0, BitVec.ofNat 256 body, 0, 0, 0, payload, 0, 0⟩
  { p with crc := BitVec.ofNat 32 (pktCrc (rxHeader typ p) payload) }

/-- Port 15 is UP; range 0 is 64 bytes at address 0; copy channel 31 of die 0 has span 5 on its way; counter 1 is FROZEN. -/
def receiving : State := { withRegion (linked 2) 0 0 with
  ranges := [(0, { live := true, base := 0, len := 64 })]
  spans := [(5, 31)]
  copies := [(31, { st := 1, run := some { img := 2 ^ 43, iter := 0, total := 1 } })]
  ctrs := [(1, { st := 3 })] }

/-- The module once such a packet's header has been taken. -/
def taken (_typ : Nat) (p : Packet) : State :=
  modPort (takeHeader (bump (bump (bump receiving (portReg 15 0x18) (1 + p.units.toNat)) (portReg 15 0x28) p.corrected)
    (portReg 15 0x30) p.uncorrected) 15 p) 15 (fun x => { x with rxSeq := (x.rxSeq + 1) % 2 ^ 32 })

theorem pkt_whole (typ body : Nat) (l : List Byte) (h : l.length = 64 * (l.length / 64 % 256)) :
    rxWhole typ (pkt typ body l) = true := by
  have c : pktCrc (rxHeader typ (pkt typ body l)) l = (BitVec.ofNat 32 (pktCrc (rxHeader typ (pkt typ body l)) l)).toNat := by
    rw [BitVec.toNat_ofNat]; exact (Nat.mod_eq_of_lt (crc32_lt _)).symm
  simp only [rxWhole, Bool.and_eq_true, beq_iff_eq]
  exact ⟨⟨rfl, by show l.length = _; simpa [pkt] using h⟩, c⟩

theorem arrives_at {typ : Nat} {p : Packet} (h : rxWhole typ p = true ∧
    portCarries (takeHeader (bump (bump (bump receiving (portReg 15 0x18) (1 + p.units.toNat)) (portReg 15 0x28) p.corrected)
      (portReg 15 0x30) p.uncorrected) 15 p) 15 = true ∧ bit p.flags.toNat 0 = false ∧
    p.seq.toNat = (port (takeHeader (bump (bump (bump receiving (portReg 15 0x18) (1 + p.units.toNat)) (portReg 15 0x28) p.corrected)
      (portReg 15 0x30) p.uncorrected) 15 p) 15).rxSeq ∧ p.hops ≠ 16 ∧
    p.dst.toNat % 16384 = moduleId (takeHeader (bump (bump (bump receiving (portReg 15 0x18) (1 + p.units.toNat)) (portReg 15 0x28)
      p.corrected) (portReg 15 0x30) p.uncorrected) 15 p)) : arrives receiving 15 typ p (taken typ p) :=
  ⟨by decide +kernel, h.1, h.2.1, h.2.2.1, h.2.2.2.1, h.2.2.2.2.1, h.2.2.2.2.2, rfl⟩

theorem witness_LinksCarryPackets :
    (let s := linked 2 { q3 := [queued 3], credits := [0, 0, 0, 1] }
     portCarries s 15 = true ∧ nextTurn (port s 15) = some 0 ∧ portQueue (port s 15) (nth 0 rotation 0) = queued 3 :: [] ∧
      (queued 3).arr = none) ∧
    (portCarries (linked 2) 15 = true ∧ nextTurn (port (linked 2) 15) = none) ∧
    (let s := wr (linked 2 { replay := [queued 3] }) (rylReg 1 0xC) 8
     portCarries s 15 = true ∧ (port s 15).replay = [queued 3] ∧ (queued 3).sent < retryLimit s 15) ∧
    (arrives receiving 15 1 (pkt 1 0 (List.replicate 64 7)) (taken 1 (pkt 1 0 (List.replicate 64 7))) ∧
      spanReason (taken 1 (pkt 1 0 (List.replicate 64 7))) 0 0 64 = 0) ∧
    (arrives receiving 15 2 (pkt 2 8191) (taken 2 (pkt 2 8191)) ∧ dieUp (taken 2 (pkt 2 8191)) (bits 8191 0 13 / 4096) = true) ∧
    (∀ typ ∈ [3, 4], arrives receiving 15 typ (pkt typ (1 + 6 * 2 ^ 32)) (taken typ (pkt typ (1 + 6 * 2 ^ 32))) ∧
      (ctr (taken typ (pkt typ (1 + 6 * 2 ^ 32))) (bits (1 + 6 * 2 ^ 32) 0 13)).st ≠ 0 ∧ 6 ≤ bits (1 + 6 * 2 ^ 32) 32 8) ∧
    (∀ typ ∈ [0x10, 0x11], arrives receiving 15 typ (pkt typ 5) (taken typ (pkt typ 5)) ∧ tfind (taken typ (pkt typ 5)).spans 5 = some 31 ∧
      (copyChan (taken typ (pkt typ 5)) (31 / 32) (31 % 32)).run = some { img := 2 ^ 43, iter := 0, total := 1 }) ∧
    arrives receiving 15 0x12 (pkt 0x12 1) (taken 0x12 (pkt 0x12 1)) ∧
    (arrives receiving 15 0x13 (pkt 0x13 3) (taken 0x13 (pkt 0x13 3)) ∧ bits 3 0 8 = 3) ∧
    (rxWhole 0x20 (pkt 0x20 0) = true ∧ bit (pkt 0x20 0).flags.toNat 0 = false) :=
  ⟨by decide +kernel, by decide +kernel, by decide +kernel, ⟨arrives_at ⟨pkt_whole 1 0 _ (by decide), by decide +kernel⟩, by decide +kernel⟩,
   ⟨arrives_at (by decide +kernel), by decide +kernel⟩,
   fun t h => by
    rcases List.mem_pair.mp h with rfl | rfl <;> exact ⟨arrives_at (by decide +kernel), by decide +kernel⟩,
   fun t h => by
    rcases List.mem_pair.mp h with rfl | rfl <;> exact ⟨arrives_at (by decide +kernel), by decide +kernel⟩,
   arrives_at (by decide +kernel), ⟨arrives_at (by decide +kernel), by decide +kernel⟩, by decide +kernel⟩

/-- Partition 0 is frozen, with one counter, 1, FROZEN with an emission of 2 held for counter 8,191 of this module. -/
def icy (x : Ctr) (y : Part := {}) : State := { up with
  parts := [(0, { y with frozen := true, octets := [0] })], ctrs := [(1, x)], dests := [(0, (8191, 0))] }

theorem witness_FrozenPartitionsEnd :
    canWrite (icy {}) .app (rylReg 1 0x1C) ∧ continueRefused (icy { st := 3 } { inDoubt := true }) 0 = true ∧
    (continueRefused (icy { st := 1 }) 0 = false ∧ (∀ id ∈ ctrsOf (icy { st := 1 }) 0, (ctr (icy { st := 1 }) id).st ≠ 3) ∧
      (part (icy { st := 1 }) 0).resetReq = none) ∧
    (let s := icy { st := 3, held := 2, destCount := 1, outInc := 5 }
     continueRefused s 0 = false ∧ ctrsOf s 0 = [1] ∧ (ctr s 1).st = 3 ∧ destsOf s 1 = [(0, synModule s, 8191)] ∧
      heldFor (ctr s 1) 0 ≠ 0 ∧ 8191 / 4096 < 2) ∧
    (ctrsOf (icy { st := 3 }) 0 = [1] ∧ (ctr (icy { st := 3 }) 1).st = 3 ∧ (ctr (icy { st := 3 }) 1).destCount = 0) := by
  unfold canWrite; decide +kernel

/-- A frame with its FCS. -/
def withFcs (b : List Byte) : List Byte := b ++ leBytes 4 (crc32 b)

theorem ofLE_four (x : Nat) (h : x < 2 ^ 32) : ofLE (leBytes 4 x) = x := by
  simp [leBytes, ofLE]
  omega

theorem accepts_of {s : State} {k : Nat} {b : List Byte} (h : portSt s (14 + k) = 5 ∧ dieUp s 1 = true ∧ 14 ≤ b.length ∧
    frameOk b = true) : acceptFrame s k (withFcs b) = (s, some b) := by
  obtain ⟨h1, h2, h3, h4⟩ := h
  have l : (leBytes 4 (crc32 b)).length = 4 := rfl
  have n : (withFcs b).length - 4 = b.length := by simp [withFcs, l]
  have m : ¬ (withFcs b).length < 18 := by simp [withFcs, l]; omega
  have t : (withFcs b).take b.length = b := List.take_left
  have d : (withFcs b).drop b.length = leBytes 4 (crc32 b) := List.drop_left
  simp [acceptFrame, n, m, t, d, h1, h2, h4, ofLE_four _ (crc32_lt b)]

/-- Ports 14 and 15 in ETHERNET mode, the query lane's port 0x1234 for partition 0, which runs a plate with class 9, and
descriptor 0 of every ring with room for 1,518 bytes; `tail` is every ring's. -/
def ether (tail : Nat) (x : Lane := {}) : State :=
  let s := withRegion { up with lane := x } 0 0
  let s := wr (wr (wr s (portReg 14 0) 5) (portReg 15 0) 5) (rylReg 1 0x2C) (8 + 0x1234 * 2 ^ 16)
  let s := (List.range 4).foldl (fun s r => wr s (ringReg r 0x10) tail) s
  ringWrite { s with parts := [(0, { octets := [0], share := 1, active := 2, classes := [⟨9, 4, 100, 64, 64, 0, 1⟩] })] } 8 2 1518

/-- The shortest frame, of EtherType 0x0806. -/
def arp : List Byte := List.replicate 12 1 ++ [8, 6]

/-- A query of 64 bytes for class 9, in IPv4 and UDP without a checksum. -/
def query : List Byte :=
  List.replicate 12 1 ++ [8, 0] ++ [0x45, 0, 0, 124, 0, 0, 0, 0, 64, 17, 0, 0, 10, 0, 0, 1, 10, 0, 0, 2] ++
  [0x80, 0, 0x12, 0x34, 0, 104, 0, 0] ++
  (leBytes 2 0x514A ++ [1, 1] ++ leBytes 2 9 ++ [0, 0] ++ leBytes 8 77 ++ leBytes 4 64 ++ List.replicate 12 0) ++ List.replicate 64 5

theorem witness_RingsAndInboundAccesses :
    (∀ k : Fin 2, ∀ t ∈ [0, 1],
      acceptFrame (ether t) k (withFcs arp) = (ether t, some arp) ∧ laneUdp (ether t) arp = none ∧
      (ether t).ringStop.contains (2 * k.val) = false ∧
      (t = 0 → rd (ether t) (ringReg (2 * k) 0xC) = rd (ether t) (ringReg (2 * k) 0x10)) ∧
      (t = 1 → rd (ether t) (ringReg (2 * k) 0xC) ≠ rd (ether t) (ringReg (2 * k) 0x10)) ∧ (ethParse arp).tci = none ∧
      arp.length ≤ ringRead (ether t) (ringDesc (ether t) (2 * k) (rd (ether t) (ringReg (2 * k) 0xC)) + 8) 2) ∧
    (∀ j : Fin 2, let r := 2 * j.val + 1
     (ether 1).ringStop.contains r = false ∧ rd (ether 1) (ringReg r 0xC) ≠ rd (ether 1) (ringReg r 0x10) ∧
      portSt (ether 1) (14 + j) = 5 ∧ dieUp (ether 1) 1 = true) ∧
    (∀ k : Fin 4, canWrite up .app (ringReg k 0x10)) ∧
    (let s : State := { up with sup := { up.sup with perst := true } }
     s.dieDown.contains 2 = false ∧ s.sup.perst = true) := by
  refine ⟨fun k t h => ⟨accepts_of ?_, ?_⟩, ?_, ?_, ?_⟩
  · revert t k; decide +kernel
  · revert t k; decide +kernel
  · decide +kernel
  · unfold canWrite; decide +kernel
  · decide +kernel

/-- A step of the lane with one request of class 9, ended at cycle `t` where it has ended. -/
def laneStepOf (released : Bool) (t : Option Nat) : QStep := ⟨100, released, [⟨⟨14, [10, 0, 0, 1], 0x8000⟩, 77, 9, 0, 0⟩], t⟩

theorem witness_RequestsAreAdmittedAndAnswered :
    (∀ k : Fin 2, let s := ether 0
     let u : UdpPkt := ⟨[10, 0, 0, 1], 0x8000, 0x1234, true, query.drop 42⟩
     let c : QClass := ⟨9, 4, 100, 64, 64, 0, 1⟩
     let v := fun o n => ofLE ((u.payload.drop o).take n)
     acceptFrame s k (withFcs query) = (s, some query) ∧ laneUdp s query = some (0, u) ∧ u.sumOk = true ∧ s.lane.steps = [] ∧
      s.lane.asm = [] ∧ u.payload.length = 32 + c.inBytes ∧ v 0 2 = 0x514A ∧ v 2 1 = 1 ∧ v 3 1 = 1 ∧ v 6 1 = 0 ∧ v 7 1 = 0 ∧
      v 0x10 4 = c.inBytes ∧ v 0x14 2 = 0 ∧ v 0x16 2 = 0 ∧ v 0x18 8 = 0 ∧ (part s 0).active = 2 ∧ (part s 0).frozen = false ∧
      s.pws.drain = false ∧ (part s 0).classes.find? (fun x => x.id == v 4 2) = some c) ∧
    (let x : QAsm := ⟨⟨14, [10, 0, 0, 1], 0x8000⟩, 77, 9, 2, []⟩
     (ether 0 { asm := [x] }).lane.asm[0]? = some x) ∧
    (let x := laneStepOf false none
     let s := ether 0 { steps := [x] }
     lanePart s = some 0 ∧ s.lane.steps = [x] ∧ x.released = false ∧ inStep (part s 0) = false ∧ (part s 0).permits = 0 ∧
      (part s 0).active = 2) ∧
    (let x := laneStepOf true (some 50)
     let s := ether 0 { steps := [x] }
     let c : QClass := ⟨9, 4, 100, 64, 64, 0, 1⟩
     let a := slotAddr s 0 c.outDesc 0 c.outBytes
     lanePart s = some 0 ∧ s.lane.steps = [x] ∧ x.released = true ∧ x.done = some 50 ∧ x.reqs = [⟨⟨14, [10, 0, 0, 1], 0x8000⟩, 77, 9, 0, 0⟩] ∧
      (part s 0).classes.find? (fun c => c.id == 9) = some c ∧ 0 < c.outBytes ∧ c.outBytes ≤ 8192 ∧
      memBad (memNote { s with lane := { s.lane with steps := [] } } a c.outBytes 4 0) a c.outBytes = false) := by
  refine ⟨fun k => ⟨accepts_of ?_, ?_⟩, ?_, ?_, ?_⟩
  · revert k; decide +kernel
  · revert k; decide +kernel
  · decide +kernel
  · decide +kernel
  · decide +kernel

/-- Channel 0 of stack `st` as given, its frame's entry 0 for hatch 31 of its die. -/
def channel (st : Nat) (c : Chan) (x : Stack := {}) : State :=
  setChan (setStk up st { x with frame := [(0, 1 + 16 * 31)] }) st 0 c

/-- A request of hatch 31 of die 0 for granule 0 of stack 0. -/
def asked (write : Bool) : MemReq := ⟨write, 0, 0, 0, 7, 0, 3, 5, 0⟩

theorem witness_SlotsServeTheChannels :
    (∀ n ∈ [127, 255], let s := channel 0 { slot := n } { owed := 15625 }
     dieUp s 0 = true ∧ (chan s 0 0).slot % 256 = n ∧ 0 < refreshDebt s 0 0) ∧
    (∀ n ∈ [127, 255], let s := channel 15 { slot := n } { owed := 15624 }
     dieUp s (15 / 8) = true ∧ (chan s 15 0).slot % 256 = n ∧ refreshDebt s 15 0 = 0 ∧ (chan s 15 0).migr = [] ∧
      (chan s 15 0).scrubDue = false) ∧
    (∀ w ∈ [false, true], let s := channel 0 { slot := 256, queues := [(31, [asked w])], rows := [(0, (0, 0))] } { level := 2, owed := 8 * 15625 }
     dieUp s 0 = true ∧ ((stk s 0).level < 3 ∨ bit (frameEntry s 0 0) 3 = true) ∧
      (refreshDebt s 0 0 ≤ 8 ∨ bit (frameEntry s 0 0) 3 = true) ∧ bits (frameEntry s 0 0) 0 3 = 1 ∧
      tget [] (chan s 0 0).queues (16 * bits (frameEntry s 0 0) 9 1 + bits (frameEntry s 0 0) 4 5) = [asked w] ∧
      tfind (chan s 0 0).rows (locOf (asked w).pg).bank = some ((locOf (asked w).pg).row, 0)) ∧
    (∀ f ∈ [0, 15624], let s := channel 15 {} { frames := f }
     dieUp s (15 / 8) = true ∧ (f = 0 → ((stk s 15).frames + 1) % 15625 ≠ 0) ∧ (f = 15624 → ((stk s 15).frames + 1) % 15625 = 0)) ∧
    (∀ l ∈ [0, 4], let s := channel 0 {} { level := l }
     dieUp s 0 = true ∧ stackLevel (stk s 0).level 0 = l) := by decide +kernel

/-- Channel 255 of stack 0 with its scrubber at granule 14 of the last user row of bank 15, overlay `e` there. -/
def scrubbed (e : Nat) (c : Chan := {}) : State :=
  { up with
    chans := [(255, { c with scrub := (15, 8191, 14) })]
    memErr := [(Loc.pg ⟨0, 255, 15, 8191, 14⟩, e)] }

/-- The granule of `scrubbed`. -/
def lastPg : Nat := Loc.pg ⟨0, 255, 15, 8191, 14⟩

theorem witness_ScrubbingAndTables :
    (∀ k ∈ [0, 1, 2], let s := scrubbed (if k = 2 then 3 else 0) (if k = 0 then { queues := [(31, [{ asked true with pg := lastPg }])] } else {})
     dieUp s 0 = true ∧ bits (rd s (mchReg 0 0x200C)) 0 16 ≠ 0 ∧ (chan s 0 255).fix = none ∧ refreshDebt s 0 255 = 0 ∧
      (chan s 0 255).scrub = (15, 8191, 14) ∧ (k = 0 → writePending (chan s 0 255) lastPg = true) ∧
      (k ≠ 0 → writePending (chan s 0 255) lastPg = false) ∧ (k = 1 → granuleOvl s lastPg = 0) ∧
      (k = 2 → eccDecode hullF (granuleOvl s lastPg) = .corrected [(0, 3)])) ∧
    (∀ w ∈ [false, true], let s := scrubbed 0 { fix := some (lastPg, [(0, 3)], w) }
     dieUp s 0 = true ∧ (chan s 0 255).fix = some (lastPg, [(0, 3)], w) ∧ granuleOvl s lastPg = 0) ∧
    (let m : Migration := ⟨7, 15, 8191, 8191, 15, false, []⟩
     let s := channel 0 { migr := [m] }
     (chan s 0 0).migr = [m] ∧ m.left = [] ∧ m.second = false) ∧
    (∀ d : Fin 2, ∀ k ∈ [0, 511], let s : State := up
     canWrite s (.control d) (mchReg (8 * d) (0x8000 + 32 * k)) ∧ lockOpen s (.control d) (mchReg (8 * d) (0x8000 + 32 * k)) = true) ∧
    dieUp up (15 / 8) = true ∧
    (∀ l ∈ ([[], [(255, 31)]] : List (List (Nat × Nat))), let s := channel 15 {} { pinFail := l }
     reachable s (mchReg 15 0x2050) = true ∧ (stk s 15).pinFail = l) := by
  refine ⟨?_, ?_, ?_, ?_, ?_, ?_⟩
  · decide +kernel
  · decide +kernel
  · decide +kernel
  · unfold canWrite; decide +kernel
  · decide +kernel
  · decide +kernel

/-- The list of partition 0 in stack 0, of one unsharded layer: W, G and STATE (descriptors 0, 1 and 2: 64 bytes each at
address 0, 64 and 128), its waits on counter 0, in its phase with refusal code `code`; STATE's count is `count`. -/
def upeAt (phase code : Nat) (c : Ctr := { st := 1 }) (count : Nat := 0) : State :=
  let s : State := { withRegion up 0 0 with
    parts := [(0, { octets := [0], share := 1, active := 2, descs := [(0, .tensor bytes64), (1, .tensor (bytes64 + 64)),
      (2, .tensor (bytes64 + 128))] })]
    cons := [(0, ⟨0, 0, 0, 0⟩)]
    ctrs := [(0, c)]
    upes := [(0, { layers := [2 ^ 256 - 1 - (2 ^ 16 - 1) * 2 ^ 64 - (2 ^ 16 - 2) * 2 ^ 80 - (2 ^ 16 - 3) * 2 ^ 176 - (2 ^ 16 - 1) * 2 ^ 240],
                    rules := [0], entries := [[0, 0, 0, 0, 0, 0]], phase := phase, code := code })] }
  svcWrite s 128 8 count 0xFF

theorem witness_EngineListsAdvance :
    (∀ k ∈ [1, 2], let s := upeAt 1 0 { st := k }
     (upe s 0 0).stopped = false ∧ dieUp s 0 = true ∧ (upe s 0 0).phase = 1 ∧ upeWaitSt s (upeEntry (upe s 0 0) 0) = k) ∧
    (let s := upeAt 2 0 { st := 1 } 6
     (upe s 0 0).stopped = false ∧ dieUp s 0 = true ∧ (upe s 0 0).phase = 2 ∧ keepPause s 0 0 = false ∧
      layShards (upeLayer (upe s 0 0)) ≤ 1 ∧ ∃ t code n, gatherGo s 0 0 = (t, code, n)) ∧
    (let s := upeAt 2 0 { st := 1 } (2 ^ 32)
     let d := bytes64 + 128
     let a := upeReads s 0 (vecUnits d)
     (upe s 0 0).stopped = false ∧ dieUp s 0 = true ∧ (upe s 0 0).phase = 2 ∧ keepPause s 0 0 = false ∧
      layTensor s 0 (upeLayer (upe s 0 0)) 0x16 = some d ∧ a.2 = false ∧ layTensor a.1 0 (upeLayer (upe s 0 0)) 0x16 = some d ∧
      bit (memRead a.1 (tdBase d) 64) 32 = true ∧ layShards (upeLayer (upe s 0 0)) ≤ 1) ∧
    (∀ v ∈ [0, 1], let s := upeAt 3 0 { st := 1, value := v }
     (upe s 0 0).stopped = false ∧ dieUp s 0 = true ∧ (upe s 0 0).phase = 3 ∧ upeWaitSt s (upeEntry (upe s 0 0) 3) = 1) ∧
    (∀ code ∈ [0, 7], let s := upeAt 4 code
     (upe s 0 0).stopped = false ∧ dieUp s 0 = true ∧ (upe s 0 0).phase = 4 ∧ upeWaitSt s (upeEntry (upe s 0 0) 1) = 1 ∧
      (upe s 0 0).code = code ∧ layTensor s 0 (upeLayer (upe s 0 0)) 0x16 = some (bytes64 + 128)) ∧
    (let s := upeAt 5 0
     let x := upe s 0 0
     x.stopped = false ∧ dieUp s 0 = true ∧ x.phase = 5 ∧ keepPause s 0 0 = false ∧ layTensor s 0 (upeLayer x) 8 = some bytes64 ∧
      layTensor s 0 (upeLayer x) 0xA = some (bytes64 + 64) ∧ layTensor s 0 (upeLayer x) 0x16 = some (bytes64 + 128) ∧
      ∃ t bad, applySweep s 0 0 (procRows s 0 (upeLayer x)).length bytes64 (bytes64 + 64) (bytes64 + 128) = (t, bad)) ∧
    (∀ q ∈ ([[], [5, 6]] : List (List Nat)), let s : State := { up with upeQ := [(15, q)] }
     reachable s (upeReg 15 0x10) = true ∧ tget [] s.upeQ 15 = q) := by
  refine ⟨?_, ?_, ?_, ?_, ?_, ?_, ?_⟩
  · decide +kernel
  · exact ⟨by decide +kernel, by decide +kernel, by decide +kernel, by decide +kernel, by decide +kernel, split₃ _⟩
  · decide +kernel
  · decide +kernel
  · decide +kernel
  · exact ⟨by decide +kernel, by decide +kernel, by decide +kernel, by decide +kernel, by decide +kernel, by decide +kernel,
      by decide +kernel, split₂ _⟩
  · decide +kernel

/-- Hatch 16, of die 1, runs in partition 0. -/
def powered (x : HatchPwr) : State := { up with
  parts := [(0, { octets := [16], share := 2, active := 2 })]
  gens := [(16, { st := .running, size := 1, pwr := x })] }

theorem witness_PowerIsGranted :
    dieUp up 0 = true ∧
    (let x : HatchPwr := { sent := some 80, oppNew := some 11 }
     let s := powered x
     (gen s 16).pwr.sent = some 80 ∧ (gen s 16).pwr.oppNew = some 11 ∧ hatchLive (gen s 16) = true ∧ pinned s 16 = false ∧
      (⟨1, 0, 0, 0, 0, 0⟩ : QuarterEvents).edges ≠ 0) ∧
    (let s := powered { est := 5 }
     dieUp s 0 = true ∧ meanDynamic s none ≠ 0) ∧
    (∀ d : Fin 2, canWrite up .app (pwsReg d 4) ∧ canWrite up .mgmt (pwsReg d 8)) ∧
    dieUp State.reset 0 = false := by
  unfold canWrite; decide +kernel

/-- Energy of a period: 1 µJ measured, nothing counted. -/
def idleEnergy : EnergySample := ⟨[], [], [], [], 1⟩

theorem witness_HeatDroopAndEnergy :
    (∀ d : Fin 2, dieUp up d = true) ∧
    (∀ l ∈ [[], [1]], let s : State := { powered {} with pws := { up.pws with spent := l } }
     dieUp s 1 = true ∧ (l = [1] → (1 : Fin 2).val ∈ s.pws.spent) ∧ (l = [] → (1 : Fin 2).val ∉ s.pws.spent) ∧ 16 ∈ trackOn s 1) ∧
    (0 ∉ trackOn (powered {}) 1) ∧
    (∀ d : Fin 2, let pj := fun p => (up.pws.gain * (nth 0 idleEnergy.hatches p : Nat)).floor.toNat + 691 * nth 0 idleEnergy.upes p
     (∀ n < 32, chKind up d n = 0) ∧ ((List.range 8).map pj).sum ≤ 1000000 * idleEnergy.measured) := by decide +kernel

/-- Partition 0 of octet 31 in the `active` state of its plate, its reset asked for where `q` says so; hatch 31 runs 50 ms
without progress on the way to the reset's hang timeout. -/
def holding (active : Nat) (q : Option ResetReq := none) : State := { up with
  parts := [(0, { octets := [31], share := 2, active := active, resetReq := q })]
  gens := [(31, { st := .starting, size := 1, hang := 50000 * 2 ^ 16 })] }

/-- A trip is latched, its hottest reading 80 °C and `t` quarters of a degree. -/
def tripped (t : Nat) : State := wr up (wrdReg 0x400) (1 + fld 9 12 (320 + t))

theorem witness_ResetsRunAndTripsLatch :
    (∀ d : Fin 2, canWrite up .app (rstReg d 4) ∧
      (∀ v ∈ [1, 2], partOf up (128 * d.val + bits (BitVec.ofNat 32 v).toNat 6 7) = none ∧ bits (BitVec.ofNat 32 v).toNat 0 3 = v) ∧
      ((part up (bits (59#32).toNat 3 3)).resetReq = none ∧ bits (59#32).toNat 0 3 = 3) ∧
      up.dieReq.contains d.val = false ∧ bits (4#32).toNat 0 3 = 4) ∧
    (∀ a ∈ [0, 1, 2, 3, 4], let s := holding a
     canWrite s .app (rstReg 1 4) ∧ partOf s (128 + 127) = some 0 ∧ plateLive s 0 = decide (1 ≤ a ∧ a ≤ 3) ∧ (part s 0).resetReq = none) ∧
    (let s := holding 2
     hangCounts (gen s 31) = true ∧ hangDue s 31 = true ∧ dieUp s (31 / 16) = true ∧ (part s (gen s 31).part).resetReq = none) ∧
    ((part (holding 3) 0).active = 3 ∧ (part (holding 3) 0).resetReq = none) ∧
    (let s := holding 2 (some ⟨2, 0, 0⟩)
     (part s 0).resetReq = some ⟨2, 0, 0⟩ ∧ dieUp s 0 = true ∧ dieUp s 1 = true ∧ (∀ k ∈ (part s 0).octets, k < 32) ∧ partDies s 0 = [1]) ∧
    (∀ d : Fin 2, ∀ p ∈ [0, 7], canWrite up .app (rstReg d (0x60 + 4 * p)) ∧ crashSt up 0 p = 0 ∧ crashSt up 1 p = 0) ∧
    (∀ d : Fin 2, let s : State := { up with dieDown := [d.val] }
     dieUp up d = true ∧ dieUp s d = false ∧ tripLatched s = false ∧ s.sup.inReset.contains d.val = false ∧ (domOf s d).st = 2 ∧
      s.dieDown.contains d.val = true ∧ s.dieDown.contains 2 = false) ∧
    (∀ k ∈ [1, 2], let s : State := { up with modReq := some (k, 15) }
     s.sup.standby = true ∧ s.modReq = some (k, 15) ∧ s.sup.modReset = false) ∧
    (let s : State := { up with dieDown := [1] }
     s.sup.standby = true ∧ s.modReq = none ∧ [0, 1].filter (resetting s) = [1]) ∧
    (let s := wr up (wrdReg 0x40C) 1
     s.sup.standby = true ∧ s.modReq = none ∧ warmInProgress s = true) ∧
    (∀ k ∈ [1, 2], canWrite up .mgmt (wrdReg 0x408) ∧ bits (BitVec.ofNat 32 (0x5A17 + 65536 * k)).toNat 0 16 = 0x5A17 ∧ up.modReq = none ∧
      bits (BitVec.ofNat 32 (0x5A17 + 65536 * k)).toNat 16 2 = k) ∧
    (let s : State := { setStk up 15 { temp := 440 } with pws := { up.pws with temps := [(17 + 16, 420)] } }
     s.sup.standby = true ∧ tripLatched s = false ∧ 440 ≤ (stk s 15).temp ∧ 420 ≤ dieHottest s 1 ∧
      (∀ k < 17, tget 0 s.pws.temps (17 * 1 + k) = dieHottest s 1 ↔ k = 16)) ∧
    (∀ t ∈ [0, 1], let s := tripped t
     tripLatched s = true ∧ canWrite s .mgmt (wrdReg 0x404) ∧ bits (0x7A1E#32).toNat 0 16 = 0x7A1E ∧
      (t = 0 → bits (rd s (wrdReg 0x400)) 9 12 ≤ 320) ∧ (t = 1 → 320 < bits (rd s (wrdReg 0x400)) 9 12)) := by
  unfold canWrite
  refine ⟨?_, ?_, ?_, ?_, ?_, ?_, ?_, ?_, ?_, ?_, ?_, ?_, ?_⟩ <;> decide +kernel

/-- A datagram's header and payload: operation, SEQ 5, address and length. -/
def dgram (op addr n : Nat) (p : List Byte := []) : List Byte :=
  leBytes 2 0x4D51 ++ [1, BitVec.ofNat 8 op] ++ leBytes 4 0 ++ leBytes 8 5 ++ leBytes 8 addr ++ leBytes 8 n ++ p

/-- The request with these bytes under its tag. -/
def signed (s : State) (m : List Byte) : MgmtReq := ⟨1, 2, m ++ mgmtTag (mgmtKey s) m⟩

/-- The module with its warden running. -/
def watched : State := wr up (wrdReg 0x40) 8

theorem asks_of {m : List Byte} {op : Nat} (h : 32 ≤ m.length ∧ dgNat m 0 2 = 0x4D51 ∧ dgNat m 2 1 = 1 ∧ dgOp m = op ∧
    watched.sec.seqMax < dgNat m 8 8 ∧ watched.sup.standby = true ∧ watched.sup.modReset = false) :
    asks watched (signed watched m) m op := ⟨rfl, h⟩

theorem witness_ManagementRequestsAreAnswered :
    (∀ e ∈ [(1, 4), (2, 8)], ∀ n ∈ [e.2, 1024], let m := dgram e.1 (wrdReg 0) n
     asks watched (signed watched m) m e.1 ∧ wardenUp watched = true ∧ dgNat m 0x10 8 % e.2 = 0 ∧ dgNat m 0x18 4 % e.2 = 0 ∧
      e.2 ≤ dgNat m 0x18 4 ∧ dgNat m 0x18 4 ≤ 1024 ∧ (∀ k < dgNat m 0x18 4 / e.2, isDevice (dgNat m 0x10 8 + e.2 * k) = false) ∧
      m.length = 32 ∧ ∃ u v bad, mgmtReads (dgNat m 0x18 4 / e.2) (takeSeq watched (dgNat m 8 8)) (dgNat m 0x10 8) e.2 [] = (u, v, bad)) ∧
    (∀ e ∈ [(3, 4), (4, 8)], ∀ n ∈ [e.2, 1024], let m := dgram e.1 (wrdReg 0) n (List.replicate n 7)
     asks watched (signed watched m) m e.1 ∧ wardenUp watched = true ∧ dgNat m 0x10 8 % e.2 = 0 ∧ dgNat m 0x18 4 % e.2 = 0 ∧
      e.2 ≤ dgNat m 0x18 4 ∧ dgNat m 0x18 4 ≤ 1024 ∧ (∀ k < dgNat m 0x18 4 / e.2, isDevice (dgNat m 0x10 8 + e.2 * k) = false) ∧
      m.length = 32 + dgNat m 0x18 4 ∧
      ∃ u k bad, mgmtWrites (dgNat m 0x18 4 / e.2) (takeSeq watched (dgNat m 8 8)) (dgNat m 0x10 8) e.2 (m.drop 32) 0 = (u, k, bad)) ∧
    (∀ n ∈ [0, 1024], let m := dgram 0x10 (8192 - 32) n
     asks watched (signed watched m) m 0x10 ∧ dgNat m 0x18 4 % 32 = 0 ∧ dgNat m 0x18 4 ≤ 1024 ∧
      dgNat m 0x10 8 + dgNat m 0x18 4 / 32 ≤ 8192 ∧ dgNat m 0x10 8 < 8192 ∧ m.length = 32) ∧
    (let m := dgram 0x11 0 0
     asks watched (signed watched m) m 0x11 ∧ dgNat m 0x18 4 = 0 ∧ dgNat m 0x10 8 = 0 ∧ m.length = 32) := by
  refine ⟨fun e he n hn => ⟨asks_of ?_, ?_, ?_, ?_, ?_, ?_, ?_, ?_, split₃ _⟩, fun e he n hn => ⟨asks_of ?_, ?_, ?_, ?_, ?_, ?_, ?_, ?_, split₃ _⟩,
    fun n hn => ⟨asks_of ?_, ?_⟩, asks_of ?_, ?_⟩
  all_goals first | decide +kernel | (revert n; decide +kernel) | (revert n; revert e; decide +kernel)

/-- Die 0's firmware holds the token, epoch 7. -/
def held : State := wr watched (wrdReg 0) (1 + fld 32 32 7)

theorem witness_SidebandAndToken :
    (wardenUp watched = true ∧ watched.sup.modReset = false) ∧
    (∀ a ∈ [wrdReg 0 - modBase, wrdReg 0x10 - modBase], a < 0x300000 ∧ ∃ u, regRead watched (modBase + (BitVec.ofNat 32 a).toNat) 4 = (u, some 0)) ∧
    (∀ a ∈ [0x2C, 0x404, 0x408], (BitVec.ofNat 32 a).toNat = a) ∧
    (∀ d : Fin 2, canWrite watched (.control d) (wrdReg (0x20 + 4 * d))) ∧
    (∀ d : Fin 2, held.sup.standby = true ∧ held.silent.contains d.val = false) ∧
    (∀ new ∈ [0, 1], let v := BitVec.ofNat 64 (1 + 4 * new + fld 32 32 7)
     canWrite held (.control 0) (wrdReg 8) ∧ bits v.toNat 0 2 = bits (rd held (wrdReg 0)) 0 2 ∧
      bits v.toNat 32 32 = bits (rd held (wrdReg 0)) 32 32 ∧ bits v.toNat 2 2 = new) ∧
    (let v := BitVec.ofNat 64 (1 + 4 * 1 + fld 32 32 7)
     canWrite held (.control 1) (wrdReg 8) ∧ ¬ (bits v.toNat 2 2 = 0 ∨ bits v.toNat 2 2 = (1 : Fin 2).val + 1)) ∧
    (∀ e ∈ [6, 7], dieUp held 1 = true ∧ dieUp held 0 = true ∧
      (bits (rd held (wrdReg 0)) 0 2 ≠ (1 : Fin 2).val + 1 ∨ bits (rd held (wrdReg 0)) 32 32 ≠ e)) ∧
    (bits (rd held (wrdReg 0)) 0 2 = (0 : Fin 2).val + 1 ∧ bits (rd held (wrdReg 0)) 32 32 ≠ (6#32).toNat) := by
  unfold canWrite
  have reads : ∀ {a v}, (regRead watched a 4).2 = some v → ∃ u, regRead watched a 4 = (u, some v) :=
    fun h => ⟨_, Prod.ext rfl h⟩
  refine ⟨by decide +kernel, fun a h => ⟨?_, reads ?_⟩, ?_, ?_, ?_, ?_, ?_, ?_, ?_⟩
  · revert a; decide +kernel
  · revert a; decide +kernel
  all_goals decide +kernel

/-- The module with `x` in its security controller. -/
def secured (x : Sec) : State := { up with sec := x }

theorem witness_SecurityCommands :
    (∀ c ∈ [0, 4], ∀ x ∈ [0, 1, 65],
     let s := secured { running := [(c + 1, (0, 64))] }
     let v := BitVec.ofNat 32 (c + 8 * x)
     canWrite s .mgmt (secReg 0x10) ∧ bits v.toNat 0 3 = c ∧ bits v.toNat 0 3 < 5 ∧ bits v.toNat 3 7 = x ∧
      (x ≤ 64 → x ≤ rollbackLimit s c) ∧ (x = 65 → rollbackLimit s c < x) ∧ (x = 0 → x ≤ nth 0 s.sec.fuses.rollback c) ∧
      (x ≠ 0 → nth 0 s.sec.fuses.rollback c < x)) ∧
    ((secured { advance := [(3, 64), (1, 2)] }).sec.advance = (3, 64) :: [(1, 2)] ∧ (3 : Nat) ≠ 4) ∧
    (canWrite up .app (secReg 0x24) ∧ bit (1#32).toNat 0 = true ∧ (secured {}).sec.quote = none ∧
      (secured { quote := some 9 }).sec.quote.isSome = true) ∧
    (∀ e ∈ [(2 ^ 20, 0), (2 ^ 20 - 1, 2 ^ 20)], let s := secured { quote := some 9, idNext := e.1, idRes := e.2 }
     s.sec.quote = some 9 ∧ (e.2 = 0 → 2 ^ 20 ≤ s.sec.idNext) ∧ (e.2 ≠ 0 → s.sec.idNext < 2 ^ 20 ∧ s.sec.idNext < s.sec.idRes)) ∧
    (canWrite up .app (secReg 0x2C) ∧ canWrite up .mgmt (secReg 0x2C) ∧ bits (5#32).toNat 0 3 = 5 ∧ bits (7#32).toNat 0 3 = 7) ∧
    (canWrite up .mgmt (secReg 0x30) ∧ bit (1#32).toNat 0 = true) ∧
    (∀ a ∈ [0, 0x3FF0000], let s := wr up (secReg 0x800) a
     canWrite s .mgmt (secReg 0x804) ∧ rd s (secReg 0x800) = a ∧ s.sec.flashOp = none ∧ flashRefused s 1 a = false ∧
      flashRefused s 2 a = false ∧ flashRefused s 3 a = false ∧ a + 0x10000 ≤ 0x4000000) ∧
    (∀ op ∈ [1, 3], let s := secured { flashOp := some (op, 0) }
     canWrite s .mgmt (secReg 0x804) ∧ s.sec.flashOp = some (op, 0) ∧ s.sec.flashOp.isSome = true) := by
  unfold canWrite
  refine ⟨?_, ?_, ?_, ?_, ?_, ?_, ?_, ?_⟩ <;> decide +kernel

/-- A box whose next queue is `k`, with one event of code 0x11 in it and `lost` lost before that. -/
def boxed (k lost : Nat) (fatal : Bool) : State := { up with
  bbx := { setBbxQueue { up.bbx with turn := k } k [⟨0x11, fatal, k, 0, 5, 6, 7⟩] with
    lost0 := lost
    lost1 := lost
    lost2 := lost
    seq := 2 ^ 32 - 1 } }

theorem witness_SamplingAndBlackBox :
    (∀ d : Fin 2, ∀ n ∈ [0, 15], let s := wr up (cntReg d (0x200 + 8 * n)) (2 ^ 33 + 5)
     canWrite s .app (cntReg d 4) ∧ (BitVec.ofNat 32 n).toNat % 16 = n ∧
      rd s (cntReg d (0x300 + 8 * n)) + rd s (cntReg d (0x200 + 8 * n)) % 2 ^ 33 < 2 ^ 64 ∧ canWrite s .app (cntReg d (0x100 + 4 * n))) ∧
    (∀ k ∈ [0, 1, 2], ∀ lost ∈ [0, 1], ∀ fatal ∈ [false, true], let s := boxed k lost fatal
     s.bbx.frozen = false ∧ s.bbx.pend = false ∧ s.bbx.turn % 3 = k ∧ bbxQueue s.bbx k = ⟨0x11, fatal, k, 0, 5, 6, 7⟩ :: [] ∧
      bbxLost s.bbx k = lost) ∧
    (∀ b ∈ [false, true], let s : State := { up with bbx := { up.bbx with pend := b } }
     s.bbx.pend = b ∧ canWrite s .app (bbxReg 4) ∧ bits (BitVec.ofNat 32 (0x2F0C * 2 ^ 16)).toNat 16 16 = 0x2F0C ∧ s.bbx.frozen = false) ∧
    (let s : State := { up with bbx := { up.bbx with frozen := true } }
     canWrite s .app (bbxReg 4) ∧ bits (BitVec.ofNat 32 (0x6C31 * 2 ^ 16)).toNat 16 16 = 0x6C31 ∧ s.bbx.frozen = true) := by
  unfold canWrite
  refine ⟨?_, ?_, ?_, ?_⟩ <;> decide +kernel

/-! ### The spec's worked cases -/

/-- 01_architecture.md, worked decode of logical pod 200. -/
theorem test_pod_200 : homeStack 200 = 12 ∧ spadBase + 200 * 2 ^ 21 = 0x010019000000 ∧ podReg 200 0 = 0x010100C80000 ∧
    mchReg 12 0 = 0x010201140000 := by decide +kernel

/-- 10_memory_stacks.md R246, worked decode of 0x0012_3456_7890. -/
theorem test_address_decode :
    locate { wr up (regionAddr 72 0) 1 with slabs := [(4 * 72 + 2, 37 * 2 ^ 18)] } 0x001234567890 = some ⟨9, 226, 1, 605, 5⟩ ∧
      mchReg 9 0 = 0x010201110000 := by decide +kernel

/-- 04_number_formats.md R94, worked quantisation into MXFP8: 3.1, 0.02 and −0.0004 as FP32. -/
theorem test_quantisation : quantBlock 3 (fun _ => .rne) [Machine.decode fp32 0x40466666, Machine.decode fp32 0x3CA3D70A,
    Machine.decode fp32 0xB9D1B717] = (0x78, [0x7C, 0x42, 0x95], fInexact) := by decide +kernel

/-- 04_number_formats.md R102, worked case, and the bound of r on both sides. -/
theorem test_stochastic_rounding : [0xB3F01C22, 0x4C190A07, 0xA0000000, 0x9FFFFFFF].map
    (fun r => (roundEnc bf16 (.sr r) false (Machine.decode fp32 0x3F806000)).1) = [0x3F81, 0x3F80, 0x3F81, 0x3F80] := by decide +kernel

/-- 04_number_formats.md R103–R105, worked case: the exact sum 16,777,231 becomes 16,777,232. -/
theorem test_chunk_sum : (closeChunk { acc := 0, sum := some (.fin false 16777231 0) }).acc = 0x4B800008 := by decide +kernel

/-- 09_scratchpad_copy.md, worked example of four-bit packing: the descriptor with STR1 = 6, 5 and 4. -/
def rows5 (str1 w : Nat) : Nat :=
  9 * 2 ^ 48 + 2 ^ 52 + w * 2 ^ 56 + 5 * 2 ^ 128 + 3 * 2 ^ 160 + 2 ^ 192 + 2 ^ 224 + 2 ^ 256 + 2 ^ 288 + str1 * 2 ^ 328

theorem test_four_bit_packing : let s : State := { up with ranges := [(0, { live := true, base := 0, len := 9, writable := true })] }
    [(6, 1), (5, 1), (4, 1), (4, 0)].map (fun e => describeTensor s (rows5 e.1 e.2) 0) = [0, 5, 8, 0] := by decide +kernel

/-- 11_memory_integrity.md R275, worked case: pin 5 fails in beats 10 to 25, and then pin 9 in beat 3. -/
theorem test_two_symbols_corrected :
    eccDecode hullF (0xFC00 * 2 ^ 160 + 0x3FF * 2 ^ 176) = .corrected [(10, 0xFC00), (11, 0x3FF)] ∧
      hullData (0xFC00 * 2 ^ 160 + 0x3FF * 2 ^ 176) = ((List.range 16).map (fun k => 2 ^ (16 * (k + 10) + 5))).sum := by decide +kernel
theorem test_three_symbols_uncorrectable :
    eccDecode hullF (0xFC00 * 2 ^ 160 + 0x3FF * 2 ^ 176 + 8 * 2 ^ 288) = .uncorrectable := by decide +kernel

/-- 16_power_thermal.md, worked example: the grants under a cap of 1,400 W and the ratios that follow. -/
theorem test_grants :
    (grantRows [⟨0, 1, 560, 735 / 100⟩, ⟨128, 1, 300, 394 / 100⟩, ⟨192, 3, 120, 1575 / 1000⟩] (867135 / 1000)).map
      (fun r => (8 * r.g).floor.toNat) = [8 * 494 + 7, 8 * 265, 8 * 120] ∧
      wantRatio 560 1 (3959 / 8) = 8 ∧ wantRatio 300 1 265 = 8 := by decide +kernel

/-! ### Single steps -/

/-- The state that a command answers, where it answers one. -/
def reached (o : Host.Outcome State Fault Refusal) : Option State :=
  match o with
  | .next t => some t
  | _ => none

/-- R404: a host cap below 600 W is raised to it. -/
theorem test_cap_clamps : reached (exec (.pwsCapHostWrite .app 0 100#32) up) = some (wr up (pwsReg 0 4) 600) := by decide +kernel
/-- R28: an unmapped address answers a bus error. -/
theorem test_unmapped_write : reached (exec (.coreMemoryWrite .app 0 [1]) up) = some (emit up (.busError 0)) := by decide +kernel
/-- R288: the bucket leaks one, and never below 0. -/
theorem test_bucket : reached (exec (.bucketLeak 3) (setStk up 3 { bucket := 2 })) = some (setStk up 3 { bucket := 1 }) ∧
    reached (exec (.bucketLeak 3) (setStk up 3 {})) = some (setStk up 3 {}) := by decide +kernel
/-- R56: a permit of 3 adds three. -/
theorem test_permits : (reached (exec (.permitWrite .app 0 3#32) (ran []))).map (fun t => (part t 0).permits) = some 3 := by decide +kernel

/-! ### Words and ill-formed commands -/

/-- The table of operations gives no row bits, so no word spells a command. -/
theorem test_no_word_spells_a_command (n w : Nat) : decodeTableWord n w = none := rfl

/-- A packet whose payload is not its UNITS of 64 bytes. -/
def illPacket : Packet := { pkt 1 0 with units := 1 }

theorem test_ill_formed_refused :
    [Instr.registerWrite .app 0 3 0, .registerWrite .app 0 4 (2 ^ 32), .coreMemoryWrite .app 0 [], .coreMemoryWrite .app 63 [1, 2],
     .scratchpadServiceAccess .app 0 16 none, .scratchpadServiceAccess .app 0 1 (some 256), .bootStage5 0 ⟨[136]⟩,
     .ethernetFrameReceived 0 (List.replicate 17 0), .jenostRequest 1 [], .dieTemperatureSample 0 [], .energyAccumulate 0 idleEnergy,
     .pcieInboundDma ⟨0, 0, none, 4097⟩, .pcieInboundDma ⟨0, 0, some [1], 2⟩].map WellFormed = List.replicate 13 false ∧
    [Instr.span 0 illPacket, .sync 0 illPacket, .late 0 illPacket, .freeze 0 illPacket, .spanAck 0 illPacket, .spanRefused 0 illPacket,
     .syncBroken 0 illPacket, .unreachable 0 illPacket, .idle 0 illPacket].map WellFormed = List.replicate 9 false := by decide +kernel

/-! ### Statements of several parts -/

theorem witness_MatrixArrayRuns : type_of% @witness_MatrixPlanesLoad ∧ type_of% @witness_MatrixStreamsDeliver :=
  ⟨witness_MatrixPlanesLoad, witness_MatrixStreamsDeliver⟩
theorem witness_StipplesRunTheirSlots : type_of% @witness_StipplesLaunchRelocatedRows ∧ type_of% @witness_StippleEndRepeats :=
  ⟨witness_StipplesLaunchRelocatedRows, witness_StippleEndRepeats⟩
theorem witness_RangeAndDescriptorCommands : type_of% @witness_RangesComeAndGo ∧ type_of% @witness_DescriptorsComeAndGo :=
  ⟨witness_RangesComeAndGo, witness_DescriptorsComeAndGo⟩

end Sys2Proof.Tests
end

section
/-! SUPPORT. Register writes by REGISTER_WRITE: widths and alignment of the map, the register that an access names, the
addresses beside the registers, and the registers of pods, of copy channels and under the boot lock (R6–R10, R25–R29). -/

namespace Sys2Proof.Machine

open Sys2Proof

/-! ### Widths of registers (R6) -/

/-- An offset that some entry of a list of offsets holds is a multiple of `m` where every first offset and step is. -/
theorem hit_mod {m o : Nat} {l : List (Nat × Nat × Nat)} (hl : ∀ e ∈ l, e.1 % m = 0 ∧ e.2.2 % m = 0)
    (h : l.any (fun e => decide (e.1 ≤ o ∧ o ≤ e.2.1) && (o - e.1) % e.2.2 == 0) = true) : o % m = 0 := by
  obtain ⟨e, he, hit⟩ := List.any_eq_true.mp h
  obtain ⟨hfirst, hstep⟩ := hl e he
  simp only [Bool.and_eq_true, decide_eq_true_eq, beq_iff_eq] at hit
  obtain ⟨⟨hle, -⟩, hmul⟩ := hit
  have hd : m ∣ o - e.1 := (Nat.dvd_of_mod_eq_zero hstep).trans (Nat.dvd_of_mod_eq_zero hmul)
  exact Nat.mod_eq_zero_of_dvd ((Nat.dvd_sub_iff_left hle (Nat.dvd_of_mod_eq_zero hfirst)).mp hd)

/-- A width at offset `o` that R6 allows: none, 32 bits at a multiple of 4, or 64 bits at a multiple of 8. -/
def Aligned (o width : Nat) : Prop := width = 0 ∨ (width = 32 ∧ o % 4 = 0) ∨ (width = 64 ∧ o % 8 = 0)

theorem aligned_zero (o : Nat) : Aligned o 0 := .inl rfl

/-- The offsets of 32-bit registers are multiples of 4, and those of 64-bit ones of 8. -/
abbrev ListsAligned (a b : List (Nat × Nat × Nat)) : Prop :=
  (∀ e ∈ a, e.1 % 4 = 0 ∧ e.2.2 % 4 = 0) ∧ (∀ e ∈ b, e.1 % 8 = 0 ∧ e.2.2 % 8 = 0)

theorem aligned_widthIn {o : Nat} {a b : List (Nat × Nat × Nat)} (h : ListsAligned a b) : Aligned o (widthIn o a b) := by
  unfold widthIn
  dsimp only
  split
  · exact .inr (.inl ⟨rfl, hit_mod h.1 ‹_›⟩)
  · split
    · exact .inr (.inr ⟨rfl, hit_mod h.2 ‹_›⟩)
    · exact aligned_zero o

/-- Alignment is that of the offset in a block whose size is a multiple of 8. -/
theorem Aligned.of_mod {o n width : Nat} (hn : n % 8 = 0) (h : Aligned (o % n) width) : Aligned o width := by
  have h8 : o % n % 8 = o % 8 := Nat.mod_mod_of_dvd o (Nat.dvd_of_mod_eq_zero hn)
  unfold Aligned at *
  omega

theorem aligned_cpyW (o : Nat) : Aligned o (cpyW o) := by
  unfold cpyW
  split
  · exact .of_mod (n := 0x100) rfl (aligned_widthIn (by decide))
  · exact aligned_widthIn (by decide)

theorem aligned_mchW (k o : Nat) : Aligned o (mchW k o) := by
  unfold mchW
  split
  · split
    · exact .inr (.inr ⟨rfl, ‹_›⟩)
    · exact aligned_zero o
  · exact aligned_widthIn (by decide)

theorem aligned_rylW (o : Nat) : Aligned o (rylW o) := by
  unfold rylW
  split
  · exact .of_mod (n := 0x40) rfl (aligned_widthIn (by decide))
  · exact aligned_widthIn (by decide)

theorem aligned_apcW (o : Nat) : Aligned o (apcW o) := by
  unfold apcW
  split
  · exact .of_mod (n := 0x100) rfl (aligned_widthIn (by decide))
  · split
    · exact .of_mod (n := 0x40) rfl (aligned_widthIn (by decide))
    · exact aligned_widthIn (by decide)

/-- Every register is 32 or 64 bits wide and naturally aligned (R6). -/
theorem aligned_regWidth (a : Nat) : Aligned a (regWidth a) := by
  have block : ∀ {width}, Aligned (a % 0x100000) width → Aligned a width := .of_mod rfl
  have stack : ∀ {width}, Aligned (a % 0x100000 % 0x10000) width → Aligned a width := fun h => block (.of_mod rfl h)
  unfold regWidth blockOf
  dsimp only
  split
  · exact .of_mod (n := 0x10000) rfl (aligned_widthIn (by decide))
  · split
    · split
      · exact block (aligned_cpyW _)
      · split
        · exact stack (aligned_mchW _ _)
        · exact aligned_zero a
      · split
        · exact stack (aligned_widthIn (by decide))
        · exact aligned_zero a
      · exact block (aligned_widthIn (by decide))
      · exact block (aligned_rylW _)
      · exact block (aligned_widthIn (by decide))
      · exact block (aligned_widthIn (by decide))
      · exact block (aligned_widthIn (by decide))
      · exact aligned_zero a
    · split
      · split
        · exact block (aligned_widthIn (by decide))
        · exact block (aligned_widthIn (by decide))
        · exact block (aligned_widthIn (by decide))
        · exact block (aligned_apcW _)
      · exact aligned_zero a

/-! ### The register that an access names (R6, R10) -/

/-- No register takes an access of another width, a misaligned one, or one that no register's width fits. -/
theorem regAccess_eq_none {a w : Nat}
    (h : (w ≠ 4 ∧ w ≠ 8) ∨ a % w ≠ 0 ∨ (w = 8 ∧ regWidth a ≠ 64) ∨
      (w = 4 ∧ regWidth a = 0 ∧ (4 ≤ a → regWidth (a - 4) ≠ 64))) : regAccess a w = none := by
  unfold regAccess
  by_cases h8 : w = 8
  · subst h8
    rw [if_neg (by omega), if_neg (by omega)]
  · rw [if_neg (by omega)]
    by_cases h4 : w = 4
    · subst h4
      by_cases ha : a % 4 = 0
      · rw [if_pos ⟨rfl, ha⟩, if_neg (by omega), if_neg (by omega), if_neg (by omega)]
      · rw [if_neg (by omega)]
    · rw [if_neg (by omega)]

/-- A 32-bit register takes an access of 32 bits. -/
theorem regAccess_32 {a : Nat} (hw : regWidth a = 32) : regAccess a 4 = some (a, .whole) := by
  have ha : a % 4 = 0 := by have := aligned_regWidth a; unfold Aligned at this; omega
  unfold regAccess
  rw [if_neg (by omega), if_pos ⟨rfl, ha⟩, if_pos hw]

/-- A 64-bit register takes an access of 64 bits. -/
theorem regAccess_64 {a : Nat} (hw : regWidth a = 64) : regAccess a 8 = some (a, .whole) := by
  have ha : a % 8 = 0 := by have := aligned_regWidth a; unfold Aligned at this; omega
  unfold regAccess
  rw [if_pos ⟨rfl, ha, hw⟩]

/-- An access that names a register begins at it or at its upper half. -/
theorem regAccess_eq_some {addr w a : Nat} {half : Half} (h : regAccess addr w = some (a, half)) :
    addr = a ∨ addr = a + 4 := by
  unfold regAccess at h
  split_ifs at h with h8 h4 h32 h64 hup
  · simp_all
  · simp_all
  · simp_all
  · obtain ⟨rfl, -⟩ := Prod.mk.inj (Option.some.inj h)
    omega

/-! ### Addresses beside the registers (R25, R443, R444) -/

/-- A doorbell lies in the interrupt controllers' range, and is 4 bytes wide and aligned. -/
theorem doorbell_eq_some {a n f : Nat} (h : doorbell a n = some f) : isDevice a = true ∧ n = 4 ∧ a % 4 = 0 := by
  unfold doorbell imsicFile at h
  split at h
  · rename_i hf
    split_ifs at hf with hrange
    obtain ⟨-, hpage⟩ := Prod.mk.inj (Option.some.inj hf)
    split_ifs at h with hn
    refine ⟨?_, hn, by omega⟩
    unfold isDevice apcReg modBase at *
    exact decide_eq_true (by omega)
  · cases h

theorem doorbell_eq_none {a n : Nat} (h : isDevice a = false ∨ n ≠ 4 ∨ a % 4 ≠ 0) : doorbell a n = none := by
  cases hd : doorbell a n with
  | none => rfl
  | some f =>
    obtain ⟨hdev, hn, ha⟩ := doorbell_eq_some hd
    simp_all

/-- Only a well-formed access in the devices' range stops the model. -/
theorem deviceStop_eq_false {s : State} {a w : Nat} {write : Bool}
    (h : isDevice a = false ∨ (w ≠ 4 ∧ w ≠ 8) ∨ a % w ≠ 0) : deviceStop s a w write = false := by
  unfold deviceStop
  rcases h with h | ⟨h4, h8⟩ | h
  · simp [h]
  · simp [h4, h8]
  · simp [h]

/-! ### Register writes (R6–R10) -/

/-- An access that names no register is a bus error and changes nothing. -/
theorem regWrite_none {s : State} {r : Requester} {addr w v : Nat} (h : regAccess addr w = none) :
    regWrite s r addr w v = (s, true) := by
  simp [regWrite, h]

theorem regRead_none {s : State} {addr w : Nat} (h : regAccess addr w = none) : regRead s addr w = (s, none) := by
  simp [regRead, h]

/-- A write by a requester with rights, of a register that answers, acts. -/
theorem regWrite_go {s : State} {r : Requester} {addr w v a : Nat} {half : Half}
    (h : regAccess addr w = some (a, half)) (hcopy : a ≠ pwsReg 0 8) (hreach : canReach s r a = true)
    (hmay : mayWrite r a = true) : regWrite s r addr w v = (regStore s r a half v, false) := by
  simp [regWrite, h, capCopy, hcopy, hreach, hmay]

/-- A whole write of a register that no lock holds follows its field's code. -/
theorem regStore_whole {s : State} {r : Requester} {a v : Nat} (h : isRwl a = false) :
    regStore s r a .whole v = regPut s r a v := by
  simp [regStore, mergeHalf, h]

/-- Above memory and below the outbound window, and beside the pods, a write is one of a register. -/
theorem mapWrite_reg {s : State} {r : Requester} {a w v : Nat} (hp : isPcie a = false) (hd : doorbell a w = none)
    (hpod : isPodReg a = false ∨ regAccess a w = none) : mapWrite s r a w v = regWrite s r a w v := by
  rcases hpod with h | h
  · simp [mapWrite, hp, hd, h]
  · simp [mapWrite, hp, hd, h]

/-- REGISTER_WRITE that does not stop the model answers what the map answers. -/
theorem exec_registerWrite {r : Requester} {addr : BitVec 48} {w : Nat} {v : BitVec 64} {s : State}
    (h : deviceStop s addr.toNat w true = false) :
    exec (.registerWrite r addr w v) s = .next (
      if (mapWrite s r addr.toNat w v.toNat).2 then emit (mapWrite s r addr.toNat w v.toNat).1 (.busError addr.toNat)
      else (mapWrite s r addr.toNat w v.toNat).1) := by
  show execRegisterWrite r addr w v s = _
  unfold execRegisterWrite
  rw [h]
  rfl

/-! ### Registers of the dies and pods -/

theorem isDieReg_iff {a : Nat} : isDieReg a = true ↔ 0x010200000000 ≤ a ∧ a < 0x010202000000 := by
  simp [isDieReg, dieBase]

theorem isDevice_of_lt {a : Nat} (h : a < modBase) : isDevice a = false := by
  unfold isDevice apcReg
  exact decide_eq_false (by omega)

theorem isPcie_of_lt {a : Nat} (h : a < modBase) : isPcie a = false := by
  unfold modBase at h
  exact decide_eq_false (by omega)

/-- Locked registers lie in the dies' control blocks (R8). -/
theorem isDieReg_of_isRwl {a : Nat} (h : isRwl a = true) : isDieReg a = true := by
  unfold isRwl at h
  exact (Bool.and_eq_true_iff.mp h).1

theorem isAlwaysOn_of_isDieReg {a : Nat} (h : isDieReg a = true) : isAlwaysOn a = false := by
  have hd := isDieReg_iff.mp h
  unfold isAlwaysOn modBase
  exact decide_eq_false (by omega)

/-- A register that acts on its write and holds nothing is not RWL. -/
theorem isRwl_of_holdsNothing {a : Nat} (h : holdsNothing a = true) : isRwl a = false := by
  obtain ⟨b, q, hb⟩ : ∃ b q, blockOf a = (b, q) := ⟨_, _, rfl⟩
  unfold holdsNothing at h
  rw [hb] at h
  simp only [Bool.or_eq_true, Bool.and_eq_true, beq_iff_eq] at h
  rcases h with ⟨-, ⟨⟨rfl, -⟩, -⟩ | ⟨rfl, rfl⟩⟩ | rfl
  · simp [isRwl, hb]
  · simp [isRwl, hb]
  · decide

/-- A locked register takes no write: the write is discarded and counted (R9). -/
theorem regStore_locked {s : State} {r : Requester} {a v : Nat} {half : Half} (h : isRwl a = true)
    (hl : lockOpen s r a = false) : regStore s r a half v = violate s a := by
  have hholds : holdsNothing a = false := by
    by_contra hc
    simp [isRwl_of_holdsNothing (Bool.eq_true_of_not_eq_false hc)] at h
  have hm : (mergeHalf s a half v).1 = s := by
    unfold mergeHalf
    rw [hholds]
    cases half <;> rfl
  simp [regStore, h, hm, hl]

theorem lockOpen_eq_false {s : State} {r : Requester} {a : Nat}
    (h : s.modLock = true ∨ s.locked.contains (dieOfReg a) = true) : lockOpen s r a = false := by
  unfold lockOpen
  rcases h with h | h <;> rw [h] <;> simp

/-- A die counts the writes that its error aggregation block discards (R9). -/
theorem violate_isDieReg {s : State} {a : Nat} (h : isDieReg a = true) : violate s a =
    { s with violations := tset s.violations (dieOfReg a) (tget 0 s.violations (dieOfReg a) + 1) } := by
  unfold violate
  rw [isAlwaysOn_of_isDieReg h]
  rfl

/-- REGISTER_WRITE of a die's register by a requester with rights, of a unit that answers. -/
theorem exec_registerWrite_die {r : Requester} {addr : BitVec 48} {w a : Nat} {half : Half} {v : BitVec 64} {s : State}
    (h : regAccess addr.toNat w = some (a, half)) (hdie : isDieReg a = true) (hcopy : a ≠ pwsReg 0 8)
    (hreach : canReach s r a = true) (hmay : mayWrite r a = true) :
    exec (.registerWrite r addr w v) s = .next (regStore s r a half v.toNat) := by
  have hd := isDieReg_iff.mp hdie
  have haddr := regAccess_eq_some h
  have hlt : addr.toNat < modBase := by unfold modBase; omega
  have hpod : isPodReg addr.toNat = false := by
    unfold isPodReg podBase
    exact decide_eq_false (by omega)
  have hdev := isDevice_of_lt hlt
  rw [exec_registerWrite (deviceStop_eq_false (.inl hdev)),
    mapWrite_reg (isPcie_of_lt hlt) (doorbell_eq_none (.inl hdev)) (.inl hpod), regWrite_go h hcopy hreach hmay]
  rfl

theorem chReg_eq (d n o : Nat) : chReg d n o = 0x010200000000 + (0x1000000 * d + (0x1000 + (0x100 * n + o))) := by
  unfold chReg dieBase
  omega

theorem isDieReg_chReg {d n o : Nat} (hd : d < 2) (hn : n < 32) (ho : o < 0x100) : isDieReg (chReg d n o) = true := by
  rw [isDieReg_iff, chReg_eq]
  omega

theorem blockOf_chReg {d n o : Nat} (hn : n < 32) (ho : o < 0x100) :
    blockOf (chReg d n o) = (0, 0x1000 + (0x100 * n + o)) := by
  unfold blockOf
  rw [chReg_eq]
  exact Prod.ext (by simp only; omega) (by simp only; omega)

theorem isPodReg_of_isDieReg {a : Nat} (h : isDieReg a = true) : isPodReg a = false := by
  have hd := isDieReg_iff.mp h
  unfold isPodReg podBase
  exact decide_eq_false (by omega)

theorem dieOfReg_chReg {d n o : Nat} (hd : d < 2) (hn : n < 32) (ho : o < 0x100) : dieOfReg (chReg d n o) = d := by
  have h := isDieReg_chReg hd hn ho
  unfold dieOfReg
  rw [isPodReg_of_isDieReg h, if_neg Bool.false_ne_true, if_pos h]
  unfold chReg dieBase
  omega

theorem regWidth_chReg {d n : Nat} (hd : d < 2) (hn : n < 32) : regWidth (chReg d n 0x18) = 64 := by
  have h := isDieReg_chReg (o := 0x18) hd hn (by decide)
  have hq : (0x1000 + (0x100 * n + 0x18)) % 0x100 = 0x18 := by omega
  unfold regWidth
  rw [blockOf_chReg hn (by decide), isPodReg_of_isDieReg h, h]
  show cpyW (0x1000 + (0x100 * n + 0x18)) = 64
  unfold cpyW
  rw [if_pos (by omega), hq]
  decide

/-- The ring base of a channel stores what is written (R238). -/
theorem regPut_chReg {s : State} {r : Requester} {d n v : Nat} (hd : d < 2) (hn : n < 32) :
    regPut s r (chReg d n 0x18) v = wr s (chReg d n 0x18) v := by
  have h := isDieReg_chReg (o := 0x18) hd hn (by decide)
  have hq : (0x1000 + (0x100 * n + 0x18)) % 0x100 = 0x18 := by omega
  have ha : cpyReg d (0x1000 + (0x100 * n + 0x18)) = chReg d n 0x18 := by
    unfold cpyReg chReg
    omega
  unfold regPut
  rw [blockOf_chReg hn (by decide), isPodReg_of_isDieReg h, h, dieOfReg_chReg hd hn (by decide)]
  show cpyPut s d (0x1000 + (0x100 * n + 0x18)) v = wr s (chReg d n 0x18) v
  unfold cpyPut
  rw [if_pos (by omega), hq, ha]
  rfl

theorem isRwl_chReg {d n o : Nat} (hn : n < 32) (ho : o < 0x100) : isRwl (chReg d n o) = false := by
  unfold isRwl
  rw [blockOf_chReg hn ho]
  simp

theorem chReg_ne_pwsReg {d n o : Nat} (hn : n < 32) (ho : o < 0x100) : chReg d n o ≠ pwsReg 0 8 := by
  intro h
  have hb := blockOf_chReg (d := d) hn ho
  rw [h] at hb
  exact absurd (Prod.mk.inj hb).1 (by decide)

theorem mayWrite_chReg {r : Requester} {d n o : Nat} (hd : d < 2) (hn : n < 32) (ho : o < 0x100) :
    mayWrite r (chReg d n o) = true := by
  have hb := (Prod.mk.inj (blockOf_chReg (d := d) hn ho)).1
  refine mayDie hd ?_ (by omega)
  rw [chReg_eq]
  unfold dieBase
  omega

theorem isPodReg_podReg {g o : Nat} (hg : g < 256) (ho : o < 0x10000) : isPodReg (podReg g o) = true := by
  unfold isPodReg podReg podBase
  exact decide_eq_true (by omega)

theorem podReg_mod {g o : Nat} (ho : o < 0x10000) : podReg g o % 0x10000 = o := by
  unfold podReg podBase
  omega

theorem podOf_podReg {g o : Nat} (ho : o < 0x10000) (hg : g < 256) : podOf (podReg g o) = g := by
  have hs : isSpad (podReg g o) = false := by
    unfold isSpad spadBase podReg podBase
    exact decide_eq_false (by omega)
  unfold podOf
  rw [hs]
  simp only [Bool.false_eq_true, if_false]
  unfold podReg
  omega

theorem regWidth_podReg {g o : Nat} (hg : g < 256) (ho : o < 0x10000) : regWidth (podReg g o) = podW o := by
  simp [regWidth, isPodReg_podReg hg ho, podReg_mod ho]

/-- The RW register POD_SLEEP_DELAY stores what is written (R86). -/
theorem podPut_rw (s : State) (g v : Nat) : podPut s (podReg g 0x204) v = wr s (podReg g 0x204) v := by
  unfold podPut
  rw [podReg_mod (by decide)]
  rfl

/-- The W1C register MXA_FLAGS loses the bits written 1 (R8). -/
theorem podPut_w1c (s : State) (g v : Nat) : podPut s (podReg g 0x408) v = clrBits s (podReg g 0x408) v := by
  unfold podPut
  rw [podReg_mod (by decide)]
  rfl

/-- The RO register POD_HATCH_STATUS takes no write (R8). -/
theorem podPut_ro (s : State) (g v : Nat) : podPut s (podReg g 0x200) v = s := by
  unfold podPut
  rw [podReg_mod (by decide)]
  rfl

theorem podReg_lt_modBase {g o : Nat} (hg : g < 256) (ho : o < 0x10000) : podReg g o < modBase := by
  unfold podReg podBase modBase
  omega

theorem isDieReg_podReg {g o : Nat} (hg : g < 256) (ho : o < 0x10000) : isDieReg (podReg g o) = false := by
  unfold isDieReg podReg podBase dieBase
  exact decide_eq_false (by omega)

theorem isRwl_podReg {g o : Nat} (hg : g < 256) (ho : o < 0x10000) : isRwl (podReg g o) = false := by
  simp [isRwl, isDieReg_podReg hg ho]

/-- The rights table of R447 names no register of a pod. -/
theorem mayWrite_podReg {r : Requester} {g o : Nat} (hg : g < 256) (ho : o < 0x10000) :
    mayWrite r (podReg g o) = true := by
  have hlt := podReg_lt_modBase hg ho
  have hmod : isModReg (podReg g o) = false := by
    unfold isModReg
    exact decide_eq_false (by omega)
  have hapc : ¬ (apcReg 0x10000 ≤ podReg g o ∧ podReg g o < apcReg 0x20000) := by
    unfold apcReg
    omega
  have hwrd : ∀ q, podReg g o ≠ wrdReg q := by
    intro q
    unfold wrdReg
    omega
  simp [mayWrite, mgmtOnly, hapc, hwrd, hmod, isDieReg_podReg hg ho]

/-- REGISTER_WRITE of a pod's register, by a requester that reaches it before and after its hatch has come to the next
service slot: it is made there (R29). -/
theorem exec_registerWrite_pod {r : Requester} {g o : Nat} {v : BitVec 64} {s : State} (hg : g < 256) (ho : o < 0x10000)
    (hw : podW o = 32) (hs : canReach s r (podReg g o) = true) (ht : canReach (toSlot s g) r (podReg g o) = true) :
    exec (.registerWrite r (BitVec.ofNat 48 (podReg g o)) 4 v) s = .next (podPut (toSlot s g) (podReg g o) v.toNat) := by
  have hlt := podReg_lt_modBase hg ho
  have hdev := isDevice_of_lt hlt
  have haddr : (BitVec.ofNat 48 (podReg g o)).toNat = podReg g o := by
    rw [BitVec.toNat_ofNat]
    unfold modBase at hlt
    omega
  have haccess : regAccess (podReg g o) 4 = some (podReg g o, .whole) := regAccess_32 (by rw [regWidth_podReg hg ho, hw])
  have hcopy : podReg g o ≠ pwsReg 0 8 := by
    have := podReg_lt g o hg ho
    unfold pwsReg
    omega
  have hmap : mapWrite s r (podReg g o) 4 v.toNat = (podPut (toSlot s g) (podReg g o) v.toNat, false) := by
    unfold mapWrite
    rw [isPcie_of_lt hlt, doorbell_eq_none (.inl hdev), podOf_podReg ho hg]
    simp only [isPodReg_podReg hg ho, haccess, hs, Option.isSome_some, Bool.and_true, Bool.false_eq_true, if_false, if_true]
    rw [regWrite_go haccess hcopy ht (mayWrite_podReg hg ho), regStore_whole (isRwl_podReg hg ho)]
    simp [regPut, isPodReg_podReg hg ho]
  rw [exec_registerWrite (by rw [haddr]; exact deviceStop_eq_false (.inl hdev)), haddr, hmap]
  rfl

end Sys2Proof.Machine
end

section
/-! SUPPORT. Service accesses to scratchpads: the next slot of a running hatch, and the read of a pod at rest (R3, R76). -/

namespace Sys2Proof.Machine

open Sys2Proof

/-! ### Service slots (R76) -/

/-- A search that has some answer finds one no later. -/
theorem findNat_le {n k : Nat} {p : Nat → Bool} (hk : k < n) (h : p k = true) :
    ∃ j, findNat n p = some j ∧ j ≤ k ∧ p j = true := by
  cases hf : findNat n p with
  | none =>
    have := List.find?_eq_none.mp hf k (List.mem_range.mpr hk)
    exact absurd h this
  | some j =>
    obtain ⟨hj, -, hmin⟩ := List.find?_range_eq_some.mp hf
    refine ⟨j, rfl, ?_, hj⟩
    by_contra hlt
    have := hmin k (by omega)
    simp [h] at this

/-- Of any `m` hc that follow each other one is a multiple of `m`. -/
theorem exists_slot_within {m : Nat} (h : Nat) (hm : 0 < m) : ∃ k, k < m ∧ (h + 1 + k) % m = 0 := by
  have hlt : h % m < m := Nat.mod_lt h hm
  refine ⟨m - 1 - h % m, by omega, ?_⟩
  have hsplit : h + 1 + (m - 1 - h % m) = m * (h / m + 1) := by
    have := Nat.div_add_mod h m
    rw [Nat.mul_add]
    omega
  rw [hsplit]
  exact Nat.mul_mod_right m _

/-- With no access waiting, the next service slot of a share of N comes within 64 / N hc. -/
theorem nextSlot_within {s : State} {n g : Nat} (hsvc : (pod s g).svc = [])
    (hshare : (part s (gen s n).part).share ∈ [1, 2, 4, 8]) :
    (gen s n).hc < nextSlot s n g ∧
      nextSlot s n g ≤ (gen s n).hc + 64 / (part s (gen s n).part).share ∧
      nextSlot s n g % (64 / (part s (gen s n).part).share) = 0 := by
  generalize hN : (part s (gen s n).part).share = N at *
  have hN0 : N ≠ 0 ∧ 0 < 64 / N ∧ 64 / N ≤ 64 := by
    simp only [List.mem_cons, List.not_mem_nil, or_false] at hshare
    rcases hshare with rfl | rfl | rfl | rfl <;> decide
  obtain ⟨hne, hpos, hle⟩ := hN0
  have hslot : ∀ h, svcSlot s n h = true ↔ h % (64 / N) = 0 := by
    intro h
    simp [svcSlot, isSvcSlot, hN, hne]
  obtain ⟨k, hk, hmul⟩ := exists_slot_within (gen s n).hc hpos
  obtain ⟨j, hfind, hj, hhit⟩ := findNat_le (n := 64)
    (p := fun k => svcSlot s n ((gen s n).hc + 1 + k)) (by omega) ((hslot _).mpr hmul)
  have hnext : nextSlot s n g = (gen s n).hc + 1 + j := by
    simp [nextSlot, hsvc, hfind]
  rw [hnext]
  exact ⟨by omega, by omega, (hslot _).mp hhit⟩

/-! ### Reads of a scratchpad at rest (R3, R281, R286) -/

theorem settleSpad_of_nil {p : Pod} (h : Nat) (hp : p.spadPend = []) : settleSpad p h = p := by
  cases p
  subst hp
  rfl

theorem flushCe_of_nil {s : State} {g : Nat} (reader : Nat) (h : (pod s g).ceLog = []) : flushCe s g reader = s := by
  simp [flushCe, h]

theorem noteWords_of_nil {p : Pod} (ws : List Nat) (h : p.errs = []) : noteWords p ws = p := by
  simp [noteWords, h]

theorem clearCeLog_of_nil {p : Pod} (h : p.ceLog = []) : { p with ceLog := [] } = p := by
  cases p
  subst h
  rfl

theorem wordBad_of_nil {p : Pod} (w : Nat) (h : p.errs = []) : wordBad p w = false := by
  rw [wordBad, h]
  exact eccBad_husk_zero

/-- Without wrong symbols a reader sees the cells. -/
theorem spadRead_of_nil {p : Pod} (o w : Nat) (h : p.errs = []) : spadRead p o w = mread p.spad o w := by
  rw [spadRead, h]
  rfl

/-- A read of a scratchpad at rest finds no bad word, and leaves the pod as it is. -/
theorem spadTouch_quiet {s : State} {g : Nat} (h o w reader : Nat) (hq : quietSpad (pod s g)) :
    spadTouch s g h o w reader = (setPod s g (pod s g), false) := by
  obtain ⟨herrs, hpend, hlog⟩ := hq
  have hlog' : (pod (setPod s g (pod s g)) g).ceLog = [] := by rw [pod_setPod_same, hlog]
  have hbad : (wordsOf o w).filter (wordBad (pod s g)) = [] := by
    simp [List.filter_eq_nil_iff, wordBad_of_nil _ herrs]
  unfold spadTouch
  dsimp only
  rw [settleSpad_of_nil h hpend, clearCeLog_of_nil hlog, noteWords_of_nil _ herrs, flushCe_of_nil _ hlog,
    flushCe_of_nil _ hlog', hbad]
  rfl

/-- A read of a scratchpad at rest answers the little-endian value of its bytes. -/
theorem podAccess_quiet {s : State} {r : Requester} {a : Nat} (w h : Nat) (hs : isSpad a = true)
    (hq : quietSpad (pod s (podOf a))) :
    podAccess s r a w h none =
      (setPod s (podOf a) (pod s (podOf a)), some (mread (pod s (podOf a)).spad (a % 0x200000) w)) := by
  obtain ⟨herrs, -, -⟩ := id hq
  unfold podAccess spadAccess
  rw [if_pos hs, spadTouch_quiet _ _ _ _ hq]
  simp only [pod_setPod_same, spadRead_of_nil _ _ herrs, Bool.false_eq_true, if_false]

/-- A read that finds its bytes is answered with them, whoever made it. -/
theorem podAnswer_value (s : State) (r : Requester) (a v : Nat) : podAnswer s r a none (some v) = emit s (.value a v) := rfl

/-! ### Service accesses (R29, R76) -/

/-- An access to a pod of a running hatch waits for its next slot. -/
theorem serviceAccess_running {s : State} {r : Requester} {a w n : Nat} {write : Option Nat}
    (hspan : podSpanOk a w = true) (hreach : podReach s r (podOf a) = true) (hhatch : (pod s (podOf a)).hatch = some n)
    (hrun : running s n = true) :
    serviceAccess s r a w write = modPod s (podOf a) (fun p => { p with
      svc := p.svc ++ [⟨whoOf r, a, w, write.getD 0, write.isSome, nextSlot s n (podOf a), []⟩] }) := by
  simp [serviceAccess, hspan, hreach, hhatch, hrun]

/-- An access to a pod whose hatch is not running is served at once. -/
theorem serviceAccess_stopped {s : State} {r : Requester} {a w : Nat} {write : Option Nat}
    (hspan : podSpanOk a w = true) (hreach : podReach s r (podOf a) = true)
    (hstop : ∀ n, (pod s (podOf a)).hatch = some n → running s n = false) :
    ∃ h, serviceAccess s r a w write =
      podAnswer (podAccess s r a w h write).1 r a write (podAccess s r a w h write).2 := by
  cases hhatch : (pod s (podOf a)).hatch with
  | none => exact ⟨(gen s (podGen s (podOf a))).hc, by simp [serviceAccess, hspan, hreach, hhatch]⟩
  | some n => exact ⟨(gen s n).hc, by simp [serviceAccess, hspan, hreach, hhatch, hstop n hhatch]⟩

/-- The state in which the oldest access `x` of a pod is made: it has left the pod's list `q`, and a running hatch has
come to its slot. -/
def atService (s : State) (g : Nat) (x : SvcAcc) (q : List SvcAcc) : State :=
  let t := modPod s g (fun p => { p with svc := q })
  if running t (podGen t g) = true then bringTo t (podGen t g) x.slot else t

/-- The oldest access of a pod that is a read is made in its slot and answered. -/
theorem serviceDone_read {s : State} {g : Nat} {x : SvcAcc} {q : List SvcAcc} (hsvc : (pod s g).svc = x :: q)
    (hread : x.write = false) : ∃ h, serviceDone s g =
      podAnswer (podAccess (atService s g x q) (requesterOf x.who) x.addr x.width h none).1 (requesterOf x.who) x.addr none
        (podAccess (atService s g x q) (requesterOf x.who) x.addr x.width h none).2 := by
  unfold serviceDone
  rw [hsvc]
  simp only [hread, Bool.false_eq_true, if_false]
  exact ⟨_, rfl⟩

theorem exec_scratchpadServiceAccess (r : Requester) (addr : BitVec 48) (w : Nat) (v : Option (BitVec 64)) (s : State) :
    exec (.scratchpadServiceAccess r addr w v) s = .next (serviceAccess s r addr.toNat w (v.map BitVec.toNat)) := rfl

theorem exec_serviceAccessComplete (g : Fin 256) (s : State) :
    exec (.serviceAccessComplete g) s = .next (serviceDone s g) := rfl

end Sys2Proof.Machine
end

section
/-! The statements about accesses (00_scope.md). -/

open Sys2Proof Sys2Proof.Machine

/-- Settles O7: widths and alignment block by block, then the one map lookup that reads and writes share. -/
theorem wrongAccessIsABusError : Obligations.WrongAccessIsABusError := by
  refine ⟨fun a => ?_, fun r addr w v s hpcie hdevice hbad => ?_⟩
  · have h := aligned_regWidth a
    unfold Aligned at h
    omega
  · have hnone : regAccess addr.toNat w = none := regAccess_eq_none hbad
    have hbell : doorbell addr.toNat w = none := by
      apply doorbell_eq_none
      by_cases hw : w = 4
      · subst hw
        rcases hdevice with h | h | h
        · exact .inl h
        · exact absurd rfl h.1
        · exact .inr (.inr h)
      · exact .inr (.inl hw)
    refine ⟨?_, regRead_none hnone⟩
    rw [exec_registerWrite (deviceStop_eq_false hdevice), mapWrite_reg hpcie hbell (.inr hnone), regWrite_none hnone]
    rfl

/-- Settles O9: the lock sends the write to the count of its die, whatever half it names. -/
theorem lockedWriteIsDiscarded : Obligations.LockedWriteIsDiscarded := by
  intro r addr w a half v s haccess hrwl ⟨hreach, hmay⟩ hlock
  have hdie := isDieReg_of_isRwl hrwl
  have hcopy : a ≠ pwsReg 0 8 := by
    rintro rfl
    exact absurd hrwl (by decide)
  rw [exec_registerWrite_die haccess hdie hcopy hreach hmay, regStore_locked hrwl (lockOpen_eq_false hlock),
    violate_isDieReg hdie]

/-- Settles O8: the codes of a pod's registers after its hatch has come to its service slot, then the ring base of a
copy channel. -/
theorem registerWritesFollowTheirCodes : Obligations.RegisterWritesFollowTheirCodes := by
  intro r s v
  refine ⟨?_, fun d hd n hn hreach => ?_⟩
  · intro g hg _ t hreach
    obtain ⟨hs204, ht204⟩ := hreach 0x204 (by decide)
    obtain ⟨hs408, ht408⟩ := hreach 0x408 (by decide)
    obtain ⟨hs200, ht200⟩ := hreach 0x200 (by decide)
    refine ⟨?_, ?_, ?_⟩
    · rw [exec_registerWrite_pod hg (by decide) (by decide) hs204 ht204, podPut_rw]
    · rw [exec_registerWrite_pod hg (by decide) (by decide) hs408 ht408, podPut_w1c]
    · rw [exec_registerWrite_pod hg (by decide) (by decide) hs200 ht200, podPut_ro]
  · have haddr : (BitVec.ofNat 48 (chReg d n 0x18)).toNat = chReg d n 0x18 := by
      rw [BitVec.toNat_ofNat, chReg_eq]
      omega
    have haccess : regAccess (BitVec.ofNat 48 (chReg d n 0x18)).toNat 8 = some (chReg d n 0x18, .whole) := by
      rw [haddr]
      exact regAccess_64 (regWidth_chReg hd hn)
    rw [exec_registerWrite_die haccess (isDieReg_chReg hd hn (by decide)) (chReg_ne_pwsReg hn (by decide)) hreach
      (mayWrite_chReg hd hn (by decide)), regStore_whole (isRwl_chReg hn (by decide)), regPut_chReg hd hn]

/-- Settles O12: the search for a slot within one period of the share, and one rule for the read of a scratchpad at rest,
which the immediate and the completed access share. -/
theorem serviceAccessesAreServed : Obligations.ServiceAccessesAreServed := by
  refine ⟨?_, ?_, ?_⟩
  · intro r addr w n v s hspan hreach hhatch hrun hsvc hshare
    obtain ⟨hlt, hle, hmul⟩ := nextSlot_within hsvc hshare
    refine ⟨nextSlot s n (podOf addr.toNat), hlt, hle, ?_, ?_⟩
    · have hdvd : 64 / (part s (gen s n).part).share ∣ 64 := by
        simp only [List.mem_cons, List.not_mem_nil, or_false] at hshare
        rcases hshare with h | h | h | h <;> rw [h] <;> decide
      rw [Nat.mod_mod_of_dvd _ hdvd, hmul]
    · rw [exec_scratchpadServiceAccess, serviceAccess_running hspan hreach hhatch hrun]
      simp [modPod, hsvc]
  · intro r addr w s hspad hspan hreach hstop hquiet
    obtain ⟨h, hserve⟩ := serviceAccess_stopped (write := none) hspan hreach hstop
    rw [exec_scratchpadServiceAccess, Option.map_none, hserve, podAccess_quiet _ _ hspad hquiet, podAnswer_value]
  · intro g x q s hsvc hread hspad hpod t u hquiet
    obtain ⟨h, hserve⟩ := serviceDone_read hsvc hread
    have hread := podAccess_quiet (s := u) (r := requesterOf x.who) x.width h hspad (hpod ▸ hquiet)
    rw [hpod] at hread
    rw [exec_serviceAccessComplete, hserve, show atService s g x q = u from rfl, hread, podAnswer_value]
end

section
/-! SUPPORT. Poison in a stored granule, requests for a module reset and errors of the bridge (R18, R278, R430), and what
one cycle of the always-on clock can change (R23, R427). -/

namespace Sys2Proof.Machine

open Sys2Proof

/-! ### Poison (R278) -/

/-- Poison changes the stores of the stacks and the marks of their channels alone. -/
theorem poisonGranule_shape (s : State) (l : Loc) : ∃ c,
    poisonGranule s l = { s with chans := c, mem := (poisonGranule s l).mem, memErr := (poisonGranule s l).memErr } := by
  refine ⟨(noteGranule s l).chans, ?_⟩
  unfold poisonGranule
  rw [putGranule_eq]

theorem granuleOvl_poisonGranule (s : State) (l : Loc) (pg : Nat) :
    granuleOvl (poisonGranule s l) pg = if pg = l.pg then poisonOf hullF else granuleOvl s pg :=
  granuleOvl_putGranule s l _ _ pg

/-- The data of a poisoned granule stay. -/
theorem readByte_poisonGranule (s : State) (l : Loc) (a : Nat) :
    readByte (poisonGranule s l).mem a = readByte s.mem a := by
  rw [poisonGranule, readByte_putGranule]
  split
  · rename_i hin
    rw [rawGranule, mread_byte _ _ _ _ (by omega), Nat.add_sub_cancel' hin.1]
  · rfl

/-! ### Requests for a module reset and bridge errors (R18, R430) -/

/-- A request to the warden changes the request that waits, and is that request where none waited. -/
theorem askModule_shape (s : State) (op cause : Nat) :
    ∃ q, askModule s op cause = { s with modReq := q } ∧ (s.modReq = none → q = some (op, cause)) := by
  unfold askModule
  split
  next o w hwaits =>
    split
    · exact ⟨_, rfl, fun _ => rfl⟩
    · exact ⟨s.modReq, rfl, fun hnone => nomatch hwaits.symm.trans hnone⟩
  next => exact ⟨_, rfl, fun _ => rfl⟩

/-- A bridge error at a mapped address: beside the poisoned granule, one fatal event with that address and a request for a
warm reset; which way the transfer went is drawn. -/
theorem bridgeError_located {s : State} {a : Nat} {l : Loc} (hloc : locate s a = some l) (hopen : s.bbx.frozen = false)
    (hroom : s.bbx.q2.length < 16) : ∃ c x q, ∃ e : BbxEvent, e.code = 2 ∧ e.fatal = true ∧ e.arg1 = a % 2 ^ 64 ∧
      (s.modReq = none → q = some (1, 2)) ∧
      bridgeError s a = { s with
        chans := c, mem := (poisonGranule s l).mem, memErr := (poisonGranule s l).memErr, freeCtr := x
        bbx := { s.bbx with q2 := s.bbx.q2 ++ [e] }, modReq := q } := by
  obtain ⟨c, hpoison⟩ := poisonGranule_shape s l
  unfold bridgeError
  simp only [hloc]
  generalize poisonGranule s l = p at hpoison ⊢
  generalize p.mem = m, p.memErr = o at hpoison ⊢
  subst hpoison
  obtain ⟨x, way, hpick⟩ := pickOf_shape { s with chans := c, mem := m, memErr := o } [0, 1]
  obtain ⟨e, hcode, hfatal, -, -, -, harg, hlog⟩ :=
    logEv_queued (s := { s with chans := c, mem := m, memErr := o, freeCtr := x }) (c := 2) (p := 0xFF) (a := way) (b := a)
      (f := true) hopen hroom
  obtain ⟨q, hask, hnone⟩ := askModule_shape { s with
    chans := c, mem := m, memErr := o, freeCtr := x, bbx := { s.bbx with q2 := s.bbx.q2 ++ [e] } } 1 2
  refine ⟨c, x, q, e, hcode, hfatal, harg, hnone, ?_⟩
  rw [hpick]
  dsimp only
  rw [hlog, hask]

theorem exec_bridgeUncorrectableError (addr : BitVec 48) {s : State} (h : s.sup.standby = true) :
    exec (.bridgeUncorrectableError addr) s = .next (bridgeError s addr.toNat) :=
  congrArg Host.Outcome.next (if_pos h)

/-! ### One cycle of the always-on clock (R23, R427) -/

/-- A stack's cycle: its time in KEEP_ONLY, and the register that counts it (R270). -/
theorem tickStack_shape (s : State) (st : Nat) : ∃ r k, tickStack s st = { s with regs := r, stks := k } := by
  unfold tickStack
  split
  · split
    · obtain ⟨r, h⟩ := bump_shape (modStk s st (fun x => { x with keepTicks := 0 })) (mchReg st 0x48) 1
      exact ⟨r, _, h⟩
    · exact ⟨_, _, rfl⟩
  · exact ⟨_, _, rfl⟩

/-- The cycles of several stacks. -/
theorem foldNat_tickStack_shape (n : Nat) (s : State) :
    ∃ r k, foldNat n (fun st s => tickStack s st) s = { s with regs := r, stks := k } := by
  refine foldNat_inv (fun t : State => ∃ r k, t = { s with regs := r, stks := k }) _ ?_ n s ⟨_, _, rfl⟩
  rintro st _ ⟨r, k, rfl⟩
  obtain ⟨r', k', h⟩ := tickStack_shape { s with regs := r, stks := k } st
  exact ⟨r', k', h⟩

/-- The sampling counters of the held hatches count the edges that the cycle withholds (R80, R421, R490). -/
theorem foldNat_sampleHeld_shape (n : Nat) (s : State) : ∃ r,
    foldNat n (fun n s => if (gen s n).st = .held then sample s n 1 (oppEdges (gen s n).opp) else s) s =
      { s with regs := r } := by
  refine foldNat_inv (fun t : State => ∃ r, t = { s with regs := r }) _ ?_ n s ⟨_, rfl⟩
  intro n t h
  split
  · exact sample_regs n 1 _ h
  · exact h

/-- With standby power the cycle is counted; beside the two counts it changes registers, the stacks' and the generators'
counts and the ages of the copies alone. -/
theorem tick_standby {s : State} (h : s.sup.standby = true) : ∃ r k g c, tick s = { s with
    now := s.now + 1, ticks := s.ticks + 1, regs := r, stks := k, gens := g, copies := c } := by
  obtain ⟨r, hheld⟩ := foldNat_sampleHeld_shape 32 s
  obtain ⟨r', k, hstacks⟩ := foldNat_tickStack_shape 16 { s with regs := r }
  unfold tick
  rw [if_pos h, hheld]
  simp only [hstacks]
  exact ⟨_, _, _, _, rfl⟩

/-- Without standby power only the module's time goes on. -/
theorem tick_unpowered {s : State} (h : s.sup.standby = false) : tick s = { s with now := s.now + 1 } := by
  unfold tick
  rw [if_neg (by simp [h])]

theorem step_nil {s : State} (h : s.pending = []) : step s = .next (tick s) := by
  unfold step
  rw [h]

end Sys2Proof.Machine
end

section
/-! The statements about the module's architecture (01_architecture.md). -/

open Sys2Proof Sys2Proof.Machine

/-- Settles O2: a cycle with standby power and one without, each a state with the changed fields replaced. -/
theorem emptyQueueTicks : Obligations.EmptyQueueTicks := by
  intro s hempty
  refine ⟨tick s, step_nil hempty, ?_⟩
  cases hstandby : s.sup.standby with
  | false => simp [tick_unpowered hstandby, hempty]
  | true =>
    obtain ⟨r, k, g, c, htick⟩ := tick_standby hstandby
    simp [htick, hempty]

/-- Settles O13: the poisoned granule with the rules of its overlay and bytes, beside the queued event and the request. -/
theorem bridgeErrorPoisonsAndResets : Obligations.BridgeErrorPoisonsAndResets := by
  intro addr s l hstandby hloc hopen hroom
  obtain ⟨c, x, q, e, hcode, hfatal, harg, hreq, herror⟩ := bridgeError_located hloc hopen hroom
  have harg1 : e.arg1 = addr.toNat := by
    rw [harg]
    omega
  have hovl (pg : Nat) : granuleOvl (bridgeError s addr.toNat) pg = granuleOvl (poisonGranule s l) pg := by
    unfold granuleOvl
    rw [herror]
  have hmem : (bridgeError s addr.toNat).mem = (poisonGranule s l).mem := by rw [herror]
  refine ⟨bridgeError s addr.toNat, e, exec_bridgeUncorrectableError addr hstandby, ?_, fun a => ?_, fun pg hne => ?_, ?_⟩
  · rw [hovl, granuleOvl_poisonGranule, if_pos rfl]
  · rw [hmem, readByte_poisonGranule]
  · rw [hovl, granuleOvl_poisonGranule, if_neg hne]
  · rw [herror]
    exact ⟨hreq, rfl, hfatal, hcode, harg1, rfl, rfl, rfl, rfl, rfl, rfl, rfl⟩
end

section
/-! SUPPORT. Hatch-wide waits: the first burin that reaches one, an addition to a consumer entry, and a release behind which
every burin goes on (R56, R72, R329). -/

namespace Sys2Proof.Machine

open Sys2Proof

/-! ### The first burin at a wait (R72, R329) -/

/-- A generator whose hatch waits since hc `t`, with one burin arrived. -/
def waitingGen (kind t arg delay : Nat) (x : Gen) : Gen :=
  { x with waitKind := kind, waitAt := t, waitArg := arg, waitPods := 1, sleepDelay := delay }

/-- Hatch `n` waits since hc `t`, and pod `g` is the first to stand at that wait (R72). -/
def firstAtWait (s : State) (n g t kind arg : Nat) : State :=
  modPod (modGen s n (waitingGen kind t arg (rd s (podReg (hatchLow n) 0x204)))) g
    (fun p => { p with burin := { p.burin with waiting := true } })

/-- In `u` pod `g` alone stands at the wait that hatch `n` began in hc `t`; beside its burin, the generator and the consumer
entries, `u` is `l`. -/
def StandsFirst (l u : State) (g n t : Nat) : Prop :=
  (pod u g).burin.waiting = true ∧ (gen u n).waitAt = t ∧ (gen u n).waitPods = 1 ∧ (gen u n).st = (gen l n).st ∧
    (gen u n).hc = (gen l n).hc ∧ (∀ q, q ≠ g → pod u q = pod l q) ∧ (∀ m, m ≠ n → gen u m = gen l m) ∧
    u.regs = l.regs ∧ u.parts = l.parts ∧ u.ctrs = l.ctrs ∧ u.mem = l.mem ∧ u.out = l.out

theorem gen_firstAtWait (s : State) (n g t kind arg : Nat) : gen (firstAtWait s n g t kind arg) n =
    waitingGen kind t arg (rd s (podReg (hatchLow n) 0x204)) (gen s n) := by
  simp [firstAtWait]

theorem firstAtWait_stands (s : State) (n g t kind arg : Nat) : StandsFirst s (firstAtWait s n g t kind arg) g n t := by
  unfold StandsFirst
  rw [gen_firstAtWait]
  refine ⟨?_, rfl, rfl, rfl, rfl, fun q hq => ?_, fun m hm => ?_, rfl, rfl, rfl, rfl, rfl⟩
  · simp [firstAtWait]
  · simp [firstAtWait, pod_modPod_ne _ _ _ _ hq]
  · simp [firstAtWait, gen_modGen_ne _ _ _ _ hm]

/-- A burin with a stroke after the wait is the first to reach it. -/
theorem joinWait_first {s : State} {n g t : Nat} (kind arg idx : Nat) (hgoes : ¬ endsAt s g t)
    (hnone : (gen s n).waitKind = 0) : joinWait s n g t kind arg idx = firstAtWait s n g t kind arg := by
  have hends : (!(moveOn (pod s g).burin t t).2 &&
      decide ((pod s g).burin.prog.length ≤ (moveOn (pod s g).burin t t).1.idx)) = false := by
    simpa [endsAt] using hgoes
  unfold joinWait
  simp only [hends, hnone, if_true, Bool.false_eq_true, if_false]
  rfl

theorem exec_permitWait {g : Fin 256} {n t w : Nat} {s : State} (hready : Ready s g n t w 10 1 (resv 32 127))
    (hgoes : ¬ endsAt (launched s g n t 10) g t) (hnone : (gen (launched s g n t 10) n).waitKind = 0) :
    exec (.permitWait g) s = .next (firstAtWait (launched s g n t 10) n g t 1 0) := by
  show Host.Outcome.next (permitWaitStroke s g) = _
  unfold permitWaitStroke
  rw [launchWith_go _ hready (by simp [hready.isUnit, hready.isOp]) rfl rfl, if_neg Bool.false_ne_true,
    joinWait_first _ _ _ hgoes hnone]

/-- The hatch's addition, where no rebase is due and the sum stays below the limit: it is made at once, and its sum is what the
wait needs (R329). -/
theorem askConsumer_firstAtWait {s : State} (n g t kind arg : Nat) {j k : Nat} {e : Consumer}
    (hentry : tget ⟨0, 0, 0, 0⟩ s.cons j = e) (hdue : rebaseDue s j = false) (hlimit : e.count + k < 2 ^ 48) :
    askConsumer (firstAtWait s n g t kind arg) n j k =
      modGen { firstAtWait s n g t kind arg with cons := tset s.cons j { e with count := e.count + k } } n
        (fun x => { x with waitNeed := e.count + k }) := by
  have hcons : (firstAtWait s n g t kind arg).cons = s.cons := rfl
  have hrebase : rebaseDue (firstAtWait s n g t kind arg) j = false := hdue
  unfold askConsumer addConsumer
  rw [hrebase, if_neg Bool.false_ne_true, hcons, hentry, if_neg (by omega)]

theorem gen_firstAtWait_needs (s : State) (n g t kind arg : Nat) (c : Tbl Consumer) (need : Nat) :
    gen (modGen { firstAtWait s n g t kind arg with cons := c } n (fun x => { x with waitNeed := need })) n =
      { waitingGen kind t arg (rd s (podReg (hatchLow n) 0x204)) (gen s n) with waitNeed := need } := by
  rw [gen_modGen_same, ← gen_firstAtWait s n g t kind arg]
  rfl

/-- What a wait needs may change while its first burin stands at it, and so may the consumer entries. -/
theorem StandsFirst.needs {l u : State} {g n t : Nat} (h : StandsFirst l u g n t) (c : Tbl Consumer) (need : Nat) :
    StandsFirst l (modGen { u with cons := c } n (fun x => { x with waitNeed := need })) g n t := by
  obtain ⟨hstands, hat, hpods, hst, hhc, hother, hgens, hrest⟩ := h
  unfold StandsFirst
  rw [gen_modGen_same]
  exact ⟨hstands, hat, hpods, hst, hhc, hother, fun m hm => (gen_modGen_ne _ _ _ _ hm).trans (hgens m hm), hrest⟩

theorem exec_wait {g : Fin 256} {n t w j : Nat} {s : State} (hready : Ready s g n t w 9 1 0) (hhigh : bits w 47 17 = 0)
    (hzero : bits w 96 32 = 0) (hentry : waitEntry (launched s g n t 9) n w = some j)
    (hgoes : ¬ endsAt (launched s g n t 9) g t) (hnone : (gen (launched s g n t 9) n).waitKind = 0) :
    exec (.wait g) s =
      .next (askConsumer (firstAtWait (launched s g n t 9) n g t 2 (bits w 32 96)) n j (bits w 64 32)) := by
  show Host.Outcome.next (waitStroke s g) = _
  unfold waitStroke
  rw [launchWith_go _ hready (by simp [hready.isUnit, hready.isOp]) rfl rfl, if_neg Bool.false_ne_true]
  have hkind : (gen (firstAtWait (launched s g n t 9) n g t 2 (bits w 32 96)) n).waitKind = 2 := by
    rw [gen_firstAtWait]
    rfl
  simp [hhigh, hzero, hentry, hnone, joinWait_first _ _ _ hgoes hnone, hkind]

/-! ### What counted edges leave of a generator -/

/-- Delivered edges move the count and the window of a generator. -/
theorem passEdges_shape (x : Gen) (k : Nat) : ∃ h r w b,
    passEdges x k = { x with hc := h, ratio := r, winPos := w, bubbleCount := b } := by
  unfold passEdges
  dsimp only
  split <;> exact ⟨_, _, _, _, rfl⟩

theorem slowed_shape (s : State) (n h : Nat) (y : Gen) : ∃ l a, slowed s n h y = { y with slow := l, ahead := a } := by
  unfold slowed
  dsimp only
  split
  · split <;> exact ⟨_, _, rfl⟩
  · exact ⟨_, _, rfl⟩

/-- Counting edges leaves a generator's hatch, wait and permits as they were. -/
theorem gen_reachHc_frame (s : State) (n h : Nat) :
    (gen (reachHc s n h) n).size = (gen s n).size ∧ (gen (reachHc s n h) n).part = (gen s n).part ∧
      (gen (reachHc s n h) n).permitWaits = (gen s n).permitWaits := by
  rw [gen_reachHc]
  split
  · obtain ⟨c, r, w, b, hpass⟩ := passEdges_shape (gen s n) (h - (gen s n).hc)
    obtain ⟨l, a, hslow⟩ := slowed_shape s n h (passEdges (gen s n) (h - (gen s n).hc))
    rw [hslow, hpass]
    exact ⟨rfl, rfl, rfl⟩
  · exact ⟨rfl, rfl, rfl⟩

theorem gen_reachHc_ne (s : State) (n h m : Nat) (hm : m ≠ n) : gen (reachHc s n h) m = gen s m := by
  unfold reachHc
  dsimp only
  split
  · rw [gen_setGen_ne _ _ _ _ hm]
    simp only [gen_sample]
    rw [countAll_frame]
    rfl
  · rfl

theorem hatchPods_congr {s t : State} {n : Nat} (h : (gen t n).size = (gen s n).size) : hatchPods t n = hatchPods s n := by
  unfold hatchPods
  rw [h]

theorem hatchPods_nodup (s : State) (n : Nat) : (hatchPods s n).Nodup :=
  List.nodup_range.map (fun _ _ h => Nat.add_left_cancel h)

/-! ### The release of a hatch-wide wait (R72) -/

/-- One update of each pod of a list, which each pod's own state `P` allows. -/
theorem foldl_pods {f : State → Nat → State} {P : Pod → Prop} {F : Pod → Pod}
    (hf : ∀ s g, P (pod s g) → f s g = modPod s g F) (l : List Nat) (s : State) (hl : l.Nodup)
    (hP : ∀ g ∈ l, P (pod s g)) : (∃ x, l.foldl f s = { s with pods := x }) ∧
      (∀ g ∈ l, pod (l.foldl f s) g = F (pod s g)) ∧ (∀ g, g ∉ l → pod (l.foldl f s) g = pod s g) := by
  induction l generalizing s with
  | nil => exact ⟨⟨s.pods, rfl⟩, nofun, fun _ _ => rfl⟩
  | cons a l ih =>
    obtain ⟨ha, hl⟩ := List.nodup_cons.mp hl
    have hother (g : Nat) (hg : g ≠ a) : pod (modPod s a F) g = pod s g := pod_modPod_ne _ _ _ _ hg
    have hne (g : Nat) (hg : g ∈ l) : g ≠ a := fun h => ha (h ▸ hg)
    rw [List.foldl_cons, hf s a (hP a List.mem_cons_self)]
    obtain ⟨⟨x, hx⟩, hin, hout⟩ := ih (modPod s a F) hl (fun g hg => by
      rw [hother g (hne g hg)]
      exact hP g (List.mem_cons_of_mem a hg))
    refine ⟨⟨x, hx⟩, fun g hg => ?_, fun g hg => ?_⟩
    · rcases List.mem_cons.mp hg with rfl | hg
      · rw [hout g ha, pod_modPod_same]
      · rw [hin g hg, hother g (hne g hg)]
    · obtain ⟨hga, hgl⟩ := not_or.mp (mt List.mem_cons.mpr hg)
      rw [hout g hgl, hother g hga]

/-- Past a stroke a burin keeps its program, whatever loops close. -/
theorem closeLoops_prog (fs : List LoopFrame) (next last u : Nat) (b : Burin) : (closeLoops fs next last u b).1.prog = b.prog := by
  induction fs with
  | nil => rfl
  | cons f fs ih =>
    unfold closeLoops
    split_ifs
    · rfl
    · rfl
    · exact ih
    · rfl

theorem moveOn_prog (b : Burin) (last u : Nat) : (moveOn b last u).1.prog = b.prog := closeLoops_prog _ _ _ _ _

/-- A burin from which the wait is taken, with the release cycle `r` as base of its loops (R71). -/
def unwaited (b : Burin) (r : Nat) : Burin :=
  { b with waiting := false, loops := b.loops.map (fun f => { f with base := r, based := true }) }

/-- The burin stands at a wait behind which its program goes on, from cycle `r`. -/
def GoesOnAt (r : Nat) (p : Pod) : Prop :=
  p.burin.waiting = true ∧ (moveOn (unwaited p.burin r) p.burin.curHc r).2 = false ∧
    (moveOn (unwaited p.burin r) p.burin.curHc r).1.idx < p.burin.prog.length

/-- The generator of a hatch whose wait is released. -/
def unwaitedGen (x : Gen) : Gen := { x with st := .running, waitKind := 0, waitPods := 0, hang := 0 }

/-- What a release does to one pod of the hatch: its burin goes on, or stops the hatch by its fault. -/
def releasePod (n c : Nat) (s : State) (g : Nat) : State :=
  let p := pod s g
  let b := unwaited p.burin (c + 4)
  let m := moveOn b p.burin.curHc (c + 4)
  if p.burin.waiting then
    if m.2 then strokeFault s n g c 4 b.idx
    else
      let s := setPod s g { p with burin := m.1 }
      if m.1.prog.length ≤ m.1.idx then strokeFault s n g c 5 b.idx else s
  else s

theorem releaseWait_eq (s : State) (n c : Nat) :
    releaseWait s n c = (hatchPods (modGen (reachHc s n c) n unwaitedGen) n).foldl (releasePod n c)
      (modGen (reachHc s n c) n unwaitedGen) := rfl

/-- A pod as its burin goes on from cycle `r`. -/
def wentOn (r : Nat) (p : Pod) : Pod := { p with burin := (moveOn (unwaited p.burin r) p.burin.curHc r).1 }

theorem releasePod_goes {n c g : Nat} {s : State} (h : GoesOnAt (c + 4) (pod s g)) :
    releasePod n c s g = modPod s g (wentOn (c + 4)) := by
  obtain ⟨hwait, hgood, hinside⟩ := h
  have hprog : ¬ (moveOn (unwaited (pod s g).burin (c + 4)) (pod s g).burin.curHc (c + 4)).1.prog.length ≤
      (moveOn (unwaited (pod s g).burin (c + 4)) (pod s g).burin.curHc (c + 4)).1.idx := by
    rw [moveOn_prog]
    exact Nat.not_le.mpr hinside
  unfold releasePod
  simp only [hwait, if_true]
  rw [if_neg (ne_true_of_eq_false hgood)]
  exact if_neg hprog

/-- A release behind which every burin goes on: the burins, the generator and counts of edges alone are changed. -/
theorem releaseWait_goes {s : State} {n c : Nat} (hgo : ∀ g ∈ hatchPods s n, GoesOnAt (c + 4) (pod s g)) :
    let t := releaseWait s n c
    (∃ p g r, t = { s with pods := p, gens := g, regs := r }) ∧
      (gen t n).st = .running ∧ (gen t n).waitKind = 0 ∧ (gen t n).permitWaits = (gen s n).permitWaits ∧
      (∀ m, m ≠ n → gen t m = gen s m) ∧ (∀ g ∈ hatchPods s n, pod t g = wentOn (c + 4) (pod s g)) ∧
      (∀ g, g ∉ hatchPods s n → pod t g = pod s g) := by
  obtain ⟨hsize, -, hpermits⟩ := gen_reachHc_frame s n c
  obtain ⟨e, r, hreach⟩ := reachHc_shape s n c
  have hpods : hatchPods (modGen (reachHc s n c) n unwaitedGen) n = hatchPods s n :=
    hatchPods_congr (by rw [gen_modGen_same]; exact hsize)
  have hpod (g : Nat) : pod (modGen (reachHc s n c) n unwaitedGen) g = pod s g := pod_reachHc s n c g
  rw [releaseWait_eq, hpods]
  obtain ⟨⟨x, hx⟩, hin, hout⟩ := foldl_pods (fun s g h => releasePod_goes (n := n) (s := s) (g := g) h)
    (hatchPods s n) (modGen (reachHc s n c) n unwaitedGen) (hatchPods_nodup s n) (fun g hg => by
      rw [hpod]
      exact hgo g hg)
  intro t
  have hgen (m : Nat) : gen t m = gen (modGen (reachHc s n c) n unwaitedGen) m := by
    show gen (List.foldl _ _ _) m = _
    rw [hx]
    rfl
  refine ⟨⟨x, (modGen (reachHc s n c) n unwaitedGen).gens, r, ?_⟩, ?_, ?_, ?_, fun m hm => ?_, fun g hg => ?_, fun g hg => ?_⟩
  · show List.foldl _ _ _ = _
    rw [hx]
    unfold modGen setGen
    rw [hreach]
  · rw [hgen, gen_modGen_same]
    rfl
  · rw [hgen, gen_modGen_same]
    rfl
  · rw [hgen, gen_modGen_same]
    exact hpermits
  · rw [hgen, gen_modGen_ne _ _ _ _ hm, gen_reachHc_ne _ _ _ _ hm]
  · exact (hin g hg).trans (congrArg _ (hpod g))
  · exact (hout g hg).trans (hpod g)

/-! ### The permit that begins a step (R56, R58, R311) -/

/-- Changes that wait at the counter units are all that may differ. -/
def OnlyChanges (s t : State) : Prop := ∃ x y, t = { s with changes0 := x, changes1 := y }

theorem OnlyChanges.queueChange {s t : State} (h : OnlyChanges s t) (d : Nat) (c : Change) :
    OnlyChanges s (queueChange t d c) := by
  obtain ⟨x, y, rfl⟩ := h
  unfold Machine.queueChange setChanges
  split <;> exact ⟨_, _, rfl⟩

theorem onlyChanges_frozenLists (s : State) (p : Nat) : OnlyChanges s (frozenLists s p) := by
  unfold frozenLists
  refine List.foldlRecOn (motive := OnlyChanges s) s.upes _ ⟨_, _, rfl⟩ fun t ht e _ => ?_
  split
  · exact List.foldlRecOn (motive := OnlyChanges s) e.2.layers _ ht fun t ht l _ => ht.queueChange _ _
  · exact ht

/-- A step's completion takes neither permits nor released steps. -/
theorem stepCheck_shape (s : State) (p : Nat) : ∃ x r, stepCheck s p = { s with parts := x, regs := r } ∧
    (part (stepCheck s p) p).permits = (part s p).permits ∧ (part (stepCheck s p) p).released = (part s p).released := by
  unfold stepCheck
  dsimp only
  split
  · refine ⟨_, _, rfl, ?_, ?_⟩ <;> simp [setBits]
  · exact ⟨_, _, rfl, rfl, rfl⟩

theorem exec_waitRelease_permit {n : Fin 32} {c : Nat} {s : State} (hready : waitReady s n c = true)
    (hkind : (gen s n).waitKind = 1) :
    exec (.waitRelease n c) s = .next (stepCheck (permitBegin s n c) (gen s n).part) := by
  show Host.Outcome.next (waitRelease s n c) = _
  unfold waitRelease
  rw [if_pos hready, if_pos hkind]

/-- The state in which a hatch has taken an outstanding permit for its next step. -/
def tookPermit (s : State) (n : Nat) : State :=
  modGen (modPart s (gen s n).part (fun q => { q with permits := q.permits - 1, released := q.released + 1 })) n
    (fun x => { x with permitWaits := x.permitWaits + 1 })

/-- The first hatch to reach its permit wait takes a permit (R56). -/
theorem permitRelease_takes {s : State} {n c : Nat} (hfirst : (part s (gen s n).part).released ≤ (gen s n).permitWaits)
    (hpermit : 0 < (part s (gen s n).part).permits) (hactive : (part s (gen s n).part).active = 2)
    (hfence : fenced s (gen s n).part = false) :
    permitRelease s n c = releaseWait (tookPermit s n) n c := by
  unfold permitRelease
  dsimp only
  rw [if_neg (Nat.not_lt.mpr hfirst), if_pos (by simp [hpermit, hactive, hfence])]
  rfl

/-- Beside the release, the frozen work lists' signals alone begin a step (R311). -/
theorem onlyChanges_permitBegin (s : State) (n c : Nat) : OnlyChanges (permitRelease s n c) (permitBegin s n c) := by
  unfold permitBegin
  dsimp only
  split
  · exact onlyChanges_frozenLists _ _
  · exact ⟨_, _, rfl⟩

end Sys2Proof.Machine
end

section
/-! SUPPORT. Plates: operations that leave every partition as it was, and the commands of a staged plate's life (R46, R47, R52,
R53, R60). -/

namespace Sys2Proof.Machine

open Sys2Proof

/-! ### Operations that leave every partition as it was -/

theorem part_congr {s t : State} (h : t.parts = s.parts) (p : Nat) : part t p = part s p := by
  unfold part
  rw [h]

theorem parts_foldl {α : Type} {f : State → α → State} (hf : ∀ s x, (f s x).parts = s.parts) (l : List α) (s : State) :
    (l.foldl f s).parts = s.parts :=
  List.foldlRecOn (motive := fun t : State => t.parts = s.parts) l f rfl fun t ht x _ => (hf t x).trans ht

theorem parts_foldNat (n : Nat) {f : Nat → State → State} (hf : ∀ k s, (f k s).parts = s.parts) (s : State) :
    (foldNat n f s).parts = s.parts :=
  foldNat_inv (fun t : State => t.parts = s.parts) f (fun k t ht => (hf k t).trans ht) n s rfl

@[simp] theorem parts_setBits (s : State) (a m : Nat) : (setBits s a m).parts = s.parts := by
  simp only [setBits, wr_frame]

@[simp] theorem parts_bump (s : State) (a n : Nat) : (bump s a n).parts = s.parts := by
  obtain ⟨r, h⟩ := bump_shape s a n
  rw [h]

@[simp] theorem parts_logEv (s : State) (o c p a b : Nat) (f : Bool) : (logEv s o c p a b f).parts = s.parts := by
  obtain ⟨x, r, h⟩ := logEv_shape s o c p a b f
  rw [h]

@[simp] theorem parts_pickOf (s : State) (l : List Nat) : (pickOf s l).1.parts = s.parts := by
  obtain ⟨x, v, h⟩ := pickOf_shape s l
  rw [h]

/-! Reads of the stacks (R262, R274–R291) -/

@[simp] theorem parts_touchRow (s : State) (st c b r : Nat) : (touchRow s st c b r).parts = s.parts := by
  unfold touchRow openRow
  split
  · split <;> simp
  · simp

@[simp] theorem parts_bucketAdd (s : State) (st : Nat) : (bucketAdd s st).parts = s.parts := by
  unfold bucketAdd
  dsimp only
  split <;> simp

@[simp] theorem parts_reportSlab (s : State) (st x : Nat) : (reportSlab s st x).parts = s.parts := by
  simp [reportSlab]

@[simp] theorem parts_strike (s : State) (l : Loc) : (strike s l).parts = s.parts := by
  simp only [strike, apply_ite State.parts, parts_pickOf, parts_reportSlab, wr_frame, modChan_frame, ite_self]
  split
  · rfl
  · split
    · rfl
    · split
      · rfl
      · simp only [apply_ite State.parts, parts_pickOf, parts_reportSlab, wr_frame, modChan_frame, ite_self]

theorem parts_noteCorrected (s : State) (l : Loc) (reader : Nat) (y : List (Nat × Nat)) :
    (noteCorrected s l reader y).parts = s.parts := by
  simp only [noteCorrected, pinAdd, parts_bucketAdd, modChan_frame, wr_frame, parts_bump]

theorem parts_noteUncorrectable (s : State) (l : Loc) (reader p : Nat) (bad : Bool) :
    (noteUncorrectable s l reader p bad).parts = s.parts := by
  simp only [noteUncorrectable, apply_ite State.parts, parts_strike, parts_logEv, parts_setBits, wr_frame, parts_bump, ite_self]

@[simp] theorem parts_noteRead (s : State) (l : Loc) (reader p ovl : Nat) : (noteRead s l reader p ovl).parts = s.parts := by
  unfold noteRead
  split
  · rfl
  · exact parts_noteCorrected _ _ _ _
  · exact parts_noteUncorrectable _ _ _ _ _
  · exact parts_noteUncorrectable _ _ _ _ _

@[simp] theorem parts_memNote (s : State) (a n reader p : Nat) : (memNote s a n reader p).parts = s.parts := by
  refine parts_foldl (fun t k => ?_) _ _
  split
  · simp [accessed]
  · rfl

/-! Counters and update engines (R297, R322, R334) -/

@[simp] theorem parts_queueChange (s : State) (d : Nat) (c : Change) : (queueChange s d c).parts = s.parts := by
  unfold queueChange setChanges
  split <;> rfl

@[simp] theorem parts_originate (s : State) (d : Nat) (p : LinkPkt) : (originate s d p).1.parts = s.parts := by
  unfold originate
  dsimp only
  split <;> simp

@[simp] theorem parts_sendSimple (s : State) (d typ vl dst body : Nat) : (sendSimple s d typ vl dst body).parts = s.parts := by
  unfold sendSimple
  split
  next t h => rw [← parts_originate s d, h]
  next t h =>
    simp only [dropPacket, parts_logEv, parts_setBits]
    rw [← parts_originate s d, h]

@[simp] theorem parts_breakCtr (s : State) (id cause : Nat) : (breakCtr s id cause).parts = s.parts := by
  unfold breakCtr
  dsimp only
  split
  · refine (parts_foldl (fun t x => ?_) _ _).trans (by simp)
    split
    · simp
    · unfold sendBroken
      split <;> simp
  · rfl

@[simp] theorem parts_upeWait (s : State) (j k : Nat) : (upeWait s j k).parts = s.parts := by
  unfold upeWait
  dsimp only
  split
  · simp
  · rfl

@[simp] theorem parts_modUpe (s : State) (st p : Nat) (f : UpeList → UpeList) : (modUpe s st p f).parts = s.parts := by
  simp only [modUpe, setUpe_frame]

@[simp] theorem parts_upeBegin (st p k : Nat) (s : State) : (upeBegin st p k s).parts = s.parts := by
  induction k generalizing s with
  | zero => rfl
  | succ k ih =>
    unfold upeBegin
    dsimp only
    split
    · simp [ih, upeSignal]
    · simp [setUpe]

@[simp] theorem parts_upeStart (s : State) (st p : Nat) : (upeStart s st p).parts = s.parts := by
  unfold upeStart
  split <;> simp

/-! Distribution (R48, R344) -/

@[simp] theorem parts_releaseCtrs (s : State) (p : Nat) : (releaseCtrs s p).parts = s.parts :=
  parts_foldl (f := freeCtr) (fun _ _ => rfl) _ _

@[simp] theorem parts_packDests (s : State) (d : Nat) : (packDests s d).parts = s.parts := by
  unfold packDests
  refine List.foldlRecOn (motive := fun a : State × Nat => a.1.parts = s.parts) _ _ rfl fun a ha id _ => ?_
  simp only [setCtr_frame]
  exact (parts_foldNat _ (fun k z => by rfl) a.1).trans ha

@[simp] theorem parts_placeCons (s : State) (p id kind initial : Nat) : (placeCons s p id kind initial).1.parts = s.parts := by
  simp [placeCons]

@[simp] theorem parts_placeCtr (s : State) (p : Nat) (m : Mem) (r : Nat) : (placeCtr s p m r).parts = s.parts := by
  have hdests (k a : Nat) (t : State) : (foldNat k (fun i (s : State) => { s with
      dests := tset s.dests (4096 * (recCtr r / 4096) + a + i) (planDestAt m (recDestFirst r + i), p) }) t).parts = t.parts :=
    parts_foldNat k (fun i z => by rfl) t
  unfold placeCtr
  dsimp only
  simp only [setCtr_frame, hdests]
  split <;> split <;> simp

@[simp] theorem parts_takeChans (s : State) (p : Nat) (m : Mem) : (takeChans s p m).parts = s.parts := by
  unfold takeChans
  refine parts_foldl (fun t d => parts_foldl (fun u n => ?_) _ _) _ _
  split <;> simp

@[simp] theorem parts_placeFrames (s : State) (p : Nat) (ent : Nat → Nat → Nat) : (placeFrames s p ent).parts = s.parts := by
  unfold placeFrames
  exact parts_foldl (fun t st => by simp) _ _

@[simp] theorem parts_placeLayer (s : State) (p l : Nat) : (placeLayer s p l).1.parts = s.parts := by
  unfold placeLayer
  dsimp only
  split <;> simp

@[simp] theorem parts_placeLists (s : State) (p : Nat) (m : Mem) : (placeLists s p m).parts = s.parts := by
  unfold placeLists
  dsimp only
  refine (parts_foldl (fun _ _ => parts_upeStart _ _ _) _ _).trans ((parts_foldl (fun t l => ?_) _ _).trans rfl)
  simp

@[simp] theorem parts_clearPodRegs (s : State) (g : Nat) : (clearPodRegs s g).parts = s.parts := by
  unfold clearPodRegs
  exact parts_foldl (fun t o => by simp) _ _

@[simp] theorem parts_clearHatches (s : State) (p : Nat) : (clearHatches s p).parts = s.parts := by
  unfold clearHatches
  dsimp only
  exact parts_foldl (fun t o => parts_foldl (fun u k => by simp) _ _) _ _

@[simp] theorem parts_extend (s : State) (j x : Nat) : (extend s j x).parts = s.parts := by
  unfold extend extendMeas
  split
  · simp
  · split <;> simp

/-! ### Descriptors of a plate and skipped sections (R35, R212) -/

/-- Descriptors that come or go change the counts of the ranges that they name, and nothing else. -/
theorem countTable_shape (s : State) (t : Tbl DescE) (up : Bool) : ∃ r, countTable s t up = { s with ranges := r } := by
  unfold countTable
  refine List.foldlRecOn (motive := fun u : State => ∃ r, u = { s with ranges := r }) t _ ⟨_, rfl⟩ fun u hu e _ => ?_
  obtain ⟨r, rfl⟩ := hu
  unfold countDesc
  split <;> exact ⟨_, rfl⟩

@[simp] theorem parts_countTable (s : State) (t : Tbl DescE) (up : Bool) : (countTable s t up).parts = s.parts := by
  obtain ⟨r, h⟩ := countTable_shape s t up
  rw [h]

@[simp] theorem parts_logSkipped (s : State) (p : Nat) (m : Mem) : (logSkipped s p m).parts = s.parts :=
  parts_foldl (fun _ _ => parts_logEv _ _ _ _ _ _ _) _ _

/-! ### Events and faults of a plate (R53, R62, R63) -/

@[simp] theorem parts_plateEvent (s : State) (p k : Nat) : (plateEvent s p k).parts = s.parts := by
  simp only [plateEvent, parts_setBits]

@[simp] theorem parts_plateFault (s : State) (p : Nat) (f : PFault) : (plateFault s p f).parts = s.parts := by
  simp only [plateFault, wr_frame]

@[simp] theorem part_plateEvent (s : State) (p k q : Nat) : part (plateEvent s p k) q = part s q :=
  part_congr (parts_plateEvent s p k) q

@[simp] theorem part_countTable (s : State) (t : Tbl DescE) (up : Bool) (q : Nat) : part (countTable s t up) q = part s q :=
  part_congr (parts_countTable s t up) q

/-- The register of a plate's last fault is not that of its events. -/
theorem pltReg_fault_ne_event (p : Nat) : pltReg p 0x28 ≠ pltReg p 0x24 := by
  unfold pltReg
  omega

theorem bit_plateEvent (s : State) (p k : Nat) : bit (rd (plateEvent s p k) (pltReg p 0x24)) k = true := by
  simp [plateEvent, bit]

/-- A fault of a command names no section and no entry (R62). -/
theorem plateFault_command (s : State) (p c : Nat) : plateFault s p ⟨c, 0xFF, 0⟩ = wr s (pltReg p 0x28) (c + 0xFF00) := by
  have hvalue : c + fld 8 8 0xFF + fld 16 32 0 = c + 0xFF00 := rfl
  unfold plateFault
  rw [hvalue]

theorem notAccepted_eq (s : State) (p c : Nat) :
    notAccepted s p c = setBits (wr s (pltReg p 0x28) (c + 0xFF00)) (pltReg p 0x24) 2 := by
  unfold notAccepted plateEvent
  rw [plateFault_command]
  rfl

/-- A refused load: its event, its fault and the slot's state (R47, R63). -/
theorem refuseLoad_spec (s : State) (p : Nat) (f : PFault) :
    let u := refuseLoad s p f
    bit (rd u (pltReg p 0x24)) 1 = true ∧ rd u (pltReg p 0x28) = f.code + fld 8 8 f.sect + fld 16 32 f.ent ∧
      part u p = { part s p with staged := 4 } ∧ ∀ q, q ≠ p → part u q = part s q := by
  intro u
  have hparts : u.parts = (modPart s p (fun x => { x with staged := 4 })).parts := by
    simp only [u, refuseLoad, parts_plateEvent, parts_plateFault]
  refine ⟨bit_plateEvent _ _ _, ?_, ?_, fun q hq => ?_⟩
  · simp only [u, refuseLoad, plateEvent, plateFault]
    rw [rd_setBits_ne _ _ _ _ (pltReg_fault_ne_event p), rd_wr_same]
  · rw [part_congr hparts, part_modPart_same]
  · rw [part_congr hparts, part_modPart_ne _ _ _ _ hq]

/-! ### The commands of APC_PLT_CMD (R60) -/

section
variable {r : Requester} {p : Fin 8} {s : State}

theorem exec_load (replace : Bool) (h : canWrite s r (pltReg p 0x1C)) :
    exec (.load r p replace) s = .next (loadCmd s p replace) := congrArg _ (gate_go _ h.1 h.2)

theorem exec_discard (h : canWrite s r (pltReg p 0x1C)) : exec (.discard r p) s = .next (discardCmd s p) :=
  congrArg _ (gate_go _ h.1 h.2)

theorem exec_abort (h : canWrite s r (pltReg p 0x1C)) : exec (.abort r p) s = .next (abortCmd s p) :=
  congrArg _ (gate_go _ h.1 h.2)

theorem exec_badCommand (op : BitVec 4) (h : canWrite s r (pltReg p 0x1C)) :
    exec (.badCommand r p op) s = .next (badCommand s p op.toNat) := congrArg _ (gate_go _ h.1 h.2)

theorem exec_activate (h : canWrite s r (pltReg p 0x1C)) : exec (.activate r p) s = .next (activateCmd s p) :=
  congrArg _ (gate_go _ h.1 h.2)

theorem exec_retire (h : canWrite s r (pltReg p 0x1C)) : exec (.retire r p) s = .next (retireCmd s p) :=
  congrArg _ (gate_go _ h.1 h.2)

theorem exec_permitWrite (k : BitVec 32) (h : canWrite s r (pltReg p 0x50)) :
    exec (.permitWrite r p k) s = .next (permitWrite s r p k.toNat) := congrArg _ (gate_go _ h.1 h.2)

end

/-! ### Loading a plate (R46, R47, R52, R53) -/

theorem loadCmd_takes {s : State} {p : Nat} {replace : Bool}
    (hslot : (part s p).staged = 0 ∨ (part s p).staged = 4 ∨ ((part s p).staged = 3 ∧ replace = true))
    (hdies : plateDieDown s p = false) (hsource : sourceOk s p = true) :
    loadCmd s p replace = modPart (dropStaged s p) p (fun y => { y with
      staged := 1
      src := rd s (pltReg p 0)
      srcLen := rd s (pltReg p 8)
      bindAddr := rd s (pltReg p 0x10)
      bindCount := rd s (pltReg p 0x18) }) := by
  unfold loadCmd
  dsimp only
  rw [if_neg (by omega), if_neg (by rintro ⟨h3, hb⟩; simp_all), if_neg (by simp [hdies]), if_neg (by simp [hsource])]

theorem loadCmd_full {s : State} {p : Nat} (hslot : (part s p).staged = 3) : loadCmd s p false = notAccepted s p 0x21 := by
  unfold loadCmd
  dsimp only
  rw [if_neg (by omega), if_pos ⟨hslot, rfl⟩]

theorem discardCmd_takes {s : State} {p : Nat} (hslot : (part s p).staged = 3 ∨ (part s p).staged = 4) :
    discardCmd s p = if plateDieDown s p then notAccepted s p 0x24 else dropStaged s p := by
  unfold discardCmd
  rw [if_pos hslot]

theorem abortCmd_takes {s : State} {p : Nat} (hslot : (part s p).staged = 1 ∨ (part s p).staged = 2) :
    abortCmd s p = if plateDieDown s p then notAccepted s p 0x24 else abortLoad s p := by
  unfold abortCmd
  rcases hslot with h | h <;> simp only [h]

theorem badCommand_unlisted {s : State} {p op : Nat} (hop : ¬(1 ≤ op ∧ op ≤ 5)) : badCommand s p op = notAccepted s p 0x26 :=
  if_neg hop

/-- A load whose bytes are mapped and read well: what the source holds is in the staged slot, to be verified. -/
theorem loadCopied_copies {s : State} {p n k : Nat} (hloader : loaderUp s = true) (hdies : plateDieDown s p = false)
    (hslot : (part s p).staged = 1) (hn : n = min (2 ^ 28) (part s p).srcLen) (hk : k = 16 * (part s p).bindCount)
    (hsrc : spanMapped s (part s p).src n = true) (hbind : spanMapped s (part s p).bindAddr k = true)
    (hsrcGood : memBad s (part s p).src n = false) (hbindGood : memBad s (part s p).bindAddr k = false) :
    let u := loadCopied s p
    part u p = { part s p with
      staged := 2, stagedImg := copyImage s (part s p).src n, stagedBind := copyImage s (part s p).bindAddr k } ∧
      ∀ q, q ≠ p → part u q = part s q := by
  have hcopy : loadCopied s p =
      modPart (memNote (memNote s (part s p).src n 3 p) (part s p).bindAddr k 3 p) p (fun y => { y with
        staged := 2, stagedImg := copyImage s (part s p).src n, stagedBind := copyImage s (part s p).bindAddr k }) := by
    subst hn hk
    unfold loadCopied
    dsimp only
    rw [if_neg (by simp [hslot, hloader, hdies]), if_neg (by simp only [hsrc, hbind]; decide),
      if_neg (by simp only [hsrcGood, hbindGood]; decide)]
  have hnoted (q : Nat) : part (memNote (memNote s (part s p).src n 3 p) (part s p).bindAddr k 3 p) q = part s q :=
    part_congr (by rw [parts_memNote, parts_memNote]) q
  rw [hcopy]
  exact ⟨by rw [part_modPart_same, hnoted], fun q hq => by rw [part_modPart_ne _ _ _ _ hq, hnoted]⟩

/-- The loader's checks find nothing: the slot is READY with the plate's descriptors, and the runtime is told. -/
theorem loadVerified_ready {s : State} {p : Nat} (hloader : loaderUp s = true) (hdies : plateDieDown s p = false)
    (hslot : (part s p).staged = 2)
    (hchecks : loadFault s p (part s p).stagedImg (part s p).srcLen (part s p).stagedBind (part s p).bindCount = none) :
    let u := loadVerified s p
    bit (rd u (pltReg p 0x24)) 0 = true ∧
      part u p = { part s p with
        staged := 3
        stagedDescs := boundDescs (part s p).stagedImg (bindings (part s p).stagedBind (part s p).bindCount) } ∧
      ∀ q, q ≠ p → part u q = part s q := by
  intro u
  have hready : u = plateEvent (modPart (countTable (logSkipped s p (part s p).stagedImg)
      (boundDescs (part s p).stagedImg (bindings (part s p).stagedBind (part s p).bindCount)) true) p (fun x => { x with
        staged := 3
        stagedDescs := boundDescs (part s p).stagedImg (bindings (part s p).stagedBind (part s p).bindCount) })) p 0 := by
    show loadVerified s p = _
    unfold loadVerified
    dsimp only
    rw [if_neg (by simp [hslot, hloader, hdies]), hchecks]
    rfl
  have hlogged (q : Nat) : part (logSkipped s p (part s p).stagedImg) q = part s q := part_congr (parts_logSkipped _ _ _) q
  rw [hready]
  refine ⟨bit_plateEvent _ _ _, ?_, fun q hq => ?_⟩
  · rw [part_plateEvent, part_modPart_same, part_countTable, hlogged]
  · rw [part_plateEvent, part_modPart_ne _ _ _ _ hq, part_countTable, hlogged]

/-- A check that fails refuses the load, in a state in which skipped sections may have been logged. -/
theorem loadVerified_refused {s : State} {p : Nat} {f : PFault} (hloader : loaderUp s = true)
    (hdies : plateDieDown s p = false) (hslot : (part s p).staged = 2)
    (hcheck : loadFault s p (part s p).stagedImg (part s p).srcLen (part s p).stagedBind (part s p).bindCount = some f) :
    ∃ t, t.parts = s.parts ∧ loadVerified s p = refuseLoad t p f := by
  unfold loadVerified
  dsimp only
  rw [if_neg (by simp [hslot, hloader, hdies]), hcheck]
  refine ⟨_, ?_, rfl⟩
  split <;> simp

end Sys2Proof.Machine
end

section
/-! SUPPORT. Plates: activation, retirement, distribution, start edges and permits (R48, R49, R56, R65, R66). -/

namespace Sys2Proof.Machine

open Sys2Proof

/-! ### Activation (R48) -/

/-- The staged plate moves to a slot that is NONE or FENCED and is ACTIVATING there; descriptors of the plate that goes
leave their ranges. -/
theorem activateCmd_begins {s : State} {p : Nat} (hdies : plateDieDown s p = false) (hstaged : (part s p).staged = 3)
    (hactive : (part s p).active = 0 ∨ (part s p).active = 4) :
    activateCmd s p = beginActivate (takeStaged s p) p := by
  unfold activateCmd
  dsimp only
  rw [if_neg (by omega), if_neg (by omega), if_neg (by simp [hdies]), if_neg (by omega), if_pos hstaged]

theorem activateCmd_retires {s : State} {p : Nat} (hdies : plateDieDown s p = false) (hactive : (part s p).active = 2)
    (hstaged : (part s p).staged = 3) :
    activateCmd s p = modPart s p (fun y => { y with active := 3, activateNext := true }) := by
  unfold activateCmd
  dsimp only
  rw [if_neg (by omega), if_neg (by omega), if_neg (by simp [hdies]), if_pos hactive]

/-- The active slot's descriptors go: the slot and the ranges' counts are changed. -/
theorem dropDescs_shape (s : State) (p : Nat) : ∃ r, dropDescs s p = modPart { s with ranges := r } p (fun x => { x with descs := [] }) := by
  obtain ⟨r, h⟩ := countTable_shape s (part s p).descs false
  exact ⟨r, congrArg (modPart · p _) h⟩

/-- What an activation does from the slots' states (R48, R56). -/
theorem beginActivate_takeStaged (s : State) (p : Nat) :
    let u := beginActivate (takeStaged s p) p
    part u p = { part s p with
      active := 1
      permits := 0
      released := 0
      completed := 0
      activateNext := false
      image := (part s p).stagedImg
      imageLen := (part s p).srcLen
      descs := (part s p).stagedDescs
      staged := 0
      stagedImg := []
      stagedBind := []
      stagedDescs := [] } ∧ (∀ q, q ≠ p → part u q = part s q) ∧ u.mem = s.mem ∧ u.ctrs = s.ctrs ∧ u.gens = s.gens := by
  obtain ⟨r, hdrop⟩ := dropDescs_shape s p
  unfold beginActivate takeStaged
  rw [hdrop]
  refine ⟨?_, fun q hq => ?_, rfl, rfl, rfl⟩
  · simp only [part_modPart_same]
    rfl
  · simp only [part_modPart_ne _ _ _ _ hq]
    rfl

/-! ### Retirement (R49, R53) -/

theorem gens_plateEvent (s : State) (p k : Nat) : (plateEvent s p k).gens = s.gens := rfl

/-- An emptied active slot holds no plate; the generators are as they were. -/
theorem emptyActive_spec (s : State) (p : Nat) : (emptyActive s p).gens = s.gens ∧ (part (emptyActive s p) p).active = 0 ∧
    (part (emptyActive s p) p).image = [] := by
  obtain ⟨r, hdrop⟩ := dropDescs_shape s p
  unfold emptyActive
  rw [hdrop]
  refine ⟨rfl, ?_, ?_⟩ <;> rw [part_modPart_same]

/-- A retired plate leaves the active slot empty and no hatch to the partition. -/
theorem retireNow_spec (s : State) (p : Nat) : (∀ e ∈ (retireNow s p).gens, e.2.part = p → e.2.size = 0) ∧
    (part (retireNow s p) p).active = 0 ∧ (part (retireNow s p) p).image = [] := by
  unfold retireNow
  dsimp only
  obtain ⟨hgens, hactive, himage⟩ := emptyActive_spec _ p
  refine ⟨?_, hactive, himage⟩
  rw [hgens]
  rintro _ he hpart
  obtain ⟨e, -, rfl⟩ := List.mem_map.mp he
  by_cases h : e.2.part = p
  · rw [if_pos h]
  · rw [if_neg h] at hpart
    exact absurd hpart h

theorem retireCmd_waits {s : State} {p : Nat} (hdies : plateDieDown s p = false) (hactive : (part s p).active = 2) :
    retireCmd s p = modPart s p (fun y => { y with active := 3 }) := by
  unfold retireCmd
  dsimp only
  rw [if_neg (by omega), if_neg (by simp [hdies]), if_neg (by omega)]

theorem retireCmd_fenced {s : State} {p : Nat} (hdies : plateDieDown s p = false) (hactive : (part s p).active = 4) :
    retireCmd s p = plateEvent (retireNow s p) p 3 := by
  unfold retireCmd
  dsimp only
  rw [if_neg (by omega), if_neg (by simp [hdies]), if_pos hactive]

theorem exec_retireComplete (p : Fin 8) (s : State) : exec (.retireComplete p) s = .next (retireComplete s p) := rfl

theorem retireComplete_eq {s : State} {p : Nat} (hactive : (part s p).active = 3) (hstep : inStep (part s p) = false)
    (hloader : loaderUp s = true) (hdrained : chansDrained s p = true) :
    retireComplete s p = if (part s p).activateNext && (part s p).staged == 3
      then beginActivate (takeStaged (retireNow s p) p) p else plateEvent (retireNow s p) p 3 := by
  unfold retireComplete
  dsimp only
  rw [if_neg (by simp [hactive, hstep, hloader, hdrained])]

/-! ### Distribution (R48, R65, R66) -/

/-- The active slot's state and image are as they were. -/
def KeepsActive (p : Nat) (s t : State) : Prop :=
  (part t p).active = (part s p).active ∧ (part t p).image = (part s p).image

theorem KeepsActive.of_parts {p : Nat} {s t u : State} (h : KeepsActive p s t) (hparts : u.parts = t.parts) :
    KeepsActive p s u := by
  unfold KeepsActive
  rwa [part_congr hparts]

theorem KeepsActive.refl (p : Nat) (s : State) : KeepsActive p s s := ⟨rfl, rfl⟩

theorem KeepsActive.trans {p : Nat} {s t u : State} (h : KeepsActive p s t) (k : KeepsActive p t u) : KeepsActive p s u :=
  ⟨k.1.trans h.1, k.2.trans h.2⟩

/-- A change of other fields of the partition. -/
theorem KeepsActive.modPart {p : Nat} {s t : State} (h : KeepsActive p s t) {f : Part → Part}
    (hactive : ∀ x, (f x).active = x.active) (himage : ∀ x, (f x).image = x.image) : KeepsActive p s (modPart t p f) := by
  unfold KeepsActive
  rw [part_modPart_same, hactive, himage]
  exact h

theorem keepsActive_placeSync (s : State) (p : Nat) (m : Mem) : KeepsActive p s (placeSync s p m) := by
  unfold placeSync
  dsimp only
  refine KeepsActive.modPart ?_ (fun _ => rfl) (fun _ => rfl)
  refine List.foldlRecOn (motive := KeepsActive p s) (planCons m) _ ?_ fun t ht c _ => ?_
  · refine KeepsActive.modPart ((KeepsActive.refl p s).of_parts ?_) (fun _ => rfl) (fun _ => rfl)
    rw [parts_foldl (fun _ _ => parts_placeCtr _ _ _ _), parts_releaseCtrs]
  · exact KeepsActive.modPart (ht.of_parts (parts_placeCons _ _ _ _ _)) (fun _ => rfl) (fun _ => rfl)

/-- Generator of a hatch. -/
def hatchGen (h : Nat × Nat) : Nat := 16 * (h.1 / 128) + h.1 % 128 / 8

/-- The generator stands STARTING with partition `p`, at no wait. -/
def Starting (p : Nat) (x : Gen) : Prop := x.st = .starting ∧ x.part = p ∧ x.waitKind = 0

theorem clearPodRegs_shape (s : State) (g : Nat) : ∃ r, clearPodRegs s g = { s with regs := r } :=
  ⟨_, foldl_regs _ (fun _ _ => rfl) _ s⟩

/-- Beside its generator, which is STARTING, a hatch's start changes pods, registers and the values drawn. -/
theorem startGen_shape (s : State) (p : Nat) (m : Mem) (h : Nat × Nat) : ∃ ps rs k x, Starting p x ∧
    startGen s p m h = setGen { s with pods := ps, regs := rs, freeCtr := k } (hatchGen h) x := by
  obtain ⟨ps, rs, hpods⟩ : ∃ ps rs, (List.range h.2).foldl (fun s k =>
      clearPodRegs (modPod s (h.1 + k) (freshPod m (hatchGen h) (h.1 + k))) (h.1 + k)) s =
        { s with pods := ps, regs := rs } := by
    refine List.foldlRecOn (motive := fun t : State => ∃ ps rs, t = { s with pods := ps, regs := rs }) _ _ ⟨_, _, rfl⟩
      fun t ht k _ => ?_
    obtain ⟨ps, rs, rfl⟩ := ht
    obtain ⟨r, hclear⟩ := clearPodRegs_shape
      (modPod { s with pods := ps, regs := rs } (h.1 + k) (freshPod m (hatchGen h) (h.1 + k))) (h.1 + k)
    exact ⟨_, r, hclear⟩
  unfold startGen
  dsimp only
  rw [show 16 * (h.1 / 128) + h.1 % 128 / 8 = hatchGen h from rfl, hpods]
  split
  · exact ⟨ps, rs, s.freeCtr, _, by exact ⟨rfl, rfl, rfl⟩, rfl⟩
  · exact ⟨ps, rs, s.freeCtr + 1, _, by exact ⟨rfl, rfl, rfl⟩, rfl⟩

@[simp] theorem parts_startGen (s : State) (p : Nat) (m : Mem) (h : Nat × Nat) : (startGen s p m h).parts = s.parts := by
  obtain ⟨ps, rs, k, x, -, hstart⟩ := startGen_shape s p m h
  rw [hstart]
  rfl

theorem gen_startGen_same (s : State) (p : Nat) (m : Mem) (h : Nat × Nat) :
    Starting p (gen (startGen s p m h) (hatchGen h)) := by
  obtain ⟨ps, rs, k, x, hx, hstart⟩ := startGen_shape s p m h
  rwa [hstart, gen_setGen_same]

theorem gen_startGen_ne (s : State) (p : Nat) (m : Mem) (h : Nat × Nat) (n : Nat) (hn : n ≠ hatchGen h) :
    gen (startGen s p m h) n = gen s n := by
  obtain ⟨ps, rs, k, x, -, hstart⟩ := startGen_shape s p m h
  rw [hstart, gen_setGen_ne _ _ _ _ hn]
  rfl

/-- Every hatch of a list is started, and a hatch once started stands so. -/
theorem foldl_startGen_starting (p : Nat) (m : Mem) (l : List (Nat × Nat)) (s : State) :
    let t := l.foldl (fun s h => startGen s p m h) s
    (∀ n, Starting p (gen s n) → Starting p (gen t n)) ∧ ∀ h ∈ l, Starting p (gen t (hatchGen h)) := by
  induction l generalizing s with
  | nil => exact ⟨fun _ h => h, nofun⟩
  | cons a l ih =>
    obtain ⟨hkeep, hall⟩ := ih (startGen s p m a)
    refine ⟨fun n hn => hkeep n ?_, fun h hh => ?_⟩
    · by_cases hna : n = hatchGen a
      · exact hna ▸ gen_startGen_same s p m a
      · rwa [gen_startGen_ne s p m a n hna]
    · rcases List.mem_cons.mp hh with rfl | hh
      · exact hkeep _ (gen_startGen_same s p m h)
      · exact hall h hh

/-- A plate that has hatches runs when they have their start edges; one without any runs at once. -/
theorem checkRunning_shape (s : State) (p : Nat) : ∃ a, part (checkRunning s p) p = { part s p with active := a } := by
  unfold checkRunning
  split
  · rw [part_plateEvent, part_modPart_same]
    exact ⟨_, rfl⟩
  · exact ⟨_, rfl⟩

/-- What distribution places: the sync plan, the plate's channels, its frame entries and its work lists. -/
def placed (s : State) (p : Nat) (m : Mem) : State :=
  placeLists (placeFrames (takeChans (placeSync (clearHatches s p) p m) p m) p (plateFrame m)) p m

theorem keepsActive_placed (s : State) (p : Nat) (m : Mem) : KeepsActive p s (placed s p m) :=
  ((((KeepsActive.refl p s).of_parts (parts_clearHatches s p)).trans (keepsActive_placeSync _ p m)).of_parts
    (parts_takeChans _ p m)).of_parts ((parts_placeLists _ p m).trans (parts_placeFrames _ p _))

/-- A partition for the plate that its active slot holds (R58, R367, R371). -/
def runsPlate (m : Mem) (step : Nat) (lane : Bool) (x : Part) : Part :=
  { x with
    seed := mread m 0x38 8
    step := step
    phases := platePhases m
    query := lane
    classes := if lane then (classRecs m).map classOf else []
    stepHc := if lane then secNat m 11 4 4 else 0
    holdNs := if lane then secNat m 11 8 4 else 0
    frozen := false
    inDoubt := false
    seenFreeze := [] }

/-- The partition as distribution sets it up, before its hatches are started. -/
def setUp (s : State) (p : Nat) (m : Mem) : State :=
  extend (modPart (placed s p m) p
    (runsPlate m (rd (placed s p m) (pltReg p 0x40)) (lanePart (placed s p m) == some p))) 6
    (p + fld 8 64 (plateId m) + fld 72 256 (secNat m 0x10 8 32))

theorem setUp_spec (s : State) (p : Nat) (m : Mem) :
    (part (setUp s p m) p).seed = mread m 0x38 8 ∧ (part (setUp s p m) p).phases = platePhases m ∧
      (part (setUp s p m) p).frozen = false ∧ KeepsActive p s (setUp s p m) := by
  have hpart : part (setUp s p m) p =
      runsPlate m (rd (placed s p m) (pltReg p 0x40)) (lanePart (placed s p m) == some p) (part (placed s p m) p) := by
    unfold setUp
    rw [part_congr (parts_extend _ _ _), part_modPart_same]
  have hkept : KeepsActive p s (setUp s p m) := by
    unfold setUp
    refine KeepsActive.of_parts ?_ (parts_extend _ _ _)
    exact (keepsActive_placed s p m).modPart (fun _ => rfl) (fun _ => rfl)
  refine ⟨?_, ?_, ?_, hkept⟩ <;> rw [hpart, runsPlate]

theorem distribute_eq {s : State} {p : Nat} (hactive : (part s p).active = 1) (hloader : loaderUp s = true)
    (hdies : plateDieDown s p = false) (hstopped : ∀ e ∈ s.gens, e.2.part = p → e.2.size = 0 ∨ e.2.st = .stopped) :
    let m := (part s p).image
    let t := (plateHatches m).foldl (fun s h => startGen s p m h) (setUp s p m)
    distribute s p = if (plateHatches m).isEmpty then checkRunning t p else t := by
  have hidle : s.gens.any (fun e => decide (0 < e.2.size) && e.2.part == p && e.2.st != .stopped) = false := by
    refine List.any_eq_false.mpr fun e he => ?_
    simp only [Bool.and_eq_true, decide_eq_true_eq, beq_iff_eq, bne_iff_ne]
    rintro ⟨⟨hsize, hpart⟩, hst⟩
    rcases hstopped e he hpart with h | h
    · omega
    · exact hst h
  unfold distribute
  dsimp only
  rw [if_neg (by simp only [hactive, hloader, hdies, hidle]; decide)]
  rfl

/-- What distribution leaves: the seed and phases of the plate, a slot still ACTIVATING while hatches are to start, and each
of these hatches STARTING. -/
theorem distribute_spec {s : State} {p : Nat} (hactive : (part s p).active = 1) (hloader : loaderUp s = true)
    (hdies : plateDieDown s p = false) (hstopped : ∀ e ∈ s.gens, e.2.part = p → e.2.size = 0 ∨ e.2.st = .stopped) :
    (part (distribute s p) p).seed = mread (part s p).image 0x38 8 ∧
      (part (distribute s p) p).phases = platePhases (part s p).image ∧ (part (distribute s p) p).frozen = false ∧
      (part (distribute s p) p).image = (part s p).image ∧
      (plateHatches (part s p).image ≠ [] → (part (distribute s p) p).active = 1) ∧
      ∀ h ∈ plateHatches (part s p).image, Starting p (gen (distribute s p) (hatchGen h)) := by
  obtain ⟨hseed, hphases, hfrozen, hkept, himage⟩ := setUp_spec s p (part s p).image
  rw [distribute_eq hactive hloader hdies hstopped]
  generalize (part s p).image = m at *
  have hparts (l : List (Nat × Nat)) :
      part (l.foldl (fun s h => startGen s p m h) (setUp s p m)) p = part (setUp s p m) p :=
    part_congr (parts_foldl (fun _ _ => parts_startGen _ _ _ _) l _) p
  by_cases hnone : plateHatches m = []
  · obtain ⟨a, hrun⟩ := checkRunning_shape ((plateHatches m).foldl (fun s h => startGen s p m h) (setUp s p m)) p
    rw [if_pos (by rw [hnone]; rfl), hrun, hparts]
    dsimp only
    exact ⟨hseed, hphases, hfrozen, himage, fun h => absurd hnone h, by simp [hnone]⟩
  · rw [if_neg (by simpa using hnone), hparts]
    obtain ⟨-, hstarting⟩ := foldl_startGen_starting p m (plateHatches m) (setUp s p m)
    exact ⟨hseed, hphases, hfrozen, himage, fun _ => hkept.trans hactive, hstarting⟩

/-! ### Start edges and permits (R56, R57, R66) -/

theorem exec_hatchStartEdge (n : Fin 32) (s : State) : exec (.hatchStartEdge n) s = .next (startEdge s n) := rfl

theorem startEdge_starts {s : State} {n : Nat} (hst : (gen s n).st = .starting) (hfault : (gen s n).faulted = false)
    (hactive : (part s (gen s n).part).active = 1) :
    startEdge s n = checkRunning (setGen s n { gen s n with st := .running, hc := 0 }) (gen s n).part := by
  unfold startEdge
  dsimp only
  rw [if_pos (by simp [hst, hfault, hactive])]

/-- A plate runs with the last of its hatches. -/
theorem checkRunning_last {s : State} {p : Nat} (hactive : (part s p).active = 1)
    (hall : ∀ e ∈ s.gens, 0 < e.2.size → e.2.part = p → e.2.st = .running) :
    checkRunning s p = setBits (modPart s p (fun y => { y with active := 2 })) (pltReg p 0x24) 4 := by
  have hrun : s.gens.all (fun e => !(decide (0 < e.2.size) && e.2.part == p) || e.2.st == .running) = true := by
    refine List.all_eq_true.mpr fun e he => ?_
    have := hall e he
    by_cases hsize : 0 < e.2.size <;> by_cases hpart : e.2.part = p <;> simp_all
  unfold checkRunning
  rw [if_pos (by simp only [hactive, hrun]; decide)]
  rfl

theorem checkRunning_notLast {s : State} {p : Nat} (hsome : ∃ e ∈ s.gens, 0 < e.2.size ∧ e.2.part = p ∧ e.2.st ≠ .running) :
    checkRunning s p = s := by
  obtain ⟨e, he, hsize, hpart, hst⟩ := hsome
  have hwait : s.gens.all (fun e => !(decide (0 < e.2.size) && e.2.part == p) || e.2.st == .running) = false :=
    List.all_eq_false.mpr ⟨e, he, by simp [hsize, hpart, hst]⟩
  unfold checkRunning
  rw [if_neg (by rw [hwait, Bool.and_false]; exact Bool.false_ne_true)]

@[simp] theorem part_fencePermit (s : State) (r : Requester) (p q : Nat) : part (fencePermit s r p) q = part s q := by
  unfold fencePermit
  split <;> rfl

theorem permitWrite_adds {s : State} {r : Requester} {p n : Nat} (hn : n ≠ 0)
    (hactive : (part s p).active = 1 ∨ (part s p).active = 2) (hlane : lanePart s ≠ some p) (hmax : n ≤ 1048575)
    (hroom : (part s p).permits + n ≤ 1048575) :
    permitWrite s r p n = modPart (fencePermit s r p) p (fun y => { y with permits := y.permits + n }) := by
  unfold permitWrite permitMax modPart
  dsimp only
  rw [if_neg hn, if_neg (by simp only [hlane, or_false]; omega), if_neg (by omega), part_fencePermit]

theorem permitWrite_loses {s : State} {r : Requester} {p n : Nat} (hn : n ≠ 0)
    (hactive : (part s p).active = 1 ∨ (part s p).active = 2) (hlane : lanePart s ≠ some p) (hmax : n ≤ 1048575)
    (hfull : 1048575 < (part s p).permits + n) :
    permitWrite s r p n =
      setBits (modPart (fencePermit s r p) p (fun y => { y with permits := 1048575 })) (pltReg p 0x24) 0x40 := by
  unfold permitWrite permitMax modPart plateEvent
  dsimp only
  rw [if_neg hn, if_neg (by simp only [hlane, or_false]; omega), if_pos hfull, part_fencePermit]
  rfl

end Sys2Proof.Machine
end

section
/-! The statements about plates (02_plates.md). -/

open Sys2Proof Sys2Proof.Machine

/-- Settles O20: the first burin stands at either wait alike; a WAIT then adds to its consumer entry, and stands on. -/
theorem waitStrokesComplete : Obligations.WaitStrokesComplete := by
  intro g n t w s
  refine ⟨fun hready hgoes hnone => ?_, fun j hready hhigh hzero hentry hgoes hnone hdue hlimit => ?_⟩
  · refine ⟨_, exec_permitWait hready hgoes hnone, firstAtWait_stands _ n g t 1 0, ?_, rfl⟩
    rw [gen_firstAtWait]
    rfl
  · refine ⟨_, exec_wait hready hhigh hzero hentry hgoes hnone, ?_⟩
    rw [askConsumer_firstAtWait n g t 2 (bits w 32 96) rfl hdue hlimit]
    refine ⟨(firstAtWait_stands _ n g t 2 _).needs _ _, ?_, ?_, ?_, rfl⟩
    · rw [gen_firstAtWait_needs]
      rfl
    · rw [gen_firstAtWait_needs]
      rfl
    · rw [gen_firstAtWait_needs]

/-- Settles O21: the permit is taken, every burin goes on, and what begins the step touches neither. -/
theorem permitReleasesTheHatch : Obligations.PermitReleasesTheHatch := by
  intro n c s hready hkind hfirst hpermit hactive hfence hgo
  have hpods : hatchPods (tookPermit s n) n = hatchPods s n := hatchPods_congr (by simp [tookPermit])
  obtain ⟨⟨ps, gs, rs, hrelease⟩, hst, hwait, hwaits, hgens, hgone, hother⟩ :=
    releaseWait_goes (s := tookPermit s n) (n := n) (c := c) (by rw [hpods]; exact hgo)
  rw [hpods] at hgone hother
  obtain ⟨x, y, hbegin⟩ := onlyChanges_permitBegin s n c
  rw [permitRelease_takes hfirst hpermit hactive hfence] at hbegin
  obtain ⟨qs, r, hcheck, hpermits, hreleased⟩ := stepCheck_shape (permitBegin s n c) (gen s n).part
  refine ⟨_, exec_waitRelease_permit hready hkind, ?_⟩
  generalize stepCheck (permitBegin s n c) (gen s n).part = t at *
  have hgen (m : Nat) : gen t m = gen (releaseWait (tookPermit s n) n c) m := by rw [hcheck, hbegin]; rfl
  have hpod (g : Nat) : pod t g = pod (releaseWait (tookPermit s n) n c) g := by rw [hcheck, hbegin]; rfl
  have hpart (p : Nat) : part (permitBegin s n c) p = part (tookPermit s n) p := by rw [hbegin, hrelease]; rfl
  refine ⟨?_, ?_, ?_, ?_, ?_, fun g hg => ?_, fun g hg => ?_, fun m hm => ?_, ?_⟩
  · rw [hpermits, hpart]
    simp [tookPermit]
  · rw [hreleased, hpart]
    simp [tookPermit]
  · rw [hgen, hst]
  · rw [hgen, hwait]
  · rw [hgen, hwaits]
    simp [tookPermit]
  · rw [hpod, hgone g hg]
    rfl
  · rw [hpod, hother g hg]
    rfl
  · rw [hgen, hgens m hm]
    exact gen_modGen_ne _ _ _ _ hm
  · rw [hcheck, hbegin, hrelease]
    exact ⟨rfl, rfl, rfl, rfl, rfl⟩

/-- Settles O40: each command behind the gate of rights, then the copy and the checks of the loader. -/
theorem platesLoad : Obligations.PlatesLoad := by
  intro r p s
  refine ⟨fun hwrite => ?_, fun hloader hdies hslot hsrc hbind hgood hbindGood => ?_, fun hloader hdies hslot => ?_⟩
  · refine ⟨fun b hslot hdies hsource => ?_, fun hslot => ?_, fun hslot => ?_, fun hslot => ?_, fun op hop => ?_⟩
    · rw [exec_load b hwrite, loadCmd_takes hslot hdies hsource]
    · rw [exec_load false hwrite, loadCmd_full hslot, notAccepted_eq]
    · rw [exec_discard hwrite, discardCmd_takes hslot, notAccepted_eq]
    · rw [exec_abort hwrite, abortCmd_takes hslot, notAccepted_eq, abortLoad, plateFault_command]
    · rw [exec_badCommand op hwrite, badCommand_unlisted hop, notAccepted_eq]
  · exact ⟨_, rfl, loadCopied_copies hloader hdies hslot rfl rfl hsrc hbind hgood hbindGood⟩
  · refine ⟨fun hchecks => ⟨_, rfl, loadVerified_ready hloader hdies hslot hchecks⟩, fun f hcheck => ?_⟩
    obtain ⟨t, hparts, hrefused⟩ := loadVerified_refused hloader hdies hslot hcheck
    obtain ⟨hevent, hfault, hpart, hother⟩ := refuseLoad_spec t p f
    refine ⟨_, rfl, ?_⟩
    rw [hrefused]
    exact ⟨hevent, hfault, hpart.trans (by rw [part_congr hparts]), fun q hq => (hother q hq).trans (part_congr hparts q)⟩

/-- Settles O41: the activation by its command and the end of its distribution, the start edges, and the permits. -/
theorem platesRun : Obligations.PlatesRun := by
  refine ⟨fun r p s hwrite hdies hstaged => ⟨fun hactive => ?_, fun hactive => ?_⟩, fun p s hactive hloader hdies hstopped => ?_,
    fun n s hst hfault hactive => ⟨fun hsome => ?_, fun hall => ?_⟩,
    fun r p k s hwrite hactive hlane hmax => ⟨fun hk hroom => ?_, fun hfull hk => ?_⟩⟩
  · refine ⟨_, exec_activate hwrite, ?_⟩
    rw [activateCmd_begins hdies hstaged hactive]
    exact beginActivate_takeStaged s p
  · rw [exec_activate hwrite, activateCmd_retires hdies hactive hstaged]
  · exact ⟨_, rfl, distribute_spec hactive hloader hdies hstopped⟩
  · rw [exec_hatchStartEdge, startEdge_starts hst hfault hactive, checkRunning_notLast hsome]
  · rw [exec_hatchStartEdge, startEdge_starts hst hfault hactive, checkRunning_last (s := setGen s n _) hactive hall]
  · rw [exec_permitWrite k hwrite, permitWrite_adds (by bv_omega) hactive hlane hmax hroom]
  · rw [exec_permitWrite k hwrite, permitWrite_loses (by bv_omega) hactive hlane hmax hfull]

/-- Settles O42: the retirement proper, behind the command or at the end of the step, and then the slot's next plate. -/
theorem platesRetire : Obligations.PlatesRetire := by
  intro p s
  obtain ⟨hgens, hactive, himage⟩ := retireNow_spec s p
  refine ⟨fun r hwrite hdies => ⟨fun hrun => ?_, fun hfenced => ?_⟩, fun hretiring hstep hloader hdrained => ?_⟩
  · rw [exec_retire hwrite, retireCmd_waits hdies hrun]
  · refine ⟨_, exec_retire hwrite, ?_⟩
    rw [retireCmd_fenced hdies hfenced, part_plateEvent, gens_plateEvent]
    exact ⟨hactive, himage, bit_plateEvent _ _ _, hgens⟩
  · refine ⟨_, exec_retireComplete p s, ?_⟩
    rw [retireComplete_eq hretiring hstep hloader hdrained]
    by_cases hnext : (part s p).activateNext = true ∧ (part s p).staged = 3
    · obtain ⟨hpart, -, -, -, hkept⟩ := beginActivate_takeStaged (retireNow s p) p
      rw [if_pos (by simp [hnext]), hpart, hkept]
      exact ⟨hgens, fun hnone => by simp [hnext] at hnone, fun _ _ => ⟨rfl, rfl, rfl⟩⟩
    · rw [if_neg (by simpa using hnext), part_plateEvent, gens_plateEvent]
      exact ⟨hgens, fun _ => ⟨hactive, himage, bit_plateEvent _ _ _⟩, fun h h' => absurd ⟨h, h'⟩ hnext⟩

end

section
/-! SUPPORT. Registers at the module's reset, by block (R25, R28, R85, R131). -/

namespace Sys2Proof.Machine

open Sys2Proof

/-- Before standby power no register holds anything but its reset value. -/
theorem rd_reset (a : Nat) : rd State.reset a = resetOf a := rfl

/-- Of a pod's registers the two of R85 and R131 alone reset to another value than 0. -/
theorem resetOf_podReg {g o : Nat} (hg : g < 256) (ho : o < 0x10000) :
    resetOf (podReg g o) = if o = 0x204 then 0x1000 else if o = 0x404 then 1 else 0 := by
  have hblock : podBase ≤ podReg g o ∧ podReg g o < podBase + 0x1000000 := by unfold podReg; omega
  unfold resetOf
  rw [if_pos hblock, podReg_mod ho]
  split
  · rfl
  · rfl
  · next h204 h404 => rw [if_neg h204, if_neg h404]

/-- Every counter of a blank fuse array reads 0 (R476). -/
theorem rollbackOf_reset (k : Nat) : rollbackOf State.reset k = 0 := by
  show [0, 0, 0, 0, 0].getD k 0 = 0
  rcases k with _ | _ | _ | _ | _ | k <;> rfl

end Sys2Proof.Machine
end

section
/-! SUPPORT. Burins: what moving past a stroke reads of the loops, and the launches of control strokes (R70, R71, R524). -/

namespace Sys2Proof.Machine

open Sys2Proof

/-! ### Past a stroke, in and out of loops (R71) -/

/-- Closing loops reads the frames it is given and not those that the burin holds; only a burin that meets a LOOP fault keeps
the latter. -/
theorem closeLoops_loops (fs l : List LoopFrame) (next last u : Nat) (b : Burin) :
    (closeLoops fs next last u { b with loops := l }).2 = (closeLoops fs next last u b).2 ∧
      ((closeLoops fs next last u b).2 = false →
        closeLoops fs next last u { b with loops := l } = closeLoops fs next last u b) := by
  induction fs with
  | nil => exact ⟨rfl, fun _ => rfl⟩
  | cons f fs ih =>
    unfold closeLoops
    split_ifs
    · exact ⟨rfl, nofun⟩
    · exact ⟨rfl, fun _ => rfl⟩
    · exact ih
    · exact ⟨rfl, fun _ => rfl⟩

section
variable {b : Burin} {last u : Nat} {f : LoopFrame} {fs : List LoopFrame}

theorem moveOn_noLoop (h : b.loops = []) : moveOn b last u = ({ b with idx := b.idx + 1, base := u, loops := [] }, false) := by
  unfold moveOn
  rw [h]
  rfl

theorem moveOn_inside (h : b.loops = f :: fs) (hnext : b.idx + 1 ≠ f.first + f.len) :
    moveOn b last u = ({ b with idx := b.idx + 1, base := u, loops := f :: fs }, false) := by
  unfold moveOn closeLoops
  rw [h]
  exact if_neg hnext

theorem moveOn_repeats (h : b.loops = f :: fs) (hnext : b.idx + 1 = f.first + f.len) (hin : last < f.base + f.period)
    (hleft : 0 < f.left) : moveOn b last u = ({ b with
      idx := f.first, base := u, force := some (f.base + f.period)
      loops := { f with left := f.left - 1, based := false } :: fs }, false) := by
  unfold moveOn closeLoops
  rw [h]
  dsimp only
  rw [if_pos hnext, if_neg (Nat.not_le.mpr hin), if_pos hleft]

/-- Past the last stroke of the last iteration the burin moves on as one that stands outside this loop. -/
theorem moveOn_leaves (h : b.loops = f :: fs) (hnext : b.idx + 1 = f.first + f.len) (hin : last < f.base + f.period)
    (hleft : f.left = 0) : moveOn b last u = closeLoops fs (b.idx + 1) last u b := by
  unfold moveOn
  rw [h]
  conv_lhs => unfold closeLoops
  rw [if_pos hnext, if_neg (Nat.not_le.mpr hin), if_neg (by omega)]

theorem moveOn_faults (h : b.loops = f :: fs) (hnext : b.idx + 1 = f.first + f.len) (hlate : f.base + f.period ≤ last) :
    moveOn b last u = (b, true) := by
  unfold moveOn closeLoops
  rw [h]
  dsimp only
  rw [if_pos hnext, if_pos hlate]

end

/-! ### Control strokes that launch (R71, R524) -/

section
variable {g : Fin 256} {n t w : Nat} {s : State}

theorem exec_nop (hready : Ready s g n t w 0 0 (resv 32 127)) (hgoes : GoesOn s g n t 0 t) :
    exec (.nop g) s = .next (movedOn (launched s g n t 0) g t t) := by
  show Host.Outcome.next (nopStroke s g) = _
  unfold nopStroke
  rw [launchWith_go _ hready (by simp [hready.isUnit, hready.isOp]) (by simp [hready.isUnit]) rfl, if_pos rfl,
    afterLaunch_go hgoes (hready.canLaunch t) rfl]

theorem exec_delay (hready : Ready s g n t w 0 4 (resv 64 127))
    (hversion : (pod (launched s g n t 0) g).burin.version ≠ 1) (hgoes : GoesOn s g n t 0 (t + bits w 32 32)) :
    exec (.delay g) s = .next (movedOn (launched s g n t 0) g t (t + bits w 32 32)) := by
  show Host.Outcome.next (delayStroke s g) = _
  unfold delayStroke
  rw [launchWith_go _ hready (by simp [hready.isUnit, hready.isOp]) rfl rfl, if_neg Bool.false_ne_true, if_neg hversion,
    afterLaunch_go hgoes (hready.canLaunch t) rfl]

theorem exec_endStep (hready : Ready s g n t w 0 3 (resv 32 127)) (hloops : (pod (launched s g n t 0) g).burin.loops = []) :
    exec (.endStep g) s = .next (modPod (launched s g n t 0) g (fun p =>
      { p with burin := { p.burin with idx := 0, base := t } })) := by
  show Host.Outcome.next (endStepStroke s g) = _
  unfold endStepStroke
  rw [launchWith_go _ hready (by simp [hready.isUnit, hready.isOp]) rfl rfl, if_neg Bool.false_ne_true,
    if_pos (List.isEmpty_iff.mpr hloops)]

/-- The frame that a LOOP stroke at index `idx` opens in hc `t` (R71). -/
def loopFrame (idx w t : Nat) : LoopFrame :=
  { first := idx + 1, len := bits w 32 16, left := bits w 64 32 - 1, period := bits w 96 32, base := t, based := false, last := t }

theorem exec_loop (hready : Ready s g n t w 0 1 (resv 48 63)) (hlen : 0 < bits w 32 16) (hcount : 0 < bits w 64 32)
    (hinside : (pod s g).burin.idx + 1 + bits w 32 16 ≤ (pod (launched s g n t 0) g).burin.prog.length)
    (hdeep : (pod (launched s g n t 0) g).burin.loops.length <
      if (pod (launched s g n t 0) g).burin.version = 1 then 2 else 4) :
    exec (.loop g) s = .next (modPod (launched s g n t 0) g (fun p => { p with burin := { p.burin with
      idx := (pod s g).burin.idx + 1, base := t, loops := loopFrame (pod s g).burin.idx w t :: p.burin.loops } })) := by
  have hgood : (bits w 32 16 = 0 || bits w 64 32 = 0 ||
      decide ((pod (launched s g n t 0) g).burin.prog.length < (pod s g).burin.idx + 1 + bits w 32 16) ||
      decide ((if (pod (launched s g n t 0) g).burin.version = 1 then 2 else 4) ≤
        (pod (launched s g n t 0) g).burin.loops.length)) = false := by
    simp only [Bool.or_eq_false_iff, decide_eq_false_iff_not]
    omega
  show Host.Outcome.next (loopStroke s g) = _
  unfold loopStroke
  rw [launchWith_go _ hready (by simp [hready.isUnit, hready.isOp]) rfl rfl, if_neg Bool.false_ne_true]
  dsimp only
  rw [if_neg (ne_true_of_eq_false hgood)]
  rfl

end

end Sys2Proof.Machine
end

section
/-! SUPPORT. Stroke faults: the stopped clock, the fault registers and the request for a reset, and the launch of a malformed
stroke (R70, R84, R432). -/

namespace Sys2Proof.Machine

open Sys2Proof

/-! ### The stopped clock (R84) -/

theorem foldl_modPod_shape (f : Nat → Pod → Pod) (l : List Nat) (s : State) :
    ∃ x, l.foldl (fun s g => modPod s g (f g)) s = { s with pods := x } :=
  List.foldlRecOn (motive := fun t : State => ∃ x, t = { s with pods := x }) l _ ⟨s.pods, rfl⟩ fun t ⟨x, hx⟩ g _ => by
    rw [hx]
    exact ⟨_, rfl⟩

theorem edgeCounts_offsets : ∀ o ∈ edgeCounts, o < 0x10000 ∧ o ≠ 0x220 := by decide

theorem not_faulted_of_running {s : State} {n : Nat} (h : running s n = true) : (gen s n).faulted = false := by
  unfold running at h
  simp only [Bool.and_eq_true, Bool.not_eq_true'] at h
  exact h.2

/-- Stopping a running clock leaves the hatch its pods and its partition; pods and generators change, and registers by the
counts of edges. -/
theorem stopClock_stops {s : State} {n : Nat} (h : Nat) (late : Bool) (hrun : running s n = true) :
    let t := stopClock s n h late
    (gen t n).faulted = true ∧ (gen t n).size = (gen s n).size ∧ (gen t n).part = (gen s n).part ∧ t.parts = s.parts ∧
      ∀ q < 256, rd t (podReg q 0x220) = rd s (podReg q 0x220) := by
  obtain ⟨x, hpods⟩ := foldl_modPod_shape (fun g => settleStop g h) (hatchPods s n) s
  obtain ⟨e, r, hreach⟩ := reachHc_shape { s with pods := x } n h
  obtain ⟨hsize, hpart, -⟩ := gen_reachHc_frame { s with pods := x } n h
  have hstop : stopClock s n h late = modGen (reachHc { s with pods := x } n h) n (fun y =>
      { y with faulted := true, stopHc := if late then some h else none }) := by
    unfold stopClock
    rw [if_neg (by simp [not_faulted_of_running hrun]), hpods]
  rw [hstop]
  dsimp only
  rw [gen_modGen_same]
  refine ⟨rfl, hsize, hpart, ?_, fun q hq => ?_⟩
  · rw [hreach]
    rfl
  · have hreg : podReg q 0x220 < dieBase 0 := podReg_lt q 0x220 hq (by decide)
    refine rd_reachHc { s with pods := x } n h _ hreg fun k o ho heq => ?_
    obtain ⟨hsmall, hother⟩ := edgeCounts_offsets o ho
    exact hother (podReg_inj (by decide) hsmall heq).2.symm

/-! ### Fault registers and requests (R84, R165, R432) -/

theorem recordFault_shape (s : State) (reg v : Nat) : ∃ r, recordFault s reg v = { s with regs := r } := by
  unfold recordFault
  dsimp only
  split_ifs <;> exact ⟨_, rfl⟩

theorem rd_recordFault_ne {s : State} {reg v a : Nat} (h : a ≠ reg) : rd (recordFault s reg v) a = rd s a := by
  unfold recordFault
  dsimp only
  split_ifs
  · exact rd_wr_ne _ _ _ _ h
  · exact rd_wr_ne _ _ _ _ h
  · rfl

theorem rd_recordFault_clear {s : State} {reg : Nat} (v : Nat) (h : rd s reg = 0) : rd (recordFault s reg v) reg = v := by
  unfold recordFault
  dsimp only
  rw [if_pos h, rd_wr_same]

theorem foldl_recordFault_shape (o v : Nat) (l : List Nat) (s : State) :
    ∃ r, l.foldl (fun s q => recordFault s (podReg q o) v) s = { s with regs := r } :=
  List.foldlRecOn (motive := fun t : State => ∃ r, t = { s with regs := r }) l _ ⟨s.regs, rfl⟩ fun t ⟨x, hx⟩ q _ => by
    rw [hx]
    exact recordFault_shape { s with regs := x } _ _

theorem rd_foldl_recordFault_of_notMem {o v q : Nat} (ho : o < 0x10000) {l : List Nat} (s : State) (hq : q ∉ l) :
    rd (l.foldl (fun s q => recordFault s (podReg q o) v) s) (podReg q o) = rd s (podReg q o) := by
  induction l generalizing s with
  | nil => rfl
  | cons a l ih =>
    obtain ⟨hqa, hql⟩ := not_or.mp (mt List.mem_cons.mpr hq)
    rw [List.foldl_cons, ih _ hql, rd_recordFault_ne fun h => hqa (podReg_inj ho ho h).1]

/-- Each pod of a list records the fault where its register was clear. -/
theorem rd_foldl_recordFault {o v q : Nat} (ho : o < 0x10000) {l : List Nat} {s : State} (hl : l.Nodup) (hq : q ∈ l)
    (hclear : rd s (podReg q o) = 0) : rd (l.foldl (fun s q => recordFault s (podReg q o) v) s) (podReg q o) = v := by
  induction l generalizing s with
  | nil => exact absurd hq List.not_mem_nil
  | cons a l ih =>
    obtain ⟨ha, hl⟩ := List.nodup_cons.mp hl
    rw [List.foldl_cons]
    by_cases hqa : q = a
    · subst hqa
      rw [rd_foldl_recordFault_of_notMem ho _ ha, rd_recordFault_clear v hclear]
    · refine ih hl (List.mem_of_ne_of_mem hqa hq) ?_
      rw [rd_recordFault_ne fun h => hqa (podReg_inj ho ho h).1, hclear]

theorem resetReq_requestReset {s : State} {p : Nat} (r : ResetReq) (h : (part s p).resetReq = none) :
    (part (requestReset s p r) p).resetReq = some r := by
  unfold requestReset
  rw [part_modPart_same, h]

/-- A stroke fault of a running hatch: its clock stops, every pod of it with a clear register records the fault, and its
partition asks for a reset unless it has (R84, R432). -/
theorem strokeFault_spec {s : State} {n : Nat} (g h code idx : Nat) (hrun : running s n = true) :
    let u := strokeFault s n g h code idx
    (gen u n).faulted = true ∧ (gen u n).part = (gen s n).part ∧
      (∀ q ∈ hatchPods s n, q < 256 → rd s (podReg q 0x220) = 0 → rd u (podReg q 0x220) = code + idx * 256) ∧
      ((part s (gen s n).part).resetReq = none → (part u (gen s n).part).resetReq = some ⟨1, g, 1⟩) := by
  obtain ⟨hfault, hsize, hpart, hparts, hregs⟩ := stopClock_stops h true hrun
  obtain ⟨r, hrec⟩ := foldl_recordFault_shape 0x220 (code + idx * 256) (hatchPods (stopClock s n h true) n) (stopClock s n h true)
  have hfold : strokeFault s n g h code idx =
      requestReset { stopClock s n h true with regs := r } (gen (stopClock s n h true) n).part ⟨1, g, 1⟩ := by
    unfold strokeFault
    dsimp only
    rw [hrec]
    rfl
  rw [hfold]
  refine ⟨hfault, hpart, fun q hq hlt hclear => ?_, fun hnone => ?_⟩
  · show rd { stopClock s n h true with regs := r } _ = _
    rw [← hrec]
    refine rd_foldl_recordFault (by decide) (hatchPods_nodup _ n) ?_ ((hregs q hlt).trans hclear)
    rwa [hatchPods_congr hsize]
  · rw [hpart]
    refine resetReq_requestReset _ ?_
    show (part (stopClock s n h true) _).resetReq = none
    rwa [part_congr hparts]

/-! ### A malformed stroke (R70) -/

/-- The launch of a stroke that its command takes, and that is not as R70 has it, is the fault BAD_UNIT. -/
theorem launchWith_bad {s : State} {g n t unit : Nat} {wv : BitVec 128} {takes : Nat → Bool} {res : Nat → Nat} {move : Bool}
    (eff : State → Nat → Nat → Nat → Nat → State) (hhatch : (pod s g).hatch = some n)
    (hword : (pod s g).burin.prog[(pod s g).burin.idx]? = some wv) (hdue : launchHc (pod s g).burin wv.toNat = t)
    (hfree : (pod s g).burin.waiting = false) (hclock : running s n = true) (hruns : running (advance s n t) n = true)
    (hgood : tget 0 (pod (atLaunch s n t) g).burin.errs ((pod s g).burin.idx / 2) = 0)
    (hissue : issueFault (pod (atLaunch s n t) g).burin t unit = false) (htakes : takes wv.toNat = true)
    (hbad : (bits wv.toNat 28 4 != 0 || (wv.toNat &&& res wv.toNat) != 0 ||
      !strokeDefined (strokeUnit wv.toNat) (strokeOp wv.toNat)) = true) :
    launchWith s g unit takes res move eff = strokeFault (atLaunch s n t) n g t 2 (pod s g).burin.idx := by
  subst hdue
  unfold atLaunch at hgood hissue
  unfold launchWith atLaunch
  simp only [hhatch, hword, running_canLaunch hclock, running_canLaunch hruns, hfree, htakes, hgood, hissue, hbad,
    noteStore_zero, eccBad_husk_zero, Bool.not_true, Bool.or_false, Bool.false_eq_true, if_false, if_true]

/-- Counting the edges up to a launch does not stop the clock. -/
theorem running_atLaunch (s : State) (n t : Nat) : running (atLaunch s n t) n = running (advance s n t) n := by
  unfold atLaunch
  rw [running_modGen _ _ _ rfl rfl, running_reachHc]

end Sys2Proof.Machine
end

section
/-! SUPPORT. Sleep at a common wait, the flits of a SEND, and granules that arrive and are written (R67, R75, R78, R258, R525). -/

namespace Sys2Proof.Machine

open Sys2Proof

/-! ### Sleep (R67) -/

theorem pending_of_podIdle {p : Pod} (h : podIdle p = true) : p.tilePend = [] ∧ p.spadPend = [] := by
  unfold podIdle at h
  simp only [Bool.and_eq_true, List.isEmpty_iff] at h
  exact ⟨h.2, h.1.2⟩

/-- With nothing in flight the delay alone decides. -/
theorem sleepHc_idle {s : State} {n : Nat} (h : ∀ g ∈ hatchPods s n, podIdle (pod s g) = true) :
    sleepHc s n = (gen s n).waitAt + (gen s n).sleepDelay := by
  have hnone : (hatchPods s n).flatMap (fun g => (pod s g).tilePend.map (·.hc) ++ (pod s g).spadPend.map (·.vis)) = [] := by
    rw [List.flatMap_eq_nil_iff]
    intro g hg
    obtain ⟨htiles, hspad⟩ := pending_of_podIdle (h g hg)
    rw [htiles, hspad]
    rfl
  unfold sleepHc
  rw [hnone]
  rfl

theorem hatchSleep_undelayed {s : State} {n : Nat} (h : (gen s n).sleepDelay = 0) : hatchSleep s n = s := by
  unfold hatchSleep
  dsimp only
  rw [if_neg (by simp [h])]

/-- At a common wait with a delay, the pods decide when everything under way has arrived. -/
theorem hatchSleep_waiting {s : State} {n : Nat} (hrun : running s n = true) (hkind : (gen s n).waitKind ≠ 0)
    (hall : (gen s n).waitPods = (gen s n).size) (hdelay : (gen s n).sleepDelay ≠ 0)
    (hruns : running (arriveTiles s n (sleepHc s n)) n = true) :
    hatchSleep s n =
      if (hatchPods (arriveTiles s n (sleepHc s n)) n).all (fun g => podIdle (pod (arriveTiles s n (sleepHc s n)) g)) then
        modGen (reachHc (arriveTiles s n (sleepHc s n)) n (sleepHc s n)) n (fun x => { x with st := .sleeping })
      else s := by
  unfold sleepHc at hruns ⊢
  unfold hatchSleep
  dsimp only
  rw [if_pos (by simp [hrun, hkind, hall, hdelay]), if_neg (by simp [hruns])]

/-! ### SEND (R525) -/

theorem exec_send {g : Fin 256} {n t w : Nat} {s : State} (hready : Ready s g n t w 5 1 (resv 39 47 + resv 88 127))
    (hgoes : GoesOn s g n t 5 t) (hdst : 128 * (g / 128) + bits w 32 7 ∈ hatchPods (launched s g n t 5) n)
    (hsrc : bits w 48 16 + 2 * (bits w 80 8 + 1) ≤ 65536) (hto : bits w 64 16 + 2 * (bits w 80 8 + 1) ≤ 65536) :
    exec (.send g) s = .next (movedOn (modPod (launched s g n t 5) g (fun p => { p with sends := p.sends ++
      [{ t := t, dst := 128 * (g / 128) + bits w 32 7, src := bits w 48 16, dstW := bits w 64 16,
         flits := bits w 80 8 + 1, lat := routeLat g (128 * (g / 128) + bits w 32 7), idx := (pod s g).burin.idx }] })) g t t) := by
  have hgood : (!(hatchPods (launched s g n t 5) n).contains (128 * (g / 128) + bits w 32 7) ||
      decide (65536 < bits w 48 16 + 2 * (bits w 80 8 + 1)) ||
      decide (65536 < bits w 64 16 + 2 * (bits w 80 8 + 1))) = false := by
    simp [hdst, hsrc, hto]
  show Host.Outcome.next (sendStroke s g) = _
  unfold sendStroke
  rw [launch_go _ hready rfl]
  dsimp only
  rw [if_neg (ne_true_of_eq_false hgood), afterLaunch_go hgoes]
  · exact running_canLaunch ((running_modPod _ _ _ _).trans hready.running)
  · rw [pod_modPod_same]

/-- The single SEND of a pod once it has written its next flit; none is left past its last (R525). -/
def sentOn (x : Send) : List Send := if x.nextWrite + 1 = x.flits then [] else [{ x with nextWrite := x.nextWrite + 1, data := [] }]

/-- The flit of a pod's single SEND that falls due goes to the other pod's port and is on its way into its scratchpad. -/
theorem sendDelivery_single {s : State} {g n h v : Nat} {x : Send} {q : Pod} (hhatch : (pod s g).hatch = some n)
    (hsend : (pod s g).sends = [x]) (hdue : h = x.t + x.nextWrite + x.lat - 4) (hrun : running (arrive s n h) n = true)
    (hread : (pod (arrive s n h) g).sends = [{ x with data := [(x.nextWrite, v)] }]) (hdst : x.dst ≠ g)
    (hport : portAccess (pod (arrive s n h) x.dst) h []
      [(x.dstW + 2 * x.nextWrite, x.idx), (x.dstW + 2 * x.nextWrite + 1, x.idx)] = (q, [])) :
    sendDelivery s g = setPod (modPod (reachHc (arrive s n h) n h) g (fun p => { p with sends := sentOn x })) x.dst
      { q with spadPend := q.spadPend ++ [⟨h + 4, h, x.t + x.nextWrite, g, 32 * (x.dstW + 2 * x.nextWrite), 64, v⟩] } := by
  have hmin : ((pod s g).sends.map (fun x => x.t + x.nextWrite + x.lat - 4)).min? = some h := by
    rw [hsend, hdue]
    rfl
  have hfirst : [{ x with data := [(x.nextWrite, v)] }].findIdx (fun x => x.t + x.nextWrite + x.lat - 4 == h) = 0 := by
    simp [List.findIdx_cons, hdue]
  unfold sendDelivery
  simp only [hhatch, hmin, hrun, hread, hfirst]
  simp [modPod, sentOn, hread, pod_setPod_ne _ _ _ _ hdst, hport]

/-! ### Granules (R75, R78, R258) -/

/-- A hatch that resumes, and one that does not: its generator alone changes, and only where it was held. -/
theorem tryResume_shape (s : State) (n : Nat) : ∃ e, tryResume s n = { s with gens := e } ∧
    (∀ m, m ≠ n → gen (tryResume s n) m = gen s m) ∧ ((gen s n).st ≠ .held → gen (tryResume s n) n = gen s n) := by
  unfold tryResume
  dsimp only
  split
  · next hheld =>
    refine ⟨_, rfl, fun m hm => gen_setGen_ne _ _ _ _ hm, fun hnot => absurd ?_ hnot⟩
    simp only [Bool.and_eq_true, beq_iff_eq] at hheld
    exact hheld.1
  · exact ⟨_, rfl, fun _ _ => rfl, fun _ => rfl⟩

/-- A pod in which the granules that were served as the `k`th have arrived. -/
def landedAt (k : Nat) (p : Pod) : Pod :=
  { p with landing := p.landing.map (fun l => if l.served == some k then { l with landed := true } else l) }

theorem granuleLanded_eq {s : State} {g n k : Nat} (hhatch : (pod s g).hatch = some n)
    (hfirst : (((pod s g).landing.filter (fun l => !l.landed)).filterMap (·.served)).min? = some k) :
    granuleLanded s g = tryResume (modPod s g (landedAt k)) n := by
  unfold granuleLanded
  simp only [hhatch, hfirst, modPod, landedAt]

/-- A pod whose port has taken the landing write of `x` in hc `h`: the granule is on its way to its words, to be read 4 hc later, and
its entry is free (R258). -/
def landingTaken (g h : Nat) (x : Landing) (q : Pod) : Pod :=
  { q with
    landing := q.landing.erase x
    landDone := q.landDone.filter (fun e => e.1 == h) ++ [(h, x.entry)]
    spadPend := q.spadPend ++ [⟨h + 4, h, h, g, 32 * x.word, 64, x.data⟩] }

theorem landingWrite_takes {s : State} {g n h : Nat} {x : Landing} {q : Pod} (hhatch : (pod s g).hatch = some n)
    (hdue : ((pod s g).landing.map (·.due)).min? = some h) (hrun : running (arrive s n h) n = true)
    (hfind : (pod (arrive s n h) g).landing.find? (fun l => l.due == h) = some x) (hgood : x.bad = false)
    (hplate : plateHc (part (reachHc (arrive s n h) n h) (gen (reachHc (arrive s n h) n h) n).part).share
      (pod (reachHc (arrive s n h) n h) g) h = true)
    (hport : portAccess (pod (reachHc (arrive s n h) n h) g) h [] [(x.word, x.idx), (x.word + 1, x.idx)] = (q, [])) :
    landingWrite s g = touchAll (sample (setPod (reachHc (arrive s n h) n h) g (landingTaken g h x q)) n 5 1)
      (2 ^ 40 + g * 0x200000 + 32 * x.word) 64 := by
  unfold landingWrite
  simp only [hhatch, hdue, hrun, hfind, hgood, hplate, hport]
  rfl

/-- The landing write changes the pod; beside it, counts, generators and what copies and update engines note of other
writers. -/
theorem landingWrite_shape {s : State} {g h n a k : Nat} (p : Pod) : ∃ e r x y,
    touchAll (sample (setPod (reachHc s n h) g p) n 5 1) a k =
      { setPod s g p with gens := e, regs := r, copies := x, upes := y } := by
  obtain ⟨e, r, hreach⟩ := reachHc_shape s n h
  obtain ⟨r', hsample⟩ := sample_shape (setPod (reachHc s n h) g p) n 5 1
  obtain ⟨x, y, htouch⟩ := touchAll_shape (sample (setPod (reachHc s n h) g p) n 5 1) a k
  rw [htouch, hsample, hreach]
  exact ⟨_, _, _, _, rfl⟩

end Sys2Proof.Machine
end

section
/-! The statements about the module at reset and about hatches in time (03_hatch_timing.md). -/

open Sys2Proof Sys2Proof.Machine

/-- Settles O6: a pod's registers by the rule of their block, the few registers of dies and module one by one, and tables that
hold nothing. -/
theorem moduleAtReset : Obligations.ModuleAtReset := by
  refine ⟨⟨fun g hg => ?_, ?_, ?_, rfl, rfl, rfl, ?_⟩, rfl, rfl, rfl, rfl, rfl, fun _ => rfl, fun _ => rfl, fun _ => ⟨rfl, rfl⟩,
    rollbackOf_reset⟩
  · rw [rd_reset, rd_reset, resetOf_podReg hg (by decide), resetOf_podReg hg (by decide)]
    exact ⟨rfl, rfl⟩
  · decide
  · decide
  · decide

/-- Settles O15: each control stroke by the rule of its launch. -/
theorem controlStrokesMoveTheBurin : Obligations.ControlStrokesMoveTheBurin := fun _ _ _ _ _ =>
  ⟨exec_nop, exec_delay, exec_endStep, exec_loop⟩

/-- Settles O16: the frame on top decides, and one whose last iteration ends gives way to the frames below it. -/
theorem loopsRepeatTheirBody : Obligations.LoopsRepeatTheirBody := by
  intro b last u f fs
  refine ⟨moveOn_noLoop, moveOn_inside, moveOn_repeats, fun h hnext hin hleft => ?_, fun h hnext hlate => ?_⟩
  · obtain ⟨hfault, hsame⟩ := closeLoops_loops fs fs (b.idx + 1) last u b
    rw [moveOn_leaves h hnext hin hleft]
    exact ⟨hfault.symm, fun hgood => (hsame hgood).symm⟩
  · rw [moveOn_faults h hnext hlate]

/-- Settles O18: the NOP command takes such a stroke, its launch is a stroke fault, and a stroke fault stops the hatch. -/
theorem badStrokeStopsTheHatch : Obligations.BadStrokeStopsTheHatch := by
  intro g n t wv s hhatch hword hdue hfree hclock hruns hgood hissue hbad
  have hrun : running (atLaunch s n t) n = true := (running_atLaunch s n t).trans hruns
  obtain ⟨hfault, hpart, hregs, hreset⟩ := strokeFault_spec g t 2 (pod s g).burin.idx hrun
  have hexec : exec (.nop g) s = .next (strokeFault (atLaunch s n t) n g t 2 (pod s g).burin.idx) := by
    refine congrArg Host.Outcome.next (launchWith_bad _ hhatch hword hdue hfree hclock hruns hgood hissue ?_ ?_)
    · rcases hbad with hundef | ⟨hunit, hop, -⟩
      · simp [hundef]
      · simp [hunit, hop]
    · rcases hbad with hundef | ⟨hunit, hop, hset | hset⟩
      · simp [hundef]
      · simp [hset]
      · simp [hunit, hset]
  refine ⟨_, hexec, hfault, ?_, hregs, ?_⟩
  · simp [running, hfault]
  · rw [hpart]
    exact hreset

/-- Settles O22: the hc by which everything under way has arrived, and then whether some pod has work in flight. -/
theorem hatchSleeps : Obligations.HatchSleeps := by
  intro n s hrun hkind hall
  refine ⟨sleepHc_idle, ?_, fun hdelay => congrArg Host.Outcome.next (hatchSleep_undelayed hdelay)⟩
  intro u hdelay hruns
  have hsleep := hatchSleep_waiting hrun hkind hall hdelay hruns
  refine ⟨fun hidle => congrArg Host.Outcome.next ?_, fun ⟨g, hg, hbusy⟩ => congrArg Host.Outcome.next ?_⟩
  · rw [hsleep, if_pos (List.all_eq_true.mpr hidle)]
  · rw [hsleep, if_neg fun hidle => absurd (List.all_eq_true.mp hidle g hg) (by simp [u, hbusy])]

/-- Settles O23: the stroke's checks all pass, and then the single SEND's flit that falls due. -/
theorem sendDeliversFlits : Obligations.SendDeliversFlits := by
  refine ⟨fun g n t w s => exec_send, fun g n h v x q s hhatch hsend hdue hrun hread hdst hport => ?_⟩
  exact congrArg Host.Outcome.next (sendDelivery_single hhatch hsend hdue hrun hread hdst hport)

/-- Settles O32: an arrival changes the pod and may let its generator go on; the landing write changes the pod, beside counts. -/
theorem granulesLand : Obligations.GranulesLand := by
  refine ⟨fun g n k s hhatch hfirst => ?_, ?_⟩
  · obtain ⟨e, hshape, hgens, hgen⟩ := tryResume_shape (modPod s g (landedAt k)) n
    refine ⟨_, congrArg Host.Outcome.next (granuleLanded_eq hhatch hfirst), ?_, fun j hj => ?_, hgens, hgen, ?_⟩
    · rw [hshape]
      exact pod_modPod_same _ _ _
    · rw [hshape]
      exact pod_modPod_ne _ _ _ _ hj
    · rw [hshape]
      exact ⟨rfl, rfl, rfl⟩
  · intro g n h s x q A R hhatch hdue hrun hfind hgood hplate hport
    obtain ⟨e, r, y, z, hshape⟩ := landingWrite_shape (s := A) (g := g) (h := h) (n := n)
      (a := 2 ^ 40 + g * 0x200000 + 32 * x.word) (k := 64) (landingTaken g h x q)
    refine ⟨_, congrArg Host.Outcome.next (landingWrite_takes hhatch hdue hrun hfind hgood hplate hport), ?_⟩
    rw [hshape]
    exact ⟨pod_setPod_same _ _ _, fun k hk => pod_setPod_ne _ _ _ _ hk, rfl, rfl, rfl, rfl, rfl⟩

end

section
/-! SUPPORT. The matrix array: planes, the span in which an array is busy, its strokes and its rows' results (R116–R118, R126,
R127, R133). -/

namespace Sys2Proof.Machine

open Sys2Proof

/-! ### Planes (R117) -/

@[simp] theorem setPlane_cfg (m : Mxa) (i : Nat) (x : Plane) : (setPlane m i x).cfg = m.cfg := by
  unfold setPlane
  split <;> rfl

@[simp] theorem setPlane_loads (m : Mxa) (i : Nat) (x : Plane) : (setPlane m i x).loads = m.loads := by
  unfold setPlane
  split <;> rfl

@[simp] theorem setPlane_streams (m : Mxa) (i : Nat) (x : Plane) : (setPlane m i x).streams = m.streams := by
  unfold setPlane
  split <;> rfl

@[simp] theorem setPlane_use0 (m : Mxa) (i : Nat) (x : Plane) : (setPlane m i x).use0 = m.use0 := by
  unfold setPlane
  split <;> rfl

@[simp] theorem setPlane_use1 (m : Mxa) (i : Nat) (x : Plane) : (setPlane m i x).use1 = m.use1 := by
  unfold setPlane
  split <;> rfl

@[simp] theorem pod_loadDone (s : State) (g i k : Nat) : pod (loadDone s g i) k = pod s k := by
  unfold loadDone
  split
  · exact pod_bump _ _ _ _
  · rfl

@[simp] theorem running_loadDone (s : State) (g i n : Nat) : running (loadDone s g i) n = running s n := by
  unfold loadDone
  split
  · exact running_bump _ _ _ _
  · rfl

/-- The plane that loads and becomes READY first is the one that loads alone. -/
theorem planeUsable_alone {s : State} {g n i : Nat} (hi : i < 2) (hhatch : (pod s g).hatch = some n)
    (hrun : running s n = true) (hloads : (plane (pod s g).mxa i).st = 1) (halone : (plane (pod s g).mxa (1 - i)).st ≠ 1)
    (hruns : running (arrive s n (plane (pod s g).mxa i).usable) n = true) :
    let t := (plane (pod s g).mxa i).usable
    planeUsable s g = bump (modPod (reachHc (arrive s n t) n t) g (fun p =>
      { p with mxa := setPlane p.mxa i { plane p.mxa i with st := 2 } })) (podReg g 0x420) 1 := by
  have hfirst : (if (pod s g).mxa.p0.st = 1 ∧ ((pod s g).mxa.p1.st ≠ 1 ∨
      (pod s g).mxa.p0.usable ≤ (pod s g).mxa.p1.usable) then 0 else 1) = i := by
    obtain rfl | rfl : i = 0 ∨ i = 1 := by omega
    · exact if_pos ⟨hloads, .inl halone⟩
    · exact if_neg fun h => halone h.1
  unfold planeUsable
  simp only [hhatch, hfirst, hrun, hloads, hruns]
  rfl

/-! ### The busy span and the start ramp (R127) -/

/-- An array whose busy span takes in a stream of `rows` rows from hc `t`: the present span grows where the stream meets it,
and else a new one begins. -/
def busyThrough (t rows : Nat) (m : Mxa) : Mxa :=
  match m.busyTo with
  | some e =>
    if t ≤ e + 1 then { m with busyTo := some (max e (t + rows - 1 + 165)) }
    else { m with busyFrom := t, busyTo := some (t + rows - 1 + 165) }
  | none => { m with busyFrom := t, busyTo := some (t + rows - 1 + 165) }

theorem busyThrough_grows {m : Mxa} {t rows e : Nat} (hbusy : m.busyTo = some e) (hmeets : t ≤ e + 1) :
    busyThrough t rows m = { m with busyTo := some (max e (t + rows - 1 + 165)) } := by
  unfold busyThrough
  simp only [hbusy]
  exact if_pos hmeets

theorem busyThrough_begins {m : Mxa} {t rows e : Nat} (hidle : m.busyTo = none ∨ m.busyTo = some e ∧ e + 1 < t) :
    busyThrough t rows m = { m with busyFrom := t, busyTo := some (t + rows - 1 + 165) } := by
  unfold busyThrough
  rcases hidle with hnone | ⟨hbusy, hlate⟩
  · simp only [hnone]
  · simp only [hbusy]
    exact if_neg (Nat.not_le.mpr hlate)

/-- A pod whose array's busy span takes in a stream. -/
def busyPod (t rows : Nat) (p : Pod) : Pod := { p with mxa := busyThrough t rows p.mxa }

/-- The first busy hc that a stream from hc `t` adds to an array. -/
def addedFrom (t : Nat) (m : Mxa) : Nat :=
  match m.busyTo with
  | some e => max t (e + 1)
  | none => t

theorem busySpan_eq (s : State) (n g t rows : Nat) :
    let u := modPod s g (busyPod t rows)
    let h := max t (gen s n).hc
    let k := h + 1 - addedFrom t (pod s g).mxa
    busySpan s n g t rows = if h < addedFrom t (pod s g).mxa then u else sample (bump u (podReg g 0x410) k) n 3 k := rfl

/-- A busy span grows in its pod alone, beside the counts of busy hc. -/
theorem busySpan_shape (s : State) (n g t rows : Nat) : ∃ r,
    busySpan s n g t rows = { modPod s g (busyPod t rows) with regs := r } := by
  rw [busySpan_eq]
  split
  · exact ⟨s.regs, rfl⟩
  · exact sample_regs _ _ _ (bump_shape _ _ _)

theorem pod_busySpan_same (s : State) (n g t rows : Nat) :
    pod (busySpan s n g t rows) g = busyPod t rows (pod s g) := by
  obtain ⟨r, hspan⟩ := busySpan_shape s n g t rows
  rw [hspan]
  exact pod_modPod_same s g (busyPod t rows)

theorem pod_busySpan_ne (s : State) (n g t rows k : Nat) (hk : k ≠ g) : pod (busySpan s n g t rows) k = pod s k := by
  obtain ⟨r, hspan⟩ := busySpan_shape s n g t rows
  rw [hspan]
  exact pod_modPod_ne s g k (busyPod t rows) hk

@[simp] theorem gens_busySpan (s : State) (n g t rows : Nat) : (busySpan s n g t rows).gens = s.gens := by
  obtain ⟨r, hspan⟩ := busySpan_shape s n g t rows
  rw [hspan]
  rfl

/-- A start ramp stretches edges of its hatch, and changes nothing else. -/
theorem startRamp_shape (s : State) (n t : Nat) :
    startRamp s n t = s ∨ ∃ l, startRamp s n t = setGen s n { gen s n with slow := l } := by
  unfold startRamp
  dsimp only
  exact (ite_eq_or_eq _ _ _).symm.imp_right fun hramp => ⟨_, hramp⟩

@[simp] theorem pod_startRamp (s : State) (n t k : Nat) : pod (startRamp s n t) k = pod s k := by
  obtain hsame | ⟨l, hramp⟩ := startRamp_shape s n t
  · rw [hsame]
  · rw [hramp]
    rfl

theorem gen_startRamp_ne (s : State) (n t k : Nat) (hk : k ≠ n) : gen (startRamp s n t) k = gen s k := by
  obtain hsame | ⟨l, hramp⟩ := startRamp_shape s n t
  · rw [hsame]
  · rw [hramp]
    exact gen_setGen_ne s n k _ hk

@[simp] theorem running_startRamp (s : State) (n t : Nat) : running (startRamp s n t) n = running s n := by
  obtain hsame | ⟨l, hramp⟩ := startRamp_shape s n t
  · rw [hsame]
  · rw [hramp]
    unfold running
    rw [gen_setGen_same]

theorem running_busySpan (s : State) (n g t rows k : Nat) : running (busySpan s n g t rows) k = running s k := by
  unfold running gen
  rw [gens_busySpan]

/-! ### Strokes (R116–R118) -/

/-- A stroke that is ready, and whose effect leaves its burin and its clock as they were, moves the burin on. -/
theorem launch_moves {s u : State} {g n t w unit op res : Nat} {eff : State → Nat → Nat → Nat → Nat → State}
    (hready : Ready s g n t w unit op res) (hgoes : GoesOn s g n t unit t) (hdefined : strokeDefined unit op = true)
    (heff : eff (launched s g n t unit) n t w (pod s g).burin.idx = u)
    (hrun : running u n = running (launched s g n t unit) n)
    (hburin : (pod u g).burin = (pod (launched s g n t unit) g).burin) :
    launch s g unit op res eff = movedOn u g t t := by
  rw [launch_go eff hready hdefined, heff]
  exact afterLaunch_go hgoes (running_canLaunch (hrun.trans hready.running)) hburin

/-- The operand configuration of a CONFIG stroke. -/
def configOf (w : Nat) : MxaCfg :=
  { aType := bits w 32 4, bType := bits w 36 4, aScaled := bit w 40, bScaled := bit w 41,
    aStride := bits w 48 16, aScaleAddr := bits w 64 16, bScaleAddr := bits w 80 16 }

/-- An array whose shadow plane a LOAD stroke fills from hc `t`. -/
def loadInto (t w e idx : Nat) (m : Mxa) : Mxa :=
  { setPlane m (1 - m.active) { plane m (1 - m.active) with
      st := 1, typ := m.cfg.bType, scaled := m.cfg.bScaled, rows := bits w 48 7 + 1, e := e,
      usable := t + (bits w 48 7 + 1) + 1 } with
    loads := m.loads ++ [⟨t, bits w 48 7 + 1, bits w 32 16, 1 - m.active, e, m.cfg.bScaleAddr, 0, idx⟩]
    lastLoad := some (t, bits w 48 7 + 1) }

/-- The plane that a STREAM stroke uses (R118). -/
def streamPlane (w : Nat) (m : Mxa) : Nat := if bit w 102 then 1 - m.active else m.active

/-- An array through which a STREAM stroke sends its rows from hc `t`. -/
def streamInto (t w idx : Nat) (m : Mxa) : Mxa :=
  let act := streamPlane w m
  let rows := bits w 80 12 + 1
  { setPlane m act { plane m act with st := 2 } with
    active := act
    streams := m.streams ++ [{
      t := t, rows := rows, aAddr := bits w 32 16, outAddr := bits w 48 16, accAddr := bits w 64 16,
      kExt := bits w 92 9 + 1, init := bit w 101, cfg := m.cfg, plane := { plane m act with st := 2 }, next := 0,
      idx := idx }]
    lastStream := some (t, rows)
    use0 := if act = 0 then some (t + rows - 1) else m.use0
    use1 := if act = 1 then some (t + rows - 1) else m.use1 }

section
variable {g : Fin 256} {n t w : Nat} {s : State}

theorem exec_mxaConfig (hready : Ready s g n t w 1 1 (resv 42 47 + resv 96 127)) (hgoes : GoesOn s g n t 1 t)
    (hatype : bits w 32 4 < 13) (hbtype : bits w 36 4 < 13) :
    exec (.mxaConfig g) s = .next (movedOn (modPod (launched s g n t 1) g (fun p =>
      { p with mxa := { p.mxa with cfg := configOf w } })) g t t) := by
  refine congrArg Host.Outcome.next (launch_moves hready hgoes rfl (if_neg (by omega)) (running_modPod _ _ _ _) ?_)
  rw [pod_modPod_same]

theorem exec_mxaLoad {e : Nat} (hready : Ready s g n t w 1 2 (resv 55 127)) (hgoes : GoesOn s g n t 1 t)
    (hgood : loadFaults (pod (launched s g n t 1) g).mxa t (bits w 48 7 + 1) (bits w 32 16) = [])
    (hpair : pairE (pod (launched s g n t 1) g).mxa.cfg.aType (pod (launched s g n t 1) g).mxa.cfg.bType = some e) :
    exec (.mxaLoad g) s = .next (movedOn
      (modPod (loadDone (launched s g n t 1) g (1 - (pod (launched s g n t 1) g).mxa.active)) g (fun p =>
        { p with mxa := loadInto t w e (pod s g).burin.idx p.mxa })) g t t) := by
  refine congrArg Host.Outcome.next (launch_moves hready hgoes rfl ?_ ?_ ?_)
  · simp only [hgood, hpair, Option.getD_some, modPod, pod_loadDone, loadInto, setPlane_cfg, setPlane_loads]
  · rw [running_modPod, running_loadDone]
  · rw [pod_modPod_same, pod_loadDone]

theorem exec_mxaStream (hready : Ready s g n t w 1 3 (resv 103 127)) (hgoes : GoesOn s g n t 1 t)
    (hgood : streamFaults (pod (launched s g n t 1) g).mxa t w = []) :
    exec (.mxaStream g) s = .next (movedOn (startRamp (busySpan
      (modPod (loadDone (launched s g n t 1) g (streamPlane w (pod (launched s g n t 1) g).mxa)) g (fun p =>
        { p with mxa := streamInto t w (pod s g).burin.idx (pod (launched s g n t 1) g).mxa }))
      n g t (bits w 80 12 + 1)) n t) g t t) := by
  refine congrArg Host.Outcome.next (launch_moves hready hgoes rfl ?_ ?_ ?_)
  · simp only [hgood, streamInto, setPlane_streams, setPlane_use0, setPlane_use1]
    rfl
  · rw [running_startRamp, running_busySpan, running_modPod, running_loadDone]
  · rw [pod_startRamp, pod_busySpan_same, busyPod, pod_modPod_same, pod_loadDone]

end

/-! ### Rows' results (R126, R133, R488) -/

/-- What the result of row `r` of pod `g`'s array sets and counts: its flags, the row, and its products by the classes of A
and of B, in partition `q`. -/
def rowDelivered (s : State) (g q : Nat) (r : MxaRow) : State :=
  countOps (countOps (bump (setBits s (podReg g 0x408) r.flags) (podReg g 0x418) 1) (g / 128) q 0 r.aType r.products)
    (g / 128) q 1 r.bType r.products

@[simp] theorem pod_rowDelivered (s : State) (g q : Nat) (r : MxaRow) (k : Nat) : pod (rowDelivered s g q r) k = pod s k := by
  unfold rowDelivered
  rw [pod_countOps, pod_countOps, pod_bump]
  rfl

/-- Pod `g` from whose array the oldest row has left, the rows `rs` staying. -/
def withRows (s : State) (g : Nat) (rs : List MxaRow) : State :=
  setPod s g { pod s g with mxa := { (pod s g).mxa with rows := rs } }

theorem mxaRowResult_delivers {s : State} {g n t : Nat} {r : MxaRow} {rs rs' : List MxaRow} (hhatch : (pod s g).hatch = some n)
    (hrows : (pod s g).mxa.rows = r :: rs) (hdue : t = r.launch + 166) (hrun : running (arrive s n t) n = true)
    (hleft : (pod (arrive s n t) g).mxa.rows = r :: rs') :
    mxaRowResult s g = rowDelivered (reachHc (withRows (arrive s n t) g rs') n t) g
      (gen (reachHc (withRows (arrive s n t) g rs') n t) n).part r := by
  subst hdue
  unfold mxaRowResult
  simp only [hhatch, hrows, hrun, hleft, gen_bump]
  rfl

end Sys2Proof.Machine
end

section
/-! The statement about the matrix array (05_matrix_array.md). -/

open Sys2Proof Sys2Proof.Machine

/-- Settles O24: each stroke by the rule of its launch, the busy span by whether the stream meets it, and the oldest row by what
its result counts. -/
theorem matrixArrayRuns : Obligations.MatrixArrayRuns := by
  refine ⟨fun g n t w s => ⟨exec_mxaConfig, fun e => exec_mxaLoad, ?_⟩, fun g n t w s => ⟨exec_mxaStream, fun u e => ?_, ?_⟩⟩
  · rintro i hi hhatch hrun hloads halone rfl hruns
    exact congrArg Host.Outcome.next (planeUsable_alone hi hhatch hrun hloads halone hruns)
  · refine ⟨fun hbusy hmeets => ?_, fun hidle => ?_, pod_busySpan_ne u n g t _, gens_busySpan u n g t _, pod_startRamp u n t,
      gen_startRamp_ne u n t⟩
    · rw [pod_busySpan_same, busyPod, busyThrough_grows hbusy hmeets]
    · rw [pod_busySpan_same, busyPod, busyThrough_begins hidle]
  · intro r rs rs' hhatch hrows hdue hrun hleft
    refine ⟨_, congrArg Host.Outcome.next (mxaRowResult_delivers hhatch hrows hdue hrun hleft), rfl, ?_, fun q hq => ?_⟩
    · rw [pod_rowDelivered, pod_reachHc]
      exact congrArg (·.mxa.rows) (pod_setPod_same _ _ _)
    · rw [pod_rowDelivered, pod_reachHc]
      exact pod_setPod_ne _ _ _ _ hq

end

section
/-! SUPPORT. Vector pipes: row operations start their rows, launched by a stroke or by a stipple, and what a pipe's context and
its tables become (R141, R150, R161–R164, R169, R180–R182). -/

namespace Sys2Proof.Machine

open Sys2Proof

/-! ### A pod's pipes and a pipe's tables -/

/-- Storing a pipe changes the two pipes' fields alone. -/
theorem setPipe_shape (p : Pod) (i : Nat) (x : Pipe) : ∃ y z, setPipe p i x = { p with pipe0 := y, pipe1 := z } := by
  unfold setPipe
  split <;> exact ⟨_, _, rfl⟩

@[simp] theorem burin_setPipe (p : Pod) (i : Nat) (x : Pipe) : (setPipe p i x).burin = p.burin := by
  obtain ⟨y, z, hset⟩ := setPipe_shape p i x
  rw [hset]

/-- Of the two pipes, storing one leaves the other. -/
theorem pipe_setPipe_other (p : Pod) {i : Nat} (hi : i < 2) (x : Pipe) : pipe (setPipe p i x) (1 - i) = pipe p (1 - i) :=
  pipe_setPipe_ne p i (1 - i) x fun h => by simp only [eq_iff_iff] at h; omega

@[simp] theorem pip_setPip_same (q : Pipe) (j : Nat) (t : Pip) : pip (setPip q j t) j = t := by
  unfold pip setPip
  split <;> rfl

/-- Storing a table changes the two tables' fields alone. -/
theorem setPip_shape (q : Pipe) (j : Nat) (t : Pip) : ∃ y z, setPip q j t = { q with pt0 := y, pt1 := z } := by
  unfold setPip
  split <;> exact ⟨_, _, rfl⟩

/-! ### Rows that start (R141, R169) -/

/-- The rows that operation `ins`, launched in hc `t` for repetition `n`, puts in flight on pipe `i` in state `q`. -/
def launchedRows (i t n e : Nat) (ins : VIns) (x : VSite) (a : Nat) (q : Pipe) : List VRow :=
  tab ins.nrows (fun k => {
    pipe := i, ins := ins, row := ins.row0 + k, readHc := t + vOcc ins * k, writeHc := t + vOcc ins * k + vLatency ins,
    site := x, stream := q.stream, ebase := q.rbase + n * e, pitch := q.pitch, table := a })

/-- Pipe `i`, in state `q` before, on which the rows of `ins` have started in hc `t`: a PIP holds its table (R182). -/
def startedPipe (i t n e : Nat) (ins : VIns) (x : VSite) (a : Nat) (q : Pipe) : Pipe :=
  let r := { q with portFree := t + vOcc ins * ins.nrows, rows := q.rows ++ launchedRows i t n e ins x a q }
  if ins.op = 0x44 then setPip r a { pip r a with held := max (pip r a).held (t + 4 * (ins.nrows - 1) + 16) } else r

/-- A pod on whose pipe `i` the rows of `ins` have started. -/
def startedPod (i t n e : Nat) (ins : VIns) (x : VSite) (a : Nat) (p : Pod) : Pod :=
  setPipe p i (startedPipe i t n e ins x a (pipe p i))

section
variable (i t n e : Nat) (ins : VIns) (x : VSite) (a : Nat) (q : Pipe)

/-- But for its tables, a pipe whose rows have started differs in its port and its rows. -/
theorem startedPipe_shape : ∃ y z, startedPipe i t n e ins x a q =
    { q with portFree := t + vOcc ins * ins.nrows, rows := q.rows ++ launchedRows i t n e ins x a q, pt0 := y, pt1 := z } := by
  unfold startedPipe
  dsimp only
  split
  · exact setPip_shape _ _ _
  · exact ⟨_, _, rfl⟩

theorem portFree_startedPipe : (startedPipe i t n e ins x a q).portFree = t + vOcc ins * ins.nrows := by
  obtain ⟨y, z, hshape⟩ := startedPipe_shape i t n e ins x a q
  rw [hshape]

theorem rows_startedPipe : (startedPipe i t n e ins x a q).rows = q.rows ++ launchedRows i t n e ins x a q := by
  obtain ⟨y, z, hshape⟩ := startedPipe_shape i t n e ins x a q
  rw [hshape]

theorem pip_startedPipe_of_pip (hop : ins.op = 0x44) : pip (startedPipe i t n e ins x a q) a =
    { pip q a with held := max (pip q a).held (t + 4 * (ins.nrows - 1) + 16) } := by
  unfold startedPipe
  rw [if_pos hop, pip_setPip_same]
  rfl

theorem pip_startedPipe_of_ne (hop : ins.op ≠ 0x44) : pip (startedPipe i t n e ins x a q) a = pip q a := by
  unfold startedPipe
  rw [if_neg hop]
  rfl

end

/-- A row operation that starts changes its pod's pipe, and counts rows and occupied hc. -/
theorem startRows_eq (s : State) (h g i t n e : Nat) (ins : VIns) (x : VSite) (a : Nat) :
    let u := modPod s g (startedPod i t n e ins x a)
    let b := vecBusyIn (pipe (pod u g) i) t (max t (gen s h).hc)
    startRows s h g i t n e ins x a = sample (bump (bump u (podReg g (0x618 + 8 * i)) (ceilDiv' b (vOcc ins)))
      (podReg g (0x628 + 8 * i)) b) h 4 b := rfl

theorem startRows_shape (s : State) (h g i t n e : Nat) (ins : VIns) (x : VSite) (a : Nat) : ∃ r,
    startRows s h g i t n e ins x a = { modPod s g (startedPod i t n e ins x a) with regs := r } := by
  rw [startRows_eq]
  exact sample_regs _ _ _ (bump_bump_shape _ _ _ _ _)

section
variable (s : State) (h g i t n e : Nat) (ins : VIns) (x : VSite) (a : Nat)

theorem pod_startRows_same : pod (startRows s h g i t n e ins x a) g = startedPod i t n e ins x a (pod s g) := by
  obtain ⟨r, hshape⟩ := startRows_shape s h g i t n e ins x a
  rw [hshape]
  exact pod_modPod_same s g (startedPod i t n e ins x a)

theorem pod_startRows_ne (k : Nat) (hk : k ≠ g) : pod (startRows s h g i t n e ins x a) k = pod s k := by
  obtain ⟨r, hshape⟩ := startRows_shape s h g i t n e ins x a
  rw [hshape]
  exact pod_modPod_ne s g k (startedPod i t n e ins x a) hk

theorem pipe_startRows_same :
    pipe (pod (startRows s h g i t n e ins x a) g) i = startedPipe i t n e ins x a (pipe (pod s g) i) := by
  rw [pod_startRows_same, startedPod, pipe_setPipe_same]

@[simp] theorem gen_startRows (k : Nat) : gen (startRows s h g i t n e ins x a) k = gen s k := by
  obtain ⟨r, hshape⟩ := startRows_shape s h g i t n e ins x a
  rw [hshape]
  rfl

@[simp] theorem running_startRows (k : Nat) : running (startRows s h g i t n e ins x a) k = running s k := by
  unfold running
  rw [gen_startRows]

@[simp] theorem burin_startRows : (pod (startRows s h g i t n e ins x a) g).burin = (pod s g).burin := by
  rw [pod_startRows_same, startedPod, burin_setPipe]

end

/-- Two pod registers' counts, one after the other: each has grown by its own. -/
theorem rd_bump_bump {s : State} {g o o' c d : Nat} (hg : g < 256) (ho : o < 0x10000) (ho' : o' < 0x10000) (hne : o ≠ o') :
    (rd s (podReg g o) + c < 2 ^ 64 →
      rd (bump (bump s (podReg g o) c) (podReg g o') d) (podReg g o) = rd s (podReg g o) + c) ∧
    (rd s (podReg g o') + d < 2 ^ 64 →
      rd (bump (bump s (podReg g o) c) (podReg g o') d) (podReg g o') = rd s (podReg g o') + d) := by
  have hreg : podReg g o' ≠ podReg g o := fun heq => hne (podReg_off heq).symm
  have hkept : rd (bump s (podReg g o) c) (podReg g o') = rd s (podReg g o') :=
    rd_bump_ne _ _ _ _ hreg (podReg_ne_satReg hg ho')
  refine ⟨fun hlt => ?_, fun hlt => ?_⟩
  · rw [rd_bump_ne _ _ _ _ hreg.symm (podReg_ne_satReg hg ho), bump_eq _ _ _ hlt, rd_wr_same]
  · rw [bump_eq _ _ _ (hkept ▸ hlt), rd_wr_same, hkept]

/-- A row operation's rows and occupied hc are counted up to the hatch's present hc (R169). -/
theorem rd_startRows {s : State} {g i : Nat} (hg : g < 256) (hi : i < 2) (h t n e : Nat) (ins : VIns) (x : VSite) (a : Nat) :
    let u := startRows s h g i t n e ins x a
    let b := vecBusyIn (pipe (pod u g) i) t (max t (gen s h).hc)
    (rd s (podReg g (0x618 + 8 * i)) + ceilDiv' b (vOcc ins) < 2 ^ 64 →
      rd u (podReg g (0x618 + 8 * i)) = rd s (podReg g (0x618 + 8 * i)) + ceilDiv' b (vOcc ins)) ∧
    (rd s (podReg g (0x628 + 8 * i)) + b < 2 ^ 64 → rd u (podReg g (0x628 + 8 * i)) = rd s (podReg g (0x628 + 8 * i)) + b) := by
  have hrows : podReg g (0x618 + 8 * i) < dieBase 0 := podReg_lt g _ hg (by omega)
  have hbusy : podReg g (0x628 + 8 * i) < dieBase 0 := podReg_lt g _ hg (by omega)
  dsimp only
  rw [pod_startRows_same, startRows_eq, rd_sample _ _ _ _ _ hrows, rd_sample _ _ _ _ _ hbusy, pod_modPod_same]
  exact rd_bump_bump (s := modPod s g (startedPod i t n e ins x a)) (o := 0x618 + 8 * i) (o' := 0x628 + 8 * i) hg
    (by omega) (by omega) (by omega)

/-! ### Row operations that launch (R165, R169) -/

/-- A row operation that nothing stands in the way of starts its rows; a stroke's also needs a pipe that no stipple owns. -/
theorem launchRows_clear {s : State} {h g t i w n e : Nat} {x : VSite} {own : Bool}
    (hclear : rowsClear (pipe (pod s g) i) t (vdec w))
    (hown : own = true ∨ (pipe (pod s g) i).stip = none ∧ (pipe (pod s g) i).owned ≤ t) :
    launchRows s g h t i w n e x own = startRows s h g i t n e (vdec w) x (activeTable (pipe (pod s g) i) t) := by
  obtain ⟨hgood, hmode, hextent, hport, hpip⟩ := hclear
  have hfree : ¬ (t < (pipe (pod s g) i).portFree ∨
      (!own && ((pipe (pod s g) i).stip.isSome || decide (t < (pipe (pod s g) i).owned))) = true) := by
    rintro (hbusy | hbusy)
    · omega
    · rcases hown with rfl | ⟨hnone, howned⟩
      · exact Bool.false_ne_true hbusy
      · simp [hnone, Nat.not_lt.mpr howned] at hbusy
  unfold launchRows
  dsimp only
  rw [if_neg (ne_true_of_eq_false hgood), if_neg (ne_true_of_eq_false hmode), if_neg (ne_true_of_eq_false hextent),
    if_neg hfree, if_neg fun hempty => (hpip hempty.1).1 hempty.2,
    if_neg fun hbad => ne_true_of_eq_false (hpip hbad.1).2 hbad.2]

theorem exec_rowCommand : ∀ x ∈ rowCommands, ∀ (g : Fin 256) (i : Fin 2) (stip : Bool) (s : State),
    exec (x.1 g i stip) s = .next (vecOp s g i x.2 stip) := by
  intro x hx
  fin_cases hx <;> exact fun _ _ _ _ => rfl

theorem isRowOp_rowCommand : ∀ x ∈ rowCommands, isRowOp x.2 = true := by decide

/-- Both pipes define the same operations. -/
theorem strokeDefined_pipe (i : Fin 2) (op : Nat) : strokeDefined (2 + i) op = strokeDefined 2 op :=
  match i with
  | 0 => rfl
  | 1 => rfl

theorem strokeDefined_of_isRowOp {op : Nat} (h : isRowOp op = true) (i : Fin 2) : strokeDefined (2 + i) op = true := by
  rw [strokeDefined_pipe]
  simp [strokeDefined, h]

/-- A stroke's row operation starts its rows, and the burin moves on. -/
theorem vecOp_stroke {g : Fin 256} {i : Fin 2} {n t w op : Nat} {s : State} (hop : isRowOp op = true)
    (hready : Ready s g n t w (2 + i) op 0) (hgoes : GoesOn s g n t (2 + i) t)
    (hclear : rowsClear (pipe (pod (launched s g n t (2 + i)) g) i) t (vdec w))
    (hstip : (pipe (pod (launched s g n t (2 + i)) g) i).stip = none)
    (howned : (pipe (pod (launched s g n t (2 + i)) g) i).owned ≤ t) :
    vecOp s g i op false = movedOn (startRows (launched s g n t (2 + i)) n g i t 0 0 (vdec w)
      ⟨(pod s g).burin.idx, i, false, 0, 0⟩ (activeTable (pipe (pod (launched s g n t (2 + i)) g) i) t)) g t t := by
  unfold vecOp
  rw [if_neg Bool.false_ne_true]
  exact launch_moves hready hgoes (strokeDefined_of_isRowOp hop i) (launchRows_clear hclear (.inr ⟨hstip, howned⟩))
    (running_startRows ..) (burin_startRows ..)

end Sys2Proof.Machine
end

section
/-! SUPPORT. Stipples, a pipe's rounding context and its pip tables: what runs where nothing stands in the way (R150, R160–R164,
R180, R181, R187). -/

namespace Sys2Proof.Machine

open Sys2Proof

/-! ### The next instruction of a running stipple (R160, R163) -/

theorem StipReady.stip {s : State} {g n t i w : Nat} {z : Stip} (h : StipReady s g n t i w z) :
    (pipe (pod s g) i).stip = some z := by
  obtain ⟨-, hstip, -⟩ := h
  exact hstip

theorem StipReady.unit {s : State} {g n t i w : Nat} {z : Stip} (h : StipReady s g n t i w z) : bits w 16 4 = 0 := by
  obtain ⟨-, -, -, -, -, -, -, hunit⟩ := h
  exact hunit

/-- Counting the edges up to an instruction's launch does not stop the clock. -/
theorem StipReady.running {s : State} {g n t i w : Nat} {z : Stip} (h : StipReady s g n t i w z) :
    running (reachHc (advance s n t) n t) n = true := by
  obtain ⟨-, -, -, -, -, hruns, -, -⟩ := h
  rw [running_reachHc, hruns]

/-- An instruction that its command takes launches in the hatch brought to its hc. -/
theorem stipWith_go {s : State} {g n t i w : Nat} {z : Stip} {takes : Nat → Bool}
    (eff : State → Nat → Nat → Nat → Stip → VSite → State) (h : StipReady s g n t i w z)
    (htakes : takes (strokeOp w) = true) :
    stipWith s g i takes eff = eff (reachHc (advance s n t) n t) n t w z ⟨z.idx, i, true, z.slot, z.instr⟩ := by
  obtain ⟨hhatch, hstip, rfl, rfl, hclock, hruns, hgood, -⟩ := h
  unfold stipWith
  simp only [hhatch, hstip, htakes, hgood, running_canLaunch hclock, running_canLaunch hruns, noteStore_zero,
    eccBad_husk_zero, Bool.not_true, Bool.or_false, Bool.false_eq_true, if_false]

/-- Pipe `i` of pod `g` runs stipple `z`, or none; the pipe is its stroke program's again from hc `o` on. -/
def putStip (s : State) (g i : Nat) (z : Option Stip) (o : Nat) : State :=
  modPod s g (fun p => setPipe p i { pipe p i with stip := z, owned := o })

/-- Past an instruction of a running clock a stipple stands at the next, where its slot has one. -/
theorem stipMoveOn_go {s : State} {h t : Nat} (g i : Nat) {z : Stip} (x : VSite) (hrun : running s h = true)
    (hinside : z.instr < 31) : stipMoveOn s h g i t z x = modPod s g (fun p =>
      setPipe p i { pipe p i with stip := some { z with instr := z.instr + 1, base := t } }) := by
  unfold stipMoveOn
  rw [if_neg (by simp [running_canLaunch hrun]), if_neg (by omega)]

/-- A stipple's row operation starts its relocated rows, and the stipple moves on (R162). -/
theorem vecOp_stipple {s : State} {g n t i w op : Nat} {z : Stip} (h : StipReady s g n t i w z) (hop : strokeOp w = op)
    (hgood : vBadStroke (vdec w) = false) (hinside : z.instr < 31) :
    let R := reachHc (advance s n t) n t
    let ins := vdec (relocate w (z.tbase + z.rep * z.tstep))
    rowsClear (pipe (pod R g) i) t ins →
    vecOp s g i op true = modPod (startRows R n g i t z.rep z.estep ins ⟨z.idx, i, true, z.slot, z.instr⟩
      (activeTable (pipe (pod R g) i) t)) g (fun p =>
        setPipe p i { pipe p i with stip := some { z with instr := z.instr + 1, base := t } }) := by
  intro R ins hclear
  have hrun : running R n = true := h.running
  have hunit : bits w 16 4 = 0 := h.unit
  unfold vecOp
  rw [if_pos rfl, stipWith_go _ h (by simp [hop])]
  simp only [hgood, hunit, launchRows_clear hclear (.inl rfl), gen_startRows, not_faulted_of_running hrun, bne_self_eq_false,
    Bool.false_eq_true, Bool.false_and, if_false, R]
  exact stipMoveOn_go g i _ ((running_startRows ..).trans hrun) hinside

/-! ### STIP and END (R161, R163, R164) -/

/-- The stipple that a STIP stroke `w`, the burin's stroke `idx`, starts in hc `t`. -/
def stipOf (w t idx : Nat) : Stip :=
  { first := bits w 32 4, slot := bits w 32 4, instr := 0, base := t, tbase := bits w 36 6, tstep := bits w 42 6,
    count := bits w 48 8 + 1, estep := bits w 56 24, rep := 0, links := 0, idx := idx }

theorem exec_stip {g : Fin 256} {i : Fin 2} {n t w : Nat} {s : State} (hready : Ready s g n t w (2 + i) 0x38 (resv 80 127))
    (hgoes : GoesOn s g n t (2 + i) t) (hstip : (pipe (pod (launched s g n t (2 + i)) g) i).stip = none)
    (howned : (pipe (pod (launched s g n t (2 + i)) g) i).owned ≤ t)
    (hport : (pipe (pod (launched s g n t (2 + i)) g) i).portFree ≤ t)
    (hslot : tget [] (pod (launched s g n t (2 + i)) g).slots (bits w 32 4) ≠ []) :
    exec (.stip g i) s = .next (movedOn (modPod (launched s g n t (2 + i)) g (fun p =>
      setPipe p i { pipe p i with stip := some (stipOf w t (pod s g).burin.idx) })) g t t) := by
  refine congrArg Host.Outcome.next (launch_moves hready hgoes (strokeDefined_pipe i 0x38) ?_ (running_modPod ..) ?_)
  · dsimp only
    rw [if_neg (by simp [hstip, howned, hport]), if_neg (mt List.isEmpty_iff.mp hslot)]
    rfl
  · rw [pod_modPod_same, burin_setPipe]

/-- END of a slot, where no END stroke of the burin comes before it: what follows is decided by LINK and the count of
repetitions. -/
theorem stippleEnd_eq {s : State} {g n t i w : Nat} {z : Stip} (h : StipReady s g n t i w z)
    (hburin : burinEnd (pod s g) i z = false) (hop : strokeOp w = 0x3F) (hrsv : w / 2 ^ 37 = 0) :
    let R := reachHc (advance s n t) n t
    let x : VSite := ⟨z.idx, i, true, z.slot, z.instr⟩
    stippleEnd s g i =
      if bit w 36 then
        if 3 ≤ z.links then vecFault R n g t 6 x
        else if (tget [] (pod R g).slots (bits w 32 4)).isEmpty then vecFault R n g t 5 x
        else putStip R g i (some { z with slot := bits w 32 4, instr := 0, base := t, links := z.links + 1 })
          (pipe (pod R g) i).owned
      else if z.rep + 1 < z.count then
        putStip R g i (some { z with slot := z.first, instr := 0, base := t, links := 0, rep := z.rep + 1 })
          (pipe (pod R g) i).owned
      else putStip R g i none (max t (pipe (pod R g) i).portFree) := by
  have hstip : (pipe (pod s g) i).stip = some z := h.stip
  have hunit : bits w 16 4 = 0 := h.unit
  unfold stippleEnd
  simp only [hstip, hburin, Bool.false_eq_true, if_false]
  rw [stipWith_go _ h (by rw [hop]; rfl)]
  simp only [hop, hrsv, hunit, bne_self_eq_false, Bool.false_eq_true, if_false, if_true]
  rfl

/-! ### Rounding context and tables (R150, R180, R181, R187) -/

theorem setRnd_stroke {g : Fin 256} {i : Fin 2} {n t w : Nat} {s : State}
    (hready : Ready s g n t w (2 + i) 0x30 (resv 122 127)) (hgoes : GoesOn s g n t (2 + i) t)
    (hstip : (pipe (pod (launched s g n t (2 + i)) g) i).stip = none)
    (howned : (pipe (pod (launched s g n t (2 + i)) g) i).owned ≤ t) :
    setRnd s g i false = movedOn (modPod (launched s g n t (2 + i)) g (fun p => setPipe p i { pipe p i with
      stream := bits w 32 16, rbase := bits w 48 50, pitch := bits w 98 24 })) g t t := by
  unfold setRnd
  rw [if_neg Bool.false_ne_true]
  refine launch_moves hready hgoes (strokeDefined_pipe i 0x30) ?_ (running_modPod ..) ?_
  · exact if_neg (by simp [hstip, howned])
  · rw [pod_modPod_same, burin_setPipe]

/-- The reads of a PTLOAD stroke `w`, the burin's stroke `idx`, in the hc `hs`, into table `j` (R180). -/
def tableReads (hs : List Nat) (w j idx : Nat) : List PtRead :=
  (List.range 5).map fun k => ⟨nth 0 hs k, bits w 32 16 + 32 * k, if k = 4 then 4 else 32, 32 * k, j, idx⟩

/-- A pipe whose table that is not active a PTLOAD stroke loads by reads in the hc `hs`. -/
def loadTable (hs : List Nat) (w idx : Nat) (q : Pipe) : Pipe :=
  { setPip q (1 - q.act) { st := 1, img := 0, ready := nth 0 hs 4 + 4, held := (pip q (1 - q.act)).held } with
    ptReads := q.ptReads ++ tableReads hs w (1 - q.act) idx }

theorem ptLoad_stroke {g : Fin 256} {i : Fin 2} {n t w : Nat} {s : State}
    (hready : Ready s g n t w (2 + i) 0x48 (resv 48 127)) (hgoes : GoesOn s g n t (2 + i) t)
    (hinside : 32 * bits w 32 16 + 4224 ≤ 0x200000) :
    let L := launched s g n t (2 + i)
    let q := pipe (pod L g) i
    let hs := ptHcs (part L (gen L n).part).share (pod L g) t
    (pip q (1 - q.act)).st ≠ 1 → (pip q (1 - q.act)).held ≤ t →
    ptLoad s g i false = movedOn
      (modPod L g (fun p => setPipe p i (loadTable hs w (pod s g).burin.idx (pipe p i)))) g t t := by
  intro L q hs hidle hheld
  have hcodes : ((if beyond (32 * bits w 32 16) 4224 then [5] else []) ++
      (if ((pip q (1 - q.act)).st == 1 && decide (t < (pip q (1 - q.act)).ready)) ||
        decide (t < (pip q (1 - q.act)).held) then [3] else []) : List Nat) = [] := by
    simp [beyond, hinside, hidle, hheld]
  unfold ptLoad
  rw [if_neg Bool.false_ne_true]
  refine launch_moves hready hgoes (strokeDefined_pipe i 0x48) ?_ (running_modPod ..) ?_
  · simp only [L, q] at hcodes hidle
    simp only [hcodes, hidle, if_false]
    rfl
  · rw [pod_modPod_same, burin_setPipe]

theorem pipReady_iff {u : Pip} {t : Nat} : pipReady u t = true ↔ u.st = 2 ∨ u.st = 1 ∧ u.ready ≤ t := by
  simp [pipReady]

theorem ptSwap_stroke {g : Fin 256} {i : Fin 2} {n t w : Nat} {s : State}
    (hready : Ready s g n t w (2 + i) 0x49 (resv 32 127)) (hgoes : GoesOn s g n t (2 + i) t) :
    let L := launched s g n t (2 + i)
    let q := pipe (pod L g) i
    pipReady (pip q (1 - q.act)) t = true →
    ptSwap s g i false = movedOn (modPod L g (fun p => setPipe p i { pipe p i with
      act := 1 - q.act, oldAct := q.act, swapAt := t, swapped := true })) g t t := by
  intro L q htable
  unfold ptSwap
  rw [if_neg Bool.false_ne_true]
  refine launch_moves hready hgoes (strokeDefined_pipe i 0x49) ?_ (running_modPod ..) ?_
  · exact if_pos htable
  · rw [pod_modPod_same, burin_setPipe]

/-- Inside a stipple an operation on the pipe's context or its tables is a STIPPLE fault (R162). -/
theorem stipWith_fault {s : State} {g n t i w op : Nat} {z : Stip} (h : StipReady s g n t i w z) (hop : strokeOp w = op) :
    stipWith s g i (fun o => o == op) (fun s n t _ _ x => vecFault s n g t 6 x) =
      vecFault (reachHc (advance s n t) n t) n g t 6 ⟨z.idx, i, true, z.slot, z.instr⟩ :=
  stipWith_go _ h (by simp [hop])

/-- The one table that loads becomes READY in its hc, and its load is counted. -/
theorem pipTableReady_alone {s : State} {g n i j : Nat} (hj : j < 2) (hhatch : (pod s g).hatch = some n)
    (hloads : (pip (pipe (pod s g) i) j).st = 1) (halone : (pip (pipe (pod s g) i) (1 - j)).st ≠ 1) :
    let t := (pip (pipe (pod s g) i) j).ready
    running (arrive s n t) n = true →
    pipTableReady s g i = bump (modPod (reachHc (arrive s n t) n t) g (fun p =>
      setPipe p i (setPip (pipe p i) j { pip (pipe p i) j with st := 2 }))) (podReg g 0x820) 1 := by
  intro t hruns
  have hfirst : (if (pipe (pod s g) i).pt0.st = 1 then 0 else 1) = j := by
    obtain rfl | rfl : j = 0 ∨ j = 1 := by omega
    · exact if_pos hloads
    · exact if_neg halone
  simp only [t] at hruns
  unfold pipTableReady
  simp only [hhatch, hfirst, hloads, hruns]
  rfl

end Sys2Proof.Machine
end

section
/-! SUPPORT. Rows of the vector pipes that fall due: the row of the tile or mask file that is written, the flags, and the counts
(R138, R141, R158, R159, R187, R488). -/

namespace Sys2Proof.Machine

open Sys2Proof

@[simp] theorem tileAcc_setPipe (p : Pod) (i : Nat) (x : Pipe) : (setPipe p i x).tileAcc = p.tileAcc := by
  obtain ⟨y, z, hset⟩ := setPipe_shape p i x
  rw [hset]

/-! ### Rows of the tile and mask files (R135, R137, R138) -/

@[simp] theorem fileRow_setPipe (g : Nat) (p : Pod) (i : Nat) (x : Pipe) (k : Nat) :
    fileRow g (setPipe p i x) k = fileRow g p k := by
  obtain ⟨y, z, hset⟩ := setPipe_shape p i x
  rw [hset]
  rfl

/-- A row's bits with those of `v` under mask `m` in their place. -/
def masked (old m v : Nat) : Nat := (old ^^^ (old &&& m)) ||| (v &&& m)

/-- A pod whose tile or mask row `key` holds `v`. -/
def setFileRow (p : Pod) (key v : Nat) : Pod :=
  if key < 512 then { p with tiles := tset p.tiles key v } else { p with masks := tset p.masks key v }

theorem fileRow_setFileRow (g : Nat) (p : Pod) (key v k : Nat) :
    fileRow g (setFileRow p key v) k = if k = key then v else fileRow g p k := by
  unfold setFileRow fileRow
  obtain rfl | hne := eq_or_ne k key
  · by_cases hk : k < 512
    · simp [hk, tfind_tset]
    · simp [hk, tfind_tset]
  · by_cases hkey : key < 512 <;> by_cases hk : k < 512 <;>
      simp only [hkey, hk, hne, tfind_tset, if_true, if_false]

@[simp] theorem pipe_setFileRow (p : Pod) (key v i : Nat) : pipe (setFileRow p key v) i = pipe p i := by
  unfold setFileRow
  split <;> rfl

@[simp] theorem spad_setFileRow (p : Pod) (key v : Nat) : (setFileRow p key v).spad = p.spad := by
  unfold setFileRow
  split <;> rfl

/-- A write of a row that no other write of its hc reaches is made, and noted (R138). -/
theorem fileWrite_free {g h : Nat} {p : Pod} (w : RowWrite) (site : VSite) (hfree : ∀ a ∈ p.tileAcc, a.hc ≠ h) :
    fileWrite g p h w site = (setFileRow
      { p with tileAcc := ⟨h, w.key, site⟩ :: p.tileAcc.filter (fun a => decide (h ≤ a.hc)) }
      w.key (masked (fileRow g p w.key) w.wmask w.val), none) := by
  have hnone : (p.tileAcc.filter (fun a => decide (h ≤ a.hc))).find? (fun a => a.hc == h && a.key == w.key) = none := by
    refine List.find?_eq_none.mpr fun a ha => ?_
    simp [hfree a (List.mem_of_mem_filter ha)]
  unfold fileWrite setFileRow
  simp only [hnone]
  split <;> rfl

/-! ### The row that falls due (R141, R158) -/

/-- Pod state `q` of pod `g` once row `r` of pipe `i` has made its one write `w` in hc `h`. -/
def rowWritten (g i h : Nat) (r : VRow) (w : RowWrite) (q : Pod) : Pod :=
  setFileRow { setPipe q i { pipe q i with rows := (pipe q i).rows.erase r } with
    tileAcc := ⟨h, w.key, r.site⟩ :: q.tileAcc.filter (fun a => decide (h ≤ a.hc)) }
    w.key (masked (fileRow g q w.key) w.wmask w.val)

theorem fileRow_rowWritten (g i h : Nat) (r : VRow) (w : RowWrite) (q : Pod) (k : Nat) :
    fileRow g (rowWritten g i h r w q) k =
      if k = w.key then masked (fileRow g q w.key) w.wmask w.val else fileRow g q k := by
  unfold rowWritten
  rw [fileRow_setFileRow]
  exact if_congr Iff.rfl rfl (fileRow_setPipe g q i _ k)

theorem rows_rowWritten (g i h : Nat) (r : VRow) (w : RowWrite) (q : Pod) :
    (pipe (rowWritten g i h r w q) i).rows = (pipe q i).rows.erase r := by
  unfold rowWritten
  rw [pipe_setFileRow]
  exact congrArg Pipe.rows (pipe_setPipe_same q i _)

theorem spad_rowWritten (g i h : Nat) (r : VRow) (w : RowWrite) (q : Pod) : (rowWritten g i h r w q).spad = q.spad := by
  obtain ⟨y, z, hset⟩ := setPipe_shape q i { pipe q i with rows := (pipe q i).rows.erase r }
  unfold rowWritten
  rw [spad_setFileRow, hset]

/-- The hatch stands at hc `h`, in which row `r` of pod `g`'s pipe `i` has made its write `w` and set `flags` (R158). -/
def rowStored (s : State) (n g i h : Nat) (r : VRow) (w : RowWrite) (flags : Nat) : State :=
  setBits (setPod (reachHc s n h) g (rowWritten g i h r w (pod s g))) (podReg g (0x608 + 4 * i)) flags

/-- The work of row `r`, with what it delivers, `o`, is counted in partition `q` and on pod `g`'s pipe `i` (R187, R488). -/
def rowCounted (s : State) (g i q : Nat) (r : VRow) (o : RowOut) : State :=
  let s := countOps s (g / 128) q (opClass r.ins).1 (opClass r.ins).2 o.elems
  let s := if isStat r.ins.op then s else countFlags s (g / 128) q o.eflags
  if isSfu r.ins.op then bump s (podReg g (0x810 + 8 * i)) r.ins.lanes else s

theorem rowCounted_shape (s : State) (g i q : Nat) (r : VRow) (o : RowOut) : ∃ x y,
    rowCounted s g i q r o = { s with cntOps := x, regs := y } ∧
      ∀ a, a ≠ podReg g (0x810 + 8 * i) → a ≠ satReg (podReg g (0x810 + 8 * i)) →
        rd { s with cntOps := x, regs := y } a = rd s a := by
  obtain ⟨x, hops⟩ := countOps_shape s (g / 128) q (opClass r.ins).1 (opClass r.ins).2 o.elems
  obtain ⟨y, hflags⟩ := countFlags_shape { s with cntOps := x } (g / 128) q o.eflags
  have hcounts : ∃ z, (if isStat r.ins.op then { s with cntOps := x } else { s with cntOps := y }) =
      { s with cntOps := z } := by
    split <;> exact ⟨_, rfl⟩
  obtain ⟨z, hcounts⟩ := hcounts
  unfold rowCounted
  dsimp only
  rw [hops, hflags, hcounts]
  split
  · obtain ⟨u, hbump⟩ := bump_shape { s with cntOps := z } (podReg g (0x810 + 8 * i)) r.ins.lanes
    refine ⟨z, u, hbump, fun a hreg hsat => ?_⟩
    rw [← hbump, rd_bump_ne _ _ _ _ hreg hsat]
    rfl
  · exact ⟨z, s.regs, rfl, fun _ _ _ => rfl⟩

/-- A row with one write, which meets no other of its hc, makes it, sets its flags and is counted. -/
theorem writeRow_single {s : State} {n g i h : Nat} {r : VRow} {o : RowOut} {w : RowWrite} (hout : r.out = some o)
    (hwrites : o.writes = [w]) (hfree : ∀ a ∈ (pod s g).tileAcc, a.hc ≠ h) :
    writeRow s n g i h r =
      rowCounted (rowStored s n g i h r w o.flags) g i (gen (rowStored s n g i h r w o.flags) n).part r o := by
  have hacc : ∀ a ∈ (setPipe (pod s g) i { pipe (pod s g) i with rows := (pipe (pod s g) i).rows.erase r }).tileAcc,
      a.hc ≠ h := by
    rwa [tileAcc_setPipe]
  unfold writeRow
  simp only [hout, Option.getD_some, hwrites, List.foldl_cons, List.foldl_nil, pod_reachHc, fileWrite_free w r.site hacc,
    fileRow_setPipe, tileAcc_setPipe, List.isEmpty_nil, Bool.not_true, Bool.false_eq_true, if_false]
  rfl

/-- No edge counts in a pipe's flags. -/
theorem rd_reachHc_flags (s : State) (n h : Nat) {g i : Nat} (hg : g < 256) (hi : i < 2) :
    rd (reachHc s n h) (podReg g (0x608 + 4 * i)) = rd s (podReg g (0x608 + 4 * i)) := by
  refine rd_reachHc s n h _ (podReg_lt g _ hg (by omega)) fun q o ho heq => ?_
  obtain ⟨hsmall, -⟩ := edgeCounts_offsets o ho
  obtain ⟨-, rfl⟩ := podReg_inj (by omega) hsmall heq
  simp only [edgeCounts, List.mem_cons, List.not_mem_nil, or_false] at ho
  omega

/-- Writing such a row changes its pod, sets its flags, and leaves the other pods, memory and the queue. -/
theorem writeRow_spec {s : State} {n g i h : Nat} {r : VRow} {o : RowOut} {w : RowWrite} (hg : g < 256) (hi : i < 2)
    (hout : r.out = some o) (hwrites : o.writes = [w]) (hfree : ∀ a ∈ (pod s g).tileAcc, a.hc ≠ h) :
    let u := writeRow s n g i h r
    pod u g = rowWritten g i h r w (pod s g) ∧ (∀ k, k ≠ g → pod u k = pod s k) ∧
      rd u (podReg g (0x608 + 4 * i)) = rd s (podReg g (0x608 + 4 * i)) ||| o.flags ∧
      u.mem = s.mem ∧ u.pending = s.pending := by
  rw [writeRow_single hout hwrites hfree]
  intro u
  obtain ⟨hmem, -, -, -, hpend⟩ := reachHc_frame s n h
  obtain ⟨x, z, hcounted, hregs⟩ := rowCounted_shape (rowStored s n g i h r w o.flags) g i
    (gen (rowStored s n g i h r w o.flags) n).part r o
  have hflags := rd_reachHc_flags s n h hg hi
  rw [show u = _ from hcounted]
  refine ⟨pod_setPod_same _ _ _, fun k hk => ?_, ?_, hmem, hpend⟩
  · exact (pod_setPod_ne _ _ _ _ hk).trans (pod_reachHc s n h k)
  · rw [hregs _ (fun heq => ?_) (podReg_ne_satReg hg (by omega)), rowStored, rd_setBits_same]
    · exact congrArg (· ||| o.flags) hflags
    · have := podReg_off heq
      omega

theorem trapStop_none {s : State} {n h : Nat}
    (hnone : ∀ k ∈ hatchPods s n, trapRow s k 0 h = none ∧ trapRow s k 1 h = none) : trapStop s n h = (s, false) := by
  have hbad : (hatchPods s n).filter (fun g => (trapRow s g 0 h).isSome || (trapRow s g 1 h).isSome) = [] := by
    refine List.filter_eq_nil_iff.mpr fun k hk => ?_
    obtain ⟨hzero, hone⟩ := hnone k hk
    simp [hzero, hone]
  unfold trapStop
  simp only [hbad]

/-- The row of a pipe that falls due first is written, where no row of its hc traps and no transfer row clashes. -/
theorem vectorRowWrite_writes {s : State} {g i n h : Nat} {q : Pod} {r : VRow} (hhatch : (pod s g).hatch = some n)
    (hdue : ((pipe (pod s g) i).rows.map (·.writeHc)).min? = some h) (hrun : running (advance s n h) n = true)
    (hnone : ∀ k ∈ hatchPods (advance s n h) n, trapRow (advance s n h) k 0 h = none ∧ trapRow (advance s n h) k 1 h = none)
    (hsettle : settleTiles g (settleSpad (pod (advance s n h) g) h) h = (q, []))
    (hfind : (pipe q i).rows.find? (fun r => r.writeHc == h) = some r) :
    vectorRowWrite s g i = writeRow (setPod (advance s n h) g q) n g i h r := by
  unfold vectorRowWrite
  simp [hhatch, hdue, hrun, trapStop_none hnone, hsettle, hfind]

end Sys2Proof.Machine
end

section
/-! SUPPORT. Rows in 32-bit lanes, and the integer operations on a lane (R143, R148). -/

namespace Sys2Proof.Machine

open Sys2Proof

/-! ### Lanes of a row (R143) -/

theorem testBit_bits (v lo n k : Nat) : (bits v lo n).testBit k = (decide (k < n) && v.testBit (lo + k)) := by
  unfold bits
  rw [Nat.testBit_mod_two_pow, Nat.testBit_shiftRight]

theorem bits_or (a b lo n : Nat) : bits (a ||| b) lo n = bits a lo n ||| bits b lo n := by
  unfold bits
  rw [Nat.shiftRight_or_distrib, Nat.or_mod_two_pow]

theorem bits_lt (v lo n : Nat) : bits v lo n < 2 ^ n := Nat.mod_lt _ (Nat.two_pow_pos n)

/-- A 32-bit value put into lane `d` fills that lane alone. -/
theorem lane_shiftLeft {v : Nat} (hv : v < 2 ^ 32) (d j : Nat) :
    bits (v <<< (32 * d)) (32 * j) 32 = if j = d then v else 0 := by
  refine Nat.eq_of_testBit_eq fun k => ?_
  rw [testBit_bits, Nat.testBit_shiftLeft]
  have hhigh : ∀ m, 32 ≤ m → v.testBit m = false := fun m hm =>
    Nat.testBit_lt_two_pow (hv.trans_le (Nat.pow_le_pow_right (by decide) hm))
  obtain hlt | rfl | hgt := lt_trichotomy j d
  · rw [if_neg hlt.ne, Nat.zero_testBit]
    by_cases hk : k < 32
    · simp only [show ¬ 32 * j + k ≥ 32 * d by omega, decide_false, Bool.false_and, Bool.and_false]
    · simp only [hk, decide_false, Bool.false_and]
  · rw [if_pos rfl, Nat.add_sub_cancel_left]
    by_cases hk : k < 32
    · simp [hk]
    · simp [hk, hhigh k (Nat.not_lt.mp hk)]
  · rw [if_neg hgt.ne', Nat.zero_testBit, hhigh _ (by omega), Bool.and_false, Bool.and_false]

theorem lane_put_wm (r : RowAcc) (d v j : Nat) :
    bits (r.put 32 d v).wm (32 * j) 32 = bits r.wm (32 * j) 32 ||| if j = d then 2 ^ 32 - 1 else 0 := by
  rw [← lane_shiftLeft (by decide : 2 ^ 32 - 1 < 2 ^ 32) d j, ← bits_or]
  rfl

theorem lane_put_val (r : RowAcc) {v : Nat} (hv : v < 2 ^ 32) (d j : Nat) :
    bits (r.put 32 d v).val (32 * j) 32 = bits r.val (32 * j) 32 ||| if j = d then v else 0 := by
  rw [← lane_shiftLeft hv d j, ← bits_or]
  rfl

@[simp] theorem wm_flag (r : RowAcc) (g : Nat) : (r.flag g).wm = r.wm := rfl

@[simp] theorem val_flag (r : RowAcc) (g : Nat) : (r.flag g).val = r.val := rfl

/-- Element `j` of a row in 32-bit lanes: what `f` gives where the mask has it, else 0 under ZERO, else nothing. -/
def putLane (x : RowSrc) (i : VIns) (f : Nat → Nat × Nat) (j : Nat) (r : RowAcc) : RowAcc :=
  if maskBit x i.mask j then (r.put 32 j (f j).1).flag ((f j).2 &&& vFlagMask i.op)
  else if i.zero then r.put 32 j 0
  else r

theorem buildRow_lanes (x : RowSrc) (i : VIns) (f : Nat → Nat × Nat) :
    buildRow x i 32 0 f = foldNat i.lanes (putLane x i f) {} := by
  unfold buildRow
  simp only [Nat.zero_add]
  rfl

section
variable (x : RowSrc) (i : VIns) {f : Nat → Nat × Nat}

theorem putLane_wm (j k : Nat) (r : RowAcc) : bits (putLane x i f j r).wm (32 * k) 32 =
    bits r.wm (32 * k) 32 ||| if k = j ∧ (maskBit x i.mask j = true ∨ i.zero = true) then 2 ^ 32 - 1 else 0 := by
  unfold putLane
  split
  · next hmask => simpa only [hmask, true_or, and_true, wm_flag] using lane_put_wm r j (f j).1 k
  · next hmask =>
    split
    · next hzero => simpa only [hzero, or_true, and_true] using lane_put_wm r j 0 k
    · next hzero => simp [hmask, hzero]

theorem putLane_val (hf : ∀ j, (f j).1 < 2 ^ 32) (j k : Nat) (r : RowAcc) : bits (putLane x i f j r).val (32 * k) 32 =
    bits r.val (32 * k) 32 ||| if k = j ∧ maskBit x i.mask j = true then (f j).1 else 0 := by
  unfold putLane
  split
  · next hmask => simpa only [hmask, and_true, val_flag] using lane_put_val r (hf j) j k
  · next hmask =>
    split
    · simpa [hmask] using lane_put_val r (by decide : 0 < 2 ^ 32) j k
    · simp [hmask]

/-- Elements that raise no flag leave none. -/
theorem putLane_flags (hf : ∀ j, (f j).2 = 0) (j : Nat) (r : RowAcc) : (putLane x i f j r).flags = r.flags := by
  unfold putLane
  split
  · rw [hf, Nat.zero_and]
    exact Nat.or_zero _
  · split <;> rfl

/-- The lanes that the first `n` elements write are those below `n` that the mask has, or all of them under ZERO. -/
theorem lanes_wm (n k : Nat) : bits (foldNat n (putLane x i f) {}).wm (32 * k) 32 =
    if k < n ∧ (maskBit x i.mask k = true ∨ i.zero = true) then 2 ^ 32 - 1 else 0 := by
  induction n with
  | zero => simp [foldNat, bits]
  | succ n ih =>
    rw [foldNat, putLane_wm, ih]
    obtain rfl | hk := eq_or_ne k n
    · simp
    · simp [hk, show k < n + 1 ↔ k < n by omega]

theorem lanes_val (hf : ∀ j, (f j).1 < 2 ^ 32) (n k : Nat) : bits (foldNat n (putLane x i f) {}).val (32 * k) 32 =
    if k < n ∧ maskBit x i.mask k = true then (f k).1 else 0 := by
  induction n with
  | zero => simp [foldNat, bits]
  | succ n ih =>
    rw [foldNat, putLane_val x i hf, ih]
    obtain rfl | hk := eq_or_ne k n
    · simp
    · simp [hk, show k < n + 1 ↔ k < n by omega]

theorem lanes_flags (hf : ∀ j, (f j).2 = 0) (n : Nat) : (foldNat n (putLane x i f) {}).flags = 0 :=
  foldNat_inv (fun r : RowAcc => r.flags = 0) _ (fun k r hr => (putLane_flags x i hf k r).trans hr) n {} rfl

end

/-! ### Integer operations on a lane (R148) -/

theorem ofNat_enc2 (v : Int) : BitVec.ofNat 32 (enc2 32 v) = BitVec.ofInt 32 v := by
  refine BitVec.eq_of_toNat_eq ?_
  rw [BitVec.toNat_ofNat, BitVec.toNat_ofInt]
  unfold enc2
  omega

theorem toInt_ofNat_eq_sext (a : Nat) : (BitVec.ofNat 32 a).toInt = sext 32 a := by
  rw [BitVec.toInt_eq_toNat_cond, BitVec.toNat_ofNat]
  unfold sext
  dsimp only
  split <;> split <;> omega

/-- Dividing by more than 2^31 gives what dividing by 2^31 does: 0 or −1, the sign in every bit. -/
theorem ediv_two_pow_min {v : Int} (hlow : -2 ^ 31 ≤ v) (hhigh : v < 2 ^ 31) (b : Nat) :
    v / ((2 ^ min b 31 : Nat) : Int) = v / ((2 ^ b : Nat) : Int) := by
  obtain hb | hb := le_total b 31
  · rw [Nat.min_eq_left hb]
  · have hpow : (2 : Int) ^ 31 ≤ ((2 ^ b : Nat) : Int) := by
      exact_mod_cast Nat.pow_le_pow_right (by decide : 0 < 2) hb
    rw [Nat.min_eq_right hb]
    obtain hneg | hpos := lt_or_ge v 0
    · rw [Int.ediv_eq_neg_one_of_neg_of_le hneg (by omega), Int.ediv_eq_neg_one_of_neg_of_le hneg (by omega)]
    · rw [Int.ediv_eq_zero_of_lt hpos (by omega), Int.ediv_eq_zero_of_lt hpos (by omega)]

theorem sra_wraps (a b : Nat) (hb : b < 2 ^ 32) : BitVec.ofNat 32 (enc2 32 (sext 32 a / (2 ^ (min b 31) : Nat))) =
    (BitVec.ofNat 32 a).sshiftRight (BitVec.ofNat 32 b).toNat := by
  have hlow := BitVec.le_toInt (BitVec.ofNat 32 a)
  have hhigh := BitVec.toInt_lt (x := BitVec.ofNat 32 a)
  rw [ofNat_enc2, BitVec.sshiftRight, BitVec.toNat_ofNat, Nat.mod_eq_of_lt hb, Int.shiftRight_eq_div_pow,
    ← toInt_ofNat_eq_sext, ediv_two_pow_min hlow hhigh]

theorem shl_wraps (a b : Nat) (hb : b < 2 ^ 32) : BitVec.ofNat 32 (if 32 ≤ b then 0 else (a <<< b) % 2 ^ 32) =
    BitVec.ofNat 32 a <<< (BitVec.ofNat 32 b).toNat := by
  rw [BitVec.toNat_ofNat, Nat.mod_eq_of_lt hb]
  split
  · next hlarge => exact (BitVec.shiftLeft_eq_zero hlarge).symm
  · refine BitVec.eq_of_toNat_eq ?_
    simp [Nat.shiftLeft_eq]

theorem shr_wraps (a b : Nat) (ha : a < 2 ^ 32) (hb : b < 2 ^ 32) : BitVec.ofNat 32 (if 32 ≤ b then 0 else a >>> b) =
    BitVec.ofNat 32 a >>> (BitVec.ofNat 32 b).toNat := by
  rw [BitVec.toNat_ofNat, Nat.mod_eq_of_lt hb]
  split
  · next hlarge => exact (BitVec.ushiftRight_eq_zero hlarge).symm
  · refine BitVec.eq_of_toNat_eq ?_
    rw [BitVec.toNat_ushiftRight, BitVec.toNat_ofNat, BitVec.toNat_ofNat, Nat.mod_eq_of_lt ha,
      Nat.mod_eq_of_lt ((Nat.shiftRight_le a b).trans_lt ha)]

theorem sub_wraps (a b : Nat) (hb : b < 2 ^ 32) : BitVec.ofNat 32 ((a + (2 ^ 32 - b)) % 2 ^ 32) =
    BitVec.ofNat 32 a - BitVec.ofNat 32 b := by
  refine BitVec.eq_of_toNat_eq ?_
  rw [BitVec.toNat_sub, BitVec.toNat_ofNat, BitVec.toNat_ofNat, BitVec.toNat_ofNat]
  omega

/-- On a lane's bits each integer operation is the one on words of 32 bits. -/
theorem intOp_eq_intSpec {op a b : Nat} (hlow : 0x20 ≤ op) (hhigh : op ≤ 0x27) (ha : a < 2 ^ 32) (hb : b < 2 ^ 32) :
    BitVec.ofNat 32 (intOp op a b) = intSpec op (BitVec.ofNat 32 a) (BitVec.ofNat 32 b) := by
  interval_cases op
  · exact (BitVec.eq_of_toNat_eq (by simp [intOp, intSpec]))
  · exact sub_wraps a b hb
  · exact BitVec.eq_of_toNat_eq (by simp [intOp, intSpec])
  · exact BitVec.eq_of_toNat_eq (by simp [intOp, intSpec])
  · exact BitVec.eq_of_toNat_eq (by simp [intOp, intSpec])
  · exact shl_wraps a b hb
  · exact shr_wraps a b ha hb
  · exact sra_wraps a b hb

theorem intOp_lt {op a b : Nat} (hlow : 0x20 ≤ op) (hhigh : op ≤ 0x27) (ha : a < 2 ^ 32) (hb : b < 2 ^ 32) :
    intOp op a b < 2 ^ 32 := by
  interval_cases op
  · exact Nat.mod_lt _ (by decide)
  · exact Nat.mod_lt _ (by decide)
  · exact Nat.and_lt_two_pow a hb
  · exact Nat.or_lt_two_pow ha hb
  · exact Nat.xor_lt_two_pow ha hb
  · show (if 32 ≤ b then 0 else (a <<< b) % 2 ^ 32) < 2 ^ 32
    split
    · decide
    · exact Nat.mod_lt _ (by decide)
  · show (if 32 ≤ b then 0 else a >>> b) < 2 ^ 32
    split
    · decide
    · exact (Nat.shiftRight_le a b).trans_lt ha
  · show enc2 32 _ < 2 ^ 32
    unfold enc2
    omega

/-- What an integer operation gives for lane `j`, and its flags. -/
def intLane (x : RowSrc) (i : VIns) (j : Nat) : Nat × Nat :=
  (intOp i.op (bits (x.tile (8 * i.a + x.row)) (32 * j) 32) (bits (x.tile (8 * i.b + x.row)) (32 * j) 32), 0)

/-- The row of an integer operation on whole rows is built in 32-bit lanes. -/
theorem vecRow_int {x : RowSrc} {i : VIns} (hlow : 0x20 ≤ i.op) (hhigh : i.op ≤ 0x27) (hmode : i.mode = 3)
    (hnarrow : i.narrow = false) (hhalf : i.half = 0) (hb : i.bmode = 0) :
    vecRow x i = (foldNat i.lanes (putLane x i (intLane x i)) {}).toOut i.d x.row false := by
  have hnative : vecRow x i = nativeRow x i := by
    unfold vecRow
    split
    case h_9 => rfl
    all_goals omega
  have harith : isArith i.op = false := decide_eq_false (by omega)
  have hmaskOp : isMaskOp i.op = false := decide_eq_false (by omega)
  have hint : isInt i.op = true := decide_eq_true ⟨hlow, hhigh⟩
  rw [hnative]
  unfold nativeRow elemRow
  simp only [harith, hmaskOp, hint, hnarrow, hmode, hhalf, modeWidth, Bool.false_eq_true, if_false, if_true, Nat.mul_zero]
  rw [buildRow_lanes]
  simp only [elemB, hb, elemOf]
  rfl

end Sys2Proof.Machine
end

section
/-! The statements about the vector engine (06_vector_engine.md). -/

open Sys2Proof Sys2Proof.Machine

/-- Settles O25: the launch by the stroke's rule, and what has started by the pipe's rows and the two counts. -/
theorem rowOperationsStartTheirRows : Obligations.RowOperationsStartTheirRows := by
  refine ⟨?_, fun s h g i t n e ins x a hg hi => ?_⟩
  · intro x hx g i n t w s q hready hgoes hclear hstip howned
    rw [exec_rowCommand x hx, vecOp_stroke (isRowOp_rowCommand x hx) hready hgoes hclear hstip howned]
  · intro u q b
    obtain ⟨hrows, hbusy⟩ := rd_startRows (s := s) hg hi h t n e ins x a
    have hpipe : pipe (pod u g) i = startedPipe i t n e ins x a q := pipe_startRows_same s h g i t n e ins x a
    have hpod : pod u g = setPipe (pod s g) i (startedPipe i t n e ins x a q) := pod_startRows_same s h g i t n e ins x a
    obtain ⟨y, z, hshape⟩ := setPipe_shape (pod s g) i (startedPipe i t n e ins x a q)
    obtain ⟨r, hstate⟩ := startRows_shape s h g i t n e ins x a
    refine ⟨?_, ?_, fun hop => ?_, fun hop => ?_, ?_, ?_, ?_, ?_, ?_, ?_, hrows, hbusy,
      pod_startRows_ne s h g i t n e ins x a, ?_⟩
    · rw [hpipe, portFree_startedPipe]
    · rw [hpipe, rows_startedPipe]
      rfl
    · rw [hpipe, pip_startedPipe_of_pip i t n e ins x a q hop]
    · rw [hpipe, pip_startedPipe_of_ne i t n e ins x a q hop]
    · rw [hpod, pipe_setPipe_other _ hi]
    · rw [hpod, hshape]
    · rw [hpod, hshape]
    · rw [hpod, hshape]
    · rw [hpod, hshape]
    · rw [hpod, hshape]
    · rw [show u = _ from hstate]
      exact ⟨rfl, rfl, rfl, rfl⟩

/-- Settles O26: STIP by its stroke's rule, a row operation by the stipple's, and END by its two decisions. -/
theorem stipplesRunTheirSlots : Obligations.StipplesRunTheirSlots := by
  refine ⟨fun g i n t w s => ⟨exec_stip, ?_⟩, ?_⟩
  · intro x hx z R q ins hready hop hgood hclear hinside
    rw [exec_rowCommand x hx, vecOp_stipple hready hop hgood hinside hclear]
  · intro g i n t w z s R put hready hburin hop hrsv
    have hend := stippleEnd_eq hready hburin hop hrsv
    refine ⟨fun hlink hlinks hslot => ?_, fun hlink hmore => ?_, fun hlink hlast => ?_⟩
    · refine congrArg Host.Outcome.next (hend.trans ?_)
      rw [if_pos hlink, if_neg (by omega), if_neg (mt List.isEmpty_iff.mp hslot)]
      rfl
    · refine congrArg Host.Outcome.next (hend.trans ?_)
      rw [if_neg (by simp [hlink]), if_pos hmore]
      rfl
    · refine congrArg Host.Outcome.next (hend.trans ?_)
      rw [if_neg (by simp [hlink]), if_neg (by omega)]
      rfl

/-- Settles O27: each stroke by its rule, the table that loads by its hc, and the three faults by the stipple's launch. -/
theorem pipeContextAndTables : Obligations.PipeContextAndTables := by
  intro g i n t w s L q
  refine ⟨?_, ?_, ?_, ?_, ?_⟩
  · intro hready hgoes hstip howned
    exact congrArg Host.Outcome.next (setRnd_stroke hready hgoes hstip howned)
  · intro hready hgoes hinside _ hidle hheld
    exact congrArg Host.Outcome.next (ptLoad_stroke hready hgoes hinside hidle hheld)
  · intro hready hgoes htable
    exact congrArg Host.Outcome.next (ptSwap_stroke hready hgoes (pipReady_iff.mpr htable))
  · rintro j hj hhatch hloads halone rfl hruns
    exact congrArg Host.Outcome.next (pipTableReady_alone hj hhatch hloads halone hruns)
  · intro z x hx hready hop
    simp only [List.mem_cons, List.not_mem_nil, or_false] at hx
    obtain rfl | rfl | rfl := hx
    · exact congrArg Host.Outcome.next (stipWith_fault hready hop)
    · exact congrArg Host.Outcome.next (stipWith_fault hready hop)
    · exact congrArg Host.Outcome.next (stipWith_fault hready hop)

/-- Settles O28: the row's one write, and then what the counts leave of the flags. -/
theorem rowsAreWrittenWhenDue : Obligations.RowsAreWrittenWhenDue := by
  intro g i n h s r o w q hhatch hdue hrun hnone hsettle hfind hout hwrites hfree
  have hpod : pod (setPod (advance s n h) g q) g = q := pod_setPod_same _ _ _
  obtain ⟨hrow, hother, hflags, hmem, hpend⟩ := writeRow_spec (s := setPod (advance s n h) g q) (n := n) (h := h) g.isLt i.isLt
    hout hwrites (by rwa [hpod])
  rw [hpod] at hrow
  refine ⟨_, congrArg Host.Outcome.next (vectorRowWrite_writes hhatch hdue hrun hnone hsettle hfind), ?_, fun k hk => ?_, ?_,
    hflags, ?_, fun k hk => (hother k hk).trans (pod_setPod_ne _ _ _ _ hk), hmem, hpend⟩
  · rw [hrow, fileRow_rowWritten, if_pos rfl]
    rfl
  · rw [hrow, fileRow_rowWritten, if_neg hk]
  · rw [hrow, rows_rowWritten]
  · rw [hrow, spad_rowWritten]

/-- Settles O29: the row is built lane by lane, and each lane's value is the word operation's. -/
theorem integerRowsWrap : Obligations.IntegerRowsWrap := by
  intro x i hlow hhigh hmode hnarrow hhalf hb
  have hlt : ∀ j, (intLane x i j).1 < 2 ^ 32 := fun j => intOp_lt hlow hhigh (bits_lt _ _ _) (bits_lt _ _ _)
  rw [vecRow_int hlow hhigh hmode hnarrow hhalf hb]
  refine ⟨_, rfl, rfl, lanes_flags x i (fun _ => rfl) _, fun j hj hmask => ⟨?_, ?_⟩, fun j hj hmask => ⟨?_, ?_⟩, fun j hj => ?_⟩
  · simp [lanes_wm, hj, hmask]
  · rw [lanes_val x i hlt, if_pos ⟨hj, hmask⟩]
    exact intOp_eq_intSpec hlow hhigh (bits_lt _ _ _) (bits_lt _ _ _)
  · simp [lanes_val x i hlt, hmask]
  · simp [lanes_wm, hj, hmask]
  · rw [lanes_wm, if_neg (by omega)]

end

section
/-! SUPPORT. Transfers between scratchpad and tiles: their launch, and the access of a transfer that is alone in its pod (R209,
R210). -/

namespace Sys2Proof.Machine

open Sys2Proof

/-- The transfer that a stroke puts under way, its first access in the first plate hc. -/
def xferOf (share t w idx : Nat) (store : Bool) (p : Pod) : Xfer where
  store := store
  tile := bits w 32 6
  row0 := bits w 38 3
  nrows := bits w 41 3 + 1
  waddr := bits w 44 16
  wstride := bits w 60 16
  wide := bit w 76
  lanes := bits w 77 9 + 1
  nextHc := nextPlate share p t
  idx := idx

/-- The launch of LDT or STT. -/
theorem xferStroke_starts {g : Fin 256} {n t w : Nat} {s : State} {b : Bool}
    (hready : Ready s g n t w 4 (if b then 2 else 1) (resv 86 127)) (hgoes : GoesOn s g n t 4 t) (hgood : xferBad w b = false)
    (hlanes : b = true → bits w 77 9 < 256) :
    let share := (part (launched s g n t 4) (gen (launched s g n t 4) n).part).share
    xferStroke s g b = movedOn (modPod (launched s g n t 4) g (fun p =>
      { p with xfers := p.xfers ++ [xferOf share t w (pod s g).burin.idx b p] })) g t t := by
  intro share
  refine launch_moves hready hgoes (by cases b <;> rfl) ?_ (running_modPod _ _ _ _) (by rw [pod_modPod_same])
  have hfits : (b && decide (256 < bits w 77 9 + 1)) = false := by
    cases b
    · rfl
    · have := hlanes rfl
      simp only [Bool.true_and, decide_eq_false_iff_not]
      omega
  simp only [hfits, hgood, Bool.false_eq_true, if_false]
  rfl

/-- The word at which row `x.row` of a transfer begins. -/
def rowWord (x : Xfer) : Nat := x.waddr + x.wstride * x.row

/-- The scratchpad words of a row's one access. -/
def rowWords (x : Xfer) : List Nat := (List.range (if x.store then x.lanes / 8 else 32)).map (rowWord x + ·)

/-- A transfer that makes one access to each row: neither WIDE, nor an STT that ends within a word. -/
structure OneAccess (x : Xfer) : Prop where
  narrow : x.wide = false
  first : x.part = 0
  whole : x.store = true → x.lanes % 8 = 0

section
variable {x : Xfer}

theorem OneAccess.parts (h : OneAccess x) : xferParts x = 1 := by
  obtain ⟨hnarrow, -, hwhole⟩ := h
  unfold xferParts
  rw [hnarrow]
  cases hs : x.store
  · rfl
  · simp [hwhole hs]

theorem OneAccess.words (h : OneAccess x) :
    xferWords x = (if x.store then [] else rowWords x, if x.store then rowWords x else []) := by
  obtain ⟨hnarrow, hfirst, hwhole⟩ := h
  unfold xferWords rowWords rowWord
  rw [hnarrow, hfirst]
  cases hs : x.store
  · simp
  · simp [hwhole hs]

/-- The access to the row after `x.row`, in the next plate hc; none after the last row. -/
def nextRow (share : Nat) (p : Pod) (x : Xfer) (h : Nat) : List Xfer :=
  if x.row + 1 < x.nrows then [{ x with part := 0, row := x.row + 1, nextHc := nextPlate share p (h + 1), hold := 0 }] else []

theorem OneAccess.next (h : OneAccess x) (share : Nat) (p : Pod) (hc hold : Nat) :
    xferNext share p x hc hold = nextRow share p x hc := by
  unfold xferNext nextRow
  rw [h.parts, h.first, if_neg (by omega)]

/-- Words of an STT that fills them are visible four hc later. -/
theorem OneAccess.stores (h : OneAccess x) (hs : x.store = true) (g img hc : Nat) : sttWrites g x img hc (rowWords x) =
    (List.range (x.lanes / 8)).map (fun k =>
      ⟨hc + 4, hc, hc, g, 32 * (rowWord x + k), 32, bits img (256 * k) 256⟩) := by
  have hbytes : sttBytes x % 32 = 0 := by
    have := h.whole hs
    simp only [sttBytes, h.narrow, Bool.false_eq_true, if_false]
    omega
  have hoff (k : Nat) : rowWord x + k - (x.waddr + x.wstride * x.row) = k := Nat.add_sub_cancel_left _ _
  simp [sttWrites, rowWords, hs, hbytes, hoff]

theorem OneAccess.image (h : OneAccess x) (g : Nat) (p : Pod) : rowImage g p x = fileRow g p (8 * x.tile + x.row0 + x.row) := by
  simp only [rowImage, h.narrow, Bool.false_eq_true, if_false]

theorem OneAccess.loads (h : OneAccess x) (img hc : Nat) :
    ldtWrites x img hc = [⟨hc + 6, ⟨8 * x.tile + x.row0 + x.row, fullRow, img⟩, ⟨x.idx, 0, false, 0, 0⟩⟩] := by
  simp only [ldtWrites, h.narrow, Bool.false_eq_true, if_false]

theorem head?_rowWords (hs : x.store = false) : (rowWords x).head? = some (rowWord x) := by
  simp [rowWords, hs, List.range_succ_eq_map]

/-- Pod `g` after the access of row `x.row` in hc `h`: the words stored, or the tile row to come. -/
def rowAccessed (share g h : Nat) (x : Xfer) (q : Pod) : Pod :=
  if x.store then { q with
    xfers := nextRow share q x h
    spadPend := q.spadPend ++ (List.range (x.lanes / 8)).map (fun k =>
      ⟨h + 4, h, h, g, 32 * (rowWord x + k), 32, bits (fileRow g q (8 * x.tile + x.row0 + x.row)) (256 * k) 256⟩) }
  else { q with
    xfers := nextRow share q x h
    tilePend := q.tilePend ++ [⟨h + 6,
      ⟨8 * x.tile + x.row0 + x.row, fullRow, x.hold + spadRead q (32 * rowWord x) 1024⟩, ⟨x.idx, 0, false, 0, 0⟩⟩] }

/-- An access that meets no clash and no bad word, of a transfer that is alone in its pod. -/
theorem transferRowAccess_alone {g n h : Nat} {s : State} {p q : Pod} (hone : OneAccess x) (hhatch : (pod s g).hatch = some n)
    (halone : (pod s g).xfers = [x]) (hdue : x.nextHc = h) (hrun : running (arrive s n h) n = true)
    (hsettle : settleTiles g (settleSpad (pod (arrive s n h) g) h) h = (p, [])) (hxfers : p.xfers = [x]) (herrs : p.errs = [])
    (hport : portAccess p h ((if x.store then [] else rowWords x).map (fun k => (k, x.idx)))
      ((if x.store then rowWords x else []).map (fun k => (k, x.idx))) = (q, [])) :
    transferRowAccess s g = reachHc (setPod (arrive s n h) g
      (rowAccessed (part (arrive s n h) (gen (arrive s n h) n).part).share g h x q)) n h := by
  have hq : q.xfers = [x] ∧ q.errs = [] := by
    obtain ⟨rfl, -⟩ := Prod.mk.inj hport
    exact ⟨hxfers, herrs⟩
  have hmin : ((pod s g).xfers.map (·.nextHc)).min? = some h := by rw [halone, ← hdue]; rfl
  have hfind : p.xfers.find? (fun x => x.nextHc == h) = some x := by simp [hxfers, hdue]
  have hclean (ws : List Nat) : ws.any (wordBad q) = false :=
    List.any_eq_false.mpr fun w _ => by simp [wordBad_of_nil w hq.2]
  unfold transferRowAccess
  simp only [hhatch, hmin, hrun, hsettle, hfind, hone.words, noteWords_of_nil _ herrs, hport, hq.1, hone.next, hone.parts,
    hone.first, hclean, hone.loads, hone.image]
  unfold rowAccessed
  cases hs : x.store
  · simp [head?_rowWords hs]
  · simp [hone.stores hs, mergeTail]

end

end Sys2Proof.Machine
end

section
/-! SUPPORT. Copy channels: what an enqueue, a completion and the channel that goes on after it do (R226–R230, R266). -/

namespace Sys2Proof.Machine

open Sys2Proof

theorem setCopy_setCopy (s : State) (d n : Nat) (x y : CopyChan) : setCopy (setCopy s d n x) d n y = setCopy s d n y := by
  simp [setCopy, tset_tset]

/-! ### A channel goes on (R228) -/

/-- A channel with a copy in progress starts none. -/
theorem kick_busy {s : State} {d n : Nat} (h : (copyChan s d n).run ≠ none) : kick s d n = s := by
  simp [kick, startNext, h]

/-- A running channel whose queue is empty goes IDLE. -/
theorem kick_idle {s : State} {d n : Nat} (hst : (copyChan s d n).st = 1) (hrun : (copyChan s d n).run = none)
    (hqueue : (copyChan s d n).queue = []) (hheld : (copyChan s d n).held = []) :
    kick s d n = setCopy s d n { copyChan s d n with st := 0 } := by
  simp [kick, startNext, hst, hrun, hqueue, hheld]

/-- The run of a copy that starts: THERMAL_PAUSE where it has a deadline and needs a stack that is held back (R266). -/
def startedRun (s : State) (d n ref iter img : Nat) : CopyRun where
  img := img
  iter := iter
  ref := ref
  flags := if cdDeadline img ≠ 0 ∧ (copyStacks s (chPart s d n) img iter).any (keepOnly s) = true then 2 else 0

/-- A running channel whose queue holds one entry, a local copy, starts it. -/
theorem kick_starts {s : State} {d n ref iter img : Nat} {x : CopyChan} (hx : copyChan s d n = x) (hst : x.st = 1)
    (hrun : x.run = none) (hqueue : x.queue = [⟨ref, iter⟩]) (hheld : x.held = [])
    (himg : copyAt s (chPart s d n) ref = some img) (hlocal : cdRemote img = false) :
    kick s d n = setCopy s d n { x with
      queue := []
      run := some (startedRun s d n ref iter img) } := by
  have hstarts : (x.st = 1 ∨ x.st = 2) ∧ x.run.isNone = true ∧ x.held.isEmpty = true := by simp [hst, hrun, hheld]
  unfold kick startNext
  simp only [hx, if_pos hstarts, hqueue, himg, hlocal, Bool.false_eq_true, if_false, Bool.and_eq_true, bne_iff_ne, startedRun]

/-! ### Enqueues (R226, R227, R239) -/

/-- A running channel takes an entry behind the copy in progress. -/
theorem enqueueCopy_behind {s : State} {d n : Nat} (ref iter : Nat) (hrun : (copyChan s d n).run ≠ none)
    (hst : (copyChan s d n).st = 1) :
    enqueueCopy s d n ref iter = setCopy s d n { copyChan s d n with queue := (copyChan s d n).queue ++ [⟨ref, iter⟩] } := by
  unfold enqueueCopy
  rw [kick_busy (by rwa [copyChan_setCopy_same]), if_neg (by omega)]

/-- An idle channel starts a local copy at once. -/
theorem enqueueCopy_starts {s : State} {d n ref iter img : Nat} (hrun : (copyChan s d n).run = none)
    (hst : (copyChan s d n).st = 0) (hqueue : (copyChan s d n).queue = []) (hheld : (copyChan s d n).held = [])
    (himg : copyAt s (chPart s d n) ref = some img) (hlocal : cdRemote img = false) :
    enqueueCopy s d n ref iter = setCopy s d n { copyChan s d n with
      st := 1
      queue := []
      run := some (startedRun s d n ref iter img) } := by
  unfold enqueueCopy
  dsimp only
  rw [if_pos hst, hqueue]
  exact Eq.trans (kick_starts (copyChan_setCopy_same _ _ _ _) rfl hrun rfl hheld himg hlocal) (setCopy_setCopy _ _ _ _ _)

section
variable {r : Requester} {d : Fin 2} {n : Fin 32} {s : State}

theorem exec_cpyChEnq (v : BitVec 64) (h : canWrite s r (chReg d n 8)) :
    exec (.cpyChEnq r d n v) s = .next (chEnq s d n v.toNat) := congrArg _ (gate_go _ h.1 h.2)

theorem exec_cpyChOwnerWrite (v : BitVec 32) (h : canWrite s r (chReg d n 4)) :
    exec (.cpyChOwnerWrite r d n v) s = .next (chOwner s d n v.toNat) := congrArg _ (gate_go _ h.1 h.2)

end

/-- A runtime enqueue that R227 accepts takes a copy where the queue has room, and else sets the event QFULL. -/
theorem chEnq_good {s : State} {d n v img : Nat} (howner : chKind s d n = 2) (hst : (copyChan s d n).st ≠ 2)
    (himg : copyAt s (chPart s d n) (bits v 0 32) = some img) (hiter : bits v 32 32 < cdIters img) :
    chEnq s d n v = if 64 ≤ chDepth (copyChan s d n) then chEvent s d n 3
      else enqueueCopy s d n (bits v 0 32) (bits v 32 32) := by
  simp only [chEnq, howner, himg]
  rw [if_neg (by simp [hst]), if_neg (by omega)]

/-- The runtime takes a free idle channel for the partition that it names. -/
theorem chOwner_takes {s : State} {d n v : Nat} (hidle : (copyChan s d n).st = 0) (hfree : chKind s d n = 0)
    (hask : bits v 0 2 = 2) : chOwner s d n v = wr s (chReg d n 4) (bits v 0 5) := by
  unfold chOwner
  rw [if_neg (by simp [hidle]), if_pos ⟨hfree, hask⟩]

/-- The runtime gives an idle channel of its own back. -/
theorem chOwner_frees {s : State} {d n v : Nat} (hidle : (copyChan s d n).st = 0) (howned : chKind s d n = 2)
    (hask : bits v 0 2 = 0) : chOwner s d n v = wr s (chReg d n 4) 0 := by
  unfold chOwner
  rw [if_neg (by simp [hidle]), if_neg (by omega), if_pos ⟨howned, hask⟩]

/-- The enqueue stroke on a channel that runs for its plate. -/
theorem exec_copyEnqueue {g : Fin 256} {n t w img : Nat} {s : State} (hready : Ready s g n t w 7 1 (resv 53 63 + resv 96 127))
    (hgoes : GoesOn s g n t 7 t) (howner : chKind (launched s g n t 7) (g / 128) (bits w 32 5) = 1)
    (hpart : chPart (launched s g n t 7) (g / 128) (bits w 32 5) = (gen (launched s g n t 7) n).part)
    (hst : (copyChan (launched s g n t 7) (g / 128) (bits w 32 5)).st = 1)
    (hrun : (copyChan (launched s g n t 7) (g / 128) (bits w 32 5)).run ≠ none)
    (himg : copyAt (launched s g n t 7) (gen (launched s g n t 7) n).part (bits w 37 16) = some img)
    (hiter : bits w 64 32 < cdIters img) (hroom : chDepth (copyChan (launched s g n t 7) (g / 128) (bits w 32 5)) < 64) :
    exec (.copyEnqueue g) s = .next
      (movedOn (enqueueCopy (launched s g n t 7) (g / 128) (bits w 32 5) (bits w 37 16) (bits w 64 32)) g t t) := by
  have hqueued := enqueueCopy_behind (bits w 37 16) (bits w 64 32) hrun hst
  refine congrArg Host.Outcome.next (launch_moves hready hgoes rfl ?_ ?_ ?_)
  · simp only [howner, hpart, hst, himg]
    rw [if_neg (by simp), if_neg (by omega), if_neg (by omega)]
  · rw [hqueued]
    rfl
  · rw [hqueued]
    rfl

/-! ### A copy is done (R230, R333) -/

/-- What a copy's descriptor signals when it is done. -/
def doneSignal (d img : Nat) : List Change :=
  if cdSignal img then [{ op := 0, id := 4096 * d + cdCtr img, inc := cdInc img }] else []

theorem setChanges_changes (s : State) (d : Nat) : setChanges s d (changes s d) = s := by
  unfold setChanges changes
  split <;> rfl

theorem changes_setChanges (s : State) (d : Nat) (l : List Change) : changes (setChanges s d l) d = l := by
  unfold setChanges changes
  split <;> rfl

theorem setChanges_shape (s : State) (d : Nat) (l : List Change) :
    ∃ x y, setChanges s d l = { s with changes0 := x, changes1 := y } := by
  unfold setChanges
  split <;> exact ⟨_, _, rfl⟩

/-- A done copy without a record has its signal sent and its event set. -/
theorem pushRec_done {s : State} {d n img flags bytes : Nat} (hrecord : cdRecord img = false) :
    pushRec s d n (recOf img 0 flags bytes) = chEvent (setChanges s d (changes s d ++ doneSignal d img)) d n 0 := by
  simp only [pushRec, afterRec, recOf, hrecord, doneSignal, queueChange]
  cases cdSignal img
  · simp [setChanges_changes]
  · simp

/-- Channel `n` of die `d` has no copy left: it is IDLE, with its event DONE set and the signal of copy `img` sent, and what
else a copy reaches is as in `s`. -/
structure ChannelDone (s u : State) (d n img : Nat) : Prop where
  run : (copyChan u d n).run = none
  idle : (copyChan u d n).st = 0
  event : bit (rd u (chReg d n 0x14)) 0 = true
  signal : changes u d = changes s d ++ doneSignal d img
  mem : u.mem = s.mem
  pods : u.pods = s.pods
  ctrs : u.ctrs = s.ctrs
  out : u.out = s.out
  pending : u.pending = s.pending

/-- The copy in progress has left its channel, and what it signals is queued. -/
def copyEnded (s : State) (d n img : Nat) : State :=
  setChanges (modCopy (forgetSpans s d n) d n (fun x => { x with run := none })) d (changes s d ++ doneSignal d img)

/-- Ending a copy changes its channel, the changes queued, and which copies the spans in flight belong to. -/
theorem copyEnded_shape (s : State) (d n img : Nat) : ∃ c p x y, copyEnded s d n img =
    { s with copies := c, spans := p, changes0 := x, changes1 := y } := by
  obtain ⟨x, y, h⟩ := setChanges_shape (modCopy (forgetSpans s d n) d n (fun x => { x with run := none })) d
    (changes s d ++ doneSignal d img)
  exact ⟨_, _, x, y, h⟩

theorem copyChan_copyEnded (s : State) (d n img : Nat) :
    copyChan (copyEnded s d n img) d n = { copyChan s d n with run := none } := by
  obtain ⟨x, y, h⟩ := setChanges_shape (modCopy (forgetSpans s d n) d n (fun x => { x with run := none })) d
    (changes s d ++ doneSignal d img)
  unfold copyEnded
  rw [h]
  exact copyChan_setCopy_same _ _ _ _

/-- The last copy of a running channel ends without a record: the channel goes IDLE. -/
theorem finish_last {s : State} {d n : Nat} {r : CopyRun} (bytes : Nat) (hrecord : cdRecord r.img = false)
    (hst : (copyChan s d n).st = 1) (hqueue : (copyChan s d n).queue = []) (hheld : (copyChan s d n).held = []) :
    ChannelDone s (copyDone.finish' d n s r bytes) d n r.img := by
  have hchan : copyChan (chEvent (copyEnded s d n r.img) d n 0) d n = { copyChan s d n with run := none } :=
    copyChan_copyEnded s d n r.img
  have hfinish : copyDone.finish' d n s r bytes =
      setCopy (chEvent (copyEnded s d n r.img) d n 0) d n { copyChan s d n with run := none, st := 0 } := by
    unfold copyDone.finish'
    simp only [hrecord, Bool.false_and, Bool.false_eq_true, if_false, pushRec_done hrecord]
    have hidle := kick_idle (s := chEvent (copyEnded s d n r.img) d n 0) (d := d) (n := n)
    rw [hchan] at hidle
    exact hidle hst rfl hqueue hheld
  obtain ⟨c, p, x, y, hended⟩ := copyEnded_shape s d n r.img
  rw [hfinish]
  constructor
  case run => rw [copyChan_setCopy_same]
  case idle => rw [copyChan_setCopy_same]
  case event =>
    show bit (rd (chEvent (copyEnded s d n r.img) d n 0) (chReg d n 0x14)) 0 = true
    rw [chEvent, rd_setBits_same]
    simp [bit]
  case signal => exact changes_setChanges _ _ _
  case mem | pods | ctrs | out | pending =>
    rw [hended]
    rfl

/-! ### Counts and progress of a copy (R224, R238, R316, R487) -/

/-- From `s` to `u`, counts, the progress of copies and the layers' records change; channel `n` of die `d` keeps its state,
its queue and the records that wait. -/
def CountsOnly (d n : Nat) (s u : State) : Prop :=
  (∃ r c k e, u = { s with regs := r, copies := c, upes := k, cntOps := e }) ∧
    ∃ x, copyChan u d n = { copyChan s d n with run := x }

section
variable {d n : Nat} {s t u : State}

theorem CountsOnly.trans (h : CountsOnly d n s t) (h' : CountsOnly d n t u) : CountsOnly d n s u := by
  obtain ⟨⟨r, c, k, e, rfl⟩, x, hx⟩ := h
  obtain ⟨⟨r', c', k', e', rfl⟩, x', hx'⟩ := h'
  exact ⟨⟨r', c', k', e', rfl⟩, x', by rw [hx', hx]⟩

variable (d n s)

theorem CountsOnly.of_counts (r : Tbl Nat) (e : Tbl Nat) : CountsOnly d n s { s with regs := r, cntOps := e } :=
  ⟨⟨r, s.copies, s.upes, e, rfl⟩, (copyChan s d n).run, rfl⟩

theorem countsOnly_run (x : Option CopyRun) : CountsOnly d n s (modCopy s d n (fun c => { c with run := x })) :=
  ⟨⟨s.regs, _, s.upes, s.cntOps, rfl⟩, x, copyChan_setCopy_same _ _ _ _⟩

theorem countsOnly_countOps (dd p c t k : Nat) : CountsOnly d n s (countOps s dd p c t k) := by
  obtain ⟨x, h⟩ := countOps_shape s dd p c t k
  rw [h]
  exact .of_counts d n s s.regs x

theorem countsOnly_countBytes (k : Nat) : CountsOnly d n s (countBytes s d n k) := by
  obtain ⟨x, h⟩ := bump_shape s (chReg d n 0x30) k
  unfold countBytes
  rw [h]
  exact .of_counts d n s x s.cntOps

theorem countsOnly_countCopy (dd p img : Nat) (conv : Bool) (e : CopyEnd) : CountsOnly d n s (countCopy s dd p img conv e) := by
  have helems := countsOnly_countOps d n s dd p 8 (tdType img) e.elems
  unfold countCopy
  dsimp only
  split
  · exact foldNat_inv (CountsOnly d n s) _ (fun k x h => h.trans (countsOnly_countOps d n x dd p 10 k _)) 6 _
      (helems.trans (countsOnly_countOps d n _ dd p 9 (tdType img) e.elems))
  · exact helems

theorem tget_map_same {α : Type} (z : α) (l : Tbl α) (k : Nat) {f : Nat × α → Nat × α} (hkey : ∀ e, (f e).1 = e.1)
    (hsame : ∀ e, e.1 = k → f e = e) : tget z (l.map f) k = tget z l k := by
  induction l with
  | nil => rfl
  | cons e l ih =>
    obtain ⟨a, v⟩ := e
    by_cases hk : a = k
    · rw [List.map_cons, hsame (a, v) hk]
      simp [tget, hk]
    · rw [List.map_cons, show f (a, v) = (a, (f (a, v)).2) from Prod.ext (hkey _) rfl]
      simp only [tget, if_neg hk, ih]

/-- The bytes that a channel writes are noted by the other copies and by the layers. -/
theorem countsOnly_touchOthers (a k : Nat) : CountsOnly d n s (touchOthers s d n a k) := by
  have htouch : copyChan (touchCopies s d n a k) d n = copyChan s d n := by
    refine tget_map_same _ _ _ (fun e => ?_) (fun e he => if_pos (beq_iff_eq.mpr he))
    dsimp only
    split <;> rfl
  unfold touchOthers touchUpes
  split
  · exact ⟨⟨s.regs, _, _, s.cntOps, rfl⟩, _, htouch⟩
  · exact ⟨⟨s.regs, _, s.upes, s.cntOps, rfl⟩, _, htouch⟩

theorem countsOnly_foldl_touchOthers (l : List (Nat × Nat)) :
    CountsOnly d n s (l.foldl (fun s x => touchOthers s d n x.1 x.2) s) := by
  induction l generalizing s with
  | nil => exact .of_counts d n s s.regs s.cntOps
  | cons x l ih => exact (countsOnly_touchOthers d n s x.1 x.2).trans (ih _)

end

/-! ### Completion of a channel's last copy -/

section
variable {s : State} {d n : Nat} {r : CopyRun}

/-- As `finish_last`, once the copy has been counted. -/
theorem finish_counted {t : State} (bytes : Nat) (hcount : CountsOnly d n s t) (hrecord : cdRecord r.img = false)
    (hst : (copyChan s d n).st = 1) (hqueue : (copyChan s d n).queue = []) (hheld : (copyChan s d n).held = []) :
    ChannelDone s (copyDone.finish' d n t r bytes) d n r.img := by
  obtain ⟨⟨x, c, k, e, rfl⟩, y, hy⟩ := hcount
  have h := finish_last (r := r) bytes hrecord (by rwa [hy]) (by rwa [hy]) (by rwa [hy])
  exact ⟨h.run, h.idle, h.event, h.signal, h.mem, h.pods, h.ctrs, h.out, h.pending⟩

variable (hrun : (copyChan s d n).run = some r) (hdone : r.done = none) (hrecord : cdRecord r.img = false)
include hrun hdone hrecord

/-- A REMOTE copy whose spans are all acknowledged is done. -/
theorem copyDone_remote (hremote : cdRemote r.img = true) (hacked : r.total ≤ r.acked) (hst : (copyChan s d n).st = 1)
    (hqueue : (copyChan s d n).queue = []) (hheld : (copyChan s d n).held = []) :
    ChannelDone s (copyDone s d n) d n r.img := by
  unfold copyDone
  simp only [hrun, hdone, hremote, Option.isSome_none, Bool.false_eq_true, if_false, if_true]
  rw [if_neg (by omega)]
  exact finish_counted _ (countsOnly_countBytes d n s _) hrecord hst hqueue hheld

/-- A local copy that meets no bad word is done once its data are moved. -/
theorem copyDone_local {e : CopyEnd} (hlocal : cdRemote r.img = false)
    (he : moveCopy (freshSpads s) (chPart s d n) (copyItems (freshSpads s) (jobOf s (chPart s d n) r.img r.iter)) r.touched
      (chSlots (freshSpads s) d n) = e) (hgood : e.bad = none) (hst : (copyChan e.s d n).st = 1)
    (hqueue : (copyChan e.s d n).queue = []) (hheld : (copyChan e.s d n).held = []) :
    ChannelDone e.s (copyDone s d n) d n r.img := by
  unfold copyDone
  simp only [hrun, hdone, hlocal, Option.isSome_none, Bool.false_eq_true, if_false, he, hgood]
  refine finish_counted (r := { r with flags := _ }) _ ?_ hrecord hst hqueue hheld
  have hmoved x := (countsOnly_foldl_touchOthers d n e.s e.reached).trans (countsOnly_run d n _ x)
  split
  · exact ((hmoved _).trans (countsOnly_countBytes d n _ _)).trans (countsOnly_countCopy d n _ _ _ _ _ _)
  · exact hmoved _

end

end Sys2Proof.Machine
end

section
/-! SUPPORT. Range and describe commands of the runtime: their words, their acceptance and their completion (R211, R212, R218,
R239, R240). -/

namespace Sys2Proof.Machine

open Sys2Proof

/-- One of several open values is drawn. -/
theorem pickOf_mem (s : State) {l : List Nat} (h : l ≠ []) : (pickOf s l).2 ∈ l := by
  match l with
  | [v] => exact List.mem_singleton_self v
  | v :: w :: ws =>
    have hin : Config.pick s.freeCtr ((w :: ws).length + 1) % ((w :: ws).length + 1) < (v :: w :: ws).length :=
      Nat.mod_lt _ (Nat.succ_pos _)
    simp only [pickOf, nth, List.getD_eq_getElem _ _ hin, List.getElem_mem]

/-! ### Commands' words (R239, R240) -/

/-- The word of an ALLOC. -/
abbrev allocWord (p : Nat) (b w : Bool) : Nat := 1 + 4 * p + 32 * b2n b + 64 * b2n w

theorem allocWord_fields : ∀ (p : Fin 8) (b w : Bool),
    1 + fld 2 3 p + fld 5 1 (b2n b) + fld 6 1 (b2n w) = allocWord p b w ∧ bits (allocWord p b w) 0 2 = 1 ∧
      bits (allocWord p b w) 2 3 = p ∧ bit (allocWord p b w) 5 = b ∧ bit (allocWord p b w) 6 = w := by decide

theorem descWord_eq (op : Nat) (p : Fin 8) (i : Fin 4096) : descWord op p i = op + 4 * p + 65536 * i := by
  simp only [descWord, fld, Nat.shiftLeft_eq]
  omega

theorem descWord_fields {op : Nat} (hop : op < 4) (p : Fin 8) (i : Fin 4096) :
    bits (op + 4 * p + 65536 * i) 0 2 = op ∧ bits (op + 4 * p + 65536 * i) 2 3 = p ∧
      bits (op + 4 * p + 65536 * i) 16 12 = i := by
  simp only [bits, Nat.shiftRight_eq_div_pow]
  omega

theorem cpyReg_ne (d : Nat) {o o' : Nat} (h : o ≠ o') : cpyReg d o ≠ cpyReg d o' := by
  unfold cpyReg
  omega

/-! ### Acceptance (R218, R239) -/

section
variable {r : Requester} {d : Fin 2} {s : State}

theorem exec_alloc (p : Fin 8) (b w : Bool) (h : canWrite s r (cpyReg d 0x18)) :
    exec (.alloc r d p b w) s = .next (rangeCmd s d (allocWord p b w)) := by
  rw [← (allocWord_fields p b w).1]
  exact congrArg _ (gate_go _ h.1 h.2)

theorem exec_free (h : canWrite s r (cpyReg d 0x18)) : exec (.free r d) s = .next (rangeCmd s d 2) :=
  congrArg _ (gate_go _ h.1 h.2)

theorem exec_cpyRangeBadCommand {op : BitVec 2} (h : canWrite s r (cpyReg d 0x18)) (hop : op ≠ 1 ∧ op ≠ 2) :
    exec (.cpyRangeBadCommand r d op) s = .next (rangeCmd s d op.toNat) := by
  refine congrArg Host.Outcome.next ((gate_go _ h.1 h.2).trans (if_neg ?_))
  rw [not_or]
  exact hop

theorem exec_describeTensor (p : Fin 8) (i : Fin 4096) (h : canWrite s r (cpyReg d 0x30)) :
    exec (.describeTensor r d p i) s = .next (descCmd s d (1 + 4 * p + 65536 * i)) := by
  rw [← descWord_eq]
  exact congrArg _ (gate_go _ h.1 h.2)

theorem exec_describeCopy (p : Fin 8) (i : Fin 4096) (h : canWrite s r (cpyReg d 0x30)) :
    exec (.describeCopy r d p i) s = .next (descCmd s d (2 + 4 * p + 65536 * i)) := by
  rw [← descWord_eq]
  exact congrArg _ (gate_go _ h.1 h.2)

theorem exec_destroy (p : Fin 8) (i : Fin 4096) (h : canWrite s r (cpyReg d 0x30)) :
    exec (.destroy r d p i) s = .next (descCmd s d (3 + 4 * p + 65536 * i)) := by
  rw [← descWord_eq]
  exact congrArg _ (gate_go _ h.1 h.2)

theorem exec_cpyDescBadCommand (h : canWrite s r (cpyReg d 0x30)) :
    exec (.cpyDescBadCommand r d) s = .next (descCmd s d 0) := congrArg _ (gate_go _ h.1 h.2)

end

section
variable {s : State} {d w : Nat}

theorem rangeCmd_busy {c : CpyCmd} (h : tfind s.rangeCmds d = some c) : rangeCmd s d w = s := by
  simp [rangeCmd, h]

theorem rangeCmd_taken (h : tfind s.rangeCmds d = none) (hop : bits w 0 2 = 1 ∨ bits w 0 2 = 2) : rangeCmd s d w =
    { s with rangeCmds := tset s.rangeCmds d ⟨w, rd s (cpyReg d 8), rd s (cpyReg d 0x10), false⟩ } := by
  simp [rangeCmd, h, hop]

theorem rangeCmd_bad (h : tfind s.rangeCmds d = none) (hop : ¬ (bits w 0 2 = 1 ∨ bits w 0 2 = 2)) :
    rangeCmd s d w = wr s (cpyReg d 0x1C) 0x0F := by
  simp [rangeCmd, h, hop]

/-- The image that a describe command names is copied as the command is accepted. -/
theorem descCmd_image (h : tfind s.descCmds d = none) (hop : bits w 0 2 = 1 ∨ bits w 0 2 = 2)
    (hmem : memOk s (rd s (cpyReg d 0x28)) 64 = true) (hgood : memBad s (rd s (cpyReg d 0x28)) 64 = false) :
    tfind (descCmd s d w).descCmds d = some ⟨w, memRead s (rd s (cpyReg d 0x28)) 64, 0, false⟩ := by
  obtain hop | hop := hop
  · simp [descCmd, h, hop, hmem, hgood, tfind_tset]
  · simp [descCmd, h, hop, hmem, hgood, tfind_tset]

theorem descCmd_destroy (h : tfind s.descCmds d = none) (hop : bits w 0 2 = 3) :
    descCmd s d w = { s with descCmds := tset s.descCmds d ⟨w, 0, 0, false⟩ } := by
  simp [descCmd, h, hop]

theorem descCmd_bad (h : tfind s.descCmds d = none) (hop : bits w 0 2 = 0) : descCmd s d w = wr s (cpyReg d 0x34) 0x0F := by
  simp [descCmd, h, hop]

end

/-! ### Completion of range commands (R211, R212) -/

theorem exec_rangeCommandComplete {d : Fin 2} {s : State} (hup : dieUp s d = true) :
    exec (.rangeCommandComplete d) s = .next (rangeComplete s d) := congrArg _ (if_pos hup)

/-- ALLOC of a good span that meets no live range gives it to one of the free ranges. -/
theorem allocRange_good {s : State} {d w a n : Nat} (hok : rangeOk s (bits w 2 3) a n (bit w 5) = true)
    (hclear : ∀ e ∈ s.ranges, e.2.live = true → e.2.base + e.2.len ≤ a ∨ a + n ≤ e.2.base)
    (hfree : ∃ i < 4096, (rangeAt s i).live = false) :
    ∃ i x, i < 4096 ∧ (rangeAt s i).live = false ∧ allocRange s d w a n =
      (wr (setRange { s with freeCtr := x } i { rangeAt s i with
          live := true, base := a, len := n, part := bits w 2 3, spad := bit w 5, writable := bit w 6, count := 0 })
        (cpyReg d 0x20) (i + fld 12 3 (bits w 2 3) + fld 15 1 (b2n (bit w 5)) + fld 16 32 (rangeAt s i).gen), 0) := by
  have hmeets : s.ranges.any (fun e => e.2.live && decide (e.2.base < a + n ∧ a < e.2.base + e.2.len)) = false := by
    refine List.any_eq_false.mpr fun e he => ?_
    have := hclear e he
    cases hlive : e.2.live
    · simp
    · simp only [Bool.true_and, decide_eq_true_eq]
      have := this hlive
      omega
  have hmem (i : Nat) :
      i ∈ (List.range 4096).filter (fun i => !(rangeAt s i).live) ↔ i < 4096 ∧ (rangeAt s i).live = false := by
    simp
  have hne : (List.range 4096).filter (fun i => !(rangeAt s i).live) ≠ [] := by
    obtain ⟨i, hi⟩ := hfree
    exact List.ne_nil_of_mem ((hmem i).mpr hi)
  obtain ⟨x, i, hpick⟩ := pickOf_shape s ((List.range 4096).filter (fun i => !(rangeAt s i).live))
  have hdrawn := pickOf_mem s hne
  rw [hpick, hmem] at hdrawn
  refine ⟨i, x, hdrawn.1, hdrawn.2, ?_⟩
  unfold allocRange
  simp only [hok, hmeets, List.isEmpty_eq_false_iff.mpr hne, hpick, Bool.not_true, Bool.or_false, Bool.false_eq_true,
    if_false]
  rfl

/-- FREE of a range that no descriptor names takes it back. -/
theorem freeRange_unnamed {s : State} {h : Nat} {x : Range} (hlive : rangeOf s h (handlePart h) = some x)
    (hcount : x.count = 0) :
    freeRange s h = (setRange s (handleIdx h) { x with live := false, gen := (x.gen + 1) % 2 ^ 32 }, 0) := by
  simp [freeRange, hlive, hcount]

theorem rangeComplete_free {s : State} {d : Nat} {h : Nat} {x : Range} (hcmd : tfind s.rangeCmds d = some ⟨2, h, 0, false⟩)
    (hlive : rangeOf s h (handlePart h) = some x) (hcount : x.count = 0) :
    rangeComplete s d = wr (setRange { s with rangeCmds := tdel s.rangeCmds d } (handleIdx h)
       { x with live := false, gen := (x.gen + 1) % 2 ^ 32 }) (cpyReg d 0x1C) 0 := by
  have hfreed := freeRange_unnamed (s := { s with rangeCmds := tdel s.rangeCmds d }) hlive hcount
  simp only [rangeComplete, hcmd, hfreed]
  rfl

/-- What the completion of an ALLOC leaves: range `i` has a handle for the span. -/
theorem rangeComplete_alloc {s : State} {d a n : Nat} {p : Fin 8} {b w : Bool}
    (hcmd : tfind s.rangeCmds d = some ⟨allocWord p b w, a, n, false⟩) (hok : rangeOk s p a n b = true)
    (hclear : ∀ e ∈ s.ranges, e.2.live = true → e.2.base + e.2.len ≤ a ∨ a + n ≤ e.2.base)
    (hfree : ∃ i < 4096, (rangeAt s i).live = false) :
    ∃ i x, i < 4096 ∧ (rangeAt s i).live = false ∧ rangeComplete s d =
      wr (wr (setRange { s with rangeCmds := tdel s.rangeCmds d, freeCtr := x } i { rangeAt s i with
          live := true, base := a, len := n, part := p, spad := b, writable := w, count := 0 })
        (cpyReg d 0x20) (i + 4096 * p + 32768 * b2n b + 65536 * ((rangeAt s i).gen % 2 ^ 32))) (cpyReg d 0x1C) 0 := by
  obtain ⟨-, hop, hpart, hspace, hwrite⟩ := allocWord_fields p b w
  have hgood := allocRange_good (s := { s with rangeCmds := tdel s.rangeCmds d }) (d := d) (w := allocWord p b w)
    (a := a) (n := n)
  rw [hpart, hspace, hwrite] at hgood
  obtain ⟨i, x, hi, hdead, halloc⟩ := hgood hok hclear hfree
  refine ⟨i, x, hi, hdead, ?_⟩
  have hhandle : i + fld 12 3 p + fld 15 1 (b2n b) + fld 16 32 (rangeAt s i).gen =
      i + 4096 * p + 32768 * b2n b + 65536 * ((rangeAt s i).gen % 2 ^ 32) := by
    have hb : b2n b < 2 := by cases b <;> decide
    simp only [fld, Nat.shiftLeft_eq]
    omega
  rw [← hhandle]
  simp only [rangeComplete, hcmd, hop, if_true, halloc]
  rfl

/-! ### Completion of describe commands (R212, R218, R240) -/

theorem exec_descCommandComplete {d : Fin 2} {s : State} (hup : dieUp s d = true) :
    exec (.descCommandComplete d) s = .next (descComplete s d) := congrArg _ (if_pos hup)

/-- A descriptor that comes or goes changes the count of the range that it names, and nothing else. -/
theorem countDesc_shape (s : State) (e : DescE) (up : Bool) : ∃ r, countDesc s e up = { s with ranges := r } := by
  unfold countDesc
  split <;> exact ⟨_, rfl⟩

/-- Die `d`'s describe command is complete with result 0, and partition `p`'s runtime table is `table`. -/
structure DescDone (s u : State) (d p : Nat) (table : Tbl DescE) : Prop where
  table : (part u p).runDescs = table
  result : rd u (cpyReg d 0x34) = 0
  idle : tfind u.descCmds d = none
  mem : u.mem = s.mem
  pending : u.pending = s.pending

/-- Once the table is as it shall be, the count of the descriptor's range and the result follow. -/
theorem descDone_counted {s t : State} {d p : Nat} {table : Tbl DescE} (e : DescE) (up : Bool)
    (htable : (part t p).runDescs = table) (hidle : tfind t.descCmds d = none) (hmem : t.mem = s.mem)
    (hpending : t.pending = s.pending) : DescDone s (wr (countDesc t e up) (cpyReg d 0x34) 0) d p table := by
  obtain ⟨r, h⟩ := countDesc_shape t e up
  rw [h]
  exact ⟨htable, rd_wr_same _ _ _, hidle, hmem, hpending⟩

/-- The descriptor that a describe command with operation `op` makes of an image. -/
def describedAs (op : Fin 2) (img : Nat) : DescE := if op = 0 then .tensor img else .copy img

/-- A good image is put into the runtime table. -/
theorem descRun_describe {s : State} {img : Nat} {p : Fin 8} {i : Fin 4096} {op : Fin 2}
    (hfree : tfind (part s p).runDescs i = none)
    (hgood : (if op = 0 then describeTensor s img p else describeCopy s img p true) = 0) :
    descRun s ⟨op + 1 + 4 * p + 65536 * i, img, 0, false⟩ = (putDesc s p i (describedAs op img), 0) := by
  obtain ⟨hop, hpart, hindex⟩ := descWord_fields (op := op + 1) (by omega) p i
  unfold descRun describedAs
  simp only [hop, hpart, hindex, hfree]
  match op with
  | 0 =>
    have hgood : describeTensor s img p = 0 := hgood
    simp [hgood]
  | 1 =>
    have hgood : describeCopy s img p true = 0 := hgood
    simp [hgood]

/-- A descriptor that no copy names is taken out of the runtime table. -/
theorem descRun_destroy {s : State} {p : Fin 8} {i : Fin 4096} {e : DescE} (hlive : tfind (part s p).runDescs i = some e)
    (hunnamed : ∀ x, e = .tensor x → namedByCopy s p (2 ^ 16 + i) = false) :
    descRun s ⟨3 + 4 * p + 65536 * i, 0, 0, false⟩ =
      (countDesc (modPart s p (fun x => { x with runDescs := tdel x.runDescs i })) e false, 0) := by
  obtain ⟨hop, hpart, hindex⟩ := descWord_fields (op := 3) (by omega) p i
  unfold descRun
  simp only [hop, hpart, hindex, hlive]
  cases e with
  | tensor x => simpa using hunnamed x rfl
  | copy c => simp

theorem descComplete_describe {s : State} {d img : Nat} {p : Fin 8} {i : Fin 4096} {op : Fin 2}
    (hcmd : tfind s.descCmds d = some ⟨op + 1 + 4 * p + 65536 * i, img, 0, false⟩) (hfree : tfind (part s p).runDescs i = none)
    (hgood : (if op = 0 then describeTensor s img p else describeCopy s img p true) = 0) :
    DescDone s (descComplete s d) d p (tset (part s p).runDescs i (describedAs op img)) := by
  simp only [descComplete, hcmd, descRun_describe (s := { s with descCmds := tdel s.descCmds d }) hfree hgood, putDesc]
  exact descDone_counted _ _ (congrArg (·.runDescs) (part_modPart_same _ _ _)) (tfind_tdel_same _ _) rfl rfl

theorem descComplete_destroy {s : State} {d : Nat} {p : Fin 8} {i : Fin 4096} {e : DescE}
    (hcmd : tfind s.descCmds d = some ⟨3 + 4 * p + 65536 * i, 0, 0, false⟩) (hlive : tfind (part s p).runDescs i = some e)
    (hunnamed : ∀ x, e = .tensor x → namedByCopy s p (2 ^ 16 + i) = false) :
    DescDone s (descComplete s d) d p (tdel (part s p).runDescs i) := by
  simp only [descComplete, hcmd, descRun_destroy (s := { s with descCmds := tdel s.descCmds d }) hlive hunnamed]
  exact descDone_counted _ _ (congrArg (·.runDescs) (part_modPart_same _ _ _)) (tfind_tdel_same _ _) rfl rfl

end Sys2Proof.Machine
end

section
/-! The statements about scratchpad transfers and copies (09_scratchpad_copy.md). -/

open Sys2Proof Sys2Proof.Machine

/-- Settles O30: the launch by its stroke's rule, and the access of a transfer that is alone in its pod. -/
theorem transfersMoveTileRows : Obligations.TransfersMoveTileRows := by
  refine ⟨?_, ?_⟩
  · intro g n t w s b L hready hgoes hgood hlanes
    refine Eq.trans ?_ (congrArg Host.Outcome.next (xferStroke_starts hready hgoes hgood hlanes))
    cases b <;> rfl
  · intro g n h s x p q A a words share more hhatch halone hdue hrun hsettle hxfers herrs hnarrow hfirst hwhole hport
    have hone : OneAccess x := ⟨hnarrow, hfirst, hwhole⟩
    refine congrArg Host.Outcome.next (transferRowAccess_alone hone hhatch halone hdue hrun hsettle hxfers herrs ?_)
    rw [← hport]
    cases hs : x.store
    · simp [rowWords, rowWord, hs, words, a]
    · simp [rowWords, rowWord, hs, words, a]

/-- Settles O33: the two ways in which a channel takes a copy, then the stroke and the registers that lead to them. -/
theorem copiesAreQueued : Obligations.CopiesAreQueued := by
  refine ⟨?_, ?_, ?_, ?_, ?_⟩
  · intro s d n ref iter r hrun hst
    exact enqueueCopy_behind ref iter (by simp [hrun]) hst
  · intro s d n ref iter img hrun hst hqueue hheld himg hlocal
    exact enqueueCopy_starts hrun hst hqueue hheld himg hlocal
  · intro g n t w img s L d c hready hgoes howner hpart hst hrun himg hiter hroom
    exact exec_copyEnqueue hready hgoes howner hpart hst hrun himg hiter hroom
  · intro r d n v img s hwrite howner hst himg
    rw [exec_cpyChEnq v hwrite]
    refine ⟨fun hiter hroom => congrArg _ ?_, fun hiter hfull => congrArg _ ?_⟩
    · rw [chEnq_good howner hst himg hiter, if_neg (by omega)]
    · rw [chEnq_good howner hst himg hiter, if_pos hfull]
      rfl
  · intro r d n v s hwrite hidle
    rw [exec_cpyChOwnerWrite v hwrite]
    exact ⟨fun hfree hask => congrArg _ (chOwner_takes hidle hfree hask),
      fun howned hask => congrArg _ (chOwner_frees hidle howned hask)⟩

/-- Settles O34: the completion of a REMOTE copy and of a local one, each followed by what its channel then does. -/
theorem lastCopyDone : Obligations.LastCopyDone := by
  intro d n s r hrun hdone hrecord sig
  refine ⟨fun hremote hacked hst hqueue hheld => ?_, fun hlocal hgood hst hqueue hheld => ?_⟩
  · have h := copyDone_remote hrun hdone hrecord hremote hacked hst hqueue hheld
    exact ⟨_, rfl, h.run, h.idle, h.event, h.signal, h.mem, h.pods, h.ctrs, h.out, h.pending⟩
  · have h := copyDone_local hrun hdone hrecord hlocal rfl hgood hst hqueue hheld
    exact ⟨_, rfl, h.run, h.idle, h.event, h.signal, h.mem, h.pods, h.ctrs, h.out, h.pending⟩

/-- Settles O36: what a command's register accepts, and what each good command leaves when it completes. -/
theorem rangeAndDescriptorCommands : Obligations.RangeAndDescriptorCommands := by
  refine ⟨fun r d s => ⟨fun hwrite => ⟨fun c hbusy p b w => ?_, fun hfree => ⟨fun p b w => ?_, ?_, fun op h1 h2 => ?_⟩⟩,
    fun p b w a n hup hcmd hok hclear hfree => ?_, fun h x hup hcmd hlive hcount => ?_⟩,
    fun r d p i s => ⟨fun hwrite hfree => ⟨fun hmem hgood => ?_, ?_, ?_⟩, fun img op hup hcmd hfree hgood => ?_,
      fun e hup hcmd hlive hunnamed => ?_⟩⟩
  · rw [exec_alloc p b w hwrite, exec_free hwrite, rangeCmd_busy hbusy, rangeCmd_busy hbusy]
    exact ⟨rfl, rfl⟩
  · obtain ⟨-, hop, -⟩ := allocWord_fields p b w
    rw [exec_alloc p b w hwrite, rangeCmd_taken hfree (.inl hop)]
  · rw [exec_free hwrite, rangeCmd_taken hfree (.inr rfl)]
  · have hop : bits op.toNat 0 2 = op.toNat := Nat.mod_eq_of_lt op.isLt
    rw [exec_cpyRangeBadCommand hwrite ⟨h1, h2⟩, rangeCmd_bad hfree]
    bv_omega
  · obtain ⟨i, x, hi, hdead, hdone⟩ := rangeComplete_alloc hcmd hok hclear hfree
    refine ⟨_, i, exec_rangeCommandComplete hup, hi, hdead, ?_⟩
    rw [hdone]
    refine ⟨rangeAt_setRange_same _ _ _, fun j hj => rangeAt_setRange_ne _ _ _ _ hj, rd_wr_same _ _ _, ?_,
      tfind_tdel_same _ _, rfl, rfl, rfl, rfl⟩
    rw [rd_wr_ne _ _ _ _ (cpyReg_ne d (by decide)), rd_wr_same]
  · rw [exec_rangeCommandComplete hup, rangeComplete_free hcmd hlive hcount]
  · refine ⟨_, _, exec_describeTensor p i hwrite, exec_describeCopy p i hwrite, ?_, ?_⟩
    · exact descCmd_image hfree (.inl (descWord_fields (by decide) p i).1) hmem hgood
    · exact descCmd_image hfree (.inr (descWord_fields (by decide) p i).1) hmem hgood
  · rw [exec_destroy p i hwrite, descCmd_destroy hfree (descWord_fields (by decide) p i).1]
  · rw [exec_cpyDescBadCommand hwrite, descCmd_bad hfree rfl]
  · have hdone := descComplete_describe hcmd hfree hgood
    refine ⟨_, exec_descCommandComplete hup, ?_, fun j hj => ?_, hdone.result, hdone.idle, hdone.mem, hdone.pending⟩
    · rw [hdone.table, tfind_tset, if_pos rfl, describedAs]
    · rw [hdone.table, tfind_tset, if_neg hj]
  · have hdone := descComplete_destroy hcmd hlive hunnamed
    exact ⟨_, exec_descCommandComplete hup, hdone.table, hdone.result, hdone.mem, hdone.pending⟩

end

section
/-! SUPPORT. Memory strokes: a READ's request and its landing entry, and the granule, the buffer entry and the request of a
WRITE (R254, R258, R260). -/

namespace Sys2Proof.Machine

open Sys2Proof

/-! ### A request in its channel's queue (R254) -/

@[simp] theorem pod_enqueue (s : State) (st c o : Nat) (r : MemReq) (g : Nat) : pod (enqueue s st c o r) g = pod s g := rfl

@[simp] theorem running_enqueue (s : State) (st c o : Nat) (r : MemReq) (n : Nat) :
    running (enqueue s st c o r) n = running s n := rfl

theorem chan_enqueue (s : State) (st c o : Nat) (r : MemReq) : chan (enqueue s st c o r) st c =
    { chan s st c with queues := tmod [] (chan s st c).queues o (placeReq · r) } := chan_setChan_same _ _ _ _

/-! ### READ (R258) -/

/-- The landing entry of READ stroke `w`, the `idx`th of its program, launched in hc `t`: no granule has been served. -/
def landingOf (st t w idx : Nat) : Landing where
  due := t + bits w 112 16
  entry := bits w 88 8
  word := bits w 96 16
  idx := idx
  desc := bits w 32 16
  granule := bits w 48 40
  st := st

/-- A READ whose landing entry is free and whose granule passes its checks. -/
theorem memRead'_queues {g n t w a : Nat} {l : Loc} {s : State} (hready : Ready s g n t w 6 1 0) (hgoes : GoesOn s g n t 6 t)
    (hgap : 0 < bits w 112 16) (hfree : ∀ x ∈ (pod (launched s g n t 6) g).landing, x.entry ≠ bits w 88 8)
    (hdone : (t, bits w 88 8) ∉ (pod (launched s g n t 6) g).landDone)
    (hcheck : memCheck (launched s g n t 6) n g w (t + bits w 112 16) false = .inr a)
    (hloc : locate (launched s g n t 6) a = some l) :
    memRead' s g = movedOn (enqueue (modPod (launched s g n t 6) g (fun p =>
        { p with landing := p.landing ++ [landingOf l.st t w (pod s g).burin.idx] }))
      l.st l.c n ⟨false, l.pg, a, (gen (launched s g n t 6) n).part, t, g, bits w 88 8, rawGranule (launched s g n t 6) l.pg,
        granuleOvl (launched s g n t 6) l.pg⟩) g t t := by
  have hopen : ((pod (launched s g n t 6) g).landing.any (fun l => l.entry == bits w 88 8) ||
      (pod (launched s g n t 6) g).landDone.contains (t, bits w 88 8)) = false := by
    simpa using ⟨hfree, hdone⟩
  refine launch_moves hready hgoes rfl ?_ ?_ ?_
  · simp only [if_neg (Nat.ne_of_gt hgap), hopen, hcheck, hloc, Bool.false_eq_true, if_false]
    rfl
  · rw [running_enqueue, running_modPod]
  · rw [pod_enqueue, pod_modPod_same]

/-! ### A pod whose words a stroke reads -/

/-- Writes that reach the scratchpad leave the burin. -/
@[simp] theorem burin_settleSpad (p : Pod) (h : Nat) : (settleSpad p h).burin = p.burin := by
  unfold settleSpad
  exact List.foldlRecOn _ _ (motive := fun q : Pod => q.burin = p.burin) rfl fun q hq x _ => hq

/-- An access at the port is noted there alone. -/
theorem portAccess_shape {p q : Pod} {h : Nat} {rs ws : List (Nat × Nat)} {bc : List Nat}
    (hport : portAccess p h rs ws = (q, bc)) : ∃ x, q = { p with acc := x } := by
  obtain ⟨rfl, -⟩ := Prod.mk.inj hport
  exact ⟨_, rfl⟩

/-- A pod that stands in hc `k` and makes its accesses of hc `h` has its burin where it was. -/
theorem burin_portAccess {p q : Pod} {h k : Nat} {rs ws : List (Nat × Nat)} {bc : List Nat}
    (hport : portAccess (settleSpad p k) h rs ws = (q, bc)) : q.burin = p.burin := by
  obtain ⟨x, rfl⟩ := portAccess_shape hport
  exact burin_settleSpad _ _

@[simp] theorem running_setPod (s : State) (g : Nat) (p : Pod) (n : Nat) : running (setPod s g p) n = running s n := rfl

@[simp] theorem granuleOvl_setPod (s : State) (g : Nat) (p : Pod) (pg : Nat) :
    granuleOvl (setPod s g p) pg = granuleOvl s pg := rfl

/-! ### A granule that is written (R279, R285, R291) -/

/-- Storing a granule marks a migration or a write-back of its channel and changes nothing else of the channel. -/
theorem chan_noteGranule (s : State) (l : Loc) :
    ∃ m f, chan (noteGranule s l) l.st l.c = { chan s l.st l.c with migr := m, fix := f } := by
  unfold noteGranule
  dsimp only
  split
  · exact ⟨_, _, rfl⟩
  · exact ⟨_, _, chan_setChan_same _ _ _ _⟩

/-! ### WRITE (R258, R260) -/

/-- The holder of a write has one more entry of the channel's buffer. -/
def entryClaimed (s : State) (l : Loc) (q : Nat) : State :=
  modChan s l.st l.c (fun x => { x with buf := tmod 0 x.buf q (· + 1) })

/-- The channel has accepted write `r` of hatch `n` to granule `l`: a buffer entry is claimed, the granule is stored, and the
request to drain the entry is queued. -/
def writeAccepted (s : State) (n : Nat) (l : Loc) (r : MemReq) : State :=
  enqueue (sample (touchAll (putGranule (entryClaimed s l r.holder) l r.data 0) r.addr 64) n 6 1) l.st l.c n r

/-- A write's count, and what copies and update engines note of it. -/
theorem sample_touchAll_shape (s : State) (a k n ev m : Nat) : ∃ r x y,
    sample (touchAll s a k) n ev m = { s with regs := r, copies := x, upes := y } := by
  obtain ⟨x, y, htouch⟩ := touchAll_shape s a k
  obtain ⟨r, hsample⟩ := sample_shape (touchAll s a k) n ev m
  exact ⟨r, x, y, by rw [hsample, htouch]⟩

/-- A write that is stored, noted and counted. -/
theorem writeStored_shape (s : State) (n : Nat) (l : Loc) (r : MemReq) : ∃ e x y,
    sample (touchAll (putGranule (entryClaimed s l r.holder) l r.data 0) r.addr 64) n 6 1 = { s with
      regs := e, copies := x, upes := y, chans := (noteGranule (entryClaimed s l r.holder) l).chans
      mem := mwrite 64 s.mem (64 * l.pg) r.data, memErr := tdel s.memErr l.pg } := by
  obtain ⟨e, x, y, hnoted⟩ := sample_touchAll_shape (putGranule (entryClaimed s l r.holder) l r.data 0) r.addr 64 n 6 1
  refine ⟨e, x, y, hnoted.trans ?_⟩
  rw [putGranule_eq, if_pos rfl]
  simp only [entryClaimed, modChan, setChan]

/-- An accepted write changes the stores of the stacks and its channel; beside them, counts and what copies and update
engines note of other writers. -/
theorem writeAccepted_shape (s : State) (n : Nat) (l : Loc) (r : MemReq) : ∃ e x y c,
    writeAccepted s n l r = { s with
      regs := e, copies := x, upes := y, chans := c
      mem := mwrite 64 s.mem (64 * l.pg) r.data, memErr := tdel s.memErr l.pg } := by
  obtain ⟨e, x, y, hstored⟩ := writeStored_shape s n l r
  simp only [writeAccepted, enqueue, modChan, setChan, hstored]
  exact ⟨e, x, y, _, rfl⟩

@[simp] theorem pod_writeAccepted (s : State) (n : Nat) (l : Loc) (r : MemReq) (g : Nat) :
    pod (writeAccepted s n l r) g = pod s g := by
  obtain ⟨e, x, y, c, hshape⟩ := writeAccepted_shape s n l r
  rw [hshape]
  rfl

@[simp] theorem running_writeAccepted (s : State) (n : Nat) (l : Loc) (r : MemReq) (m : Nat) :
    running (writeAccepted s n l r) m = running s m := by
  obtain ⟨e, x, y, c, hshape⟩ := writeAccepted_shape s n l r
  rw [hshape]
  rfl

theorem writeAccepted_frame (s : State) (n : Nat) (l : Loc) (r : MemReq) :
    (writeAccepted s n l r).gens = s.gens ∧ (writeAccepted s n l r).parts = s.parts ∧ (writeAccepted s n l r).ctrs = s.ctrs ∧
      (writeAccepted s n l r).out = s.out ∧ (writeAccepted s n l r).pending = s.pending := by
  obtain ⟨e, x, y, c, hshape⟩ := writeAccepted_shape s n l r
  rw [hshape]
  exact ⟨rfl, rfl, rfl, rfl, rfl⟩

theorem readByte_writeAccepted (s : State) (n : Nat) (l : Loc) (r : MemReq) (b : Nat) :
    readByte (writeAccepted s n l r).mem b =
      if 64 * l.pg ≤ b ∧ b < 64 * l.pg + 64 then BitVec.ofNat 8 (r.data / 256 ^ (b - 64 * l.pg)) else readByte s.mem b := by
  obtain ⟨e, x, y, c, hshape⟩ := writeAccepted_shape s n l r
  rw [hshape]
  simp only [readByte_mwrite]

theorem granuleOvl_writeAccepted (s : State) (n : Nat) (l : Loc) (r : MemReq) (pg : Nat) :
    granuleOvl (writeAccepted s n l r) pg = if pg = l.pg then 0 else granuleOvl s pg := by
  obtain ⟨e, x, y, c, hshape⟩ := writeAccepted_shape s n l r
  rw [hshape]
  dsimp only [granuleOvl]
  split
  · next heq => rw [heq, tget_tdel_same]
  · next hne => rw [tget_tdel_ne _ _ _ _ hne]

/-- The channel of an accepted write has one buffer entry more in use and one request more. -/
theorem chan_writeAccepted (s : State) (n : Nat) (l : Loc) (r : MemReq) : ∃ m f,
    chan (writeAccepted s n l r) l.st l.c = { chan s l.st l.c with
      buf := tmod 0 (chan s l.st l.c).buf r.holder (· + 1)
      queues := tmod [] (chan s l.st l.c).queues n (placeReq · r)
      migr := m, fix := f } := by
  obtain ⟨e, x, y, hstored⟩ := writeStored_shape s n l r
  obtain ⟨m, f, hmarks⟩ := chan_noteGranule (entryClaimed s l r.holder) l
  have hclaimed : chan (entryClaimed s l r.holder) l.st l.c =
      { chan s l.st l.c with buf := tmod 0 (chan s l.st l.c).buf r.holder (· + 1) } := chan_setChan_same _ _ _ _
  refine ⟨m, f, ?_⟩
  rw [writeAccepted, chan_enqueue, hstored]
  unfold chan at hmarks hclaimed ⊢
  dsimp only
  rw [hmarks, hclaimed]

/-- A WRITE whose granule passes its checks, of words without errors that meet no clash. -/
theorem memWriteStroke_accepts {g n t w a : Nat} {l : Loc} {s : State} {p' : Pod}
    (hready : Ready s g n t w 6 2 (resv 88 95 + resv 112 127)) (hgoes : GoesOn s g n t 6 t)
    (hcheck : memCheck (launched s g n t 6) n g w t true = .inr a) (hloc : locate (launched s g n t 6) a = some l)
    (herrs : (settleSpad (pod (launched s g n t 6) g) t).errs = [])
    (hlog : (settleSpad (pod (launched s g n t 6) g) t).ceLog = [])
    (hport : portAccess (settleSpad (pod (launched s g n t 6) g) t) t
      [(bits w 96 16, (pod s g).burin.idx), (bits w 96 16 + 1, (pod s g).burin.idx)] [] = (p', [])) :
    memWriteStroke s g = movedOn (writeAccepted (setPod (launched s g n t 6) g p') n l
      ⟨true, l.pg, a, (gen (launched s g n t 6) n).part, t, g, 0,
        mread (settleSpad (pod (launched s g n t 6) g) t).spad (32 * bits w 96 16) 64, 0⟩) g t t := by
  obtain ⟨x, hp'⟩ := portAccess_shape hport
  have hlog' : (pod (setPod (launched s g n t 6) g p') g).ceLog = [] := by rw [pod_setPod_same, hp']; exact hlog
  have hgood : [bits w 96 16, bits w 96 16 + 1].any (wordBad p') = false :=
    List.any_eq_false.mpr fun k _ => by rw [wordBad_of_nil k (by rw [hp']; exact herrs)]; exact Bool.false_ne_true
  refine launch_moves hready hgoes rfl ?_ ?_ ?_
  · simp only [hcheck, hloc, noteWords_of_nil _ herrs, hport, flushCe_of_nil _ hlog', hgood, spadRead_of_nil _ _ herrs,
      List.isEmpty_nil, Bool.not_true, Bool.false_eq_true, if_false]
    rfl
  · rw [running_writeAccepted, running_setPod]
  · rw [pod_writeAccepted, pod_setPod_same, burin_portAccess hport]

end Sys2Proof.Machine
end

section
/-! SUPPORT. The slots of a channel, the frame boundary and the temperature of a stack (R249–R254, R262–R266). -/

namespace Sys2Proof.Machine

open Sys2Proof

/-! ### Rows and slots (R250, R254, R262, R264) -/

section
variable {s : State} {st c : Nat}

/-- An access to the row that is open leaves the bank as it is. -/
theorem touchRow_open {bank row t0 : Nat} (h : tfind (chan s st c).rows bank = some (row, t0)) :
    touchRow s st c bank row = s := by
  simp [touchRow, h]

/-- The row that is open can be accessed at once. -/
theorem rowReady_open {x : Chan} {bank row t0 : Nat} (h : tfind x.rows bank = some (row, t0)) : rowReady x bank row = true := by
  simp [rowReady, h]

/-- A channel whose die is up counts each slot that it has worked through. -/
theorem channelSlot_up (hup : dieUp s (st / 8) = true) : channelSlot s st c =
    modChan (slotWork s st c ((chan s st c).slot % 256)) st c (fun x => { x with slot := x.slot + 1 }) := by
  simp [channelSlot, hup]

/-- The fixed refresh slots. -/
theorem slotWork_refresh {n : Nat} (h : n = 127 ∨ n = 255) : slotWork s st c n = spareSlot s st c := if_pos h

theorem spareSlot_refreshes (h : 0 < refreshDebt s st c) : spareSlot s st c = refreshSlot s st c := if_pos h

/-- A slot that neither refresh nor the scrubber nor a migration needs. -/
theorem spareSlot_idle (hdebt : refreshDebt s st c = 0) (hmigr : (chan s st c).migr = [])
    (hscrub : (chan s st c).scrubDue = false) : spareSlot s st c = s := by
  simp [spareSlot, migrateSlot, hdebt, hmigr, hscrub]

/-- An assignable HATCH slot that neither KEEP_ONLY nor the refresh debt takes from its owner. -/
theorem slotWork_hatch {n : Nat} (hfixed : n ≠ 127 ∧ n ≠ 255 ∧ n ≠ 63 ∧ n ≠ 191)
    (hlevel : (stk s st).level < 3 ∨ bit (frameEntry s st n) 3 = true)
    (hdebt : refreshDebt s st c ≤ 8 ∨ bit (frameEntry s st n) 3 = true) (hkind : bits (frameEntry s st n) 0 3 = 1) :
    slotWork s st c n = serveHead s st c (16 * bits (frameEntry s st n) 9 1 + bits (frameEntry s st n) 4 5) := by
  obtain ⟨h127, h255, h63, h191⟩ := hfixed
  have hkept : (decide (3 ≤ (stk s st).level) && !bit (frameEntry s st n) 3) = false := by
    rcases hlevel with hlow | hkeep
    · simp [hlow]
    · simp [hkeep]
  have hpaid : (decide (8 < refreshDebt s st c) && !bit (frameEntry s st n) 3) = false := by
    rcases hdebt with hlow | hkeep
    · simp [hlow]
    · simp [hkeep]
  simp [slotWork, h127, h255, h63, h191, hkept, hpaid, hkind]

/-- A queue's only request, to a row that is open, is served. -/
theorem serveHead_single {o t0 : Nat} {r : MemReq} (hqueue : tget [] (chan s st c).queues o = [r])
    (hopen : tfind (chan s st c).rows (locOf r.pg).bank = some ((locOf r.pg).row, t0)) : serveHead s st c o =
      if r.wr then serveWrite (modChan s st c (fun x => { x with queues := tdel x.queues o })) st c r
      else serveRead (modChan s st c (fun x => { x with queues := tdel x.queues o })) st r := by
  simp [serveHead, hqueue, rowReady_open hopen, touchRow_open hopen]

end

/-! ### The frame boundary (R249, R253, R262, R263) -/

/-- The next frame is in force, and the refreshes of a frame fall due. -/
def frameBegun (s : State) (st : Nat) : State :=
  setStk s st { stk s st with
    frame := (stk s st).next
    frames := (stk s st).frames + 1
    owed := (stk s st).owed + 8208 * refreshMult (stk s st).level }

theorem frameBoundary_up {s : State} {st : Nat} (hup : dieUp s (st / 8) = true) : frameBoundary s st =
    if ((stk s st).frames + 1) % 15625 = 0 then
      { frameBegun s st with chans := (frameBegun s st).chans.map (fun e =>
          if e.1 / 256 == st then (e.1, { e.2 with opens := [] }) else e) }
    else frameBegun s st := by
  simp [frameBoundary, frameBegun, hup]

/-! ### Temperature samples (R265, R266) -/

/-- A level that stays enters none of the levels above it. -/
theorem levelEvents_same (l : Nat) : (List.range 3).foldl (fun v k => if l ≤ k ∧ k < l then v + 2 ^ k else v) 0 = 0 := by
  have hnone (v k : Nat) : (if l ≤ k ∧ k < l then v + 2 ^ k else v) = v := if_neg (by omega)
  simp [hnone]

/-- A reading that leaves the stack at its level: its temperature and the hottest one so far, the hatches' ratios, and the
query lane where its estimate no longer covers the floor. -/
theorem stackSample_sameLevel {s : State} {st v : Nat} (hup : dieUp s (st / 8) = true)
    (hlevel : stackLevel (stk s st).level v = (stk s st).level) :
    let u := setBits (setStk s st { stk s st with temp := v }) (mchReg st 8) 0
    let w := aimAll (wr u (mchReg st 4) (v + fld 12 12 (max v (bits (rd u (mchReg st 4)) 12 12))))
    stackSample s st v =
      if (laneHatches w).any (fun n => decide (w.lane.est < stackFloorOf w n)) then touchLane w else w := by
  have hnew : ¬((stk s st).level < 3 ∧ 3 ≤ (stk s st).level) := by omega
  simp only [stackSample, hup, hlevel, levelEvents_same, if_neg hnew, Bool.not_true, Bool.false_eq_true, if_false]

end Sys2Proof.Machine
end

section
/-! SUPPORT. The scrubber, migrations that commit, region entries, the bucket and MCH_PIN_FAIL (R245, R283, R285, R288, R291,
R294). -/

namespace Sys2Proof.Machine

open Sys2Proof

/-! ### The scrubber (R283, R285) -/

theorem eccDecode_hull_zero : eccDecode hullF 0 = .clean := by decide

/-- A clean read is not reported. -/
@[simp] theorem noteRead_zero (s : State) (l : Loc) (reader p : Nat) : noteRead s l reader p 0 = s := by
  simp [noteRead, eccDecode_hull_zero]

section
variable {s : State} {l : Loc}

theorem scrubGranule_clean (h : granuleOvl s l.pg = 0) : scrubGranule s l = touchRow s l.st l.c l.bank l.row := by
  simp [scrubGranule, h, eccDecode_hull_zero]

/-- A corrected granule is reported, and waits for its write-back. -/
theorem scrubGranule_corrected {y : List (Nat × Nat)} (h : eccDecode hullF (granuleOvl s l.pg) = .corrected y) :
    scrubGranule s l = modChan (noteRead (touchRow s l.st l.c l.bank l.row) l 6 0xFF (granuleOvl s l.pg)) l.st l.c
      (fun x => { x with fix := some (l.pg, y, false) }) := by
  simp only [scrubGranule, h]

end

/-- A scrub read that is due, of a granule that is not the last of its row, by a channel that neither the refresh debt nor a
write-back keeps from it: it passes over a granule for which a write waits, and stands at the next one. -/
theorem scrubRead_goes {s : State} {st c bank row g : Nat} (hup : dieUp s (st / 8) = true)
    (hon : bits (rd s (mchReg st 0x200C)) 0 16 ≠ 0) (hfix : (chan s st c).fix = none) (hdebt : refreshDebt s st c = 0)
    (hc : c ≠ 0) (hat : (chan s st c).scrub = (bank, row, g)) (hg : g < 15) : scrubRead s st c =
      modChan (if writePending (chan s st c) (Loc.pg ⟨st, c, bank, row, g⟩) then s else scrubGranule s ⟨st, c, bank, row, g⟩)
        st c (fun x => { x with scrub := (bank, row, g + 1) }) := by
  have hgo : scrubRead s st c = scrubGo s st c := by simp [scrubRead, hup, hon, hfix, hdebt]
  have hnext (u : State) : scrubNext u st c (bank, row, g) = ((bank, row, g + 1), false) := if_pos hg
  rw [hgo]
  simp only [scrubGo, hat, hnext, if_neg hc, Bool.false_eq_true, if_false]

section
variable {s : State} {st c pg : Nat} {y : List (Nat × Nat)}

/-- The write-back of a corrected granule. -/
theorem scrubWriteback_writes (hup : dieUp s (st / 8) = true) (hfix : (chan s st c).fix = some (pg, y, false)) :
    scrubWriteback s st c =
      modChan (putGranule (touchRow s st c (locOf pg).bank (locOf pg).row) (locOf pg) (granuleData s pg) 0) st c
        (fun x => { x with fix := some (pg, y, true) }) := by
  simp [scrubWriteback, hup, hfix]

/-- The re-read of a granule that was written back and now reads clean. -/
theorem scrubWriteback_rereads (hup : dieUp s (st / 8) = true) (hfix : (chan s st c).fix = some (pg, y, true))
    (hclean : granuleOvl s pg = 0) : scrubWriteback s st c =
      modChan (touchRow s st c (locOf pg).bank (locOf pg).row) st c (fun x => { x with fix := none }) := by
  simp [scrubWriteback, hup, hfix, hclean, eccDecode_hull_zero]

end

/-! ### Migrations (R290, R291) -/

/-- A remap entry in force after a row's first move. -/
def remapped (m : Migration) : Nat := 1 + fld 1 2 1 + fld 4 4 m.bank + fld 8 13 m.row + fld 21 4 m.spare

/-- A channel's only migration, of a row's first move, once its granules are copied. -/
theorem migrationCommit_first {s : State} {st c : Nat} {m : Migration} (hmigr : (chan s st c).migr = [m])
    (hcopied : m.left = []) (hfirst : m.second = false) : migrationCommit s st c =
      { wr (modChan s st c (fun x => { x with migr := [] })) (remapReg st c m.entry) (remapped m) with
        journal := tset s.journal (remapReg st c m.entry) (remapped m) } := by
  have hword : 1 + fld 4 4 m.bank + fld 8 13 m.row + fld 21 4 m.spare + fld 1 2 1 = remapped m := by
    unfold remapped
    omega
  simp [migrationCommit, hmigr, hcopied, hfirst, hword, modChan]

/-! ### Registers with commands of their own (R245, R288, R294) -/

/-- A write of locked fields by a requester with rights, while the lock is open, takes its effect (R9). -/
theorem gateLocked_go {s : State} {r : Requester} {a : Nat} (act : State → State) (h : canWrite s r a)
    (hopen : lockOpen s r a = true) : gateLocked s r a act = act s :=
  (gate_go _ h.1 h.2).trans (if_pos hopen)

theorem exec_regionEntryCommit {r : Requester} {d : Fin 2} {k : Fin 512} {v : BitVec 64} {s : State}
    (h : canWrite s r (mchReg (8 * d) (0x8000 + 32 * k))) (hopen : lockOpen s r (mchReg (8 * d) (0x8000 + 32 * k)) = true) :
    exec (.regionEntryCommit r d k v) s = .next (regionCommit s k v.toNat) :=
  congrArg Host.Outcome.next (gateLocked_go _ h hopen)

/-- A read of MCH_PIN_FAIL while no pin is listed. -/
theorem pinFailRead_empty {s : State} {st : Nat} (hreach : reachable s (mchReg st 0x2050) = true)
    (hpins : (stk s st).pinFail = []) : pinFailRead s st = emit s (.value (mchReg st 0x2050) 0) := by
  simp [pinFailRead, hreach, hpins]

/-- A read of MCH_PIN_FAIL takes the oldest pin from the list. -/
theorem pinFailRead_oldest {s : State} {st c p : Nat} {q : List (Nat × Nat)} (hreach : reachable s (mchReg st 0x2050) = true)
    (hpins : (stk s st).pinFail = (c, p) :: q) : pinFailRead s st =
      emit (modStk s st (fun x => { x with pinFail := q })) (.value (mchReg st 0x2050) (2 ^ 31 + c + fld 8 5 p)) := by
  simp [pinFailRead, hreach, hpins]

end Sys2Proof.Machine
end

section
/-! The statements about the memory stacks and their integrity (10_memory_stacks.md, 11_memory_integrity.md). -/

open Sys2Proof Sys2Proof.Machine

/-- Settles O31: the launch of each stroke by its rule, and what an accepted write leaves of the state and of its
channel. What a READ carries is what its granule holds at the launch (assumption 28). -/
theorem memoryStrokesReachTheStacks : Obligations.MemoryStrokesReachTheStacks := by
  intro g n t w a l s
  refine ⟨fun hready hgoes hgap hfree hdone hcheck hloc =>
    congrArg Host.Outcome.next (memRead'_queues hready hgoes hgap hfree hdone hcheck hloc), ?_⟩
  intro p' hready hgoes hcheck hloc herrs hlog hport
  refine ⟨_, congrArg Host.Outcome.next (memWriteStroke_accepts hready hgoes hcheck hloc herrs hlog hport), ?_⟩
  have hburin := burin_portAccess hport
  generalize mread (settleSpad (pod (launched s g n t 6) g) t).spad (32 * bits w 96 16) 64 = v
  generalize launched s g n t 6 = L at hburin ⊢
  obtain ⟨hgens, hparts, hctrs, hout, hpending⟩ := writeAccepted_frame (setPod L g p') n l
    ⟨true, l.pg, a, (gen L n).part, t, g, 0, v, 0⟩
  obtain ⟨m, f, hchan⟩ := chan_writeAccepted (setPod L g p') n l ⟨true, l.pg, a, (gen L n).part, t, g, 0, v, 0⟩
  simp only [movedOn, modPod, setPod_frame, granuleOvl_setPod, pod_setPod_same, pod_writeAccepted, hchan, tget_tmod_same]
  refine ⟨by rw [hburin], trivial, ⟨fun k hk => ?_, ?_, trivial⟩, fun b hb => ?_, fun pg hpg => ?_, trivial, fun k hk => ?_,
    hgens, hparts, hctrs, hout, hpending⟩
  · rw [readByte_writeAccepted, if_pos (by omega), Nat.add_sub_cancel_left]
  · rw [granuleOvl_writeAccepted, if_pos rfl]
  · rw [readByte_writeAccepted, if_neg (by omega)]
    rfl
  · rw [granuleOvl_writeAccepted, if_neg hpg, granuleOvl_setPod]
  · rw [pod_setPod_ne _ _ _ _ hk, pod_writeAccepted, pod_setPod_ne _ _ _ _ hk]

/-- Settles O51: what each kind of slot does, then the frame boundary and the reading by their rules. The window
of row openings and the debt are those of assumption 51. -/
theorem slotsServeTheChannels : Obligations.SlotsServeTheChannels := by
  refine ⟨fun st c s => ?_, fun st s hup => ?_, fun st v s hup hlevel => ?_⟩
  · intro n exec' onward owner hup
    have hslot {u : State} (hwork : slotWork s st c n = u) : exec' = .next (onward u) :=
      congrArg Host.Outcome.next ((channelSlot_up hup).trans (congrArg onward hwork))
    refine ⟨fun hn hdebt => hslot ?_, fun hn hdebt hmigr hscrub => hslot ?_, ?_⟩
    · rw [slotWork_refresh hn, spareSlot_refreshes hdebt]
    · rw [slotWork_refresh hn, spareSlot_idle hdebt hmigr hscrub]
    · intro r t0 h127 h255 h63 h191 hlevel hdebt hkind hqueue hopen
      refine hslot ?_
      rw [slotWork_hatch ⟨h127, h255, h63, h191⟩ hlevel hdebt hkind, serveHead_single hqueue hopen]
  · exact ⟨fun hgo => congrArg Host.Outcome.next ((frameBoundary_up hup).trans (if_neg hgo)),
      fun hends => congrArg Host.Outcome.next ((frameBoundary_up hup).trans (if_pos hends))⟩
  · exact congrArg Host.Outcome.next (stackSample_sameLevel hup hlevel)

/-- Settles O52: the scrub read by what it meets, then the write-back, the commits, the bucket and MCH_PIN_FAIL by their
rules. When a scrub read is made, and when words 1 to 3 take force, are assumptions 52 and 113. -/
theorem scrubbingAndTables : Obligations.ScrubbingAndTables := by
  refine ⟨?_, fun st c pg y s hup => ?_, fun st c m s hmigr hcopied hfirst => ?_, fun r d k v s hwrite hopen => ?_,
    fun st s hup => ?_, fun st s hreach => ?_⟩
  · intro st c bank row g s l onward hup hon hfix hdebt hc hat hg
    have hread {u : State} (hu : (if writePending (chan s st c) l.pg then s else scrubGranule s l) = u) :
        exec (.scrubReadDue st c) s = .next (onward u) :=
      congrArg Host.Outcome.next ((scrubRead_goes hup hon hfix hdebt hc hat hg).trans (congrArg onward hu))
    refine ⟨fun hpending => hread (if_pos hpending), fun hfree hclean => hread ?_, fun y hfree hfixed => hread ?_⟩
    · rw [hfree, scrubGranule_clean hclean]
      rfl
    · rw [hfree, scrubGranule_corrected hfixed]
      rfl
  · exact ⟨fun hfix => congrArg Host.Outcome.next (scrubWriteback_writes hup hfix),
      fun hfix hclean => congrArg Host.Outcome.next (scrubWriteback_rereads hup hfix hclean)⟩
  · exact congrArg Host.Outcome.next (migrationCommit_first hmigr hcopied hfirst)
  · exact exec_regionEntryCommit hwrite hopen
  · exact congrArg Host.Outcome.next (if_pos hup)
  · exact ⟨fun hpins => congrArg Host.Outcome.next (pinFailRead_empty hreach hpins),
      fun c p q hpins => congrArg Host.Outcome.next (pinFailRead_oldest hreach hpins)⟩

end

section
/-! SUPPORT. Service writes of whole granules: the registers that the address map reads, the row and the count of an access,
and the granule that a core stores; arming an error injection (R243–R246, R254, R255, R272, R279, R280, R290, R293). -/

namespace Sys2Proof.Machine

open Sys2Proof

/-! ### The registers of the address map (R243–R246, R290) -/

/-- A register's offset in its 64 KiB block lies among those of a stack's remap entries and region table (R294, R295). -/
def MapOffset (a : Nat) : Prop := 0x4000 ≤ a % 0x10000 ∧ a % 0x10000 < 0xC000

theorem mchReg_offset {st o : Nat} (ho : o < 0x10000) : mchReg st o % 0x10000 = o := by
  unfold mchReg dieBase
  omega

theorem mapOffset_remapReg (st : Nat) {c n : Nat} (hc : c < 256) (hn : n < 8) : MapOffset (remapReg st c n) := by
  unfold MapOffset remapReg
  rw [mchReg_offset (by omega)]
  omega

theorem mapOffset_regionAddr {r w : Nat} (hr : r < 512) (hw : w < 4) : MapOffset (regionAddr r w) := by
  unfold MapOffset regionAddr
  rw [mchReg_offset (by omega)]
  omega

/-- Saturation is recorded at the first offset of its 64 KiB block, where no stack has a register of the address map. -/
theorem satReg_offset (a : Nat) : satReg a % 0x10000 = 0 := by
  unfold satReg cntReg bbxReg dieBase modBase
  split_ifs <;> rfl

section
variable {s t : State}

/-- Remap entries alone choose the row in use. -/
theorem rowInUse_congr {st c : Nat} (hregs : ∀ a, MapOffset a → rd t a = rd s a) (hc : c < 256) (bank row : Nat) :
    rowInUse t st c bank row = rowInUse s st c bank row := by
  have hentry (n : Nat) (hn : n ∈ List.range 8) : rd t (remapReg st c n) = rd s (remapReg st c n) :=
    hregs _ (mapOffset_remapReg st hc (List.mem_range.mp hn))
  unfold rowInUse
  rw [List.find?_congr fun n hn => by rw [hentry n hn]]
  split
  · next n hfound => rw [hentry n (List.mem_of_find?_eq_some hfound)]
  · rfl

/-- Where an address lies depends, of the registers, on the region table and the remap entries alone. -/
theorem locate_of_map (hregs : ∀ a, MapOffset a → rd t a = rd s a) (hslabs : t.slabs = s.slabs) (a : Nat) :
    locate t a = locate s a := by
  have hrow (st bank row : Nat) :
      rowInUse t st (bits (a % 2 ^ 30) 6 8) bank row = rowInUse s st (bits (a % 2 ^ 30) 6 8) bank row :=
    rowInUse_congr hregs (bits_lt _ 6 8) bank row
  unfold locate
  split
  · rfl
  · next hin =>
    have hword : regionWord t (a / 2 ^ 30) 0 = regionWord s (a / 2 ^ 30) 0 :=
      hregs _ (mapOffset_regionAddr (by omega) (by decide))
    simp only [hword, hrow, slabOf, hslabs]

end

theorem locate_of_locateFrom {s : State} {d a : Nat} {l : Loc} (h : locateFrom s d a = some l) : locate s a = some l := by
  have hup := (Option.filter_eq_some_iff.mp h).1
  unfold locateUp at hup
  split at hup
  · next hat =>
    split at hup
    · rw [hat, hup]
    · cases hup
  · cases hup

/-! ### The access of a slot (R254, R263, R271) -/

theorem touchRow_shape (s : State) (st c bank row : Nat) : ∃ x, touchRow s st c bank row = { s with chans := x } := by
  unfold touchRow
  split
  · split
    · exact ⟨s.chans, rfl⟩
    · exact ⟨_, rfl⟩
  · exact ⟨_, rfl⟩

/-- A count does not depend on the channels. -/
theorem regs_bump_chans (s : State) (x : Tbl Chan) (a n : Nat) :
    (bump { s with chans := x } a n).regs = (bump s a n).regs := by
  simp only [bump, apply_ite State.regs]
  rfl

/-- A write's access opens its row and is counted. -/
theorem accessed_write_shape (s : State) (l : Loc) : ∃ x, accessed s l true =
    { s with chans := x, regs := (bump s (mchReg l.st 0x28) 1).regs } := by
  obtain ⟨x, htouch⟩ := touchRow_shape s l.st l.c l.bank l.row
  refine ⟨x, ?_⟩
  rw [accessed, htouch, if_pos rfl, bump_regs, regs_bump_chans]

/-! ### The service write of a whole granule (R255, R272, R279, R280, R293) -/

/-- A whole granule is stored through a service slot, freshly encoded. -/
def granuleWritten (s : State) (l : Loc) (v : Nat) : State := putGranule (accessed s l true) l v 0

/-- Beside the stores of the stacks and the channel's marks, only the count of writes changes. -/
theorem granuleWritten_shape (s : State) (l : Loc) (v : Nat) : ∃ x, granuleWritten s l v = { s with
    chans := x, regs := (bump s (mchReg l.st 0x28) 1).regs
    mem := mwrite 64 s.mem (64 * l.pg) v, memErr := tdel s.memErr l.pg } := by
  obtain ⟨x, hshape⟩ := accessed_write_shape s l
  refine ⟨(noteGranule (accessed s l true) l).chans, ?_⟩
  rw [granuleWritten, putGranule_eq, if_pos rfl, hshape]

/-- Copies that run and update engines at work note the write of others; nothing else follows from it. -/
theorem touchAll_granuleWritten_shape (s : State) (l : Loc) (v a n : Nat) : ∃ x y z, touchAll (granuleWritten s l v) a n =
    { s with
      chans := x, copies := y, upes := z, regs := (bump s (mchReg l.st 0x28) 1).regs
      mem := mwrite 64 s.mem (64 * l.pg) v, memErr := tdel s.memErr l.pg } := by
  obtain ⟨x, hwritten⟩ := granuleWritten_shape s l v
  obtain ⟨y, z, htouched⟩ := touchAll_shape (granuleWritten s l v) a n
  refine ⟨x, y, z, ?_⟩
  rw [htouched, hwritten]

/-- Of the registers, the write is seen in the count of writes alone, and in the record of its saturation. -/
theorem rd_granuleWritten (s : State) (l : Loc) (v a : Nat) :
    rd (granuleWritten s l v) a = rd (bump s (mchReg l.st 0x28) 1) a := by
  obtain ⟨x, hshape⟩ := granuleWritten_shape s l v
  rw [hshape]
  rfl

/-- A register whose offset is neither that of the count nor 0 keeps its value. -/
theorem rd_granuleWritten_offset (s : State) (l : Loc) (v : Nat) {a : Nat} (hcount : a % 0x10000 ≠ 0x28)
    (hsat : a % 0x10000 ≠ 0) : rd (granuleWritten s l v) a = rd s a := by
  rw [rd_granuleWritten]
  exact rd_bump_ne _ _ _ _ (fun heq => hcount (heq ▸ mchReg_offset (by decide))) (fun heq => hsat (heq ▸ satReg_offset _))

theorem locate_granuleWritten (s : State) (l : Loc) (v a : Nat) : locate (granuleWritten s l v) a = locate s a := by
  refine locate_of_map (fun b hb => ?_) ?_ a
  · obtain ⟨hlow, -⟩ := hb
    exact rd_granuleWritten_offset s l v (by omega) (by omega)
  · obtain ⟨x, hshape⟩ := granuleWritten_shape s l v
    rw [hshape]

/-- A write for which no fault is armed keeps the word it stored. -/
theorem takeFlip_noFlip {s : State} {l : Loc} (h : noFlip s l) : takeFlip s l = s := by
  unfold noFlip at h
  unfold takeFlip flipService
  simp [h]

theorem noFlip_granuleWritten {s : State} {l : Loc} (v : Nat) (h : noFlip s l) : noFlip (granuleWritten s l v) l := by
  have hkept : rd (granuleWritten s l v) (mchReg l.st 0x2018) = rd s (mchReg l.st 0x2018) := by
    have hoff : mchReg l.st 0x2018 % 0x10000 = 0x2018 := mchReg_offset (by decide)
    exact rd_granuleWritten_offset s l v (by omega) (by omega)
  unfold noFlip at h ⊢
  rw [hkept]
  exact h

/-- A service write of one whole granule that lies at `l`, with no fault armed for it. -/
theorem svcWrite_granule {s : State} {a : Nat} {l : Loc} (v part : Nat) (hmod : a % 64 = 0) (hloc : locate s a = some l)
    (hflip : noFlip s l) : svcWrite s a 64 v part = touchAll (granuleWritten s l v) a 64 := by
  have hwrite : memWriteIn s a 64 v part = granuleWritten s l v := by simp [memWriteIn, hloc, granuleWritten]
  have hagain : locate (granuleWritten s l v) a = some l := by rw [locate_granuleWritten, hloc]
  simp [svcWrite, svcWriteGo, hmod, hwrite, hagain, takeFlip_noFlip (noFlip_granuleWritten v hflip)]

/-! ### A core's write of a whole granule (R25, R28, R280) -/

/-- Nothing of a whole granule is narrower than the granule. -/
theorem narrowBad_granule (s : State) {a : Nat} (hmod : a % 64 = 0) : narrowBad s a 64 = false := by
  have hstart : a / 64 * 64 = a := by omega
  simp [narrowBad, hmod, hstart, ceilDiv']

theorem memSpanOk_granule {s : State} {r : Requester} {a : Nat} {l : Loc} (hmod : a % 64 = 0) (hin : a + 64 ≤ 2 ^ 39)
    (hloc : locateFrom s (entryDie r) a = some l) : memSpanOk s r a 64 = true := by
  have hstart : a / 64 * 64 = a := by omega
  simp only [memSpanOk, memOkFrom, hmod, hstart, ceilDiv', decide_eq_true hin]
  simp [hloc]

/-- A write to memory that is neither the outbound window nor a doorbell. -/
theorem coreWrite_memory {s : State} {r : Requester} {a : Nat} (data : List Byte) (h : a < modBase) :
    coreWrite s r a data = memStore s r a data := by
  simp [coreWrite, isPcie_of_lt h, doorbell_eq_none (.inl (isDevice_of_lt h))]

theorem memStore_granule {s : State} {r : Requester} {a : Nat} {l : Loc} {data : List Byte} (hlen : data.length = 64)
    (hmod : a % 64 = 0) (hin : a + 64 ≤ 2 ^ 39) (hloc : locateFrom s (entryDie r) a = some l) (hflip : noFlip s l) :
    memStore s r a data = (touchAll (granuleWritten s l (ofLE data)) a 64, true) := by
  simp [memStore, hlen, memSpanOk_granule hmod hin hloc, narrowBad_granule s hmod,
    svcWrite_granule (ofLE data) 0xFF hmod (locate_of_locateFrom hloc) hflip]

theorem exec_coreMemoryWrite_granule {r : Requester} {addr : BitVec 48} {data : List Byte} {s : State} {l : Loc}
    (hlen : data.length = 64) (hmod : addr.toNat % 64 = 0) (hin : addr.toNat + 64 ≤ 2 ^ 39)
    (hloc : locateFrom s (entryDie r) addr.toNat = some l) (hflip : noFlip s l) :
    exec (.coreMemoryWrite r addr data) s = .next (touchAll (granuleWritten s l (ofLE data)) addr.toNat 64) := by
  have hstore : coreWrite s r addr.toNat data = (touchAll (granuleWritten s l (ofLE data)) addr.toNat 64, true) := by
    rw [coreWrite_memory data (by unfold modBase; omega), memStore_granule hlen hmod hin hloc hflip]
  change execCoreMemoryWrite r addr data s = _
  simp [execCoreMemoryWrite, hstore]

/-! ### Arming an error injection (R293, R447) -/

/-- The rights table of R447 names no register of a stack. -/
theorem mayWrite_mchReg {r : Requester} {st o : Nat} (hst : st < 16) (ho : o < 0x10000) : mayWrite r (mchReg st o) = true := by
  refine mayDie (d := st / 8) (by omega) ?_ ?_
  all_goals
    unfold mchReg dieBase
    omega

/-- What MCH_FLIP_CTRL stores, in terms of the value written: its reserved bits are none of the fields that decide. -/
theorem flipCtrl_eq (v : Nat) : flipCtrl v =
    if bits v 1 2 = 0 ∨ 35 < bits v 16 6 ∨ 35 < bits v 22 6 ∨ 35 < bits v 28 6
    then (v &&& 0xFFFF0003FFFFFF07) / 2 * 2 else v &&& 0xFFFF0003FFFFFF07 := by
  unfold flipCtrl
  dsimp only
  rw [bits_and _ _ 1 2 (by decide), bits_and _ _ 16 6 (by decide), bits_and _ _ 22 6 (by decide), bits_and _ _ 28 6 (by decide)]

/-- What POD_FLIP_CTRL stores, likewise. -/
theorem podFlipCtrl_eq (v : Nat) : podFlipCtrl v =
    if bits v 1 2 = 0 ∨ 35 < bits v 3 6 ∨ 35 < bits v 9 6 ∨ 35 < bits v 15 6
    then v % 2 ^ 29 / 2 * 2 else v % 2 ^ 29 := by
  unfold podFlipCtrl
  dsimp only
  rw [bits_mod _ _ 1 2 (by decide), bits_mod _ _ 3 6 (by decide), bits_mod _ _ 9 6 (by decide), bits_mod _ _ 15 6 (by decide)]

theorem exec_mchFlipCtrlWrite {r : Requester} {st : Fin 16} {s : State} (v : BitVec 64)
    (h : canReach s r (mchReg st 0x2018) = true) :
    exec (.mchFlipCtrlWrite r st v) s = .next (wr s (mchReg st 0x2018) (flipCtrl v.toNat)) :=
  congrArg Host.Outcome.next (gate_go _ h (mayWrite_mchReg st.isLt (by decide)))

theorem exec_podFlipCtrlWrite {r : Requester} {g : Fin 256} {s : State} (v : BitVec 32)
    (h : canReach s r (podReg g 0xA1C) = true) :
    exec (.podFlipCtrlWrite r g v) s = .next (wr s (podReg g 0xA1C) (podFlipCtrl v.toNat)) :=
  congrArg Host.Outcome.next (gate_go _ h (mayWrite_podReg g.isLt (by decide)))

end Sys2Proof.Machine
end

section
/-! The statements about writes of granules and error injection (11_memory_integrity.md). -/

open Sys2Proof Sys2Proof.Machine

/-- Settles O10: the write stores the granule through one service slot, and beside it changes the count of writes, the
channel's row and marks, and what copies and update engines note of other writers. -/
theorem coreMemoryWriteStoresTheGranule : Obligations.CoreMemoryWriteStoresTheGranule := by
  intro r addr data s l hlen hmod hin hloc hflip
  refine ⟨_, exec_coreMemoryWrite_granule hlen hmod hin hloc hflip, ?_⟩
  obtain ⟨x, y, z, hshape⟩ := touchAll_granuleWritten_shape s l (ofLE data) addr.toNat 64
  have hregs (a : Nat) : rd (touchAll (granuleWritten s l (ofLE data)) addr.toNat 64) a = rd (bump s (mchReg l.st 0x28) 1) a := by
    rw [hshape]
    rfl
  refine ⟨?_, ?_, ?_, ?_, ?_, ?_, ?_⟩
  · intro k hk
    rw [hshape, readByte_mwrite, if_pos (by omega), Nat.add_sub_cancel_left, ofLE_byte]
  · rw [hshape]
    exact tget_tdel_same _ _ _
  · intro a ha
    rw [hshape, readByte_mwrite, if_neg (by omega)]
  · intro pg hpg
    rw [hshape]
    exact tget_tdel_ne _ _ _ _ hpg
  · intro hlt
    rw [hregs, bump_eq _ _ _ hlt, rd_wr_same]
  · intro a hcount hsat
    rw [hregs, rd_bump_ne _ _ _ _ hcount hsat]
  · rw [hshape]
    exact ⟨rfl, rfl, rfl, rfl, rfl, rfl, rfl, rfl⟩

/-- Settles O14: each write passes its gate, and the fields that decide about ARM are none of the reserved bits. That an
unused symbol above 35 clears ARM too is assumption 101. -/
theorem flipControlsArm : Obligations.FlipControlsArm := by
  refine fun r s => ⟨fun st v hreach => ?_, fun g v hreach => ?_⟩
  · rw [exec_mchFlipCtrlWrite v hreach, flipCtrl_eq]
  · rw [exec_podFlipCtrlWrite v hreach, podFlipCtrl_eq]

end

section
/-! SUPPORT. Update engines: waits that release a list, the end of the gather sweep, the commit barrier, the apply sweep's last
write, and reads of UPE_REFUSAL (R10, R311–R315, R319, R328, R330). -/

namespace Sys2Proof.Machine

open Sys2Proof

/-- A list stands in a phase, nothing has stopped it, and its die runs. -/
structure StandsAt (s : State) (st p phase : Nat) : Prop where
  phase_eq : (upe s st p).phase = phase
  goes : (upe s st p).stopped = false
  up : dieUp s (st / 8) = true

section
variable {s : State} {st p : Nat}

/-! ### Waits (R311, R329, R330) -/

theorem upeRelease_success {phase k : Nat} {act : State → State} (h : StandsAt s st p phase)
    (hwait : upeWaitSt s (upeEntry (upe s st p) k) = 1) : upeRelease s st p phase k act = act s := by
  simp [upeRelease, h.phase_eq, h.goes, h.up, hwait]

theorem upeRelease_broken {phase k : Nat} {act : State → State} (h : StandsAt s st p phase)
    (hwait : upeWaitSt s (upeEntry (upe s st p) k) = 2) : upeRelease s st p phase k act = upeBroken s st p := by
  simp [upeRelease, h.phase_eq, h.goes, h.up, hwait]

/-! ### The gather sweep (R308, R311, R312) -/

/-- The first check alone fails where STATE reads well and shows DAMAGED: nothing else is read. -/
theorem gatherGo_damaged {d : Nat} (hstate : layTensor s p (upeLayer (upe s st p)) 0x16 = some d)
    (hgood : (upeReads s p (vecUnits d)).2 = false)
    (hkept : layTensor (upeReads s p (vecUnits d)).1 p (upeLayer (upe s st p)) 0x16 = some d)
    (hdamaged : bit (memRead (upeReads s p (vecUnits d)).1 (tdBase d) 64) 32 = true) :
    gatherGo s st p = ((upeReads s p (vecUnits d)).1, 1, 1) := by
  simp [gatherGo, hstate, hgood, hkept, tensorGranule, hdamaged]

/-- An unsharded layer goes from the sweep to the commit barrier, whatever the checks say. -/
theorem gatherComplete_unsharded {t : State} {code n : Nat} (h : StandsAt s st p 2) (hruns : keepPause s st p = false)
    (hgo : gatherGo s st p = (t, code, n)) (hwhole : layShards (upeLayer (upe s st p)) ≤ 1) :
    gatherComplete s st p = modUpe (upeWait (bump (modUpe t st p (fun x => { x with code := code })) (upeReg st 0x30) n)
      (upeEntry (upe s st p) 1) 1) st p (fun x => { x with phase := 4 }) := by
  simp [gatherComplete, h.phase_eq, h.goes, h.up, hruns, hgo, Nat.not_lt.2 hwhole]

/-! ### The commit barrier and the apply sweep (R311, R313–R315) -/

/-- An accepted layer's apply sweep begins with its record marked DAMAGED. -/
theorem commitRelease_accepted {d : Nat} (h : StandsAt s st p 4) (hwait : upeWaitSt s (upeEntry (upe s st p) 1) = 1)
    (hcode : (upe s st p).code = 0) (hstate : layTensor s p (upeLayer (upe s st p)) 0x16 = some d) :
    commitRelease s st p =
      modUpe (writeRecord s d (bits (memRead s (tdBase d) 64) 0 32) 1 (bits (memRead s (tdBase d) 64) 64 64)) st p
        (fun x => { x with phase := 5 }) := by
  rw [commitRelease, upeRelease_success h hwait]
  simp only [hcode, hstate, if_true]

/-- A refused layer is reported, counted and passed. -/
theorem commitRelease_refused (h : StandsAt s st p 4) (hwait : upeWaitSt s (upeEntry (upe s st p) 1) = 1)
    (hcode : (upe s st p).code ≠ 0) :
    commitRelease s st p = upeDone (bump (upeReport s st p (upe s st p).code) (upeReg st 0x20) 1) st p := by
  rw [commitRelease, upeRelease_success h hwait]
  exact if_neg hcode

/-- The sweep's end: APPLY_DAMAGE where a read failed, else the final record with the next count and the running step. -/
theorem applyComplete_ends {w g d : Nat} {t : State} {bad : Bool} (h : StandsAt s st p 5) (hruns : keepPause s st p = false)
    (hw : layTensor s p (upeLayer (upe s st p)) 8 = some w) (hg : layTensor s p (upeLayer (upe s st p)) 0xA = some g)
    (hstate : layTensor s p (upeLayer (upe s st p)) 0x16 = some d)
    (hsweep : applySweep s st p (procRows s p (upeLayer (upe s st p))).length w g d = (t, bad)) :
    applyComplete s st p = upeDone (if bad then upeReport t st p 0x10
      else bump (bump (writeRecord t d (nextCount (bits (memRead s (tdBase d) 64) 0 32)) 0 (part t p).step) (upeReg st 0x30) 1)
        (upeReg st 0x18) 1) st p := by
  cases bad <;> simp [applyComplete, h.phase_eq, h.goes, h.up, hruns, hw, hg, hstate, hsweep]

/-! ### UPE_REFUSAL (R10, R319) -/

theorem exec_upeRefusalRead_empty {st : Fin 16} {half : Half} (hreach : reachable s (upeReg st 0x10) = true)
    (hqueue : tget [] s.upeQ st = []) (hhalf : half ≠ .upper) :
    exec (.upeRefusalRead st half) s = .next (emit s (.value (upeReg st 0x10) 0)) := by
  change execUpeRefusalRead st half s = _
  simp [execUpeRefusalRead, hreach, hqueue, hhalf]

theorem exec_upeRefusalRead_holding {st : Fin 16} {v : Nat} {q : List Nat} (half : Half)
    (hreach : reachable s (upeReg st 0x10) = true) (hqueue : tget [] s.upeQ st = v :: q) :
    exec (.upeRefusalRead st half) s = .next (refusalRead s st half) := by
  change execUpeRefusalRead st half s = _
  simp [execUpeRefusalRead, hreach, hqueue]

/-- The oldest record leaves the queue, and its upper half is kept for a read of that half. -/
def refusalTaken (s : State) (st v : Nat) (q : List Nat) : State :=
  { s with shadow := tset s.shadow (upeReg st 0x10) (v / 2 ^ 32), upeQ := tset s.upeQ st q }

theorem refusalRead_whole {v : Nat} {q : List Nat} (hqueue : tget [] s.upeQ st = v :: q) :
    refusalRead s st .whole = emit (refusalTaken s st v q) (.value (upeReg st 0x10) v) := by
  simp [refusalRead, rcRead, hqueue, refusalTaken]

theorem refusalRead_lower {v : Nat} {q : List Nat} (hqueue : tget [] s.upeQ st = v :: q) :
    refusalRead s st .lower = emit (refusalTaken s st v q) (.value (upeReg st 0x10) (bits v 0 32)) := by
  simp [refusalRead, rcRead, hqueue, refusalTaken, bits]

/-- A read of the upper half gives what an earlier read has kept, and removes nothing. -/
theorem refusalRead_upper (s : State) (st : Nat) :
    refusalRead s st .upper = emit s (.value (upeReg st 0x10) (tget 0 s.shadow (upeReg st 0x10))) := rfl

end

end Sys2Proof.Machine
end

section
/-! The statement about the update engines (12_update_engine.md). -/

open Sys2Proof Sys2Proof.Machine

/-- Settles O53: each command of a list by the rule of its phase, then the read of a refusal record by halves. The sweeps act
whole at their completion commands (assumption 48), and what a failing read does to them is assumption 117. -/
theorem engineListsAdvance : Obligations.EngineListsAdvance := by
  refine ⟨fun st p s => ?_, fun st h s hreach => ⟨fun hqueue hhalf => ?_, fun v q hqueue => ?_⟩⟩
  · intro x l hgoes hup
    have hat {phase : Nat} (hphase : x.phase = phase) : StandsAt s st p phase := ⟨hphase, hgoes, hup⟩
    refine ⟨fun hphase hwait => congrArg Host.Outcome.next (upeRelease_success (hat hphase) hwait),
      fun hphase hwait => congrArg Host.Outcome.next (upeRelease_broken (hat hphase) hwait),
      fun t code n hphase hruns hgo hwhole => congrArg Host.Outcome.next (gatherComplete_unsharded (hat hphase) hruns hgo hwhole),
      fun d hphase hruns hstate hgood hkept hdamaged hwhole => congrArg Host.Outcome.next
        (gatherComplete_unsharded (hat hphase) hruns (gatherGo_damaged hstate hgood hkept hdamaged) hwhole),
      fun hphase hwait => congrArg Host.Outcome.next (upeRelease_success (hat hphase) hwait),
      fun d hphase hwait hcode hstate => congrArg Host.Outcome.next (commitRelease_accepted (hat hphase) hwait hcode hstate),
      fun hphase hwait hcode => congrArg Host.Outcome.next (commitRelease_refused (hat hphase) hwait hcode),
      fun w g d t bad hphase hruns hw hg hstate hsweep =>
        congrArg Host.Outcome.next (applyComplete_ends (hat hphase) hruns hw hg hstate hsweep)⟩
  · exact exec_upeRefusalRead_empty hreach hqueue hhalf
  · refine ⟨_, exec_upeRefusalRead_holding h hreach hqueue, ?_⟩
    cases h with
    | whole =>
      rw [refusalRead_whole hqueue]
      exact ⟨tget_tset_same _ _ _ _, fun k hk => tget_tset_ne _ _ _ _ _ hk, rfl⟩
    | lower =>
      rw [refusalRead_lower hqueue]
      exact ⟨tget_tset_same _ _ _ _, fun k hk => tget_tset_ne _ _ _ _ _ hk, rfl⟩
    | upper =>
      rw [refusalRead_upper]
      exact ⟨hqueue, fun _ _ => rfl, rfl⟩

end

section
/-! SUPPORT. Sync counters: what SIGNAL, REBASE and SYN_SIGNAL send to the counter units (R323–R327, R337). -/

namespace Sys2Proof.Machine

open Sys2Proof

theorem ctrActive_iff {c : Ctr} : ctrActive c = true ↔ c.st = 1 ∨ c.st = 3 := by simp [ctrActive]

theorem onlyChanges_queueChange (s : State) (d : Nat) (c : Change) : OnlyChanges s (queueChange s d c) :=
  OnlyChanges.queueChange ⟨_, _, rfl⟩ d c

/-- A stroke that only sends changes to the counter units moves its burin on. -/
theorem launch_queues {s u : State} {g n t w unit op res : Nat} {eff : State → Nat → Nat → Nat → Nat → State}
    (hready : Ready s g n t w unit op res) (hgoes : GoesOn s g n t unit t) (hdefined : strokeDefined unit op = true)
    (heff : eff (launched s g n t unit) n t w (pod s g).burin.idx = u) (hqueued : OnlyChanges (launched s g n t unit) u) :
    launch s g unit op res eff = movedOn u g t t := by
  obtain ⟨x, y, rfl⟩ := hqueued
  exact launch_moves hready hgoes hdefined heff rfl rfl

section
variable {g : Fin 256} {n t w : Nat} {s L : State} (hL : launched s g n t 8 = L) (hgoes : GoesOn s g n t 8 t)

section
variable (hready : Ready s g n t w 8 1 0) (hinc : bits w 64 32 ≠ 0) (hlow : bits w 45 19 = 0) (hhigh : bits w 96 32 = 0)
  (hblock : inBlock L (gen L n).part (bits w 32 13) = true)
include hL hgoes hready hinc hlow hhigh hblock

/-- A signal waits at the counter unit for the pod's earlier writes (R324). -/
theorem exec_signal_active (hactive : (ctr L (bits w 32 13)).st = 1 ∨ (ctr L (bits w 32 13)).st = 3) :
    exec (.signal g) s = .next (movedOn (queueChange L (bits w 32 13 / 4096)
      { op := 0, id := bits w 32 13, inc := bits w 64 32, cover := some (g, coverHc L n g t) }) g t t) := by
  subst hL
  have hfree : (ctr (launched s g n t 8) (bits w 32 13)).st ≠ 0 := by omega
  have hwhole : (ctr (launched s g n t 8) (bits w 32 13)).st ≠ 2 := by omega
  refine congrArg Host.Outcome.next (launch_queues hready hgoes rfl ?_ (onlyChanges_queueChange _ _ _))
  simp [hinc, hlow, hhigh, hblock, hfree, hwhole]

theorem exec_signal_broken (hbroken : (ctr L (bits w 32 13)).st = 2) :
    exec (.signal g) s = .next (movedOn (bump L (synReg (bits w 32 13 / 4096) 0x98) 1) g t t) := by
  subst hL
  refine congrArg Host.Outcome.next (launch_moves hready hgoes rfl ?_ (running_bump _ _ _ _) (by rw [pod_bump]))
  simp [hinc, hlow, hhigh, hblock, hbroken]

end

include hL hgoes in
/-- A rebase of a group that has a counter asks both dies' units. -/
theorem exec_rebase {id : Nat} (hready : Ready s g n t w 8 2 0) (hhigh : w >>> 36 = 0) (hid : id ∈ ctrsOf L (gen L n).part)
    (hgroup : (ctr L id).group = some (bits w 32 4)) :
    exec (.rebase g) s = .next (movedOn (queueChange (queueChange L 0 { op := 1, id := 16 * (gen L n).part + bits w 32 4 }) 1
      { op := 1, id := 16 * (gen L n).part + bits w 32 4 }) g t t) := by
  subst hL
  have hmember : (ctrsOf (launched s g n t 8) (gen (launched s g n t 8) n).part).any
      (fun id => (ctr (launched s g n t 8) id).group == some (bits w 32 4)) = true :=
    List.any_eq_true.mpr ⟨id, hid, beq_iff_eq.mpr hgroup⟩
  refine congrArg Host.Outcome.next (launch_queues hready hgoes rfl ?_ ((onlyChanges_queueChange _ _ _).queueChange _ _))
  simp [hhigh, hmember]

end

theorem exec_synSignal {r : Requester} {d : Fin 2} {s : State} (v : BitVec 64) (h : canWrite s r (synReg d 0x10)) :
    exec (.synSignal r d v) s = .next (synSignal s d v.toNat) := congrArg _ (gate_go _ h.1 h.2)

/-- An addition by the runtime is for an active counter with RUNTIME (R327). -/
theorem synSignal_eq (s : State) (d v : Nat) : synSignal s d v =
    if ((ctr s (bits v 0 13)).st = 1 ∨ (ctr s (bits v 0 13)).st = 3) ∧ (ctr s (bits v 0 13)).runtime = true then
      (if bits v 32 32 = 0 then s
       else queueChange s (bits v 0 13 / 4096) { op := 0, id := bits v 0 13, inc := bits v 32 32 })
    else setBits s (synReg d 8) 8 := by
  simp only [synSignal, Bool.and_eq_true, ctrActive_iff]

end Sys2Proof.Machine
end

section
/-! SUPPORT. A counter unit's additions: overflow, emission to a counter of this module, and what messages to other counters
can change (R325, R326, R332, R334). -/

namespace Sys2Proof.Machine

open Sys2Proof

/-! ### What messages change (R332–R334, R361) -/

/-- From `s` to `t`, messages have been queued for counters of this module and of others, or have been lost. -/
def OnlyMessages (s t : State) : Prop := ∃ r b x y p, t = { s with regs := r, bbx := b, changes0 := x, changes1 := y, ports := p }

theorem OnlyMessages.refl (s : State) : OnlyMessages s s := ⟨_, _, _, _, _, rfl⟩

section
variable {s t : State} (h : OnlyMessages s t)
include h

theorem OnlyMessages.setBits (a m : Nat) : OnlyMessages s (setBits t a m) := by
  obtain ⟨r, b, x, y, p, rfl⟩ := h
  exact ⟨_, _, _, _, _, rfl⟩

theorem OnlyMessages.bump (a n : Nat) : OnlyMessages s (bump t a n) := by
  obtain ⟨r, b, x, y, p, rfl⟩ := h
  rw [bump_regs]
  exact ⟨_, _, _, _, _, rfl⟩

theorem OnlyMessages.logEv (o c q a0 a1 : Nat) (f : Bool) : OnlyMessages s (logEv t o c q a0 a1 f) := by
  obtain ⟨r, b, x, y, p, rfl⟩ := h
  obtain ⟨_, _, hlog⟩ := logEv_shape { s with regs := r, bbx := b, changes0 := x, changes1 := y, ports := p } o c q a0 a1 f
  rw [hlog]
  exact ⟨_, _, _, _, _, rfl⟩

theorem OnlyMessages.queueChange (d : Nat) (c : Change) : OnlyMessages s (queueChange t d c) := by
  obtain ⟨r, b, x, y, p, rfl⟩ := h
  obtain ⟨_, _, hqueued⟩ := onlyChanges_queueChange { s with regs := r, bbx := b, changes0 := x, changes1 := y, ports := p } d c
  rw [hqueued]
  exact ⟨_, _, _, _, _, rfl⟩

theorem OnlyMessages.modPort (k : Nat) (f : Port → Port) : OnlyMessages s (modPort t k f) := by
  obtain ⟨r, b, x, y, p, rfl⟩ := h
  exact ⟨_, _, _, _, _, rfl⟩

theorem OnlyMessages.sendSimple (d typ vl dst body : Nat) : OnlyMessages s (sendSimple t d typ vl dst body) := by
  unfold Machine.sendSimple originate
  dsimp only
  by_cases hclosed : portClosed t (routeOf t d 8 dst) = true
  · rw [if_pos hclosed]
    exact (h.setBits _ _).logEv _ _ _ _ _ _
  · rw [if_neg hclosed]
    exact h.modPort _ _

theorem OnlyMessages.sendBroken (d m id : Nat) : OnlyMessages s (sendBroken t d m id) := by
  unfold Machine.sendBroken
  split
  · exact h.queueChange _ _
  · exact (h.bump _ _).sendSimple _ _ _ _ _

end

/-! ### A counter changes (R326, R332, R339) -/

/-- From `s` to `u`, counter `id` becomes `y`: no other counter changes, nor anything but messages and the step that the
counter completes. -/
def CounterBecomes (s u : State) (id : Nat) (y : Ctr) : Prop :=
  ∃ r b x z p q, u = { setCtr s id y with regs := r, bbx := b, changes0 := x, changes1 := z, ports := p, parts := q }

theorem CounterBecomes.of_messages {s t u : State} {id : Nat} {y : Ctr} (h : OnlyMessages s t) (hu : OnlyMessages (setCtr t id y) u) :
    CounterBecomes s u id y := by
  obtain ⟨_, _, _, _, _, rfl⟩ := h
  obtain ⟨_, _, _, _, _, rfl⟩ := hu
  exact ⟨_, _, _, _, _, _, rfl⟩

theorem CounterBecomes.stepCheck {s u : State} {id : Nat} {y : Ctr} (h : CounterBecomes s u id y) (p : Nat) :
    CounterBecomes s (stepCheck u p) id y := by
  obtain ⟨_, _, hstep, -, -⟩ := stepCheck_shape u p
  obtain ⟨_, _, _, _, _, _, rfl⟩ := h
  rw [hstep]
  exact ⟨_, _, _, _, _, _, rfl⟩

section
variable {s u : State} {id : Nat} {y : Ctr} (h : CounterBecomes s u id y)
include h

theorem CounterBecomes.ctr_same : ctr u id = y := by
  obtain ⟨_, _, _, _, _, _, rfl⟩ := h
  exact ctr_setCtr_same _ _ _

theorem CounterBecomes.ctr_ne (j : Nat) (hj : j ≠ id) : ctr u j = ctr s j := by
  obtain ⟨_, _, _, _, _, _, rfl⟩ := h
  exact ctr_setCtr_ne _ _ _ _ hj

theorem CounterBecomes.frame : u.mem = s.mem ∧ u.pods = s.pods ∧ u.gens = s.gens ∧ u.cons = s.cons ∧ u.dests = s.dests ∧
    u.pending = s.pending := by
  obtain ⟨_, _, _, _, _, _, rfl⟩ := h
  exact ⟨rfl, rfl, rfl, rfl, rfl, rfl⟩

end

theorem setCtr_setCtr (s : State) (id : Nat) (x y : Ctr) : setCtr (setCtr s id x) id y = setCtr s id y := by
  simp [setCtr, tset_tset]

/-- An active counter breaks: beside its own state and cause, only the messages of R334 and their records. -/
theorem breakCtr_active {s : State} {id : Nat} (cause : Nat) (h : ctrActive (ctr s id) = true) :
    OnlyMessages (setCtr s id { ctr s id with st := 2, cause := cause }) (breakCtr s id cause) := by
  unfold breakCtr
  simp only [h, if_true]
  refine List.foldlRecOn (motive := OnlyMessages _) _ _ ((((OnlyMessages.refl _).setBits _ _).bump _ _).logEv _ _ _ _ _ _)
    fun t ht x _ => ?_
  split
  · exact ht.queueChange _ _
  · exact ht.sendBroken _ _ _

/-! ### Emission (R332) -/

theorem synReg_offset {d o : Nat} (ho : o < 0x10000) : synReg d o % 0x10000 = o := by
  unfold synReg dieBase
  omega

theorem synReg_ne {d e o o' : Nat} (ho : o < 0x10000) (ho' : o' < 0x10000) (h : o ≠ o') : synReg d o ≠ synReg e o' :=
  fun heq => h ((synReg_offset ho).symm.trans ((congrArg (· % 0x10000) heq).trans (synReg_offset ho')))

/-- Saturation is recorded at the first offset of a block, where the sync unit keeps nothing that decides about changes. -/
theorem synReg_ne_satReg {d o : Nat} (ho : o < 0x10000) (h : o ≠ 0) (a : Nat) : synReg d o ≠ satReg a :=
  fun heq => h ((synReg_offset ho).symm.trans ((congrArg (· % 0x10000) heq).trans (satReg_offset a)))

/-- Counting an addition does not touch the module's own id. -/
theorem synModule_counted (s : State) (d : Nat) : synModule (bump s (synReg d 0x80) 1) = synModule s := by
  unfold synModule
  rw [rd_bump_ne _ _ _ _ (synReg_ne (by omega) (by omega) (by omega)) (synReg_ne_satReg (by omega) (by omega) _)]

theorem destsOf_congr {s t : State} {id : Nat} (hcount : (ctr t id).destCount = (ctr s id).destCount)
    (hfirst : (ctr t id).destFirst = (ctr s id).destFirst) (hdests : t.dests = s.dests) : destsOf t id = destsOf s id := by
  simp only [destsOf, hcount, hfirst, hdests]

theorem destCount_of_single {s : State} {id : Nat} {x : Nat × Nat × Nat} (h : destsOf s id = [x]) : (ctr s id).destCount = 1 := by
  have := congrArg List.length h
  simpa [destsOf] using this

/-- Emissions of a counter whose VALUE stands at or above TRIGGER (R332). -/
def emissions (c : Ctr) : Nat := (c.value - c.trigger) / c.stride + 1

theorem fire_quiet {s : State} {id : Nat}
    (h : (ctr s id).destCount = 0 ∨ (ctr s id).stride = 0 ∨ (ctr s id).value < (ctr s id).trigger) : fire s id = s := if_pos h

/-- A LIVE counter linked to one counter of this module sends it its emissions, as one change. -/
theorem fire_local {s : State} {id k dc : Nat} (hlive : (ctr s id).st = 1) (hstride : (ctr s id).stride ≠ 0)
    (hreach : (ctr s id).trigger ≤ (ctr s id).value) (hdest : destsOf s id = [(k, synModule s, dc)]) :
    fire s id = queueChange
      (setCtr s id { ctr s id with trigger := (ctr s id).trigger + emissions (ctr s id) * (ctr s id).stride }) (dc / 4096)
      { op := 0, id := dc, inc := emissions (ctr s id) * (ctr s id).outInc, emitter := some id } := by
  have hloud : ¬ ((ctr s id).destCount = 0 ∨ (ctr s id).stride = 0 ∨ (ctr s id).value < (ctr s id).trigger) := by
    have := destCount_of_single hdest
    omega
  have hmany : emissions (ctr s id) ≠ 0 := Nat.succ_ne_zero _
  have hfrozen : ¬ (ctr s id).st = 3 := by omega
  unfold fire
  simp only [if_neg hloud, if_neg hfrozen]
  rw [← emissions]
  generalize hx : { ctr s id with trigger := (ctr s id).trigger + emissions (ctr s id) * (ctr s id).stride } = x
  have hsame : destsOf (setCtr s id x) id = destsOf s id := by
    refine destsOf_congr ?_ ?_ rfl <;> rw [ctr_setCtr_same, ← hx]
  have hinc : x.outInc = (ctr s id).outInc := by rw [← hx]
  unfold emitAll
  simp only [hsame, hdest, List.foldl_cons, List.foldl_nil, if_neg hmany]
  have hhere : emitTo (setCtr s id x) id (emissions (ctr s id)) (k, synModule s, dc) = (queueChange (setCtr s id x) (dc / 4096)
      { op := 0, id := dc, inc := emissions (ctr s id) * x.outInc, emitter := some id }, false) := by
    unfold emitTo
    rw [ctr_setCtr_same]
    exact if_pos rfl
  simp [hhere, hinc]

/-! ### The change at the head (R325, R326) -/

theorem changes_bump (s : State) (a n d : Nat) : changes (bump s a n) d = changes s d := by
  rw [bump_regs]
  rfl

theorem changes_stepCheck (s : State) (p d : Nat) : changes (stepCheck s p) d = changes s d := by
  obtain ⟨_, _, h, -, -⟩ := stepCheck_shape s p
  rw [h]
  rfl

theorem changes_setChanges_other {d : Nat} (hd : d < 2) (s : State) (l : List Change) :
    changes (setChanges s d l) (1 - d) = changes s (1 - d) := by
  obtain rfl | rfl : d = 0 ∨ d = 1 := by omega
  all_goals rfl

/-- The unit takes the change at its head where nothing that it waits for is under way. -/
theorem counterUnit_head {s : State} {d : Nat} {c : Change} {l : List Change} (h : changes s d = c :: l)
    (hcovered : covered s c = true) : counterUnit s d = applyChange (setChanges s d l) d c := by
  unfold counterUnit
  simp [h, hcovered, List.findIdx?_cons]

section
variable {s : State} {c : Change} (hactive : ctrActive (ctr s c.id) = true)
include hactive

theorem applyAdd_overflows (h : 2 ^ 48 ≤ (ctr s c.id).value + c.inc) : applyAdd s c =
    breakCtr (setCtr (bump s (synReg (c.id / 4096) 0x80) 1) c.id { ctr s c.id with value := 2 ^ 48 - 1 }) c.id 4 := by
  unfold applyAdd
  simp only [hactive, if_true, if_pos h]

theorem applyAdd_within (h : (ctr s c.id).value + c.inc < 2 ^ 48) : applyAdd s c =
    stepCheck (fire (setCtr (bump s (synReg (c.id / 4096) 0x80) 1) c.id
      { ctr s c.id with value := (ctr s c.id).value + c.inc }) c.id) (ctr s c.id).part := by
  unfold applyAdd
  simp only [hactive, if_true, if_neg (Nat.not_le.mpr h)]

end

theorem OnlyMessages.ctr {s t : State} (h : OnlyMessages s t) (j : Nat) : ctr t j = ctr s j := by
  obtain ⟨_, _, _, _, _, rfl⟩ := h
  rfl

theorem onlyMessages_setChanges (s : State) (d : Nat) (l : List Change) : OnlyMessages s (setChanges s d l) := by
  obtain ⟨_, _, h⟩ := setChanges_shape s d l
  rw [h]
  exact ⟨_, _, _, _, _, rfl⟩

/-- The unit of die `d` once an addition has left its queue and been counted. -/
def counted (s : State) (d : Nat) (l : List Change) (id : Nat) : State := bump (setChanges s d l) (synReg (id / 4096) 0x80) 1

theorem onlyMessages_counted (s : State) (d : Nat) (l : List Change) (id : Nat) : OnlyMessages s (counted s d l id) :=
  (onlyMessages_setChanges s d l).bump _ _

section
variable {s : State} {d : Nat} {c : Change} {l : List Change} (hchanges : changes s d = c :: l) (hcovered : covered s c = true)
  (hop : c.op = 0) (hactive : (ctr s c.id).st = 1 ∨ (ctr s c.id).st = 3)
include hchanges hcovered hop

/-- The unit applies the addition at its head. -/
theorem counterUnit_adds : counterUnit s d = applyAdd (setChanges s d l) c := by
  rw [counterUnit_head hchanges hcovered]
  simp [applyChange, hop]

include hactive

/-- Past 48 bits the counter holds the largest VALUE and is BROKEN with cause OVERFLOW. -/
theorem counterUnit_overflows (h : 2 ^ 48 ≤ (ctr s c.id).value + c.inc) :
    CounterBecomes s (counterUnit s d) c.id { ctr s c.id with value := 2 ^ 48 - 1, st := 2, cause := 4 } := by
  have hctr := (onlyMessages_setChanges s d l).ctr c.id
  rw [counterUnit_adds hchanges hcovered hop, applyAdd_overflows (by rwa [hctr, ctrActive_iff]) (by rwa [hctr]), hctr, ← counted]
  have hbreaks := breakCtr_active (s := setCtr (counted s d l c.id) c.id { ctr s c.id with value := 2 ^ 48 - 1 }) (id := c.id) 4
    (by rwa [ctr_setCtr_same, ctrActive_iff])
  rw [ctr_setCtr_same, setCtr_setCtr] at hbreaks
  exact .of_messages (onlyMessages_counted s d l c.id) hbreaks

/-- Within 48 bits the counter adds, and what it then emits is looked at. -/
theorem counterUnit_within (h : (ctr s c.id).value + c.inc < 2 ^ 48) : counterUnit s d =
    stepCheck (fire (setCtr (counted s d l c.id) c.id { ctr s c.id with value := (ctr s c.id).value + c.inc }) c.id)
      (ctr s c.id).part := by
  have hctr := (onlyMessages_setChanges s d l).ctr c.id
  rw [counterUnit_adds hchanges hcovered hop, applyAdd_within (by rwa [hctr, ctrActive_iff]) (by rwa [hctr]), hctr, ← counted]

theorem counterUnit_quiet (h : (ctr s c.id).value + c.inc < 2 ^ 48) (hquiet : (ctr s c.id).destCount = 0 ∨
      (ctr s c.id).stride = 0 ∨ (ctr s c.id).value + c.inc < (ctr s c.id).trigger) :
    CounterBecomes s (counterUnit s d) c.id { ctr s c.id with value := (ctr s c.id).value + c.inc } ∧
      ∀ e, changes (counterUnit s d) e = changes (setChanges s d l) e := by
  rw [counterUnit_within hchanges hcovered hop hactive h, fire_quiet (by rwa [ctr_setCtr_same])]
  refine ⟨(CounterBecomes.of_messages (onlyMessages_counted s d l c.id) (.refl _)).stepCheck _, fun e => ?_⟩
  rw [changes_stepCheck]
  exact changes_bump _ _ _ e

/-- At TRIGGER a LIVE counter linked to one counter of this die sends it its emissions, behind what waits there. -/
theorem counterUnit_emits {k dc n : Nat} (h : (ctr s c.id).value + c.inc < 2 ^ 48) (hlive : (ctr s c.id).st = 1)
    (hstride : (ctr s c.id).stride ≠ 0) (hreach : (ctr s c.id).trigger ≤ (ctr s c.id).value + c.inc)
    (hdest : destsOf s c.id = [(k, synModule s, dc)]) (hdie : dc / 4096 = d)
    (hn : ((ctr s c.id).value + c.inc - (ctr s c.id).trigger) / (ctr s c.id).stride + 1 = n) :
    CounterBecomes s (counterUnit s d) c.id { ctr s c.id with
      value := (ctr s c.id).value + c.inc, trigger := (ctr s c.id).trigger + n * (ctr s c.id).stride } ∧
    changes (counterUnit s d) d = l ++ [{ op := 0, id := dc, inc := n * (ctr s c.id).outInc, emitter := some c.id }] := by
  rw [counterUnit_within hchanges hcovered hop hactive h]
  generalize hu : setCtr (counted s d l c.id) c.id { ctr s c.id with value := (ctr s c.id).value + c.inc } = u
  have hctr : ctr u c.id = { ctr s c.id with value := (ctr s c.id).value + c.inc } := by rw [← hu, ctr_setCtr_same]
  have hmodule : synModule u = synModule s := by
    obtain ⟨_, _, hshape⟩ := setChanges_shape s d l
    rw [← hu]
    refine (synModule_counted (setChanges s d l) _).trans ?_
    rw [hshape]
    rfl
  have hdests : u.dests = s.dests := by
    obtain ⟨_, _, _, _, _, hshape⟩ := onlyMessages_counted s d l c.id
    rw [← hu, hshape]
    rfl
  have hfire := fire_local (s := u) (id := c.id) (k := k) (dc := dc) (by rwa [hctr]) (by rwa [hctr]) (by rwa [hctr]) (by
    rw [destsOf_congr (by rw [hctr]) (by rw [hctr]) hdests, hdest, hmodule])
  have hmany : emissions (ctr u c.id) = n := by
    rw [hctr]
    exact hn
  rw [hfire, hmany, hctr, hdie, ← hu, setCtr_setCtr]
  refine ⟨(CounterBecomes.of_messages (onlyMessages_counted s d l c.id) ((OnlyMessages.refl _).queueChange _ _)).stepCheck _, ?_⟩
  rw [changes_stepCheck]
  refine (changes_setChanges _ _ _).trans (congrArg (· ++ _) ?_)
  exact (changes_bump _ _ _ _).trans (changes_setChanges _ _ _)

end

end Sys2Proof.Machine
end

section
/-! SUPPORT. Packets that this module originates, LATE and the deadlock detector (R340, R341, R360). -/

namespace Sys2Proof.Machine

open Sys2Proof

/-- A LATE, FREEZE or reply with a route waits in the egress queue of its lane. -/
theorem sendSimple_routed {s : State} {d dst e : Nat} (typ vl body : Nat) (hroute : routeOf s d 8 dst = e)
    (hopen : portClosed s e = false) :
    sendSimple s d typ vl dst body = modPort s e (fun x => setQueue x vl (portQueue x vl ++ [{
      typ := typ, vl := vl, units := 0, hops := 0, dst := dst, src := moduleId s, body := body }])) := by
  unfold sendSimple originate
  simp [hroute, hopen]

/-- A packet to the only remote destination of a partition. -/
theorem floodDests_single {s : State} {p d m c : Nat} (typ origin ttl : Nat) (h : remoteDests s p = [(d, m, c)]) :
    floodDests s p typ origin ttl = sendSimple s d typ 3 m (fld 0 16 c + fld 16 16 origin + fld 32 8 ttl) := by
  unfold floodDests
  rw [h]
  rfl

theorem lateSend_late {s : State} {p : Nat} (hlate : lateLocal s p = true) (hfrozen : (part s p).frozen = false) :
    lateSend s p = floodDests s p tLate (moduleId s) 0 := by
  simp [lateSend, hlate, hfrozen]

theorem lateNow_iff {s : State} {p : Nat} : lateNow s p = true ↔ lateLocal s p = true ∨ (part s p).lateIn = true := by
  simp [lateNow]

section
variable {d : Fin 2} {p : Fin 8} {s : State} (hhome : (d : Nat) = homeDie s p)
include hhome

/-- The pause of an episode has reached its cap while LATE is in force. -/
theorem exec_lateCapExhausted (hlate : lateNow s p = true) :
    exec (.lateCapExhausted d p) s = .next (modPart s p (fun x => { x with lateCapped := true })) :=
  congrArg Host.Outcome.next (if_pos ⟨hhome, hlate⟩)

/-- An episode is over once no LATE is in force. -/
theorem exec_lateEpisodeEnd (hlate : lateNow s p = false) :
    exec (.lateEpisodeEnd d p) s = .next (modPart s p (fun x => { x with lateCapped := false })) :=
  congrArg Host.Outcome.next (if_pos ⟨hhome, by simp [hlate]⟩)

end

/-! ### The deadlock detector (R341) -/

/-- The black box counts what it drops in a register of its own. -/
theorem rd_logEv_ne {s : State} {a : Nat} (o c p a0 a1 : Nat) (f : Bool) (h : a ≠ bbxReg 0x10) (hsat : a ≠ satReg (bbxReg 0x10)) :
    rd (logEv s o c p a0 a1 f) a = rd s a := by
  have hdrop (x : Bbx) : rd (bump { s with bbx := x } (bbxReg 0x10) 1) a = rd s a := rd_bump_ne _ _ _ _ h hsat
  unfold logEv
  dsimp only
  split
  · exact hdrop s.bbx
  · split
    all_goals
      split
      · exact hdrop _
      · rfl

theorem rd_logEv_synReg {s : State} {d o : Nat} (ho : o < 0x10000) (h : o ≠ 0) (g c p a0 a1 : Nat) (f : Bool) :
    rd (logEv s g c p a0 a1 f) (synReg d o) = rd s (synReg d o) :=
  rd_logEv_ne _ _ _ _ _ _ (by unfold synReg dieBase bbxReg modBase; omega) (synReg_ne_satReg ho h _)

/-- A partition that asks for no reset yet asks for this one (R420, R432). -/
theorem askReset_first {s : State} {p : Nat} (d : Nat) (r : ResetReq) (h : (part s p).resetReq = none) :
    askReset s d p r = modPart s p (fun x => { x with resetReq := some r }) := by
  simp [askReset, requestReset, modPart, h]

/-- The record of a deadlock (R341): the partition and the counter that its first hatch awaits. -/
def deadlockRecord (s : State) (p n : Nat) : Nat := fld 0 3 p + fld 8 13 (waitCtr s n) + fld 63 1 1

/-- The module with that record written, its event set and the deadlock logged. -/
def deadlockNoted (s : State) (d p n : Nat) : State :=
  logEv (setBits (wr s (synReg d 0x18) (deadlockRecord s p n)) (synReg d 8) 2) d 0x14 p (deadlockRecord s p n) 0 false

/-- A logged event whose value and event bits are written first: the black box and registers. -/
theorem logged_shape (s : State) (a v b m o c q x y : Nat) (f : Bool) :
    ∃ z r, logEv (setBits (wr s a v) b m) o c q x y f = { s with bbx := z, regs := r } := by
  obtain ⟨z, r, h⟩ := logEv_shape (setBits (wr s a v) b m) o c q x y f
  exact ⟨z, r, h⟩

theorem deadlockNoted_shape (s : State) (d p n : Nat) : ∃ b r, deadlockNoted s d p n = { s with bbx := b, regs := r } :=
  logged_shape s _ _ _ _ _ _ _ _ _ _

theorem rd_deadlockNoted_record (s : State) (d p n : Nat) :
    rd (deadlockNoted s d p n) (synReg d 0x18) = deadlockRecord s p n := by
  unfold deadlockNoted
  rw [rd_logEv_synReg (by omega) (by omega), rd_setBits_ne _ _ _ _ (synReg_ne (by omega) (by omega) (by omega)), rd_wr_same]

theorem rd_deadlockNoted_event (s : State) (d p n : Nat) :
    bit (rd (deadlockNoted s d p n) (synReg d 8)) 1 = true := by
  unfold deadlockNoted
  rw [rd_logEv_synReg (by omega) (by omega), rd_setBits_same, bit, Nat.testBit_or]
  exact Bool.or_true _

/-- The detector fires: the partition's first reset request is its own. -/
theorem exec_deadlockDetected {d : Fin 2} {p : Fin 8} {n : Nat} {ns : List Nat} {s : State} (hup : dieUp s d = true)
    (hhome : (d : Nat) = homeDie s p) (hgens : gensOf s p = n :: ns) (hidle : deadlockIdle s p = true)
    (hreq : (part s p).resetReq = none) :
    exec (.deadlockDetected d p) s =
      .next (modPart (deadlockNoted s d p n) p (fun x => { x with resetReq := some ⟨3, 0, 0⟩ })) := by
  have hpart : part (deadlockNoted s d p n) p = part s p := by
    obtain ⟨b, r, h⟩ := deadlockNoted_shape s d p n
    rw [h]
    rfl
  refine congrArg Host.Outcome.next ?_
  rw [← askReset_first d _ (by rwa [hpart]), deadlock]
  simp [hup, ← hhome, hgens, hidle, deadlockNoted, deadlockRecord]

/-! ### SYN_DL_RECORD (R10, R341) -/

section
variable {d : Fin 2} {s : State} (hreach : reachable s (synReg d 0x18) = true)
include hreach

theorem exec_synDlRecordRead (half : Half) : exec (.synDlRecordRead d half) s =
    .next (emit (dlRead s d half).1 (.value (synReg d 0x18) (dlRead s d half).2)) := by
  refine congrArg Host.Outcome.next ?_
  simp [hreach]

end

section
variable {s : State} {d : Nat}

/-- Without a record, a read that would take one gives 0. -/
theorem dlRead_empty {half : Half} (h : rd s (synReg d 0x18) = 0) (hhalf : half ≠ .upper) : dlRead s d half = (s, 0) := by
  simp [dlRead, h, hhalf]

theorem dlRead_lower (h : rd s (synReg d 0x18) ≠ 0) : dlRead s d .lower =
    (wr { s with shadow := tset s.shadow (synReg d 0x18) (rd s (synReg d 0x18) / 2 ^ 32) } (synReg d 0x18) 0,
      rd s (synReg d 0x18) % 2 ^ 32) := by
  simp [dlRead, h, rcRead]

theorem dlRead_whole (h : rd s (synReg d 0x18) ≠ 0) : dlRead s d .whole =
    (wr { s with shadow := tset s.shadow (synReg d 0x18) (rd s (synReg d 0x18) / 2 ^ 32) } (synReg d 0x18) 0,
      rd s (synReg d 0x18)) := by
  simp [dlRead, h, rcRead]

/-- A read of the upper half gives what an earlier read has kept, and takes nothing. -/
theorem dlRead_upper : dlRead s d .upper = (s, tget 0 s.shadow (synReg d 0x18)) := by
  simp [dlRead, rcRead]

end

end Sys2Proof.Machine
end

section
/-! SUPPORT. Ports: what the egress sends and repeats, and what a packet that arrives in order does (R350–R364). -/

namespace Sys2Proof.Machine

open Sys2Proof

theorem setPort_setPort (s : State) (k : Nat) (x y : Port) : setPort (setPort s k x) k y = setPort s k y := by
  simp [setPort, tset_tset]

/-! ### The egress (R352, R357–R360) -/

/-- A port once packet `q` has left turn `i`'s lane, of which `l` stays: it waits to be acknowledged. -/
def afterTurn (x : Port) (i : Nat) (q : LinkPkt) (l : List LinkPkt) : Port :=
  { setQueue x (nth 0 rotation i) l with
    turn := (i + 1) % 16
    txSeq := (x.txSeq + 1) % 2 ^ 32
    credits := x.credits.modify (nth 0 rotation i) (· - (1 + q.units))
    replay := x.replay ++ [{ q with seq := x.txSeq, sent := 1 }] }

section
variable {s : State} {k : Nat} (hcarries : portCarries s k = true)
include hcarries

/-- A turn with a packet of this module's own: it goes out, and no arrival port is owed for it. -/
theorem egressTurn_own {i : Nat} {q : LinkPkt} {l : List LinkPkt} (hturn : nextTurn (port s k) = some i)
    (hqueue : portQueue (port s k) (nth 0 rotation i) = q :: l) (hown : q.arr = none) :
    egressTurn s k = putWire (setPort s k (afterTurn (port s k) i q l)) k { q with seq := (port s k).txSeq, sent := 1 } := by
  unfold egressTurn afterTurn
  simp only [hcarries, hturn, hqueue, hown, Bool.not_true, Bool.false_eq_true, if_false]

theorem idleTimer_idle (hturn : nextTurn (port s k) = none) : idleTimer s k = sendIdle s k := by
  simp [idleTimer, hcarries, hturn]

end

/-- The only unacknowledged packet goes again, and its attempt counts (R359, R360). -/
theorem replayPort_single {s : State} {k : Nat} {q : LinkPkt} (hreplay : (port s k).replay = [q]) (hsent : q.sent < retryLimit s k) :
    replayPort s k false = putWire (bump (setPort s k { port s k with replay := [{ q with sent := q.sent + 1 }] })
      (portReg k 0x20) 1) k { q with sent := q.sent + 1 } := by
  have hlimit (x : Port) : retryLimit (setPort s k x) k = retryLimit s k := rfl
  unfold replayPort
  simp [hreplay, hlimit, hsent, setPort_setPort]

theorem exec_ackTimeout {s : State} {k : Fin 16} {q : LinkPkt} (hcarries : portCarries s k = true)
    (hreplay : (port s k).replay = [q]) : exec (.ackTimeout k) s = .next (replayPort s k false) :=
  congrArg Host.Outcome.next (if_pos (by simp [hcarries, hreplay]))

/-! ### Reception (R350, R357, R359) -/

/-- The port's counts of received units and codewords, and then the header taken. -/
def headerTaken (s : State) (k : Nat) (p : Packet) : State :=
  takeHeader (bump (bump (bump s (portReg k 0x18) (1 + p.units.toNat)) (portReg k 0x28) p.corrected) (portReg k 0x30) p.uncorrected)
    k p

section
variable {s : State} {k typ : Nat} {p : Packet}

/-- A whole packet without NAK has its header taken; then the port may have closed, and an IDLE ends there. -/
theorem receive_whole (hcarries : portCarries s k = true) (hwhole : rxWhole typ p = true) (hnak : bit p.flags.toNat 0 = false) :
    receive s k typ p =
      let t := headerTaken s k p
      if !portCarries t k then t
      else if typ = tIdle then t
      else if p.seq.toNat != (port t k).rxSeq then nakPacket t k
      else routePacket (modPort t k (fun x => { x with rxSeq := (x.rxSeq + 1) % 2 ^ 32 })) k typ p := by
  unfold receive
  simp only [hcarries, hwhole, hnak, Bool.not_true, Bool.false_eq_true, if_false, Bool.false_and]
  rfl

theorem receive_idle (hcarries : portCarries s k = true) (hwhole : rxWhole tIdle p = true) (hnak : bit p.flags.toNat 0 = false) :
    receive s k tIdle p = headerTaken s k p := by
  rw [receive_whole hcarries hwhole hnak]
  exact ite_self _

/-- A packet for this module that arrives in its turn is delivered, and its buffer's units are owed (R357, R362). -/
theorem receive_arrives {H : State} (h : arrives s k typ p H) (htyp : typ ≠ tIdle) :
    receive s k typ p = oweUnits (deliver H k typ p) k (p.vl.toNat % 4) p.units.toNat := by
  obtain ⟨hcarries, hwhole, hgoes, hnak, hseq, hhops, hdst, rfl⟩ := h
  rw [receive_whole hcarries hwhole hnak, headerTaken]
  simp only [hgoes, hseq, htyp, Bool.not_true, Bool.false_eq_true, if_false, bne_self_eq_false]
  unfold routePacket
  exact (if_neg hhops).trans (if_pos hdst)

end

/-! ### Delivery by type (R333, R334, R340, R361, R364, R367) -/

theorem deliverSpan_accepted {s : State} {k vl src body units v : Nat}
    (h : spanReason s (bits body 0 64) (bits body 64 32) (64 * units) = 0) : deliverSpan s k vl src body units v =
      let t := spanWrite s vl (bits body 0 64) (bits body 64 32) (64 * units) v
      if src = moduleId t then deliverAck t (bits body 96 32)
      else sendSimple t (k / 8) tSpanAck 2 src (fld 0 32 (bits body 96 32) + fld 32 8 0) := by
  simp [deliverSpan, h]

theorem deliverSync_up {s : State} {src body : Nat} (h : dieUp s (bits body 0 13 / 4096) = true) : deliverSync s src body =
    queueChange s (bits body 0 13 / 4096)
      { op := 0, id := bits body 0 13, inc := bits body 16 48, remote := some (src, bits body 64 13) } := if_pos h

section
variable {s : State} {id origin ttl : Nat} (hused : (ctr s id).st ≠ 0) (hlast : 6 ≤ ttl)
include hused hlast

/-- A LATE at its last hop marks its partition and goes no further. -/
theorem deliverLate_last : deliverLate s id origin ttl =
    setBits (modPart s (ctr s id).part (fun x => { x with lateIn := true })) (synReg (id / 4096) 8) 4 := by
  simp [deliverLate, hused, Nat.not_lt.mpr hlast]

/-- A FREEZE at its last hop freezes its partition and goes no further. -/
theorem deliverFreeze_last : deliverFreeze s id origin ttl = freezeBy s (ctr s id).part origin id := by
  simp [deliverFreeze, hused, hlast]

end

section
variable {s : State} {id c : Nat} (hspan : tfind s.spans id = some c) (hcopy : c < 64)
include hspan hcopy

theorem deliverAck_copy : deliverAck s id = modCopy { s with spans := tdel s.spans id } (c / 32) (c % 32)
    (fun x => { x with run := x.run.map (fun r => { r with acked := r.acked + 1 }) }) := by
  simp [deliverAck, hspan, Nat.not_le.mpr hcopy]

/-- A refused span ends its copy REMOTE_REFUSED (R232). -/
theorem deliverRefused_copy {x : CopyRun} (hrun : (copyChan s (c / 32) (c % 32)).run = some x) : deliverRefused s id =
    kick (endCopy { s with spans := tdel s.spans id } (c / 32) (c % 32) 6 (4096 * x.acked) false) (c / 32) (c % 32) := by
  have hsame : copyChan { s with spans := tdel s.spans id } (c / 32) (c % 32) = copyChan s (c / 32) (c % 32) := rfl
  simp [deliverRefused, hspan, Nat.not_le.mpr hcopy, hsame, hrun]

end

/-- A lost LATE leaves the event PATH_LOST and a log entry. -/
theorem deliverUnreachable_late {s : State} {body : Nat} (k : Nat) (h : bits body 0 8 = tLate) : deliverUnreachable s k body =
    logEv (setBits s (rylReg (k / 8) 0x10) 2) (k / 8) 0x31 0xFF k tLate false := by
  simp [deliverUnreachable, h, tLate, tSpan, tSync, dropPacket]

end Sys2Proof.Machine
end

section
/-! The statements about synchronisation (13_synchronisation.md, 14_links.md). -/

open Sys2Proof Sys2Proof.Machine

/-- Settles O37: each stroke by the rule of its launch, and SYN_SIGNAL behind the gate of rights. -/
theorem signalsReachTheCounterUnits : Obligations.SignalsReachTheCounterUnits := by
  refine ⟨fun g n t w s => ?_, fun g n t w id s => ?_, fun r d v s => ?_⟩
  · intro L id inc hready hgoes hinc hlow hhigh hblock
    exact ⟨exec_signal_active rfl hgoes hready hinc hlow hhigh hblock,
      exec_signal_broken rfl hgoes hready hinc hlow hhigh hblock⟩
  · intro L c hready hgoes hhigh hid hgroup
    exact exec_rebase rfl hgoes hready hhigh hid hgroup
  · intro id inc hwrite
    rw [exec_synSignal v hwrite, synSignal_eq]

/-- Settles O38: an addition overflows, stays quiet or reaches its destination, and in each case one counter has become
another. -/
theorem counterChangesApply : Obligations.CounterChangesApply := by
  intro d c l s x v n quiet hchanges hcovered hop hactive hcase
  have hquiet (h : v < 2 ^ 48) (hq : quiet) := counterUnit_quiet hchanges hcovered hop hactive h hq
  have hemits (h : v < 2 ^ 48) (hlive : x.st = 1) (hstride : x.stride ≠ 0) (hreach : x.trigger ≤ v) (k dc : Nat)
      (hdest : destsOf s c.id = [(k, synModule s, dc)]) (hdie : dc / 4096 = d) :=
    counterUnit_emits hchanges hcovered hop hactive h hlive hstride hreach hdest hdie (n := n) rfl
  have hbecomes : ∃ y, CounterBecomes s (counterUnit s d) c.id y := by
    by_cases hover : 2 ^ 48 ≤ v
    · exact ⟨_, counterUnit_overflows hchanges hcovered hop hactive hover⟩
    by_cases hq : quiet
    · exact ⟨_, (hquiet (by omega) hq).1⟩
    obtain ⟨hlive, k, dc, hdest, hdie⟩ := (hcase.resolve_left hover).resolve_left hq
    obtain ⟨hstride, hreach⟩ := not_or.mp (not_or.mp hq).2
    exact ⟨_, (hemits (by omega) hlive hstride (Nat.not_lt.mp hreach) k dc hdest hdie).1⟩
  obtain ⟨y, hy⟩ := hbecomes
  obtain ⟨hmem, hpods, hgens, hcons, hdests, hpending⟩ := hy.frame
  refine ⟨_, rfl, hy.ctr_ne, hmem, hpods, hgens, hcons, hdests, hpending,
    fun hover => (counterUnit_overflows hchanges hcovered hop hactive hover).ctr_same, fun h hq => ?_,
    fun k dc h hstride hreach hlive hdest hdie => ?_⟩
  · obtain ⟨hthis, hqueues⟩ := hquiet h hq
    refine ⟨hthis.ctr_same, (hqueues d).trans (changes_setChanges _ _ _), ?_⟩
    exact (hqueues _).trans (changes_setChanges_other d.isLt _ _)
  · obtain ⟨hthis, hqueue⟩ := hemits h hlive hstride hreach k dc hdest hdie
    exact ⟨hthis.ctr_same, hqueue⟩

/-- Settles O39: the LATE by its packet's route, the marks and the detector by their conditions, and the read of the record by
halves. -/
theorem latenessAndDeadlock : Obligations.LatenessAndDeadlock := by
  refine ⟨fun p m c e d s hlate hfrozen hremote hroute hopen => ?_, fun p s => rfl, fun d p s hhome => ⟨fun hlate => ?_,
    fun hlocal hheard => ?_⟩, fun d p n ns s => ?_, fun d s => ?_⟩
  · have hsent := (lateSend_late hlate hfrozen).trans (floodDests_single tLate (moduleId s) 0 hremote)
    exact congrArg Host.Outcome.next (hsent.trans (sendSimple_routed _ _ _ hroute hopen))
  · exact exec_lateCapExhausted hhome (lateNow_iff.mpr hlate)
  · exact exec_lateEpisodeEnd hhome (by simp [lateNow, hlocal, hheard])
  · intro v hup hhome hgens hidle hreq
    obtain ⟨b, r, hshape⟩ := deadlockNoted_shape s d p n
    refine ⟨_, exec_deadlockDetected hup hhome hgens hidle hreq, rd_deadlockNoted_record s d p n,
      rd_deadlockNoted_event s d p n, ?_, fun q hq => ?_, ?_⟩
    · rw [part_modPart_same, hshape]
      rfl
    · rw [part_modPart_ne _ _ _ _ hq, hshape]
      rfl
    · rw [hshape]
      exact ⟨rfl, rfl, rfl, rfl, rfl⟩
  · intro a hreach
    refine ⟨fun hempty => ⟨?_, ?_⟩, fun hrecord => ?_, fun hrecord => ⟨_, exec_synDlRecordRead hreach _, ?_⟩, ?_⟩
    · rw [exec_synDlRecordRead hreach, dlRead_empty (half := .whole) hempty nofun]
    · rw [exec_synDlRecordRead hreach, dlRead_empty (half := .lower) hempty nofun]
    · rw [exec_synDlRecordRead hreach, dlRead_lower hrecord]
    · rw [dlRead_whole hrecord]
      exact ⟨rd_wr_same _ _ _, rfl⟩
    · rw [exec_synDlRecordRead hreach, dlRead_upper]

/-- Settles O47: the egress by what its turn finds, and each packet by the rule of its type behind one rule of reception. That
an IDLE takes no number and is taken whatever its SEQ is assumption 40, and that a reply to the module's own id is handled at
once is assumption 116. -/
theorem linksCarryPackets : Obligations.LinksCarryPackets := by
  refine ⟨fun k s hcarries => ⟨fun i q l hturn hqueue hown => ?_, fun hturn => ?_, fun q hreplay hsent => ?_⟩, fun k p s H => ?_⟩
  · exact congrArg Host.Outcome.next (egressTurn_own hcarries hturn hqueue hown)
  · exact congrArg Host.Outcome.next (idleTimer_idle hcarries hturn)
  · exact (exec_ackTimeout hcarries hreplay).trans (congrArg Host.Outcome.next (replayPort_single hreplay hsent))
  · intro b own
    have hown {typ : Nat} {u : State} (h : arrives s k typ p H) (htyp : typ ≠ tIdle) (hu : deliver H k typ p = u) :
        Host.Outcome.next (receive s k typ p) = (.next (own u) : Out) := by
      rw [receive_arrives h htyp, hu]
    refine ⟨fun h hreason => hown h (by decide) (deliverSpan_accepted hreason),
      fun h hup => hown h (by decide) (deliverSync_up hup),
      fun h hused hlast => hown h (by decide) (deliverLate_last hused hlast),
      fun h hused hlast => hown h (by decide) (deliverFreeze_last hused hlast),
      fun c hcopy h hspan => hown h (by decide) (deliverAck_copy hspan hcopy),
      fun c x hcopy h hspan hrun => hown h (by decide) (deliverRefused_copy hspan hcopy hrun),
      fun h => hown h (by decide) rfl,
      fun h hlate => hown h (by decide) (deliverUnreachable_late k hlate), ?_⟩
    rintro t rfl hcarries hwhole hnak
    exact congrArg Host.Outcome.next (receive_idle hcarries hwhole hnak)
end

section
/-! SUPPORT. What every step keeps: the queue of waiting commands, and the anti-rollback counters, which only rise (R476);
and the accesses that stop the model (R443, R444). -/

namespace Sys2Proof.Machine

open Sys2Proof

/-! ### Frames of guarded and gated operations -/

theorem Keeps.ite {c : Prop} [Decidable c] {s t u : State} (ht : Keeps s t) (hu : Keeps s u) :
    Keeps s (if c then t else u) := by
  split
  · exact ht
  · exact hu

theorem Keeps.gate {s : State} {r : Requester} {a : Nat} {act : State → State} (h : ∀ z, Keeps z (act z)) :
    Keeps s (gate s r a act) :=
  gate_keeps s r a act (fun z => (h z).1) (fun z => (h z).2)

theorem Keeps.gateLocked {s : State} {r : Requester} {a : Nat} {act : State → State} (h : ∀ z, Keeps z (act z)) :
    Keeps s (gateLocked s r a act) :=
  gateLocked_keeps s r a act (fun z => (h z).1) (fun z => (h z).2)

theorem podCmd_resetPod_keeps (s : State) (d v : Nat) : Keeps s (podCmd s d v resetPod) :=
  podCmd_keeps s d v resetPod (fun z g => (resetPod_keeps z g).1) (fun z g => (resetPod_keeps z g).2)

theorem podCmd_resetHatch_keeps (s : State) (d v : Nat) : Keeps s (podCmd s d v resetHatch) :=
  podCmd_keeps s d v resetHatch (fun z g => (resetHatch_keeps z g).1) (fun z g => (resetHatch_keeps z g).2)

/-! ### Steps that raise the counters or leave them alone (R476) -/

/-- The queue is as it was, and no anti-rollback counter is lower. -/
def Advances (s t : State) : Prop := t.pending = s.pending ∧ ∀ k, rollbackOf s k ≤ rollbackOf t k

theorem Advances.refl (s : State) : Advances s s := ⟨rfl, fun _ => le_rfl⟩

theorem Advances.trans {s t u : State} (h : Advances s t) (k : Advances t u) : Advances s u :=
  ⟨k.1.trans h.1, fun n => (h.2 n).trans (k.2 n)⟩

theorem Keeps.advances {s t : State} (h : Keeps s t) : Advances s t :=
  ⟨h.1, fun k => by rw [rollbackOf, rollbackOf, h.2]⟩

theorem Advances.ite {c : Prop} [Decidable c] {s t u : State} (ht : Advances s t) (hu : Advances s u) :
    Advances s (if c then t else u) := by
  split
  · exact ht
  · exact hu

/-- A counter that is raised to a maximum is not lower, and the others stay. -/
theorem getD_le_getD_modify_max (l : List Nat) (c v k : Nat) : l.getD k 0 ≤ (l.modify c (max v)).getD k 0 := by
  rw [List.getD_eq_getElem?_getD, List.getD_eq_getElem?_getD, List.getElem?_modify]
  cases l[k]? with
  | none => exact Nat.zero_le _
  | some x =>
    by_cases h : c = k
    · simp [h]
    · simp [h]

theorem finishIntent_advances (s : State) : Advances s (finishIntent s) := by
  unfold finishIntent
  split
  · exact ⟨rfl, getD_le_getD_modify_max _ _ _⟩
  · exact .refl s

theorem stage1_advances (s : State) : Advances s (stage1 s) := by
  have hfrom : ∀ t, Advances s t → Advances s (match validSlots t 1 with
      | [] => bootFail t 1
      | i :: _ => extend (setStage (setSlot t 1 i) 1) 0 (imageMeasure t 1 i)) := fun t ht => by
    split
    · exact ht.trans (Keeps.advances (bootFail_keeps t 1))
    · exact ht.trans (Keeps.advances (Keeps.trans (setSlot_keeps ..) (Keeps.trans (setStage_keeps ..) (extend_keeps ..))))
  exact hfrom _ ((finishIntent_advances s).trans (Keeps.advances (Keeps.trans (wr_keeps _ _ _) ⟨rfl, rfl⟩)))

theorem standbyUp_advances (s : State) (a : BitVec 2) : Advances s
    (if s.sup.standby then s else
      if s.sup.modReset then { s with sup := { s.sup with standby := true, smb := a.toNat } }
      else stage1 { s with sup := { s.sup with standby := true, smb := a.toNat } }) :=
  .ite (.refl s) (.ite (.refl s) (stage1_advances _))

theorem bareState_advances (s : State) : Advances s (bareState s) :=
  (Keeps.advances (cutFlash_keeps s)).trans (.refl _)

theorem coldReset_advances (s : State) (cause : Nat) : Advances s (coldReset s cause) := by
  have hnote : ∀ t, Advances s t → Advances s (if (noteModReset t 2 cause).sup.modReset then noteModReset t 2 cause
      else stage1 (noteModReset t 2 cause)) := fun t ht =>
    (ht.trans (Keeps.advances (noteModReset_keeps t 2 cause))).trans (.ite (.refl _) (stage1_advances _))
  exact hnote _ (bareState_advances s)

theorem coldBy_advances (s : State) (cause : Nat) : Advances s (coldBy s cause) :=
  .ite (coldReset_advances s cause) (.refl s)

theorem coldEvent_advances (s : State) : Advances s (coldEvent s) := by
  unfold coldEvent
  split
  · exact coldReset_advances s _
  · split
    · exact (Keeps.advances (Keeps.trans (nextFree_keeps s) (logEv_keeps ..))).trans (coldReset_advances _ 3)
    · exact .refl s

theorem refuseStales_keeps (s : State) (l : List Nat) : Keeps s (l.foldl refuseStale s) :=
  .foldl _ l s refuseStale_keeps

theorem advanceDone_advances (s : State) : Advances s (advanceDone s) := by
  unfold advanceDone
  split
  · exact .refl s
  · rename_i c x q _
    have hblown : Advances s (modSec s (fun y => { y with
        advance := q
        intent := q.head?
        fuses := { y.fuses with rollback := y.fuses.rollback.modify c (max x) } })) :=
      ⟨rfl, getD_le_getD_modify_max _ _ _⟩
    exact hblown.trans (.ite (refuseStales_keeps _ _).advances (.refl _))

/-! ### What a command answers -/

/-- The command makes an access that may name a device: a register write, or a management read or write. -/
def MayNameDevice (c : Instr) : Prop :=
  (∃ r x w v, c = .registerWrite r x w v) ∨ (∃ x, c = .mgmtRead32 x) ∨ (∃ x, c = .mgmtRead64 x) ∨
    (∃ x, c = .mgmtWrite32 x) ∨ ∃ x, c = .mgmtWrite64 x

/-- Command `c`, run in `s`, answers a next state that keeps the queue and lowers no anti-rollback counter, or stops at a
device's window that an access of its own names. -/
def Answers (c : Instr) (s : State) (o : Out) : Prop :=
  (∃ t, o = .next t ∧ Advances s t) ∨
    ∃ a, o = .refused (.deviceWindow a) ∧ isDevice a = true ∧ s.dieDown.contains 2 = false ∧ MayNameDevice c

theorem Answers.next {c : Instr} {s t : State} (h : Advances s t) : Answers c s (.next t) := .inl ⟨t, rfl, h⟩

theorem Answers.of_keeps {c : Instr} {s t : State} (h : Keeps s t) : Answers c s (.next t) := .next h.advances

/-- An access stops the model only in the devices' range, and while the module-level domain is on. -/
theorem deviceStop_inv {s : State} {a w : Nat} {write : Bool} (h : deviceStop s a w write = true) :
    isDevice a = true ∧ s.dieDown.contains 2 = false := by
  simp only [deviceStop, dieUp, Bool.and_eq_true, Bool.not_eq_true'] at h
  exact ⟨h.1.1.1.1, h.1.1.1.2⟩

theorem registerWrite_answers (r : Requester) (addr : BitVec 48) (w : Nat) (v : BitVec 64) (s : State) :
    Answers (.registerWrite r addr w v) s (exec (.registerWrite r addr w v) s) := by
  cases h : deviceStop s addr.toNat w true with
  | true =>
    obtain ⟨hdevice, hup⟩ := deviceStop_inv h
    refine .inr ⟨addr.toNat, ?_, hdevice, hup, .inl ⟨r, addr, w, v, rfl⟩⟩
    show execRegisterWrite r addr w v s = _
    rw [execRegisterWrite, h]
    rfl
  | false =>
    rw [exec_registerWrite h]
    exact .of_keeps (.ite (Keeps.trans (mapWrite_keeps ..) (emit_keeps ..)) (mapWrite_keeps ..))

/-- A request names a device by an access of its own, so its operation is a read or a write (R456). -/
theorem deviceAccess_inv {s : State} {d : List Byte} {a : Nat} (h : deviceAccess s d = some a) :
    dgOp d ∈ [1, 2, 3, 4] ∧ isDevice a = true ∧ s.dieDown.contains 2 = false := by
  unfold deviceAccess at h
  dsimp only at h
  split at h
  · rename_i hreq
    simp only [Bool.and_eq_true] at hreq
    have hstop := List.find?_some h
    exact ⟨List.contains_iff_mem.mp hreq.1.1.2, deviceStop_inv hstop⟩
  · cases h

theorem mgmtRow_answers {c : Instr} {op : Nat} {x : MgmtReq} {s : State} (hc : MayNameDevice c) :
    Answers c s (mgmtRow op x s) := by
  unfold mgmtRow
  split
  · exact .of_keeps (.refl s)
  · split
    · rename_i a ha
      obtain ⟨-, hdevice, hup⟩ := deviceAccess_inv ha
      exact .inr ⟨a, rfl, hdevice, hup, hc⟩
    · exact .of_keeps (mgmtRequest_keeps s x)

/-- The row of an operation that makes no access never stops: a read or write is another row's. -/
theorem mgmtRow_answers_of_noAccess {c : Instr} {op : Nat} {x : MgmtReq} {s : State} (hop : op ∉ [1, 2, 3, 4]) :
    Answers c s (mgmtRow op x s) := by
  unfold mgmtRow
  split
  · exact .of_keeps (.refl s)
  · rename_i hrow
    split
    · rename_i a ha
      obtain ⟨hacc, -, -⟩ := deviceAccess_inv ha
      have hne : dgOp x.bytes ≠ op := fun h => hop (h ▸ hacc)
      have hlisted : mgmtOps.contains (dgOp x.bytes) = true :=
        List.contains_iff_mem.mpr (List.mem_append_left [0x10, 0x11] hacc)
      exact absurd ⟨hne, hlisted⟩ hrow
    · exact .of_keeps (mgmtRequest_keeps s x)

theorem execCoreMemoryWrite_answers {c : Instr} (r : Requester) (addr : BitVec 48) (data : List (BitVec 8)) (s : State) :
    Answers c s (execCoreMemoryWrite r addr data s) :=
  .of_keeps (.ite (coreWrite_keeps ..) (Keeps.trans (coreWrite_keeps ..) (emit_keeps ..)))

theorem execSynDlRecordRead_answers {c : Instr} (d : Fin 2) (half : Half) (s : State) :
    Answers c s (execSynDlRecordRead d half s) :=
  .of_keeps (.ite (emit_keeps ..) (Keeps.trans (dlRead_keeps ..) (emit_keeps ..)))

theorem execJenostRequest_answers {c : Instr} (k : Fin 2) (f : List Byte) (s : State) :
    Answers c s (execJenostRequest k f s) := by
  have hacc : Keeps s (acceptFrame s k f).1 := acceptFrame_keeps s k f
  unfold execJenostRequest
  refine .of_keeps ?_
  split
  · rename_i h
    rwa [h] at hacc
  · rename_i h
    rw [h] at hacc
    split
    · exact .ite (hacc.trans (jenost_keeps ..)) hacc
    · exact hacc

theorem execJenostReassemblyTimeout_answers {c : Instr} (i : Nat) (s : State) :
    Answers c s (execJenostReassemblyTimeout i s) := by
  unfold execJenostReassemblyTimeout
  refine .of_keeps ?_
  split
  · exact sendError_keeps ..
  · exact .refl s

theorem execQueryStepRelease_answers {c : Instr} (s : State) : Answers c s (execQueryStepRelease s) := by
  unfold execQueryStepRelease
  refine .of_keeps ?_
  split
  · exact stepRelease_keeps ..
  · exact .refl s

theorem execQueryResult_answers {c : Instr} (s : State) : Answers c s (execQueryResult s) := by
  unfold execQueryResult
  refine .of_keeps ?_
  split
  · exact queryResult_keeps ..
  · exact .refl s

theorem execGrantApplied_answers {c : Instr} (n : Fin 32) (s : State) : Answers c s (execGrantApplied n s) := by
  unfold execGrantApplied
  refine .of_keeps ?_
  split
  · exact .refl s
  · exact modGen_keeps ..

theorem execTelemetrySample_answers {c : Instr} (a : PowerSample) (s : State) :
    Answers c s (execTelemetrySample a s) := by
  have hwatts : Keeps s (if a.valid then { s with sup := { s.sup with watts := a.watts0 + a.watts1 } } else s) :=
    .ite (.refl s) (.refl s)
  exact .of_keeps (hwatts.trans (.ite (.refl _) (.ite (validSample_keeps ..) (.refl _))))

/-- One command, one law: every row is a shared operation whose frame is known. -/
theorem exec_answers (c : Instr) (s : State) : Answers c s (exec c s) := by
  cases c with
  | standbyPowerGood => exact .next (standbyUp_advances _ _)
  | bootStage2 => exact .of_keeps (stage2_keeps ..)
  | bootStage5 => exact .of_keeps (stage5_keeps ..)
  | registerWrite => exact registerWrite_answers ..
  | coreMemoryWrite => exact execCoreMemoryWrite_answers ..
  | scratchpadServiceAccess => exact .of_keeps (serviceAccess_keeps ..)
  | serviceAccessComplete => exact .of_keeps (serviceDone_keeps ..)
  | bridgeUncorrectableError => exact .of_keeps (.ite (bridgeError_keeps ..) (.refl _))
  | load => exact .of_keeps (.gate fun _ => loadCmd_keeps ..)
  | badCommand => exact .of_keeps (.gate fun _ => badCommand_keeps ..)
  | synSignal => exact .of_keeps (.gate fun _ => synSignal_keeps ..)
  | continuePart => exact .of_keeps (.gate fun _ => continuePart_keeps ..)
  | abandon => exact .of_keeps (.gate fun _ => abandonPart_keeps ..)
  | free | alloc => exact .of_keeps (.gate fun _ => rangeCmd_keeps ..)
  | cpyDescBadCommand | describeTensor | describeCopy | destroy => exact .of_keeps (.gate fun _ => descCmd_keeps ..)
  | bbxUnfreeze => exact .of_keeps (.gate fun _ => bbxUnfreeze_keeps ..)
  | loadCopyComplete => exact .of_keeps (loadCopied_keeps ..)
  | loadVerifyComplete => exact .of_keeps (loadVerified_keeps ..)
  | activate => exact .of_keeps (.gate fun _ => activateCmd_keeps ..)
  | retire => exact .of_keeps (.gate fun _ => retireCmd_keeps ..)
  | discard => exact .of_keeps (.gate fun _ => discardCmd_keeps ..)
  | abort => exact .of_keeps (.gate fun _ => abortCmd_keeps ..)
  | portTrain => exact .of_keeps (.gate fun _ => portTrain_keeps ..)
  | portDown => exact .of_keeps (.gate fun _ => portDown_keeps ..)
  | rylModuleIdWrite => exact .of_keeps (.gate fun _ => writeModuleId_keeps ..)
  | wrdTokenCas => exact .of_keeps (.gate fun _ => casBy_keeps ..)
  | secMeasureExtend => exact .of_keeps (.gate fun _ => measureExtend_keeps ..)
  | activateDistributionComplete => exact .of_keeps (distribute_keeps ..)
  | hatchStartEdge => exact .of_keeps (startEdge_keeps ..)
  | retireComplete => exact .of_keeps (retireComplete_keeps ..)
  | permitWrite => exact .of_keeps (.gate fun _ => permitWrite_keeps ..)
  | cpyChAbort => exact .of_keeps (.gate fun _ => chAbort_keeps ..)
  | cpyChDisable => exact .of_keeps (.gate fun _ => chDisable_keeps ..)
  | cpyChResume => exact .of_keeps (.gate fun _ => chResume_keeps ..)
  | nop => exact .of_keeps (nopStroke_keeps ..)
  | loop => exact .of_keeps (loopStroke_keeps ..)
  | phase => exact .of_keeps (phaseStroke_keeps ..)
  | endStep => exact .of_keeps (endStepStroke_keeps ..)
  | delay => exact .of_keeps (delayStroke_keeps ..)
  | permitWait => exact .of_keeps (permitWaitStroke_keeps ..)
  | waitRelease => exact .of_keeps (waitRelease_keeps ..)
  | hatchSleep => exact .of_keeps (hatchSleep_keeps ..)
  | send => exact .of_keeps (sendStroke_keeps ..)
  | sendFlitDelivery => exact .of_keeps (sendDelivery_keeps ..)
  | quarterBoundaryEstimate => exact .of_keeps (quarter_keeps ..)
  | mxaConfig => exact .of_keeps (mxaConfig_keeps ..)
  | mxaLoad => exact .of_keeps (mxaLoad_keeps ..)
  | mxaPlaneUsable => exact .of_keeps (planeUsable_keeps ..)
  | mxaStream => exact .of_keeps (mxaStream_keeps ..)
  | mxaRowResult => exact .of_keeps (mxaRowResult_keeps ..)
  | add | sub | mul | fma | min | max | mov | movi | iota | cmp | sel | mand | mor | mxor | mnot | mtot | ttom
  | cvt | qnt | dqn | iadd | isub | iand | ior | ixor | shl | shr | sra | perm | rot | exp2 | log2 | pip | stat
  | scmb | sfin | sclr | smax | snrm | scan | ascn => exact .of_keeps (vecOp_keeps ..)
  | setrnd => exact .of_keeps (setRnd_keeps ..)
  | stip => exact .of_keeps (stipStroke_keeps ..)
  | stippleEnd => exact .of_keeps (stippleEnd_keeps ..)
  | vectorRowWrite => exact .of_keeps (vectorRowWrite_keeps ..)
  | ptload => exact .of_keeps (ptLoad_keeps ..)
  | pipTableReady => exact .of_keeps (pipTableReady_keeps ..)
  | ptswap => exact .of_keeps (ptSwap_keeps ..)
  | ldt | stt => exact .of_keeps (xferStroke_keeps ..)
  | transferRowAccess => exact .of_keeps (transferRowAccess_keeps ..)
  | memRead => exact .of_keeps (memRead'_keeps ..)
  | memWrite => exact .of_keeps (memWriteStroke_keeps ..)
  | granuleLanded => exact .of_keeps (granuleLanded_keeps ..)
  | landingWrite => exact .of_keeps (landingWrite_keeps ..)
  | copyEnqueue => exact .of_keeps (copyEnqueueStroke_keeps ..)
  | signal => exact .of_keeps (signalStroke_keeps ..)
  | rebase => exact .of_keeps (rebaseStroke_keeps ..)
  | wait => exact .of_keeps (waitStroke_keeps ..)
  | counterChangeApply => exact .of_keeps (counterUnit_keeps ..)
  | lateSend => exact .of_keeps (lateSend_keeps ..)
  | lateMarkExpired => exact .of_keeps (modPart_keeps ..)
  | lateCapExhausted | lateEpisodeEnd => exact .of_keeps (.ite (modPart_keeps ..) (.refl _))
  | deadlockDetected => exact .of_keeps (deadlock_keeps ..)
  | synDlRecordRead => exact execSynDlRecordRead_answers ..
  | portDownDrainTimeout => exact .of_keeps (.ite (closePort_keeps ..) (.refl _))
  | portSignalDetected => exact .of_keeps (.ite (startTraining_keeps ..) (.refl _))
  | portTrainingComplete => exact .of_keeps (portTrained_keeps ..)
  | portSignalLost => exact .of_keeps (portLost_keeps ..)
  | laneFailure => exact .of_keeps (laneFailure_keeps ..)
  | egressTurn => exact .of_keeps (egressTurn_keeps ..)
  | idleTimer => exact .of_keeps (idleTimer_keeps ..)
  | ackTimeout => exact .of_keeps (.ite (replayPort_keeps ..) (.refl _))
  | span | sync | late | freeze | spanAck | spanRefused | syncBroken | unreachable | idle =>
    exact .of_keeps (receive_keeps ..)
  | rylSpareSteer => exact .of_keeps (.gate fun _ => spareSteer_keeps ..)
  | routingTableWrite | mchFlipCtrlWrite | podFlipCtrlWrite | apcRingTailWrite =>
    exact .of_keeps (.gate fun _ => wr_keeps ..)
  | ethernetFrameReceived => exact .of_keeps (frameIn_keeps ..)
  | jenostRequest => exact execJenostRequest_answers ..
  | jenostReassemblyTimeout => exact execJenostReassemblyTimeout_answers ..
  | queryStepRelease => exact execQueryStepRelease_answers s
  | queryResult => exact execQueryResult_answers s
  | cpyRangeBadCommand => exact .of_keeps (.gate fun _ => .ite (.refl _) (rangeCmd_keeps ..))
  | rstCmdPod => exact .of_keeps (.gate fun _ => .ite (podCmd_resetPod_keeps ..) (.refl _))
  | rstCmdHatch => exact .of_keeps (.gate fun _ => .ite (podCmd_resetHatch_keeps ..) (.refl _))
  | rangeCommandComplete => exact .of_keeps (.ite (rangeComplete_keeps ..) (.refl _))
  | rstCrashAck => exact .of_keeps (.gate fun _ => crashAck_keeps ..)
  | descCommandComplete => exact .of_keeps (.ite (descComplete_keeps ..) (.refl _))
  | cpyChOwnerWrite => exact .of_keeps (.gate fun _ => chOwner_keeps ..)
  | cpyChEnq => exact .of_keeps (.gate fun _ => chEnq_keeps ..)
  | cpyChRingTailWrite => exact .of_keeps (.gate fun _ => ringTail_keeps ..)
  | wrdHeartbeat => exact .of_keeps (.gate fun _ => heartbeat_keeps ..)
  | cntFold => exact .of_keeps (.gate fun _ => cntFold_keeps ..)
  | copyDone => exact .of_keeps (copyDone_keeps ..)
  | copyDeadlineExpired => exact .of_keeps (copyDeadline_keeps ..)
  | copyDrainTimeout => exact .of_keeps (copyDrainTimeout_keeps ..)
  | channelSlotService => exact .of_keeps (channelSlot_keeps ..)
  | migrationCommit => exact .of_keeps (migrationCommit_keeps ..)
  | frameBoundary => exact .of_keeps (frameBoundary_keeps ..)
  | regionEntryCommit => exact .of_keeps (.gateLocked fun _ => regionCommit_keeps ..)
  | stackTemperatureSample => exact .of_keeps (stackSample_keeps ..)
  | stackThermalTrip => exact .of_keeps (stackTrip_keeps ..)
  | scrubReadDue => exact .of_keeps (scrubRead_keeps ..)
  | scrubWriteback => exact .of_keeps (scrubWriteback_keeps ..)
  | bucketLeak => exact .of_keeps (.ite (modStk_keeps ..) (.refl _))
  | mchPinFailRead => exact .of_keeps (pinFailRead_keeps ..)
  | upeGradWaitRelease => exact .of_keeps (gradRelease_keeps ..)
  | upeGatherComplete => exact .of_keeps (gatherComplete_keeps ..)
  | upeArriveWaitRelease => exact .of_keeps (arriveRelease_keeps ..)
  | upeCommitWaitRelease => exact .of_keeps (commitRelease_keeps ..)
  | upeApplyComplete => exact .of_keeps (applyComplete_keeps ..)
  | upeRefusalRead => exact .of_keeps (.ite (emit_keeps ..) (.ite (emit_keeps ..) (refusalRead_keeps ..)))
  | stewardGrant => exact .of_keeps (stewardGrant_keeps ..)
  | grantApplied => exact execGrantApplied_answers ..
  | oppChangeComplete => exact .of_keeps (modGen_keeps ..)
  | generatorFallback => exact .of_keeps (.ite (.trans (modGen_keeps ..) (setBits_keeps ..)) (.refl _))
  | telemetrySample => exact execTelemetrySample_answers ..
  | telemetryLost => exact .of_keeps (.ite (.refl _) (setBits_keeps ..))
  | pwsCapHostWrite => exact .of_keeps (capWrite_keeps ..)
  | pwsCapMgmtWrite => exact .of_keeps (.ite (wr_keeps ..) (capWrite_keeps ..))
  | dieTemperatureSample => exact .of_keeps (dieSample_keeps ..)
  | dieThermalTrip => exact .of_keeps (dieTrip_keeps ..)
  | tripSensorPoll => exact .of_keeps (tripPoll_keeps ..)
  | wrdTripClear => exact .of_keeps (.gate fun _ => tripClear_keeps ..)
  | wrdDiePower => exact .of_keeps (.gate fun _ => powerWrite_keeps ..)
  | secRollbackCmd => exact .of_keeps (.gate fun _ => rollbackCmd_keeps ..)
  | quote => exact .of_keeps (.gate fun _ => quoteCmd_keeps ..)
  | commit => exact .of_keeps (.gate fun _ => commitKey_keeps ..)
  | flashErase | flashProgram | flashRead => exact .of_keeps (.gate fun _ => flashCmd_keeps ..)
  | bbxFreeze => exact .of_keeps (.gate fun _ => bbxFreeze_keeps ..)
  | droopDetected => exact .of_keeps (droop_keeps ..)
  | droopFloorExpired => exact .of_keeps (.foldl _ _ _ fun _ _ => .trans (modGen_keeps ..) (aimRatio_keeps ..))
  | droopRearm => exact .of_keeps (.refl _)
  | energyAccumulate => exact .of_keeps (.ite (energy_keeps ..) (.refl _))
  | rstCmdPartition => exact .of_keeps (.gate fun _ => .ite (askReset_keeps ..) (.refl _))
  | rstCmdDie => exact .of_keeps (.gate fun _ => .ite (askDie_keeps ..) (.refl _))
  | partitionReset | crashCaptureCut => exact .of_keeps (partReset_keeps ..)
  | hangDetected => exact .of_keeps (hang_keeps ..)
  | retireDrainTimeout => exact .of_keeps (.ite (askReset_keeps ..) (.refl _))
  | resetDeadlineMissed => exact .of_keeps (deadlineMissed_keeps ..)
  | dieReset => exact .of_keeps (dieReset_keeps ..)
  | warmModuleReset => exact .of_keeps (.ite (warmEvent_keeps ..) (.refl _))
  | coldModuleReset => exact .next (.ite (coldEvent_advances _) (.refl _))
  | wrdResetCmdWarm | wrdResetCmdCold => exact .of_keeps (.gate fun _ => .ite (resetCmd_keeps ..) (.refl _))
  | fwSilent => exact .of_keeps (fwSilent_keeps ..)
  | ownershipConflict => exact .of_keeps (conflict_keeps ..)
  | mgmtRead32 => exact mgmtRow_answers (.inr (.inl ⟨_, rfl⟩))
  | mgmtRead64 => exact mgmtRow_answers (.inr (.inr (.inl ⟨_, rfl⟩)))
  | mgmtWrite32 => exact mgmtRow_answers (.inr (.inr (.inr (.inl ⟨_, rfl⟩))))
  | mgmtWrite64 => exact mgmtRow_answers (.inr (.inr (.inr (.inr ⟨_, rfl⟩))))
  | bbxRead | mgmtStatus => exact mgmtRow_answers_of_noAccess (by decide)
  | smbStatus | smbTemps => exact .of_keeps (.ite (emit_keeps ..) (.refl _))
  | smbPower => exact .of_keeps (.ite (.trans (nextFree_keeps _) (emit_keeps ..)) (.refl _))
  | aoRead => exact .of_keeps (aoRead_keeps ..)
  | aoWrite => exact .of_keeps (aoWrite_keeps ..)
  | smbCap => exact .of_keeps (smbCap_keeps ..)
  | railPowerGood => exact .of_keeps (railGood_keeps ..)
  | domainPowerUpComplete => exact .of_keeps (domainUp_keeps ..)
  | railPowerGoodTimeout => exact .of_keeps (railTimeout_keeps ..)
  | domainPowerDownComplete => exact .of_keeps (domainOff_keeps ..)
  | perstRelease | bbxPostWindowExpired => exact .of_keeps (.ite (.refl _) (.refl _))
  | ethernetTransmitComplete => exact .of_keeps (ringTransmit_keeps ..)
  | pcieInboundDma => exact .of_keeps (inboundDma_keeps ..)
  | fuseAdvanceComplete => exact .next (advanceDone_advances _)
  | quoteComplete => exact .of_keeps (quoteDone_keeps ..)
  | flashOperationComplete => exact .of_keeps (flashDone_keeps ..)
  | cntSampleCfgWrite => exact .of_keeps (.gate fun _ => .trans (.trans (wr_keeps ..) (wr_keeps ..)) (wr_keeps ..))
  | bbxStore => exact .of_keeps (bbxStore_keeps ..)
  | modResetAsserted => exact .next (.ite (.refl _) (coldBy_advances _ _))
  | refclkLost | inputVoltageFault => exact .next (coldBy_advances _ _)
  | standbyPowerLost => exact .next (.ite (bareState_advances _) (.refl _))
  | modResetReleased => exact .next (.ite (.ite (stage1_advances _) (.refl _)) (.refl _))
  | spareLaneRetrainComplete => exact .of_keeps (spareTrained_keeps ..)
  | dieResetComplete => exact .of_keeps (.ite (.refl _) (releaseDie_keeps ..))
  | ethernetPortRetrained => exact .of_keeps (.ite (setPortState_keeps ..) (.refl _))

/-- A step, whatever waits, keeps the rest of the queue and lowers no anti-rollback counter. -/
theorem step_advances {s t : State} (h : step s = .next t) :
    t.pending = s.pending.tail ∧ ∀ k, rollbackOf s k ≤ rollbackOf t k := by
  unfold step at h
  cases hq : s.pending with
  | nil =>
    rw [hq] at h
    obtain rfl := Host.Outcome.next.inj h
    have hkeeps : Keeps s (tick s) := tick_keeps s
    exact ⟨hkeeps.1.trans hq, hkeeps.advances.2⟩
  | cons c rest =>
    rw [hq] at h
    obtain ⟨u, hu, hpending, hrise⟩ | ⟨a, ha, -⟩ := exec_answers c { s with pending := rest }
    · obtain rfl := Host.Outcome.next.inj (h.symm.trans hu)
      exact ⟨hpending, hrise⟩
    · cases h.symm.trans ha

end Sys2Proof.Machine
end

section
/-! The statements about the queue, the steps, and what never changes (00_scope.md). -/

open Sys2Proof Sys2Proof.Machine

/-- Settles O1: the step's equation for a queue that is not empty. -/
theorem stepTakesFront : Obligations.StepTakesFront := by
  intro c rest s hq
  rw [step, hq]

/-- Settles O3: no row of the table touches the queue, which the step has already shortened. -/
theorem queueIsFifo : Obligations.QueueIsFifo := fun _ _ h => (step_advances h).1

/-- Settles O5: the two rows that write the fuse array raise a counter to a maximum, and no other row touches it. -/
theorem rollbackNeverDecreases : Obligations.RollbackNeverDecreases := fun _ _ k h => (step_advances h).2 k

/-- Settles O4: every row answers, but for the register write and the four management rows that find a device (assumption
70). -/
theorem onlyDeviceWindowsStop : Obligations.OnlyDeviceWindowsStop := by
  intro c s
  obtain ⟨t, ht, -⟩ | ⟨a, ha, hdevice, hup, hc⟩ := exec_answers c s
  · exact .inl ⟨t, ht⟩
  · exact .inr ⟨a, ha, hdevice, hup, hc⟩
end

section
/-! SUPPORT. Security commands: anti-rollback advances, quotes, measurements, the management key and the flash (R468,
R476–R483). -/

namespace Sys2Proof.Machine

open Sys2Proof

/-- A register write by a requester that reaches the register and may write it. -/
theorem canWrite.gate {s : State} {r : Requester} {a : Nat} (h : canWrite s r a) (act : State → State) :
    gate s r a act = act s := gate_go act h.1 h.2

/-! ### Anti-rollback counters (R476, R477) -/

section
variable {s : State} {v c x : Nat}

theorem rollbackCmd_queued (hc : bits v 0 3 < 5) (hlimit : bits v 3 7 ≤ rollbackLimit s (bits v 0 3))
    (hrise : nth 0 s.sec.fuses.rollback (bits v 0 3) < bits v 3 7) :
    rollbackCmd s v = { s with sec := { s.sec with
      advance := s.sec.advance ++ [(bits v 0 3, bits v 3 7)]
      intent := (s.sec.advance ++ [(bits v 0 3, bits v 3 7)]).head? } } := by
  unfold rollbackCmd
  dsimp only
  rw [if_neg (by omega), if_neg (by omega), if_neg (by omega)]
  rfl

theorem rollbackCmd_reached (hc : bits v 0 3 < 5) (hlimit : bits v 3 7 ≤ rollbackLimit s (bits v 0 3))
    (hrise : bits v 3 7 ≤ nth 0 s.sec.fuses.rollback (bits v 0 3)) : rollbackCmd s v = s := by
  unfold rollbackCmd
  dsimp only
  rw [if_neg (by omega), if_neg (by omega), if_pos hrise]

theorem rollbackCmd_refused (hc : bits v 0 3 < 5) (hlimit : rollbackLimit s (bits v 0 3) < bits v 3 7) :
    rollbackCmd s v = wr (pickOf s [secReg 0x28, secReg 0x808]).1 (pickOf s [secReg 0x28, secReg 0x808]).2 512 := by
  unfold rollbackCmd
  dsimp only
  rw [if_neg (by omega), if_pos hlimit]
  rfl

theorem advanceDone_blown {q : List (Nat × Nat)} (h : s.sec.advance = (c, x) :: q) (hc : c ≠ 4) :
    advanceDone s = { s with sec := { s.sec with
      advance := q
      intent := q.head?
      fuses := { s.sec.fuses with rollback := s.sec.fuses.rollback.modify c (max x) } } } := by
  unfold advanceDone
  rw [h]
  exact if_neg hc

end

/-! ### Measurements and quotes (R478–R480) -/

section
variable {s : State} {v b : Nat}

theorem quoteCmd_taken (hgo : bit v 0 = true) (hidle : s.sec.quote = none) :
    quoteCmd s v = { s with sec := { s.sec with quote := some (quoteBody s) } } := by
  unfold quoteCmd
  rw [hgo, hidle]
  rfl

theorem quoteCmd_busy (hgo : bit v 0 = true) (hbusy : s.sec.quote.isSome = true) :
    quoteCmd s v = wr s (secReg 0x28) 256 := by
  unfold quoteCmd
  rw [hgo, hbusy]
  rfl

/-- No index is left to sign with. -/
theorem quoteDone_exhausted (hquote : s.sec.quote = some b) (hnone : 2 ^ 20 ≤ s.sec.idNext) :
    quoteDone s = runExtends (wr (modSec s (fun x => { x with quote := none })) (secReg 0x28) 1024) := by
  unfold quoteDone
  rw [hquote]
  exact congrArg runExtends (if_pos hnone)

theorem reserveIndex_reserved (h : s.sec.idNext < s.sec.idRes) : reserveIndex s = (s, true) := if_pos h

theorem quoteDone_signed (hquote : s.sec.quote = some b) (hleft : s.sec.idNext < 2 ^ 20)
    (hreserved : s.sec.idNext < s.sec.idRes) :
    quoteDone s = runExtends (signQuote (modSec s (fun x => { x with quote := none })) b) := by
  unfold quoteDone
  rw [hquote]
  refine congrArg runExtends ((if_neg (Nat.not_le.mpr hleft)).trans ?_)
  rw [reserveIndex_reserved (s := modSec s (fun x => { x with quote := none })) hreserved]
  rfl

theorem measureExtend_allowed {r : Requester} (h : (bits v 0 3 = 5 ∧ r = .app) ∨ (bits v 0 3 = 7 ∧ r = .mgmt)) :
    measureExtend s r v = extend s (bits v 0 3) (wordsAt s (secReg 0x60) 4) := if_pos h

end

/-! ### The management key and the flash (R481, R483) -/

section
variable {s : State} {v op a : Nat}

/-- Whether the flash write succeeds is drawn, and so is the status register that a failure reaches. -/
theorem commitKey_commits (hgo : bit v 0 = true) :
    commitKey s v = if (pickOf s [0, 1]).2 = 0
      then modSec (pickOf s [0, 1]).1 (fun x => { x with newKey := some (wordsAt s (secReg 0x80) 4 ^^^ keyMask s) })
      else wr (pickOf (pickOf s [0, 1]).1 [secReg 0x28, secReg 0x808]).1
        (pickOf (pickOf s [0, 1]).1 [secReg 0x28, secReg 0x808]).2 768 := by
  unfold commitKey
  rw [hgo]
  by_cases h : (pickOf s [0, 1]).2 = 0
  · simp [flashWrites, h]
  · simp [flashWrites, h, setResult]

theorem flashCmd_busy (hop : op ≠ 0) (hbusy : s.sec.flashOp.isSome = true) :
    flashCmd s op = wr s (secReg 0x808) 256 := by
  unfold flashCmd
  dsimp only
  rw [if_neg hop, if_pos hbusy]
  rfl

theorem flashCmd_begun (hop : op ≠ 0) (hidle : s.sec.flashOp = none)
    (hallowed : flashRefused s op (rd s (secReg 0x800)) = false)
    (hinside : rd s (secReg 0x800) + flashSize op ≤ 0x4000000) :
    flashCmd s op = { s with sec := { s.sec with flashOp := some (op, rd s (secReg 0x800)) } } := by
  unfold flashCmd
  dsimp only
  rw [if_neg hop, if_neg (by simp [hidle]), if_neg (ne_true_of_eq_false hallowed), if_neg (Nat.not_lt.mpr hinside)]
  rfl

theorem flashDone_read (h : s.sec.flashOp = some (3, a)) :
    flashDone s = wr (modSec (putWords s (secReg 0x1000) 512 (flashRead s a 0x1000)) (fun x => { x with flashOp := none }))
      (secReg 0x808) (256 * 0) := by
  unfold flashDone
  rw [h]
  rfl

/-- An erase that succeeds clears its block; one that fails leaves the block's bytes open. -/
theorem flashDone_erase (h : s.sec.flashOp = some (1, a)) :
    flashDone s = if (pickOf s [0, 1]).2 = 0
      then wr (modSec (modSec (pickOf s [0, 1]).1 (fun x => { x with flash := mclear x.flash a 0x10000 }))
        (fun x => { x with flashOp := none })) (secReg 0x808) (256 * 0)
      else wr (modSec (loseFlash (pickOf s [0, 1]).1 a 0x10000) (fun x => { x with flashOp := none }))
        (secReg 0x808) (256 * 3) := by
  have hcut : cutFlash (pickOf s [0, 1]).1 = loseFlash (pickOf s [0, 1]).1 a 0x10000 := by
    obtain ⟨x, n, hpick⟩ := pickOf_shape s [0, 1]
    unfold cutFlash
    rw [hpick]
    simp only [h, true_or, if_true]
    rfl
  unfold flashDone
  rw [h]
  by_cases hok : (pickOf s [0, 1]).2 = 0
  · simp [flashWrites, hok, flashEffect, flashBlock, setResult]
  · simp [flashWrites, hok, hcut, setResult]

end

end Sys2Proof.Machine
end

section
/-! The statement about security commands (19_boot_security.md). -/

open Sys2Proof Sys2Proof.Machine

/-- Settles O59: each row is its unit's command behind the gate of R447. Where a refusal and a failed write are recorded is
assumption 92, whether a flash write succeeds is assumption 88, that advances queue is assumption 93, and that the key is held
in clear is assumption 94. -/
theorem securityCommands : Obligations.SecurityCommands := by
  refine ⟨fun r v s hw hc => ⟨fun hlimit hrise => ?_, fun hlimit hrise => ?_, fun hlimit => ?_⟩, fun c x q s hq hc => ?_,
    fun r v s hw hgo => ⟨fun hidle => ?_, fun hbusy => ?_⟩, fun b s hquote => ⟨fun hnone => ?_, fun hleft hreserved => ?_⟩,
    fun v s => ⟨fun hj hw => ?_, fun hj hw => ?_⟩, fun r v s hw hgo => ?_, fun r s hw => ?_, fun op a s hop => ⟨?_, ?_⟩⟩
  · exact congrArg Host.Outcome.next ((hw.gate _).trans (rollbackCmd_queued hc hlimit hrise))
  · exact congrArg Host.Outcome.next ((hw.gate _).trans (rollbackCmd_reached hc hlimit hrise))
  · exact congrArg Host.Outcome.next ((hw.gate _).trans (rollbackCmd_refused hc hlimit))
  · exact congrArg Host.Outcome.next (advanceDone_blown hq hc)
  · exact congrArg Host.Outcome.next ((hw.gate _).trans (quoteCmd_taken hgo hidle))
  · exact congrArg Host.Outcome.next ((hw.gate _).trans (quoteCmd_busy hgo hbusy))
  · exact congrArg Host.Outcome.next (quoteDone_exhausted hquote hnone)
  · exact congrArg Host.Outcome.next (quoteDone_signed hquote hleft hreserved)
  · rw [← hj]
    exact congrArg Host.Outcome.next ((hw.gate _).trans (measureExtend_allowed (.inl ⟨hj, rfl⟩)))
  · rw [← hj]
    exact congrArg Host.Outcome.next ((hw.gate _).trans (measureExtend_allowed (.inr ⟨hj, rfl⟩)))
  · exact congrArg Host.Outcome.next ((hw.gate _).trans (commitKey_commits hgo))
  · have hcmd (op : Nat) : gate s r (secReg 0x804) (fun s => flashCmd s op) = flashCmd s op := hw.gate _
    have hbusy {op : Nat} (hop : op ≠ 0) (h : s.sec.flashOp.isSome = true) :
        (.next (gate s r (secReg 0x804) (fun s => flashCmd s op)) : Out) = .next (wr s (secReg 0x808) 256) := by
      rw [hcmd, flashCmd_busy hop h]
    have hbegun {op : Nat} (hop : op ≠ 0) (hidle : s.sec.flashOp = none)
        (hallowed : flashRefused s op (rd s (secReg 0x800)) = false)
        (hinside : rd s (secReg 0x800) + flashSize op ≤ 0x4000000) :
        (.next (gate s r (secReg 0x804) (fun s => flashCmd s op)) : Out) =
          .next { s with sec := { s.sec with flashOp := some (op, rd s (secReg 0x800)) } } := by
      rw [hcmd, flashCmd_begun hop hidle hallowed hinside]
    exact ⟨hbegun (by decide), hbegun (by decide), hbegun (by decide),
      fun h => ⟨hbusy (by decide) h, hbusy (by decide) h, hbusy (by decide) h⟩⟩
  · rintro rfl
    exact congrArg Host.Outcome.next (flashDone_read hop)
  · rintro rfl
    exact congrArg Host.Outcome.next (flashDone_erase hop)
end

section
/-! SUPPORT. Sampling counters that fold, and the writer, the window and the keys of the black box (R490–R492, R495–R499). -/

namespace Sys2Proof.Machine

open Sys2Proof

/-! ### Sampling counters (R490–R492) -/

theorem cntFold_moves {s : State} {d n : Nat}
    (h : rd s (cntReg d (0x300 + 8 * n)) + rd s (cntReg d (0x200 + 8 * n)) % 2 ^ 33 < 2 ^ 64) :
    cntFold s d n = wr (wr s (cntReg d (0x200 + 8 * n))
        (rd s (cntReg d (0x200 + 8 * n)) - rd s (cntReg d (0x200 + 8 * n)) % 2 ^ 33))
      (cntReg d (0x300 + 8 * n)) (rd s (cntReg d (0x300 + 8 * n)) + rd s (cntReg d (0x200 + 8 * n)) % 2 ^ 33) := by
  have hne : cntReg d (0x300 + 8 * n) ≠ cntReg d (0x200 + 8 * n) := by
    unfold cntReg
    omega
  have htotal (v : Nat) : rd (wr s (cntReg d (0x200 + 8 * n)) v) (cntReg d (0x300 + 8 * n)) =
      rd s (cntReg d (0x300 + 8 * n)) := rd_wr_ne _ _ _ _ hne
  unfold cntFold
  dsimp only
  rw [bump_eq _ _ _ (by rwa [htotal]), htotal]

/-- Events 9 to 15 do not exist, and a counter of theirs is not enabled (R490). -/
theorem sampleCfg_eq (v : Nat) : sampleCfg v = if 9 ≤ bits v 0 4 then bits v 0 13 else bits v 0 14 := by
  unfold sampleCfg bits
  dsimp only
  rw [Nat.shiftRight_zero]
  by_cases h : 9 ≤ v % 2 ^ 4
  · rw [if_pos h, if_pos (by omega)]
    omega
  · rw [if_neg h, if_neg (by omega)]

/-! ### The writer of the black box (R495, R497, R498) -/

/-- Queue `k` keeps the events `l` behind the one that the writer has taken, and the rotation stands past `k`. -/
def eventTaken (s : State) (k : Nat) (l : List BbxEvent) : State :=
  { s with bbx := setBbxQueue { s.bbx with turn := (k + 1) % 3 } k l }

theorem eventTaken_frame (s : State) (k : Nat) (l : List BbxEvent) :
    (eventTaken s k l).bbx.seq = s.bbx.seq ∧ (eventTaken s k l).bbx.pend = s.bbx.pend ∧
    (eventTaken s k l).bbx.frozen = s.bbx.frozen ∧ (eventTaken s k l).bbx.turn = (k + 1) % 3 := by
  unfold eventTaken setBbxQueue
  split <;> exact ⟨rfl, rfl, rfl, rfl⟩

theorem bbxQueue_eventTaken (s : State) (k : Fin 3) (l : List BbxEvent) : bbxQueue (eventTaken s k l).bbx k = l := by
  fin_cases k <;> rfl

/-- Queue `k` owes no LOST entry any more, and the rotation stands past `k`. -/
def lossTaken (s : State) (k : Nat) : State :=
  { s with bbx := clearBbxLost { s.bbx with turn := (k + 1) % 3 } k }

theorem lossTaken_frame (s : State) (k j : Nat) :
    (lossTaken s k).bbx.seq = s.bbx.seq ∧ (lossTaken s k).bbx.pend = s.bbx.pend ∧
    bbxQueue (lossTaken s k).bbx j = bbxQueue s.bbx j := by
  unfold lossTaken clearBbxLost
  split <;> exact ⟨rfl, rfl, rfl⟩

theorem bbxLost_lossTaken (s : State) (k : Fin 3) : bbxLost (lossTaken s k).bbx k = 0 := by
  fin_cases k <;> rfl

/-- An entry's store leaves the queues, their losses and the rotation as they were. -/
theorem storeEvent_frame (s : State) (e : BbxEvent) (k : Nat) :
    bbxQueue (storeEvent s e).bbx k = bbxQueue s.bbx k ∧ bbxLost (storeEvent s e).bbx k = bbxLost s.bbx k ∧
    (storeEvent s e).bbx.turn = s.bbx.turn := ⟨rfl, rfl, rfl⟩

/-- Every event is stored under the next SEQ. -/
theorem storeEvent_entry (s : State) (e : BbxEvent) :
    tget 0#256 (storeEvent s e).bbx.entries (s.bbx.seq % 8192) = bbxEntry s.bbx.seq s.bbx.pend e ∧
    (storeEvent s e).bbx.seq = (s.bbx.seq + 1) % 2 ^ 32 := ⟨tget_tset_same _ _ _ _, rfl⟩

/-- Outside a window an event that is not fatal opens none. -/
theorem storeEvent_plain {s : State} {e : BbxEvent} (hpend : s.bbx.pend = false) (hfatal : e.fatal = false) :
    (storeEvent s e).bbx.pend = false ∧ (storeEvent s e).bbx.frozen = s.bbx.frozen := by
  simp [storeEvent, hpend, hfatal]

/-- Outside a window a fatal event opens one of POST events, which freezes the box at once where POST is 0. -/
theorem storeEvent_fatal {s : State} {e : BbxEvent} (hpend : s.bbx.pend = false) (hfrozen : s.bbx.frozen = false)
    (hfatal : e.fatal = true) :
    (storeEvent s e).bbx.freezeSeq = s.bbx.seq ∧ (storeEvent s e).bbx.left = bbxPost s ∧
    (storeEvent s e).bbx.pend = decide (0 < bbxPost s) ∧ (storeEvent s e).bbx.frozen = decide (bbxPost s = 0) := by
  simp [storeEvent, hpend, hfrozen, hfatal]
  rfl

section
variable {s : State} {k : Fin 3} {e : BbxEvent} {l : List BbxEvent}

/-- The writer's rotation stands at queue `k`, which is not empty: the writer serves it. -/
theorem bbxStore_turn (hfrozen : s.bbx.frozen = false) (hturn : s.bbx.turn % 3 = k.val) (hqueue : bbxQueue s.bbx k = e :: l) :
    bbxStore s = if 0 < bbxLost s.bbx k
      then storeEvent (lossTaken s k)
        ⟨0xFF, false, k, 0xFF, s.colds % 256 * 2 ^ 56 + s.ticks % 2 ^ 56, bbxLost s.bbx k, 0⟩
      else storeEvent (eventTaken s k l) e := by
  have hfind : [s.bbx.turn % 3, (s.bbx.turn + 1) % 3, (s.bbx.turn + 2) % 3].find? (fun j => !(bbxQueue s.bbx j).isEmpty) =
      some k.val := by
    rw [List.find?_cons_of_pos, hturn]
    rw [hturn, hqueue]
    rfl
  unfold bbxStore
  dsimp only
  rw [if_neg (ne_true_of_eq_false hfrozen), hfind]
  dsimp only
  rw [hqueue]
  rfl

end

/-! ### The keys of the black box (R499) -/

theorem setPost_eq (s : State) (v : Nat) : setPost s v = wr s (bbxReg 4) (bits v 0 10) := by
  unfold setPost bits
  rw [Nat.shiftRight_zero]

theorem bbxFreeze_key {s : State} {v : Nat} (hkey : bits v 16 16 = 0x2F0C) (hfrozen : s.bbx.frozen = false) :
    bbxFreeze s v = { wr s (bbxReg 4) (bits v 0 10) with bbx := { s.bbx with
      frozen := true
      pend := false
      freezeSeq := if s.bbx.entries.isEmpty then s.bbx.freezeSeq else (s.bbx.seq + (2 ^ 32 - 1)) % 2 ^ 32 } } := by
  unfold bbxFreeze
  rw [setPost_eq]
  exact if_pos ⟨hkey, by simpa using hfrozen⟩

theorem bbxUnfreeze_key {s : State} {who v : Nat} (hkey : bits v 16 16 = 0x6C31)
    (hheld : s.bbx.frozen = true ∨ s.bbx.pend = true) :
    bbxUnfreeze s who v = logEv { wr s (bbxReg 4) (bits v 0 10) with bbx := { s.bbx with frozen := false, pend := false } }
      2 0x60 0xFF who s.bbx.freezeSeq false := by
  unfold bbxUnfreeze
  rw [setPost_eq]
  exact if_pos ⟨hkey, hheld⟩

end Sys2Proof.Machine
end

section
/-! The statement about sampling counters and the black box (20_debug_counters.md). -/

open Sys2Proof Sys2Proof.Machine

/-- Settles O60: the writer serves the queue of its turn, and what it stores opens a window or not. That a LOST entry's TIME is
that of its store is assumption 29. -/
theorem samplingAndBlackBox : Obligations.SamplingAndBlackBox := by
  refine ⟨fun r d v s hw hfits => ?_, fun r d n v s hw => ?_, fun k e l s hfrozen hpend hturn hqueue => ?_,
    fun s hpend => ?_, fun r v s hw => ⟨fun hkey hfrozen => ?_, fun hkey hheld => ?_⟩⟩
  · exact congrArg Host.Outcome.next ((hw.gate _).trans (cntFold_moves hfits))
  · rw [← sampleCfg_eq]
    exact congrArg Host.Outcome.next (hw.gate _)
  · have hserved : exec .bbxStore s = .next _ := congrArg Host.Outcome.next (bbxStore_turn hfrozen hturn hqueue)
    obtain ⟨hseq, hquiet, hrunning, hpast⟩ := eventTaken_frame s k l
    obtain ⟨hlostSeq, hlostQuiet, hlostQueue⟩ := lossTaken_frame s k k
    refine ⟨fun hlost hfatal => ?_, fun hlost hfatal => ?_, fun hlost => ?_⟩
    · rw [if_neg (by omega)] at hserved
      obtain ⟨hentry, hnext⟩ := storeEvent_entry (eventTaken s k l) e
      obtain ⟨hclosed, hopen⟩ := storeEvent_plain (hquiet.trans hpend) hfatal
      rw [hseq, hquiet, hpend] at hentry
      rw [hseq] at hnext
      exact ⟨_, hserved, bbxQueue_eventTaken s k l, hentry, hnext, hpast, hopen.trans (hrunning.trans hfrozen), hclosed⟩
    · rw [if_neg (by omega)] at hserved
      obtain ⟨hfreeze, hwindow⟩ := storeEvent_fatal (hquiet.trans hpend) (hrunning.trans hfrozen) hfatal
      exact ⟨_, hserved, bbxQueue_eventTaken s k l, hfreeze.trans hseq, hwindow⟩
    · rw [if_pos hlost] at hserved
      obtain ⟨hentry, -⟩ := storeEvent_entry (lossTaken s k)
        ⟨0xFF, false, k, 0xFF, s.colds % 256 * 2 ^ 56 + s.ticks % 2 ^ 56, bbxLost s.bbx k, 0⟩
      rw [hlostSeq, hlostQuiet, hpend] at hentry
      exact ⟨_, hserved, hlostQueue.trans hqueue, bbxLost_lossTaken s k, hentry⟩
  · exact congrArg Host.Outcome.next (if_pos hpend)
  · exact congrArg Host.Outcome.next ((hw.gate _).trans (bbxFreeze_key hkey hfrozen))
  · exact congrArg Host.Outcome.next ((hw.gate _).trans (bbxUnfreeze_key hkey hheld))
end

section
/-! SUPPORT. The warden's ROM at stage 1, cold module resets, and the pins and supplies that bring one about (R417, R469,
R501, R509–R512). -/

namespace Sys2Proof.Machine

open Sys2Proof

/-! ### BOOT_STATUS (R469) -/

/-- The register whose writes no black-box count touches. -/
def awayFromBbx (a : Nat) : Prop := a ≠ bbxReg 0x10 ∧ a ≠ satReg (bbxReg 0x10)

theorem awayFromBbx_wrdReg {o : Nat} (h : o < 0x1000) : awayFromBbx (wrdReg o) := by
  have hsat : satReg (bbxReg 0x10) = bbxReg 0x70000 := by decide
  unfold awayFromBbx
  rw [hsat]
  unfold wrdReg bbxReg
  omega

theorem rd_logEv {s : State} {a : Nat} (h : awayFromBbx a) (o c p x y : Nat) (f : Bool) :
    rd (logEv s o c p x y f) a = rd s a := rd_logEv_ne _ _ _ _ _ _ h.1 h.2

theorem bootStage_setStage (s : State) {n : Nat} (h : n < 16) : bootStage (setStage s n) = n := by
  unfold bootStage setStage bits
  rw [rd_wr_same, Nat.shiftRight_zero]
  omega

theorem bootError_bootFail {s : State} {e : Nat} (hnone : bootError s = 0) (he : e < 16) : bootError (bootFail s e) = e := by
  unfold bootFail
  rw [if_neg (not_not.mpr hnone)]
  unfold bootError bits at *
  rw [rd_logEv (awayFromBbx_wrdReg (by decide)), rd_wr_same, fld, Nat.shiftLeft_eq]
  rw [Nat.shiftRight_eq_div_pow] at *
  omega

theorem bootFail_shape (s : State) (e : Nat) : ∃ r b, bootFail s e = { s with regs := r, bbx := b } := by
  unfold bootFail
  split
  · exact ⟨s.regs, s.bbx, rfl⟩
  · obtain ⟨b, r, h⟩ := logEv_shape (wr s (wrdReg 0x40) (rd s (wrdReg 0x40) + fld 4 4 e)) 2 4 0xFF
      (rd (wr s (wrdReg 0x40) (rd s (wrdReg 0x40) + fld 4 4 e)) (wrdReg 0x40)) (s.sup.step0 + fld 8 8 s.sup.step1) true
    exact ⟨r, b, h⟩

theorem rd_bootFail_ne {s : State} {e a : Nat} (ha : a ≠ wrdReg 0x40) (h : awayFromBbx a) : rd (bootFail s e) a = rd s a := by
  unfold bootFail
  split
  · rfl
  · rw [rd_logEv h, rd_wr_ne _ _ _ _ ha]

/-! ### Stage 1 (R469, R477, R479) -/

/-- Extending any measurement but M2 changes the warden's records alone. -/
theorem extend_shape (s : State) {j : Nat} (hj : j ≠ 2) (x : Nat) : ∃ c, extend s j x = { s with sec := c } := by
  unfold extend extendMeas
  rw [if_neg hj]
  split <;> exact ⟨_, rfl⟩

theorem finishIntent_shape (s : State) : ∃ c, finishIntent s = { s with sec := c } := by
  unfold finishIntent
  split <;> exact ⟨_, rfl⟩

/-- The warden resumes from its records, and nothing of the boot is known yet. -/
def resumed (s : State) : State :=
  modSec (wr (finishIntent s) (wrdReg 0x40) 0) (fun x => { x with idNext := x.idRes, seqMax := x.seqRes - 1 })

theorem resumed_shape (s : State) : ∃ r c, resumed s = { s with regs := r, sec := c } := by
  obtain ⟨c, h⟩ := finishIntent_shape s
  unfold resumed
  rw [h]
  exact ⟨_, _, rfl⟩

theorem rd_resumed (s : State) (a : Nat) : rd (resumed s) a = if a = wrdReg 0x40 then 0 else rd s a := by
  obtain ⟨c, h⟩ := finishIntent_shape s
  show rd (wr (finishIntent s) (wrdReg 0x40) 0) a = _
  rw [h]
  exact rd_wr _ _ _ _

theorem stage1_cases (s : State) : stage1 s = bootFail (resumed s) 1 ∨
    ∃ i, stage1 s = extend (setStage (setSlot (resumed s) 1 i) 1) 0 (imageMeasure (resumed s) 1 i) := by
  have hslots : stage1 s = match validSlots (resumed s) 1 with
    | [] => bootFail (resumed s) 1
    | i :: _ => extend (setStage (setSlot (resumed s) 1 i) 1) 0 (imageMeasure (resumed s) 1 i) := rfl
  rw [hslots]
  cases validSlots (resumed s) 1 with
  | nil => exact .inl rfl
  | cons i l => exact .inr ⟨i, rfl⟩

theorem setStage_setSlot_shape (s : State) (t i n : Nat) :
    ∃ r c, setStage (setSlot s t i) n = { s with regs := r, sec := c } := ⟨_, _, rfl⟩

theorem rd_setStage_setSlot_ne {s : State} {t i n a : Nat} (ha : a ≠ wrdReg 0x40) :
    rd (setStage (setSlot s t i) n) a = rd s a := by
  unfold setStage
  rw [rd_wr_ne _ _ _ _ ha]
  exact rd_wr_ne _ _ _ _ ha

theorem stage1_shape (s : State) : ∃ r b c, stage1 s = { s with regs := r, bbx := b, sec := c } := by
  obtain ⟨r, c, hresumed⟩ := resumed_shape s
  obtain h | ⟨i, h⟩ := stage1_cases s
  · obtain ⟨r', b, hfail⟩ := bootFail_shape (resumed s) 1
    rw [h, hfail, hresumed]
    exact ⟨r', b, c, rfl⟩
  · obtain ⟨c', hextend⟩ := extend_shape (setStage (setSlot (resumed s) 1 i) 1) (j := 0) (by decide)
      (imageMeasure (resumed s) 1 i)
    obtain ⟨r', c'', hrunning⟩ := setStage_setSlot_shape (resumed s) 1 i 1
    rw [h, hextend, hrunning, hresumed]
    exact ⟨r', s.bbx, c', rfl⟩

theorem rd_stage1_ne {s : State} {a : Nat} (ha : a ≠ wrdReg 0x40) (hbbx : awayFromBbx a) : rd (stage1 s) a = rd s a := by
  obtain h | ⟨i, h⟩ := stage1_cases s
  · rw [h, rd_bootFail_ne ha hbbx, rd_resumed, if_neg ha]
  · obtain ⟨c, hextend⟩ := extend_shape (setStage (setSlot (resumed s) 1 i) 1) (j := 0) (by decide)
      (imageMeasure (resumed s) 1 i)
    rw [h, hextend]
    show rd (setStage (setSlot (resumed s) 1 i) 1) a = _
    rw [rd_setStage_setSlot_ne ha, rd_resumed, if_neg ha]

theorem romDone_stage1 (s : State) : romDone (stage1 s) := by
  obtain h | ⟨i, h⟩ := stage1_cases s
  · refine .inr ?_
    rw [h]
    refine bootError_bootFail ?_ (by decide)
    unfold bootError
    rw [rd_resumed, if_pos rfl]
    rfl
  · refine .inl ?_
    obtain ⟨c, hextend⟩ := extend_shape (setStage (setSlot (resumed s) 1 i) 1) (j := 0) (by decide)
      (imageMeasure (resumed s) 1 i)
    rw [h, hextend]
    show bootStage (setStage (setSlot (resumed s) 1 i) 1) = 1
    exact bootStage_setStage _ (by decide)

/-! ### Cold module resets (R417, R501, R510–R512) -/

/-- With power off, only flash, fuses and what the model keeps of the outside are as they were. -/
theorem cutFlash_shape (s : State) : ∃ x c, cutFlash s = { s with freeCtr := x, sec := c } ∧ c.fuses = s.sec.fuses := by
  unfold cutFlash
  split
  · split
    · exact ⟨_, _, rfl, rfl⟩
    · exact ⟨_, _, rfl, rfl⟩
  · exact ⟨_, _, rfl, rfl⟩

theorem tget_filter_none {α : Type} (d : α) (t : Tbl α) (k : Nat) (keep : Nat × α → Bool) (h : ∀ v, keep (k, v) = false) :
    tget d (t.filter keep) k = d := by
  induction t with
  | nil => rfl
  | cons e t ih =>
    obtain ⟨j, v⟩ := e
    by_cases hkeep : keep (j, v) = true
    · have hne : k ≠ j := by
        rintro rfl
        exact Bool.false_ne_true ((h v).symm.trans hkeep)
      rw [List.filter_cons_of_pos hkeep, tget, if_neg (Ne.symm hne)]
      split
      · rfl
      · exact ih
    · rw [List.filter_cons_of_neg hkeep, ih]

/-- What a cold reset leaves: the standby supply and the black box. -/
def coldBase (s : State) : State :=
  { bareState s with
    colds := s.colds + 1
    bbx := s.bbx
    regs := s.regs.filter (fun e => decide (bbxReg 0 ≤ e.1 ∧ e.1 < bbxReg 0x100000))
    sup := { (bareState s).sup with standby := true } }

/-- The module after a cold reset, before the warden's ROM runs. -/
def coldStart (s : State) (cause : Nat) : State := noteModReset (coldBase s) 2 cause

theorem coldReset_eq (s : State) (cause : Nat) : coldReset s cause =
    if (coldStart s cause).sup.modReset then coldStart s cause else stage1 (coldStart s cause) := rfl

theorem noteModReset_shape (s : State) (last cause : Nat) : ∃ r b, noteModReset s last cause = { s with regs := r, bbx := b } := by
  obtain ⟨b, r, h⟩ := logEv_shape (wr s (wrdReg 0x40C) (last + fld 2 4 cause)) 2 5 0xFF (last + fld 2 4 cause) 0
    (cause == 2 || cause == 3)
  exact ⟨r, b, h⟩

theorem rd_noteModReset (s : State) (last cause : Nat) {a : Nat} (h : awayFromBbx a) :
    rd (noteModReset s last cause) a = if a = wrdReg 0x40C then last + fld 2 4 cause else rd s a := by
  unfold noteModReset
  rw [rd_logEv h, rd_wr]

/-- A cold reset passes over the module, held before stage 1 or not. -/
theorem coldPast_coldStart (s : State) {cause : Nat} (h : cause < 16) : coldPast s (coldStart s cause) cause := by
  obtain ⟨x, c, hcut, hfuses⟩ := cutFlash_shape s
  obtain ⟨r, b, hnote⟩ := noteModReset_shape (coldBase s) 2 cause
  have hstatus : rd (coldStart s cause) (wrdReg 0x40C) = 2 + 4 * cause := by
    unfold coldStart
    rw [rd_noteModReset _ _ _ (awayFromBbx_wrdReg (by decide)), if_pos rfl, fld, Nat.shiftLeft_eq]
    omega
  have hrise (k : Nat) : rollbackOf s k ≤ rollbackOf (coldStart s cause) k :=
    ((bareState_advances s).2 k).trans ((Keeps.advances (noteModReset_keeps (coldBase s) 2 cause)).2 k)
  have hstart : coldStart s cause = _ := hnote
  have hout : (coldStart s cause).out = s.out := by
    rw [hstart]
    show (cutFlash s).out = s.out
    rw [hcut]
  unfold coldPast
  refine ⟨?_, ?_, ?_, ?_, ?_, ?_, ?_, ?_, ?_, ?_, ?_, ?_, hout, ?_, ?_, ?_, hstatus, hrise⟩ <;> rw [hstart] <;> rfl

/-- Stage 1 leaves a cold reset as it is. -/
theorem coldPast_stage1 {s u : State} {cause : Nat} (h : coldPast s u cause) : coldPast s (stage1 u) cause := by
  obtain ⟨h1, h2, h3, h4, h5, h6, h7, h8, h9, h10, h11, h12, h13, h14, h15, h16, hstatus, hrise⟩ := h
  have hread : rd (stage1 u) (wrdReg 0x40C) = rd u (wrdReg 0x40C) :=
    rd_stage1_ne (by decide) (awayFromBbx_wrdReg (by decide))
  have hup := (stage1_advances u).2
  obtain ⟨r, b, c, hstage⟩ := stage1_shape u
  refine ⟨?_, ?_, ?_, ?_, ?_, ?_, ?_, ?_, ?_, ?_, ?_, ?_, ?_, ?_, ?_, ?_, hread.trans hstatus, fun k => (hrise k).trans (hup k)⟩ <;>
    rw [hstage] <;> assumption

theorem modReset_coldStart (s : State) (cause : Nat) : (coldStart s cause).sup.modReset = s.sup.modReset := by
  obtain ⟨r, b, hnote⟩ := noteModReset_shape (coldBase s) 2 cause
  obtain ⟨x, c, hcut, -⟩ := cutFlash_shape s
  unfold coldStart
  rw [hnote]
  show (cutFlash s).sup.modReset = _
  rw [hcut]

/-- The warden stands at the start of stage 1. -/
theorem bootStage_coldStart (s : State) (cause : Nat) : bootStage (coldStart s cause) = 0 := by
  have hdropped : decide (bbxReg 0 ≤ wrdReg 0x40 ∧ wrdReg 0x40 < bbxReg 0x100000) = false := by decide
  have hbase : rd (coldBase s) (wrdReg 0x40) = 0 := tget_filter_none _ _ _ _ fun _ => hdropped
  unfold bootStage coldStart
  rw [rd_noteModReset _ _ _ (awayFromBbx_wrdReg (by decide)), if_neg (by decide), hbase]
  rfl

/-- A cold reset that MOD_RESET# does not hold runs the warden's ROM. -/
theorem coldReset_runs {s : State} {cause : Nat} (hcause : cause < 16) (hfree : s.sup.modReset = false) :
    coldPast s (coldReset s cause) cause ∧ romDone (coldReset s cause) := by
  rw [coldReset_eq, modReset_coldStart, hfree, if_neg Bool.false_ne_true]
  exact ⟨coldPast_stage1 (coldPast_coldStart s hcause), romDone_stage1 _⟩

/-- MOD_RESET# holds the module at the start of stage 1. -/
theorem coldReset_held {s : State} (cause : Nat) (hheld : s.sup.modReset = true) : coldReset s cause = coldStart s cause := by
  rw [coldReset_eq, modReset_coldStart, hheld, if_pos rfl]

theorem bareState_frame (s : State) : (bareState s).sec.fuses = s.sec.fuses ∧ (bareState s).journal = s.journal := by
  obtain ⟨x, c, hcut, hfuses⟩ := cutFlash_shape s
  constructor
  · show (cutFlash s).sec.fuses = _
    rw [hcut, hfuses]
  · show (cutFlash s).journal = _
    rw [hcut]

end Sys2Proof.Machine
end

section
/-! The statement about the module's pins and supplies (21_electrical_package.md). -/

open Sys2Proof Sys2Proof.Machine

/-- Settles O45: a cold reset, with MOD_RESET# high or low, then the ROM. That memory and scratchpads read 0 after it rests on
assumptions 2, 83 and 85. -/
theorem pinsAndSuppliesResetTheModule : Obligations.PinsAndSuppliesResetTheModule := by
  refine fun s => ⟨fun hstandby hfree => ⟨?_, ?_, ?_⟩, fun hstandby hheld => ?_, fun hstandby => ?_⟩
  · exact ⟨coldReset s 0, congrArg Host.Outcome.next (if_pos hstandby), coldReset_runs (by decide) hfree⟩
  · exact ⟨coldReset s 0, congrArg Host.Outcome.next (if_pos hstandby), coldReset_runs (by decide) hfree⟩
  · refine ⟨coldStart { s with sup := { s.sup with modReset := true } } 4, ?_, coldPast_coldStart _ (by decide),
      modReset_coldStart _ _, bootStage_coldStart _ _⟩
    have hasserted : exec .modResetAsserted s = .next (coldBy { s with sup := { s.sup with modReset := true } } 4) :=
      congrArg Host.Outcome.next (if_neg (ne_true_of_eq_false hfree))
    rw [hasserted, coldBy, if_pos hstandby, coldReset_held 4 rfl]
  · obtain ⟨r, b, c, hstage⟩ := stage1_shape { s with sup := { s.sup with modReset := false } }
    refine ⟨stage1 { s with sup := { s.sup with modReset := false } },
      congrArg Host.Outcome.next ((if_pos hheld).trans (if_pos hstandby)), ?_, ?_, romDone_stage1 _, ?_⟩
    · rw [hstage]
    · rw [hstage]
      exact hstandby
    · rw [hstage]
  · obtain ⟨hfuses, hjournal⟩ := bareState_frame s
    exact ⟨bareState s, congrArg Host.Outcome.next (if_pos hstandby), rfl, rfl, rfl, rfl, rfl, rfl, hfuses, hjournal⟩
end

section
/-! SUPPORT. Power domains: which comes next, what one that is on brings about, and what a write of WRD_DIE_POWER starts (R459,
R515–R517). -/

namespace Sys2Proof.Machine

open Sys2Proof

/-! ### Domains -/

theorem domOf_setDom_same (s : State) (k : Fin 3) (x : Domain) : domOf (setDom s k x) k = x := by
  fin_cases k <;> rfl

theorem domOf_setDom_ne (s : State) {k j : Fin 3} (h : j ≠ k) (x : Domain) : domOf (setDom s k x) j = domOf s j := by
  match k, j with
  | 0, 1 | 0, 2 | 1, 0 | 1, 2 | 2, 0 | 2, 1 => rfl
  | 0, 0 | 1, 1 | 2, 2 => exact absurd rfl h

/-- A domain's state stands beside the queues and what has been read of the dies. -/
theorem setDom_frame (s : State) (k : Nat) (x : Domain) :
    (setDom s k x).sup.upQ = s.sup.upQ ∧ (setDom s k x).sup.downQ = s.sup.downQ ∧ (setDom s k x).sup.inReset = s.sup.inReset ∧
    (setDom s k x).sup.step0 = s.sup.step0 ∧ (setDom s k x).sup.step1 = s.sup.step1 ∧ (setDom s k x).regs = s.regs ∧
    (setDom s k x).mem = s.mem ∧ (setDom s k x).dieDown = s.dieDown ∧ (setDom s k x).modLock = s.modLock := by
  unfold setDom
  split <;> exact ⟨rfl, rfl, rfl, rfl, rfl, rfl, rfl, rfl, rfl⟩

theorem powering_of_dom {s : State} (k : Fin 3) (h : (domOf s k).st = 1) : powering s = true := by
  unfold powering
  fin_cases k <;> simp_all [domOf]

/-- A sequence that goes on does nothing else. -/
theorem sequenceEnded_powering {s : State} (h : powering s = true) : sequenceEnded s = s := if_pos h

theorem nextDomain_up {s : State} {k : Nat} {l : List Nat} (hdown : s.sup.downQ = []) (hup : s.sup.upQ = k :: l) :
    nextDomain s = setDom s k { st := 1, rails := 0 } := by
  unfold nextDomain
  rw [hdown, hup]

theorem nextDomain_down {s : State} {k : Nat} {l : List Nat} (hdown : s.sup.downQ = k :: l) :
    nextDomain s = setDom s k { domOf s k with st := 1 } := by
  unfold nextDomain
  rw [hdown]

/-- The next domain of the order starts, and the sequence goes on. -/
theorem sequenceEnded_nextDomain_up {s : State} {k : Fin 3} {l : List Nat} (hdown : s.sup.downQ = [])
    (hup : s.sup.upQ = k.val :: l) : sequenceEnded (nextDomain s) = setDom s k { st := 1, rails := 0 } := by
  rw [nextDomain_up hdown hup]
  exact sequenceEnded_powering (powering_of_dom k (by rw [domOf_setDom_same]))

theorem sequenceEnded_nextDomain_down {s : State} {k : Fin 3} {l : List Nat} (hdown : s.sup.downQ = k.val :: l) :
    sequenceEnded (nextDomain s) = setDom s k { domOf s k with st := 1 } := by
  rw [nextDomain_down hdown]
  exact sequenceEnded_powering (powering_of_dom k (by rw [domOf_setDom_same]))

/-! ### Domains that come on, are late, or go off (R515, R517) -/

section
variable {s : State} {k j : Fin 3} {l : List Nat}

theorem rising_head (hdown : s.sup.downQ = []) (hup : s.sup.upQ = k.val :: l) (hst : (domOf s k).st = 1) :
    rising s k = true := by
  unfold rising
  rw [hdown, hup, hst]
  simp

theorem railGood_counts (hrising : rising s k = true) (hmore : (domOf s k).rails < railsOf k) :
    railGood s k = setDom s k { (domOf s k) with rails := (domOf s k).rails + 1 } := by
  unfold railGood
  rw [if_pos hrising, Nat.min_eq_right hmore]

theorem apcEvent_shape (s : State) (m : Nat) : ∃ r, apcEvent s m = { s with regs := r } := by
  unfold apcEvent
  split
  · exact ⟨s.regs, rfl⟩
  · exact ⟨_, rfl⟩

theorem rd_apcEvent_ne (s : State) (m : Nat) {a : Nat} (h : a ≠ apcReg 8) : rd (apcEvent s m) a = rd s a := by
  unfold apcEvent
  split
  · rfl
  · exact rd_setBits_ne _ _ _ _ h

theorem not_contains_filter_ne (l : List Nat) (x : Nat) : (l.filter (· != x)).contains x = false := by
  simp

/-- A die that comes on before stage 4 is held in reset, with its stepping read and its link domain on. -/
def dieHeld (s : State) (k x : Nat) : State :=
  apcEvent (holdDie { s with
    dieDown := s.dieDown.filter (· != 3 + k)
    sup := if k = 0 then { s.sup with step0 := x } else { s.sup with step1 := x } } k) 1

theorem dieHeld_frame (s : State) {k : Nat} (hk : k < 2) (x : Nat) :
    (dieHeld s k x).sup.upQ = s.sup.upQ ∧ (dieHeld s k x).sup.downQ = s.sup.downQ ∧
    (∀ i, domOf (dieHeld s k x) i = domOf s i) ∧ (dieHeld s k x).mem = s.mem ∧
    (dieHeld s k x).dieDown.contains (3 + k) = false ∧ (dieHeld s k x).sup.inReset.contains k = true ∧
    steppingOf (dieHeld s k x) k = x := by
  obtain ⟨r, h⟩ := apcEvent_shape (holdDie { s with
    dieDown := s.dieDown.filter (· != 3 + k)
    sup := if k = 0 then { s.sup with step0 := x } else { s.sup with step1 := x } } k) 1
  unfold dieHeld
  rw [h]
  have hheld : (if s.sup.inReset.contains k then s.sup.inReset else k :: s.sup.inReset).contains k = true := by
    split
    · assumption
    · simp
  obtain rfl | rfl : k = 0 ∨ k = 1 := by omega
  · exact ⟨rfl, rfl, fun _ => rfl, rfl, not_contains_filter_ne _ _, hheld, rfl⟩
  · exact ⟨rfl, rfl, fun _ => rfl, rfl, not_contains_filter_ne _ _, hheld, rfl⟩

theorem bootStage_dieHeld (s : State) (k x : Nat) : bootStage (dieHeld s k x) = bootStage s := by
  unfold bootStage dieHeld
  rw [rd_apcEvent_ne _ _ (by decide)]
  rfl

theorem domainOn_die {s : State} {k : Nat} (hk : k < 2) (x : Nat) (hstage : bootStage s < 4) :
    domainOn s k x = dieHeld s k x := by
  unfold domainOn
  rw [if_neg (by omega)]
  refine if_neg ?_
  rintro ⟨h, -⟩
  have hsame : bootStage (dieHeld s k x) = bootStage s := bootStage_dieHeld s k x
  exact absurd h (by change ¬ 4 ≤ bootStage (dieHeld s k x); omega)

theorem domainOn_module {s : State} (x : Nat) (hlock : s.modLock = false) :
    domainOn s 2 x = { s with dieDown := s.dieDown.filter (· != 2) } := by
  unfold domainOn
  rw [if_pos rfl]
  exact if_neg (ne_true_of_eq_false hlock)

/-- A domain that comes on before stage 4 leaves the sequence where it is. -/
theorem domainOn_early {s : State} (k : Fin 3) (x : Nat) (hlock : s.modLock = false) (hstage : bootStage s < 4) :
    (domainOn s k x).sup.upQ = s.sup.upQ ∧ (domainOn s k x).sup.downQ = s.sup.downQ ∧
    (∀ i, domOf (domainOn s k x) i = domOf s i) ∧ (domainOn s k x).mem = s.mem ∧
    (domainOn s k x).dieDown.contains (if k.val = 2 then 2 else 3 + k.val) = false ∧
    (k.val < 2 → (domainOn s k x).sup.inReset.contains k.val = true ∧ steppingOf (domainOn s k x) k = x) := by
  by_cases hk : k.val < 2
  · obtain ⟨hup, hdown, hdom, hmem, hlinked, hheld, hstep⟩ := dieHeld_frame s hk x
    rw [domainOn_die hk x hstage, if_neg (by omega)]
    exact ⟨hup, hdown, hdom, hmem, hlinked, fun _ => ⟨hheld, hstep⟩⟩
  · have hmod : k.val = 2 := by omega
    rw [hmod, domainOn_module x hlock, if_pos rfl]
    exact ⟨rfl, rfl, fun _ => rfl, rfl, not_contains_filter_ne _ _, fun h => absurd h (by decide)⟩

/-- The order of the queue without its front, and domain `k` in state `x`. -/
def passed (s : State) (k : Nat) (x : Domain) : State :=
  setDom { s with sup := { s.sup with upQ := s.sup.upQ.drop 1 } } k x

theorem domainUp_next (hdown : s.sup.downQ = []) (hup : s.sup.upQ = k.val :: j.val :: l) (hst : (domOf s k).st = 1)
    (hrails : (domOf s k).rails = railsOf k) (hlock : s.modLock = false) (hstage : bootStage s < 4) (x : Nat) :
    domainUp s k x = setDom (domainOn (passed s k { domOf s k with st := 2 }) k x) j { st := 1, rails := 0 } := by
  obtain ⟨hupQ, hdownQ, -, -, -, -, -, -, hmodLock⟩ :=
    setDom_frame { s with sup := { s.sup with upQ := s.sup.upQ.drop 1 } } k { domOf s k with st := 2 }
  have hregs : bootStage (passed s k { domOf s k with st := 2 }) = bootStage s := by
    unfold bootStage rd passed
    rw [(setDom_frame _ _ _).2.2.2.2.2.1]
  obtain ⟨hnext, hnone, -⟩ := domainOn_early (s := passed s k { domOf s k with st := 2 }) k x
    (hmodLock.trans hlock) (hregs ▸ hstage)
  unfold domainUp
  rw [if_pos (by rw [rising_head hdown hup hst, hrails]; simp)]
  refine sequenceEnded_nextDomain_up (l := l) (hnone.trans (hdownQ.trans hdown)) (hnext.trans (hupQ.trans ?_))
  rw [hup]
  rfl

theorem steppingOf_setDom (s : State) (i d : Nat) (x : Domain) : steppingOf (setDom s i x) d = steppingOf s d := by
  obtain ⟨-, -, -, h0, h1, -⟩ := setDom_frame s i x
  unfold steppingOf
  rw [h0, h1]

/-- The domain is on, a die of it held in reset, and the next one starts. -/
theorem domainUp_spec (hne : j ≠ k) (hdown : s.sup.downQ = []) (hup : s.sup.upQ = k.val :: j.val :: l)
    (hst : (domOf s k).st = 1) (hrails : (domOf s k).rails = railsOf k) (hlock : s.modLock = false)
    (hstage : bootStage s < 4) (x : Nat) :
    (domOf (domainUp s k x) k).st = 2 ∧ domOf (domainUp s k x) j = { st := 1, rails := 0 } ∧
    (domainUp s k x).sup.upQ = j.val :: l ∧
    (domainUp s k x).dieDown.contains (if k.val = 2 then 2 else 3 + k.val) = false ∧
    (k.val < 2 → (domainUp s k x).sup.inReset.contains k.val = true ∧ steppingOf (domainUp s k x) k = x) ∧
    (domainUp s k x).mem = s.mem := by
  obtain ⟨hupQ, -, -, -, -, hregs, hmem, -, hmodLock⟩ :=
    setDom_frame { s with sup := { s.sup with upQ := s.sup.upQ.drop 1 } } k { domOf s k with st := 2 }
  have hearly : bootStage (passed s k { domOf s k with st := 2 }) < 4 := by
    unfold bootStage rd passed at *
    rw [hregs]
    exact hstage
  obtain ⟨hnext, -, hdom, hkeep, hlinked, hheld⟩ :=
    domainOn_early (s := passed s k { domOf s k with st := 2 }) k x (hmodLock.trans hlock) hearly
  rw [domainUp_next hdown hup hst hrails hlock hstage]
  obtain ⟨hupQ', -, hin, -, -, -, hmem', hdie, -⟩ :=
    setDom_frame (domainOn (passed s k { domOf s k with st := 2 }) k x) j { st := 1, rails := 0 }
  refine ⟨?_, domOf_setDom_same _ j _, ?_, ?_, fun hk => ?_, hmem'.trans (hkeep.trans hmem)⟩
  · rw [domOf_setDom_ne _ (Ne.symm hne), hdom, passed, domOf_setDom_same]
  · rw [hupQ', hnext]
    refine hupQ.trans ?_
    rw [hup]
    rfl
  · rw [hdie]
    exact hlinked
  · rw [hin, steppingOf_setDom]
    exact hheld hk

theorem railTimeout_next (hdown : s.sup.downQ = []) (hup : s.sup.upQ = k.val :: j.val :: l) (hst : (domOf s k).st = 1)
    (hlate : (domOf s k).rails < railsOf k) :
    railTimeout s k = setDom (passed s k { st := 3 }) j { st := 1, rails := 0 } := by
  obtain ⟨hupQ, hdownQ, -⟩ := setDom_frame { s with sup := { s.sup with upQ := s.sup.upQ.drop 1 } } k { st := 3 }
  unfold railTimeout
  rw [if_pos (by rw [rising_head hdown hup hst]; simpa using hlate)]
  refine sequenceEnded_nextDomain_up (l := l) (hdownQ.trans hdown) (hupQ.trans ?_)
  rw [hup]
  rfl

theorem domainOff_next (hdown : s.sup.downQ = k.val :: j.val :: l) :
    domainOff s k = setDom (setDom { s with sup := { s.sup with downQ := j.val :: l } } k {}) j
      { domOf (setDom { s with sup := { s.sup with downQ := j.val :: l } } k {}) j with st := 1 } := by
  obtain ⟨-, hdownQ, -⟩ := setDom_frame { s with sup := { s.sup with downQ := j.val :: l } } k {}
  unfold domainOff
  rw [if_pos (by rw [hdown]; rfl), hdown]
  exact sequenceEnded_nextDomain_down hdownQ

end

/-! ### WRD_DIE_POWER and stage 2 (R459, R469, R517) -/

/-- The domains that a write of `v` over `old` powers down, and up. -/
def goDown (s : State) (old v : Nat) : List Nat := [1, 0, 2].filter (fun d => bit old d && !bit v d && (domOf s d).st == 2)
def goUp (old v : Nat) : List Nat := [2, 0, 1].filter (fun d => bit v d && !bit old d)

/-- The word stored, and the domains to be cut cut. -/
def cutDomains (s : State) (old v : Nat) : State :=
  (goDown s old v).foldl (fun s d => if d = 2 then cutModule s else cutDie s d) (wr s (wrdReg 0x2C) v)

theorem applyPower_starts {s : State} {v : Nat} (h : bit v 2 = true) :
    applyPower s v = nextDomain { cutDomains s (rd s (wrdReg 0x2C) % 8) (v % 8) with
      sup := { (cutDomains s (rd s (wrdReg 0x2C) % 8) (v % 8)).sup with
        downQ := goDown s (rd s (wrdReg 0x2C) % 8) (v % 8)
        upQ := goUp (rd s (wrdReg 0x2C) % 8) (v % 8) } } := by
  have hkept : bit (v % 8) 2 = true := by
    unfold bit at *
    rw [show 8 = 2 ^ 3 from rfl, Nat.testBit_mod_two_pow, h]
    rfl
  unfold applyPower
  dsimp only
  rw [hkept]
  exact if_neg (by simp)

/-- The next domain's start changes domains alone. -/
theorem nextDomain_frame (s : State) :
    (nextDomain s).sup.upQ = s.sup.upQ ∧ (nextDomain s).sup.downQ = s.sup.downQ ∧ (nextDomain s).regs = s.regs ∧
    (nextDomain s).mem = s.mem := by
  have hdom (d : Nat) (x : Domain) : (setDom s d x).sup.upQ = s.sup.upQ ∧ (setDom s d x).sup.downQ = s.sup.downQ ∧
      (setDom s d x).regs = s.regs ∧ (setDom s d x).mem = s.mem := by
    obtain ⟨h1, h2, -, -, -, h3, h4, -⟩ := setDom_frame s d x
    exact ⟨h1, h2, h3, h4⟩
  unfold nextDomain
  split
  · exact hdom _ _
  · split
    · exact hdom _ _
    · exact ⟨rfl, rfl, rfl, rfl⟩

/-- A write that clears no domain's bit powers none down. -/
theorem goDown_nil {s : State} {old v : Nat} (h : old &&& v = old) : goDown s old v = [] := by
  unfold goDown
  rw [List.filter_eq_nil_iff]
  intro d _ hcut
  simp only [Bool.and_eq_true, Bool.not_eq_true'] at hcut
  have hboth := congrArg (bit · d) h
  unfold bit at *
  rw [Nat.testBit_and, hcut.1.1, hcut.1.2] at hboth
  exact Bool.false_ne_true hboth

theorem powerWrite_held {s : State} {v : Nat} (h : powering s = true) :
    powerWrite s v = { s with sup := { s.sup with held := some (v % 8) } } := if_pos h

theorem powerWrite_applied {s : State} {v : Nat} (h : powering s = false) : powerWrite s v = applyPower s v :=
  if_neg (ne_true_of_eq_false h)

section
variable {s : State} (hstandby : s.sup.standby = true) (hfree : s.sup.modReset = false) (hstage : bootStage s = 1)
  (herror : bootError s = 0) (hidle : s.sup.booting = false)
include hstandby hfree hstage herror hidle

theorem stage2_eq : stage2 s = if s.sec.fuses.owner = 0 then bootFail s 2
    else sequenceEnded (powerWrite { s with sup := { s.sup with booting := true } } 7) := by
  unfold stage2
  rw [hstandby, hfree, hstage, herror, hidle]
  rfl

theorem stage2_powers (howner : s.sec.fuses.owner ≠ 0) (hquiet : powering s = false) (hoff : rd s (wrdReg 0x2C) % 8 = 0) :
    stage2 s = setDom { wr s (wrdReg 0x2C) 7 with
      sup := { s.sup with booting := true, downQ := [], upQ := [2, 0, 1] } } 2 { st := 1, rails := 0 } := by
  have hdown (t : State) : goDown t 0 7 = [] := by simp [goDown, bit]
  have hup : goUp 0 7 = [2, 0, 1] := by decide
  have happly : applyPower { s with sup := { s.sup with booting := true } } 7 =
      setDom { wr s (wrdReg 0x2C) 7 with
        sup := { s.sup with booting := true, downQ := [], upQ := [2, 0, 1] } } 2 { st := 1, rails := 0 } := by
    rw [applyPower_starts (by decide)]
    have hread : rd { s with sup := { s.sup with booting := true } } (wrdReg 0x2C) % 8 = 0 := hoff
    unfold cutDomains
    rw [hread, hdown, hup]
    exact nextDomain_up rfl rfl
  have hpower : powering { s with sup := { s.sup with booting := true } } = false := hquiet
  rw [stage2_eq hstandby hfree hstage herror hidle, if_neg howner, powerWrite_applied hpower, happly]
  exact sequenceEnded_powering (powering_of_dom 2 rfl)

end

end Sys2Proof.Machine
end

section
/-! The statement about power sequences (19_boot_security.md, 21_electrical_package.md). -/

open Sys2Proof Sys2Proof.Machine

/-- Settles O43: the order of domains moves on by its front, and what starts is the next of it. That a sequence counts as such in
state 1, that stage 2 writes 7, and that the next domain starts after one that was late, is assumption 82. -/
theorem powerSequences : Obligations.PowerSequences := by
  refine ⟨fun a s hoff hfree => ?_, fun s hstandby hfree hstage herror hidle hquiet _ hbits => ⟨fun howner => ?_, fun howner => ?_⟩,
    fun r v s hw => ⟨fun hbusy => ?_, fun hquiet hmod => ?_⟩,
    fun k j l s hne hdown hup hst => ⟨fun hmore => ?_, fun hrails hlock hstage x => ?_, fun hlate => ?_⟩,
    fun k j l s hne hdown => ?_, fun s hon happ => ?_⟩
  · obtain ⟨r, b, c, hshape⟩ := stage1_shape { s with sup := { s.sup with standby := true, smb := a.toNat } }
    refine ⟨stage1 { s with sup := { s.sup with standby := true, smb := a.toNat } }, ?_, ?_, ?_, romDone_stage1 _⟩
    · exact congrArg Host.Outcome.next ((if_neg (ne_true_of_eq_false hoff)).trans (if_neg (ne_true_of_eq_false hfree)))
    · rw [hshape]
    · rw [hshape]
  · obtain ⟨r, b, hshape⟩ := bootFail_shape s 2
    refine ⟨bootFail s 2, ?_, bootError_bootFail herror (by decide), ?_⟩
    · exact congrArg Host.Outcome.next ((stage2_eq hstandby hfree hstage herror hidle).trans (if_pos howner))
    · rw [hshape]
  · exact ⟨_, congrArg Host.Outcome.next (stage2_powers hstandby hfree hstage herror hidle howner hquiet hbits),
      rd_wr_same s _ 7, rfl⟩
  · exact congrArg Host.Outcome.next ((hw.gate _).trans (powerWrite_held hbusy))
  · have hstarts : gate s r (wrdReg 0x2C) (fun s => powerWrite s v.toNat) = _ :=
      (hw.gate _).trans ((powerWrite_applied hquiet).trans (applyPower_starts hmod))
    obtain ⟨hupQ, hdownQ, hregs, hmem⟩ := nextDomain_frame
      { cutDomains s (rd s (wrdReg 0x2C) % 8) (v.toNat % 8) with
        sup := { (cutDomains s (rd s (wrdReg 0x2C) % 8) (v.toNat % 8)).sup with
          downQ := goDown s (rd s (wrdReg 0x2C) % 8) (v.toNat % 8)
          upQ := goUp (rd s (wrdReg 0x2C) % 8) (v.toNat % 8) } }
    refine ⟨_, congrArg Host.Outcome.next hstarts, hdownQ, hupQ, fun hkept => ?_⟩
    have hcut : cutDomains s (rd s (wrdReg 0x2C) % 8) (v.toNat % 8) = wr s (wrdReg 0x2C) (v.toNat % 8) := by
      unfold cutDomains
      rw [goDown_nil hkept]
      rfl
    unfold rd at *
    rw [hregs, hmem, hcut]
    exact ⟨rd_wr_same s _ _, rfl⟩
  · exact congrArg Host.Outcome.next (railGood_counts (rising_head hdown hup hst) hmore)
  · exact ⟨_, rfl, domainUp_spec hne hdown hup hst hrails hlock hstage x.toNat⟩
  · obtain ⟨hupQ, -, -, -, -, -, hmem, hdie, -⟩ :=
      setDom_frame { s with sup := { s.sup with upQ := s.sup.upQ.drop 1 } } k { st := 3 }
    obtain ⟨hupQ', -, -, -, -, -, hmem', hdie', -⟩ := setDom_frame (passed s k { st := 3 }) j { st := 1, rails := 0 }
    refine ⟨_, congrArg Host.Outcome.next (railTimeout_next hdown hup hst hlate), ?_, domOf_setDom_same _ j _, ?_,
      hdie'.trans hdie, hmem'.trans hmem⟩
    · rw [domOf_setDom_ne _ (Ne.symm hne), passed, domOf_setDom_same]
    · refine (hupQ'.trans hupQ).trans ?_
      rw [hup]
      rfl
  · obtain ⟨hupQ, hdownQ, -, -, -, -, hmem, -⟩ := setDom_frame { s with sup := { s.sup with downQ := j.val :: l } } k {}
    obtain ⟨hupQ', hdownQ', -, -, -, -, hmem', -⟩ :=
      setDom_frame (setDom { s with sup := { s.sup with downQ := j.val :: l } } k {}) j
        { domOf (setDom { s with sup := { s.sup with downQ := j.val :: l } } k {}) j with st := 1 }
    refine ⟨_, congrArg Host.Outcome.next (domainOff_next hdown), ?_, ?_, hdownQ'.trans hdownQ, hupQ'.trans hupQ,
      hmem'.trans hmem⟩
    · rw [domOf_setDom_ne _ (Ne.symm hne), domOf_setDom_same]
    · rw [domOf_setDom_same, domOf_setDom_ne _ hne]
      fin_cases j <;> rfl
  · exact congrArg Host.Outcome.next (if_pos ⟨hon, happ⟩)
end

section
/-! SUPPORT. The sideband's reads and writes, heartbeats, and the in-charge token (R416, R447, R449–R453, R457). -/

namespace Sys2Proof.Machine

open Sys2Proof

/-! ### Register writes of the management path (R416, R447, R457) -/

/-- The management path writes an always-on register while standby power is present. -/
theorem regWrite_mgmt_alwaysOn {s : State} {o v : Nat} (hstandby : s.sup.standby = true)
    (hwidth : regWidth (wrdReg o) = 32) (halways : isAlwaysOn (wrdReg o) = true) (hmay : mayWrite .mgmt (wrdReg o) = true)
    (hlock : isRwl (wrdReg o) = false) (hcopy : wrdReg o ≠ pwsReg 0 8) :
    regWrite s .mgmt (wrdReg o) 4 v = (regPut s .mgmt (wrdReg o) v, false) := by
  have hreach : canReach s .mgmt (wrdReg o) = true := by
    simp [canReach, reachable, halways, hstandby]
  rw [regWrite_go (regAccess_32 hwidth) hcopy hreach hmay, regStore_whole hlock]

/-- A write of the cap reaches die 0's register, or with die 0 down the warden's copy. -/
theorem regWrite_mgmt_cap (s : State) (v : Nat) :
    (regWrite s .mgmt (pwsReg 0 8) 4 v).1 = wr s (pwsReg 0 8) (clampCap v) := by
  have haccess : regAccess (pwsReg 0 8) 4 = some (pwsReg 0 8, .whole) := regAccess_32 (by decide)
  unfold regWrite
  rw [haccess]
  dsimp only
  cases hup : dieUp s 0 with
  | false =>
    have hcopy : capCopy s .mgmt (pwsReg 0 8) = true := by simp [capCopy, hup]
    rw [if_pos hcopy]
  | true =>
    have hcopy : capCopy s .mgmt (pwsReg 0 8) = false := by simp [capCopy, hup]
    have hdie : dieOfReg (pwsReg 0 8) = 0 := by decide
    have halways : isAlwaysOn (pwsReg 0 8) = false := by decide
    have hmod : isModReg (pwsReg 0 8) = false := by decide
    have hreach : canReach s .mgmt (pwsReg 0 8) = true := by
      simp [canReach, reachable, halways, hmod, hdie, hup]
    have hmay : mayWrite .mgmt (pwsReg 0 8) = true := by decide
    rw [hcopy, hreach, hmay]
    exact regStore_whole (r := .mgmt) (a := pwsReg 0 8) (by decide)

/-! ### The sideband (R457) -/

section
variable {s : State} (hup : wardenUp s = true)
include hup

theorem standby_of_wardenUp : s.sup.standby = true := by
  unfold wardenUp at hup
  exact (Bool.and_eq_true_iff.mp hup).1

theorem exec_smbStatus (hfree : s.sup.modReset = false) : exec .smbStatus s = .next (emit s (.smbus (statusBytes s))) := by
  refine congrArg Host.Outcome.next (if_pos ?_)
  rw [standby_of_wardenUp hup, hfree]
  rfl

theorem exec_smbTemps : exec .smbTemps s = .next (emit s (.smbus (leBytes 2 (dieHottest s 0) ++ leBytes 2 (dieHottest s 1) ++
    leBytes 2 (stackHottest s 0) ++ leBytes 2 (stackHottest s 1)))) := by
  refine congrArg Host.Outcome.next ((if_pos hup).trans ?_)
  simp

theorem exec_aoRead {a : BitVec 32} {u : State} {v : Nat} (ha : a.toNat < 0x300000)
    (hread : regRead s (modBase + a.toNat) 4 = (u, some v)) :
    exec (.aoRead a) s = .next (emit u (.smbus (leBytes 4 v))) := by
  show Host.Outcome.next (aoRead s a.toNat) = _
  unfold aoRead
  rw [if_neg (by simp [hup, ha]), hread]

theorem aoWrite_allowed {a v : Nat} (ha : [0x2C, 0x408, 0x404, 0x18].contains a = true) :
    aoWrite s a v = (regWrite s .mgmt (wrdReg a) 4 v).1 := if_pos (by rw [hup, ha]; rfl)

theorem aoWrite_event (v : Nat) : aoWrite s 0x18 v = clrBits s (wrdReg 0x18) v := by
  rw [aoWrite_allowed hup (by decide), regWrite_mgmt_alwaysOn (standby_of_wardenUp hup) (by decide) (by decide) (by decide)
    (by decide) (by decide)]
  rfl

theorem smbCap_clamps (w : Nat) : smbCap s w = wr s (pwsReg 0 8) (clampCap w) :=
  (if_pos hup).trans (regWrite_mgmt_cap s w)

end

/-! ### The in-charge token (R449–R453) -/

theorem takeToken_shape (s : State) (d : Nat) : ∃ r, takeToken s d = { s with regs := r } := by
  unfold takeToken
  dsimp only
  split
  · obtain ⟨r, hwr⟩ := wr_shape s (wrdReg 0) (fld 32 32 (bits (rd s (wrdReg 0)) 32 32 + 1))
    obtain ⟨r', hset⟩ := setBits_shape { s with regs := r } (wrdReg 0x18) 8
    obtain ⟨r'', hevent⟩ := apcEvent_shape { s with regs := r' } 2
    rw [hwr, hset, hevent]
    exact ⟨r'', rfl⟩
  · exact ⟨s.regs, rfl⟩

/-- The warden takes the token from the die that holds it, and counts the epoch on. -/
theorem rd_takeToken (s : State) (d : Nat) : rd (takeToken s d) (wrdReg 0) =
    if bits (rd s (wrdReg 0)) 0 2 = d + 1 then fld 32 32 (bits (rd s (wrdReg 0)) 32 32 + 1) else rd s (wrdReg 0) := by
  unfold takeToken
  dsimp only
  split
  · rw [rd_apcEvent_ne _ _ (by decide), rd_setBits_ne _ _ _ _ (by decide), rd_wr_same]
  · rfl

/-- Die `d`'s watchdog has expired, and the event is recorded and logged. -/
def silenced (s : State) (d : Nat) : State :=
  logEv (apcEvent (setBits { s with silent := d :: s.silent } (wrdReg 0x18) (2 ^ (1 + d))) 4) 2 0x51 0xFF d 0 false

theorem silenced_shape (s : State) (d : Nat) : ∃ r b, silenced s d = { s with regs := r, bbx := b, silent := d :: s.silent } := by
  obtain ⟨r, hevent⟩ := apcEvent_shape (setBits { s with silent := d :: s.silent } (wrdReg 0x18) (2 ^ (1 + d))) 4
  obtain ⟨b, r', hlog⟩ := logEv_shape (apcEvent (setBits { s with silent := d :: s.silent } (wrdReg 0x18) (2 ^ (1 + d))) 4)
    2 0x51 0xFF d 0 false
  unfold silenced
  rw [hlog, hevent]
  exact ⟨r', b, rfl⟩

theorem rd_silenced (s : State) (d : Nat) : rd (silenced s d) (wrdReg 0) = rd s (wrdReg 0) := by
  unfold silenced
  rw [rd_logEv (awayFromBbx_wrdReg (by decide)), rd_apcEvent_ne _ _ (by decide), rd_setBits_ne _ _ _ _ (by decide)]
  rfl

theorem fwSilent_first {s : State} {d : Nat} (hstandby : s.sup.standby = true) (hfirst : s.silent.contains d = false) :
    fwSilent s d = takeToken (silenced s d) d := by
  refine if_neg ?_
  rw [hstandby, hfirst]
  decide

section
variable {s : State} {d v : Nat}

/-- The compare finds holder and epoch, and the new holder is the die itself or none. -/
def casGood (s : State) (d v : Nat) : Prop :=
  bits v 0 2 = bits (rd s (wrdReg 0)) 0 2 ∧ bits v 32 32 = bits (rd s (wrdReg 0)) 32 32 ∧ (bits v 2 2 = 0 ∨ bits v 2 2 = d + 1)

theorem tokenCas_fails (h : ¬ casGood s d v) :
    tokenCas s d v = wr s (wrdReg (0x10 + 4 * d)) (2 + 4 * bits (rd s (wrdReg 0)) 0 2) := if_neg h

theorem tokenCas_moves (hd : d < 2) (h : casGood s d v) :
    rd (tokenCas s d v) (wrdReg 0) = bits v 2 2 + fld 32 32 (bits (rd s (wrdReg 0)) 32 32 + 1) ∧
    rd (tokenCas s d v) (wrdReg (0x10 + 4 * d)) = 1 + 4 * bits v 2 2 := by
  have hres : wrdReg 0 ≠ wrdReg (0x10 + 4 * d) := by
    unfold wrdReg
    omega
  have hmoved : tokenCas s d v = wr (if bits v 2 2 = bits (rd s (wrdReg 0)) 0 2
      then setBits (wr s (wrdReg 0) (bits v 2 2 + fld 32 32 (bits (rd s (wrdReg 0)) 32 32 + 1))) (wrdReg 0x18) 8
      else apcEvent (setBits (wr s (wrdReg 0) (bits v 2 2 + fld 32 32 (bits (rd s (wrdReg 0)) 32 32 + 1))) (wrdReg 0x18) 8) 2)
      (wrdReg (0x10 + 4 * d)) (1 + 4 * bits v 2 2) := if_pos h
  rw [hmoved]
  refine ⟨?_, rd_wr_same _ _ _⟩
  rw [rd_wr_ne _ _ _ _ hres]
  split
  · rw [rd_setBits_ne _ _ _ _ (by decide), rd_wr_same]
  · rw [rd_apcEvent_ne _ _ (by decide), rd_setBits_ne _ _ _ _ (by decide), rd_wr_same]

theorem conflict_noted {e : Nat} (hup : dieUp s d = true)
    (h : bits (rd s (wrdReg 0)) 0 2 ≠ d + 1 ∨ bits (rd s (wrdReg 0)) 32 32 ≠ e) :
    conflict s d e = logEv (setBits s (wrdReg 0x18) 1) d 0x50 0xFF e (bits (rd s (wrdReg 0)) 32 32) false := by
  refine if_neg ?_
  rw [hup]
  simp only [Bool.not_true, Bool.false_or, Bool.and_eq_true, beq_iff_eq]
  exact fun hboth => h.elim (· hboth.1) (· hboth.2)

end

end Sys2Proof.Machine
end

section
/-! The statements about the sideband and the token (18_cores_management.md) and about phases (16_power_thermal.md). -/

open Sys2Proof Sys2Proof.Machine

/-- Settles O58: the sideband's register writes are the management path's, and the token moves by one compare. That
SMB_POWER's voltage is a free value is assumption 98, and that FW_SILENT acts once a silence is assumption 91. -/
theorem sidebandAndToken : Obligations.SidebandAndToken := by
  refine ⟨fun s hup hfree => ⟨exec_smbStatus hup hfree, exec_smbTemps hup, ?_, fun a u v ha hread => exec_aoRead hup ha hread,
    fun v => ?_, fun a v ha => ?_, fun w => ?_⟩, fun r d v s hw => ?_, fun d s hstandby hfirst => ?_,
    fun d v s hw => ⟨fun hholder hepoch hnew => ?_, fun hno => ?_⟩, fun d e s hup hdiffer => ?_⟩
  · exact congrArg Host.Outcome.next (if_pos hup)
  · exact congrArg Host.Outcome.next (aoWrite_event hup v.toNat)
  · refine congrArg Host.Outcome.next (aoWrite_allowed hup ?_)
    rcases ha with h | h | h <;> rw [h] <;> decide
  · exact congrArg Host.Outcome.next (smbCap_clamps hup w.toNat)
  · exact congrArg Host.Outcome.next (hw.gate _)
  · obtain ⟨r, htoken⟩ := takeToken_shape (silenced s d) d
    obtain ⟨r', b, hsilent⟩ := silenced_shape s d
    refine ⟨takeToken (silenced s d) d, congrArg Host.Outcome.next (fwSilent_first hstandby hfirst), ?_, ?_, ?_, ?_⟩
    · rw [htoken, hsilent]
    · rw [htoken, hsilent]
    · rw [htoken, hsilent]
    · rw [rd_takeToken, rd_silenced]
  · exact ⟨_, congrArg Host.Outcome.next (hw.gate _), tokenCas_moves d.isLt ⟨hholder, hepoch, hnew⟩⟩
  · exact congrArg Host.Outcome.next ((hw.gate _).trans (tokenCas_fails hno))
  · exact congrArg Host.Outcome.next (conflict_noted hup hdiffer)

/-- Settles O17: the launch of PHASE, whose effect leaves the burin to move on. -/
theorem phaseSelects : Obligations.PhaseSelects := by
  intro g n t w s hready hgoes
  have hlaunch : exec (.phase g) s = _ := congrArg Host.Outcome.next (launch_go _ hready rfl)
  refine ⟨fun hlow hphase => ?_, fun hother => ?_⟩
  · rw [hlaunch, if_pos hlow, if_neg (Nat.not_le.mpr hphase)]
    exact congrArg Host.Outcome.next
      (afterLaunch_go hgoes (running_canLaunch ((running_modGen _ _ _ rfl rfl).trans hready.running)) rfl)
  · rw [hlaunch, if_neg hother, afterLaunch_go hgoes (hready.canLaunch t) rfl]
end

section
/-! SUPPORT. Requests at the management port: what a datagram under a valid tag names, and what its row does (R454–R456,
R500). -/

namespace Sys2Proof.Machine

open Sys2Proof

/-! ### Datagrams (R455) -/

@[simp] theorem length_leBytes (n x : Nat) : (leBytes n x).length = n := by
  induction n generalizing x with
  | zero => rfl
  | succ n ih => rw [leBytes, List.length_cons, ih]

/-- A tag is 32 bytes. -/
theorem length_mgmtTag (key : Nat) (m : List Byte) : (mgmtTag key m).length = 32 := length_leBytes _ _

/-- The datagram's fields lie in its header, ahead of the tag. -/
theorem dgNat_append {m : List Byte} (tag : List Byte) {o n : Nat} (h : o + n ≤ m.length) :
    dgNat (m ++ tag) o n = dgNat m o n := by
  unfold dgNat
  rw [List.drop_append_of_le_length (by omega), List.take_append_of_le_length (by rw [List.length_drop]; omega)]

section
variable {s : State} {x : MgmtReq} {m : List Byte} {op : Nat} (h : asks s x m op)
include h

theorem asks.length : x.bytes.length = m.length + 32 := by
  obtain ⟨hbytes, -⟩ := h
  rw [hbytes, List.length_append, length_mgmtTag]

theorem asks.field {o n : Nat} (hfield : o + n ≤ 32) : dgNat x.bytes o n = dgNat m o n := by
  obtain ⟨hbytes, hlong, -⟩ := h
  rw [hbytes, dgNat_append _ (by omega)]

theorem asks.opcode : dgOp x.bytes = op := by
  obtain ⟨-, -, -, -, hop, -⟩ := id h
  exact (h.field (by decide)).trans hop

/-- Header, tag and SEQ are those of an authentic request. -/
theorem asks.request : isRequest x.bytes = true ∧ authentic s x.bytes = true := by
  obtain ⟨hbytes, hlong, hmagic, hversion, -, hseq, -⟩ := id h
  have hlen := h.length
  constructor
  · unfold isRequest
    rw [h.field (by decide), h.field (by decide), hmagic, hversion]
    simp only [beq_self_eq_true, Bool.and_true]
    exact decide_eq_true (by omega)
  · unfold authentic
    rw [h.field (by decide), hlen, Nat.add_sub_cancel, hbytes, List.take_left, List.drop_left]
    simpa using hseq

/-- An authentic request runs, and its SEQ is accepted. -/
theorem asks.runs : mgmtRequest s x = runRequest (takeSeq s (dgNat m 8 8)) x (mgmtKey s) := by
  obtain ⟨hreq, hauth⟩ := h.request
  obtain ⟨-, -, -, -, -, -, hstandby, hfree⟩ := id h
  unfold mgmtRequest
  dsimp only
  rw [hstandby, hfree, hreq, hauth, h.field (by decide)]
  rfl

/-- The row of the request's operation takes it, unless it names a device. -/
theorem asks.row (hdevice : deviceAccess s x.bytes = none) :
    mgmtRow op x s = .next (runRequest (takeSeq s (dgNat m 8 8)) x (mgmtKey s)) := by
  unfold mgmtRow
  rw [h.opcode, if_neg (fun hrow => hrow.1 rfl), hdevice, ← h.runs]

theorem asks.noDevice {w : Nat} (hw : w = if op % 2 = 1 then 4 else 8)
    (hfree : ∀ k < dgNat m 0x18 4 / w, isDevice (dgNat m 0x10 8 + w * k) = false) :
    deviceAccess s x.bytes = none := by
  unfold deviceAccess
  dsimp only
  split
  · rw [h.opcode, ← hw, h.field (by decide), h.field (by decide), List.find?_eq_none]
    simp only [List.mem_map, List.mem_range]
    rintro a ⟨k, hk, rfl⟩
    rw [deviceStop_eq_false (.inl (hfree k hk))]
    exact Bool.false_ne_true
  · rfl

theorem asks.noAccess (hop : op ∉ [1, 2, 3, 4]) : deviceAccess s x.bytes = none := by
  cases hdevice : deviceAccess s x.bytes with
  | none => rfl
  | some a => exact absurd (h.opcode ▸ (deviceAccess_inv hdevice).1) hop

end

/-! ### What a request does (R456) -/

/-- The reply to a request: values, or the status and the index of the access that failed. -/
def answered (s : State) (x : MgmtReq) (key : Nat) (bad : Option Nat) (index : Nat) (p : List Byte) : State :=
  mgmtReply s x key (bad.getD 0) (if bad.isSome then index else 0) (if bad.isSome then [] else p)

section
variable {s t : State} {x : MgmtReq} {key : Nat}

theorem runRequest_read {w : Nat} (hop : (dgOp x.bytes = 1 ∧ w = 4) ∨ (dgOp x.bytes = 2 ∧ w = 8))
    (hok : requestOk t x.bytes = true) {u : State} {v : List Byte} {bad : Option Nat}
    (hreads : mgmtReads (dgNat x.bytes 0x18 4 / w) t (dgNat x.bytes 0x10 8) w [] = (u, v, bad)) :
    runRequest t x key = answered u x key bad (v.length / w) v := by
  unfold runRequest
  dsimp only
  rw [hok]
  rcases hop with ⟨hop, rfl⟩ | ⟨hop, rfl⟩
  all_goals
    simp only [hop, hreads]
    cases bad <;> rfl

theorem runRequest_write {w : Nat} (hop : (dgOp x.bytes = 3 ∧ w = 4) ∨ (dgOp x.bytes = 4 ∧ w = 8))
    (hok : requestOk t x.bytes = true) {u : State} {k : Nat} {bad : Option Nat}
    (hwrites : mgmtWrites (dgNat x.bytes 0x18 4 / w) t (dgNat x.bytes 0x10 8) w
      ((x.bytes.drop 32).take (dgNat x.bytes 0x18 4)) 0 = (u, k, bad)) :
    runRequest t x key = answered u x key bad k [] := by
  unfold runRequest
  dsimp only
  rw [hok]
  rcases hop with ⟨hop, rfl⟩ | ⟨hop, rfl⟩
  all_goals
    simp only [hop, hwrites]
    cases bad <;> rfl

theorem runRequest_bbx (hop : dgOp x.bytes = 0x10) (hok : requestOk t x.bytes = true) :
    runRequest t x key =
      answered t x key none 0 (bbxBytes t (dgNat x.bytes 0x10 8) (dgNat x.bytes 0x18 4 / 32)) := by
  unfold runRequest
  dsimp only
  rw [hok]
  simp only [hop]
  rfl

theorem runRequest_status (hop : dgOp x.bytes = 0x11) (hok : requestOk t x.bytes = true) :
    runRequest t x key = answered t x key none 0 (statusBytes t) := by
  unfold runRequest
  dsimp only
  rw [hok]
  simp only [hop]
  rfl

end

section
variable {s : State} {x : MgmtReq} {m : List Byte} {op w : Nat}

/-- ADDR and LENGTH of a read or write of `w`-byte accesses that name no device. -/
def fitsAccess (m : List Byte) (w : Nat) : Prop :=
  dgNat m 0x10 8 % w = 0 ∧ dgNat m 0x18 4 % w = 0 ∧ w ≤ dgNat m 0x18 4 ∧ dgNat m 0x18 4 ≤ 1024 ∧
    ∀ k < dgNat m 0x18 4 / w, isDevice (dgNat m 0x10 8 + w * k) = false

theorem asks.inLimits (h : asks s x m op) (hfits : fitsAccess m w) : accessOk x.bytes w = true := by
  obtain ⟨haddr, hlen, hmin, hmax, -⟩ := hfits
  unfold accessOk
  dsimp only
  rw [h.field (by decide), h.field (by decide), haddr, hlen]
  simp [hmin, hmax]

theorem asks.readOk (h : asks s x m op) (hop : (op = 1 ∧ w = 4) ∨ (op = 2 ∧ w = 8)) (hup : wardenUp s = true)
    (hfits : fitsAccess m w) (hlen : m.length = 32) (q : Nat) : requestOk (takeSeq s q) x.bytes = true := by
  have hbody : x.bytes.length - 64 = 0 := by rw [h.length, hlen]
  have haccess := h.inLimits hfits
  have hup' : wardenUp (takeSeq s q) = true := hup
  unfold requestOk
  dsimp only
  rw [h.opcode, hbody]
  rcases hop with ⟨rfl, rfl⟩ | ⟨rfl, rfl⟩ <;> simp [hup', haccess]

theorem asks.writeOk (h : asks s x m op) (hop : (op = 3 ∧ w = 4) ∨ (op = 4 ∧ w = 8)) (hup : wardenUp s = true)
    (hfits : fitsAccess m w) (hlen : m.length = 32 + dgNat m 0x18 4) (q : Nat) :
    requestOk (takeSeq s q) x.bytes = true := by
  have hbody : x.bytes.length - 64 = dgNat m 0x18 4 := by rw [h.length]; omega
  have haccess := h.inLimits hfits
  have hup' : wardenUp (takeSeq s q) = true := hup
  unfold requestOk
  dsimp only
  rw [h.opcode, hbody, h.field (by decide)]
  rcases hop with ⟨rfl, rfl⟩ | ⟨rfl, rfl⟩ <;> simp [hup', haccess]

/-- A read makes its accesses in ascending order, and answers what they gave. -/
theorem asks.reads (h : asks s x m op) (hop : (op = 1 ∧ w = 4) ∨ (op = 2 ∧ w = 8)) (hup : wardenUp s = true)
    (hfits : fitsAccess m w) (hlen : m.length = 32) {u : State} {v : List Byte} {bad : Option Nat}
    (hreads : mgmtReads (dgNat m 0x18 4 / w) (takeSeq s (dgNat m 8 8)) (dgNat m 0x10 8) w [] =
      (u, v, bad)) :
    mgmtRow op x s = .next (answered u x (mgmtKey s) bad (v.length / w) v) := by
  have hw : w = if op % 2 = 1 then 4 else 8 := by
    rcases hop with ⟨rfl, rfl⟩ | ⟨rfl, rfl⟩ <;> rfl
  rw [h.row (h.noDevice hw hfits.2.2.2.2)]
  refine congrArg Host.Outcome.next (runRequest_read (w := w) ?_ (h.readOk hop hup hfits hlen _) ?_)
  · rw [h.opcode]
    exact hop
  · rw [h.field (by decide), h.field (by decide), hreads]

/-- A write makes its accesses in ascending order, and answers how far they went. -/
theorem asks.writes (h : asks s x m op) (hop : (op = 3 ∧ w = 4) ∨ (op = 4 ∧ w = 8)) (hup : wardenUp s = true)
    (hfits : fitsAccess m w) (hlen : m.length = 32 + dgNat m 0x18 4) {u : State} {k : Nat} {bad : Option Nat}
    (hwrites : mgmtWrites (dgNat m 0x18 4 / w) (takeSeq s (dgNat m 8 8)) (dgNat m 0x10 8) w
      (m.drop 32) 0 = (u, k, bad)) :
    mgmtRow op x s = .next (answered u x (mgmtKey s) bad k []) := by
  have hw : w = if op % 2 = 1 then 4 else 8 := by
    rcases hop with ⟨rfl, rfl⟩ | ⟨rfl, rfl⟩ <;> rfl
  have hpayload : (x.bytes.drop 32).take (dgNat m 0x18 4) = m.drop 32 := by
    obtain ⟨hbytes, hlong, -⟩ := id h
    rw [hbytes, List.drop_append_of_le_length hlong, List.take_left' (by rw [List.length_drop]; omega)]
  rw [h.row (h.noDevice hw hfits.2.2.2.2)]
  refine congrArg Host.Outcome.next (runRequest_write (w := w) ?_ (h.writeOk hop hup hfits hlen _) ?_)
  · rw [h.opcode]
    exact hop
  · rw [h.field (by decide), h.field (by decide), hpayload, hwrites]

/-- BBX_READ answers entries of the black box. -/
theorem asks.bbx (h : asks s x m 0x10) (hmod : dgNat m 0x18 4 % 32 = 0) (hmax : dgNat m 0x18 4 ≤ 1024)
    (hend : dgNat m 0x10 8 + dgNat m 0x18 4 / 32 ≤ 8192) (hstart : dgNat m 0x10 8 < 8192) (hlen : m.length = 32) :
    mgmtRow 0x10 x s = .next (answered (takeSeq s (dgNat m 8 8)) x (mgmtKey s) none 0
      (bbxBytes s (dgNat m 0x10 8) (dgNat m 0x18 4 / 32))) := by
  have hbody : x.bytes.length - 64 = 0 := by rw [h.length, hlen]
  have hok : requestOk (takeSeq s (dgNat m 8 8)) x.bytes = true := by
    unfold requestOk
    dsimp only
    rw [h.opcode, hbody, h.field (by decide), h.field (by decide)]
    simp [hmod, hmax, hend, hstart]
  rw [h.row (h.noAccess (by decide)), runRequest_bbx h.opcode hok, h.field (by decide), h.field (by decide)]
  rfl

/-- MGMT_STATUS answers the status bytes. -/
theorem asks.status (h : asks s x m 0x11) (hnone : dgNat m 0x18 4 = 0) (haddr : dgNat m 0x10 8 = 0)
    (hlen : m.length = 32) :
    mgmtRow 0x11 x s = .next (answered (takeSeq s (dgNat m 8 8)) x (mgmtKey s) none 0 (statusBytes s)) := by
  have hbody : x.bytes.length - 64 = 0 := by rw [h.length, hlen]
  have hok : requestOk (takeSeq s (dgNat m 8 8)) x.bytes = true := by
    unfold requestOk
    dsimp only
    rw [h.opcode, hbody, h.field (by decide), h.field (by decide), hnone, haddr]
    rfl
  rw [h.row (h.noAccess (by decide)), runRequest_status h.opcode hok]
  rfl

end

end Sys2Proof.Machine
end

section
/-! The statement about management requests (18_cores_management.md). -/

open Sys2Proof Sys2Proof.Machine

/-- Settles O57: one rule for reads and one for writes, at either width, and one for each of the two rows without an access. The
form of the replies, and that a failing one carries no payload, are assumption 97. -/
theorem managementRequestsAreAnswered : Obligations.ManagementRequestsAreAnswered := by
  intro x m s
  refine ⟨fun h hup hfits hlen u v bad => h.reads (.inl ⟨rfl, rfl⟩) hup hfits hlen,
    fun h hup hfits hlen u v bad => h.reads (.inr ⟨rfl, rfl⟩) hup hfits hlen,
    fun h hup hfits hlen u k bad => h.writes (.inl ⟨rfl, rfl⟩) hup hfits hlen,
    fun h hup hfits hlen u k bad => h.writes (.inr ⟨rfl, rfl⟩) hup hfits hlen,
    fun h hmod hmax hend hstart hlen => h.bbx hmod hmax hend hstart hlen,
    fun h hnone haddr hlen => h.status hnone haddr hlen⟩
end

section
/-! SUPPORT. Ports: training, closing, spares and failures, the module id and the routes (R353–R355, R360, R362, R365, R366,
R375). -/

namespace Sys2Proof.Machine

open Sys2Proof

/-! ### What a port's state is made of -/

theorem not_carries_of_portSt {s : State} {k : Nat} (h : portSt s k = 1) : portCarries s k = false := by
  unfold portCarries
  rw [h]
  rfl

theorem carries_of_portSt {s : State} {k : Nat} (h : portSt s k = 2 ∨ portSt s k = 3) : portCarries s k = true := by
  unfold portCarries
  rcases h with h | h <;> rw [h] <;> rfl

/-! ### Closing a port (R354, R360, R361) -/

/-- A port that holds nothing closes and answers nobody. -/
theorem closePort_empty {s : State} {k st reason : Nat} (h : portAll (port s k) = []) :
    closePort s k st reason = setPortState (emptyPort s k) k st 0 reason 0 := by
  unfold closePort
  rw [h]
  rfl

/-- What this module originated, but for spans and counters' messages, is dropped when its port closes. -/
theorem closePort_own {s : State} {k st reason : Nat} {q : LinkPkt} (h : portAll (port s k) = [q]) (hown : q.arr = none)
    (hspan : q.typ ≠ tSpan) (hsync : q.typ ≠ tSync) :
    closePort s k st reason = dropPacket (setPortState (emptyPort s k) k st 0 reason 0) (k / 8) k q.typ := by
  unfold closePort
  rw [h]
  show (match q.arr with
    | some a => _
    | none => loseOwn (setPortState (emptyPort s k) k st 0 reason 0) k q (pktInDoubt q)) = _
  rw [hown]
  unfold loseOwn
  rw [if_neg hspan, if_neg hsync]

/-! ### Training and DOWN (R353, R354, R434) -/

section
variable {s : State} {k : Nat}

theorem startTraining_valid (h : moduleValid s k = true) : startTraining s k = trains s k := if_pos h

theorem portTrain_starts (hst : portSt s k = 0 ∨ portSt s k = 4) (heth : ethMode s k = false) (hvalid : moduleValid s k = true) :
    portTrain s k = trains s k := by
  unfold portTrain
  rw [if_pos ⟨hst, by rw [heth]; rfl⟩, startTraining_valid hvalid]

theorem portDown_training (hst : portSt s k = 1) (hempty : portAll (port s k) = []) :
    portDown s k = setPortState (emptyPort s k) k 0 0 5 0 := by
  unfold portDown
  rw [if_neg (ne_true_of_eq_false (not_carries_of_portSt hst)), if_pos hst, closePort_empty hempty]

theorem portDown_drains (hcarries : portCarries s k = true) (hheld : portAll (port s k) ≠ []) :
    portDown s k = modPort s k (fun x => { x with drain := true }) := by
  unfold portDown
  rw [if_pos hcarries]
  refine if_neg ?_
  rw [port_modPort_same]
  simpa [portAll] using hheld

theorem portDown_drained (hcarries : portCarries s k = true) (hempty : portAll (port s k) = []) :
    portDown s k = setPortState (setPort s k { port s k with drain := false }) k 0 0 5 0 := by
  unfold portDown
  rw [if_pos hcarries]
  refine (if_pos ?_).trans ?_
  · rw [port_modPort_same]
    simpa [portAll] using hempty
  · rw [port_modPort_same, modPort, setPort_setPort]

theorem portTrained_agrees {h : PeerHello} (hst : portSt s k = 1) (hempty : portAll (port s k) = [])
    (hbad : (port s k).bad = []) :
    portTrained s k h =
      if commonVersion (bits (rd s (rylReg (k / 8) 4)) 0 8) h.versions.toNat = 0
      then setPortState (emptyPort (wr s (portReg k 8) (h.modId.toNat + fld 14 4 h.port.toNat + fld 31 1 1)) k) k 0 0 2 0
      else setPortState (modPort (wr s (portReg k 8) (h.modId.toNat + fld 14 4 h.port.toNat + fld 31 1 1)) k freshPort) k 2 0xF 0
        (commonVersion (bits (rd s (rylReg (k / 8) 4)) 0 8) h.versions.toNat) := by
  unfold portTrained
  dsimp only
  rw [hst, if_neg (by decide)]
  have hport (a v : Nat) : port (wr s a v) k = port s k := rfl
  split
  · exact closePort_empty (by rw [hport, hempty])
  · rw [hport, hbad]

theorem portLost_training (hst : portSt s k = 1) (hempty : portAll (port s k) = []) (lock : Bool) :
    portLost s k lock = setPortState (emptyPort s k) k 0 0 1 0 := by
  unfold portLost
  rw [if_neg (ne_true_of_eq_false (not_carries_of_portSt hst)), if_pos hst, closePort_empty hempty]

theorem portLost_carrying (hcarries : portCarries s k = true) (hempty : portAll (port s k) = []) (lock : Bool) :
    portLost s k lock =
      if lock then setPortState (emptyPort s k) k 4 0 4 0 else setPortState (emptyPort s k) k 0 0 1 0 := by
  unfold portLost
  rw [if_pos hcarries, closePort_empty hempty, closePort_empty hempty]

/-! ### Lanes and spares (R355, R365, R366) -/

theorem laneFailure_degrades {lane : Nat} (hst : portSt s k = 2) (hlane : bit (portLanes s k) lane = true)
    (hversion : 2 ≤ portVersion s k) (hbad : (port s k).bad = []) :
    laneFailure s k lane = setPortState (modPort s k (fun x => { x with bad := [lane] })) k 3 (otherPair lane) 0
      (portVersion s k) := by
  have hlost : modPort s k (fun x => { x with bad := (lane :: x.bad).dedup }) = modPort s k (fun x => { x with bad := [lane] }) := by
    simp only [modPort, hbad]
    rfl
  unfold laneFailure
  rw [if_neg (by omega), if_neg (by rw [carries_of_portSt (.inl hst), hlane]; decide), hlost]
  exact (if_neg (Nat.not_lt.mpr hversion)).trans (if_pos hst)

theorem laneFailure_training {lane : Nat} (hst : portSt s k = 1) (hbad : (port s k).bad = []) :
    laneFailure s k lane = modPort s k (fun x => { x with bad := [lane] }) := by
  unfold laneFailure
  rw [if_pos hst]
  simp only [modPort, hbad]
  rfl

theorem spareTrained_restores (hst : portSt s k = 3) (hbad : (port s k).bad ≠ [])
    (hsteered : ∀ x ∈ (port s k).bad, x ∈ steeredLanes s k) :
    spareTrained s k = setPortState (modPort s k (fun x => { x with bad := [] })) k 2 0xF 0 (portVersion s k) := by
  have hnone : (port s k).bad.filter (fun x => !(steeredLanes s k).contains x) = [] := by
    rw [List.filter_eq_nil_iff]
    intro x hx
    simp [hsteered x hx]
  have hany : (port s k).bad.any (steeredLanes s k).contains = true := by
    obtain ⟨x, l, hcons⟩ := List.exists_cons_of_ne_nil hbad
    exact List.any_eq_true.mpr ⟨x, by simp [hcons], by simpa using hsteered x (by simp [hcons])⟩
  unfold spareTrained
  rw [if_pos ⟨hst, hany⟩]
  simp only [hnone]
  rfl

end

/-- A port's registers lie beside those that steer its die's spares. -/
theorem portReg_ne_steer {k j d o : Nat} (hj : j < 2) (hk : k < 8) :
    portReg (8 * d + k) o ≠ rylReg d (0x20 + 4 * j) := by
  unfold portReg rylReg
  rw [show (8 * d + k) / 8 = d by omega]
  omega

theorem spareSteer_degrades {s : State} {d j v : Nat} (hj : j < 2)
    (hfree : bit (rd s (rylReg d (0x20 + 4 * j))) 31 = false) (hset : bit v 31 = true)
    (hst : portSt s (8 * d + bits v 0 3) = 2) (hbad : (port s (8 * d + bits v 0 3)).bad = []) :
    spareSteer s d j v = setPortState
      (modPort (wr s (rylReg d (0x20 + 4 * j)) (v &&& 0x8000001F)) (8 * d + bits v 0 3) (fun x => { x with bad := [bits v 3 2] }))
      (8 * d + bits v 0 3) 3 (otherPair (bits v 3 2)) 0 (portVersion s (8 * d + bits v 0 3)) := by
  have hport : bits (v &&& 0x8000001F) 0 3 = bits v 0 3 := bits_and _ _ _ _ (by decide)
  have hlane : bits (v &&& 0x8000001F) 3 2 = bits v 3 2 := bits_and _ _ _ _ (by decide)
  have hkept : bit (v &&& 0x8000001F) 31 = true := by
    unfold bit at *
    rw [Nat.testBit_and, hset]
    decide
  have hreg (w : Nat) : rd (wr s (rylReg d (0x20 + 4 * j)) w) (portReg (8 * d + bits v 0 3) 0) =
      rd s (portReg (8 * d + bits v 0 3) 0) :=
    rd_wr_ne _ _ _ _ (portReg_ne_steer hj (bits_lt v 0 3))
  have hsame (w : Nat) : portSt (wr s (rylReg d (0x20 + 4 * j)) w) (8 * d + bits v 0 3) = 2 ∧
      portVersion (wr s (rylReg d (0x20 + 4 * j)) w) (8 * d + bits v 0 3) = portVersion s (8 * d + bits v 0 3) := by
    unfold portSt portVersion at *
    rw [hreg]
    exact ⟨hst, rfl⟩
  unfold spareSteer
  dsimp only
  rw [hfree, if_neg Bool.false_ne_true, hport, hlane, hkept, (hsame _).1, (hsame _).2]
  refine (if_pos rfl).trans ?_
  have hbad' (w : Nat) : (port (wr s (rylReg d (0x20 + 4 * j)) w) (8 * d + bits v 0 3)).bad = [] := hbad
  simp only [modPort, hbad']
  rfl

/-! ### Module id and routes (R362, R363, R375) -/

theorem writeModuleId_taken {s : State} {v : Nat} (h : ∀ k < 16, portSt s k = 0 ∨ portSt s k = 5) :
    writeModuleId s v = wr (wr (wr (wr s (rylReg 0 8) (v &&& 0x80003FFF)) (rylReg 1 8) (v &&& 0x80003FFF))
      (synReg 0 4) (bits v 0 14)) (synReg 1 4) (bits v 0 14) := by
  have hid : bits (v &&& 0x80003FFF) 0 14 = bits v 0 14 := bits_and _ _ _ _ (by decide)
  unfold writeModuleId
  rw [if_neg]
  · dsimp only
    rw [hid]
  rw [List.any_eq_true]
  rintro ⟨k, hk, hup⟩
  rcases h k (List.mem_range.mp hk) with h | h <;> rw [h] at hup <;> exact absurd hup (by decide)

/-- Both dies and both counter units hold the id. -/
theorem writeModuleId_spec {s : State} {v : Nat} (h : ∀ k < 16, portSt s k = 0 ∨ portSt s k = 5) :
    moduleId (writeModuleId s v) = bits v 0 14 ∧ (∀ k < 16, moduleValid (writeModuleId s v) k = bit v 31) ∧
    synModule (writeModuleId s v) = bits v 0 14 ∧ (writeModuleId s v).ports = s.ports := by
  have hid : bits (v &&& 0x80003FFF) 0 14 = bits v 0 14 := bits_and _ _ _ _ (by decide)
  have hvalid : bit (v &&& 0x80003FFF) 31 = bit v 31 := by
    unfold bit
    rw [Nat.testBit_and, show Nat.testBit 0x80003FFF 31 = true by decide, Bool.and_true]
  have hdie : ∀ d < 2, rd (writeModuleId s v) (rylReg d 8) = v &&& 0x80003FFF := by
    intro d hd
    rw [writeModuleId_taken h]
    obtain rfl | rfl : d = 0 ∨ d = 1 := by omega
    · rw [rd_wr_ne _ _ _ _ (by decide), rd_wr_ne _ _ _ _ (by decide), rd_wr_ne _ _ _ _ (by decide), rd_wr_same]
    · rw [rd_wr_ne _ _ _ _ (by decide), rd_wr_ne _ _ _ _ (by decide), rd_wr_same]
  refine ⟨?_, fun k hk => ?_, ?_, ?_⟩
  · unfold moduleId moduleIdReg
    rw [hdie 0 (by decide), hdie 1 (by decide), ite_self, hid]
  · unfold moduleValid
    rw [hdie (k / 8) (by omega), hvalid]
  · unfold synModule
    rw [writeModuleId_taken h, rd_wr_ne _ _ _ _ (by decide), rd_wr_same]
    exact Nat.mod_mod _ _
  · rw [writeModuleId_taken h]
    rfl

/-- The register of a routing table's entries. -/
def routeReg (d t w : Nat) : Nat := rylReg d (0x10000 + 0x2000 * t + 4 * w)

theorem routeReg_inj {d t w e t' w' : Nat} (ht : t < 9) (hw : w < 2048) (ht' : t' < 9)
    (hw' : w' < 2048) (h : routeReg e t' w' = routeReg d t w) : e = d ∧ t' = t ∧ w' = w := by
  unfold routeReg rylReg dieBase at h
  omega

theorem routeOf_written (s : State) {d t w v i : Nat} (hi : i < 8) :
    routeOf (wr s (routeReg d t w) v) d t (8 * w + i) = bits v (4 * i) 4 := by
  unfold routeOf
  rw [show (8 * w + i) / 8 = w by omega, show (8 * w + i) % 8 = i by omega]
  exact congrArg (bits · (4 * i) 4) (rd_wr_same _ _ _)

theorem routeOf_kept (s : State) {d t w v e t' m : Nat} (ht : t < 9) (hw : w < 2048) (ht' : t' < 9)
    (hm : m < 16384) (h : e ≠ d ∨ t' ≠ t ∨ m / 8 ≠ w) : routeOf (wr s (routeReg d t w) v) e t' m = routeOf s e t' m := by
  have hne : routeReg e t' (m / 8) ≠ routeReg d t w := by
    intro hsame
    obtain ⟨h1, h2, h3⟩ := routeReg_inj ht hw ht' (by omega) hsame
    simp_all
  exact congrArg (bits · (4 * (m % 8)) 4) (rd_wr_ne _ _ _ _ hne)

end Sys2Proof.Machine
end

section
/-! The statement about ports (14_links.md). -/

open Sys2Proof Sys2Proof.Machine

/-- Settles O46: each event of a port by its state, then the module id and the routes. -/
theorem portsTrainAndFail : Obligations.PortsTrainAndFail := by
  refine ⟨fun r k s hw => ⟨fun hst heth hvalid => ?_, fun hst hempty => ?_, fun hcarries hheld => ?_, fun hcarries hempty => ?_⟩,
    fun k s => ⟨fun q hcarries hdrain hone hown htyp => ?_, fun hst hvalid heth => ?_, fun h hst hempty hbad => ?_,
      fun lock => ⟨fun hst hempty => ?_, fun hcarries hempty => ?_⟩, fun lane hst hlane hversion hbad => ?_,
      fun lane hst hbad => ?_, fun hst hbad hsteered => ?_⟩,
    fun r d j v s hw hfree hset hst hbad => ?_, fun r d v s hw hidle => ?_, fun r d t w v s hw => ?_,
    fun k s heth hup => ?_⟩
  · exact congrArg Host.Outcome.next ((hw.gate _).trans (portTrain_starts hst heth hvalid))
  · exact congrArg Host.Outcome.next ((hw.gate _).trans (portDown_training hst hempty))
  · exact congrArg Host.Outcome.next ((hw.gate _).trans (portDown_drains hcarries hheld))
  · exact congrArg Host.Outcome.next ((hw.gate _).trans (portDown_drained hcarries hempty))
  · have hnot : q.typ ≠ tSpan ∧ q.typ ≠ tSync := by rw [htyp]; decide
    refine congrArg Host.Outcome.next ((if_pos (by rw [hdrain, hcarries]; rfl)).trans ?_)
    rw [closePort_own hone hown hnot.1 hnot.2, htyp]
    rfl
  · exact congrArg Host.Outcome.next ((if_pos ⟨hst, hvalid, by rw [heth]; rfl⟩).trans (startTraining_valid hvalid))
  · exact congrArg Host.Outcome.next (portTrained_agrees hst hempty hbad)
  · exact congrArg Host.Outcome.next (portLost_training hst hempty lock)
  · exact congrArg Host.Outcome.next (portLost_carrying hcarries hempty lock)
  · exact congrArg Host.Outcome.next (laneFailure_degrades hst hlane hversion hbad)
  · exact congrArg Host.Outcome.next (laneFailure_training hst hbad)
  · exact congrArg Host.Outcome.next (spareTrained_restores hst hbad hsteered)
  · exact congrArg Host.Outcome.next ((hw.gate _).trans (spareSteer_degrades j.isLt hfree hset hst hbad))
  · exact ⟨_, congrArg Host.Outcome.next (hw.gate _), writeModuleId_spec hidle⟩
  · exact ⟨_, congrArg Host.Outcome.next (hw.gate _), fun i hi => routeOf_written s hi,
      fun e t' m hm h => routeOf_kept s t.isLt w.isLt t'.isLt hm (by omega)⟩
  · exact congrArg Host.Outcome.next (if_pos (by rw [heth, hup]; rfl))
end

section
/-! SUPPORT. The end of a freeze: CONTINUE and ABANDON (R368). -/

namespace Sys2Proof.Machine

open Sys2Proof

/-- A counter linked to one counter of this module sends it what is owed, as one change (R332). -/
theorem emitAll_local {s : State} {id k dc : Nat} {amount : Nat → Nat} (hdest : destsOf s id = [(k, synModule s, dc)])
    (howed : amount k ≠ 0) : emitAll s id amount =
      queueChange s (dc / 4096) { op := 0, id := dc, inc := amount k * (ctr s id).outInc, emitter := some id } := by
  have hhere : emitTo s id (amount k) (k, synModule s, dc) =
      (queueChange s (dc / 4096) { op := 0, id := dc, inc := amount k * (ctr s id).outInc, emitter := some id }, false) :=
    if_pos rfl
  unfold emitAll
  simp only [hdest, List.foldl_cons, List.foldl_nil, if_neg howed, hhere]
  rfl

theorem synModule_wr {s : State} {a v : Nat} (h : synReg 0 4 ≠ a) : synModule (wr s a v) = synModule s := by
  unfold synModule
  rw [rd_wr_ne _ _ _ _ h]

/-- The counters of a partition that a freeze has stopped. -/
def frozenCtrs (s : State) (p : Nat) : List Nat := (ctrsOf s p).filter (fun id => (ctr s id).st == 3)

theorem frozenCtrs_none {s : State} {p : Nat} (h : ∀ id ∈ ctrsOf s p, (ctr s id).st ≠ 3) : frozenCtrs s p = [] := by
  unfold frozenCtrs
  rw [List.filter_eq_nil_iff]
  intro id hid
  simpa using h id hid

theorem frozenCtrs_one {s : State} {p id : Nat} (h : ctrsOf s p = [id]) (hfrozen : (ctr s id).st = 3) :
    frozenCtrs s p = [id] := by
  unfold frozenCtrs
  simp [h, hfrozen]

/-- The partition once CONTINUE has been accepted. -/
def thawed (s : State) (d p : Nat) : State :=
  modPart (wr s (rylReg d 0x18) 0) p (fun x => { x with frozen := false, seenFreeze := [] })

theorem continuePart_accepted {s : State} {d p : Nat} (h : continueRefused s p = false) : continuePart s d p =
    ((frozenCtrs s p).map (fun id => (id, ctr s id))).foldl (fun s e => emitAll s e.1 (heldFor e.2))
      ((frozenCtrs s p).foldl (fun s id => modCtr s id (fun c => { c with st := 1, held := 0, lost := [] })) (thawed s d p)) := by
  unfold continuePart
  rw [if_neg (ne_true_of_eq_false h)]
  rfl

theorem continuePart_none {s : State} {d p : Nat} (h : continueRefused s p = false) (hnone : frozenCtrs s p = []) :
    continuePart s d p = thawed s d p := by
  rw [continuePart_accepted h, hnone]
  rfl

theorem continuePart_one {s : State} {d p id k dc : Nat} (h : continueRefused s p = false) (hone : frozenCtrs s p = [id])
    (hdest : destsOf s id = [(k, synModule s, dc)]) (howed : heldFor (ctr s id) k ≠ 0) :
    continuePart s d p = queueChange (setCtr (thawed s d p) id { ctr s id with st := 1, held := 0, lost := [] }) (dc / 4096)
      { op := 0, id := dc, inc := heldFor (ctr s id) k * (ctr s id).outInc, emitter := some id } := by
  have hmodule : synModule (setCtr (thawed s d p) id { ctr s id with st := 1, held := 0, lost := [] }) = synModule s :=
    synModule_wr (by unfold synReg rylReg dieBase; omega)
  have hdests : destsOf (setCtr (thawed s d p) id { ctr s id with st := 1, held := 0, lost := [] }) id = destsOf s id := by
    refine destsOf_congr ?_ ?_ rfl <;> rw [ctr_setCtr_same]
  rw [continuePart_accepted h, hone]
  refine (emitAll_local ((hdests.trans hdest).trans (by rw [hmodule])) howed).trans ?_
  rw [ctr_setCtr_same]

/-- What CONTINUE leaves where one counter was frozen. -/
theorem continuePart_one_spec {s : State} {d p id k dc : Nat} (h : continueRefused s p = false) (hone : frozenCtrs s p = [id])
    (hdest : destsOf s id = [(k, synModule s, dc)]) (howed : heldFor (ctr s id) k ≠ 0) :
    let u := continuePart s d p
    ctr u id = { ctr s id with st := 1, held := 0, lost := [] } ∧
    changes u (dc / 4096) = changes s (dc / 4096) ++
      [{ op := 0, id := dc, inc := heldFor (ctr s id) k * (ctr s id).outInc, emitter := some id }] ∧
    (part u p).frozen = false ∧ rd u (rylReg d 0x18) = 0 := by
  have hmessages : ∀ (t : State) (e : Nat) (c : Change), (part (queueChange t e c) p) = part t p ∧
      rd (queueChange t e c) = rd t := by
    intro t e c
    unfold queueChange setChanges
    split <;> exact ⟨rfl, rfl⟩
  dsimp only
  rw [continuePart_one h hone hdest howed, (hmessages _ _ _).1, (hmessages _ _ _).2]
  refine ⟨?_, changes_setChanges _ _ _, ?_, rd_wr_same _ _ _⟩
  · rw [((OnlyMessages.refl _).queueChange _ _).ctr, ctr_setCtr_same]
  · show (part (thawed s d p) p).frozen = false
    unfold thawed
    rw [part_modPart_same]

theorem abandonPart_none {s : State} {d p : Nat} (hnone : frozenCtrs s p = []) (hreq : (part s p).resetReq = none) :
    abandonPart s d p = modPart (wr s (rylReg d 0x18) 0) p (fun x => { x with resetReq := some ⟨6, 0, 0⟩ }) := by
  have hask : abandonPart s d p = requestReset (wr s (rylReg d 0x18) 0) p ⟨6, 0, 0⟩ := by
    show requestReset ((frozenCtrs s p).foldl _ _) p _ = _
    rw [hnone]
    rfl
  rw [hask]
  show setPart _ p _ = setPart _ p _
  have hpart : part (wr s (rylReg d 0x18) 0) p = part s p := rfl
  dsimp only
  rw [hpart, hreq]

/-- What ABANDON leaves where one counter was frozen. -/
theorem abandonPart_one_spec {s : State} {d p id : Nat} (hone : frozenCtrs s p = [id]) (hfrozen : (ctr s id).st = 3)
    (hreq : (part s p).resetReq = none) :
    let u := abandonPart s d p
    ctr u id = { ctr s id with st := 2, cause := 3 } ∧ (part u p).resetReq = some ⟨6, 0, 0⟩ ∧
      (∀ j, j ≠ id → ctr u j = ctr s j) := by
  have hask : abandonPart s d p = requestReset (breakCtr (wr s (rylReg d 0x18) 0) id 3) p ⟨6, 0, 0⟩ := by
    show requestReset ((frozenCtrs s p).foldl _ _) p _ = _
    rw [hone]
    rfl
  have hactive : ctrActive (ctr (wr s (rylReg d 0x18) 0) id) = true := by
    show ctrActive (ctr s id) = true
    unfold ctrActive
    rw [hfrozen]
    rfl
  have hbroken := breakCtr_active 3 hactive
  have hctr : ∀ j, ctr (requestReset (breakCtr (wr s (rylReg d 0x18) 0) id 3) p ⟨6, 0, 0⟩) j =
      ctr (setCtr s id { ctr s id with st := 2, cause := 3 }) j := hbroken.ctr
  have hpart : part (breakCtr (wr s (rylReg d 0x18) 0) id 3) p = part s p := by
    obtain ⟨_, _, _, _, _, heq⟩ := hbroken
    rw [heq]
    rfl
  dsimp only
  rw [hask]
  refine ⟨?_, resetReq_requestReset _ (by rw [hpart, hreq]), fun j hj => ?_⟩
  · rw [hctr, ctr_setCtr_same]
  · rw [hctr, ctr_setCtr_ne _ _ _ _ hj]

end Sys2Proof.Machine
end

section
/-! The statement about the end of a freeze (14_links.md). -/

open Sys2Proof Sys2Proof.Machine

/-- Settles O48: CONTINUE refused, with nothing held and with one counter's emission, then ABANDON of none and of one. -/
theorem frozenPartitionsEnd : Obligations.FrozenPartitionsEnd := by
  refine fun r d p s hw => ⟨fun hrefused => ?_, fun hok hnone => ?_, fun id k dc hok hone hfrozen hdest howed _ => ?_,
    fun hnone hreq => ?_, fun id hone hfrozen _ hreq => ?_⟩
  · exact congrArg Host.Outcome.next ((hw.gate _).trans (if_pos hrefused))
  · exact congrArg Host.Outcome.next ((hw.gate _).trans (continuePart_none hok (frozenCtrs_none hnone)))
  · exact ⟨_, congrArg Host.Outcome.next (hw.gate _), continuePart_one_spec hok (frozenCtrs_one hone hfrozen) hdest howed⟩
  · exact congrArg Host.Outcome.next ((hw.gate _).trans (abandonPart_none (frozenCtrs_none hnone) hreq))
  · exact ⟨_, congrArg Host.Outcome.next (hw.gate _), abandonPart_one_spec (frozenCtrs_one hone hfrozen) hfrozen hreq⟩
end

section
/-! SUPPORT. Frames for software, the rings, and a device's accesses (R369, R442–R446). -/

namespace Sys2Proof.Machine

open Sys2Proof

/-! ### Frames and the rings (R369, R445, R446) -/

/-- A frame for software goes to the receive ring of its port. -/
theorem frameIn_software {s t : State} {k : Nat} {f b : List Byte} (haccept : acceptFrame s k f = (t, some b))
    (hlane : laneUdp t b = none) : frameIn s k f =
      ringReceive t (2 * k) b (match ipUdp (ethParse b) with | some u => !u.sumOk | none => false) := by
  unfold frameIn
  rw [haccept]
  dsimp only
  rw [hlane] <;> rfl

section
variable {s : State} {r : Nat} (hrun : s.ringStop.contains r = false)
include hrun

theorem ringReceive_dropped {f : List Byte} {bad : Bool} (hempty : rd s (ringReg r 0xC) = rd s (ringReg r 0x10)) :
    ringReceive s r f bad = bump s (ringReg r 0x18) 1 := by
  unfold ringReceive
  rw [if_neg (ne_true_of_eq_false hrun)]
  exact if_pos hempty

/-- An untagged frame that its buffer holds is written whole, and its descriptor marked. -/
theorem ringReceive_delivered {b : List Byte} {bad : Bool} (hposted : rd s (ringReg r 0xC) ≠ rd s (ringReg r 0x10))
    (hplain : (ethParse b).tci = none) (hfits : b.length ≤ ringRead s (ringDesc s r (rd s (ringReg r 0xC)) + 8) 2) :
    ringReceive s r b bad = pulse (wr (ringWrite (ringWrite s (ringRead s (ringDesc s r (rd s (ringReg r 0xC))) 8) b.length (ofLE b))
      (ringDesc s r (rd s (ringReg r 0xC)) + 0xA) 6 (b.length + (1 + 8 * b2n bad) * 2 ^ 16)) (ringReg r 0xC)
      ((rd s (ringReg r 0xC) + 1) % 2 ^ 32)) (85 + r) := by
  have hcut : decide (ringRead s (ringDesc s r (rd s (ringReg r 0xC)) + 8) 2 < b.length) = false :=
    decide_eq_false (Nat.not_lt.mpr hfits)
  unfold ringReceive
  rw [if_neg (ne_true_of_eq_false hrun)]
  refine (if_neg hposted).trans ?_
  simp only [hplain, Option.isSome_none, Bool.false_eq_true, if_false, hcut, Nat.min_eq_right hfits, List.take_length,
    Option.getD_none, b2n, Nat.mul_zero, Nat.add_zero, Nat.zero_mul]

end

/-- What lets a posted frame leave: its ring runs, and its port and die are up. -/
theorem transmit_ready {s : State} {j : Nat} (hrun : s.ringStop.contains (2 * j + 1) = false)
    (hposted : rd s (ringReg (2 * j + 1) 0xC) ≠ rd s (ringReg (2 * j + 1) 0x10)) (hport : portSt s (14 + j) = 5)
    (hup : dieUp s 1 = true) :
    (s.ringStop.contains (2 * j + 1) || rd s (ringReg (2 * j + 1) 0xC) == rd s (ringReg (2 * j + 1) 0x10) ||
      portSt s (14 + j) != 5 || !dieUp s 1) = false := by
  rw [hrun, hport, hup, beq_false_of_ne hposted]
  rfl

/-! ### A device's accesses (R442–R444) -/

theorem dma_served {s : State} (hup : s.dieDown.contains 2 = false) (hperst : s.sup.perst = true) :
    (s.dieDown.contains 2 || !s.sup.perst) = false := by
  rw [hup, hperst]
  rfl

end Sys2Proof.Machine
end

section
/-! The statement about rings and inbound accesses (14_links.md, 18_cores_management.md). -/

open Sys2Proof Sys2Proof.Machine

/-- Settles O49: the receive ring, the transmit ring, TAIL, then a device's accesses. What becomes of the descriptor of a
frame that the port does not carry is entry 57's choice (ASSUMPTION), a doorbell's form is entry 71's, and the IOMMU's
translation entry 74's. -/
theorem ringsAndInboundAccesses : Obligations.RingsAndInboundAccesses := by
  refine ⟨fun k f b s haccept hlane hrun => ⟨fun hempty => ?_, fun hposted hplain hfits => ?_⟩,
    fun j s => ?_, fun r k v s hw => congrArg Host.Outcome.next (hw.gate _), fun x s hup hperst => ?_⟩
  · exact congrArg Host.Outcome.next ((frameIn_software haccept hlane).trans (ringReceive_dropped hrun hempty))
  · exact congrArg Host.Outcome.next ((frameIn_software haccept hlane).trans (ringReceive_delivered hrun hposted hplain hfits))
  · intro r head d b f g hrun hposted hport hup
    exact congrArg Host.Outcome.next (if_neg (ne_true_of_eq_false (transmit_ready hrun hposted hport hup)))
  · refine congrArg Host.Outcome.next ((if_neg (ne_true_of_eq_false (dma_served hup hperst))).trans ?_)
    cases Config.iommu s.freeCtr x.device.toNat x.addr.toNat x.data.isSome with
    | none => rfl
    | some a =>
      cases x.data with
      | none =>
        dsimp only
        rcases memLoad (nextFree s) .app a.toNat x.len 4 with ⟨u, _ | v⟩ <;> rfl
      | some d =>
        dsimp only
        cases doorbell a.toNat d.length <;> rfl
end

section
/-! SUPPORT. The query lane: a whole request, its admission, the release of a step and its results (R370–R374). -/

namespace Sys2Proof.Machine

open Sys2Proof

/-! ### A request is admitted or refused (R372, R373) -/

/-- The lane's datagram of a request. -/
theorem execJenostRequest_lane {s : State} {k : Fin 2} {f b : List Byte} {p : Nat} {u : UdpPkt}
    (haccept : acceptFrame s k f = (s, some b)) (hlane : laneUdp s b = some (p, u)) (hsum : u.sumOk = true) :
    exec (.jenostRequest k f) s = .next (jenost s (14 + k) p u) := by
  show execJenostRequest k f s = _
  unfold execJenostRequest
  rw [haccept]
  dsimp only
  rw [hlane]
  dsimp only
  rw [if_pos hsum]

/-- A field of a Jenost header, little-endian (R372). -/
def jenostField (u : UdpPkt) (o n : Nat) : Nat := ofLE ((u.payload.drop o).take n)

/-- A request in one fragment, well formed (R372). -/
structure WholeRequest (u : UdpPkt) (size : Nat) : Prop where
  length : u.payload.length = 32 + size
  magic : jenostField u 0 2 = 0x514A
  version : jenostField u 2 1 = 1
  kind : jenostField u 3 1 = 1
  frag : jenostField u 6 1 = 0
  frags : jenostField u 7 1 = 0
  len : jenostField u 0x10 4 = size
  status : jenostField u 0x14 2 = 0
  reserved : jenostField u 0x16 2 = 0
  served : jenostField u 0x18 8 = 0

/-- A request in one fragment, while the lane holds no other, is complete. -/
theorem jenost_whole {s : State} {port p size : Nat} {u : UdpPkt} (h : WholeRequest u size) (hsteps : s.lane.steps = [])
    (hasm : s.lane.asm = []) : jenost s port p u = complete s p
      ⟨⟨port, u.src, u.sport⟩, jenostField u 8 8, jenostField u 4 2, 1, [(0, u.payload.drop 32)]⟩ := by
  obtain ⟨hlength, hmagic, hversion, hkind, hfrag, hfrags, hlen, hstatus, hreserved, hserved⟩ := h
  unfold jenostField at *
  rw [List.drop_zero] at hmagic
  unfold jenost
  simp [hlength, hmagic, hversion, hkind, hfrag, hfrags, hlen, hstatus, hreserved, hserved, hsteps, hasm]

/-- A complete request of a class, in the class's size, is put to admission while its partition serves. -/
theorem complete_admits {s : State} {p id cls : Nat} {q : QPeer} {c : QClass} {bytes : List Byte} (hactive : (part s p).active = 2)
    (hfrozen : (part s p).frozen = false) (hdrain : s.pws.drain = false)
    (hclass : (part s p).classes.find? (fun x => x.id == cls) = some c) (hsize : bytes.length = c.inBytes) :
    complete s p ⟨q, id, cls, 1, [(0, bytes)]⟩ = admitReq s p c q id bytes := by
  unfold complete
  simp [hactive, hfrozen, hdrain, hclass, hsize, tget, List.range_succ]

/-- The predicted end, in µs, of a step that starts with one request now (R373). -/
def firstEnd (s : State) (p : Nat) (c : QClass) : Rat :=
  max ((20 * s.now : Nat) / 1000 + (1 + (c.inBytes : Rat) / 16000)) 0 + laneStep s p (laneRatio s)

/-- Where a slot lies does not depend on what the lane holds. -/
theorem slotAddr_lane (s : State) (l : Lane) (p desc k n : Nat) : slotAddr { s with lane := l } p desc k n = slotAddr s p desc k n :=
  rfl

/-- Admission to a lane without steps. -/
theorem admitReq_first {s : State} {p id : Nat} {q : QPeer} {c : QClass} {bytes : List Byte} (hsteps : s.lane.steps = []) :
    admitReq s p c q id bytes =
      if firstEnd s p c + 5 - (20 * s.now : Nat) / 1000 ≤ c.promise then
        bump (svcWrite { s with lane := { s.lane with
          steps := [⟨firstEnd s p c, false, [⟨q, id, c.id, 0, 20 * s.now⟩], none⟩]
          est := max s.lane.est (laneRatio s) } } (slotAddr s p c.inDesc 0 c.inBytes) c.inBytes (ofLE bytes) p) (rylReg 1 0x40) 1
      else sendBusy s q c.id id := by
  unfold admitReq firstEnd
  simp [hsteps, pickStep, nth, classCount, slotAddr_lane]

/-! ### A step goes and its results are sent (R373, R374) -/

theorem stepRelease_first {s : State} {p : Nat} {x : QStep} (hsteps : s.lane.steps = [x]) (hwaits : x.released = false)
    (hidle : inStep (part s p) = false) (hpermits : (part s p).permits = 0) (hactive : (part s p).active = 2) :
    stepRelease s p = modPart { s with lane := { s.lane with steps := [{ x with released := true }] } } p
      (fun y => { y with permits := y.permits + 1 }) := by
  unfold stepRelease laneIdle
  simp [hsteps, hwaits, hidle, hpermits, hactive, List.findIdx?_cons]

/-- A result of one frame (R374). -/
theorem sendResult_one {s : State} {p t : Nat} {r : QReq} {c : QClass}
    (hclass : (part s p).classes.find? (fun c => c.id == r.cls) = some c) (hsome : 0 < c.outBytes) (hfits : c.outBytes ≤ 8192)
    (hgood : memBad (memNote s (slotAddr s p c.outDesc r.slot c.outBytes) c.outBytes 4 p)
      (slotAddr s p c.outDesc r.slot c.outBytes) c.outBytes = false) :
    sendResult s p t r =
      let a := slotAddr s p c.outDesc r.slot c.outBytes
      let s' := memNote s a c.outBytes 4 p
      let bytes := leBytes c.outBytes (memRead s' a c.outBytes)
      reply s' r.peer (jenostHeader 0x81 r.cls 0 1 r.reqId bytes.length 0 (20 * t - r.time) ++ bytes) := by
  have hframes : ceilDiv' c.outBytes 8192 = 1 := by unfold ceilDiv'; omega
  unfold sendResult
  rw [hclass]
  dsimp only
  rw [if_neg (ne_true_of_eq_false hgood), hframes]
  simp [List.range_succ, List.take_of_length_le, hfits]

theorem queryResult_one {s : State} {p t : Nat} {x : QStep} {r : QReq} (hsteps : s.lane.steps = [x]) (hgone : x.released = true)
    (hdone : x.done = some t) (hreqs : x.reqs = [r]) : queryResult s p =
      let u := sendResult { s with lane := { s.lane with steps := [] } } p t r
      let w := { u with lane := { u.lane with est := 0 } }
      if laneBusy u then u else if u.pws.drain then setLane (setCap w (capWanted w)) else w := by
  unfold queryResult
  simp only [hsteps]
  rw [if_neg (by simp [hgone, hdone]), hreqs, hdone]
  rfl

end Sys2Proof.Machine
end

section
/-! The statement about the query lane's requests (14_links.md). -/

open Sys2Proof Sys2Proof.Machine

/-- Settles O50: a whole request, missing fragments, the release of a step and its results. That an admitted input is
written whole at its admission is entry 123's (ASSUMPTION), and the order in which a request is checked entry 56's. -/
theorem requestsAreAdmittedAndAnswered : Obligations.RequestsAreAdmittedAndAnswered := by
  refine ⟨fun k f b p u c s => ?_, fun i x s hfind => ?_, fun p x s hpart hsteps hwaits hidle hpermits hactive => ?_,
    fun p t x r c s => ?_⟩
  · intro h v q now fin ln haccept hlane hsum hsteps hasm hlength hmagic hversion hkind hfrag hfrags hlen hstatus hreserved
      hserved hactive hfrozen hdrain hclass
    have hsize : (u.payload.drop 32).length = c.inBytes := by
      rw [List.length_drop]
      exact Nat.sub_eq_of_eq_add' hlength
    refine (execJenostRequest_lane haccept hlane hsum).trans (congrArg Host.Outcome.next ?_)
    refine (jenost_whole ⟨hlength, hmagic, hversion, hkind, hfrag, hfrags, hlen, hstatus, hreserved, hserved⟩ hsteps hasm).trans ?_
    exact (complete_admits hactive hfrozen hdrain hclass hsize).trans (admitReq_first hsteps)
  · show Host.Outcome.next (match s.lane.asm[i]? with | some x => _ | none => s) = _
    rw [hfind]
  · show Host.Outcome.next (match lanePart s with | some p => stepRelease s p | none => s) = _
    rw [hpart]
    exact congrArg Host.Outcome.next (stepRelease_first hsteps hwaits hidle hpermits hactive)
  · intro a s' bytes u hpart hsteps hgone hdone hreqs hclass hsome hfits hgood
    show Host.Outcome.next (match lanePart s with | some p => queryResult s p | none => s) = _
    rw [hpart]
    refine congrArg Host.Outcome.next ((queryResult_one hsteps hgone hdone hreqs).trans ?_)
    rw [sendResult_one (s := { s with lane := { s.lane with steps := [] } }) hclass hsome hfits hgood]
    rfl
end

section
/-! SUPPORT. Power: what only the generators take part in, the fast estimate, telemetry and caps (R394–R407). -/

namespace Sys2Proof.Machine

open Sys2Proof

/-! ### What only the generators take part in -/

/-- From `s` to `t` only generators changed. -/
def OnlyGens (s t : State) : Prop := ∃ g, t = { s with gens := g }

theorem OnlyGens.refl (s : State) : OnlyGens s s := ⟨_, rfl⟩

theorem OnlyGens.trans {s t u : State} (h : OnlyGens s t) (h' : OnlyGens t u) : OnlyGens s u := by
  obtain ⟨_, rfl⟩ := h
  obtain ⟨_, rfl⟩ := h'
  exact ⟨_, rfl⟩

theorem OnlyGens.pws {s t : State} (h : OnlyGens s t) : t.pws = s.pws := by
  obtain ⟨_, rfl⟩ := h
  rfl

theorem OnlyGens.regs {s t : State} (h : OnlyGens s t) : t.regs = s.regs := by
  obtain ⟨_, rfl⟩ := h
  rfl

theorem onlyGens_modGen (s : State) (n : Nat) (f : Gen → Gen) : OnlyGens s (modGen s n f) := ⟨_, rfl⟩

theorem onlyGens_foldl {α : Type} {f : State → α → State} (hf : ∀ s x, OnlyGens s (f s x)) (l : List α) (s : State) :
    OnlyGens s (l.foldl f s) :=
  List.foldlRecOn (motive := OnlyGens s) l f (.refl s) fun t ht x _ => ht.trans (hf t x)

theorem onlyGens_aimRatio (s : State) (n : Nat) : OnlyGens s (aimRatio s n) := by
  unfold aimRatio
  split
  · exact .refl s
  · exact onlyGens_modGen _ _ _

/-! ### The ratio aimed at (R402, R408) -/

/-- A hatch's floor depends on its own generator only by its size and its droop floor. -/
theorem floorOf_modGen {s : State} {n : Nat} {f : Gen → Gen} (hsize : (f (gen s n)).size = (gen s n).size)
    (hdroop : (f (gen s n)).pwr.droop = (gen s n).pwr.droop) : floorOf (modGen s n f) n = floorOf s n := by
  have hpods : hatchPods (modGen s n f) n = hatchPods s n := hatchPods_congr (by rw [gen_modGen_same, hsize])
  unfold floorOf stackFloorOf dieFloorOf
  rw [hpods, gen_modGen_same, hdroop]
  rfl

theorem pinned_modGen {s : State} {n : Nat} {f : Gen → Gen} (hpart : (f (gen s n)).part = (gen s n).part) :
    pinned (modGen s n f) n = pinned s n := by
  unfold pinned
  rw [gen_modGen_same, hpart]
  rfl

theorem aimRatio_track {s : State} {n : Nat} (h : pinned s n = false) :
    gen (aimRatio s n) n = { gen s n with nextRatio := min 60 (max (floorOf s n) (gen s n).pwr.want) } ∧
      floorOf (aimRatio s n) n = floorOf s n := by
  unfold aimRatio
  rw [if_neg (ne_true_of_eq_false h)]
  exact ⟨gen_modGen_same _ _ _, floorOf_modGen rfl rfl⟩

/-! ### Quarters (R401, R402) -/

/-- A quarter with edges: the estimate, the grant that takes force, and the ratio that they ask for. -/
theorem quarter_spec {s : State} {n : Nat} {e : QuarterEvents} (hlive : hatchLive (gen s n) = true) (htrack : pinned s n = false)
    (hedges : e.edges ≠ 0) :
    let d := quarterD (gen s n).opp e
    let g := (gen s n).pwr.newGrant.getD (gen s n).pwr.grant
    let u := quarter s n e
    (gen u n).pwr.est = d ∧ (gen u n).pwr.grant = g ∧ (gen u n).pwr.newGrant = none ∧
      (gen u n).nextRatio = min 60 (max (floorOf u n) (wantRatio d s.pws.gain (g / 8 : Rat))) := by
  obtain ⟨f, hf, hest, hgrant, hnew, hwant, hpart⟩ : ∃ f : Gen → Gen, quarter s n e = aimRatio (modGen s n f) n ∧
      (f (gen s n)).pwr.est = quarterD (gen s n).opp e ∧
      (f (gen s n)).pwr.grant = (gen s n).pwr.newGrant.getD (gen s n).pwr.grant ∧ (f (gen s n)).pwr.newGrant = none ∧
      (f (gen s n)).pwr.want = wantRatio (quarterD (gen s n).opp e) s.pws.gain
        (((gen s n).pwr.newGrant.getD (gen s n).pwr.grant : Nat) / 8 : Rat) ∧ (f (gen s n)).part = (gen s n).part := by
    refine ⟨_, if_neg (by rw [hlive]; decide), if_neg hedges, rfl, rfl, ?_, rfl⟩
    dsimp only
    rw [if_neg hedges]
  obtain ⟨hgen, hfloor⟩ := aimRatio_track ((pinned_modGen hpart).trans htrack)
  rw [gen_modGen_same] at hgen
  dsimp only
  rw [hf, hfloor, hgen]
  exact ⟨hest, hgrant, hnew, by rw [hwant]⟩

/-! ### Telemetry (R406) -/

/-- The gain after a sample in which something was drawn. -/
def sampledGain (s : State) (m p sum : Rat) : Rat :=
  if s.pws.hold then 3 / 2 else min (3 / 2) (max (3 / 4) (s.pws.gain + (m - p) / (4 * sum)))

theorem nextGain_drawn {s : State} {m p sum : Rat} (h : sum ≠ 0) :
    nextGain s m p sum = { s with pws := { s.pws with gain := sampledGain s m p sum } } := by
  unfold nextGain sampledGain
  by_cases hheld : s.pws.hold = true
  · rw [if_pos hheld, if_pos hheld]
  · rw [if_neg hheld, if_neg hheld, if_neg h]

theorem pws_wr (s : State) (a v : Nat) : (wr s a v).pws = s.pws := rfl

theorem pws_writeTelemetry (s : State) (d w : Nat) : (writeTelemetry s d w).pws = s.pws := by
  unfold writeTelemetry
  exact pws_wr _ _ _

theorem pws_setBits_ite (c : Prop) [Decidable c] (s : State) (a m : Nat) : (if c then setBits s a m else s).pws = s.pws := by
  split <;> rfl

/-- A valid sample in which something was drawn. -/
theorem validSample_spec {s : State} {a : PowerSample} (h : meanDynamic s none ≠ 0) :
    let m : Rat := (a.watts0 + a.watts1 : Nat)
    let p := s.pws.gain * meanDynamic s none + floorEst s
    let u := validSample s a
    u.pws.good = s.pws.good + 1 ∧ u.pws.hold = (s.pws.hold && decide (s.pws.good + 1 < 10)) ∧
      u.pws.gain = sampledGain s m p (meanDynamic s none) ∧
      u.pws.cut = (if (capActive s : Rat) < m then 11 * (m - capActive s) / 10 else s.pws.cut) := by
  obtain ⟨bad, ok, hpws⟩ : ∃ bad ok, (validSample s a).pws = { s.pws with
      gain := sampledGain s (a.watts0 + a.watts1 : Nat) (s.pws.gain * meanDynamic s none + floorEst s) (meanDynamic s none)
      good := s.pws.good + 1
      bad := bad
      hold := s.pws.hold && decide (s.pws.good + 1 < 10)
      ok := ok
      cut := if (capActive s : Rat) < (a.watts0 + a.watts1 : Nat) then 11 * ((a.watts0 + a.watts1 : Nat) - capActive s) / 10
        else s.pws.cut } := by
    unfold validSample
    dsimp only
    rw [nextGain_drawn h, (onlyGens_foldl (fun t n => onlyGens_modGen t n _) _ _).pws, pws_writeTelemetry, pws_writeTelemetry,
      pws_setBits_ite]
    exact ⟨_, _, rfl⟩
  dsimp only
  rw [hpws]
  exact ⟨rfl, rfl, rfl, rfl⟩

/-! ### Caps (R403, R416) -/

/-- A write of a cap by one who may: die 0's register holds it clamped, and die 1's mirror discards it. -/
theorem capWrite_allowed {s : State} {r : Requester} {d o v : Nat} (hw : canWrite s r (pwsReg d o)) :
    capWrite s r d o v = if d = 0 then wr s (pwsReg 0 o) (clampCap v) else s := hw.gate _

theorem execPwsCapMgmtWrite_allowed {s : State} {r : Requester} {d : Fin 2} {v : BitVec 32} (hw : canWrite s r (pwsReg d 8)) :
    execPwsCapMgmtWrite r d v s = .next (if d.val = 0 then wr s (pwsReg 0 8) (clampCap v.toNat) else s) := by
  unfold execPwsCapMgmtWrite
  rw [capWrite_allowed hw]
  split
  · rename_i hcopy
    simp only [Bool.and_eq_true, decide_eq_true_eq] at hcopy
    rw [if_pos hcopy.1.1]
  · rfl

end Sys2Proof.Machine
end

section
/-! The statement about power (16_power_thermal.md). -/

open Sys2Proof Sys2Proof.Machine

/-- Settles O54: the steward's instant, a hatch's grants, points and quarters, telemetry, and the caps. Gain, ratios and
grants are exact rationals by entry 53 (ASSUMPTION); the point during a change is entry 54's and the scaled demand
entry 55's. -/
theorem powerIsGranted : Obligations.PowerIsGranted := by
  refine ⟨fun s hup => ?_, fun n s => ⟨fun g hsent => ?_, fun o hnew => ?_, fun hlive htrack => ?_, fun e hlive htrack hedges => ?_⟩,
    fun a s hup => ⟨fun hinvalid => ?_, fun hvalid hdrawn => ?_⟩, fun s hup => ?_,
    fun r d v s => ⟨fun hw => congrArg Host.Outcome.next (capWrite_allowed hw), fun hw => execPwsCapMgmtWrite_allowed hw,
      fun hdown => ?_⟩⟩
  · exact congrArg Host.Outcome.next (if_neg (by rw [hup]; decide))
  · refine congrArg Host.Outcome.next ?_
    rw [hsent]
  · refine congrArg Host.Outcome.next (congrArg (setGen s n) ?_)
    dsimp only
    rw [hnew]
  · exact congrArg Host.Outcome.next (if_pos (by rw [hlive, htrack]; rfl))
  · exact ⟨_, rfl, quarter_spec hlive htrack hedges⟩
  · show execTelemetrySample a s = _
    unfold execTelemetrySample
    simp [hinvalid, hup]
  · refine ⟨_, ?_, validSample_spec (s := { s with sup := { s.sup with watts := a.watts0 + a.watts1 } }) hdrawn⟩
    show execTelemetrySample a s = _
    unfold execTelemetrySample
    have hup' : dieUp { s with sup := { s.sup with watts := a.watts0 + a.watts1 } } 0 = true := hup
    simp only [hvalid, if_true, hup', Bool.not_true, Bool.false_eq_true, if_false]
  · exact congrArg Host.Outcome.next (if_neg (by rw [hup]; decide))
  · exact congrArg Host.Outcome.next (if_pos (by rw [hdown]; rfl))
end

section
/-! SUPPORT. Heat, droop and energy: readings, detectors and the counters of a period (R408–R413). -/

namespace Sys2Proof.Machine

open Sys2Proof

/-! ### What the lane's points leave alone (R407) -/

theorem onlyGens_setLane (s : State) : OnlyGens s (setLane s) := by
  unfold setLane
  split
  · exact .refl s
  · exact onlyGens_foldl (fun t n => (onlyGens_modGen t n _).trans (onlyGens_modGen _ n _)) _ _

/-- A change that touches pinned hatches leaves the readings and the levels that are in force. -/
theorem heat_touchLane (s : State) : (touchLane s).pws.temps = s.pws.temps ∧ (touchLane s).pws.hot = s.pws.hot := by
  unfold touchLane
  split
  · unfold startDrain
    split <;> exact ⟨rfl, rfl⟩
  · rw [(onlyGens_setLane s).pws]
    exact ⟨rfl, rfl⟩

theorem onlyGens_aimAll (s : State) : OnlyGens s (aimAll s) := onlyGens_foldl onlyGens_aimRatio _ _

/-! ### Readings (R408) -/

/-- Of several entries written in turn, each key holds its own where the keys differ. -/
theorem tget_foldl_tset {l : List (Nat × Nat)} (t : Tbl Nat) {k v : Nat} (hmem : (k, v) ∈ l)
    (hown : ∀ e ∈ l, e.1 = k → e.2 = v) : tget 0 (l.foldl (fun t e => tset t e.1 e.2) t) k = v := by
  induction l using List.reverseRecOn with
  | nil => exact absurd hmem List.not_mem_nil
  | append_singleton l e ih =>
    rw [List.foldl_append, List.foldl_cons, List.foldl_nil]
    by_cases hlast : e.1 = k
    · rw [hlast, hown e (by simp) hlast, tget_tset_same]
    · rw [tget_tset_ne _ _ _ _ _ (Ne.symm hlast)]
      refine ih ?_ fun e' he' => hown e' (List.mem_append_left _ he')
      rcases List.mem_append.mp hmem with h | h
      · exact h
      · rw [List.mem_singleton] at h
        subst h
        exact absurd rfl hlast

/-- A die's readings by octet. -/
def octetReadings (d : Nat) (ts : List Nat) : List (Nat × Nat) := (List.range 17).map (fun o => (17 * d + o, nth 0 ts o))

theorem mem_octetReadings {d k v : Nat} {ts : List Nat} :
    (k, v) ∈ octetReadings d ts ↔ ∃ o < 17, k = 17 * d + o ∧ v = nth 0 ts o := by
  unfold octetReadings
  simp only [List.mem_map, List.mem_range, Prod.mk.injEq]
  exact ⟨fun ⟨o, ho, hk, hv⟩ => ⟨o, ho, hk.symm, hv.symm⟩, fun ⟨o, ho, hk, hv⟩ => ⟨o, ho, hk.symm, hv.symm⟩⟩

/-- The levels in force after a die's sample. -/
def hotAfter (was : List Nat) (d : Nat) (ts : List Nat) : List Nat :=
  was.filter (fun k => k / 17 != d) ++
    ((octetReadings d ts).filter (fun e => decide (392 ≤ e.2) || (was.contains e.1 && decide (380 < e.2)))).map (·.1)

theorem mem_hotAfter {was ts : List Nat} {d o : Nat} (ho : o < 17) : 17 * d + o ∈ hotAfter was d ts ↔
    392 ≤ nth 0 ts o ∨ (17 * d + o ∈ was ∧ 380 < nth 0 ts o) := by
  have hdie : (17 * d + o) / 17 = d := by omega
  unfold hotAfter
  rw [List.mem_append, List.mem_filter, hdie, List.mem_map]
  constructor
  · rintro (⟨-, hother⟩ | ⟨⟨k, v⟩, hentry, rfl⟩)
    · simp at hother
    · obtain ⟨hmem, hlevel⟩ := List.mem_filter.mp hentry
      obtain ⟨o', ho', hk, rfl⟩ := mem_octetReadings.mp hmem
      obtain rfl : o' = o := by omega
      simpa using hlevel
  · intro h
    refine .inr ⟨(17 * d + o, nth 0 ts o), List.mem_filter.mpr ⟨mem_octetReadings.mpr ⟨o, ho, rfl, rfl⟩, ?_⟩, rfl⟩
    simpa using h

theorem mem_hotAfter_other {was ts : List Nat} {d k : Nat} (hk : k / 17 ≠ d) : k ∈ hotAfter was d ts ↔ k ∈ was := by
  unfold hotAfter
  rw [List.mem_append, List.mem_filter, List.mem_map]
  constructor
  · rintro (⟨h, -⟩ | ⟨⟨k', v⟩, hentry, rfl⟩)
    · exact h
    · obtain ⟨o, ho, heq, -⟩ := mem_octetReadings.mp (List.mem_filter.mp hentry).1
      exact absurd (show k' / 17 = d by omega) hk
  · exact fun h => .inl ⟨h, by simpa using hk⟩

theorem tget_octetReadings (t : Tbl Nat) {d o : Nat} (ts : List Nat) (ho : o < 17) :
    tget 0 ((octetReadings d ts).foldl (fun t e => tset t e.1 e.2) t) (17 * d + o) = nth 0 ts o := by
  refine tget_foldl_tset t (mem_octetReadings.mpr ⟨o, ho, rfl, rfl⟩) ?_
  rintro ⟨k, v⟩ hmem hk
  obtain ⟨o', -, hk', rfl⟩ := mem_octetReadings.mp hmem
  obtain rfl : o' = o := by dsimp only at hk; omega
  rfl

theorem nth_toNat (ts : List (BitVec 12)) (o : Nat) : nth 0 (ts.map (·.toNat)) o = (nth 0 ts o).toNat := by
  unfold nth
  rw [List.getD_eq_getElem?_getD, List.getD_eq_getElem?_getD, List.getElem?_map]
  cases ts[o]? <;> rfl

theorem dieSample_heat {s : State} {d : Nat} (ts : List Nat) (hup : dieUp s d = true) :
    (dieSample s d ts).pws.temps = (octetReadings d ts).foldl (fun t e => tset t e.1 e.2) s.pws.temps ∧
      (dieSample s d ts).pws.hot = hotAfter s.pws.hot d ts := by
  have hlane (c : Prop) [Decidable c] (t : State) : (if c then touchLane t else t).pws.temps = t.pws.temps ∧
      (if c then touchLane t else t).pws.hot = t.pws.hot := by
    split
    · exact heat_touchLane t
    · exact ⟨rfl, rfl⟩
  unfold dieSample
  rw [if_neg (by rw [hup]; decide)]
  dsimp only
  constructor
  · rw [(hlane _ _).1, (onlyGens_aimAll _).pws, pws_setBits_ite, octetReadings]
  · rw [(hlane _ _).2, (onlyGens_aimAll _).pws, pws_setBits_ite, hotAfter, octetReadings]

/-! ### Hatches in turn -/

section
variable {f : State → Nat → State} (hother : ∀ s n m, m ≠ n → gen (f s n) m = gen s m)
include hother

theorem gen_foldl_of_notMem {l : List Nat} {n : Nat} (hn : n ∉ l) (s : State) : gen (l.foldl f s) n = gen s n := by
  induction l generalizing s with
  | nil => rfl
  | cons a l ih =>
    obtain ⟨hna, hnl⟩ := not_or.mp (mt List.mem_cons.mpr hn)
    rw [List.foldl_cons, ih hnl, hother _ _ _ hna]

/-- What each hatch's turn does to its generator is done to every hatch of the list, however often it stands there. -/
theorem gen_foldl_of_mem {S : Gen → Gen → Prop} (hturn : ∀ s n, S (gen s n) (gen (f s n) n))
    (htrans : ∀ {a b c}, S a b → S b c → S a c) {l : List Nat} {n : Nat} (hn : n ∈ l) (s : State) :
    S (gen s n) (gen (l.foldl f s) n) := by
  induction l generalizing s with
  | nil => exact absurd hn List.not_mem_nil
  | cons a l ih =>
    rw [List.foldl_cons]
    by_cases hna : n = a
    · subst hna
      by_cases hnl : n ∈ l
      · exact htrans (hturn s n) (ih hnl _)
      · rw [gen_foldl_of_notMem hother hnl]
        exact hturn s n
    · rw [← hother s a n hna]
      exact ih (List.mem_of_ne_of_mem hna hn) _

end

theorem gen_aimRatio_ne {s : State} {n m : Nat} (h : m ≠ n) : gen (aimRatio s n) m = gen s m := by
  unfold aimRatio
  split
  · rfl
  · exact gen_modGen_ne _ _ _ _ h

theorem gen_aimRatio (s : State) (n : Nat) : ∃ k, gen (aimRatio s n) n = { gen s n with nextRatio := k } := by
  unfold aimRatio
  split
  · exact ⟨_, rfl⟩
  · exact ⟨_, gen_modGen_same _ _ _⟩

/-! ### Droop (R410) -/

/-- A detector's event for one hatch: its floor, and 256 edges to stretch. -/
def droopHatch (s : State) (n : Nat) : State :=
  aimRatio (modGen s n (fun x => { x with slow := x.slow ++ [(x.hc + 1, x.hc + 256)], pwr := { x.pwr with droop := true } })) n

/-- The end of its floor. -/
def undroopHatch (s : State) (n : Nat) : State :=
  aimRatio (modGen s n (fun x => { x with pwr := { x.pwr with droop := false } })) n

/-- What an event does to a hatch's generator. -/
def Droops (a b : Gen) : Prop :=
  b.hc = a.hc ∧ b.pwr.droop = true ∧ ∀ y, y ∈ b.slow ↔ y ∈ a.slow ∨ y = (a.hc + 1, a.hc + 256)

theorem Droops.trans {a b c : Gen} (h : Droops a b) (h' : Droops b c) : Droops a c := by
  obtain ⟨hhc, -, hslow⟩ := h
  obtain ⟨hhc', hdroop', hslow'⟩ := h'
  refine ⟨hhc'.trans hhc, hdroop', fun y => ?_⟩
  rw [hslow', hslow, hhc, or_assoc, or_self]

theorem droopHatch_droops (s : State) (n : Nat) : Droops (gen s n) (gen (droopHatch s n) n) := by
  unfold droopHatch
  obtain ⟨k, hk⟩ := gen_aimRatio (modGen s n (fun x =>
    { x with slow := x.slow ++ [(x.hc + 1, x.hc + 256)], pwr := { x.pwr with droop := true } })) n
  rw [hk, gen_modGen_same]
  exact ⟨rfl, rfl, fun y => by simp⟩

theorem droopHatch_other (s : State) (n m : Nat) (h : m ≠ n) : gen (droopHatch s n) m = gen s m :=
  (gen_aimRatio_ne h).trans (gen_modGen_ne _ _ _ _ h)

theorem undroopHatch_ends (s : State) (n : Nat) : (gen (undroopHatch s n) n).pwr.droop = false := by
  unfold undroopHatch
  obtain ⟨k, hk⟩ := gen_aimRatio (modGen s n (fun x => { x with pwr := { x.pwr with droop := false } })) n
  rw [hk, gen_modGen_same]

theorem undroopHatch_other (s : State) (n m : Nat) (h : m ≠ n) : gen (undroopHatch s n) m = gen s m :=
  (gen_aimRatio_ne h).trans (gen_modGen_ne _ _ _ _ h)

theorem onlyGens_droopHatch (s : State) (n : Nat) : OnlyGens s (droopHatch s n) :=
  (onlyGens_modGen _ _ _).trans (onlyGens_aimRatio _ _)

theorem onlyGens_undroopHatch (s : State) (n : Nat) : OnlyGens s (undroopHatch s n) :=
  (onlyGens_modGen _ _ _).trans (onlyGens_aimRatio _ _)

theorem pwsReg_offset {d o : Nat} (ho : o < 0x10000) : pwsReg d o % 0x10000 = o := by
  unfold pwsReg dieBase
  omega

theorem pwsReg_ne {d e o o' : Nat} (ho : o < 0x10000) (ho' : o' < 0x10000) (h : o ≠ o') : pwsReg d o ≠ pwsReg e o' :=
  fun heq => h ((pwsReg_offset ho).symm.trans ((congrArg (· % 0x10000) heq).trans (pwsReg_offset ho')))

/-- A count after an addition: it stays at its largest value (R485). -/
theorem rd_bump_same (s : State) (a n : Nat) (h : a ≠ satReg a) : rd (bump s a n) a = min (rd s a + n) (2 ^ 64 - 1) := by
  unfold bump
  dsimp only
  split
  · rename_i hfull
    rw [rd_setBits_ne _ _ _ _ h, rd_wr_same, Nat.min_eq_right (by omega)]
  · rename_i hroom
    rw [rd_wr_same, Nat.min_eq_left (by omega)]

/-- The die once its detector's event has been counted. -/
def droopCounted (s : State) (d : Nat) : State :=
  let t := setBits (bump s (pwsReg d 0x148) 1) (pwsReg d 0x10) 0x40
  { t with pws := { t.pws with spent := d :: t.pws.spent } }

theorem droop_armed {s : State} {d : Nat} (hup : dieUp s d = true) (harmed : d ∉ s.pws.spent) :
    droop s d = (trackOn (droopCounted s d) d).foldl droopHatch (droopCounted s d) := by
  unfold droop
  exact if_neg (by simp [hup, harmed])

theorem droop_spec {s : State} {d : Nat} (hup : dieUp s d = true) (harmed : d ∉ s.pws.spent) :
    let u := droop s d
    u.pws.spent = d :: s.pws.spent ∧ rd u (pwsReg d 0x148) = min (rd s (pwsReg d 0x148) + 1) (2 ^ 64 - 1) ∧
      (∀ n ∈ trackOn s d, (gen u n).pwr.droop = true ∧
        (∀ y, y ∈ (gen u n).slow ↔ y ∈ (gen s n).slow ∨ y = ((gen s n).hc + 1, (gen s n).hc + 256))) := by
  obtain ⟨r, hbump⟩ := bump_shape s (pwsReg d 0x148) 1
  have hsame : (droopCounted s d).gens = s.gens ∧ trackOn (droopCounted s d) d = trackOn s d ∧
      (droopCounted s d).pws.spent = d :: s.pws.spent := by
    unfold droopCounted
    rw [hbump]
    exact ⟨rfl, rfl, rfl⟩
  obtain ⟨hgens, htrack, hspent⟩ := hsame
  have honly := onlyGens_foldl onlyGens_droopHatch (trackOn s d) (droopCounted s d)
  have hcount : rd (droopCounted s d) (pwsReg d 0x148) = min (rd s (pwsReg d 0x148) + 1) (2 ^ 64 - 1) := by
    refine (rd_setBits_ne (bump s (pwsReg d 0x148) 1) (pwsReg d 0x10) _ _ (pwsReg_ne (by omega) (by omega) (by omega))).trans ?_
    refine rd_bump_same s _ 1 fun h => ?_
    have hoffset : pwsReg d 0x148 % 0x10000 = satReg (pwsReg d 0x148) % 0x10000 := congrArg (· % 0x10000) h
    rw [pwsReg_offset (by omega), satReg_offset] at hoffset
    omega
  dsimp only
  rw [droop_armed hup harmed, htrack]
  refine ⟨by rw [honly.pws, hspent], ?_, fun n hn => ?_⟩
  · rw [← hcount]
    unfold rd
    rw [honly.regs]
  · obtain ⟨-, hdroop, hslow⟩ := gen_foldl_of_mem droopHatch_other droopHatch_droops Droops.trans hn (droopCounted s d)
    have hgen : gen (droopCounted s d) n = gen s n := by unfold gen; rw [hgens]
    rw [hgen] at hslow
    exact ⟨hdroop, hslow⟩

/-! ### Energy (R413) -/

/-- What an energy counter holds, in pJ. -/
def energyOf (s : State) (a : Nat) : Nat := tget 0 s.pws.energy a

theorem energyOf_addEnergy_same (s : State) (a pj : Nat) : energyOf (addEnergy s a pj) a = energyOf s a + pj :=
  tget_tmod_same 0 s.pws.energy a (· + pj)

theorem energyOf_addEnergy_ne (s : State) {a b : Nat} (pj : Nat) (h : b ≠ a) : energyOf (addEnergy s a pj) b = energyOf s b :=
  tget_tmod_ne 0 s.pws.energy a b (· + pj) h

/-- A row of counters, each with its own addition. -/
def addRow (s : State) (key pj : Nat → Nat) (m : Nat) : State := (List.range m).foldl (fun s n => addEnergy s (key n) (pj n)) s

section
variable (s : State) (key pj : Nat → Nat)

theorem addRow_succ (m : Nat) : addRow s key pj (m + 1) = addEnergy (addRow s key pj m) (key m) (pj m) := by
  unfold addRow
  rw [List.range_succ, List.foldl_append, List.foldl_cons, List.foldl_nil]

theorem energyOf_addRow_other {a : Nat} (m : Nat) (h : ∀ n < m, a ≠ key n) : energyOf (addRow s key pj m) a = energyOf s a := by
  induction m with
  | zero => rfl
  | succ m ih => rw [addRow_succ, energyOf_addEnergy_ne _ _ (h m (by omega)), ih fun n hn => h n (by omega)]

theorem energyOf_addRow (hinj : ∀ i j, key i = key j → i = j) {k : Nat} (m : Nat) (hk : k < m) :
    energyOf (addRow s key pj m) (key k) = energyOf s (key k) + pj k := by
  induction m with
  | zero => omega
  | succ m ih =>
    rw [addRow_succ]
    by_cases hlast : k = m
    · subst hlast
      rw [energyOf_addEnergy_same, energyOf_addRow_other s key pj k fun n hn h => absurd (hinj _ _ h) (by omega)]
    · rw [energyOf_addEnergy_ne _ _ (fun h => hlast (hinj _ _ h)), ih (by omega)]

end

/-- A partition's energy of a period, with no channel owned. -/
def partEnergy (s : State) (e : EnergySample) (p : Nat) : Nat :=
  (s.pws.gain * (nth 0 e.hatches p : Nat)).floor.toNat + 691 * nth 0 e.upes p

/-- A channel's. -/
def chanEnergy (e : EnergySample) (n : Nat) : Nat := 691 * nth 0 e.granules n + 100 * nth 0 e.units n

theorem energy_unowned {s : State} {d : Nat} {e : EnergySample} (hfree : ∀ n < 32, chKind s d n = 0)
    (hall : ((List.range 8).map (partEnergy s e)).sum ≤ 1000000 * e.measured) :
    energy s d e = addEnergy (addRow (addRow s (fun n => pwsReg d (0x200 + 8 * n)) (chanEnergy e) 32)
      (fun p => pwsReg d (0x100 + 8 * p)) (partEnergy s e) 8) (pwsReg d 0x140)
      (1000000 * e.measured - ((List.range 8).map (partEnergy s e)).sum) := by
  have hnone (p : Nat) : (List.range 32).filter (fun n => chKind s d n != 0 && chPart s d n == p) = [] := by
    rw [List.filter_eq_nil_iff]
    intro n hn
    simp [hfree n (List.mem_range.mp hn)]
  unfold energy
  simp only [hnone, List.map_nil, List.sum_nil, Nat.add_zero]
  exact if_neg (Nat.not_lt.mpr hall)

theorem energy_spec {s : State} {d : Nat} {e : EnergySample} (hfree : ∀ n < 32, chKind s d n = 0)
    (hall : ((List.range 8).map (partEnergy s e)).sum ≤ 1000000 * e.measured) :
    let u := energy s d e
    (∀ p < 8, energyOf u (pwsReg d (0x100 + 8 * p)) = energyOf s (pwsReg d (0x100 + 8 * p)) + partEnergy s e p) ∧
    (∀ n < 32, energyOf u (pwsReg d (0x200 + 8 * n)) = energyOf s (pwsReg d (0x200 + 8 * n)) + chanEnergy e n) ∧
    energyOf u (pwsReg d 0x140) = energyOf s (pwsReg d 0x140) +
      (1000000 * e.measured - ((List.range 8).map (partEnergy s e)).sum) := by
  have hchan : ∀ i j, pwsReg d (0x200 + 8 * i) = pwsReg d (0x200 + 8 * j) → i = j := fun i j h => by unfold pwsReg at h; omega
  have hpart : ∀ i j, pwsReg d (0x100 + 8 * i) = pwsReg d (0x100 + 8 * j) → i = j := fun i j h => by unfold pwsReg at h; omega
  dsimp only
  rw [energy_unowned hfree hall]
  refine ⟨fun p hp => ?_, fun n hn => ?_, ?_⟩
  · rw [energyOf_addEnergy_ne _ _ (by unfold pwsReg; omega), energyOf_addRow _ (fun p => pwsReg d (0x100 + 8 * p)) _ hpart 8 hp,
      energyOf_addRow_other _ _ _ 32 fun n _ => by unfold pwsReg; omega]
  · rw [energyOf_addEnergy_ne _ _ (by unfold pwsReg; omega),
      energyOf_addRow_other _ _ _ 8 fun p _ => by unfold pwsReg; omega,
      energyOf_addRow _ (fun n => pwsReg d (0x200 + 8 * n)) _ hchan 32 hn]
  · rw [energyOf_addEnergy_same, energyOf_addRow_other _ _ _ 8 fun p _ => by unfold pwsReg; omega,
      energyOf_addRow_other _ _ _ 32 fun n _ => by unfold pwsReg; omega]

end Sys2Proof.Machine
end

section
/-! The statement about heat, droop and energy (16_power_thermal.md). -/

open Sys2Proof Sys2Proof.Machine

/-- Settles O55: a die's readings, its droop detector, and the counters of a period. The model keeps one detector for a die,
where R410 gives each octet one and R411 bounds how often a hatch is stretched (ASSUMPTION); the energy of the hatches is
an exact rational rounded down to pJ, by entry 53. -/
theorem heatDroopAndEnergy : Obligations.HeatDroopAndEnergy := by
  refine ⟨fun d ts s hup => ⟨_, rfl, fun o ho => ?_, fun k hk => ?_⟩, fun d s hup => ⟨fun hspent => ?_, fun harmed => ?_⟩,
    fun d s => ⟨_, rfl, fun n hn => ?_, fun n hn => ?_, ?_, ?_⟩, fun d s => rfl, fun d e s hup hfree => ?_⟩
  · obtain ⟨htemps, hhot⟩ := dieSample_heat (ts.map (·.toNat)) hup
    have htemp := tget_octetReadings s.pws.temps (d := d) (ts.map (·.toNat)) ho
    have hlevel := mem_hotAfter (was := s.pws.hot) (ts := ts.map (·.toNat)) (d := d) ho
    rw [nth_toNat] at htemp hlevel
    exact ⟨(congrArg (tget 0 · _) htemps).trans htemp, (iff_of_eq (congrArg (_ ∈ ·) hhot)).trans hlevel⟩
  · obtain ⟨-, hhot⟩ := dieSample_heat (ts.map (·.toNat)) hup
    exact (iff_of_eq (congrArg (k ∈ ·) hhot)).trans (mem_hotAfter_other hk)
  · exact congrArg Host.Outcome.next (if_pos (by simp [hspent]))
  · exact ⟨_, rfl, droop_spec hup harmed⟩
  · exact gen_foldl_of_mem (S := fun _ b => b.pwr.droop = false) undroopHatch_other undroopHatch_ends (fun _ h => h) hn s
  · exact gen_foldl_of_notMem undroopHatch_other hn s
  · exact (onlyGens_foldl onlyGens_undroopHatch _ s).pws
  · exact (onlyGens_foldl onlyGens_undroopHatch _ s).regs
  · intro pj all hall
    obtain ⟨hpart, hchan, hrest⟩ := energy_spec hfree hall
    refine ⟨_, congrArg Host.Outcome.next (if_pos hup), hpart, fun n hn => (hchan n hn).trans (Nat.add_assoc _ _ _).symm, hrest⟩
end

section
/-! SUPPORT. Resets and trips: what a write of memory leaves alone, reset commands, the crash slots, die and module resets
and thermal trips (R412, R417–R437). -/

namespace Sys2Proof.Machine

open Sys2Proof

/-! ### What a service write leaves alone (R279–R291) -/

/-- From `s` to `t` only memory changed, its stacks with what they record of accesses and errors, and what remembers that
bytes were written. -/
def OnlyMemory (s t : State) : Prop := ∃ r c k b m e j f x y, t = { s with
  regs := r, chans := c, stks := k, bbx := b, mem := m, memErr := e, journal := j, freeCtr := f, copies := x, upes := y }

theorem OnlyMemory.refl (s : State) : OnlyMemory s s := ⟨_, _, _, _, _, _, _, _, _, _, rfl⟩

theorem OnlyMemory.trans {s t u : State} (h : OnlyMemory s t) (h' : OnlyMemory t u) : OnlyMemory s u := by
  obtain ⟨_, _, _, _, _, _, _, _, _, _, rfl⟩ := h
  obtain ⟨_, _, _, _, _, _, _, _, _, _, rfl⟩ := h'
  exact ⟨_, _, _, _, _, _, _, _, _, _, rfl⟩

theorem OnlyMemory.crash {s t : State} (h : OnlyMemory s t) : t.crash = s.crash := by
  obtain ⟨_, _, _, _, _, _, _, _, _, _, rfl⟩ := h
  rfl

theorem onlyMemory_wr (s : State) (a v : Nat) : OnlyMemory s (wr s a v) := ⟨_, _, _, _, _, _, _, _, _, _, rfl⟩

theorem onlyMemory_setBits (s : State) (a m : Nat) : OnlyMemory s (setBits s a m) := onlyMemory_wr _ _ _

theorem onlyMemory_modChan (s : State) (st c : Nat) (f : Chan → Chan) : OnlyMemory s (modChan s st c f) :=
  ⟨_, _, _, _, _, _, _, _, _, _, rfl⟩

theorem onlyMemory_setStk (s : State) (st : Nat) (x : Stack) : OnlyMemory s (setStk s st x) :=
  ⟨_, _, _, _, _, _, _, _, _, _, rfl⟩

theorem onlyMemory_bump (s : State) (a n : Nat) : OnlyMemory s (bump s a n) := by
  rw [bump_regs]
  exact ⟨_, _, _, _, _, _, _, _, _, _, rfl⟩

theorem onlyMemory_logEv (s : State) (o c p a b : Nat) (f : Bool) : OnlyMemory s (logEv s o c p a b f) := by
  obtain ⟨_, _, h⟩ := logEv_shape s o c p a b f
  rw [h]
  exact ⟨_, _, _, _, _, _, _, _, _, _, rfl⟩

theorem onlyMemory_pickOf (s : State) (l : List Nat) : OnlyMemory s (pickOf s l).1 := by
  obtain ⟨_, _, h⟩ := pickOf_shape s l
  rw [h]
  exact ⟨_, _, _, _, _, _, _, _, _, _, rfl⟩

theorem onlyMemory_ite {c : Prop} [Decidable c] {s t u : State} (ht : OnlyMemory s t) (hu : OnlyMemory s u) :
    OnlyMemory s (if c then t else u) := by
  split
  · exact ht
  · exact hu

theorem onlyMemory_touchRow (s : State) (st c bank row : Nat) : OnlyMemory s (touchRow s st c bank row) := by
  obtain ⟨_, h⟩ := touchRow_shape s st c bank row
  rw [h]
  exact ⟨_, _, _, _, _, _, _, _, _, _, rfl⟩

theorem onlyMemory_accessed (s : State) (l : Loc) (w : Bool) : OnlyMemory s (accessed s l w) :=
  (onlyMemory_touchRow _ _ _ _ _).trans (onlyMemory_bump _ _ _)

theorem onlyMemory_bucketAdd (s : State) (st : Nat) : OnlyMemory s (bucketAdd s st) :=
  onlyMemory_ite ((onlyMemory_setStk s _ _).trans ((onlyMemory_setBits _ _ _).trans
    ((onlyMemory_bump _ _ _).trans (onlyMemory_logEv _ _ _ _ _ _ _)))) (onlyMemory_setStk s _ _)

theorem onlyMemory_reportSlab (s : State) (st x : Nat) : OnlyMemory s (reportSlab s st x) :=
  (onlyMemory_setBits _ _ _).trans ((onlyMemory_setBits _ _ _).trans
    (.trans ⟨_, _, _, _, _, _, _, _, _, _, rfl⟩ (onlyMemory_logEv _ _ _ _ _ _ _)))

theorem onlyMemory_strike (s : State) (l : Loc) : OnlyMemory s (strike s l) := by
  unfold strike
  dsimp only
  refine onlyMemory_ite (.refl s) (onlyMemory_ite (onlyMemory_ite (.refl s) (onlyMemory_ite (onlyMemory_reportSlab _ _ _) ?_)) ?_)
  · exact ((onlyMemory_pickOf _ _).trans (onlyMemory_pickOf _ _)).trans ((onlyMemory_wr _ _ _).trans (onlyMemory_modChan _ _ _ _))
  · split
    · exact .refl s
    · refine onlyMemory_ite (.refl s) ((onlyMemory_reportSlab s _ _).trans (onlyMemory_ite (.refl _) ?_))
      exact (onlyMemory_pickOf _ _).trans ((onlyMemory_wr _ _ _).trans (onlyMemory_modChan _ _ _ _))

theorem onlyMemory_noteUncorrectable (s : State) (l : Loc) (reader part : Nat) (poisoned : Bool) :
    OnlyMemory s (noteUncorrectable s l reader part poisoned) := by
  have hnoted (v : Nat) : OnlyMemory s (logEv (setBits (wr (bump s (mchReg l.st 0x2028) 1) (mchReg l.st 0x2040) v)
      (mchReg l.st 0x2000) 1) (l.st / 8) 0x20 part v l.st false) :=
    (((onlyMemory_bump _ _ _).trans (onlyMemory_wr _ _ _)).trans (onlyMemory_setBits _ _ _)).trans
      (onlyMemory_logEv _ _ _ _ _ _ _)
  unfold noteUncorrectable
  dsimp only
  split
  · exact hnoted _
  · exact (hnoted _).trans (onlyMemory_strike _ _)

theorem onlyMemory_noteCorrected (s : State) (l : Loc) (reader : Nat) (syms : List (Nat × Nat)) :
    OnlyMemory s (noteCorrected s l reader syms) := by
  have hcounted (v : Nat) : OnlyMemory s (wr (bump s (mchReg l.st 0x2020) 1) (mchReg l.st 0x2048) v) :=
    (onlyMemory_bump _ _ _).trans (onlyMemory_wr _ _ _)
  unfold noteCorrected pinAdd
  exact (hcounted _).trans ((onlyMemory_modChan _ _ _ _).trans (onlyMemory_bucketAdd _ _))

theorem onlyMemory_noteRead (s : State) (l : Loc) (reader part ovl : Nat) : OnlyMemory s (noteRead s l reader part ovl) := by
  unfold noteRead
  split
  · exact .refl s
  · exact onlyMemory_noteCorrected _ _ _ _
  · exact onlyMemory_noteUncorrectable _ _ _ _ _
  · exact onlyMemory_noteUncorrectable _ _ _ _ _

theorem onlyMemory_putGranule (s : State) (l : Loc) (data ovl : Nat) : OnlyMemory s (putGranule s l data ovl) := by
  unfold putGranule
  rw [noteGranule_shape]
  exact ⟨_, _, _, _, _, _, _, _, _, _, rfl⟩

theorem onlyMemory_memWriteIn (s : State) (a n v part : Nat) : OnlyMemory s (memWriteIn s a n v part) := by
  unfold memWriteIn
  split
  · exact .refl s
  · exact onlyMemory_ite ((onlyMemory_accessed _ _ _).trans (onlyMemory_putGranule _ _ _ _))
      ((onlyMemory_accessed s _ _).trans ((onlyMemory_noteRead _ _ _ _ _).trans
        ((onlyMemory_accessed _ _ _).trans (onlyMemory_putGranule _ _ _ _))))

theorem onlyMemory_takeFlip (s : State) (l : Loc) : OnlyMemory s (takeFlip s l) := by
  have hflip : OnlyMemory s (flipService s l).1 := by
    unfold flipService
    dsimp only
    split
    · exact (onlyMemory_wr _ _ _).trans (onlyMemory_setBits _ _ _)
    · exact .refl s
  unfold takeFlip
  exact hflip.trans (onlyMemory_ite (.refl _) (onlyMemory_putGranule _ _ _ _))

theorem onlyMemory_svcWriteGo (k : Nat) (s : State) (a n v part : Nat) : OnlyMemory s (svcWriteGo k s a n v part) := by
  induction k generalizing s a n v with
  | zero => exact .refl s
  | succ k ih =>
    unfold svcWriteGo
    refine onlyMemory_ite (.refl s) (.trans ?_ (ih _ _ _ _))
    refine (onlyMemory_memWriteIn s a (min n (64 - a % 64)) v part).trans ?_
    split
    · exact onlyMemory_takeFlip _ _
    · exact .refl _

theorem onlyMemory_svcWrite (s : State) (a n v part : Nat) : OnlyMemory s (svcWrite s a n v part) := by
  refine (onlyMemory_svcWriteGo (n / 64 + 2) s a n v part).trans ?_
  obtain ⟨_, _, h⟩ := touchAll_shape (svcWriteGo (n / 64 + 2) s a n v part) a n
  unfold svcWrite
  rw [h]
  exact ⟨_, _, _, _, _, _, _, _, _, _, rfl⟩

end Sys2Proof.Machine
end

section
/-! SUPPORT. Resets and trips: reset commands, the crash slots, die and module resets, and thermal trips (R412,
R417–R437). -/

namespace Sys2Proof.Machine

open Sys2Proof

/-! ### Requests (R420, R421, R434) -/

section
variable {s : State} {d v : Nat} {act : State → Nat → State}

theorem podCmd_acts (h : ∀ p, partOf s (128 * d + bits v 6 7) = some p → plateLive s p = false) :
    podCmd s d v act = act s (128 * d + bits v 6 7) := by
  unfold podCmd
  dsimp only
  cases hp : partOf s (128 * d + bits v 6 7) with
  | none => rfl
  | some p => exact if_neg (ne_true_of_eq_false (h p hp))

theorem podCmd_asks {p : Nat} (hp : partOf s (128 * d + bits v 6 7) = some p) (hlive : plateLive s p = true)
    (hfirst : (part s p).resetReq = none) :
    podCmd s d v act = modPart s p (fun x => { x with resetReq := some ⟨5, 128 * d + bits v 6 7, 0⟩ }) := by
  unfold podCmd
  dsimp only
  rw [hp]
  exact (if_pos hlive).trans (askReset_first _ _ hfirst)

end

section
variable {s : State} {r : Requester} {d : Fin 2} {v : BitVec 32} (hw : canWrite s r (rstReg d 4))
include hw

theorem exec_rstCmdPod (hop : bits v.toNat 0 3 = 1) : exec (.rstCmdPod r d v) s = .next (podCmd s d v.toNat resetPod) :=
  congrArg Host.Outcome.next ((hw.gate _).trans (if_pos hop))

theorem exec_rstCmdHatch (hop : bits v.toNat 0 3 = 2) : exec (.rstCmdHatch r d v) s = .next (podCmd s d v.toNat resetHatch) :=
  congrArg Host.Outcome.next ((hw.gate _).trans (if_pos hop))

end

theorem hang_asks {s : State} {n : Nat} (hcounts : hangCounts (gen s n) = true) (hdue : hangDue s n = true)
    (hup : dieUp s (n / 16) = true) (hfirst : (part s (gen s n).part).resetReq = none) :
    hang s n = modPart (logEv (rstEvent s (n / 16) 0) (n / 16) 0x11 (gen s n).part (hatchLow n) ((gen s n).hang / 50) false)
      (gen s n).part (fun x => { x with resetReq := some ⟨2, 0, 0⟩ }) := by
  unfold hang
  rw [if_neg (by rw [hcounts, hdue, hup]; decide)]
  refine askReset_first _ _ ?_
  rw [part_congr (parts_logEv _ _ _ _ _ _ _)]
  exact hfirst

/-! ### Partition resets (R423, R430, R431) -/

/-- Where both dies are up, they take part. -/
theorem upDies_both {s : State} (h0 : dieUp s 0 = true) (h1 : dieUp s 1 = true) : upDies s = [0, 1] := by
  simp [upDies, h0, h1]

theorem partDies_lt {s : State} {p d : Nat} (hoctets : ∀ k ∈ (part s p).octets, k < 32) (hd : d ∈ partDies s p) : d < 2 := by
  unfold partDies at hd
  rw [List.mem_dedup, List.mem_map] at hd
  obtain ⟨k, hk, rfl⟩ := hd
  have := hoctets k hk
  omega

theorem partReset_runs {s : State} {p : Nat} {q : ResetReq} (cut : Option (Nat × Nat)) (hreq : (part s p).resetReq = some q)
    (h0 : dieUp s 0 = true) (h1 : dieUp s 1 = true) (hoctets : ∀ k ∈ (part s p).octets, k < 32) :
    partReset s p cut = runReset s p q [0, 1] cut := by
  have hplate : partReset.plateDown p s = false := by
    unfold partReset.plateDown
    rw [List.any_eq_false]
    intro d hd
    obtain rfl | rfl : d = 0 ∨ d = 1 := by have := partDies_lt hoctets hd; omega
    · rw [h0]; decide
    · rw [h1]; decide
  unfold partReset
  rw [hreq]
  dsimp only
  rw [if_neg (ne_true_of_eq_false hplate), upDies_both h0 h1]

theorem dieDown_pickOf (s : State) (l : List Nat) : (pickOf s l).1.dieDown = s.dieDown := by
  obtain ⟨_, _, h⟩ := pickOf_shape s l
  rw [h]

theorem dieDown_listSlot (s : State) (g : Nat) : (listSlot s g).dieDown = s.dieDown := by
  unfold listSlot
  dsimp only
  split <;> rfl

theorem upDies_congr {s t : State} (h : t.dieDown = s.dieDown) : upDies t = upDies s := by
  unfold upDies dieUp
  rw [h]

/-- A partition reset that is late, in a partition that has one die. -/
theorem deadlineMissed_one {s : State} {p d : Nat} {q : ResetReq} (hreq : (part s p).resetReq = some q)
    (h0 : dieUp s 0 = true) (h1 : dieUp s 1 = true) (hone : partDies s p = [d]) (hd : d < 2) :
    deadlineMissed s p =
      let pods := (podsOf s p).filter (fun g => dieUp s (g / 128))
      let a := pickOf s (if pods.isEmpty then [1, 4, 6] else [1, 4, 5, 6])
      let b := pickOf a.1 pods
      if a.2 = 5 then noteEscalated (resetDies (runReset (listSlot b.1 b.2) p q [0, 1] none) [b.2 / 128] 8) (b.2 / 128) 1 5
      else noteEscalated (resetDies (runReset b.1 p q [0, 1] none) [d] 8) d 3 a.2 := by
  have hdies : (partDies s p).filter (dieUp s) = [d] := by
    rw [hone]
    obtain rfl | rfl : d = 0 ∨ d = 1 := by omega
    · simp [h0]
    · simp [h1]
  have hboth (t : State) (ht : t.dieDown = s.dieDown) : upDies t = [0, 1] := (upDies_congr ht).trans (upDies_both h0 h1)
  unfold deadlineMissed
  rw [hreq]
  dsimp only
  rw [hdies]
  have hwho (t : State) : pickOf t (if [d].length = 2 then [0, 1, 2] else [0]) = (t, 0) := rfl
  simp only [List.isEmpty_cons, Bool.false_eq_true, if_false, hwho]
  generalize (podsOf s p).filter (fun g => dieUp s (g / 128)) = pods
  obtain ⟨a, ha⟩ : ∃ a, a = pickOf s (if pods.isEmpty then [1, 4, 6] else [1, 4, 5, 6]) := ⟨_, rfl⟩
  obtain ⟨b, hb⟩ : ∃ b, b = pickOf a.1 pods := ⟨_, rfl⟩
  have hdown : b.1.dieDown = s.dieDown := by rw [hb, dieDown_pickOf, ha, dieDown_pickOf]
  rw [← ha, ← hb]
  by_cases hpod : a.2 = 5
  · simp only [hpod, if_true, hboth _ ((dieDown_listSlot b.1 b.2).trans hdown)]
    rfl
  · simp only [hpod, if_false, hboth _ hdown]
    rfl

/-! ### The crash slots (R425) -/

theorem crashSt_setCrash_empty (s : State) (d p : Nat) : crashSt (setCrash s d p 0) d p = 0 := by
  unfold crashSt setCrash
  exact tget_tdel_same _ _ _

theorem crashSt_setCrash_ne (s : State) {d e p q : Nat} (h : 8 * e + q ≠ 8 * d + p) :
    crashSt (setCrash s d p 0) e q = crashSt s e q := by
  unfold crashSt setCrash
  exact tget_tdel_ne _ _ _ _ h

/-- A die's half is acknowledged: its STATE, where it lies in memory, is EMPTY. -/
def ackHalf (p : Nat) (s : State) (d : Nat) : State :=
  setCrash (if crashSt s d p != 0 && crashOk s d then svcWrite s (crashAddr s d p + 6) 1 0 p else s) d p 0

theorem crashSt_ackHalf_same (s : State) (d p : Nat) : crashSt (ackHalf p s d) d p = 0 := crashSt_setCrash_empty _ _ _

theorem crashSt_ackHalf_ne (s : State) {d e : Nat} (p : Nat) (h : e ≠ d) : crashSt (ackHalf p s d) e p = crashSt s e p := by
  unfold ackHalf
  rw [crashSt_setCrash_ne _ (by omega)]
  unfold crashSt
  split
  · rw [(onlyMemory_svcWrite _ _ _ _ _).crash]
  · rfl

theorem mem_ackHalf {s : State} {d p : Nat} (h : crashSt s d p = 0) : (ackHalf p s d).mem = s.mem := by
  unfold ackHalf
  rw [h]
  rfl

theorem crashAck_spec (s : State) (p : Nat) :
    crashSt (crashAck s p) 0 p = 0 ∧ crashSt (crashAck s p) 1 p = 0 ∧
      (crashSt s 0 p = 0 → crashSt s 1 p = 0 → (crashAck s p).mem = s.mem) := by
  show crashSt (ackHalf p (ackHalf p s 0) 1) 0 p = 0 ∧ crashSt (ackHalf p (ackHalf p s 0) 1) 1 p = 0 ∧
    (_ → _ → (ackHalf p (ackHalf p s 0) 1).mem = s.mem)
  refine ⟨?_, crashSt_ackHalf_same _ _ _, fun h0 h1 => ?_⟩
  · rw [crashSt_ackHalf_ne _ _ (by decide), crashSt_ackHalf_same]
  · rw [mem_ackHalf ((crashSt_ackHalf_ne _ _ (by decide)).trans h1), mem_ackHalf h0]

/-! ### Die resets (R417–R419, R430, R432) -/

theorem dieDown_apcEvent (s : State) (m : Nat) : (apcEvent s m).dieDown = s.dieDown := by
  obtain ⟨_, h⟩ := apcEvent_shape s m
  rw [h]

theorem setPortState_shape (s : State) (k st lanes reason version : Nat) :
    ∃ r, setPortState s k st lanes reason version = { s with regs := r } := by
  have hwr (v : Nat) : ∃ r, wr (if portSt s k = st then s else setBits s (rylReg (k / 8) 0x10) 1) (portReg k 0) v =
      { s with regs := r } := by
    split <;> exact ⟨_, rfl⟩
  exact hwr _

/-- The Ethernet ports of a die that goes into reset close. -/
theorem closeEthernet_shape (s : State) : ∃ r, [14, 15].foldl (fun s k =>
    if portSt s k = 5 then setPortState s k 0 0 0 0 else s) s = { s with regs := r } := by
  refine List.foldlRecOn (motive := fun t : State => ∃ r, t = { s with regs := r }) _ _ ⟨s.regs, rfl⟩ fun t ht k _ => ?_
  obtain ⟨r, rfl⟩ := ht
  split
  · obtain ⟨r', h⟩ := setPortState_shape { s with regs := r } k 0 0 0 0
    exact ⟨r', h⟩
  · exact ⟨r, rfl⟩

/-- What a die reset leaves of the die itself: nothing requested, and no copy. -/
theorem clearDie_own (s : State) (d : Nat) : d ∉ (clearDie s d).dieReq ∧ ∀ e ∈ (clearDie s d).copies, e.1 / 32 ≠ d := by
  have hports (t : State) : (if d = 1 then [14, 15].foldl (fun s k => if portSt s k = 5 then setPortState s k 0 0 0 0 else s) t
      else t).dieReq = t.dieReq ∧ (if d = 1 then [14, 15].foldl (fun s k =>
        if portSt s k = 5 then setPortState s k 0 0 0 0 else s) t else t).copies = t.copies := by
    split
    · obtain ⟨_, h⟩ := closeEthernet_shape t
      rw [h]
      exact ⟨rfl, rfl⟩
    · exact ⟨rfl, rfl⟩
  have hregs (t : State) (a b e f : Nat) (k l : Nat → Bool) : (dropRegs (dropRegs (setChanges t d []) a b k) e f l).dieReq = t.dieReq ∧
      (dropRegs (dropRegs (setChanges t d []) a b k) e f l).copies = t.copies := by
    obtain ⟨_, _, h⟩ := setChanges_shape t d []
    rw [h]
    exact ⟨rfl, rfl⟩
  unfold clearDie
  dsimp only
  rw [(hports _).1, (hports _).2, (hregs _ _ _ _ _ _ _).1, (hregs _ _ _ _ _ _ _).2]
  dsimp only
  constructor
  · intro h
    simpa using (List.mem_filter.mp h).2
  · intro e he
    simpa using (List.mem_filter.mp he).2

/-- A die that is up goes down, the last thing that its reset does but for the event. -/
theorem resetDies_one {s : State} {d : Nat} (cause : Nat) (hup : dieUp s d = true) : ∃ t, resetDies s [d] cause =
    apcEvent { takeToken (clearDie t d) d with dieDown := d :: (takeToken (clearDie t d) d).dieDown } 1 := by
  have hdies : [d].filter (dieUp { s with dieReq := s.dieReq.filter (fun e => !([d].contains e)) }) = [d] := by
    show [d].filter (dieUp s) = [d]
    rw [List.filter_cons_of_pos hup, List.filter_nil]
  unfold resetDies
  dsimp only
  rw [hdies]
  exact ⟨_, rfl⟩

theorem dieReset_up {s : State} {d : Nat} (cause : Nat) (hup : dieUp s d = true) :
    dieUp (dieReset s d cause) d = false ∧ d ∉ (dieReset s d cause).dieReq ∧ ∀ e ∈ (dieReset s d cause).copies, e.1 / 32 ≠ d := by
  obtain ⟨t, ht⟩ := resetDies_one cause hup
  obtain ⟨r, htoken⟩ := takeToken_shape (clearDie t d) d
  obtain ⟨r', hevent⟩ := apcEvent_shape { takeToken (clearDie t d) d with dieDown := d :: (takeToken (clearDie t d) d).dieDown } 1
  obtain ⟨hreq, hcopies⟩ := clearDie_own t d
  unfold dieReset
  rw [ht, hevent, htoken]
  exact ⟨by simp [dieUp], hreq, hcopies⟩

/-- A die that is off or in reset only loses the request. -/
theorem dieReset_down {s : State} {d : Nat} (cause : Nat) (hdown : dieUp s d = false) :
    dieReset s d cause = { s with dieReq := s.dieReq.filter (· != d) } := by
  have hdies : [d].filter (dieUp { s with dieReq := s.dieReq.filter (fun e => !([d].contains e)) }) = [] := by
    show [d].filter (dieUp s) = []
    rw [List.filter_cons_of_neg (ne_true_of_eq_false hdown), List.filter_nil]
  have hreq : s.dieReq.filter (fun e => !([d].contains e)) = s.dieReq.filter (· != d) := by
    refine List.filter_congr fun e _ => ?_
    rw [List.contains_cons, List.contains_nil, Bool.or_false]
    rfl
  unfold dieReset resetDies
  dsimp only
  rw [hdies, hreq]
  rfl

theorem releaseDie_held {s : State} {d : Nat} (hpower : (domOf s d).st = 2) (hdown : s.dieDown.contains d = true) :
    releaseDie s d = apcEvent { s with
      dieDown := s.dieDown.filter (· != d)
      sup := { s.sup with inReset := s.sup.inReset.filter (· != d) } } 1 := if_pos ⟨hpower, hdown⟩

theorem not_contains_filter {l : List Nat} {a : Nat} (p : Nat → Bool) (h : l.contains a = false) : (l.filter p).contains a = false := by
  simp only [List.contains_eq_mem, decide_eq_false_iff_not] at h ⊢
  exact fun hmem => h (List.mem_filter.mp hmem).1

/-! ### Module resets (R420, R430, R437) -/

theorem warmEvent_requested {s : State} {c : Nat} (h : s.modReq = some (1, c)) : warmEvent s = warmReset s c := by
  unfold warmEvent
  rw [h]
  rfl

theorem warmEvent_escalates {s : State} {d : Nat} (hnone : s.modReq = none) (hlate : [0, 1].filter (resetting s) = [d]) :
    warmEvent s = noteEscalated (warmReset (nextFree s) 3) d 4 (Config.free 64 s.freeCtr).toNat := by
  unfold warmEvent
  rw [hnone]
  dsimp only
  rw [hlate]
  rfl

theorem coldEvent_requested {s : State} {c : Nat} (h : s.modReq = some (2, c)) : coldEvent s = coldReset s c := by
  unfold coldEvent
  rw [h]
  rfl

theorem coldEvent_escalates {s : State} (hnone : s.modReq = none) (hwarm : warmInProgress s = true) : coldEvent s =
    coldReset (logEv (nextFree s) 2 0x12 0xFF 5 (Config.free 64 s.freeCtr).toNat false) 3 := by
  unfold coldEvent
  rw [hnone]
  exact if_pos hwarm

theorem resetCmd_first {s : State} {v : Nat} (hkey : bits v 0 16 = 0x5A17) (hop : bits v 16 2 = 1 ∨ bits v 16 2 = 2)
    (hnone : s.modReq = none) : resetCmd s v = { s with modReq := some (bits v 16 2, 1) } := by
  unfold resetCmd askModule
  rw [if_pos ⟨hkey, hop⟩, hnone]

/-! ### Thermal trips (R412) -/

section
variable {s : State} (hpower : s.sup.standby = true) (hclear : tripLatched s = false)
include hpower hclear

theorem stackTrip_latches {st : Nat} (hhot : 440 ≤ (stk s st).temp) : stackTrip s st =
    modStk (setBits (trip s 0 st (st / 8) (stk s st).temp) (mchReg st 8) 8) st (fun x => { x with level := 4 }) := by
  have hreading : readingOf s (stk s st).temp 440 = (s, (stk s st).temp) := if_pos hhot
  unfold stackTrip
  rw [if_neg (by rw [hpower, hclear]; decide), hreading]

theorem dieTrip_latches {d o : Nat} (hhot : 420 ≤ dieHottest s d) (ho : o < 17)
    (hsensor : ∀ k < 17, tget 0 s.pws.temps (17 * d + k) = dieHottest s d ↔ k = o) :
    dieTrip s d = trip s 1 o d (dieHottest s d) := by
  have hreading : readingOf s (dieHottest s d) 420 = (s, dieHottest s d) := if_pos hhot
  have hfound : tripSensor s d = (s, 1, o) := by
    unfold tripSensor
    rw [List.find?_range_eq_some.mpr ⟨?_, List.mem_range.mpr ho, fun k hk => ?_⟩]
    · rw [(hsensor o ho).mpr rfl]
      simp [hhot]
    · have hother : tget 0 s.pws.temps (17 * d + k) ≠ dieHottest s d := fun h => by
        have := (hsensor k (by omega)).mp h
        omega
      simp [hother]
  unfold dieTrip
  rw [if_neg (by rw [hpower, hclear]; decide), hreading]
  dsimp only
  rw [hfound]

end

/-- A stack's trip is released. -/
def releaseStack (s : State) (st : Nat) : State :=
  modStk (clrBits s (mchReg st 8) 8) st (fun x => if x.level = 4 then { x with level := 0 } else x)

theorem level_releaseStack (s : State) (st k : Nat) (h : k = st ∨ (stk s k).level ≠ 4) : (stk (releaseStack s st) k).level ≠ 4 := by
  unfold releaseStack
  by_cases hk : k = st
  · subst hk
    rw [stk_modStk_same]
    split
    · exact Nat.zero_ne_add_one 3
    · assumption
  · rw [stk_modStk_ne _ _ _ _ hk]
    exact h.resolve_left hk

theorem level_releaseStacks (l : List Nat) (s : State) {k : Nat} (h : k ∈ l ∨ (stk s k).level ≠ 4) :
    (stk (l.foldl releaseStack s) k).level ≠ 4 := by
  induction l generalizing s with
  | nil => exact h.resolve_left List.not_mem_nil
  | cons a l ih =>
    rw [List.foldl_cons]
    refine ih _ ?_
    rcases h with h | h
    · rcases List.mem_cons.mp h with rfl | h
      · exact .inr (level_releaseStack _ _ _ (.inl rfl))
      · exact .inl h
    · exact .inr (level_releaseStack _ _ _ (.inr h))

theorem releaseStacks_shape (l : List Nat) (s : State) : ∃ r k, l.foldl releaseStack s = { s with regs := r, stks := k } :=
  List.foldlRecOn (motive := fun t : State => ∃ r k, t = { s with regs := r, stks := k }) l _ ⟨s.regs, s.stks, rfl⟩
    fun t ht a _ => by
      obtain ⟨r, k, rfl⟩ := ht
      exact ⟨_, _, rfl⟩

/-- A trip's release for a die: the boot may hold it longer. -/
def untripDie (s : State) (d : Nat) : State := if s.sup.inReset.contains d then s else releaseDie s d

theorem untripDie_shape (s : State) (d : Nat) : ∃ r l m, untripDie s d =
    { s with regs := r, dieDown := l, sup := { s.sup with inReset := m } } ∧ (∀ e ∈ l, e ∈ s.dieDown) ∧
      (∀ e ∈ m, e ∈ s.sup.inReset) := by
  unfold untripDie
  split
  · exact ⟨_, _, _, rfl, fun _ h => h, fun _ h => h⟩
  · unfold releaseDie
    split
    · obtain ⟨r, h⟩ := apcEvent_shape { s with
        dieDown := s.dieDown.filter (· != d)
        sup := { s.sup with inReset := s.sup.inReset.filter (· != d) } } 1
      rw [h]
      exact ⟨_, _, _, rfl, fun _ h => (List.mem_filter.mp h).1, fun _ h => (List.mem_filter.mp h).1⟩
    · exact ⟨_, _, _, rfl, fun _ h => h, fun _ h => h⟩

/-- A powered die that the boot does not hold runs again. -/
theorem dieUp_untripDie {s : State} {d : Nat} (hpower : (domOf s d).st = 2) (hboot : s.sup.inReset.contains d = false) :
    dieUp (untripDie s d) d = true := by
  unfold untripDie
  rw [if_neg (ne_true_of_eq_false hboot)]
  by_cases hdown : s.dieDown.contains d = true
  · rw [releaseDie_held hpower hdown]
    unfold dieUp
    rw [dieDown_apcEvent]
    simp
  · unfold releaseDie
    rw [if_neg (fun h => hdown h.2)]
    unfold dieUp
    rw [Bool.eq_false_iff.mpr hdown]
    rfl

/-- Releasing one die leaves the other as it was. -/
theorem untripDie_keeps {s : State} {d e : Nat} : (dieUp s e = true → dieUp (untripDie s d) e = true) ∧
    domOf (untripDie s d) e = domOf s e ∧
    (s.sup.inReset.contains e = false → (untripDie s d).sup.inReset.contains e = false) := by
  obtain ⟨_, _, _, h, hdown, hboot⟩ := untripDie_shape s d
  rw [h]
  refine ⟨fun hup => ?_, ?_, fun hnot => ?_⟩
  · unfold dieUp at hup ⊢
    simp only [List.contains_eq_mem, Bool.not_eq_true', decide_eq_false_iff_not] at hup ⊢
    exact fun hmem => hup (hdown e hmem)
  · unfold domOf
    split <;> rfl
  · simp only [List.contains_eq_mem, decide_eq_false_iff_not] at hnot ⊢
    exact fun hmem => hnot (hboot e hmem)

theorem memory_untripDie (s : State) (d : Nat) : (untripDie s d).stks = s.stks ∧ (untripDie s d).mem = s.mem := by
  obtain ⟨_, _, _, h, -, -⟩ := untripDie_shape s d
  rw [h]
  exact ⟨rfl, rfl⟩

/-- Both dies' releases. -/
theorem dieUp_untripDies {s : State} {d : Nat} (hd : d < 2) (hpower : (domOf s d).st = 2)
    (hboot : s.sup.inReset.contains d = false) : dieUp (untripDie (untripDie s 0) 1) d = true := by
  obtain rfl | rfl : d = 0 ∨ d = 1 := by omega
  · exact untripDie_keeps.1 (dieUp_untripDie hpower hboot)
  · obtain ⟨-, hdom, hheld⟩ := untripDie_keeps (s := s) (d := 0) (e := 1)
    exact dieUp_untripDie (by rw [hdom, hpower]) (hheld hboot)

/-- The stacks once a trip's release has been written. -/
def stacksReleased (s : State) : State :=
  (List.range 16).foldl releaseStack (wr s (wrdReg 0x400) (tripResult (rd s (wrdReg 0x400)) 1 - 1))

theorem releaseStacks_spec (s : State) : (∀ st < 16, (stk ((List.range 16).foldl releaseStack s) st).level ≠ 4) ∧
    ((List.range 16).foldl releaseStack s).mem = s.mem ∧ ((List.range 16).foldl releaseStack s).sup = s.sup := by
  refine ⟨fun st hst => level_releaseStacks _ _ (.inl (List.mem_range.mpr hst)), ?_⟩
  obtain ⟨r, k, hstacks⟩ := releaseStacks_shape (List.range 16) s
  rw [hstacks]
  exact ⟨rfl, rfl⟩

theorem stacksReleased_spec (s : State) : (∀ st < 16, (stk (stacksReleased s) st).level ≠ 4) ∧
    (stacksReleased s).mem = s.mem ∧ (stacksReleased s).sup = s.sup := by
  obtain ⟨r, h⟩ := wr_shape s (wrdReg 0x400) (tripResult (rd s (wrdReg 0x400)) 1 - 1)
  unfold stacksReleased
  rw [h]
  exact releaseStacks_spec { s with regs := r }

theorem tripClear_cool {s : State} {v : Nat} (hkey : bits v 0 16 = 0x7A1E) (hlatched : tripLatched s = true)
    (hcool : bits (rd s (wrdReg 0x400)) 9 12 ≤ 320) : tripClear s v = untripDie (untripDie (stacksReleased s) 0) 1 := by
  unfold tripClear
  dsimp only
  rw [if_neg (by rw [hkey, hlatched]; decide), if_neg (Nat.not_lt.mpr hcool)]
  rfl

theorem tripClear_hot {s : State} {v : Nat} (hkey : bits v 0 16 = 0x7A1E) (hlatched : tripLatched s = true)
    (hhot : 320 < bits (rd s (wrdReg 0x400)) 9 12) : tripClear s v = wr s (wrdReg 0x400) (tripResult (rd s (wrdReg 0x400)) 2) := by
  unfold tripClear
  dsimp only
  rw [if_neg (by rw [hkey, hlatched]; decide), if_pos hhot]

/-- A trip's release: no stack is tripped any more, and the powered dies run that the boot does not hold. -/
theorem tripClear_cool_spec {s : State} {v : Nat} (hkey : bits v 0 16 = 0x7A1E) (hlatched : tripLatched s = true)
    (hcool : bits (rd s (wrdReg 0x400)) 9 12 ≤ 320) :
    let u := tripClear s v
    (∀ st < 16, (stk u st).level ≠ 4) ∧ u.mem = s.mem ∧
      (∀ d < 2, (domOf s d).st = 2 → s.sup.inReset.contains d = false → dieUp u d = true) := by
  obtain ⟨hstks, hmem, hsup⟩ := stacksReleased_spec s
  dsimp only
  rw [tripClear_cool hkey hlatched hcool]
  refine ⟨fun st hst => ?_, ?_, fun d hd hpower hboot => dieUp_untripDies hd ?_ ?_⟩
  · unfold stk
    rw [(memory_untripDie _ _).1, (memory_untripDie _ _).1]
    exact hstks st hst
  · rw [(memory_untripDie _ _).2, (memory_untripDie _ _).2, hmem]
  · unfold domOf at hpower ⊢
    rw [hsup]
    exact hpower
  · rw [hsup]
    exact hboot

end Sys2Proof.Machine
end

section
/-! The statement about resets and trips (16_power_thermal.md, 17_reset_recovery.md). -/

open Sys2Proof Sys2Proof.Machine

/-- Settles O56: reset commands, hangs and drains, partition resets, the crash slots, die and module resets, and trips. That
resets which nobody requested follow a missed deadline is entry 86 (ASSUMPTION), what an escalation records entry 87, what
a trip reads entry 90, and that a die reset of a die already down only drops its request entry 67. -/
theorem resetsRunAndTripsLatch : Obligations.ResetsRunAndTripsLatch := by
  refine ⟨fun r d v s hw => ?_, fun n s hcounts hdue hup hfirst => ?_, fun p s hretiring hfirst => ?_,
    fun p q s hreq h0 h1 hoctets => ⟨?_, fun k b => ?_, fun d hone hd => ?_⟩, fun r d p s hw => ?_,
    fun d s => ⟨fun hup => ?_, fun hdown => ?_, fun hcool hboot hpower hheld hmod => ?_⟩,
    fun s hpower => ⟨fun c hreq => ?_, fun d hnone hlate => ?_, fun c hreq hc hfree => ?_, fun hnone hwarm => ?_⟩,
    fun r v s hw hkey hnone => ⟨fun hop => ?_, fun hop => ?_⟩,
    fun s hpower hcool => ⟨fun st hhot => ?_, fun d o hhot hsensor => ?_⟩,
    fun s hlatched => ⟨fun t => ?_, fun r v hw hkey => ⟨fun hhot => ?_, fun hcool => ?_⟩⟩⟩
  · refine ⟨fun hop hnone => ?_, fun hop hnone => ?_, fun p hp hdead => ⟨fun hop => ?_, fun hop => ?_⟩,
      fun p hp hlive hfirst => ⟨fun hop => ?_, fun hop => ?_⟩, fun hop hfirst => ?_, fun hop hfirst => ?_⟩
    · rw [exec_rstCmdPod hw hop, podCmd_acts fun p hp => absurd (hnone.symm.trans hp) (Option.some_ne_none p).symm]
    · rw [exec_rstCmdHatch hw hop, podCmd_acts fun p hp => absurd (hnone.symm.trans hp) (Option.some_ne_none p).symm]
    · rw [exec_rstCmdPod hw hop, podCmd_acts fun p' hp' => by rwa [← Option.some.inj (hp.symm.trans hp')]]
    · rw [exec_rstCmdHatch hw hop, podCmd_acts fun p' hp' => by rwa [← Option.some.inj (hp.symm.trans hp')]]
    · rw [exec_rstCmdPod hw hop, podCmd_asks hp hlive hfirst]
    · rw [exec_rstCmdHatch hw hop, podCmd_asks hp hlive hfirst]
    · exact congrArg Host.Outcome.next ((hw.gate _).trans ((if_pos hop).trans (askReset_first _ _ hfirst)))
    · exact congrArg Host.Outcome.next ((hw.gate _).trans ((if_pos hop).trans (if_neg (ne_true_of_eq_false hfirst))))
  · exact congrArg Host.Outcome.next (hang_asks hcounts hdue hup hfirst)
  · exact congrArg Host.Outcome.next ((if_pos hretiring).trans (askReset_first _ _ hfirst))
  · exact congrArg Host.Outcome.next (partReset_runs none hreq h0 h1 hoctets)
  · exact congrArg Host.Outcome.next (partReset_runs (some (k, b)) hreq h0 h1 hoctets)
  · exact congrArg Host.Outcome.next (deadlineMissed_one hreq h0 h1 hone hd)
  · exact ⟨_, congrArg Host.Outcome.next (hw.gate _), crashAck_spec s p⟩
  · exact ⟨_, rfl, dieReset_up 7 hup⟩
  · exact congrArg Host.Outcome.next (dieReset_down 7 hdown)
  · refine congrArg Host.Outcome.next ((if_neg (by rw [hcool, hboot]; decide)).trans ((releaseDie_held hpower hheld).trans ?_))
    exact if_neg (ne_true_of_eq_false (not_contains_filter _ hmod))
  · exact congrArg Host.Outcome.next ((if_pos hpower).trans (warmEvent_requested hreq))
  · exact congrArg Host.Outcome.next ((if_pos hpower).trans (warmEvent_escalates hnone hlate))
  · exact ⟨_, congrArg Host.Outcome.next ((if_pos hpower).trans (coldEvent_requested hreq)), coldReset_runs hc hfree⟩
  · exact congrArg Host.Outcome.next ((if_pos hpower).trans (coldEvent_escalates hnone hwarm))
  · refine congrArg Host.Outcome.next ((hw.gate _).trans ((if_pos hop).trans ?_))
    rw [resetCmd_first hkey (.inl hop) hnone, hop]
  · refine congrArg Host.Outcome.next ((hw.gate _).trans ((if_pos hop).trans ?_))
    rw [resetCmd_first hkey (.inr hop) hnone, hop]
  · exact congrArg Host.Outcome.next (stackTrip_latches hpower hcool hhot)
  · exact congrArg Host.Outcome.next (dieTrip_latches hpower hcool hhot o.isLt hsensor)
  · exact congrArg Host.Outcome.next (if_pos hlatched)
  · exact congrArg Host.Outcome.next ((hw.gate _).trans (tripClear_hot hkey hlatched hhot))
  · exact ⟨_, congrArg Host.Outcome.next (hw.gate _), tripClear_cool_spec hkey hlatched hcool⟩
end
